-- ==== Sys2Proof/Word.lean ====
section
/-! DEFINITION. Word types of the SK4 and their plainest arithmetic (R12: little-endian, bit 0 least significant). -/
namespace Sys2Proof

/-- One byte. -/
abbrev Byte := BitVec 8
/-- A 32-bit register or FP32 word. -/
abbrev W32 := BitVec 32
/-- A 64-bit word: scalar registers, cell headers and trailers. -/
abbrev W64 := BitVec 64
/-- One instruction-memory word (R44, R77). -/
abbrev W256 := BitVec 256

end Sys2Proof
end

