-- ==== Sys2Proof/Syntax.lean ====
section
/-! DEFINITION. The commands of the SK4 taken as a block: one constructor of `Instr` per row of spec/opcode_table.json, in the
table's order, and the plain data types that commands and state share. The table gives no operand bits, so a command's operands
name the object it acts on (core, dale, port, ...) and what the outside supplies with it. -/
namespace Sys2Proof

/-- Host port A (west die) or B (east die) (R8, R314). -/
inductive Port where
  | a
  | b
  deriving DecidableEq, Repr

/-- The words of one instruction (R77, R78, R84): word 0 and the extension words, 0 where LEN does not provide them. -/
structure Ins where
  w0 : W256
  w1 : W256 := 0
  w2 : W256 := 0
  deriving DecidableEq, Repr

/-- A 64-byte fabric cell (R289): header, payload, trailer. -/
structure FCell where
  hdr : W64
  pay : BitVec 384
  trl : W64 := 0
  deriving DecidableEq, Repr

/-- Hardware faults that strike while a command runs; the sender of the command supplies them, since no rule says when they come. -/
inductive HwEvent where
  /-- 32-byte word `word` of basin row (bank, row) of core `p` has an error that cannot be corrected (R217). -/
  | basinUe (p bank row word : Nat)
  /-- The same with an error that can be corrected (R217). -/
  | basinCe (p bank row word : Nat)
  /-- 32-byte unit `unit` of die `die`'s HBM cannot be corrected (R234). -/
  | hbmUe (die unit : Nat)
  /-- The same, correctable (R234). -/
  | hbmCe (die unit : Nat)
  /-- Word `word` of dale `d`'s instruction memory cannot be corrected (R46). -/
  | imemUe (d word : Nat)
  /-- The same, correctable (R46). -/
  | imemCe (d word : Nat)
  /-- Handle entry `h` of bank `bank` of core `p` disagrees with its complement (R211). -/
  | hndCmp (p bank h : Nat)
  /-- Another complement-protected item of R395 disagrees with its complement, and no copy repairs it (R395). -/
  | tableCmp
  /-- The residue checker of column `col` of core `p` finds the residue `rho` for chunk `chunk` of the run's activation row `row` (R159). -/
  | residue (p col row chunk rho : Nat)
  /-- The duplicated post-unit arithmetic of core `p` differs in the work at hand (R166). -/
  | dupadd (p : Nat)
  deriving DecidableEq, Repr

/-- The payload of a VOTE cell (R374), a vote or a verdict. -/
structure Vote where
  /-- Sending module's logical index. -/
  child : Nat
  slot : Nat
  src : BitVec 16
  notrun : Bool := false
  kind : Nat := 0
  counted : Bool := false
  correct : Bool := false
  escal : Bool := false
  run : Nat := 0
  slots : BitVec 256 := 0
  deriving DecidableEq, Repr

/-- One beat entry of a memory plan (R232): the loader's own reading of the list, whose encoding is not an interface. -/
structure Beat where
  seg : Nat
  lc : Nat
  stack : Nat
  lane : Nat
  stream : Nat
  pos : Nat
  deriving DecidableEq, Repr

/-- What one capacity certificate bounds (R95, R112, R153, R247). -/
inductive CertKind where
  | unitQueue
  | channel (decl : Nat)
  | postFifo
  | memTags
  | fabTags
  | sidePortOverlap
  deriving DecidableEq, Repr

/-- A capacity certificate: a constant, or the index of a formula (R95). -/
structure Cert where
  kind : CertKind
  isFormula : Bool := false
  val : Nat
  deriving DecidableEq, Repr

/-- A program image (R72): its bytes, with the beat lists of its two plans and its certificates as the loader reads them (R95, R232). -/
structure Image where
  bytes : List Byte
  beats : List (List Beat) := []
  certs : List Cert := []
  deriving DecidableEq, Repr

/-- Who asks for a FOP change (R34). -/
inductive Requester where
  | host (port : Port)
  | controller
  deriving DecidableEq, Repr

/-- A request record on a service mailbox ring (R60): the requests the manual names. -/
inductive MbRequest where
  /-- Threaded work on core `p`: an image of the signed firmware or of a listed helper set (R66). -/
  | threadedWork (p : Nat) (store : List W256)
  /-- Set the hardware module identifier in flash (R449). -/
  | setModid (v : BitVec 16)
  /-- Write an entry of the inactive route table bank (R300). -/
  | route (dmod : Nat) (out : Nat)
  /-- Write a tree mask of the inactive multicast bank: port 0-23, 24 for this module (R303). -/
  | treeMask (group : Nat) (out : Nat) (mask : BitVec 64)
  /-- Write a member record of the inactive multicast bank (R303). -/
  | member (group idx dmod core ep : Nat)
  /-- Mark core `core` of another module, or with 255 the whole module, fenced or not from the next switch on (R306). -/
  | fence (dmod core : Nat) (on : Bool)
  /-- Name the switch tick of the route, multicast and fence banks (R300). -/
  | switchAt (tick : Nat)
  /-- Write bytes of the committed content of a region from an offset on, while ticks stop (R239, R424). -/
  | region (i off : Nat) (b : List Byte)
  /-- Ask for the measurement log (R415). -/
  | readLog
  /-- Ask that core `p` be unfenced (R69's recovery sequence, step 4). -/
  | unfence (p : Nat)
  /-- Trim a die's core rail by some mV from the default (R33). -/
  | railTrim (die : Nat) (mv : Int)
  /-- Resume or discard a stream context that a fault has halted (R254). -/
  | stream (p ctx : Nat) (go : Bool)
  /-- Place a record for the threaded work of core `p` in its core service ring, whose place the firmware chooses (R60). -/
  | coreRecord (p bank row : Nat) (body : List Byte)
  /-- A firmware image in recovery mode (R411). -/
  | firmware (slot : List Byte)
  deriving DecidableEq, Repr

/-- Why a fabric port goes DOWN (R288). -/
inductive DownCause where
  | resends
  | silence
  | lostLock
  deriving DecidableEq, Repr

/-- What triggers a terrace exit (R402). -/
inductive ExitTrigger where
  | tolerance
  | wake
  | start
  | load
  | serviceCell
  deriving DecidableEq, Repr

/-- What boot finds on the module and on its straps and ports (R409 to R411). -/
structure BootFinds where
  /-- Flash slots whose signature verifies (R414). -/
  slotOk : List Bool := [true, true]
  /-- HBM stacks that train (R409 step 4). -/
  trained : BitVec 8 := 0xFF
  /-- Cores that fail self-test (R410). -/
  bistFail : List Nat := []
  deriving DecidableEq, Repr

/-- A core's mode (R67). -/
inductive CoreMode where
  | halt
  | broadcast
  | threaded
  deriving DecidableEq, Repr

/-- Why a threaded stream halts (R254). -/
inductive HaltCause where
  | xlatMiss
  | hbmUe
  | pcieError
  deriving DecidableEq, Repr

/-- Why intake of a port stops (R330). -/
inductive StopCause where
  | linkDown
  | perst
  | disable
  deriving DecidableEq, Repr

/-- The commands. A `core` operand is a physical core 0-191, a `dale` 0-11, a `die` 0 (west) or 1 (east), a fabric port 0-23. -/
inductive Instr where
  /-- TICK_SOURCE_EDGE (R27, R18). An edge of source `src` (0-23 a fabric port, 0x1F TICK_IN) arrives. -/
  | tickSourceEdge (src : Nat)
  /-- TICK_SYMBOL_ARRIVAL (R17, R282). A tick symbol arrives on fabric port n with its tick number and delay in eighths of a reference period. -/
  | tickSymbolArrival (n tick delay : Nat)
  /-- TICK_BOUNDARY (R38, R467). The regions reach the named boundary lc; each port's PTM host time, where PTM runs (R340). -/
  | tickBoundary (ptmA ptmB : Option W64)
  /-- MISSED_BOUNDARY (R18). No edge of the primary source came within the window. -/
  | missedBoundary
  /-- HOLDOVER_EXPIRY (R18). Holdover has run out. -/
  | holdoverExpiry
  /-- TICK_NUMBER_EXHAUSTED (R20). The tick number has reached its largest value. -/
  | tickNumberExhausted
  /-- TICK_START (R23). A paired write of TCK_CTL.START = 1. -/
  | tickStart (port : Port)
  /-- TICK_NUM_START_WRITE (R20). A paired write of TCK_NUM_START. -/
  | tickNumStartWrite (port : Port) (v : BitVec 48)
  /-- COMMIT_ZONE_OPEN (R24). TCK_NP reaches N - Z. -/
  | commitZoneOpen (ev : List HwEvent)
  /-- VOTE_SEND (R373). N - Z + 512 nominal periods. -/
  | voteSend
  /-- VOTE_ARRIVAL (R374). A child's VOTE cell arrives. -/
  | voteArrival (v : Vote)
  /-- VOTE_CUTOFF (R376). The root reaches its cut-off. -/
  | voteCutoff
  /-- VERDICT_DECIDE (R375). The root decides. -/
  | verdictDecide
  /-- VERDICT_ARRIVAL (R375). A verdict cell arrives from the parent. -/
  | verdictArrival (v : Vote)
  /-- WATERSHED_COMMIT (R377). N - 32 with a COMMIT verdict held. -/
  | watershedCommit
  /-- WATERSHED_DISCARD (R378). N - 32 with a DISCARD or HOLD verdict held. -/
  | watershedDiscard
  /-- IN_DOUBT (R379). N - 32 with no verdict held. -/
  | inDoubt
  /-- OVERFLOW_STAGING_COPY (R107, R251). Committed overflow staging is copied to host memory. -/
  | overflowStagingCopy (port : Port)
  /-- BOUNDARY_CELL_DISCARD (R380). The oldest cell at core p's stop arrives in the discard window. -/
  | boundaryCellDiscard (p : Nat)
  /-- JOURNAL_DRAIN (R331). The journal engine finishes a batch part of the slot before. -/
  | journalDrain (die : Nat)
  /-- DOMAIN_RESUME (R389, R391). A write of CMT_CTL.RESUME. -/
  | domainResume (port : Port)
  /-- CORE_FENCE_RELOAD (R389). The leader fences core p and the loader reloads the task with the new K. -/
  | coreFenceReload (p : Nat)
  /-- FOP_REQUEST (R34). TCK_FOP_CTL takes effect with this FOP, or the controller asks. -/
  | fopRequest (who : Requester) (fop : Nat)
  /-- PLL_LOCK (R34). The idle loop of a die locks. -/
  | pllLock (die : Nat)
  /-- FOP_STEP_DOWN (R36). The controller steps the FOP down. -/
  | fopStepDown
  /-- FOP_STEP_UP (R36). The controller steps the FOP up. -/
  | fopStepUp
  /-- MARGIN_FALL (R31). Sentinel k of region g reports a lower step. -/
  | marginFall (g k step : Nat)
  /-- SENTINEL_WARNING (R32). Region g's average margin falls below 3.5. -/
  | sentinelWarning (g : Nat)
  /-- COL_HOLD (R29, R30). A region whose lead across col c has reached the bound is gated. -/
  | colHold (c : Nat)
  /-- INSTRUCTION_ISSUE (R47). Dale d issues up to four words. -/
  | instructionIssue (d : Nat) (ev : List HwEvent)
  /-- QUEUE_ENTRY (R48). The oldest broadcast group of dale d enters the unit queues. -/
  | queueEntry (d : Nat)
  /-- SIGNAL_STAGE (R82). The first due signal of core p fires. -/
  | signalStage (p : Nat)
  /-- SQNOP (R47). The sequencer executes SQNOP. -/
  | sqnop (d : Nat) (ev : List HwEvent)
  /-- SQREP (R102). The sequencer executes SQREP. -/
  | sqrep (d : Nat) (ev : List HwEvent)
  /-- SQHOLD (R88). The dale reaches SQHOLD. -/
  | sqhold (d : Nat) (ev : List HwEvent)
  /-- HOLD_RELEASE (R89). The release lc of hold `id` is fixed, and once it is past the dales resume. -/
  | holdRelease (id : Nat)
  /-- SQEND (R91). The sequencer executes SQEND. -/
  | sqend (d : Nat) (ev : List HwEvent)
  /-- FELOAD (R105). Core p starts the FELOAD at the head of its FE queue. -/
  | feload (p : Nat) (ev : List HwEvent)
  /-- FESTORE (R105). Core p starts a FESTORE. -/
  | festore (p : Nat) (ev : List HwEvent)
  /-- FEARM (R242). Core p starts a FEARM. -/
  | fearm (p : Nat)
  /-- FEREARM (R242). Core p starts a FEREARM. -/
  | ferearm (p : Nat)
  /-- FECLOSE (R244). Core p starts a FECLOSE. -/
  | feclose (p : Nat)
  /-- FEFABRD (R106). Core p starts a FEFABRD. -/
  | fefabrd (p : Nat)
  /-- FEFABWR (R106). Core p starts a FEFABWR. -/
  | fefabwr (p : Nat) (ev : List HwEvent)
  /-- FEOVRD (R107). Core p starts a FEOVRD. -/
  | feovrd (p : Nat) (ev : List HwEvent)
  /-- FEOVWR (R107). Core p starts a FEOVWR. -/
  | feovwr (p : Nat) (ev : List HwEvent)
  /-- FEBATCH (R107). Core p starts a FEBATCH. -/
  | febatch (p : Nat) (ev : List HwEvent)
  /-- FEEGR (R107). Core p starts a FEEGR. -/
  | feegr (p : Nat) (ev : List HwEvent)
  /-- MXLDW (R108). Core p starts a MXLDW. -/
  | mxldw (p : Nat) (ev : List HwEvent)
  /-- MXLDS (R154). Core p starts a MXLDS. -/
  | mxlds (p : Nat) (ev : List HwEvent)
  /-- MXRUN (R109). Core p starts a MXRUN. -/
  | mxrun (p : Nat) (ev : List HwEvent)
  /-- ARRAY_RAMP_DOWN (R156). Core p's idle array ramps down. -/
  | arrayRampDown (p : Nat)
  /-- PUACC (R111). Core p starts a PUACC. -/
  | puacc (p : Nat) (ev : List HwEvent)
  /-- PUFLUSH (R164). Core p starts a PUFLUSH. -/
  | puflush (p : Nat) (ev : List HwEvent)
  /-- PUCENSUS (R168). Core p starts a PUCENSUS. -/
  | pucensus (p : Nat)
  /-- PUCLR (R165). Core p starts a PUCLR. -/
  | puclr (p : Nat)
  /-- PUVEC (R164). Core p starts a PUVEC. -/
  | puvec (p : Nat) (ev : List HwEvent)
  /-- POST_INPUT_ARRIVAL (R112). The oldest result row of core p's array reaches the post unit. -/
  | postInputArrival (p : Nat)
  /-- VXLD (R172). Core p starts a VXLD. -/
  | vxld (p : Nat) (ev : List HwEvent)
  /-- VXST (R171). Core p starts a VXST. -/
  | vxst (p : Nat) (ev : List HwEvent)
  /-- VXEPL (R175). Core p starts a VXEPL. -/
  | vxepl (p : Nat) (ev : List HwEvent)
  /-- VXEP (R177). Core p starts a VXEP. -/
  | vxep (p : Nat)
  /-- VXCVT (R181). Core p starts a VXCVT. -/
  | vxcvt (p : Nat)
  /-- VXCMP (R185). Core p starts a VXCMP. -/
  | vxcmp (p : Nat)
  /-- VXEXP (R186). Core p starts a VXEXP. -/
  | vxexp (p : Nat)
  /-- VXBAND (R187). Core p starts a VXBAND. -/
  | vxband (p : Nat)
  /-- VXPERM (R189). Core p starts a VXPERM. -/
  | vxperm (p : Nat)
  /-- VXSHUF (R190). Core p starts a VXSHUF. -/
  | vxshuf (p : Nat)
  /-- VXPACK (R191). Core p starts a VXPACK. -/
  | vxpack (p : Nat)
  /-- VXUNPK (R191). Core p starts a VXUNPK. -/
  | vxunpk (p : Nat)
  /-- VXTREE (R193). Core p starts a VXTREE. -/
  | vxtree (p : Nat)
  /-- VXOPT (R196). Core p starts a VXOPT. -/
  | vxopt (p : Nat)
  /-- VXSRACC (R194). Core p starts a VXSRACC. -/
  | vxsracc (p : Nat)
  /-- VXRAND (R197). Core p starts a VXRAND. -/
  | vxrand (p : Nat)
  /-- VXMASK (R192). Core p starts a VXMASK. -/
  | vxmask (p : Nat)
  /-- CHOPEN (R265). Core p starts a CHOPEN. -/
  | chopen (p : Nat)
  /-- CHCLOSE (R273). Core p starts a CHCLOSE. -/
  | chclose (p : Nat)
  /-- CHSEND (R268). Core p starts a CHSEND. -/
  | chsend (p : Nat) (ev : List HwEvent)
  /-- CHSIG (R268). Core p starts a CHSIG. -/
  | chsig (p : Nat)
  /-- CHMCAST (R304). Core p starts a CHMCAST. -/
  | chmcast (p : Nat) (ev : List HwEvent)
  /-- CHBAR (R277). Core p starts a CHBAR. -/
  | chbar (p : Nat)
  /-- CHROLE (R274). Core p starts a CHROLE. -/
  | chrole (p : Nat)
  /-- TSREAD (R117). Core p starts a TSREAD; the host time, if the source answers. -/
  | tsread (p : Nat) (time : Option W64)
  /-- ENTROPY (R117). Core p starts an ENTROPY; per step whether the source answers. -/
  | entropy (p : Nat) (avail : List Bool)
  /-- CNTREAD (R435). Core p starts a CNTREAD. -/
  | cntread (p : Nat)
  /-- HOSTPOLL (R117). Core p starts a HOSTPOLL; whether the mailbox answers. -/
  | hostpoll (p : Nat) (avail : Bool)
  /-- SEND_BUFFER_DEPART (R268). The first cell of core p's send buffer that may leave departs. -/
  | sendBufferDepart (p : Nat)
  /-- THLI (R119). Core p executes the THLI its thread issued. -/
  | thli (p : Nat)
  /-- THADD (R119). Core p executes THADD. -/
  | thadd (p : Nat)
  /-- THSUB (R119). Core p executes THSUB. -/
  | thsub (p : Nat)
  /-- THAND (R119). Core p executes THAND. -/
  | thand (p : Nat)
  /-- THOR (R119). Core p executes THOR. -/
  | thor (p : Nat)
  /-- THXOR (R119). Core p executes THXOR. -/
  | thxor (p : Nat)
  /-- THSHL (R119). Core p executes THSHL. -/
  | thshl (p : Nat)
  /-- THSHR (R119). Core p executes THSHR. -/
  | thshr (p : Nat)
  /-- THMUL (R119). Core p executes THMUL. -/
  | thmul (p : Nat)
  /-- THCMP (R119). Core p executes THCMP. -/
  | thcmp (p : Nat)
  /-- THBR (R119). Core p executes THBR. -/
  | thbr (p : Nat)
  /-- THJMP (R119). Core p executes THJMP. -/
  | thjmp (p : Nat)
  /-- THLDS (R119). Core p executes THLDS. -/
  | thlds (p : Nat) (ev : List HwEvent)
  /-- THSTS (R119). Core p executes THSTS. -/
  | thsts (p : Nat)
  /-- THBASE (R119). Core p executes THBASE. -/
  | thbase (p : Nat)
  /-- THEXIT (R119). Core p executes THEXIT. -/
  | thexit (p : Nat)
  /-- THREAD_ISSUE (R63). Core p issues from its next ready thread. -/
  | threadIssue (p : Nat)
  /-- THREADED_STREAM_HALT (R254). Stream context ctx of threaded core p meets a fault. -/
  | threadedStreamHalt (p ctx : Nat) (cause : HaltCause) (addr : W64)
  /-- CORE_MODE_CHANGE (R67). The controller asks core p to change mode. -/
  | coreModeChange (p : Nat) (m : CoreMode)
  /-- CORE_RESET (R69). The controller resets core p. -/
  | coreReset (p : Nat)
  /-- WATCHDOG_EXPIRY (R62). The watchdog of a die's controller expires. -/
  | watchdogExpiry (die : Nat)
  /-- WATCHDOG_KICK (R61). The controller of a die resets the other's watchdog. -/
  | watchdogKick (die : Nat)
  /-- SERVICE_MAILBOX_REQUEST (R60). A request arrives on a port's service mailbox. -/
  | serviceMailboxRequest (port : Port) (r : MbRequest)
  /-- THREADED_WORK_LOAD (R66). The controller loads core p's local store. -/
  | threadedWorkLoad (p : Nat) (store : List W256)
  /-- IMAGE_LOAD (R94, R239). The loader loads an image and fills committed regions: `data` has region and contents. -/
  | imageLoad (img : Image) (mod : BitVec 16) (seed : W64) (data : List (Nat × List Byte))
  /-- PHASE_LOAD (R360, R362). The loader stages an incoming phase with its carry list, switch tick and committed contents. -/
  | phaseLoad (img : Image) (carry : List W32) (sw : Nat) (data : List (Nat × List Byte))
  /-- PHASE_ARM (R365). A paired write of PH_CTL with ARM = 1. -/
  | phaseArm (port : Port) (cold : Bool)
  /-- PHASE_CANCEL (R365). A paired write of PH_CTL with ARM = 0. -/
  | phaseCancel (port : Port)
  /-- PHASE_BRIDGE (R363). The bridge runs. -/
  | phaseBridge
  /-- COLD_BOUNDARY (R366). The armed cold boundary is carried out. -/
  | coldBoundary
  /-- PHASE_ABORT (R365). A fence or K change discards the staged phase. -/
  | phaseAbort
  /-- TASK_RESET (R405). A paired write of SVC_TASK.RESET. -/
  | taskReset (port : Port)
  /-- DEPOSIT_SLOT_ACCESS (R202). A deposit slot of the bank serves the first waiting access. -/
  | depositSlotAccess (p bank : Nat) (ev : List HwEvent)
  /-- BASIN_SCRUB_WRITEBACK (R217). The scrubber writes a corrected word back. -/
  | basinScrubWriteback (p bank row word : Nat)
  /-- FIELD_REPAIR (R219). The controller maps a suspect row to a spare. -/
  | fieldRepair (p bank row : Nat)
  /-- ELASTIC_SINK_DRAIN (R246). The fetch engine takes the additions to a sink flag. -/
  | elasticSinkDrain (p flag : Nat)
  /-- REMOTE_WRITE (R214). The oldest remote write waiting at core p meets its ford. -/
  | remoteWrite (p : Nat)
  /-- REMOTE_READ (R214). The oldest remote read request waiting at core p meets its ford. -/
  | remoteRead (p : Nat)
  /-- HBM_REFRESH (R230). A lane receives its refresh round. -/
  | hbmRefresh (stack lane : Nat)
  /-- HBM_SCRUB (R234). The scrubber reads a word of HBM. -/
  | hbmScrub (die unit : Nat) (ev : List HwEvent)
  /-- OVERFLOW_COMPLETION (R248). The completions of an overflow read's rows from `row` on have come, with the host's bytes. -/
  | overflowCompletion (p tag row : Nat) (bytes : List Byte)
  /-- PCIE_COMPLETION_ERROR (R252). The completion of an overflow read fails. -/
  | pcieCompletionError (p tag : Nat)
  /-- OVERFLOW_RESUME (R253). A write of OVF_CTL.RESUME. -/
  | overflowResume (port : Port)
  /-- OVERFLOW_TIMEOUT (R253). MISS_TMO slots have passed. -/
  | overflowTimeout
  /-- OVF_XENT_WRITE (R250). A paired write of a translation entry. -/
  | ovfXentWrite (port : Port) (entry : W64)
  /-- OPEN_REQUEST_ARRIVAL (R265). The oldest cell at core p is an OPEN. -/
  | openRequestArrival (p : Nat)
  /-- OPEN_REPLY_ARRIVAL (R265). The oldest cell at core p is an accept or refusal. -/
  | openReplyArrival (p : Nat)
  /-- CELL_ARRIVAL (R270). Core p takes the oldest cell from its router stop. -/
  | cellArrival (p : Nat)
  /-- SENDER_REPLY_ARRIVAL (R271). The oldest cell at core p is a closed, epoch-miss or ford-refusal reply. -/
  | senderReplyArrival (p : Nat)
  /-- CREDIT_ARRIVAL (R269). The oldest cell at core p is a CREDIT. -/
  | creditArrival (p : Nat)
  /-- CLOSE_CELL_ARRIVAL (R273). The oldest cell at core p is a CLOSE. -/
  | closeCellArrival (p : Nat)
  /-- FRESP_ARRIVAL (R297). The oldest cell at core p is an FRESP. -/
  | frespArrival (p : Nat)
  /-- BARRIER_ARRIVAL (R277). The oldest cell at core p is a barrier arrival. -/
  | barrierArrival (p : Nat)
  /-- BARRIER_RELEASE (R277). The oldest cell at core p is a barrier release. -/
  | barrierRelease (p : Nat)
  /-- DOMAIN_BARRIER_ARRIVAL (R278). The oldest cell at core p is a module's arrival at the domain root. -/
  | domainBarrierArrival (p : Nat)
  /-- LINK_TRAINING (R283). Port n trains at 224.25 or (slow) 112.125 Gbit/s and measures its delay. -/
  | linkTraining (n : Nat) (slow : Bool) (delay : Nat)
  /-- TRAINING_TIMEOUT (R283). Training of port n runs out of time. -/
  | trainingTimeout (n : Nat)
  /-- CAPABILITY_CELL_ARRIVAL (R285). The partner's capability cell arrives. -/
  | capabilityCellArrival (n : Nat) (pay : BitVec 384)
  /-- LINK_RETRAIN (R285). A write of LNK_CTL.RETRAIN. -/
  | linkRetrain (port : Port) (n : Nat)
  /-- LINK_ENABLE (R403). A write of LNK_CTL.ENABLE. -/
  | linkEnable (port : Port) (n : Nat) (en : Bool)
  /-- LINKCTL_ACK (R287). An ACK with the eight running credit totals. -/
  | linkctlAck (n seq : Nat) (credits : List Nat)
  /-- LINKCTL_NAK (R287). A NAK naming seq, with the eight running credit totals. -/
  | linkctlNak (n seq : Nat) (credits : List Nat)
  /-- ACK_TIMEOUT (R287). The oldest replay entry of port n has waited 4 us. -/
  | ackTimeout (n : Nat)
  /-- ACK_SEND (R286). Port n's receiver sends an acknowledgement. -/
  | ackSend (n : Nat)
  /-- LINK_CELL_RECEIVE (R287). A cell arrives on port n, on virtual channel half / 2, its upper half where `half` is odd; whether its
  codeword could not be corrected, and the symbols corrected. -/
  | linkCellReceive (n : Nat) (c : FCell) (half : Nat) (uncorr : Bool) (syms : Nat)
  /-- PORT_DOWN (R288). Port n goes DOWN. -/
  | portDown (n : Nat) (cause : DownCause)
  /-- PORT_FENCE (R288). The controller fences port n. -/
  | portFence (n : Nat)
  /-- ROUTER_FORWARD (R299). The stop (x, y) of a die forwards a cell. -/
  | routerForward (die x y : Nat)
  /-- FENCED_ACK_ARRIVAL (R307). The oldest cell at core p is a fenced acknowledgement. -/
  | fencedAckArrival (p : Nat)
  /-- EXTERN_TRANSFER (R309). A controller sends committed rows of a region to a module. -/
  | externTransfer (die region off rows dmod : Nat)
  /-- EXTERN_ARRIVAL (R309). An EXTERN cell reaches a controller, which expects it from module `src`. -/
  | externArrival (die src : Nat) (c : FCell)
  /-- SADDLE_SPARE_LANE (R450). A spare saddle lane comes into use. -/
  | saddleSpareLane
  /-- HOST_OWN_OFFER (R318). A paired write of HOST_OWN.OFFER = 1. -/
  | hostOwnOffer (port : Port)
  /-- HOST_OWN_ACCEPT (R318). A paired write of HOST_OWN.ACCEPT = 1. -/
  | hostOwnAccept (port : Port)
  /-- OFFER_LAPSE (R318). An offer has stood 1 s. -/
  | offerLapse
  /-- HOST_OWN_TAKE (R318). A paired write of HOST_OWN.TAKE = 1. -/
  | hostOwnTake (port : Port)
  /-- HP_HELLO_WRITE (R319). A write of HP_HELLO.HOST_MAX. -/
  | hpHelloWrite (port : Port) (v : BitVec 16)
  /-- RING_HEAD_WRITE (R320). A write of RING_HEAD. -/
  | ringHeadWrite (port : Port) (r : Nat) (v : W32)
  /-- RING_ENABLE (R320). A paired write of RING_CTL. -/
  | ringEnable (port : Port) (r : Nat) (v : W32)
  /-- RING_RECORD_WRITE (R322). The module places the first waiting record of a ring, if there is room. -/
  | ringRecordWrite (port : Port) (r : Nat)
  /-- INTAKE_WORD_WRITE (R324). A BAR4 word that is a header or payload word. -/
  | intakeWordWrite (port : Port) (w : W64)
  /-- INTAKE_TRAILER (R326). A BAR4 word that is the open packet's trailer. -/
  | intakeTrailer (port : Port) (w : W64)
  /-- INTAKE_STOP (R330). Intake of a port stops. -/
  | intakeStop (port : Port) (why : StopCause)
  /-- INTAKE_ENABLE (R342). A paired write of INTK_CTL.ENABLE. -/
  | intakeEnable (port : Port) (en : Bool)
  /-- LTR_TOLERANCE_WRITE (R339). The port's LTR tolerance in ns; none while LTR is disabled. -/
  | ltrToleranceWrite (port : Port) (ns : Option Nat)
  /-- ATTEST (R419). A write of SEC_CTL.ATTEST. -/
  | attest (port : Port)
  /-- CERT (R425). A write of SEC_CTL.CERT. -/
  | cert (port : Port)
  /-- SVN_COMMIT (R414). A paired write of SEC_CTL.SVN_COMMIT. -/
  | svnCommit (port : Port)
  /-- SIGNATURE_COMPLETE (R416). The leader finishes the signature at the head of its queue. -/
  | signatureComplete
  /-- EPOCH_RECORD (R421). The leader signs the record of a closed audit epoch. -/
  | epochRecord
  /-- AUDIT_SNAPSHOT (R420). A write of AUD_CTL.SNAP. -/
  | auditSnapshot (port : Port)
  /-- JOURNAL_COPY (R423). A write of AUD_JCTL.GO; the host's bytes when DIR is 1. -/
  | journalCopy (port : Port) (data : List Byte)
  /-- PC_SAMPLE (R426). A dale takes a PC sample. -/
  | pcSample (d : Nat)
  /-- TRACE_COPY (R432). A write of TRC_RCTL.GO. -/
  | traceCopy (port : Port)
  /-- PCNT_GO (R434). A write of CORE_PCNT_CTL.GO. -/
  | pcntGo (port : Port) (p : Nat)
  /-- GCNT_SELECT (R437). A write of GCNT_SELn. -/
  | gcntSelect (port : Port) (n : Nat) (v : W32)
  /-- TERRACE_ENTRY (R400). The module begins to enter the deepest allowed terrace. -/
  | terraceEntry
  /-- TERRACE_SHUTDOWN_DONE (R403). The shut-down in progress completes. -/
  | terraceShutdownDone
  /-- TERRACE_EXIT (R402). An exit trigger. -/
  | terraceExit (why : ExitTrigger)
  /-- PWR_WAKE (R402). A write of PWR_CTL.WAKE. -/
  | pwrWake (port : Port)
  /-- POWER_ON (R408). PWR_EN rises; input voltage in 10 mV, straps. -/
  | powerOn (vin slotId : Nat) (recovery : Bool)
  /-- POWER_DOWN (R408). PWR_EN falls or the input falls below 44 V. -/
  | powerDown (vin : Nat)
  /-- OVERVOLTAGE_SHUTOFF (R460). The input exceeds 58 V. -/
  | overvoltageShutoff (vin : Nat)
  /-- MODULE_RESET (R404). MOD_RESET_N held low 10 us, or (both) both PERST# held 100 us. -/
  | moduleReset (both : Bool)
  /-- HOST_PORT_RESET (R404). PERST# or a hot reset, or (linkDown) a link-down, on a port. -/
  | hostPortReset (port : Port) (linkDown : Bool)
  /-- BOOT (R409). Boot runs, with what it finds. -/
  | boot (f : BootFinds)
  /-- THERMAL_ALERT (R463). Junction and stack temperatures reach the alert thresholds. -/
  | thermalAlert (die0 die1 : Nat) (hbmT : List Nat)
  /-- THERMAL_THROTTLE (R463). Temperatures reach the throttle thresholds. -/
  | thermalThrottle (die0 die1 : Nat) (hbmT : List Nat)
  /-- THERMAL_TRIP (R464). Temperatures reach the trip thresholds. -/
  | thermalTrip (die0 die1 : Nat) (hbmT : List Nat)
  /-- STATUS (R465). SMBus read of the status word. -/
  | status
  /-- TEMP_DIE (R465). SMBus read. -/
  | tempDie
  /-- TEMP_HBM (R465). SMBus read. -/
  | tempHbm
  /-- VIN (R465). SMBus read. -/
  | vin
  /-- PIN (R465). SMBus read. -/
  | pin
  /-- SLOT (R465). SMBus read. -/
  | slot
  /-- MODID (R465). SMBus read. -/
  | modid
  /-- TERRACE (R465). SMBus read. -/
  | terrace
  /-- CLEAR_ALERT (R465). SMBus send byte. -/
  | clearAlert
  /-- REGISTER_WRITE (R444). A 32-bit host write at offset `off` of BAR0 or BAR2. -/
  | registerWrite (port : Port) (bar off : Nat) (v : W32)
  /-- READ_CLEAR (R13). A 32-bit host read, which clears RC fields. -/
  | readClear (port : Port) (bar off : Nat)
  /-- IRQ_MESSAGE (R443). The message a PEND rise of a page owes is sent. -/
  | irqMessage (page : Nat)
  /-- MARGIN_RECOVERY (R31). Sentinel k of region g reports a higher step. -/
  | marginRecovery (g k step : Nat)
  /-- INSTRUCTION_REFILL_BEAT (R45). A refill beat writes a word into a streaming dale's ring. -/
  | instructionRefillBeat (d : Nat) (ev : List HwEvent)
  /-- CONTROLLER_RESTART_DONE (R62). A restarted controller is back. -/
  | controllerRestartDone (die : Nat)
  /-- SERVICE_CELL_ARRIVAL (R402). The oldest cell at a controller is a SERVICE cell. -/
  | serviceCellArrival (die : Nat)
  /-- HOST_PORT_LINK_UP (R314, R338). A port's PCIe link comes up, trained to a generation from 1 to 6 and a number of lanes. -/
  | hostPortLinkUp (port : Port) (rate width : Nat)
  /-- MODULE_RESET_RELEASE (R459). MOD_RESET_N rises; the PERST# levels (true: asserted) and the straps. -/
  | moduleResetRelease (perstA perstB : Bool) (slotId : Nat) (recovery : Bool)
  deriving DecidableEq, Repr

end Sys2Proof
end

