-- ==== Sys2Proof/Config.lean ====
section
/-! DEFINITION. What the spec fixes for no module: the free values. Each is a constant with no body, so nothing can be proved of the
value it gives; `State.fresh` counts the draws (notes/assumptions/6.md). -/
namespace Sys2Proof.Config

/-- The n-th 32-byte output of the entropy source, conditioned (R117). -/
opaque entropy : Nat → BitVec 256
/-- The n-th signature of the identity key, as a number of 9,893 bytes (R416): the key itself is never released. -/
opaque signature : Nat → BitVec 79144
/-- The n-th value of the module's power monitor (R465 PIN). -/
opaque power : Nat → BitVec 16
/-- The certificate bytes returned by CERT (R416). -/
opaque certificate : Nat → BitVec 4096
/-- Stepping code of the module (R419). -/
opaque stepping : Nat → BitVec 16
/-- The ROM's verdict on a firmware slot's key and signature under the fused key hash (R413, R414). -/
opaque firmwareOk : List Byte → Bool
/-- The running firmware holds, or lists for a helper set, the image with a digest (R66). -/
opaque imageListed : List Byte → List Byte → Bool
/-- The n-th reading of what R437 counts and no rule fixes: trace and service beats, saddle words, energy of the core rails in mJ. -/
opaque activity : Nat → BitVec 32
/-- The choice that each host port's configuration made among PCIe's maximum read request sizes (R248). -/
opaque readSize : Nat → Nat
/-- Eighths of a reference period from the regeneration of the n-th boundary to the start of its tick symbol's cell slot (R282). -/
opaque slotDelay : Nat → Nat
/-- The core region of its die that each col joins to a stack's, a link's or the host region, where R28's table names none (R26). -/
opaque colCore : Nat → Nat

end Sys2Proof.Config
end

