-- ==== Sys2Proof/Machine/Bits.lean ====
section
/-! DEFINITION. Bit fields, byte order (R12), sparse maps in sorted form, saturating counts and the cyclic redundancy checks. -/
namespace Sys2Proof.Machine

/-- A sparse map: pairs of a key and a value, keys strictly rising. -/
abbrev SMap (α : Type) : Type := List (Nat × α)

/-- The value at key `a`, `d` where none is listed. -/
def mget {α : Type} (d : α) : SMap α → Nat → α
  | [], _ => d
  | (k, v) :: t, a => if k = a then v else mget d t a

/-- Removes key `a`. -/
def mdel {α : Type} (a : Nat) : SMap α → SMap α
  | [] => []
  | (k, v) :: t => if k = a then mdel a t else (k, v) :: mdel a t

/-- Puts a pair before the first larger key. -/
def mins {α : Type} (a : Nat) (x : α) : SMap α → SMap α
  | [] => [(a, x)]
  | (k, v) :: t => if a < k then (a, x) :: (k, v) :: t else (k, v) :: mins a x t

/-- Writes `x` at `a`, listed whatever its value. -/
def mput {α : Type} (a : Nat) (x : α) (m : SMap α) : SMap α := mins a x (mdel a m)

/-- Writes `x` at `a` in canonical form: the value `d` of unlisted keys is never listed. -/
def mset {α : Type} [DecidableEq α] (d : α) (a : Nat) (x : α) (m : SMap α) : SMap α :=
  if x = d then mdel a m else mins a x (mdel a m)

/-- Keys strictly rising from `lo` on. -/
def mrising {α : Type} : Option Nat → SMap α → Bool
  | _, [] => true
  | none, (k, _) :: t => mrising (some k) t
  | some b, (k, _) :: t => decide (b < k) && mrising (some k) t

/-- Canonical form: keys strictly rising, no value equal to `d`. -/
def mwf {α : Type} [DecidableEq α] (d : α) (m : SMap α) : Bool :=
  mrising none m && m.all (fun kv => decide (kv.2 ≠ d))

/-- Bits `lo` to `lo + len - 1` of a number. -/
def bfield (n lo len : Nat) : Nat := (n >>> lo) % 2 ^ len

/-- A number with bits `lo` to `lo + len - 1` replaced by `v`. -/
def bput (n lo len v : Nat) : Nat := n % 2 ^ lo + (v % 2 ^ len) * 2 ^ lo + ((n >>> (lo + len)) <<< (lo + len))

/-- Bit `i` of a number. -/
def bbit (n i : Nat) : Bool := n.testBit i

/-- A number with bit `i` set. -/
def bset (n i : Nat) : Nat := n ||| 1 <<< i

/-- A number with bit `i` cleared. -/
def bclr (n i : Nat) : Nat := if n.testBit i then n - 1 <<< i else n

/-- 1 for true. -/
def b2n (b : Bool) : Nat := if b then 1 else 0

/-- Two's-complement reading of the low `w` bits. -/
def sext (w n : Nat) : Int :=
  let m := n % 2 ^ w
  if 2 * m < 2 ^ w then (m : Int) else (m : Int) - 2 ^ w

/-- The low `w` bits of a whole number, two's complement. -/
def wrapN (w : Nat) (i : Int) : Nat := (i % (2 ^ w : Nat)).toNat

/-- A count that stops at the top of a `w`-bit field. -/
def satAdd (w a b : Nat) : Nat := min (a + b) (2 ^ w - 1)

/-- Little-endian bytes of a number, `k` of them (R12). -/
def leBytes : Nat → Nat → List Byte
  | 0, _ => []
  | k + 1, n => BitVec.ofNat 8 n :: leBytes k (n / 256)

/-- The number little-endian bytes spell (R12). -/
def leNat : List Byte → Nat
  | [] => 0
  | b :: t => b.toNat + 256 * leNat t

/-- Elements `i` to `i + k - 1` of a list. -/
def slice {α : Type} (i k : Nat) (l : List α) : List α := (l.drop i).take k

/-- `k` bytes from byte `i` of a list, as a number. -/
def leAt (i k : Nat) (l : List Byte) : Nat := leNat (slice i k l)

/-- A list cut into rows of `k` elements; `fuel` bounds the number of rows. -/
def chunksOf {α : Type} (k : Nat) : Nat → List α → List (List α)
  | 0, _ => []
  | fuel + 1, l => if l.isEmpty then [] else l.take k :: chunksOf k fuel (l.drop k)

/-- A list with element `i` replaced through `f`. -/
def modAt {α : Type} (i : Nat) (f : α → α) : List α → List α
  | [] => []
  | a :: t => match i with
    | 0 => f a :: t
    | i + 1 => a :: modAt i f t

/-- Pads with `d` to at least `n` elements. -/
def padTo {α : Type} (n : Nat) (d : α) (l : List α) : List α := l ++ List.replicate (n - l.length) d

/-- Ceiling division. -/
def cdiv (a b : Nat) : Nat := (a + b - 1) / b

/-- Folds `f` over 0 to n - 1. -/
def foldN {σ : Type} (n : Nat) (f : σ → Nat → σ) (s : σ) : σ := (List.range n).foldl f s

/-- The first index below `n` at which `f` holds. -/
def findN (n : Nat) (f : Nat → Bool) : Option Nat := (List.range n).find? f

/-- Reflected CRC: one bit step with polynomial `poly` (reflected). -/
def crcBit (poly c : Nat) : Nat := if c % 2 = 1 then (c / 2) ^^^ poly else c / 2

/-- Reflected CRC: one byte. -/
def crcByte (poly c : Nat) (b : Byte) : Nat := Nat.repeat (crcBit poly) 8 (c ^^^ b.toNat)

/-- CRC-32C over bytes in address order: polynomial 0x1EDC6F41, reflected, initial value and final XOR all ones. -/
def crc32c (l : List Byte) : Nat := (l.foldl (crcByte 0x82F63B78) 0xFFFFFFFF) ^^^ 0xFFFFFFFF

/-- One step of an unreflected 16-bit CRC. -/
def crc16Bit (poly c : Nat) : Nat := if c ≥ 0x8000 then ((c * 2) % 0x10000) ^^^ poly else c * 2

/-- CRC-16 over bytes, most significant bit first, with a given initial value. -/
def crc16 (poly init : Nat) (l : List Byte) : Nat :=
  l.foldl (fun c b => Nat.repeat (crc16Bit poly) 8 (c ^^^ (b.toNat * 256))) init

end Sys2Proof.Machine
end

