-- ==== Sys2Proof/Machine/RegTable.lean ====
section
/-! DEFINITION. The register fields of every page as the spec's tables give them (R42, R70, R71, R170, R198, R226, R255 to R257,
R280, R312, R313, R320, R341, R342, R357, R369, R397, R412, R425, R439, R441, R449 to R451): place, width, access code and reset
value. A field whose reset is "fused", "flash" or "page" is shown from its own home, and its reset here is 0. Bits in no field are
reserved. -/
namespace Sys2Proof.Machine

/-- Access codes (R13). -/
inductive Acc where
  | rw
  | ro
  | w1c
  | pw
  | wo
  | rc
  deriving DecidableEq, Repr

/-- A register field: lowest bit, width, access, reset value. -/
structure Fld where
  lo : Nat
  w : Nat
  acc : Acc
  rst : Nat
  deriving DecidableEq, Repr

/-- Page families with their TYPE codes (R440); ring pages lie in BAR2 and have none. -/
inductive Fam where
  | core
  | dale
  | hbm
  | lnk
  | sdl
  | tck
  | hp
  | intk
  | cmt
  | pwr
  | svc
  | sec
  | trc
  deriving DecidableEq, Repr

/-- TYPE of a page (R440). -/
def Fam.code : Fam → Nat
  | .core => 1 | .dale => 2 | .hbm => 3 | .lnk => 4 | .sdl => 5 | .tck => 6 | .hp => 7 | .intk => 8 | .cmt => 9
  | .pwr => 0xA | .svc => 0xB | .sec => 0xC | .trc => 0xD

/-- Fields by page offset: TCK page. -/
def fldsTck (o : Nat) : List Fld :=
  match o with
  | 0x020 => [⟨0, 17, .rw, 250⟩] -- TCK_PERIOD: US
  | 0x024 => [⟨0, 5, .rw, 31⟩, ⟨5, 5, .rw, 30⟩, ⟨10, 6, .rw, 0⟩] -- TCK_SRC: PRI SEC ADJ
  | 0x028 => [⟨0, 7, .rw, 30⟩, ⟨7, 7, .rw, 10⟩, ⟨16, 16, .rw, 4000⟩] -- TCK_ZONE: GUARD_PM RSV_PM COMMIT
  | 0x02C => [⟨0, 1, .pw, 0⟩] -- TCK_CTL: START
  | 0x030 => [⟨0, 3, .pw, 0⟩] -- TCK_FOP_CTL: FOP
  | 0x034 => [⟨0, 32, .pw, 0⟩] -- TCK_FOP_AT: TCK_FOP_AT
  | 0x038 => [⟨0, 16, .pw, 0⟩] -- TCK_FOP_AT: TCK_FOP_AT
  | 0x03C => [⟨0, 32, .pw, 0⟩] -- TCK_NUM_START: TCK_NUM_START
  | 0x040 => [⟨0, 16, .pw, 0⟩] -- TCK_NUM_START: TCK_NUM_START
  | 0x044 => [⟨0, 1, .ro, 0⟩, ⟨1, 1, .ro, 0⟩, ⟨2, 1, .ro, 0⟩, ⟨3, 1, .ro, 0⟩, ⟨4, 1, .ro, 0⟩, ⟨5, 1, .ro, 0⟩, ⟨6, 1, .w1c, 0⟩, ⟨7, 1, .w1c, 0⟩, ⟨8, 3, .ro, 0⟩] -- TCK_STATE: RUN SRC_SEC HOLDOVER TICK_LOST OVERRUN FOP_PEND FOP_REFUSED SNT_WARN FOP_CUR
  | 0x048 => [⟨0, 32, .ro, 0⟩] -- TCK_NUM: TCK_NUM
  | 0x04C => [⟨0, 16, .ro, 0⟩] -- TCK_NUM: TCK_NUM
  | 0x050 => [⟨0, 29, .ro, 0⟩] -- TCK_LC: LC
  | 0x054 => [⟨0, 28, .ro, 0⟩] -- TCK_NP: NP
  | 0x058 => [⟨0, 32, .rc, 0⟩] -- TCK_OVR_CNT: COUNT
  | 0x05C => [⟨0, 32, .ro, 0⟩] -- TCK_LOSS: QP
  | 0x060 => [⟨0, 32, .ro, 0⟩] -- TCK_SNT_MAP: TCK_SNT_MAP
  | 0x064 => [⟨0, 32, .ro, 0⟩] -- TCK_SNT_MAP: TCK_SNT_MAP
  | 0x068 => [⟨0, 24, .rw, 0⟩, ⟨24, 1, .rw, 0⟩] -- TCK_FWD: PORTS OUT
  | _ => if 0x100 ≤ o ∧ o < 0x314 then [⟨0, 8, .ro, 0⟩, ⟨8, 8, .ro, 0⟩, ⟨16, 16, .ro, 0⟩] else [] -- TCK_DEBTn

/-- Fields by page offset: CORE page. -/
def fldsCore (o : Nat) : List Fld :=
  match o with
  | 0x020 => [⟨0, 8, .ro, 255⟩, ⟨8, 4, .ro, 0⟩, ⟨12, 1, .ro, 0⟩, ⟨13, 1, .ro, 0⟩, ⟨14, 8, .ro, 0⟩] -- CORE_CONST0: LIDX DALE DIE ARRAY PIDX
  | 0x024 => [⟨0, 8, .ro, 0⟩, ⟨8, 8, .ro, 0⟩, ⟨16, 16, .ro, 0⟩] -- CORE_CONST1: K TASK MOD
  | 0x028 => [⟨0, 2, .ro, 0⟩, ⟨2, 1, .ro, 0⟩, ⟨3, 8, .ro, 0⟩] -- CORE_MODE: MODE FENCED THR_LIVE
  | 0x02C => [⟨0, 1, .w1c, 0⟩, ⟨1, 1, .w1c, 0⟩, ⟨2, 3, .ro, 0⟩] -- CORE_STAT: QOVF MODE_REFUSED QOVF_UNIT
  | 0x040 => [⟨0, 16, .rc, 0⟩, ⟨16, 7, .ro, 0⟩, ⟨23, 1, .w1c, 0⟩] -- CORE_MXCHK: RES_CNT RES_COL RES_SEEN
  | 0x044 => [⟨0, 16, .rc, 0⟩] -- CORE_PUCHK: ADD_CNT
  | 0x048 => [⟨0, 1, .w1c, 0⟩, ⟨1, 1, .w1c, 0⟩, ⟨2, 1, .w1c, 0⟩, ⟨3, 1, .w1c, 0⟩, ⟨4, 1, .w1c, 0⟩, ⟨5, 1, .w1c, 0⟩, ⟨6, 1, .w1c, 0⟩] -- CORE_MXFLT: SIDE_UNDER KF4_NOSIDE RAMP_HOLD PUIN_OVF ACC_ORDER ACC_DEPTH MODE_MIS
  | 0x04C => [⟨0, 2, .ro, 0⟩] -- CORE_MXRAMP: STATE
  | 0x050 => [⟨0, 1, .w1c, 0⟩, ⟨1, 1, .w1c, 0⟩, ⟨2, 1, .w1c, 0⟩, ⟨3, 1, .w1c, 0⟩] -- CORE_VXFLT: EP_INVALID TILE_COLL BAND_OPEN PORT_LATE
  | 0x054 => [⟨0, 32, .ro, 0⟩] -- CORE_VXBAND: OPEN
  | 0x060 => [⟨0, 1, .rw, 0⟩, ⟨1, 1, .ro, 0⟩] -- CORE_BSN_CTL: SEQDBG HSEL
  | 0x064 => [⟨0, 1, .w1c, 0⟩, ⟨1, 1, .w1c, 0⟩, ⟨2, 1, .w1c, 0⟩, ⟨3, 1, .w1c, 0⟩, ⟨4, 1, .w1c, 0⟩, ⟨5, 1, .w1c, 0⟩, ⟨6, 1, .w1c, 0⟩, ⟨7, 4, .ro, 0⟩] -- CORE_BSN_STAT: SLOT_CONF SEQ_EARLY SEQ_OVWR SEQ_DBG HND_CMP ECC_UE SPARE_OUT CONF_BANK
  | 0x068 => [⟨0, 16, .rc, 0⟩, ⟨16, 8, .rc, 0⟩, ⟨24, 5, .ro, 0⟩] -- CORE_BSN_ECC: CE_CNT UE_CNT SPARE_MIN
  | 0x06C => [⟨0, 16, .ro, 0⟩] -- CORE_FORD_STAT: OPEN
  | 0x070 => [⟨0, 16, .rc, 0⟩, ⟨16, 4, .ro, 0⟩, ⟨20, 9, .ro, 0⟩, ⟨29, 1, .w1c, 0⟩] -- CORE_FORD_REF: REF_CNT REF_FORD REF_EP REF_SEEN
  | 0x080 => [⟨0, 1, .w1c, 0⟩, ⟨1, 1, .w1c, 0⟩, ⟨2, 1, .w1c, 0⟩, ⟨3, 1, .w1c, 0⟩, ⟨4, 1, .w1c, 0⟩] -- CORE_FE_STAT: CRED_UNDER TAG_EXH XLAT_MISS PLAN_MIS UNCLOSED
  | 0x084 => [⟨0, 9, .ro, 0⟩, ⟨16, 9, .ro, 0⟩] -- CORE_FE_TAGS: MEM_OUT FAB_OUT
  | 0x090 => [⟨0, 1, .w1c, 0⟩, ⟨1, 1, .w1c, 0⟩, ⟨2, 1, .w1c, 0⟩, ⟨3, 1, .w1c, 0⟩, ⟨4, 1, .w1c, 0⟩, ⟨5, 1, .w1c, 0⟩, ⟨6, 1, .w1c, 0⟩, ⟨7, 1, .w1c, 0⟩, ⟨8, 1, .w1c, 0⟩, ⟨9, 1, .w1c, 0⟩] -- CORE_CH_STAT: FLAG_SAT AUDIT EP_MISS PEER_CLOSED SEND_UNOPEN SBUF_OVF BAR_FAULT ROLE_LIMIT CLASS_BAD REMOTE_REF
  | 0x094 => [⟨0, 16, .rc, 0⟩, ⟨16, 16, .rc, 0⟩] -- CORE_CH_DROP: SDROP RDISC
  | 0x098 => [⟨0, 32, .ro, 0⟩] -- CORE_FLAG_AUDIT0: FLAGS_LO
  | 0x09C => [⟨0, 16, .ro, 0⟩, ⟨16, 8, .ro, 0⟩] -- CORE_FLAG_AUDIT1: FLAGS_HI CNTS
  | 0x0A0 => [⟨0, 9, .rw, 0⟩] -- CORE_EP_IDX: EP
  | 0x0A4 => [⟨0, 3, .ro, 0⟩, ⟨3, 3, .ro, 0⟩, ⟨6, 10, .ro, 0⟩, ⟨16, 5, .ro, 0⟩, ⟨21, 4, .ro, 0⟩] -- CORE_EP_STATE: STATE REASON DECL CREDITS PEPOCH
  | 0x0A8 => [⟨0, 4, .ro, 0⟩] -- CORE_ROLE: EPOCH
  | 0x0B0 => [⟨0, 1, .w1c, 0⟩, ⟨1, 1, .w1c, 0⟩, ⟨2, 8, .ro, 0⟩] -- CORE_FAB_STAT: FENCED E2E_ERR FCORE
  | 0x0B4 => [⟨0, 16, .ro, 0⟩, ⟨16, 16, .rc, 0⟩] -- CORE_FAB_FMOD: FMOD E2E_CNT
  | 0x0C0 => [⟨0, 1, .wo, 0⟩, ⟨16, 16, .ro, 0⟩] -- CORE_PCNT_CTL: GO CSEQ
  | 0x0C4 => [⟨0, 4, .rw, 0⟩] -- CORE_PCNT_IDX: CNT
  | 0x0C8 => [⟨0, 32, .ro, 0⟩] -- CORE_PCNT_LO: VALUE_LO
  | 0x0CC => [⟨0, 16, .ro, 0⟩, ⟨16, 16, .ro, 0⟩] -- CORE_PCNT_HI: VALUE_HI CSEQ
  | _ =>
    if 0xD0 ≤ o ∧ o < 0xE0 then [⟨0, 6, .rw, 0⟩, ⟨8, 6, .rw, 0⟩, ⟨16, 6, .rw, 0⟩, ⟨24, 6, .rw, 0⟩] -- CORE_PCNT_SELn
    else if 0x100 ≤ o ∧ o < 0x1C0 then [⟨0, 16, .ro, 0⟩] -- CORE_FLAGn
    else if 0x1C0 ≤ o ∧ o < 0x1E0 then [⟨0, 32, .ro, 0⟩] -- CORE_CNTn
    else if 0x200 ≤ o ∧ o < 0x800 then [⟨0, 32, .ro, 0⟩] -- CORE_FE_CTXn, CORE_BSN_HANDLE
    else []

/-- Fields by page offset: DALE page. -/
def fldsDale (o : Nat) : List Fld :=
  match o with
  | 0x020 => [⟨0, 1, .ro, 0⟩] -- DALE_CTL: STREAM
  | 0x024 => [⟨0, 2, .ro, 0⟩, ⟨2, 1, .w1c, 0⟩, ⟨3, 1, .w1c, 0⟩] -- DALE_STAT: STATE UNDERRUN IMEM_UE
  | 0x028 => [⟨0, 15, .ro, 0⟩] -- DALE_PC: PC
  | 0x02C => [⟨0, 28, .ro, 0⟩] -- DALE_HOLD: LC
  | _ => []

/-- Fields by page offset: HBM page. -/
def fldsHbm (o : Nat) : List Fld :=
  match o with
  | 0x020 => [⟨0, 1, .ro, 0⟩, ⟨1, 6, .ro, 0⟩, ⟨7, 6, .ro, 0⟩] -- HBM_STAT: TRAINED HEALTHY LANES
  | 0x024 => [⟨0, 32, .ro, 0⟩] -- HBM_PC_FENCE: FENCE
  | 0x028 => [⟨0, 16, .rc, 0⟩, ⟨16, 8, .rc, 0⟩] -- HBM_ECC: CE_CNT UE_CNT
  | 0x02C => [⟨0, 31, .ro, 0⟩, ⟨31, 1, .w1c, 0⟩] -- HBM_UE_ADDR: UNIT VALID
  | 0x030 => [⟨0, 8, .ro, 0⟩] -- HBM_TEMP: DEGC
  | _ => []

/-- Fields by page offset: HP page. -/
def fldsHp (o : Nat) : List Fld :=
  match o with
  | 0x020 => [⟨0, 1, .ro, 0⟩, ⟨1, 3, .ro, 0⟩, ⟨4, 4, .ro, 0⟩] -- HP_STAT: LINK_UP RATE WIDTH
  | 0x024 => [⟨0, 2, .ro, 0⟩, ⟨2, 1, .pw, 0⟩, ⟨3, 1, .pw, 0⟩, ⟨4, 1, .pw, 0⟩, ⟨5, 1, .w1c, 0⟩] -- HOST_OWN: OWNER OFFER ACCEPT TAKE TAKE_REFUSED
  | 0x028 => [⟨0, 16, .rw, 0⟩, ⟨16, 16, .ro, 0⟩] -- HP_HELLO: HOST_MAX AGREED
  | 0x02C => [⟨0, 16, .ro, 0⟩, ⟨16, 16, .ro, 0⟩] -- HP_LTR: TOL_US SENT_US
  | 0x030 => [⟨0, 32, .ro, 0⟩] -- HP_PTM_TICK: TICK
  | 0x034 => [⟨0, 16, .ro, 0⟩] -- HP_PTM_TICK: TICK
  | 0x038 => [⟨0, 32, .ro, 0⟩] -- HP_PTM_TIME: TIME
  | 0x03C => [⟨0, 32, .ro, 0⟩] -- HP_PTM_TIME: TIME
  | 0x100 => [⟨0, 23, .rw, 0⟩] -- OVF_XIDX: GRANULE
  | 0x104 => [⟨0, 32, .pw, 0⟩] -- OVF_XENT_LO: ENTRY_LO
  | 0x108 => [⟨0, 32, .pw, 0⟩] -- OVF_XENT_HI: ENTRY_HI
  | 0x10C => [⟨0, 23, .ro, 0⟩, ⟨31, 1, .w1c, 0⟩] -- OVF_MISS: GRANULE VALID
  | 0x110 => [⟨0, 1, .wo, 0⟩, ⟨16, 16, .rw, 1024⟩] -- OVF_CTL: RESUME MISS_TMO
  | 0x114 => [⟨0, 1, .ro, 0⟩] -- OVF_STAT: COPY_PEND
  | _ => []

/-- Fields by page offset: LNK page. -/
def fldsLnk (o : Nat) : List Fld :=
  match o with
  | 0x020 => [⟨0, 1, .rw, 1⟩, ⟨1, 1, .wo, 0⟩, ⟨2, 1, .rw, 0⟩] -- LNK_CTL: ENABLE RETRAIN DATELINE
  | 0x024 => [⟨0, 3, .ro, 0⟩, ⟨3, 1, .ro, 0⟩, ⟨4, 3, .ro, 0⟩, ⟨7, 8, .ro, 0⟩, ⟨15, 1, .ro, 0⟩, ⟨16, 16, .ro, 0⟩] -- LNK_STATE: STATE RATE MAJOR MINOR SK3 PEER
  | 0x028 => [⟨0, 32, .rc, 0⟩] -- LNK_FEC_CNT: SYMS
  | 0x02C => [⟨0, 16, .rc, 0⟩, ⟨16, 16, .rc, 0⟩] -- LNK_FEC_ERR: UNCORR LCRC
  | 0x030 => [⟨0, 16, .rc, 0⟩, ⟨16, 8, .rc, 0⟩, ⟨24, 8, .rc, 0⟩] -- LNK_RETRY: RETRIES DOWNS DISC
  | 0x034 => [⟨0, 24, .ro, 0⟩] -- LNK_DELAY: DELAY
  | _ => []

/-- Fields by page offset: RING page. -/
def fldsRing (o : Nat) : List Fld :=
  match o with
  | 0x000 => [⟨12, 20, .pw, 0⟩] -- RING_BASE_LO: BASE_LO
  | 0x004 => [⟨0, 32, .pw, 0⟩] -- RING_BASE_HI: BASE_HI
  | 0x008 => [⟨0, 5, .pw, 12⟩] -- RING_SIZE: LOG2
  | 0x00C => [⟨0, 1, .pw, 0⟩, ⟨1, 11, .pw, 0⟩] -- RING_CTL: ENABLE VEC
  | 0x010 => [⟨0, 24, .rw, 0⟩] -- RING_HEAD: HEAD
  | 0x014 => [⟨0, 24, .ro, 0⟩] -- RING_TAIL: TAIL
  | 0x018 => [⟨0, 1, .ro, 0⟩, ⟨1, 1, .w1c, 0⟩, ⟨2, 1, .w1c, 0⟩] -- RING_STAT: WAITING BAD_HEAD TOOBIG
  | _ => []

/-- Fields by page offset: INTK page. -/
def fldsIntk (o : Nat) : List Fld :=
  match o with
  | 0x020 => [⟨0, 1, .pw, 0⟩] -- INTK_CTL: ENABLE
  | 0x024 => [⟨0, 1, .ro, 0⟩, ⟨1, 1, .w1c, 0⟩, ⟨2, 1, .w1c, 0⟩, ⟨3, 1, .w1c, 0⟩, ⟨4, 1, .w1c, 0⟩, ⟨5, 1, .ro, 0⟩] -- INTK_STAT: FULL OVERRUN CRC_BAD LAGFULL EGR_STALL OPEN
  | 0x028 => [⟨0, 17, .ro, 0⟩] -- INTK_FILL: WORDS
  | 0x02C => [⟨0, 17, .rw, 49152⟩] -- INTK_THRESH: LEVEL
  | 0x030 => [⟨0, 32, .rc, 0⟩] -- INTK_PKTS: COUNT
  | 0x034 => [⟨0, 32, .rc, 0⟩] -- INTK_REWIND: COUNT
  | 0x038 => [⟨0, 32, .ro, 0⟩] -- INTK_BATCH: LAST
  | 0x03C => [⟨0, 16, .ro, 0⟩] -- INTK_BATCH: LAST
  | 0x040 => [⟨0, 16, .ro, 0⟩] -- INTK_LAG: LAG
  | _ => []

/-- Fields by page offset: CMT page. -/
def fldsCmt (o : Nat) : List Fld :=
  match o with
  | 0x020 => [⟨0, 1, .wo, 0⟩] -- CMT_CTL: RESUME
  | 0x024 => [⟨0, 7, .pw, 16⟩, ⟨7, 16, .pw, 0⟩] -- CMT_VTREE: FANIN DMODS
  | 0x028 => [⟨0, 16, .pw, 2976⟩] -- CMT_VCUT: VCUT
  | 0x02C => [⟨0, 2, .ro, 0⟩, ⟨2, 1, .ro, 0⟩, ⟨3, 2, .ro, 0⟩, ⟨5, 3, .ro, 0⟩] -- CMT_STAT: STATE INDOUBT KIND RUN
  | 0x030 => [⟨0, 16, .ro, 0⟩] -- CMT_SRC: SRC
  | 0x034 => [⟨0, 16, .ro, 0⟩, ⟨16, 1, .w1c, 0⟩] -- CMT_MISS: CHILD VALID
  | 0x038 => [⟨0, 16, .rc, 0⟩, ⟨16, 16, .rc, 0⟩] -- CMT_CNT: DISCARDS ESCAL
  | 0x03C => [⟨0, 16, .ro, 0⟩] -- CMT_VLAT: LAT
  | 0x040 => [⟨0, 7, .pw, 8⟩] -- JNL_SIZE: GB
  | 0x044 => [⟨0, 16, .pw, 2048⟩] -- JNL_LAGMAX: LAGMAX
  | 0x048 => [⟨0, 1, .pw, 0⟩] -- JNL_CTL: KEEP
  | 0x04C => [⟨0, 32, .rw, 0⟩] -- JNL_REL: SLOT
  | 0x050 => [⟨0, 16, .rw, 0⟩] -- JNL_REL: SLOT
  | 0x054 => [⟨0, 32, .ro, 0⟩] -- JNL_FREE: MB
  | 0x058 => [⟨0, 8, .ro, 0⟩, ⟨8, 8, .ro, 0⟩, ⟨16, 1, .w1c, 0⟩] -- FLT_FIRST: CODE PCORE VALID
  | 0x05C => [⟨0, 32, .ro, 0⟩] -- FLT_BATCH: BATCH
  | 0x060 => [⟨0, 16, .ro, 0⟩] -- FLT_BATCH: BATCH
  | 0x070 => [⟨0, 8, .rw, 0⟩] -- CMT_BARIDX: BAR
  | 0x074 => [⟨0, 1, .ro, 0⟩, ⟨1, 1, .ro, 0⟩, ⟨2, 1, .ro, 0⟩, ⟨3, 1, .ro, 0⟩, ⟨12, 8, .ro, 0⟩, ⟨20, 8, .ro, 0⟩] -- CMT_BARSTATE: DECL MODE SCOPE PHASE ARRIVED PART
  | 0x300 => [⟨0, 1, .pw, 0⟩, ⟨1, 4, .pw, 4⟩, ⟨5, 11, .pw, 0⟩, ⟨16, 1, .pw, 0⟩] -- NUM_CTL: ENABLE CORR_MAX ARING APORT
  | 0x304 => [⟨0, 6, .pw, 0⟩, ⟨6, 14, .pw, 0⟩] -- NUM_CHND: HND ROW
  | 0x308 => [⟨0, 8, .rw, 0⟩] -- NUM_WIDX: SLOT
  | 0x30C => [⟨0, 32, .pw, 0⟩] -- NUM_WENT0: ENTRY
  | 0x310 => [⟨0, 32, .pw, 0⟩] -- NUM_WENT0: ENTRY
  | 0x314 => [⟨0, 32, .pw, 0⟩] -- NUM_WENT0: ENTRY
  | 0x318 => [⟨0, 32, .pw, 0⟩] -- NUM_WENT0: ENTRY
  | 0x31C => [⟨0, 16, .rc, 0⟩, ⟨16, 8, .ro, 0⟩, ⟨24, 1, .w1c, 0⟩, ⟨25, 1, .w1c, 0⟩] -- NUM_STAT: CORRS LAST_SLOT LIMIT MISSING
  | 0x320 => [⟨0, 32, .rc, 0⟩] -- NUM_ALERTS: COUNT
  | 0x340 => [⟨0, 1, .pw, 0⟩, ⟨1, 1, .pw, 0⟩] -- PH_CTL: ARM COLD
  | 0x344 => [⟨0, 32, .pw, 0⟩] -- PH_AT: TICK
  | 0x348 => [⟨0, 16, .pw, 0⟩] -- PH_AT: TICK
  | 0x34C => [⟨0, 2, .ro, 0⟩, ⟨2, 1, .w1c, 0⟩, ⟨3, 1, .w1c, 0⟩, ⟨4, 1, .w1c, 0⟩] -- PH_STAT: STATE DONE ABORTED LATE
  | 0x350 => [⟨0, 16, .ro, 0⟩] -- PH_SEQ: PHASE
  | _ => []

/-- Fields by page offset: PWR page. -/
def fldsPwr (o : Nat) : List Fld :=
  match o with
  | 0x020 => [⟨0, 3, .pw, 3⟩, ⟨3, 3, .pw, 7⟩, ⟨6, 1, .wo, 0⟩, ⟨16, 16, .pw, 100⟩] -- PWR_CTL: TMAX T1_FLOOR WAKE IDLE_MS
  | 0x024 => [⟨0, 3, .ro, 0⟩, ⟨3, 3, .ro, 0⟩, ⟨6, 1, .ro, 0⟩] -- PWR_STAT: TERRACE TARGET BUSY
  | 0x028 => [⟨0, 32, .ro, 0⟩] -- PWR_LAT: NS
  | _ => []

/-- Fields by page offset: SVC page. -/
def fldsSvc (o : Nat) : List Fld :=
  match o with
  | 0x020 => [⟨0, 8, .ro, 0⟩] -- SVC_GRADE: ARRAYS
  | 0x040 => [⟨0, 16, .ro, 0⟩] -- SVC_MODID: MODID
  | 0x060 => [⟨0, 4, .ro, 0⟩, ⟨4, 1, .ro, 0⟩, ⟨5, 1, .ro, 0⟩, ⟨6, 8, .ro, 0⟩] -- SVC_BOOT: STAGE SLOT DEGRADED BIST_FAIL
  | 0x064 => [⟨0, 3, .ro, 1⟩] -- SVC_RST: CAUSE
  | 0x068 => [⟨0, 1, .pw, 0⟩, ⟨1, 1, .ro, 0⟩] -- SVC_TASK: RESET PEND
  | 0x070 => [⟨0, 16, .rc, 0⟩, ⟨31, 1, .w1c, 0⟩] -- HOST_COLLIDE: COUNT VALID
  | 0x074 => [⟨0, 26, .ro, 0⟩] -- HOST_COLLIDE_ADDR: ADDR
  | _ => if (0x24 ≤ o ∧ o < 0x3C) ∨ (0x80 ≤ o ∧ o < 0xC0) then [⟨0, 32, .ro, 0⟩] else [] -- SVC_ARRAY_MAPn, SVC_IRQSUMn

/-- Fields by page offset: SEC page. -/
def fldsSec (o : Nat) : List Fld :=
  match o with
  | 0x020 => [⟨0, 1, .pw, 0⟩, ⟨1, 1, .pw, 0⟩, ⟨2, 1, .wo, 0⟩, ⟨3, 1, .wo, 0⟩] -- SEC_CTL: ACTIVE SVN_COMMIT ATTEST CERT
  | 0x024 => [⟨0, 1, .ro, 0⟩, ⟨1, 1, .w1c, 0⟩] -- SEC_STAT: ID_DEAD ATT_BUSY
  | 0x028 => [⟨0, 32, .ro, 0⟩] -- SEC_SVN: FUSED
  | 0x02C => [⟨0, 32, .ro, 0⟩] -- SEC_IDX: NEXT
  | 0x030 => [⟨0, 8, .ro, 0⟩] -- SEC_IDX: NEXT
  | 0x040 => [⟨0, 32, .wo, 0⟩] -- SEC_NONCE0: NONCE
  | 0x044 => [⟨0, 32, .wo, 0⟩] -- SEC_NONCE0: NONCE
  | 0x048 => [⟨0, 32, .wo, 0⟩] -- SEC_NONCE0: NONCE
  | 0x04C => [⟨0, 32, .wo, 0⟩] -- SEC_NONCE0: NONCE
  | 0x050 => [⟨0, 32, .wo, 0⟩] -- SEC_NONCE0: NONCE
  | 0x054 => [⟨0, 32, .wo, 0⟩] -- SEC_NONCE0: NONCE
  | 0x058 => [⟨0, 32, .wo, 0⟩] -- SEC_NONCE0: NONCE
  | 0x05C => [⟨0, 32, .wo, 0⟩] -- SEC_NONCE0: NONCE
  | 0x060 => [⟨0, 5, .pw, 16⟩, ⟨5, 11, .pw, 0⟩, ⟨16, 1, .pw, 0⟩, ⟨17, 1, .pw, 0⟩, ⟨18, 1, .wo, 0⟩] -- AUD_CTL: EPOCH RING PORT REPRO SNAP
  | 0x064 => [⟨0, 5, .ro, 16⟩] -- AUD_KEFF: K
  | 0x070 => [⟨0, 32, .rw, 0⟩] -- AUD_JADDR: ADDR
  | 0x074 => [⟨0, 32, .rw, 0⟩] -- AUD_JADDR: ADDR
  | 0x078 => [⟨0, 32, .rw, 0⟩] -- AUD_JSLOT: SLOT
  | 0x07C => [⟨0, 16, .rw, 0⟩] -- AUD_JSLOT: SLOT
  | 0x080 => [⟨0, 1, .wo, 0⟩, ⟨1, 1, .rw, 0⟩, ⟨2, 1, .rw, 0⟩, ⟨3, 1, .w1c, 0⟩, ⟨4, 1, .w1c, 0⟩] -- AUD_JCTL: GO DIE DIR DONE GONE
  | 0x084 => [⟨0, 32, .ro, 0⟩] -- AUD_JLEN: BYTES
  | _ => []

/-- Fields by page offset: TRC page. -/
def fldsTrc (o : Nat) : List Fld :=
  match o with
  | 0x020 => [⟨0, 1, .rw, 0⟩, ⟨1, 5, .rw, 16⟩, ⟨6, 1, .rw, 0⟩, ⟨7, 12, .rw, 0⟩] -- TRC_CTL: ENABLE K MODE DALES
  | 0x024 => [⟨0, 1, .w1c, 0⟩, ⟨1, 1, .w1c, 0⟩, ⟨2, 30, .rc, 0⟩] -- TRC_STAT: FULL T3_LOST DROP
  | 0x028 => [⟨0, 32, .ro, 0⟩] -- TRC_VCNT0: COUNT
  | 0x02C => [⟨0, 8, .ro, 0⟩] -- TRC_VCNT0: COUNT
  | 0x030 => [⟨0, 32, .ro, 0⟩] -- TRC_VCNT1: COUNT
  | 0x034 => [⟨0, 8, .ro, 0⟩] -- TRC_VCNT1: COUNT
  | 0x040 => [⟨0, 32, .rw, 0⟩] -- TRC_RADDR: ADDR
  | 0x044 => [⟨0, 32, .rw, 0⟩] -- TRC_RADDR: ADDR
  | 0x048 => [⟨0, 32, .rw, 0⟩] -- TRC_RIDX: INDEX
  | 0x04C => [⟨0, 8, .rw, 0⟩] -- TRC_RIDX: INDEX
  | 0x050 => [⟨0, 1, .wo, 0⟩, ⟨1, 1, .rw, 0⟩, ⟨2, 1, .w1c, 0⟩, ⟨3, 1, .w1c, 0⟩, ⟨16, 16, .rw, 0⟩] -- TRC_RCTL: GO DIE DONE GONE COUNTM1
  | _ =>
    if 0x100 ≤ o ∧ o < 0x180 then [⟨0, 6, .rw, 0⟩, ⟨6, 5, .rw, 0⟩] -- GCNT_SELn
    else if 0x200 ≤ o ∧ o < 0x300 then [⟨0, if o % 8 = 0 then 32 else 16, .ro, 0⟩] -- GCNT_VALn
    else []

/-- Fields by page offset: PG page. -/
def fldsPage (o : Nat) : List Fld :=
  match o with
  | 0x000 => [⟨0, 8, .ro, 0⟩, ⟨8, 8, .ro, 0⟩, ⟨16, 8, .ro, 0⟩, ⟨24, 8, .ro, 1⟩] -- PAGE_ID: TYPE INST MINOR MAJOR
  | 0x004 => [⟨0, 5, .ro, 0⟩, ⟨5, 1, .ro, 0⟩] -- PAGE_CAPS: IRQ_N FENCEABLE
  | 0x008 => [⟨0, 1, .pw, 0⟩] -- PAGE_CTL: LOCK
  | 0x00C => [⟨0, 1, .ro, 0⟩, ⟨1, 1, .ro, 0⟩, ⟨2, 1, .ro, 0⟩] -- PAGE_STAT: PEND TWIN_PEND FENCED
  | 0x010 => [⟨0, 32, .w1c, 0⟩] -- IRQ_RAW: RAW
  | 0x014 => [⟨0, 32, .rw, 0⟩] -- IRQ_EN: EN
  | 0x018 => [⟨0, 12, .ro, 0⟩, ⟨12, 4, .ro, 0⟩, ⟨16, 1, .ro, 0⟩, ⟨31, 1, .w1c, 0⟩] -- ERR_FIRST: OFFSET CAUSE PORT VALID
  | 0x01C => [⟨0, 32, .rc, 0⟩] -- ERR_COUNT: COUNT
  | _ => []

/-- Fields by page offset: SDL page. -/
def fldsSdl (o : Nat) : List Fld :=
  match o with
  | 0x020 => [⟨0, 1, .ro, 0⟩, ⟨8, 4, .ro, 0⟩] -- SDL_STAT: LOCKED SPARES
  | _ => []
/-- The family and instance of a page index (R440). -/
def pageFam (pi : Nat) : Option (Fam × Nat) :=
  match pi with
  | 0 => some (.svc, 0)
  | 1 => some (.sec, 0)
  | 2 => some (.tck, 0)
  | 3 => some (.pwr, 0)
  | 4 => some (.cmt, 0)
  | 5 => some (.trc, 0)
  | 6 => some (.sdl, 0)
  | 8 => some (.hp, 0)
  | 9 => some (.hp, 1)
  | 10 => some (.intk, 0)
  | 11 => some (.intk, 1)
  | _ =>
    if 16 ≤ pi ∧ pi < 24 then some (.hbm, pi - 16)
    else if 32 ≤ pi ∧ pi < 56 then some (.lnk, pi - 32)
    else if 64 ≤ pi ∧ pi < 76 then some (.dale, pi - 64)
    else if 256 ≤ pi ∧ pi < 448 then some (.core, pi - 256)
    else none

/-- Number of IRQ_RAW bits defined on a page (R42 to R451). -/
def Fam.irqN : Fam → Nat
  | .core => 12 | .dale => 2 | .hbm => 2 | .lnk => 4 | .sdl => 1 | .tck => 6 | .hp => 9 | .intk => 4 | .cmt => 10
  | .pwr => 1 | .svc => 0 | .sec => 3 | .trc => 3

/-- Fields at a page offset. -/
def famFlds (f : Fam) (o : Nat) : List Fld :=
  if o < 0x20 then fldsPage o
  else match f with
    | .core => fldsCore o | .dale => fldsDale o | .hbm => fldsHbm o | .lnk => fldsLnk o | .sdl => fldsSdl o
    | .tck => fldsTck o | .hp => fldsHp o | .intk => fldsIntk o | .cmt => fldsCmt o | .pwr => fldsPwr o
    | .svc => fldsSvc o | .sec => fldsSec o | .trc => fldsTrc o

/-- Fields at a BAR0 offset. -/
def bar0Flds (a : Nat) : List Fld :=
  match pageFam (a / 0x1000) with
  | some (f, _) => famFlds f (a % 0x1000)
  | none => []

/-- Reset value of a word from its fields. -/
def fldsReset (l : List Fld) : Nat := l.foldl (fun n f => n + (f.rst % 2 ^ f.w) * 2 ^ f.lo) 0

/-- Reset value of the register at a BAR0 offset. -/
def regReset (a : Nat) : BitVec 32 := BitVec.ofNat 32 (fldsReset (bar0Flds a))

/-- Mask of the fields that satisfy a test. -/
def fldsMask (p : Acc → Bool) (l : List Fld) : Nat := l.foldl (fun n f => if p f.acc then n ||| (2 ^ f.w - 1) <<< f.lo else n) 0

end Sys2Proof.Machine
end

