-- ==== Sys2Proof/Machine/Fp.lean ====
section
/-! DEFINITION. Exact binary values, the floating-point formats of R122 to R124 and R132, rounding, and the correctly rounded
operations of R133, R144, R147, R148. A code is the format's bit pattern as a number. -/
namespace Sys2Proof.Machine

/-- What a code stands for: a NaN, a signed infinity, or (-1)^neg x m x 2^e exactly (a zero keeps its sign). -/
inductive Val where
  | nan
  | inf (neg : Bool)
  | fin (neg : Bool) (m : Nat) (e : Int)
  deriving DecidableEq, Repr

/-- Which special codes a format has: as IEEE 754, as E4M3 (R123), or none. -/
inductive FSpec where
  | ieee
  | e4m3
  | none
  deriving DecidableEq, Repr

/-- A floating-point format: exponent and mantissa widths, bias, special codes (R122, R132). -/
structure FFmt where
  ew : Nat
  mw : Nat
  bias : Nat
  spec : FSpec
  deriving DecidableEq, Repr

def fFP32 : FFmt := ⟨8, 23, 127, .ieee⟩
def fFP16 : FFmt := ⟨5, 10, 15, .ieee⟩
def fBF16 : FFmt := ⟨8, 7, 127, .ieee⟩
def fE4M3 : FFmt := ⟨4, 3, 7, .e4m3⟩
def fE5M2 : FFmt := ⟨5, 2, 15, .ieee⟩
def fE3M2 : FFmt := ⟨3, 2, 3, .none⟩
def fE2M3 : FFmt := ⟨2, 3, 1, .none⟩
def fE2M1 : FFmt := ⟨2, 1, 1, .none⟩
/-- R132: bits [47:16] an FP32 word, [15:0] sixteen more mantissa bits. -/
def fW48 : FFmt := ⟨8, 39, 127, .ieee⟩

/-- Position of the sign bit. -/
def FFmt.sbit (f : FFmt) : Nat := f.ew + f.mw

/-- Magnitude code of the largest finite value (R122). -/
def FFmt.maxFin (f : FFmt) : Nat :=
  match f.spec with
  | .ieee => (2 ^ f.ew - 1) * 2 ^ f.mw - 1
  | .e4m3 => 2 ^ f.sbit - 2
  | .none => 2 ^ f.sbit - 1

/-- The canonical NaN (R122, R123); 0 where the format has none (R133). -/
def FFmt.cnan (f : FFmt) : Nat :=
  match f.spec with
  | .ieee => (2 ^ f.ew - 1) * 2 ^ f.mw + 2 ^ (f.mw - 1)
  | .e4m3 => 2 ^ f.sbit - 1
  | .none => 0

/-- The code of an infinity, for formats that have one. -/
def FFmt.infC (f : FFmt) (neg : Bool) : Nat := b2n neg * 2 ^ f.sbit + (2 ^ f.ew - 1) * 2 ^ f.mw

/-- Exponent of the smallest step of the format. -/
def FFmt.qmin (f : FFmt) : Int := 1 - (f.bias : Int) - f.mw

/-- The value of a code (R122, R123, R132). -/
def decF (f : FFmt) (c : Nat) : Val :=
  let neg := bbit c f.sbit
  let ex := bfield c f.mw f.ew
  let m := c % 2 ^ f.mw
  let special : Option Val := match f.spec with
    | .ieee => if ex = 2 ^ f.ew - 1 then some (if m = 0 then .inf neg else .nan) else none
    | .e4m3 => if ex = 2 ^ f.ew - 1 ∧ m = 2 ^ f.mw - 1 then some .nan else none
    | .none => none
  match special with
  | some v => v
  | none => if ex = 0 then .fin neg m f.qmin else .fin neg (m + 2 ^ f.mw) (f.qmin + ex - 1)

/-- Rounds m x 2^e (m > 0) to a whole number of 2^q: to nearest even, or toward zero. -/
def roundAt (rtz : Bool) (m : Nat) (e q : Int) : Nat :=
  if q ≤ e then m * 2 ^ (e - q).toNat
  else
    let k := (q - e).toNat
    let n := m >>> k
    if rtz then n
    else
      let r := m % 2 ^ k
      let h := 2 ^ (k - 1)
      if h < r ∨ (r = h ∧ n % 2 = 1) then n + 1 else n

/-- Magnitude code of m x 2^e rounded with no upper bound on the exponent: above `maxFin` it overflows. -/
def roundMag (f : FFmt) (rtz : Bool) (m : Nat) (e : Int) : Nat :=
  if m = 0 then 0
  else
    let q := max ((m.log2 : Int) + e - f.mw) f.qmin
    (q - f.qmin).toNat * 2 ^ f.mw + roundAt rtz m e q

/-- Compares the magnitudes of two exact values. -/
def magLt (m1 : Nat) (e1 : Int) (m2 : Nat) (e2 : Int) : Bool :=
  let k := min e1 e2
  decide (m1 * 2 ^ (e1 - k).toNat < m2 * 2 ^ (e2 - k).toNat)

/-- The exact magnitude lies beyond the largest finite value of the format. -/
def beyondMax (f : FFmt) (m : Nat) (e : Int) : Bool :=
  match decF f f.maxFin with
  | .fin _ mm em => magLt mm em m e
  | _ => false

/-- A conversion result: the code, a saturation, a NaN replaced by a number (R133). -/
structure Cvt where
  code : Nat
  sat : Bool := false
  nanRep : Bool := false
  deriving DecidableEq, Repr

/-- Rounds a value to a format under IEEE 754-2019 overflow (R133, R148): no saturation under RNE, the largest finite under RTZ. -/
def encF (f : FFmt) (rtz : Bool) (v : Val) : Cvt :=
  match v with
  | .nan => ⟨f.cnan, false, false⟩
  | .inf neg => ⟨f.infC neg, false, false⟩
  | .fin neg m e =>
    let s := b2n neg * 2 ^ f.sbit
    let c := roundMag f rtz m e
    if c ≤ f.maxFin then ⟨s + c, rtz && decide (c = f.maxFin) && beyondMax f m e, false⟩
    else if rtz then ⟨s + f.maxFin, true, false⟩ else ⟨f.infC neg, false, false⟩

/-- Rounds a value to an FP8, FP6 or FP4 format (R133): `nonsat` is option bit 1, which acts on FP8 only. -/
def encNarrow (f : FFmt) (rtz nonsat : Bool) (v : Val) : Cvt :=
  let keepInf := nonsat && decide (f.spec ≠ .none)
  match v with
  | .nan => ⟨f.cnan, false, decide (f.spec = .none)⟩
  | .inf neg =>
    if keepInf then ⟨if f.spec = .e4m3 then f.cnan else f.infC neg, false, false⟩
    else ⟨b2n neg * 2 ^ f.sbit + f.maxFin, true, false⟩
  | .fin neg m e =>
    let s := b2n neg * 2 ^ f.sbit
    let c := roundMag f rtz m e
    if c ≤ f.maxFin then ⟨s + c, !keepInf && decide (c = f.maxFin) && beyondMax f m e, false⟩
    else if keepInf then ⟨if f.spec = .e4m3 then f.cnan else f.infC neg, false, false⟩
    else ⟨s + f.maxFin, true, false⟩

/-- The whole number a finite value rounds to, to nearest even or toward zero. -/
def roundInt (rtz neg : Bool) (m : Nat) (e : Int) : Int :=
  let n : Int := roundAt rtz m e 0
  if neg then -n else n

/-- Rounds a value to an integer in [lo, hi] (R133, FTOI of R178): NaN becomes 0. -/
def encInt (lo hi : Int) (rtz : Bool) (v : Val) : Int × Bool × Bool :=
  match v with
  | .nan => (0, false, true)
  | .inf neg => (if neg then lo else hi, true, false)
  | .fin neg m e =>
    let n := roundInt rtz neg m e
    if n < lo then (lo, true, false) else if hi < n then (hi, true, false) else (n, false, false)

/-- An integer as an exact value. -/
def valInt (i : Int) : Val := .fin (decide (i < 0)) i.natAbs 0

/-- An FP32 code as a value. -/
def v32 (c : Nat) : Val := decF fFP32 c

/-- A value rounded to FP32. -/
def r32 (rtz : Bool) (v : Val) : Nat := (encF fFP32 rtz v).code

/-- The canonical FP32 NaN. -/
def nan32 : Nat := 0x7FC00000

def Val.isNan : Val → Bool
  | .nan => true
  | _ => false

def Val.isZero : Val → Bool
  | .fin _ 0 _ => true
  | _ => false

def Val.isFin : Val → Bool
  | .fin _ _ _ => true
  | _ => false

/-- Sign inverted. -/
def Val.negate : Val → Val
  | .nan => .nan
  | .inf n => .inf (!n)
  | .fin n m e => .fin (!n) m e

/-- Signed whole number m of a finite value at exponent `k` (k at most its exponent). -/
def scaled (neg : Bool) (m : Nat) (e k : Int) : Int :=
  let n : Int := m * 2 ^ (e - k).toNat
  if neg then -n else n

/-- Exact sum under IEEE 754-2019: an exact zero of two opposite values is +0. -/
def addV (a b : Val) : Val :=
  match a, b with
  | .nan, _ => .nan
  | _, .nan => .nan
  | .inf x, .inf y => if x = y then .inf x else .nan
  | .inf x, _ => .inf x
  | _, .inf y => .inf y
  | .fin n1 m1 e1, .fin n2 m2 e2 =>
    let k := min e1 e2
    let s := scaled n1 m1 e1 k + scaled n2 m2 e2 k
    if s = 0 then .fin (n1 && n2) 0 k else .fin (decide (s < 0)) s.natAbs k

/-- Exact product. -/
def mulV (a b : Val) : Val :=
  match a, b with
  | .nan, _ => .nan
  | _, .nan => .nan
  | .inf x, .inf y => .inf (x != y)
  | .inf x, .fin y m _ => if m = 0 then .nan else .inf (x != y)
  | .fin x m _, .inf y => if m = 0 then .nan else .inf (x != y)
  | .fin x m e, .fin y m' e' => .fin (x != y) (m * m') (e + e')

/-- A positive value known up to less than its last place, as an exact value that rounds the same way. -/
def sticky (neg : Bool) (m : Nat) (e : Int) (inexact : Bool) : Val := .fin neg (2 * m + b2n inexact) (e - 1)

/-- Quotient, exact enough for one rounding to 40 bits or fewer. -/
def divV (a b : Val) : Val :=
  match a, b with
  | .nan, _ => .nan
  | _, .nan => .nan
  | .inf _, .inf _ => .nan
  | .inf x, .fin y _ _ => .inf (x != y)
  | .fin x _ _, .inf y => .fin (x != y) 0 0
  | .fin x m e, .fin y m' e' =>
    if m' = 0 then (if m = 0 then .nan else .inf (x != y))
    else
      let k := 100 + m'.log2
      let n := m * 2 ^ k
      sticky (x != y) (n / m') (e - k - e') (decide (n % m' ≠ 0))

/-- Whole square root, by bits from bit `i` down. -/
def isqrtAux (n : Nat) : Nat → Nat → Nat
  | 0, r => r
  | i + 1, r => let t := r + 2 ^ i
                isqrtAux n i (if t * t ≤ n then t else r)

/-- Whole square root. -/
def isqrt (n : Nat) : Nat := isqrtAux n (n.log2 / 2 + 1) 0

/-- Square root, exact enough for one rounding. -/
def sqrtV (a : Val) : Val :=
  match a with
  | .nan => .nan
  | .inf neg => if neg then .nan else .inf false
  | .fin neg m e =>
    if m = 0 then .fin neg 0 e
    else if neg then .nan
    else
      let k : Nat := if (e % 2 = 0) then 120 else 121
      let n := m * 2 ^ k
      let r := isqrt n
      sticky false r ((e - k) / 2) (decide (r * r ≠ n))

/-- FP32 operations of R148, correctly rounded. -/
def add32 (rtz : Bool) (a b : Nat) : Nat := r32 rtz (addV (v32 a) (v32 b))
def sub32 (rtz : Bool) (a b : Nat) : Nat := r32 rtz (addV (v32 a) (v32 b).negate)
def mul32 (rtz : Bool) (a b : Nat) : Nat := r32 rtz (mulV (v32 a) (v32 b))
def fma32 (rtz : Bool) (a b c : Nat) : Nat := r32 rtz (addV (mulV (v32 a) (v32 b)) (v32 c))
def div32 (rtz : Bool) (a b : Nat) : Nat := r32 rtz (divV (v32 a) (v32 b))
def sqrt32 (rtz : Bool) (a : Nat) : Nat := r32 rtz (sqrtV (v32 a))

/-- Sign-magnitude order key of a code that is no NaN: -0 lies below +0 (R147). -/
def ordKey (f : FFmt) (c : Nat) : Int :=
  let m : Int := c % 2 ^ f.sbit
  if bbit c f.sbit then -m - 1 else m

/-- Maximum or minimum of R147, on FP32 or W48 codes. -/
def maxMin (f : FFmt) (wantMax : Bool) (a b : Nat) : Nat :=
  match (decF f a).isNan, (decF f b).isNan with
  | true, true => f.cnan
  | true, false => b
  | false, true => a
  | false, false => if (ordKey f a < ordKey f b) = wantMax then b else a

/-- a < b in extended real order, for values that are no NaN; -0 equals +0. -/
def ltV (a b : Val) : Bool :=
  match a, b with
  | .nan, _ => false
  | _, .nan => false
  | .inf true, .inf true => false
  | .inf true, _ => true
  | .inf false, _ => false
  | _, .inf n => !n
  | .fin n1 m1 e1, .fin n2 m2 e2 =>
    let k := min e1 e2
    decide (scaled n1 m1 e1 k < scaled n2 m2 e2 k)

/-- a = b in extended real order. -/
def eqV (a b : Val) : Bool := !a.isNan && !b.isNan && !ltV a b && !ltV b a

/-- Stochastic rounding of an exact value to FP32 with random word `r` (R144). -/
def stoch32 (r : Nat) (v : Val) : Nat :=
  match v with
  | .nan => nan32
  | .inf neg => fFP32.infC neg
  | .fin neg m e =>
    let s := b2n neg * 2 ^ 31
    if m = 0 then s
    else
      let q := max ((m.log2 : Int) + e - 23) fFP32.qmin
      let t := roundMag fFP32 true m e
      let d := if q ≤ e then 0
        else
          let k := (q - e).toNat
          ((m % 2 ^ k) * 2 ^ 32) >>> k
      if fFP32.maxFin < t then s + fFP32.maxFin + 1 else if 2 ^ 32 ≤ d + r then s + t + 1 else s + t

/-- UE5M3 scale (R124); none for the NaN code. -/
def decUE5M3 (c : Nat) : Val :=
  if c = 0xFF then .nan
  else if c / 8 = 0 then .fin false (c % 8) (-17)
  else .fin false (8 + c % 8) ((c / 8 : Nat) - 18)

/-- The smallest UE5M3 code whose value is at least m x 2^e; 0xFE where none is (R135 step 3). -/
def ceilUE5M3 (m : Nat) (e : Int) : Nat :=
  match findN 0xFF (fun c => match decUE5M3 c with
    | .fin _ mc ec => !magLt mc ec m e
    | _ => false) with
  | some c => c
  | none => 0xFE

/-- E8M0 scale as a power of two (R124); none for the NaN code. -/
def decE8M0 (c : Nat) : Option Int := if c = 0xFF then none else some ((c : Int) - 127)

end Sys2Proof.Machine
end

