-- ==== Sys2Proof/Machine/Transc.lean ====
section
/-! DEFINITION. The transcendental operations of R178 and R179: the exact mathematical value rounded once to FP32. The value is
computed in fixed point with 640 fraction bits, far past the closest that any FP32 argument's result comes to a rounding boundary
(notes/assumptions/7.md), and marked inexact before its one rounding; the arguments with an exact result are told apart first. -/
namespace Sys2Proof.Machine

/-- Fraction bits of the fixed-point work. -/
def fxP : Nat := 640

/-- Fixed-point product. -/
def fxMul (a b : Nat) : Nat := (a * b) >>> fxP

/-- Sum of z^(2i+1)/(2i+1) over n terms, alternating signs where `alt`. -/
def fxOddSeries (alt : Bool) (z : Nat) : Nat → Nat → Nat → Int → Int
  | 0, _, _, acc => acc
  | n + 1, i, p, acc =>
    let t : Int := (p / (2 * i + 1) : Nat)
    fxOddSeries alt z n (i + 1) (fxMul (fxMul p z) z) (if alt && i % 2 == 1 then acc - t else acc + t)

/-- atanh z or atan z of a fixed-point z at most 1/3. -/
def fxAtanh (alt : Bool) (z : Nat) : Nat := (fxOddSeries alt z 220 0 z 0).toNat

/-- ln 2. -/
def fxLn2 : Nat := 2 * fxAtanh false (2 ^ fxP / 3)

/-- pi, by 16 atan(1/5) - 4 atan(1/239). -/
def fxPi : Nat := 16 * fxAtanh true (2 ^ fxP / 5) - 4 * fxAtanh true (2 ^ fxP / 239)

/-- Taylor sum of e^t, t in [0, 1). -/
def fxExpAux (t : Nat) : Nat → Nat → Nat → Nat → Nat
  | 0, _, _, acc => acc
  | n + 1, i, p, acc => fxExpAux t n (i + 1) (fxMul p t / i) (acc + p)

/-- e^t for a fixed-point t in [0, 1). -/
def fxExp (t : Nat) : Nat := fxExpAux t 150 1 (2 ^ fxP) 0

/-- Taylor sums of sin (from t) and cos (from 1). -/
def fxTrigAux (t2 : Nat) : Nat → Nat → Nat → Int → Int
  | 0, _, _, acc => acc
  | n + 1, i, p, acc =>
    fxTrigAux t2 n (i + 2) (fxMul p t2 / ((i + 1) * (i + 2))) (if i / 2 % 2 = 0 then acc + p else acc - p)

/-- sin t, t in [0, pi/2]. -/
def fxSin (t : Nat) : Nat := (fxTrigAux (fxMul t t) 80 1 t 0).toNat

/-- cos t, t in [0, pi/2]. -/
def fxCos (t : Nat) : Nat := (fxTrigAux (fxMul t t) 80 0 (2 ^ fxP) 0).toNat

/-- A magnitude m x 2^e in fixed point, truncated. -/
def fxOf (m : Nat) (e : Int) : Nat :=
  let k := e + fxP
  if 0 ≤ k then m * 2 ^ k.toNat else m >>> (-k).toNat

/-- 2^k x e^t with t in [0, ln 2) a fixed-point number. -/
def fxExpScaled (k : Int) (t : Nat) : Val := sticky false (fxExp t) (k - fxP) true

/-- e^x for x = ± X in fixed point with |x| below 2^10. -/
def expVal (neg : Bool) (x : Nat) : Val :=
  let k := x / fxLn2
  let t := x % fxLn2
  if neg then (if t = 0 then fxExpScaled (-k) 0 else fxExpScaled (-(k : Int) - 1) (fxLn2 - t)) else fxExpScaled k t

/-- A positive value that rounds to infinity, or to the smallest magnitudes. -/
def hugeVal (neg : Bool) : Val := .fin neg 1 300
def tinyVal (neg : Bool) : Val := .fin neg 1 (-400)

/-- Argument of a transcendental: FP32 subnormals flushed to zero of their sign (R148 item 2). -/
def flush32 (c : Nat) : Val :=
  if bfield c 23 8 = 0 then .fin (bbit c 31) 0 0 else v32 c

/-- |x| is at least 2^9. -/
def isBig (m : Nat) (e : Int) : Bool := decide (9 ≤ (m.log2 : Int) + e)

/-- EXP. -/
def tExp (v : Val) : Val :=
  match v with
  | .nan => .nan
  | .inf neg => if neg then .fin false 0 0 else .inf false
  | .fin neg m e =>
    if m = 0 then .fin false 1 0
    else if isBig m e then (if neg then tinyVal false else hugeVal false)
    else expVal neg (fxOf m e)

/-- EXP2. -/
def tExp2 (v : Val) : Val :=
  match v with
  | .nan => .nan
  | .inf neg => if neg then .fin false 0 0 else .inf false
  | .fin neg m e =>
    if m = 0 then .fin false 1 0
    else if isBig m e then (if neg then tinyVal false else hugeVal false)
    else
      let x := fxOf m e
      let n : Int := (x >>> fxP : Nat)
      let fr := x % 2 ^ fxP
      if fr = 0 then .fin false 1 (if neg then -n else n)
      else if neg then fxExpScaled (-n - 1) (fxMul (2 ^ fxP - fr) fxLn2) else fxExpScaled n (fxMul fr fxLn2)

/-- ln of m x 2^e as a signed fixed-point number. -/
def fxLn (m : Nat) (e : Int) : Int :=
  let l := m.log2
  let f := fxOf m (-(l : Int))
  let one := 2 ^ fxP
  let z := ((f - one) * one) / (f + one)
  (2 * fxAtanh false z : Nat) + ((l : Int) + e) * fxLn2

/-- A signed fixed-point number as an inexact value. -/
def fxVal (i : Int) : Val := sticky (decide (i < 0)) i.natAbs (-(fxP : Int)) true

/-- m is a power of two. -/
def isPow2 (m : Nat) : Bool := decide (2 ^ m.log2 = m)

/-- LN and LOG2. -/
def tLog (base2 : Bool) (v : Val) : Val :=
  match v with
  | .nan => .nan
  | .inf neg => if neg then .nan else .inf false
  | .fin neg m e =>
    if m = 0 then .inf true
    else if neg then .nan
    else if isPow2 m && decide ((m.log2 : Int) + e = 0) then .fin false 0 0
    else if base2 then
      (if isPow2 m then valInt ((m.log2 : Int) + e)
       else fxVal ((fxLn m e * (2 ^ fxP : Nat)) / (fxLn2 : Int)))
    else fxVal (fxLn m e)

/-- RSQRT. -/
def tRsqrt (v : Val) : Val :=
  match v with
  | .nan => .nan
  | .inf neg => if neg then .nan else .fin false 0 0
  | .fin neg m e =>
    if m = 0 then .inf neg
    else if neg then .nan
    else
      let k : Nat := 2 * (m.log2 + 120)
      let (m', e') := if e % 2 = 0 then (m, e) else (2 * m, e - 1)
      let r := isqrt (2 ^ k / m')
      sticky false r (-(k / 2 : Nat) - e' / 2) (decide (r * r * m' ≠ 2 ^ k))

/-- |x| modulo 2 as a fixed-point number; exact for every FP32 value. -/
def fxMod2 (m : Nat) (e : Int) : Nat := fxOf m e % 2 ^ (fxP + 1)

/-- sin(pi r) for r in [0, 1/2], exact at both ends. -/
def fxSinPi (r : Nat) : Val :=
  if r = 0 then .fin false 0 0
  else if 2 * r = 2 ^ fxP then .fin false 1 0
  else if 4 * r ≤ 2 ^ fxP then sticky false (fxSin (fxMul r fxPi)) (-(fxP : Int)) true
  else sticky false (fxCos (fxMul (2 ^ (fxP - 1) - r) fxPi)) (-(fxP : Int)) true

/-- SINPI: sinPi(n) is +0 and sinPi(-n) is -0 for n > 0. -/
def tSinPi (v : Val) : Val :=
  match v with
  | .nan => .nan
  | .inf _ => .nan
  | .fin neg m e =>
    let one := 2 ^ fxP
    let r := fxMod2 m e
    let (flip, r) := if one ≤ r then (true, r - one) else (false, r)
    let r := if one < 2 * r then one - r else r
    match fxSinPi r with
    | .fin _ 0 e => .fin neg 0 e
    | .fin _ m e => .fin (neg != flip) m e
    | w => w

/-- COSPI: cosPi(n + 1/2) is +0. -/
def tCosPi (v : Val) : Val :=
  match v with
  | .nan => .nan
  | .inf _ => .nan
  | .fin _ m e =>
    let one := 2 ^ fxP
    let r := fxMod2 m e
    let r := if one < r then 2 * one - r else r
    let (flip, r) := if one < 2 * r then (true, one - r) else (false, r)
    match fxSinPi (one / 2 - r) with
    | .fin _ 0 e => .fin false 0 e
    | .fin _ m e => .fin flip m e
    | w => w

/-- TANH, as (1 - q)/(1 + q) with q = e^(-2|x|). -/
def tTanh (v : Val) : Val :=
  match v with
  | .nan => .nan
  | .inf neg => .fin neg 1 0
  | .fin neg m e =>
    let one := 2 ^ fxP
    if m = 0 then .fin neg 0 e
    else if isBig m (e + 2) then .fin neg (one - 1) (-(fxP : Int))
    else match expVal true (2 * fxOf m e) with
      | .fin _ mq eq =>
        let q := fxOf mq eq
        sticky neg (((one - q) * one) / (one + q)) (-(fxP : Int)) true
      | w => w

/-- SIGM. -/
def tSigm (v : Val) : Val :=
  match v with
  | .nan => .nan
  | .inf neg => if neg then .fin false 0 0 else .fin false 1 0
  | .fin neg m e =>
    let one := 2 ^ fxP
    if m = 0 then .fin false 1 (-1)
    else if isBig m (e + 2) then (if neg then tinyVal false else .fin false (one - 1) (-(fxP : Int)))
    else match expVal true (fxOf m e) with
      | .fin _ mq eq =>
        let q := fxOf mq eq
        if neg then divV (.fin false mq eq) (.fin false (one + q) (-(fxP : Int)))
        else sticky false ((one * one) / (one + q)) (-(fxP : Int)) true
      | w => w

end Sys2Proof.Machine
end

