-- ==== Sys2Proof/Machine/Formats.lean ====
section
/-! DEFINITION. Element formats by their codes (R101), packing in rows (R121), the conversions of R131 to R135, the chunk values of
R136 to R142 and the Philox generator of R145. -/
namespace Sys2Proof.Machine

/-- Width in bits that an element occupies in a row, by format code (R101, R121, R171); T5 is per byte of five. -/
def fmtBits (c : Nat) : Nat :=
  match c with
  | 0 => 32 | 1 => 16 | 2 => 16 | 3 => 8 | 4 => 8 | 5 => 6 | 6 => 6 | 7 => 4
  | 8 => 8 | 9 => 8 | 10 => 6 | 11 => 6 | 12 => 4 | 13 => 4
  | 14 => 32 | 15 => 8 | 16 => 4 | 17 => 2 | 18 => 8 | 19 => 64
  | _ => 8

/-- Element format of a floating-point code, MX and KF4 elements included (R101, R125, R126). -/
def fmtFloat (c : Nat) : Option FFmt :=
  match c with
  | 0 => some fFP32 | 1 => some fFP16 | 2 => some fBF16 | 3 => some fE4M3 | 4 => some fE5M2
  | 5 => some fE3M2 | 6 => some fE2M3 | 7 => some fE2M1
  | 8 => some fE4M3 | 9 => some fE5M2 | 10 => some fE3M2 | 11 => some fE2M3 | 12 => some fE2M1 | 13 => some fE2M1
  | 19 => some fW48
  | _ => none

/-- Width of a two's-complement format (R130). -/
def fmtInt (c : Nat) : Option Nat :=
  match c with
  | 14 => some 32 | 15 => some 8 | 16 => some 4 | 17 => some 2
  | _ => none

/-- An MX format (R125). -/
def isMX (c : Nat) : Bool := decide (8 ≤ c ∧ c ≤ 12)

/-- An integer-mode format (R142, R149). -/
def isIntFmt (c : Nat) : Bool := decide (14 ≤ c ∧ c ≤ 18)

/-- Element i of w bits of a row taken as one number (R121). -/
def elemAt (w row i : Nat) : Nat := bfield row (w * i) w

/-- Packs elements of w bits from bit 0 on (R121). -/
def packN (w : Nat) : List Nat → Nat
  | [] => 0
  | c :: t => c % 2 ^ w + 2 ^ w * packN w t

/-- Packed elements as a row of bytes. -/
def packRow (w bytes : Nat) (l : List Nat) : List Byte := leBytes bytes (packN w l)

/-- The value of an element code (R122, R130, R132); W48 ignores its container's bits [63:48] (R171). -/
def elemVal (fmt c : Nat) : Val :=
  match fmtFloat fmt with
  | some f => decF f (c % 2 ^ (f.sbit + 1))
  | none => match fmtInt fmt with
    | some w => valInt (sext w c)
    | none => .fin false 0 0

/-- Digit j of a T5 code as -1, 0 or 1 (R131); an invalid code decodes as zeros. -/
def t5Digit (code j : Nat) : Int := if code ≤ 242 then ((code / 3 ^ j % 3 : Nat) : Int) - 1 else 0

/-- The T5 code of five trits (R131). -/
def t5Code : List Int → Nat
  | [] => 0
  | t :: r => (t + 1).toNat + 3 * t5Code r

/-- Conversion of one element to a destination that is neither MX nor KF4 nor T5 (R133). -/
def cvtTo (dst : Nat) (rtz nonsat : Bool) (v : Val) : Cvt :=
  match fmtFloat dst with
  | some f =>
    if dst = 0 ∨ dst = 1 ∨ dst = 2 ∨ dst = 19 then encF f rtz v else encNarrow f rtz nonsat v
  | none => match fmtInt dst with
    | some w =>
      let r := encInt (-(2 ^ (w - 1) : Nat)) ((2 ^ (w - 1) : Nat) - 1) rtz v
      ⟨wrapN w r.1, r.2.1, r.2.2⟩
    | none => ⟨0, false, false⟩

/-- Conversion of one element to a trit (R133). -/
def cvtTrit (rtz : Bool) (v : Val) : Int × Bool × Bool := encInt (-1) 1 rtz v

/-- floor(log2) of a finite non-zero value. -/
def Val.exp2 : Val → Option Int
  | .fin _ m e => if m = 0 then none else some ((m.log2 : Int) + e)
  | _ => none

/-- The larger magnitude of two finite values, the first on a tie; others are passed over. -/
def maxMag (a b : Val) : Val :=
  match a, b with
  | .fin _ m1 e1, .fin _ m2 e2 => if magLt m1 e1 m2 e2 then .fin false m2 e2 else .fin false m1 e1
  | .fin _ m1 e1, _ => .fin false m1 e1
  | _, .fin _ m2 e2 => .fin false m2 e2
  | _, _ => .fin false 0 0

/-- Largest magnitude among the finite elements, +0 where there is none. -/
def amaxOf (l : List Val) : Val := l.foldl maxMag (.fin false 0 0)

/-- A value times 2^k. -/
def Val.scale (v : Val) (k : Int) : Val :=
  match v with
  | .fin n m e => .fin n m (e + k)
  | w => w

/-- Exponent of the largest normal of an element format (R134 step 1). -/
def mxEmax (fmt : Nat) : Int :=
  match fmt with
  | 8 => 8 | 9 => 15 | 10 => 4 | 11 => 2 | _ => 2

/-- The E8M0 scale of a block (R134 steps 1 and 2). -/
def mxScale (fmt : Nat) (blk : List Val) : Nat :=
  if blk.any (fun v => !v.isFin) then 0xFF
  else match (amaxOf blk).exp2 with
    | none => 0
    | some a => (max (-127) (min 127 (a - mxEmax fmt)) + 127).toNat

/-- One element of a block under scale code `x` (R134 step 3): always saturating, nothing counted when the scale is NaN. -/
def mxElem (fmt x : Nat) (rtz : Bool) (v : Val) : Cvt :=
  match fmtFloat fmt with
  | none => ⟨0, false, false⟩
  | some f => match decE8M0 x with
    | none => ⟨f.cnan, false, false⟩
    | some k => encNarrow f rtz false (v.scale (-k))

/-- The value of an MX element under its scale (R125). -/
def mxVal (fmt x c : Nat) : Val :=
  match decE8M0 x with
  | none => .nan
  | some k => (elemVal fmt c).scale k

/-- Fields of an outlier record (R128). -/
def orVal (r i : Nat) : Nat := bfield r (16 * i) 16
def orPos (r i : Nat) : Nat := bfield r (32 + 6 * i) 6
def orCnt (r : Nat) : Nat := bfield r 44 2

/-- A used outlier value: zero, or finite with magnitude in [2^-8, 2^16) (R129). -/
def orValOk (c : Nat) : Bool :=
  match decF fBF16 c with
  | .fin _ m e => decide (m = 0) || (decide (-8 ≤ (m.log2 : Int) + e) && decide ((m.log2 : Int) + e < 16))
  | _ => false

/-- A well-formed outlier record (R129). -/
def orOk (r : Nat) : Bool :=
  let n := orCnt r
  decide (n ≤ 2) && decide (bfield r 46 2 = 0)
    && (decide (n < 2) || (decide (orPos r 0 < 32) && decide (32 ≤ orPos r 1)))
    && (decide (1 ≤ n) || (decide (orVal r 0 = 0) && decide (orPos r 0 = 0)))
    && (decide (2 ≤ n) || (decide (orVal r 1 = 0) && decide (orPos r 1 = 0)))
    && (decide (n < 1) || orValOk (orVal r 0)) && (decide (n < 2) || orValOk (orVal r 1))

/-- The outlier value at position `pos` of a group's record, where it names one. -/
def orAt (r pos : Nat) : Option Nat :=
  if 1 ≤ orCnt r ∧ orPos r 0 = pos then some (orVal r 0)
  else if 2 ≤ orCnt r ∧ orPos r 1 = pos then some (orVal r 1) else none

/-- Effective value of a KF4 element (R127) from its E2M1 code, block scale code, its group's record and its position there. -/
def kf4Eff (e2m1 s r pos : Nat) : Val :=
  if !orOk r then .nan
  else match orAt r pos with
    | some o => decF fBF16 o
    | none => mulV (decUE5M3 s) (decF fE2M1 e2m1)

/-! ### Chunk values (R136 to R142) -/

/-- What the products of a chunk amount to: exact sum, or a special result (R139). -/
def prodFold (acc : Val) (aw : Val × Val) : Val :=
  match acc with
  | .nan => .nan
  | acc =>
    if aw.1.isNan || aw.2.isNan then .nan
    else match mulV aw.1 aw.2 with
      | .nan => .nan
      | .inf n => (match acc with | .inf n' => if n = n' then .inf n else .nan | _ => .inf n)
      | .fin n m e => (match acc with
        | .inf n' => .inf n'
        | _ => addV acc (.fin n m e))

/-- The exact sum of a chunk with +0 for an exact zero (R139). -/
def chunkSum (l : List (Val × Val)) : Val :=
  match l.foldl prodFold (.fin false 0 0) with
  | .fin n m e => if m = 0 then .fin false 0 0 else .fin n m e
  | w => w

/-- Truncates toward zero to a multiple of 2^q (R138). -/
def truncAt (q : Int) (v : Val) : Val :=
  match v with
  | .fin n m e => if q ≤ e then .fin n m e else .fin n (m >>> (q - e).toNat) q
  | w => w

/-- Largest exponent of the finite non-zero elements (R138). -/
def maxExp (l : List Val) : Option Int :=
  l.foldl (fun o v => match o, v.exp2 with
    | none, x => x
    | some a, none => some a
    | some a, some b => some (max a b)) none

/-- One operand's elements truncated under R138. -/
def trunc16 (l : List Val) : List Val :=
  match maxExp l with
  | none => l
  | some e => l.map (truncAt (e - 23))

/-- Chunk value of a float-mode chunk (R137, R139): products of 8-bit, MX or KF4 operands. -/
def chunkF (l : List (Val × Val)) : Nat := r32 false (chunkSum l)

/-- Chunk value of a BF16 or FP16 chunk (R138, R139): special cases on the elements as they stand before truncation. -/
def chunk16 (l : List (Val × Val)) : Nat :=
  match chunkSum l with
  | .nan => nan32
  | .inf n => fFP32.infC n
  | _ => chunkF ((trunc16 (l.map (·.1))).zip (trunc16 (l.map (·.2))))

/-- Chunk value of an integer chunk: exact (R142). -/
def chunkI (l : List (Int × Int)) : Int := l.foldl (fun s p => s + p.1 * p.2) 0

/-- One level of a left-complete tree: neighbours summed, a lone last one passed up (R140). -/
def treeLevel (f : Nat → Nat → Nat) : List Nat → List Nat
  | a :: b :: t => f a b :: treeLevel f t
  | l => l

/-- The left-complete tree of R140 over values in chunk order; `fuel` levels. -/
def treeFold (f : Nat → Nat → Nat) : Nat → List Nat → Nat
  | _, [] => 0
  | _, [a] => a
  | 0, a :: _ => a
  | k + 1, l => treeFold f k (treeLevel f l)

/-- FP32 sum under RNE with canonical NaN (R140). -/
def rneAdd (a b : Nat) : Nat := add32 false a b

/-- An integer that saturates at 48 bits, and whether it did (R142). -/
def sat48 (i : Int) : Int × Bool :=
  if i < -(2 ^ 47) then (-(2 ^ 47), true) else if 2 ^ 47 - 1 < i then (2 ^ 47 - 1, true) else (i, false)

/-- An integer saturated to INT32, and whether it was (R142). -/
def sat32 (i : Int) : Int × Bool :=
  if i < -(2 ^ 31) then (-(2 ^ 31), true) else if 2 ^ 31 - 1 < i then (2 ^ 31 - 1, true) else (i, false)

/-! ### Philox4x32-10 (R145) -/

/-- One round on (c0, c1, c2, c3) with key (k0, k1). -/
def philoxRound (c : Nat × Nat × Nat × Nat) (k0 k1 : Nat) : Nat × Nat × Nat × Nat :=
  let p0 := 0xD2511F53 * c.1
  let p1 := 0xCD9E8D57 * c.2.2.1
  ((p1 >>> 32) ^^^ c.2.1 ^^^ k0, p1 % 2 ^ 32, (p0 >>> 32) ^^^ c.2.2.2 ^^^ k1, p0 % 2 ^ 32)

/-- `n` rounds with the key bumped between them. -/
def philoxRounds : Nat → Nat × Nat × Nat × Nat → Nat → Nat → Nat × Nat × Nat × Nat
  | 0, c, _, _ => c
  | n + 1, c, k0, k1 => philoxRounds n (philoxRound c k0 k1) ((k0 + 0x9E3779B9) % 2 ^ 32) ((k1 + 0xBB67AE85) % 2 ^ 32)

/-- Output words of Philox4x32-10. -/
def philox (c0 c1 c2 c3 k0 k1 : Nat) : Nat × Nat × Nat × Nat := philoxRounds 10 (c0, c1, c2, c3) k0 k1

/-- The words for element index `e`, tensor `t`, low step bits `um`, batch `bn`, purpose `pu` under the task seed (R145, R146). -/
def philoxAt (seed e t um bn pu : Nat) : Nat × Nat × Nat × Nat :=
  let e := e % 2 ^ 40
  philox (e % 2 ^ 32) (e >>> 32 + (t % 2 ^ 24) * 256) (um % 2 ^ 11 + (bn % 2 ^ 21) * 2 ^ 11) pu (seed % 2 ^ 32) ((seed >>> 32) % 2 ^ 32)

/-! ### KF4 encoding (R135) -/

/-- What step 1 finds in one 32-element chunk: the outlier position. -/
def kf4Outlier (l : List Val) : Option Nat :=
  let gt := fun (a b : Val) => match a, b with
    | .fin _ m e, .fin _ mj ej => magLt mj ej m e
    | _, _ => false
  let best := (List.range l.length).foldl (fun (o : Option Nat) i =>
    let v := l.getD i .nan
    if !v.isFin then o
    else match o with
      | none => some i
      | some j => if gt v (l.getD j .nan) then some i else some j) none
  match best with
  | none => none
  | some p =>
    let others := (List.range l.length).foldl (fun a i => if i = p then a else maxMag a (l.getD i .nan)) (.fin false 0 0)
    match l.getD p .nan, others with
    | .fin _ m e, .fin _ mo eo => if magLt mo (eo + 2) m e then some p else none
    | _, _ => none

/-- The outlier entry of position p, if step 5 makes one: the BF16 code, and a saturation. -/
def kf4OutVal (tsE : Int) (v : Val) : Option (Nat × Bool) :=
  match v.scale (-tsE) with
  | .fin n m e =>
    let c := (encF fBF16 false (.fin n m e)).code
    match decF fBF16 c with
    | .fin _ mc ec =>
      if 16 ≤ (mc.log2 : Int) + ec then some (b2n n * 0x8000 + 0x477F, true)
      else if mc = 0 ∨ (mc.log2 : Int) + ec < -8 then none else some (c, false)
    | _ => some (b2n n * 0x8000 + 0x477F, true)
  | _ => none

/-- Element of a KF4 column: code, saturation, NaN replaced (R135 steps 4 and 6). -/
def kf4Elem (rtz : Bool) (tsE : Int) (s : Nat) (v : Val) : Cvt :=
  match v with
  | .nan => ⟨0, false, true⟩
  | .inf n => ⟨b2n n * 8 + 7, true, false⟩
  | v => if s = 0 then ⟨0, false, false⟩
    else
      let c := encNarrow fE2M1 rtz false (divV v ((decUE5M3 s).scale tsE))
      ⟨c.code, c.sat, false⟩

/-- Block scales of a column (R135 step 3). -/
def kf4Scales (tsE : Int) (col : List Val) (outs : List (Option Nat)) : List Nat :=
  (List.range 16).map fun b =>
    match amaxOf ((List.range 16).map fun i =>
      if outs.getD ((16 * b + i) / 32) none = some ((16 * b + i) % 32) then .nan else col.getD (16 * b + i) .nan) with
    | .fin _ m e => if m = 0 then 0 else
        (match divV (.fin false m e) (.fin false 6 tsE) with
        | .fin _ mq eq => ceilUE5M3 mq eq
        | _ => 0xFE)
    | _ => 0

/-- Outlier records of a column, and the saturations they count (R128, R135 step 5). -/
def kf4Recs (tsE : Int) (col : List Val) (outs : List (Option Nat)) : List Nat × Nat :=
  let ov := (List.range 8).map fun c => match outs.getD c none with
    | none => none
    | some p => (kf4OutVal tsE (col.getD (32 * c + p) .nan)).map fun v => (p + 32 * (c % 2), v)
  let recs := (List.range 4).map fun g =>
    match ov.getD (2 * g) none, ov.getD (2 * g + 1) none with
    | some (p, v, _), some (q, w, _) => v + w * 2 ^ 16 + p * 2 ^ 32 + q * 2 ^ 38 + 2 * 2 ^ 44
    | some (p, v, _), none => v + p * 2 ^ 32 + 2 ^ 44
    | none, some (q, w, _) => w + q * 2 ^ 32 + 2 ^ 44
    | none, none => 0
  (recs, (ov.filter fun o => match o with | some (_, _, b) => b | none => false).length)

/-- What the first reading of a KF4 tile fixes (R135 steps 1 to 3): outlier positions by column and chunk, tile scale exponent, block
scales by column. -/
structure Kf4Fix where
  outs : List (List (Option Nat))
  tsE : Int
  scales : List (List Nat)
  deriving DecidableEq, Repr

/-- The first reading, by columns of 256 values. -/
def kf4Fix (cols : List (List Val)) : Kf4Fix :=
  let outs := cols.map fun col => (List.range 8).map fun c => kf4Outlier (slice (32 * c) 32 col)
  let aT := (cols.zip outs).foldl (fun a co => (List.range 256).foldl (fun a k =>
    if co.2.getD (k / 32) none = some (k % 32) then a else maxMag a (co.1.getD k .nan)) a) (.fin false 0 0)
  let tsE : Int := match aT.exp2 with
    | none => 0
    | some x => max (x - 17) (-149)
  { outs := outs, tsE := tsE, scales := (cols.zip outs).map fun co => kf4Scales tsE co.1 co.2 }

end Sys2Proof.Machine
end

