-- ==== Sys2Proof/Machine/State.lean ====
section
/-! DEFINITION. The whole state of one SK4 module, as plain data, and the module right after reset. Lists are oldest first.
"lc" in a field is a value of `Clk.now`, the count of lc since power-on, unless it says "of the tick". A field's docstring gives
its content, its rule, and its reset value where that is not the empty, zero or false default that the spec's reset gives it. -/
namespace Sys2Proof.Machine

/-! ### Outcomes -/

/-- Reasons a command stops the machine. No rule of the spec stops the block, so no meaning answers with a fault; the type is closed. -/
inductive Fault where
  /-- Raised by nothing: kept because the interface wants the type. Safe. -/
  | none
  deriving DecidableEq, Repr

/-- Reasons a command has no meaning. -/
inductive Refusal where
  /-- The command's arm has no meaning yet. Raised by Dispatch only. Safe: the machine stops. -/
  | notModelled (mnemonic : String)
  /-- The command names a core, dale, die, port, ... that the module does not have (WellFormed). Raised by every meaning. Safe: no
  such command exists. -/
  | noSuch (what : String)
  deriving DecidableEq, Repr

/-! ### What leaves the module -/

/-- Something that leaves the module, in order. The model's own record, so that statements can name it. -/
inductive Out where
  /-- A cell on a fabric port. -/
  | cell (n : Nat) (c : FCell)
  /-- A tick symbol on a fabric port, with its tick number and the delay to its slot (R17, R282). -/
  | tickSym (n tick delay : Nat)
  /-- A rising edge on TICK_OUT (R17). -/
  | tickOut
  /-- An MSI-X message (R323, R443). -/
  | msix (port : Port) (vec : Nat)
  /-- Bytes written to host memory at a bus address. -/
  | hostWrite (port : Port) (addr : Nat) (bytes : List Byte)
  /-- A read request to host memory: bus address, bytes, core and tag (R248). -/
  | hostRead (port : Port) (addr len core tag : Nat)
  /-- An LTR message with a latency in ns (R339). -/
  | ltr (port : Port) (ns : Nat)
  /-- A loader answer: 0 accepted, else a refusal code (R96, R360). -/
  | loader (code : Nat)
  /-- A condition reported to host software (R36, R62, R388). -/
  | report (what : Nat)
  /-- A reply record on a port's service mailbox (R60). -/
  | mailbox (port : Port) (bytes : List Byte)
  /-- An Unsupported Request error logged under AER (R315). -/
  | aer (port : Port)
  deriving DecidableEq, Repr

/-! ### Core -/

/-- A signal that has been started and not yet fired (R82). -/
structure Sig where
  due : Nat
  obj : Nat
  amt : Nat
  deriving DecidableEq, Repr

/-- One row access that waits for a deposit slot (R202). -/
structure Dep where
  /-- Order of R202: 1 trusted, 2 ford read, 3 elastic. -/
  cls : Nat
  bank : Nat
  row : Nat
  /-- First byte of the row and the bytes written; of a ford read the bytes that its other part has read. -/
  off : Nat := 0
  bytes : List Byte := []
  /-- A ford read: bytes read here, and part: 0 a whole answer, 1 and 2 the parts of one that lies in two rows (R199, R206). -/
  len : Nat := 128
  part : Nat := 0
  /-- Handle and logical row, for slot sequencing (R221); 64 for none. -/
  hnd : Nat := 64
  lrow : Nat := 0
  /-- Memory tag freed by this row, fabric tag freed by it, credits returned on an endpoint for the
  row group whose third cell has this FSEQ (R247, R295, R269). -/
  mtag : Option Nat := none
  ftag : Option Nat := none
  credEp : Option (Nat × Nat) := none
  /-- A ford read's answer: endpoint, tag, row of the request (R294). -/
  resp : Option (Nat × Nat × Nat) := none
  /-- Module, core and endpoint of the sender whom the credits or the answer reach (R269). -/
  src : Nat × Nat × Nat := (0, 0, 0)
  deriving DecidableEq, Repr

/-- A pending accumulator entry: an FP32 subtree value over chunks [c, c + 2^lvl) (R162). -/
structure AccEnt where
  v : Nat
  c : Nat
  lvl : Nat
  deriving DecidableEq, Repr

/-- One accumulator element: float entries from the bottom up, or the 48-bit sum of integer mode (R162, R163). -/
structure AccElem where
  ents : List AccEnt := []
  bad : Bool := false
  sum : Int := 0
  stuck : Bool := false
  deriving DecidableEq, Repr

/-- An accumulator row: the mode of the pushes it holds and 128 elements (R164). -/
structure AccRow where
  mode : Option Bool := none
  elems : List AccElem := List.replicate 128 {}
  deriving DecidableEq, Repr

/-- A write that a step makes in its own lc. -/
inductive VWr where
  /-- Bytes of a tile through a write port: 0 post unit, 1 load path, 2 ALU (R172). -/
  | tile (port tile : Nat) (off : Int) (bytes : List Byte)
  /-- The 4-byte lanes of an ALU write whose bit is 1 (R186). -/
  | lanes (tile : Nat) (off : Int) (bits : Nat) (bytes : List Byte)
  /-- The 4-bit elements of slot h of a KF4 weight row (R150, R183). -/
  | half (tile : Nat) (off : Int) (h : Nat) (codes : List Nat)
  /-- A mask row with its count field, or the count field alone (R173). -/
  | mask (m v cnt : Nat)
  | cnt (m n : Nat)
  /-- Bytes into the queue of a vector port (R174). -/
  | port (q : Nat) (bytes : List Byte)
  /-- An execute-side write of the basin, by rank: 2 x UNIT, + 1 for a store path (R203). -/
  | basin (rank hnd : Nat) (off : Int) (bytes : List Byte)
  /-- A scheduled deposit (R202, R231). -/
  | dep (hnd : Nat) (off : Int) (bytes : List Byte)
  deriving DecidableEq, Repr

/-- A write of an lc to come, with the error events of its command (R172). -/
structure LateWr where
  lc : Nat
  w : VWr
  ev : List HwEvent := []
  deriving DecidableEq, Repr

/-- A program slot of the vector engine: kind and words; absent when invalid (R175). -/
structure VSlot where
  param : Bool
  words : List W256
  deriving DecidableEq, Repr

/-- What an instruction gathers between its steps: bytes read, rows of a scale and bias block, an accumulator row that waits for the
block (R164), rows of values (R182, R183), what a KF4 encoding has fixed, trits (R184), the program slot found at the start (R113), issue
index of a V instruction (R383). -/
structure Gath where
  bytes : List Byte := []
  rows : SMap (List Byte) := []
  held : Option AccRow := none
  vals : List (List Val) := []
  second : List (List Val) := []
  fix : Option Kf4Fix := none
  trits : List Int := []
  slot : Option VSlot := none
  idx : Nat := 0
  deriving DecidableEq, Repr

/-- An instruction of a unit whose steps are being made, each in its own lc (R99). -/
structure Work where
  ins : Ins
  ev : List HwEvent := []
  /-- The core participates (R57). -/
  part : Bool := true
  /-- Thread that issued it; 8 for none (R254). -/
  thr : Nat := 8
  /-- Start lc, next step, the lc at which it acts, lc between steps. -/
  s0 : Nat
  k : Nat := 0
  due : Nat
  t : Nat := 1
  /-- Lc and beat of the steps that a planned instruction still makes (R233). -/
  beats : List (Nat × Option Beat) := []
  /-- It makes no step from this one on: a request that is made again alone (R254). -/
  stop : Option Nat := none
  acc : Gath := {}
  deriving DecidableEq, Repr

/-- What the units of a core still have to do (R48). -/
structure Jobs where
  work : List Work := []
  late : List LateWr := []
  /-- Thread of each queued instruction, by unit (R254). -/
  qth : SMap (List Nat) := []
  /-- An access of the step at hand found its bank taken, and its thread waits (R204). -/
  wait : Bool := false
  /-- A thread's step at hand met a fault that halts its stream: fault code and address (R254). -/
  halt : Option (Nat × W64) := none
  deriving DecidableEq, Repr

/-- A stream context (R242, R255). -/
structure Ctx where
  /-- 0 closed, 1 armed, 2 running, 3 halted. -/
  state : Nat := 0
  fault : Nat := 0
  decl : Nat := 0
  idx : List Nat := []
  /-- Memory base, 48 bits, 32-byte units. -/
  baseA : Int := 0
  /-- Basin base, 32 bits, bytes. -/
  baseB : Int := 0
  faddr : W64 := 0
  /-- Thread of the last instruction on it, 8 for none, and its state before it halted (R254). -/
  thr : Nat := 8
  prev : Nat := 0
  deriving DecidableEq, Repr

/-- An overflow read on its way (R248): its tag, port, the spans of host bus addresses it reads, its rows and their destination. -/
structure OvReq where
  tag : Nat
  port : Port
  spans : List (Nat × Nat)
  rows : Nat
  hnd : Nat
  off : Nat
  /-- Lc at which it was entered; it has gone to the host (R248, R251), and the host DMA tags it holds. -/
  lc : Nat := 0
  sent : Bool := false
  dma : Nat := 0
  /-- Rows that have gone to the deposit buffer, and rows that have come before their turn. -/
  done : Nat := 0
  came : SMap (List Byte) := []
  /-- The step that entered it, where a thread's stream halts with it (R254). -/
  work : Option Work := none
  deriving DecidableEq, Repr

/-- A fabric tag in use (R295): rows still to come, destination of the rows, endpoint, write flow sequence of the third cell. -/
structure FTag where
  rows : Nat
  hnd : Nat := 64
  off : Nat := 0
  ep : Nat := 0
  fseq : Option Nat := none
  deriving DecidableEq, Repr

/-- The cells of a row group received so far (R294). -/
structure Group where
  ep : Nat
  bytes : List Byte
  resp : Bool
  deriving DecidableEq, Repr

/-- A remote access that waits for its ford (R214): endpoint, last cell, row bytes, sender. -/
structure Remote where
  ep : Nat
  cell : FCell
  data : List Byte := []
  src : Nat × Nat × Nat := (0, 0, 0)
  deriving DecidableEq, Repr

/-- The fetch engine of a core (R242 to R248, R295). -/
structure Fe where
  /-- 16 stream contexts, by number. -/
  ctx : SMap Ctx := []
  /-- Memory tags held (R247): tag, rows still to be deposited. -/
  mtags : SMap Nat := []
  /-- Fabric tags held. -/
  ftags : SMap FTag := []
  /-- Overflow reads sent to the host, oldest first. -/
  ov : List OvReq := []
  /-- Row groups being received. -/
  groups : List Group := []
  /-- Remote accesses waiting for the ford check (R214). -/
  remote : List Remote := []
  deriving DecidableEq, Repr

/-- The basin of a core (R199 to R225). -/
structure Bsn where
  /-- Bytes by (bank x 1,040 + row) x 128 + byte; rows 1,024 to 1,039 are the spare rows. -/
  mem : List Host.Cell := []
  /-- Mapped-out rows (bank x 1,024 + row) to spare rows (R218 to R220). -/
  spare : SMap Nat := []
  /-- Repairs that take effect at the watershed (R219). -/
  spareNext : SMap Nat := []
  /-- Suspect rows: ticks in which each gave a correctable error, and whether this tick is one; 8 per bank at most (R218). -/
  suspect : SMap (Nat × Bool) := []
  /-- Rows marked for field repair: true for an error that could not be corrected, false for correctable ones (R218, R219). -/
  marked : SMap Bool := []
  /-- Handle tables: entry bank x 64 + i (R205), and their complements. -/
  hnd : SMap W64 := []
  hndC : SMap W64 := []
  /-- Active handle table bank (R210). -/
  hsel : Nat := 0
  /-- Handle bank switch named for a tick (R210). -/
  hswitch : Option Nat := none
  /-- Fords D0 to D15 (R212). -/
  ford : SMap (BitVec 128) := []
  /-- Fill and drain counters, by handle x 16,384 + slot (R221). -/
  fill : SMap Nat := []
  drain : SMap Nat := []
  /-- Drain position of the sink on each handle (R246). -/
  sink : SMap Nat := []
  /-- Written bits of plain handle rows, as bank x 1,024 + row (R224). -/
  written : List Nat := []
  /-- Deposit buffer, 64 rows, and the rows that wait upstream for room in it (R202). -/
  dep : List Dep := []
  up : List Dep := []
  /-- Trusted accesses that wait for a deposit slot (R216). -/
  trust : List Dep := []
  /-- Fords open at the end of the last lc (R213). -/
  fords : List Nat := []
  /-- Banks whose access of this lc is taken (R199). -/
  blog : List Nat := []
  deriving DecidableEq, Repr

/-- A weight tile with its side data (R150 to R154). -/
structure Wt where
  /-- Weight format; none: no loaded tile (R152). -/
  fmt : Option Nat := none
  /-- Weight rows 0 to 127 as numbers. -/
  rows : SMap Nat := []
  /-- Scale bytes of an MX tile, by place in the stream (R153). -/
  scales : SMap Nat := []
  /-- Side-data rows of a KF4 tile (R154). -/
  side : SMap Nat := []
  deriving DecidableEq, Repr

/-- A row of chunk results: arrival lc, mode, and for each output row it carries its number, its part and per column the chunk
values (FP32 codes, or whole numbers in integer mode) (R151, R155, R161). -/
structure RRow where
  due : Nat
  int : Bool
  outs : List (Nat × Nat × List (List Int))
  deriving DecidableEq, Repr

/-- The matrix side of a core (R149 to R160). -/
structure Mx where
  act : Wt := {}
  shd : Wt := {}
  /-- Loads on their way into the shadow: lc, kind (0 weight row, 1 scale byte, 2 side-data row), place, value (R109). -/
  load : List (Nat × Nat × Nat × Nat) := []
  /-- Result rows on their way to the post unit. -/
  fly : List RRow := []
  /-- Run-path release lc E of the last run (R110), none when the array is cold. -/
  lastE : Option Nat := none
  /-- Lc at which the ramp-up began, none when the array is cold (R156). -/
  up : Option Nat := none
  /-- Lc at which a ramp-down began at a hold or by command (R104, R156). -/
  down : Option Nat := none
  /-- The next run is the first of its segment (R110): reset true. -/
  fresh : Bool := true
  deriving DecidableEq, Repr

/-- Census counters of a core (R167, R168). -/
structure Census where
  zero : Nat := 0
  subn : Nat := 0
  sat : Nat := 0
  nan : Nat := 0
  inf : Nat := 0
  elems : Nat := 0
  amax : Nat := 0
  int : Bool := false
  ovf : Bool := false
  deriving DecidableEq, Repr

/-- A `PUACC` that still takes rows: its instruction and the steps made (R99 paced, R111). -/
structure PuRun where
  ins : Ins
  done : Nat := 0
  deriving DecidableEq, Repr

/-- The post unit of a core (R161 to R168). -/
structure Pu where
  /-- Input FIFO, 64 rows (R112). -/
  fifo : List RRow := []
  /-- Accumulator rows 0 to 63, absent when empty (R162). -/
  acc : SMap AccRow := []
  cen : Census := {}
  /-- Events of outputs and results whose lc is not past (R167, R180). -/
  cenDue : List (Nat × Census) := []
  /-- Number of `PUCENSUS` in the tick (R168). -/
  seq : Nat := 0
  run : Option PuRun := none
  deriving DecidableEq, Repr

/-- A cell in an operand port queue: bytes left, its endpoint, FSEQ and sender; none for bytes that `VXLD` put there (R174, R269). -/
structure PCell where
  left : Nat
  ep : Nat := 0
  fseq : Nat := 0
  src : Option (Nat × Nat × Nat) := none
  deriving DecidableEq, Repr

/-- An operand port queue: payload bytes in arrival order, and the cells they came in (R174, R269). -/
structure PortQ where
  bytes : List Byte := []
  cells : List PCell := []
  deriving DecidableEq, Repr

/-- The vector engine of a core (R171 to R197). -/
structure Vx where
  /-- Tile bytes by tile x 65,536 + byte (R171). -/
  tile : List Host.Cell := []
  /-- Mask rows of 128 bits and their count fields (R173). -/
  mask : SMap Nat := []
  mcnt : SMap Nat := []
  slot : SMap VSlot := []
  /-- Slot loads that have not reached DONE: lc, slot, content (R113). -/
  slotDue : List (Nat × Nat × Option VSlot) := []
  /-- Length of the program that a participating core has in each slot, absent when invalid, and the lengths of loads under way (R57,
  R113). -/
  len : SMap Nat := []
  lenDue : List (Nat × Nat × Option Nat) := []
  /-- Band ledger (R188). -/
  band : Nat := 0
  /-- Port queues: 0 vector A, 1 vector B, 2 matrix side, 3 fetch engine (R267). -/
  port : SMap PortQ := []
  deriving DecidableEq, Repr

/-- An open request (R265): source module, physical core, endpoint, logical core, LAND, CLASSES, WINDOW, epoch. -/
structure OpenReq where
  mod : Nat
  core : Nat
  ep : Nat
  lcore : Nat
  land : Nat
  classes : Nat
  window : Nat
  epoch : Nat
  deriving DecidableEq, Repr

/-- A channel endpoint (R263 to R271, R296, R305). -/
structure Ep where
  /-- R264: 0 CLOSED to 6 EPOCH_MISS. -/
  st : Nat := 0
  reason : Nat := 0
  decl : Nat := 0
  credits : Nat := 0
  pepoch : Nat := 0
  peerMod : Nat := 0
  peerCore : Nat := 0
  peerEp : Nat := 0
  /-- The endpoint has been bound in this tick: the peer fields name its last peer. -/
  bnd : Bool := false
  /-- The source that an earlier binding of the tick had (R273). -/
  was : Option (Nat × Nat × Nat) := none
  /-- Completion object of the `CHOPEN`. -/
  compl : Nat := 63
  parked : Option OpenReq := none
  /-- Flow sequences sent and expected, of the channel and of its FRESP flow (R296). -/
  fseq : Nat := 0
  rseq : Nat := 0
  /-- Multicast: members that have not answered the open, and per sent cell the members that have not returned its credit (R305). -/
  await : List Nat := []
  mcred : List (Nat × List Nat) := []
  deriving DecidableEq, Repr

/-- A cell in a send buffer (R268): its endpoint, whether it needs a credit. -/
structure SCell where
  ep : Nat
  credit : Bool
  cell : FCell
  deriving DecidableEq, Repr

/-- The channel unit of a core (R263 to R279). -/
structure Ch where
  ep : SMap Ep := []
  /-- Role epoch, 4 bits (R274). -/
  epoch : Nat := 0
  /-- Send buffer, 64 cells. -/
  sbuf : List SCell := []
  /-- Releases seen of each barrier, whose parity is the core's phase bit, and whether an arrival waits for its release (R277). -/
  phase : SMap Nat := []
  arrived : SMap Nat := []
  /-- Releases of this lc, seen from the next on (R89). -/
  flips : List Nat := []
  /-- Arrivals combined at this core's place in a barrier's tree: cells and participants, by 2 x barrier + phase (R277). -/
  tree : SMap (Nat × Nat) := []
  /-- Releases that a BARRIER hold has already used, by barrier (R103). -/
  used : SMap Nat := []
  /-- Cells the router stop has handed over, oldest first, with the endpoint each goes to. -/
  inbox : List (Nat × FCell) := []
  /-- Lc at which a `CHROLE` reaches its DONE stage (R274). -/
  roleAt : List Nat := []
  deriving DecidableEq, Repr

/-- A block repeat in progress: first word, end word, repetitions left (R102). -/
structure Rep where
  start : Nat
  stop : Nat
  left : Nat
  deriving DecidableEq, Repr

/-- A hardware thread (R63, R119). -/
structure Thread where
  live : Bool := false
  pc : Nat := 0
  regs : List W64 := List.replicate 32 0
  /-- Lc from which each register is readable. -/
  ready : List Nat := List.replicate 32 0
  /-- Amounts THBASE adds to the next instruction's operand offsets. -/
  base : List W64 := [0, 0, 0]
  /-- The thread waits for a result or a halted stream until this lc; none: not at all. -/
  stall : Option Nat := none
  /-- Blocks that the thread repeats, innermost first (R64, R102). -/
  reps : List Rep := []
  deriving DecidableEq, Repr

/-- Threaded mode of a core (R63 to R66). -/
structure Thr where
  thr : List Thread := List.replicate 8 {}
  /-- Thread that issued last. -/
  last : Nat := 7
  /-- Threaded control instruction issued and not yet executed. -/
  issued : Option (Nat × Ins) := none
  /-- Local instruction store, 2,048 words. -/
  store : SMap W256 := []
  /-- A store has been loaded. -/
  loaded : Bool := false
  deriving DecidableEq, Repr

/-- The 16 programmable counters of a core (R433 to R436). -/
structure Pcnt where
  /-- Selections in force. -/
  sel : SMap Nat := []
  val : SMap Nat := []
  /-- Final values of the command that ended last, and their CSEQ. -/
  fin : SMap Nat := []
  finSeq : Nat := 0
  cseq : Nat := 0
  /-- Lc at which the command in force began. -/
  start : Nat := 0
  /-- Values visible to the host since the last watershed (R436), and the latched HI word. -/
  pub : SMap Nat := []
  pubSeq : Nat := 0
  hi : Nat := 0
  /-- A command ended in this slot. -/
  ended : Bool := false
  /-- Events whose lc is not over: lc, event code, amount (R433, R435). -/
  due : List (Nat × Nat × Nat) := []
  deriving DecidableEq, Repr

/-- A V-log entry (R118, R383): opcode, issue index, data. -/
structure VEnt where
  op : Nat
  idx : Nat
  data : List Byte
  deriving DecidableEq, Repr

/-- One core (R43 to R70). -/
structure Core where
  mode : CoreMode := .halt
  /-- A mode change waiting for a boundary (R67). -/
  modeNext : Option CoreMode := none
  fenced : Bool := false
  /-- The core has left broadcast since the load that gave it its index (R67). -/
  stale : Bool := false
  /-- Core constants (R53): logical index 0xFF when fenced or not loaded. -/
  lidx : Nat := 0xFF
  k : Nat := 0
  task : Nat := 0
  modIdx : Nat := 0
  /-- Unit queues FE, MX, PU, VX, CH, 32 instructions each (R50). -/
  q : SMap (List Ins) := []
  /-- Lc from which each resource is free (R100). -/
  busy : SMap Nat := []
  /-- Lc + 1 of each unit's last start (R50). -/
  started : SMap Nat := []
  /-- Lc + 1 of the last broadcast entry into each queue (R48). -/
  came : SMap Nat := []
  sigs : List Sig := []
  job : Jobs := {}
  /-- Flags F0 to F47 (16 bits) and counters C0 to C7 (32 bits) as waits see them (R258, R259). -/
  obj : SMap Nat := []
  /-- Additions and non-wait subtractions of the current lc (R259, R261). -/
  adds : List (Nat × Nat) := []
  takes : List (Nat × Nat) := []
  /-- Values of the last watershed that the host reads (R280). -/
  pubObj : SMap Nat := []
  pubEp : SMap Ep := []
  pubEpoch : Nat := 0
  pubFord : List Nat := []
  /-- Wall time by which a core reset completes that waits for outstanding tags (R69). -/
  rst : Option Nat := none
  fe : Fe := {}
  bsn : Bsn := {}
  mx : Mx := {}
  pu : Pu := {}
  vx : Vx := {}
  ch : Ch := {}
  th : Thr := {}
  pc : Pcnt := {}
  /-- V-log of the tick, and the entries that answer a replay (R118, R385). -/
  vlog : List VEnt := []
  vold : List VEnt := []
  /-- Instructions this core has started in the tick. -/
  issue : Nat := 0
  deriving DecidableEq, Repr

/-! ### Dales, time, clocks -/

/-- A broadcast group on its way: issue lc and instructions (R48). -/
structure Flight where
  lc : Nat
  ins : List Ins
  deriving DecidableEq, Repr

/-- A dale sequencer (R44 to R49, R71). -/
structure Dale where
  /-- Instruction memory, 32,768 words. -/
  imem : SMap W256 := []
  stream : Bool := false
  /-- Words of the stream, words already refilled into a ring, words issued past (R45). -/
  words : Nat := 0
  filled : Nat := 0
  /-- DALE_STAT.STATE: 0 idle, 1 issuing, 2 holding, 3 body ended. -/
  st : Nat := 0
  /-- Issue stopped for the rest of the run: 0 no, 1 by an underrun (R45), 2 by an uncorrectable word (R46). -/
  stopped : Nat := 0
  /-- Word index of the next issue. -/
  pc : Nat := 0
  /-- Lc from which the next issue may take place. -/
  next : Nat := 0
  /-- Words issued in the current lc, and that lc (R47). -/
  cnt : Nat := 0
  cntLc : Nat := 0
  reps : List Rep := []
  flight : List Flight := []
  /-- Hold in progress: identifier and lc at which it was reached (R88). -/
  hold : Option (Nat × Nat) := none
  /-- Lc spent at holds in this tick (R49). -/
  holdLc : Nat := 0
  /-- Lc of the tick at which the current segment began. -/
  seg : Nat := 0
  /-- Segment number in the tick. -/
  segNo : Nat := 0
  /-- Samples taken since ENABLE was set (R427). -/
  samples : Nat := 0
  /-- Wall time after the lc sampled last (R426: one sample an lc). -/
  sampledAt : Nat := 0
  deriving DecidableEq, Repr

/-- A hold whose release lc is fixed (R89). -/
structure HoldRt where
  id : Nat
  rel : Nat
  deriving DecidableEq, Repr

/-- A clock region (R26, R29, R31). Every region counts its own lc; it begins each at its own time. -/
structure Region where
  /-- Reports of its 16 sentinels that are below 7. -/
  sent : SMap Nat := []
  /-- Quarter nominal periods by which its last 12 lc, newest first, began later than one nominal period each would have it, from region
  30's start of the tick on; none where all are 0. -/
  late : List Int := []
  /-- Quarter periods for which it has been gated in the period at hand (R29). -/
  gate : Nat := 0
  /-- Quarter nominal periods lost in the current body (R30). -/
  loss : Nat := 0
  /-- Wall times since which a margin has held, newest first; 7 before (R32). -/
  hist : List (Nat × Nat) := []
  /-- The average margin is below 3.5; a warning of it awaits the controller. -/
  low : Bool := false
  warned : Bool := false
  deriving DecidableEq, Repr

/-- A col's current lead, largest lead and holds in this tick (R30). -/
structure ColSt where
  lead : Int := 0
  maxLead : Nat := 0
  holds : Nat := 0
  deriving DecidableEq, Repr

/-- Ticks and clocks (R15 to R42). -/
structure Clk where
  /-- Lc since power-on or module reset; the unit of every lc the state holds. -/
  now : Nat := 0
  /-- TCK_LC and TCK_NP, the latter in quarters of a nominal period. -/
  lc : Nat := 0
  npq : Nat := 0
  /-- Wall time since power-on or module reset in units of 1/24,024,000 microsecond. -/
  wall : Nat := 0
  run : Bool := false
  /-- START taken, waits for a source edge (R23). -/
  starting : Bool := false
  srcSec : Bool := false
  holdover : Bool := false
  tickLost : Bool := false
  overrun : Bool := false
  /-- Stop ticking at the next boundary (R18, R20, R62). -/
  stopNext : Bool := false
  /-- Tick number of the current slot, 48 bits (R20). -/
  num : Nat := 0
  /-- TCK_NUM_START in effect, taken by the first boundary after START. -/
  numStart : Nat := 0
  /-- Named boundary lc, when an edge has been taken (R27). -/
  named : Option Nat := none
  namedSec : Bool := false
  namedTimer : Bool := false
  /-- The boundary lc that the secondary source's edge of this window names (R18). -/
  secEdge : Option Nat := none
  /-- Nominal periods by which the last boundary, of the module's own timer, came after the predicted one (R18). -/
  slip : Int := 0
  /-- Consecutive boundaries in holdover and the wall time holdover began. -/
  hoCnt : Nat := 0
  hoWall : Nat := 0
  /-- Current FOP; requested FOP with its tick; lock state of the idle loops (R34). -/
  fop : Nat := 0
  fopPend : Option (Nat × Nat) := none
  /-- The pending change is a terrace's own, not a request (R399). -/
  fopCtl : Bool := false
  /-- The change fell due inside an overrunning tick (R35). -/
  fopLate : Bool := false
  /-- Service FOP held while the module is in T1 (R399). -/
  svcFop : Option Nat := none
  pll : List Bool := [false, false]
  /-- Core rails of the two dies in mV (R33): reset 850, the FOP0 default; the controller's trim of each. -/
  rail : List Nat := [850, 850]
  trim : List Int := [0, 0]
  /-- Tick numbers of overruns within the last 1,024 ticks; ticks since an overrun or a warning (R36). -/
  overruns : List Nat := []
  quiet : Nat := 0
  regions : SMap Region := []
  cols : SMap ColSt := []
  /-- The last finished tick's values that TCK_DEBTn and TCK_LOSS show. -/
  colsPub : SMap ColSt := []
  lossPub : Nat := 0
  /-- Lc at which the body ended, and whether the commit zone has opened (R24). -/
  bodyEnd : Option Nat := none
  zone : Bool := false
  deriving DecidableEq, Repr

/-! ### Loaded image -/

/-- A region declaration and its place (R236, R238): base byte address in its die's HBM; `half` bytes to half B of a flip region. -/
structure RegionD where
  kind : Nat
  die : Nat
  stk : Nat
  port : Port
  /-- Size in bytes of the region, or of one half. -/
  size : Nat
  wbase : Nat
  base : Nat := 0
  baseB : Nat := 0
  deriving DecidableEq, Repr

/-- A stream declaration (R243). -/
structure StreamD where
  kind : Nat
  plan : Nat
  ring : Nat
  ringm1 : Nat
  cred : Nat
  dale : Nat
  deriving DecidableEq, Repr

/-- A channel declaration (R263). -/
structure ChanD where
  role : Nat
  land : Nat
  classes : Nat
  window : Nat
  ford : Nat
  pmod : Nat
  mrel : Bool
  mcount : Nat
  pbase : Nat
  pmul : Nat
  pmodk : Nat
  pep : Nat
  group : Nat
  deriving DecidableEq, Repr

/-- A barrier declaration (R276). -/
structure BarD where
  bar : Nat
  sense : Bool
  scope : Bool
  dales : Nat
  pclass : Nat
  root : Nat
  flag : Nat
  fanin : Nat
  nmod : Nat
  deriving DecidableEq, Repr

/-- A hold table entry (R103). -/
structure HoldD where
  dales : Nat
  cond : Nat
  param : Nat
  bound : Nat
  deriving DecidableEq, Repr

/-- An egress declaration (R336). -/
structure EgrD where
  lo : Nat
  hi : Nat
  ring : Nat
  port : Port
  alt : Bool
  deriving DecidableEq, Repr

/-- What the loader keeps of an image (R72 to R95), streams already patched for K. -/
structure Loaded where
  digest : List Byte
  kmin : Nat
  kmax : Nat
  fop : Nat
  slot : Nat
  body : Nat
  hold : Nat
  catchup : Option Nat
  streams : List (List W256)
  refill : List Bool
  handles : List W64
  fords : List (BitVec 128)
  regions : List RegionD
  strms : List StreamD
  chans : List ChanD
  bars : List BarD
  holds : List HoldD
  egrs : List EgrD
  egmax : Nat
  beats : List (List Beat)
  lanes : List Nat
  deriving DecidableEq, Repr

/-- The loaded task (R94, R207, R358). -/
structure Task where
  img : Option Loaded := none
  id : Nat := 0
  lastId : Nat := 0
  k : Nat := 0
  modIdx : Nat := 0
  seed : W64 := 0
  /-- Watch table given with the task (R347): entries by slot. -/
  watch : SMap (BitVec 128) := []
  /-- The image as loaded, for a reload (R389). -/
  src : Option Image := none
  /-- The next tick is the first after a load or reload (R390). -/
  restart : Bool := false
  /-- Reproduction mode (R424). -/
  repro : Bool := false
  /-- Next plan beat of each plan stream, by core x 256 + plan stream (R233). -/
  cursor : SMap Nat := []
  deriving DecidableEq, Repr

/-- A staged, armed or bridging phase (R360 to R366). -/
structure Phase where
  /-- PH_STAT.STATE. -/
  st : Nat := 0
  img : Option Loaded := none
  src : Option Image := none
  carry : List W32 := []
  tick : Nat := 0
  cold : Bool := false
  seq : Nat := 0
  /-- Lc the bridge still takes, first bridge slot (R363). -/
  left : Nat := 0
  slot0 : Nat := 0
  deriving DecidableEq, Repr

/-! ### HBM, commit, journal -/

/-- HBM beyond what regions declare (R227 to R241). -/
structure Hbm where
  /-- Bytes of the program area by die x 2^40 + byte. -/
  mem : List Host.Cell := []
  /-- Flip pages by region x 2^21 + page: committed half is B; written in this tick; blank; recorded to flip (R238, R364). -/
  cur : SMap Bool := []
  wr : List Nat := []
  blank : List Nat := []
  flips : List Nat := []
  /-- Fenced pseudo-channels of each stack (R228). -/
  pcf : SMap Nat := []
  trained : Nat := 0
  /-- Lc of each lane's last refresh round, by stack x 32 + lane (R230). -/
  refresh : SMap Nat := []
  /-- Units with an error met in earlier runs of the tick, to find a repeated one (R252), and in the run at hand. -/
  ueSeen : List Nat := []
  ueRun : List Nat := []
  /-- Corrected words the scrubber rewrites (R234). -/
  scrub : List Nat := []
  /-- Next program base byte free on each die. -/
  top : List Nat := [0, 0]
  deriving DecidableEq, Repr

/-- A journal record header (R382), DIE, PKTS and IN_DIG apart. -/
structure JRec where
  outcome : Nat := 0
  run : Nat := 0
  flags : Nat := 0
  slot : Nat := 0
  src : Nat := 0
  batch : Nat := 0
  fop : Nat := 0
  k : Nat := 0
  lag : Nat := 0
  egDig : List Byte := []
  /-- Sections after the complement (R383): type and content. -/
  secs : List (Nat × List Byte) := []
  deriving DecidableEq, Repr

/-- A journal entry of one die: its slot's record and batch part (R381, R331, R332). -/
structure JEnt where
  die : Nat
  slot : Nat
  hdr : JRec := {}
  /-- Packets of the part: stored bytes, and whether external (R309). -/
  pkts : List (List Byte × Bool) := []
  /-- PKTS and IN_DIG of this die's record. -/
  npk : Nat := 0
  inDig : List Byte := []
  /-- FLAGS bits 1 and 2 of the part; the part is fully written. -/
  overrun : Bool := false
  refused : Bool := false
  full : Bool := false
  deriving DecidableEq, Repr

/-- The vote and run state of the module (R372 to R391). -/
structure Cmt where
  /-- SRC bits gathered since the boundary that opened the current run (R372). -/
  src : Nat := 0
  /-- Bits of events after the vote was sent (R373). -/
  srcNext : Nat := 0
  voted : Bool := false
  /-- Program faults reported and awaiting the commit zone, code and core, in order (R394). -/
  faults : List (Nat × Nat) := []
  /-- Votes of children of this slot; the combined vote once sent. -/
  votes : List Vote := []
  own : Option Vote := none
  /-- Verdict held for this slot, the last one, and the one resent for the slot in doubt (R375, R379). -/
  verdict : Option Vote := none
  last : Option Vote := none
  doubtV : Option Vote := none
  /-- Children missing in the slot before, and in this one (R375 row 2). -/
  missPrev : List Nat := []
  missNow : List Nat := []
  /-- 0 running, 1 held, 2 faulted, 3 reloading (R397). -/
  st : Nat := 0
  resume : Bool := false
  inDoubt : Bool := false
  doubtSlot : Nat := 0
  /-- Staged effects of the in-doubt tick wait in the same places as the tick's own. -/
  run : Nat := 0
  ran : Bool := false
  /-- Batches of the tick, fixed by its first run (R384), and the next batch (R333). -/
  batch : Nat := 0
  two : Bool := false
  nextBatch : Nat := 0
  /-- The next batch has been fixed since the load (R333, R405). -/
  nextOk : Bool := false
  /-- The tick's batches have been decided by its first run. -/
  decided : Bool := false
  /-- The last watershed committed, and its flips take effect at the next boundary (R208, R210). -/
  committed : Bool := false
  lag : Nat := 0
  /-- Correction bytes c(s), as magnitudes lowered (R350); corrected slots show in the record. -/
  corr : SMap Nat := []
  /-- Watch sums by slot: ZERO, SAT, NAN, INF, ELEMS (R348). -/
  sums : SMap (List Nat) := []
  /-- Census records of the tick: core, SEQ, counts (R348). -/
  cen : List (Nat × Nat × List Nat) := []
  failing : BitVec 256 := 0
  /-- Slots since a translation miss; the replay waits for a resume (R253). -/
  missSlots : Option Nat := none
  /-- Ports whose misses await a resume. -/
  missPorts : List Port := []
  resumed : Bool := false
  /-- The domain's verdict moved the tick's commit to the next slot (R37); the run's commit-zone work is done (R373). -/
  persist : Bool := false
  zoned : Bool := false
  /-- Fence entries to record (R383 type 4). -/
  fences : List W64 := []
  /-- A task reset waits for its boundary (R405). -/
  resetPend : Bool := false
  jnl : List JEnt := []
  deriving DecidableEq, Repr

/-! ### Host side -/

/-- A ring of a port (R320 to R323). -/
structure Ring where
  base : Nat := 0
  log2 : Nat := 12
  en : Bool := false
  vec : Nat := 0
  head : Nat := 0
  tail : Nat := 0
  badHead : Bool := false
  tooBig : Bool := false
  /-- A record above half the ring holds its records back until it is enabled again (R322). -/
  stuck : Bool := false
  /-- Records that wait, without RSEQ, each with the die whose egress staging holds it (2 for none), and the RSEQ of the next record. -/
  wait : List (Nat × List Byte) := []
  rseq : Nat := 0
  /-- TAIL advanced since the last watershed (R323). -/
  moved : Bool := false
  deriving DecidableEq, Repr

/-- A staged egress record (R337). -/
structure Egr where
  die : Nat
  seq : Nat
  rows : List Byte
  deriving DecidableEq, Repr

/-- A committed egress record that has not left yet (R337, R338): port, ring, an alternate on the other port, its die, its bytes. -/
structure RelRec where
  port : Port
  ring : Nat
  alt : Bool
  die : Nat
  bytes : List Byte
  deriving DecidableEq, Repr

/-- A staged overflow write (R107): port, host bus address, bytes, granule, mapped when its step ran. -/
structure OvWr where
  port : Port
  bus : Nat
  gran : Nat
  bytes : List Byte
  ok : Bool
  deriving DecidableEq, Repr

/-- A host port with its intake FIFO and its overflow window (R314 to R342, R249 to R253). -/
structure HPort where
  up : Bool := false
  rate : Nat := 0
  width : Nat := 0
  perst : Bool := false
  /-- Wall time at which the link went down or PERST# was asserted. -/
  downAt : Option Nat := none
  hostMax : Nat := 0
  agreed : Nat := 0
  /-- LTR tolerance in ns; latency last reported. -/
  tol : Option Nat := none
  sent : Nat := 0
  ptmTick : Nat := 0
  ptmTime : W64 := 0
  rings : SMap Ring := []
  /-- Pending halves of paired writes: key (BAR x 2^27 + offset, twin bit by its offset) to value (R444). -/
  halves : SMap W32 := []
  /-- Intake: enabled; packets of the filling bank; words of the open packet; that packet is bad; words counted. -/
  inEn : Bool := false
  bank : List (List Byte) := []
  fillWords : Nat := 0
  open_ : List W64 := []
  isOpen : Bool := false
  bad : Bool := false
  need : Nat := 0
  seen : Nat := 0
  refuse : Bool := false
  ovrSlot : Bool := false
  /-- The drained bank: packets of the slot before, and its flags. -/
  drainB : List (List Byte) := []
  drainOvr : Bool := false
  drainRef : Bool := false
  lastBatch : Nat := 0
  /-- Translation entries by granule, and those that take effect at the next boundary (R249, R250). -/
  xlat : SMap W64 := []
  xlatNext : SMap W64 := []
  /-- The last read's offset and value for the host. The model's own latch. -/
  rdata : Option (Nat × W32) := none
  /-- Task mailbox words (R315). -/
  mbox : SMap W64 := []
  deriving DecidableEq, Repr

/-- Egress, overflow copy and ownership shared by the ports (R316 to R318, R337, R338). -/
structure HostS where
  owner : Option Port := none
  /-- Offer outstanding and its wall time. -/
  offer : Option Nat := none
  pa : HPort := {}
  pb : HPort := {}
  /-- Egress staged in this tick, and committed records in release order, with their ports and rings. -/
  egr : List Egr := []
  rel : List RelRec := []
  /-- Overflow writes staged in this tick, and committed ones awaiting copy. -/
  ovw : List OvWr := []
  copy : List OvWr := []
  /-- EXTERN transfers that wait for the watershed (R309): die, region, offset, rows, module. -/
  ext : List (Nat × Nat × Nat × Nat × Nat) := []
  /-- Interrupt messages merged: wall time of the last, and pages whose rise is owed (R443). -/
  irqWall : Option Nat := none
  irqOwed : List Nat := []
  /-- Bits that hardware has set in the lc at hand, by register; ring pages by 2^40 + 2^32 x port + offset (R13). -/
  hw : SMap Nat := []
  /-- Registers with RC fields that each port has read in the lc at hand, with what port B got of them (R13). -/
  rcRead : List (Port × Nat × Nat) := []
  /-- Register offsets that port A has written in an lc, and that lc (R446). -/
  wrote : List Nat := []
  wroteAt : Nat := 0
  deriving DecidableEq, Repr

/-! ### Fabric -/

/-- A cell inside the mesh: half of its virtual channel; the port whose input buffer holds it. -/
structure RCell where
  cell : FCell
  hi : Bool := false
  from_ : Option Nat := none
  /-- Source core of a local cell, 0xFE and 0xFF the controllers; 256 + n: it entered the module on port n. -/
  src : Nat := 0
  /-- Endpoint of a local source, for acknowledgements. -/
  sep : Nat := 0
  /-- Virtual channel (R291). -/
  vc : Nat := 0
  /-- Destination fixed by multicast replication: port, or member core + 256 x endpoint. -/
  toPort : Option Nat := none
  toCore : Option Nat := none
  /-- Lc from which it may leave the stop that holds it (R299). -/
  rdy : Nat := 0
  deriving DecidableEq, Repr

/-- A router stop: five inputs and the pointer of each output (R298 to R302); lc + 1 of its last service. -/
structure Stop where
  ins : SMap (List RCell) := []
  ptr : SMap Nat := []
  at_ : Nat := 0
  deriving DecidableEq, Repr

/-- Where a word goes on from the col it is in: an input of a stop, a fabric port, a controller. -/
inductive ColTo where
  | stop (key input : Nat)
  | port (n : Nat)
  | ctl (die : Nat)
  deriving DecidableEq, Repr

/-- A word in a col or in the saddle (R28), and the lc at which it is read. -/
structure ColWord where
  due : Nat
  dst : ColTo
  cell : RCell
  deriving DecidableEq, Repr

/-- A fabric port (R281 to R288, R302). -/
structure LPort where
  /-- 0 DOWN, 1 TRAINING, 2 UP, 3 MISMATCH, 4 FENCED. -/
  st : Nat := 0
  slow : Bool := false
  major : Nat := 0
  minor : Nat := 0
  sk3 : Bool := false
  peer : Nat := 0
  delay : Nat := 0
  trained : Bool := false
  /-- Replay buffer: link sequence and cell; next sequence to send; next expected; discarding until it comes (R286, R287). -/
  replay : List (Nat × FCell) := []
  tx : Nat := 0
  rx : Nat := 0
  nak : Bool := false
  /-- Cells received since the last acknowledgement. -/
  owed : Nat := 0
  /-- Consecutive resends from one sequence, and that sequence (R288). -/
  tries : Nat := 0
  trySeq : Nat := 0
  /-- The port has gone DOWN from UP and has not come back; wall times of its retrains that failed since (R288). -/
  lostUp : Bool := false
  fails : List Nat := []
  /-- Credits held per virtual channel half, totals received, totals granted to the partner (R286, R302). -/
  cred : List Nat := List.replicate 8 0
  gotTot : List Nat := List.replicate 8 0
  gave : List Nat := List.replicate 8 0
  /-- A shut-down drains the replay buffer (R403), and training starts when it has completed. -/
  leaving : Bool := false
  retrainAfter : Bool := false
  deriving DecidableEq, Repr

/-- Tables of the fabric: two banks each, keyed within a bank (R300, R303, R306). -/
structure Fab where
  port : SMap LPort := []
  stop : SMap Stop := []
  /-- Words between clock regions, in the order in which they were written (R28). -/
  col : List ColWord := []
  /-- Route entries by bank x 65,536 + module; 31 (no route) where none is written. -/
  route : SMap Nat := []
  /-- Tree masks by bank x 2^17 + group x 32 + port (24: this module); members by bank x 2^18 + group x 64 + index. -/
  tree : SMap Nat := []
  member : SMap (Nat × Nat × Nat) := []
  /-- Fenced modules, fenced cores (module x 192 + core) and fenced ports, in force and from the next switch on. -/
  fmod : List Nat := []
  fcore : List Nat := []
  fport : List Nat := []
  fcoreNext : List Nat := []
  fportNext : List Nat := []
  /-- Marks written for the next switch: other modules' cores (module x 192 + core) and whole modules (65,536 x 192 + module). -/
  fmarks : SMap Bool := []
  /-- The bank in force (R300). -/
  sel : Nat := 0
  /-- Named switch tick of the three tables. -/
  switch : Option Nat := none
  /-- Barrier roots: arrivals of the phase by barrier, arrivals of modules, whether the module's own are complete, root phase (R277,
  R278). -/
  barArr : SMap Nat := []
  barDom : SMap Nat := []
  barLoc : SMap Nat := []
  barPhase : SMap Nat := []
  /-- As the last watershed saw them (R451). -/
  pubArr : SMap Nat := []
  pubPhase : SMap Nat := []
  /-- Cells at a service controller, by die. -/
  svc : SMap (List FCell) := []
  deriving DecidableEq, Repr

/-! ### Controllers, power, security, trace, pins -/

/-- Security state (R413 to R425). -/
structure Sec where
  /-- Firmware slots: bytes. -/
  slot : SMap (List Byte) := []
  /-- Fused security version number, fused grade and array map (R2, R5): LM-SK4-192. -/
  svnFused : Nat := 0
  grade : Nat := 192
  arrays : SMap Nat := []
  /-- Fused spare map by core + 256 x bank + 4,096 x row, and the field repair table in flash, each entry with its complement (R218,
  R220). -/
  fuseRows : SMap Nat := []
  repairs : List (W32 × W32) := []
  modid : Nat := 0
  modidNext : Nat := 0
  /-- Reservation limit L in flash, two copies; none where a copy disagrees with its complement (R417). -/
  lims : List (Option Nat) := [some 0, some 0]
  active : Nat := 0
  svnRun : Nat := 0
  /-- Next signature index. -/
  next : Nat := 0
  dead : Bool := false
  mreg : List Byte := List.replicate 32 0
  events : Nat := 0
  mlog : List (Nat × List Byte) := []
  fwm : List Byte := List.replicate 32 0
  /-- Audit chain head, slot of its last link, links and first slot of the epoch, head of the epoch before (R420, R421). -/
  head : List Byte := List.replicate 32 0
  hslot : Nat := 0
  elinks : Nat := 0
  efirst : Nat := 0
  ehead : List Byte := List.replicate 32 0
  /-- Effective exponent (R422): reset 16. -/
  keff : Nat := 16
  enum : Nat := 0
  /-- Signature queue: kind 1 statement with its nonce, 2 epoch record with its content (R418). -/
  queue : List (Nat × List Byte) := []
  /-- Genesis link owed at the first tick. -/
  genesis : Bool := false
  deriving DecidableEq, Repr

/-- Trace and global counters (R426 to R437). -/
structure Trc where
  /-- Records by die x 2^25 + index mod 2^25; written; visible. -/
  recs : SMap (BitVec 256) := []
  idx : List Nat := [0, 0]
  vis : List Nat := [0, 0]
  gval : SMap Nat := []
  gpub : SMap Nat := []
  deriving DecidableEq, Repr

/-- Power, reset, boot, thermal and sideband state (R398 to R412, R452 to R465). -/
structure Pwr where
  /-- Main rails are up: reset true, the state right after rail sequencing. -/
  on : Bool := true
  terrace : Nat := 0
  target : Nat := 0
  busy : Bool := false
  /-- The transition in progress is an exit; an exit waits for the shut-down. -/
  exiting : Bool := false
  exitPend : Bool := false
  startPend : Bool := false
  lat : Nat := 0
  /-- Wall time since which the T2 and T3 entry condition has held. -/
  idleAt : Option Nat := some 0
  /-- Handle tables and carried rows saved by T3 (R401): core x 2^24 + byte. -/
  saved : List Host.Cell := []
  savedHnd : SMap W64 := []
  /-- SVC_BOOT fields (R412). -/
  stage : Nat := 0
  bootSlot : Nat := 0
  degraded : Bool := false
  bistFail : Nat := 0
  /-- SVC_RST.CAUSE: reset 1, power-on. -/
  cause : Nat := 1
  /-- A module reset is held. -/
  inReset : Bool := false
  recovery : Bool := false
  slotId : Nat := 0
  vin : Nat := 5000
  /-- READY, ALERT_N asserted, THERM_TRIP_N latched. -/
  ready : Bool := false
  alert : Bool := false
  trip : Bool := false
  throttled : Bool := false
  warm : Bool := false
  lost : Bool := false
  temps : List Nat := [0, 0]
  stackT : List Nat := List.replicate 8 0
  /-- Ticks until the next thermal FOP step (R463). -/
  throttleAt : Nat := 0
  /-- SMBus response: bytes of the last read. -/
  smb : List Byte := []
  /-- Saddle spare lanes in use, phases measured (R450). -/
  spares : Nat := 0
  sdlLocked : Bool := false
  deriving DecidableEq, Repr

/-- A step that needs a controller which is down, and waits for it (R62). -/
inductive CtlStep where
  | mode (p : Nat) (m : CoreMode)
  | reset (p : Nat)
  | load (p : Nat) (store : List W256)
  | mailbox (port : Port) (r : MbRequest)
  | repair (p bank row : Nat)
  deriving DecidableEq, Repr

/-- Service controllers (R60 to R62). -/
structure Ctl where
  /-- 0 west leads, 1 east. -/
  leader : Nat := 0
  up : List Bool := [true, true]
  /-- Wall time of each watchdog's last reset, and of each controller's last restart. -/
  kick : List Nat := [0, 0]
  restart : List (Option Nat) := [none, none]
  /-- Mailbox requests waiting for firmware, with their ports. -/
  reqs : List (Port × MbRequest) := []
  /-- Steps that wait for a controller, with its die (R62). -/
  steps : List (Nat × CtlStep) := []
  /-- Replies that wait for room in their port's reply ring, and the RSEQ of each port's next one (R60, R322). -/
  replies : List (Port × List Byte) := []
  rseq : List Nat := [0, 0]
  deriving DecidableEq, Repr

/-- An event of a core, dale or HBM page that becomes visible at the watershed (R447). -/
inductive Evt where
  /-- Sets bits of a register. -/
  | set (addr mask : Nat)
  /-- Adds to a saturating field: register, lowest bit, width, amount. -/
  | add (addr lo w n : Nat)
  /-- Writes a field. -/
  | put (addr lo w v : Nat)
  /-- Writes a field while a bit of the same register is clear. -/
  | first (addr bit lo w v : Nat)
  deriving DecidableEq, Repr

/-- The module. -/
structure State where
  /-- Commands that wait, first in first out: the block's own queue. -/
  pending : List Instr := []
  /-- Register file: BAR0 offset to word, where it differs from the register's reset value (R440 to R451). -/
  regs : SMap W32 := []
  /-- Events not yet visible (R447). -/
  evts : List Evt := []
  cores : SMap Core := []
  dales : SMap Dale := []
  holds : List HoldRt := []
  clk : Clk := {}
  task : Task := {}
  phase : Phase := {}
  hbm : Hbm := {}
  cmt : Cmt := {}
  host : HostS := {}
  fab : Fab := {}
  sec : Sec := {}
  trc : Trc := {}
  pwr : Pwr := {}
  ctl : Ctl := {}
  /-- The model's own counter of free values drawn: reset 0. -/
  fresh : Nat := 0
  /-- The model's own record of what has left the module. -/
  out : List Out := []
  deriving DecidableEq, Repr

/-- The module right after power-on reset, rails up, before boot step 1 (R404, R408, R409, R412). -/
def State.reset : State := {}

end Sys2Proof.Machine
end

