-- ==== Sys2Proof/WellFormed.lean ====
section
/-! DEFINITION. Which commands name objects the module has (R6, R8, R14). -/
namespace Sys2Proof

/-- Physical cores 0 to 191. -/
def okCore (p : Nat) : Bool := decide (p < 192)
/-- Dales 0 to 11. -/
def okDale (d : Nat) : Bool := decide (d < 12)
/-- Dies 0 and 1. -/
def okDie (d : Nat) : Bool := decide (d < 2)
/-- Fabric ports 0 to 23. -/
def okPort (n : Nat) : Bool := decide (n < 24)
/-- Clock regions 0 to 63 (R26). -/
def okRegion (g : Nat) : Bool := decide (g < 64)
/-- Cols 0 to 132 (R28). -/
def okCol (c : Nat) : Bool := decide (c < 133)
/-- Rings 0 to 2,047 of a port (R320). -/
def okRing (r : Nat) : Bool := decide (r < 2048)
/-- Sources: a fabric port, or 0x1F for TICK_IN (R15). -/
def okSource (n : Nat) : Bool := decide (n < 24) || decide (n = 0x1F)

/-- What a host port's link can train to: generation 1 to 6 of PCI Express, on 1, 2, 4 or 8 lanes (R314). -/
def okLink (rate width : Nat) : Bool := decide (1 ≤ rate ∧ rate ≤ 6) && [1, 2, 4, 8].contains width

/-- A command that names only objects the module has. -/
def Instr.wf : Instr → Bool
  | .tickSourceEdge src => okSource src
  | .tickSymbolArrival n _ _ | .linkTraining n _ _ | .trainingTimeout n | .capabilityCellArrival n _ | .linkRetrain _ n
  | .linkEnable _ n _ | .linkctlAck n _ _ | .linkctlNak n _ _ | .ackTimeout n | .ackSend n | .portDown n _ | .portFence n => okPort n
  | .linkCellReceive n _ half _ _ => okPort n && decide (half < 8)
  | .journalDrain die | .pllLock die | .watchdogExpiry die | .watchdogKick die | .externArrival die _ _
  | .controllerRestartDone die | .serviceCellArrival die | .externTransfer die _ _ _ _ | .hbmScrub die _ _ => okDie die
  | .marginFall g k step | .marginRecovery g k step => okRegion g && decide (k < 16) && decide (step < 8)
  | .sentinelWarning g => okRegion g
  | .colHold c => okCol c
  | .instructionIssue d _ | .queueEntry d | .sqnop d _ | .sqrep d _ | .sqhold d _ | .sqend d _ | .pcSample d
  | .instructionRefillBeat d _ => okDale d
  | .hbmRefresh stack lane => decide (stack < 8) && decide (lane < 32)
  | .routerForward die x y => okDie die && decide (x < 12) && decide (y < 8)
  | .ringHeadWrite _ r _ | .ringEnable _ r _ | .ringRecordWrite _ r => okRing r
  | .gcntSelect _ n _ => decide (n < 32)
  | .holdRelease id => decide (id < 64)
  | .elasticSinkDrain p flag => okCore p && decide (flag < 48)
  | .depositSlotAccess p bank _ => okCore p && decide (bank < 16)
  | .basinScrubWriteback p bank row word => okCore p && decide (bank < 16) && decide (row < 1024) && decide (word < 4)
  | .fieldRepair p bank row => okCore p && decide (bank < 16) && decide (row < 1024)
  | .threadedStreamHalt p ctx _ _ => okCore p && decide (ctx < 16)
  | .registerWrite _ bar off _ | .readClear _ bar off => (decide (bar = 0) && decide (off < 0x4000000)) || (decide (bar = 2) && decide (off < 0x1000000))
      || (decide (bar = 4) && decide (off < 0x800000))
  | .irqMessage page => decide (page < 512)
  | .fopRequest _ fop => decide (fop < 8)
  | .boundaryCellDiscard p | .coreFenceReload p | .signalStage p | .feload p _ | .festore p _ | .fearm p | .ferearm p
  | .feclose p | .fefabrd p | .fefabwr p _ | .feovrd p _ | .feovwr p _ | .febatch p _ | .feegr p _ | .mxldw p _ | .mxlds p _
  | .mxrun p _ | .arrayRampDown p | .puacc p _ | .puflush p _ | .pucensus p | .puclr p | .puvec p _ | .postInputArrival p
  | .vxld p _ | .vxst p _ | .vxepl p _ | .vxep p | .vxcvt p | .vxcmp p | .vxexp p | .vxband p | .vxperm p | .vxshuf p
  | .vxpack p | .vxunpk p | .vxtree p | .vxopt p | .vxsracc p | .vxrand p | .vxmask p | .chopen p | .chclose p | .chsend p _
  | .chsig p | .chmcast p _ | .chbar p | .chrole p | .tsread p _ | .entropy p _ | .cntread p | .hostpoll p _
  | .sendBufferDepart p | .thli p | .thadd p | .thsub p | .thand p | .thor p | .thxor p | .thshl p | .thshr p | .thmul p
  | .thcmp p | .thbr p | .thjmp p | .thlds p _ | .thsts p | .thbase p | .thexit p | .threadIssue p | .coreModeChange p _
  | .coreReset p | .threadedWorkLoad p _ | .remoteWrite p | .remoteRead p | .overflowCompletion p _ _ _
  | .pcieCompletionError p _ | .openRequestArrival p | .openReplyArrival p | .cellArrival p | .senderReplyArrival p
  | .creditArrival p | .closeCellArrival p | .frespArrival p | .barrierArrival p | .barrierRelease p
  | .domainBarrierArrival p | .fencedAckArrival p | .pcntGo _ p => okCore p
  | .tickBoundary _ _ | .missedBoundary | .holdoverExpiry | .tickNumberExhausted | .tickStart _ | .tickNumStartWrite _ _
  | .commitZoneOpen _ | .voteSend | .voteArrival _ | .voteCutoff | .verdictDecide | .verdictArrival _ | .watershedCommit
  | .watershedDiscard | .inDoubt | .overflowStagingCopy _ | .domainResume _ | .fopStepDown | .fopStepUp
  | .serviceMailboxRequest _ _ | .imageLoad _ _ _ _ | .phaseLoad _ _ _ _ | .phaseArm _ _ | .phaseCancel _ | .phaseBridge
  | .coldBoundary | .phaseAbort | .taskReset _ | .overflowResume _ | .overflowTimeout | .ovfXentWrite _ _
  | .saddleSpareLane | .hostOwnOffer _ | .hostOwnAccept _ | .offerLapse | .hostOwnTake _ | .hpHelloWrite _ _
  | .intakeWordWrite _ _ | .intakeTrailer _ _ | .intakeStop _ _ | .intakeEnable _ _ | .ltrToleranceWrite _ _ | .attest _
  | .cert _ | .svnCommit _ | .signatureComplete | .epochRecord | .auditSnapshot _ | .journalCopy _ _ | .traceCopy _
  | .terraceEntry | .terraceShutdownDone | .terraceExit _ | .pwrWake _ | .powerOn _ _ _ | .powerDown _
  | .overvoltageShutoff _ | .moduleReset _ | .hostPortReset _ _ | .boot _ | .thermalAlert _ _ _ | .thermalThrottle _ _ _
  | .thermalTrip _ _ _ | .status | .tempDie | .tempHbm | .vin | .pin | .slot | .modid | .terrace | .clearAlert
  | .moduleResetRelease _ _ _ _ => true
  | .hostPortLinkUp _ rate width => okLink rate width

end Sys2Proof
end

