-- ==== Sys2Proof/Machine/Ops.lean ====
section
/-! DEFINITION. The named operations over the module's parts: cores, registers and their events, faults and sources, the free
values, slot arithmetic (R21 to R23), the basin with its handles, slots and errors (R199 to R224) and the regions of HBM (R234 to
R239). -/
namespace Sys2Proof.Machine

/-- A command that names an object the module lacks is refused; any other has its effect. -/
def guarded (ok : Bool) (what : String) (f : State → State) (s : State) : Host.Outcome State Fault Refusal :=
  if ok then .next (f s) else .refused (.noSuch what)

/-! ### Parts -/

/-- Core p. -/
def coreAt (s : State) (p : Nat) : Core := mget {} s.cores p
/-- The module with core p replaced. -/
def setCore (p : Nat) (c : Core) (s : State) : State := { s with cores := mput p c s.cores }
/-- The module with core p changed by f. -/
def updCore (p : Nat) (f : Core → Core) (s : State) : State := setCore p (f (coreAt s p)) s
/-- Dale d. -/
def daleAt (s : State) (d : Nat) : Dale := mget {} s.dales d
/-- The module with dale d replaced. -/
def setDale (d : Nat) (x : Dale) (s : State) : State := { s with dales := mput d x s.dales }
/-- The module with dale d changed by f. -/
def updDale (d : Nat) (f : Dale → Dale) (s : State) : State := setDale d (f (daleAt s d)) s
/-- The module with every core, in ascending order, changed by f. -/
def eachCore (f : Nat → State → State) (s : State) : State := foldN 192 (fun s p => f p s) s
/-- A host port. -/
def hpAt (s : State) : Port → HPort
  | .a => s.host.pa
  | .b => s.host.pb
/-- The module with a host port replaced. -/
def setHp (port : Port) (h : HPort) (s : State) : State :=
  match port with
  | .a => { s with host := { s.host with pa := h } }
  | .b => { s with host := { s.host with pb := h } }
/-- The module with a host port changed by f. -/
def updHp (port : Port) (f : HPort → HPort) (s : State) : State := setHp port (f (hpAt s port)) s
/-- 0 for port A, 1 for port B. -/
def portIdx : Port → Nat
  | .a => 0
  | .b => 1
/-- The port of a bit. -/
def portOf (b : Bool) : Port := if b then .b else .a
/-- The other port. -/
def portOther : Port → Port
  | .a => .b
  | .b => .a
/-- A fabric port. -/
def lpAt (s : State) (n : Nat) : LPort := mget {} s.fab.port n
/-- The module with fabric port n changed by f. -/
def updLp (n : Nat) (f : LPort → LPort) (s : State) : State :=
  { s with fab := { s.fab with port := mput n (f (lpAt s n)) s.fab.port } }

/-- Dale of a core (R8). -/
def daleOf (p : Nat) : Nat := p / 16
/-- Die of a core (R8). -/
def dieOf (p : Nat) : Nat := p / 96
/-- Word n of the fused array map (R5). -/
def arrayMap (s : State) (n : Nat) : Nat := mget 0xFFFFFFFF s.sec.arrays n
/-- Core p has an enabled array (R2, R5). -/
def hasArray (s : State) (p : Nat) : Bool := bbit (arrayMap s (p / 32)) (p % 32)
/-- Physical core of a logical index on this module, if a core holds it (R9). -/
def physOf (s : State) (l : Nat) : Option Nat :=
  findN 192 fun p => decide ((coreAt s p).lidx = l) && !(coreAt s p).fenced && decide (l < 192)
/-- The core takes part in the broadcast of the loaded task. -/
def holdsIndex (c : Core) : Bool := decide (c.lidx ≠ 0xFF) && !c.fenced

/-- Something leaves the module. -/
def emit (o : Out) (s : State) : State := { s with out := s.out ++ [o] }
/-- One free value is drawn (notes/assumptions/6.md). -/
def drawn (s : State) : State := { s with fresh := s.fresh + 1 }

/-! ### Registers and events -/

def svcPage : Nat := 0x0000
def secPage : Nat := 0x1000
def tckPage : Nat := 0x2000
def pwrPage : Nat := 0x3000
def cmtPage : Nat := 0x4000
def trcPage : Nat := 0x5000
def sdlPage : Nat := 0x6000
def hpPage (port : Port) : Nat := 0x8000 + 0x1000 * portIdx port
def intkPage (port : Port) : Nat := 0xA000 + 0x1000 * portIdx port
def hbmPage (st : Nat) : Nat := 0x10000 + 0x1000 * st
def lnkPage (n : Nat) : Nat := 0x20000 + 0x1000 * n
def dalePage (d : Nat) : Nat := 0x40000 + 0x1000 * d
def corePage (p : Nat) : Nat := 0x100000 + 0x1000 * p

/-- The register file's word at a BAR0 offset. -/
def regAt (s : State) (a : Nat) : Nat := (mget (regReset a) s.regs a).toNat
/-- Writes the register file's word. -/
def setReg (a v : Nat) (s : State) : State := { s with regs := mset (regReset a) a (BitVec.ofNat 32 v) s.regs }
/-- A field of a register. -/
def fieldAt (s : State) (a lo w : Nat) : Nat := bfield (regAt s a) lo w
/-- Writes a field. -/
def setField (a lo w v : Nat) (s : State) : State := setReg a (bput (regAt s a) lo w v) s
/-- Bits of a register that hardware sets in this lc: a write of 1 to them in the same lc leaves them set (R13). -/
def hwSets (a mask : Nat) (s : State) : State := { s with host := { s.host with hw := mput a (mget 0 s.host.hw a ||| mask) s.host.hw } }
/-- Hardware sets bits. -/
def setBits (a mask : Nat) (s : State) : State := hwSets a mask (setReg a (regAt s a ||| mask) s)
/-- Adds to a field that saturates. -/
def satField (a lo w n : Nat) (s : State) : State := setField a lo w (satAdd w (fieldAt s a lo w) n) s
/-- A 48- or 64-bit register of two words. -/
def reg64 (s : State) (a : Nat) : Nat := regAt s a + 2 ^ 32 * regAt s (a + 4)
/-- Writes a register of two words. -/
def setReg64 (a v : Nat) (s : State) : State := setReg (a + 4) (v >>> 32) (setReg a (v % 2 ^ 32) s)

/-- A page owes an interrupt message; with no owner none is owed (R443). -/
def irqOwe (page : Nat) (s : State) : State :=
  if s.host.irqOwed.contains page ∨ s.host.owner = none then s else { s with host := { s.host with irqOwed := s.host.irqOwed ++ [page] } }

/-- `IRQ_RAW` bits become set on a page; PEND rises where a newly set bit is enabled (R443). -/
def irqRaise (page mask : Nat) (s : State) : State :=
  let a := page * 0x1000
  let old := regAt s (a + 0x10)
  let s1 := setBits (a + 0x10) mask s
  if (mask &&& regAt s (a + 0x14)) &&& (0xFFFFFFFF - old % 2 ^ 32) = 0 then s1 else irqOwe page s1

/-- One event reaches the registers. -/
def applyEvt (s : State) : Evt → State
  | .set a mask => if a % 0x1000 = 0x10 then irqRaise (a / 0x1000) mask s else setBits a mask s
  | .add a lo w n => satField a lo w n s
  | .put a lo w v => setField a lo w v s
  | .first a bit lo w v => if bbit (regAt s a) bit then s else setField a lo w v s

/-- Events that wait become visible (R447). -/
def publishEvts (s : State) : State := s.evts.foldl applyEvt { s with evts := [] }

/-- A hardware or program event: visible at the watershed of its run (R447), at once where no run is to come. -/
def note (e : Evt) (s : State) : State := if s.clk.run && s.task.img.isSome then { s with evts := s.evts ++ [e] } else applyEvt s e

/-- A status bit of a page and the interrupt it raises (R443, R447). -/
def noteStat (base off bit irq : Nat) (s : State) : State :=
  note (.set (base + 0x10) (1 <<< irq)) (note (.set (base + off) (1 <<< bit)) s)

/-- A refused write is counted, and recorded when it is the first (R441, R442). -/
def refuseWrite (port : Port) (a cause : Nat) (s : State) : State :=
  let b := a / 0x1000 * 0x1000
  let s1 := satField (b + 0x1C) 0 32 1 s
  if bbit (regAt s1 (b + 0x18)) 31 then s1
  else hwSets (b + 0x18) (2 ^ 31) (setReg (b + 0x18) (a % 0x1000 + cause * 2 ^ 12 + portIdx port * 2 ^ 16 + 2 ^ 31) s1)

/-- BAR0 writes are served: after boot, and on the service page before (R409). -/
def bar0Open (s : State) (a : Nat) : Bool := decide (s.pwr.stage = 9) || decide (a / 0x1000 = 0)

/-- A port may write a BAR0 offset: it owns management, or the offset lies in its own host-port or intake page, or is `HOST_OWN` (R317). -/
def mayWrite (s : State) (port : Port) (a : Nat) : Bool :=
  decide (s.host.owner = some port) || decide (a / 0x1000 * 0x1000 = hpPage port) || decide (a / 0x1000 * 0x1000 = intkPage port)
    || [hpPage .a + 0x24, hpPage .b + 0x24].any fun x => decide (a % 0x800 = x % 0x800 ∧ a / 0x1000 = x / 0x1000)

/-- A page is locked (R441). -/
def locked (s : State) (a : Nat) : Bool := bbit (regAt s (a / 0x1000 * 0x1000 + 8)) 0

/-- A host write of a WO field that acts: ownership and the state allow it (R317, R441, R442). -/
def woGate (port : Port) (a : Nat) (ok : Bool) (cause : Nat) (f : State → State) (s : State) : State :=
  if !bar0Open s a then s
  else if !mayWrite s port a then refuseWrite port a 2 s
  else if ok then f s else refuseWrite port a cause s

/-- A host write of an RW or PW field that acts: its page is not locked either (R441, R442). -/
def hostGate (port : Port) (a : Nat) (ok : Bool) (cause : Nat) (f : State → State) (s : State) : State :=
  if bar0Open s a && mayWrite s port a && locked s a then refuseWrite port a 5 s
  else woGate port a ok cause f s

/-- A step of the controller of a die: it waits while that controller is down (R62). -/
def byCtl (die : Nat) (x : CtlStep) (f : State → State) (s : State) : State :=
  if s.ctl.up.getD die true then f s else { s with ctl := { s.ctl with steps := s.ctl.steps ++ [(die, x)] } }

/-- The die of core p (R8). -/
def coreDie (p : Nat) : Nat := p / 96

/-! ### Sources and program faults -/

/-- A source bit is set for the run at hand, or, once the vote is sent, for the module's next run (R372, R373). -/
def markSrc (bit : Nat) (s : State) : State :=
  if s.cmt.voted then { s with cmt := { s.cmt with srcNext := bset s.cmt.srcNext bit } }
  else { s with cmt := { s.cmt with src := bset s.cmt.src bit } }

/-- A core's source bit; no threaded work takes part in a watershed. -/
def coreSrc (p bit : Nat) (s : State) : State := if (coreAt s p).mode = .threaded then s else markSrc bit s

/-- A program fault that the core reports at the commit zone (R394). -/
def progFault (code p : Nat) (s : State) : State :=
  if (coreAt s p).mode = .threaded then s
  else if s.cmt.faults.contains (code, p) then s
  else { s with cmt := { s.cmt with faults := s.cmt.faults ++ [(code, p)] } }

/-- A bit of `CORE_CH_STAT` (R280). -/
def chStat (p bit : Nat) (s : State) : State := noteStat (corePage p) 0x90 bit 10 s
/-- A bit of `CORE_FE_STAT` (R255). -/
def feStat (p bit : Nat) (s : State) : State := noteStat (corePage p) 0x80 bit 9 s
/-- A bit of `CORE_BSN_STAT` (R226). -/
def bsnStat (p bit : Nat) (s : State) : State := noteStat (corePage p) 0x64 bit (if bit < 4 then 6 else 8) s

/-! ### Counters (R433, R437) -/

/-- Core event `code` is counted `n` times at lc `t`. -/
def countAt (p t code n : Nat) (s : State) : State :=
  if n = 0 then s else updCore p (fun c => { c with pc := { c.pc with due := c.pc.due ++ [(t, code, n)] } }) s

/-- Global event (code, instance) is counted `n` times. -/
def gcount (code inst n : Nat) (s : State) : State :=
  { s with trc := { s.trc with gval := foldN 32 (fun m i =>
      if fieldAt s (trcPage + 0x100 + 4 * i) 0 6 = code ∧ fieldAt s (trcPage + 0x100 + 4 * i) 6 5 = inst
      then mset 0 i ((mget 0 m i + n) % 2 ^ 48) m else m) s.trc.gval } }

/-! ### Slot arithmetic (R21 to R23, R33) -/

/-- Frequency of an operating point in MHz. -/
def fopMHz (f : Nat) : Nat := [1500, 1400, 1300, 1200, 1100, 1000, 875, 750].getD f 750
/-- Quarter of a nominal period in units of 1/24,024,000 microsecond. -/
def fopQuarter (f : Nat) : Nat := 6006000 / fopMHz f
/-- Default core rail in mV. -/
def fopRail (f : Nat) : Nat := [850, 830, 810, 790, 770, 750, 720, 700].getD f 700
/-- Wall units of one microsecond. -/
def wallUs : Nat := 24024000

/-- N at an operating point. -/
def slotN (s : State) (f : Nat) : Nat := fieldAt s (tckPage + 0x20) 0 17 * fopMHz f
/-- Z. -/
def slotZ (s : State) : Nat := fieldAt s (tckPage + 0x28) 16 16
/-- G at an operating point. -/
def slotG (s : State) (f : Nat) : Nat := cdiv (slotN s f * fieldAt s (tckPage + 0x28) 0 7) 1000
/-- V at an operating point. -/
def slotV (s : State) (f : Nat) : Nat := cdiv (slotN s f * fieldAt s (tckPage + 0x28) 7 7) 1000
/-- Body zone at an operating point. -/
def bodyZone (s : State) (f : Nat) : Nat := slotN s f - slotG s f - slotZ s
/-- An operating point is usable (R23). -/
def usable (s : State) (f : Nat) : Bool := decide (4096 ≤ bodyZone s f)
/-- Body length and hold budget are valid at an operating point (R22). -/
def validAt (s : State) (body hold f : Nat) : Bool :=
  decide (body ≤ bodyZone s f) && decide (hold ≤ slotG s f - slotV s f)
/-- The loaded image, where there is one, is valid at an operating point. -/
def taskValidAt (s : State) (f : Nat) : Bool :=
  match s.task.img with
  | none => true
  | some i => validAt s i.body i.hold f
/-- TCK_NP. -/
def npNow (s : State) : Nat := s.clk.npq / 4
/-- Data may cross cols and the saddle: not in the last 32 nominal periods of a slot (R25). -/
def colsOpen (s : State) : Bool := !s.clk.run || decide (npNow s + 32 < slotN s s.clk.fop)
/-- Lc of the tick at an lc of the module's count. -/
def tickLc (s : State) (t : Nat) : Nat := s.clk.lc + t - s.clk.now
/-- Batch of the tick (R333). -/
def lagOf (s : State) : Nat := s.cmt.lag

/-! ### Basin -/

/-- A handle entry (R205). -/
structure Hnd where
  row : Nat
  rowB : Nat
  len : Nat
  bank0 : Nat
  width : Nat
  kind : Nat
  ford : Bool
  phase : Bool
  valid : Bool
  owner : Nat
  slot : Nat
  deriving DecidableEq, Repr

/-- The fields of a handle entry. -/
def hndOf (w : W64) : Hnd :=
  let n := w.toNat
  { row := bfield n 0 10, rowB := bfield n 10 10, len := bfield n 20 14 + 1, bank0 := bfield n 34 4, width := 2 ^ bfield n 38 3,
    kind := bfield n 41 2, ford := bbit n 43, phase := bbit n 44, valid := bbit n 45, owner := bfield n 46 8,
    slot := bfield n 54 5 + 1 }

/-- Place read or written (R208). -/
def Hnd.place (h : Hnd) (wr : Bool) : Nat := if h.kind = 1 ∧ h.phase ≠ wr then h.rowB else h.row
/-- Bank of a logical row (R206). -/
def Hnd.bank (h : Hnd) (n : Nat) : Nat := h.bank0 + n % h.width
/-- Physical row of a logical row (R206). -/
def Hnd.prow (h : Hnd) (wr : Bool) (n : Nat) : Nat := h.place wr + n / h.width

/-- Entry i of the active bank and its complement. -/
def hndWord (c : Core) (i : Nat) : W64 := mget 0 c.bsn.hnd (c.bsn.hsel * 64 + i)
def hndCompl (c : Core) (i : Nat) : W64 := mget (BitVec.allOnes 64) c.bsn.hndC (c.bsn.hsel * 64 + i)
def hndAt (c : Core) (i : Nat) : Hnd := hndOf (hndWord c i)
/-- The entry disagrees with its complement (R211). -/
def hndBad (c : Core) (i : Nat) : Bool := decide (hndCompl c i ≠ ~~~ hndWord c i)
/-- Writes an entry of a bank with its complement. -/
def setHnd (bank i : Nat) (w : W64) (b : Bsn) : Bsn :=
  { b with hnd := mset 0 (bank * 64 + i) w b.hnd, hndC := mset (BitVec.allOnes 64) (bank * 64 + i) (~~~ w) b.hndC }

/-- First byte of a physical row, mapped-out rows by their spares (R200, R218). -/
def rowBase (b : Bsn) (bank row : Nat) : Nat :=
  (bank * 1040 + (match mget 99 b.spare (bank * 1024 + row) with | 99 => row | k => 1024 + k)) * 128

/-- A byte store is in canonical form: addresses strictly rising, no entry equal to the zero that an unlisted address reads as
(notes/assumptions/3.md). -/
abbrev Memory.wf (m : List Host.Cell) : Bool := mwf 0 m
/-- n bytes from an address. -/
def rdMem (m : List Host.Cell) (a n : Nat) : List Byte := (List.range n).map fun i => mget 0 m (a + i)
/-- Bytes written from an address on, in canonical form. -/
def wrMem (m : List Host.Cell) (a : Nat) : List Byte → List Host.Cell
  | [] => m
  | b :: t => wrMem (mset 0 a b m) (a + 1) t

/-- The parts of [off, off + n) that lie in one row each: logical row, first byte, length. -/
def rowParts (off n : Nat) : List (Nat × Nat × Nat) :=
  (List.range ((off % 128 + n + 127) / 128)).map fun i =>
    let lo := if i = 0 then off % 128 else 0
    (off / 128 + i, lo, min (off % 128 + n - 128 * i) 128 - lo)

/-- A bank is reserved for deposits at lc t of the tick (R201). -/
def isDepositSlot (s : State) (t bank : Nat) : Bool :=
  match s.task.img with
  | none => false
  | some i => decide (((t : Int) - bank) % (2 ^ i.slot : Nat) = 0)

/-- A slot conflict is recorded (R203). -/
def slotConf (p bank : Nat) (s : State) : State :=
  progFault 0x0F p (bsnStat p 0 (note (.first (corePage p + 0x64) 0 7 4 bank) s))

/-- Takes the bank's access of this lc for an execute-side one: whether it is made. In a deposit slot or on a bank that is taken it is
not (R203); a thread's waits instead (R204). The units' steps of an lc come in ascending UNIT, load before store, so that the lower one's
access is made. -/
def takeSlot (p bank : Nat) (s : State) : Bool × State :=
  let c := coreAt s p
  if isDepositSlot s s.clk.lc bank || c.bsn.blog.contains bank then
    (false, if c.mode = .threaded then updCore p (fun c => { c with job := { c.job with wait := true } }) s else slotConf p bank s)
  else (true, updCore p (fun c => { c with bsn := { c.bsn with blog := c.bsn.blog ++ [bank] } }) s)

/-- A suspect row gains this tick; a ninth takes the place of the one with the fewest ticks; a fourth tick marks the row (R218). -/
def suspectRow (bank row : Nat) (b : Bsn) : Bsn :=
  let k := bank * 1024 + row
  let old := mget (0, false) b.suspect k
  if old.2 then b
  else
    let same := b.suspect.filter fun x => decide (x.1 / 1024 = bank)
    let victim := if old.1 = 0 ∧ 8 ≤ same.length
      then same.foldl (fun (o : Option (Nat × Nat)) x => match o with
        | none => some (x.1, x.2.1)
        | some (j, n) => if x.2.1 < n then some (x.1, x.2.1) else some (j, n)) none else none
    let m := match victim with
      | none => b.suspect
      | some (j, _) => mdel j b.suspect
    let b1 := { b with suspect := mput k (old.1 + 1, true) m }
    if 4 ≤ old.1 + 1 ∧ ¬ b.marked.any (fun x => decide (x.1 = k)) then { b1 with marked := mput k false b1.marked } else b1

/-- A corrected error in a basin row (R217, R218). -/
def basinCorrected (p bank row : Nat) (s : State) : State :=
  updCore p (fun c => { c with bsn := suspectRow bank row c.bsn }) (note (.add (corePage p + 0x68) 0 16 1) s)

/-- A physical row lies in the read place of a carried handle of the active bank (R208, R217). -/
def carriedRow (c : Core) (bank row : Nat) : Bool :=
  (List.range 64).any fun i =>
    let e := hndAt c i
    e.valid && decide (e.kind = 1) && decide (e.bank0 ≤ bank ∧ bank < e.bank0 + e.width) && decide (e.place false ≤ row) &&
      decide ((row - e.place false) * e.width + (bank - e.bank0) < e.len)

/-- An error in a basin row that cannot be corrected; in the read place of a carried handle it is persistent (R217). -/
def basinPoisoned (p bank row : Nat) (s : State) : State :=
  let s1 := updCore p (fun c => { c with bsn := { c.bsn with marked := mput (bank * 1024 + row) true c.bsn.marked } }) s
  let s2 := coreSrc p 2 (bsnStat p 5 (note (.add (corePage p + 0x68) 16 8 1) s1))
  if carriedRow (coreAt s p) bank row then coreSrc p 15 s2 else s2

/-- The errors that strike a row as it is read: corrected ones are counted, poisoned words counted (R217). -/
def rowErrors (ev : List HwEvent) (p bank row : Nat) (s : State) : State :=
  ev.foldl (fun s e => match e with
    | .basinCe q b r _ => if q = p ∧ b = bank ∧ r = row then basinCorrected p bank row s else s
    | .basinUe q b r _ => if q = p ∧ b = bank ∧ r = row then basinPoisoned p bank row s else s
    | _ => s) s

/-- Byte j of a row as delivered: the poison pattern in a word that cannot be corrected (R217). -/
def poisonByte (ev : List HwEvent) (p bank row j : Nat) (b : Byte) : Byte :=
  if ev.any (fun e => match e with | .basinUe q bb r w => decide (q = p ∧ bb = bank ∧ r = row ∧ w = j / 32) | _ => false)
  then 0xFF else b

/-- The handle complement event of a command, where it strikes this use (R211). -/
def hndStruck (ev : List HwEvent) (p bank h : Nat) : Bool :=
  ev.any fun e => match e with | .hndCmp q b i => decide (q = p ∧ b = bank ∧ i = h) | _ => false

/-- A disagreeing handle entry: no access, the tick is not clean (R211). -/
def hndMismatch (p : Nat) (s : State) : State := coreSrc p 3 (bsnStat p 4 s)

/-- What a use of handle `h` over [off, off + n) finds: the entry, or why no access is made. -/
inductive HUse where
  | ok (h : Hnd)
  | mismatch
  | bounds
  deriving DecidableEq, Repr

/-- Checks a use of a handle (R87, R207, R211). -/
def hndUse (ev : List HwEvent) (p h : Nat) (off : Int) (n : Nat) (s : State) : HUse :=
  let c := coreAt s p
  if hndBad c h || hndStruck ev p c.bsn.hsel h then .mismatch
  else
    let e := hndAt c h
    if !e.valid || decide (e.owner ≠ c.task) || decide (off < 0) || decide ((128 * e.len : Int) < off + n) then .bounds else .ok e

/-- The fill and drain difference of a slot (R221). -/
def slotDiff (b : Bsn) (h slot : Nat) : Nat := (mget 0 b.fill (h * 16384 + slot) + 256 - mget 0 b.drain (h * 16384 + slot)) % 256

/-- Early reads and unwritten rows, seen by an execute-side read (R222, R224). -/
def readChecks (p h : Nat) (e : Hnd) (n : Nat) (s : State) : State :=
  let c := coreAt s p
  if e.kind = 2 ∧ slotDiff c.bsn h (n / e.slot) = 0 then coreSrc p 6 (bsnStat p 1 s)
  else if e.kind = 0 ∧ fieldAt s (corePage p + 0x60) 0 1 = 1 ∧ ¬ c.bsn.written.contains (e.bank n * 1024 + e.prow false n)
    then progFault 0x12 p (bsnStat p 3 s)
  else s

/-- The written bit of a physical row, kept while the debug check is on (R224). -/
def wroteRow (dbg : Bool) (k : Nat) (b : Bsn) : Bsn :=
  if dbg ∧ ¬ b.written.contains k then { b with written := b.written ++ [k] } else b

/-- A row part as a read delivers it: its bytes with what strikes them, counted (R217). -/
def readPart (ev : List HwEvent) (p bank row lo n : Nat) (s : State) : List Byte × State :=
  let b := (coreAt s p).bsn
  let raw := rdMem b.mem (rowBase b bank row + lo) n
  ((List.range n).map fun j => poisonByte ev p bank row (lo + j) (raw.getD j 0), rowErrors ev p bank row s)

/-- Execute-side read of n bytes at byte `off` of handle `h` in this lc (R87, R203, R207, R211, R217, R222, R224): the bytes, zeros where
no access is made. A placed read has its own free slot already. -/
def exReadAt (placed : Bool) (ev : List HwEvent) (p h : Nat) (off : Int) (n : Nat) (s : State) : List Byte × State :=
  match hndUse ev p h off n s with
  | .mismatch => (List.replicate n 0, hndMismatch p s)
  | .bounds => (List.replicate n 0, progFault 0x03 p s)
  | .ok e => (rowParts off.toNat n).foldl (fun (acc : List Byte × State) part =>
      let bank := e.bank part.1
      match (if placed then (true, acc.2) else takeSlot p bank acc.2) with
      | (false, s1) => (acc.1 ++ List.replicate part.2.2 0, s1)
      | (true, s1) =>
        let r := readPart ev p bank (e.prow false part.1) part.2.1 part.2.2 (readChecks p h e part.1 s1)
        (acc.1 ++ r.1, r.2)) ([], s)

/-- An execute-side read whose lc is fixed. -/
def exRead (ev : List HwEvent) (p h : Nat) (off : Int) (n : Nat) (s : State) : List Byte × State := exReadAt false ev p h off n s

/-- Writes bytes into a physical row. -/
def putRow (dbg : Bool) (bank row lo : Nat) (bytes : List Byte) (b : Bsn) : Bsn :=
  wroteRow dbg (bank * 1024 + row) { b with mem := wrMem b.mem (rowBase b bank row + lo) bytes }

/-- Execute-side write of bytes at byte `off` of handle `h` in this lc; dropped where no access is made. -/
def exWrite (ev : List HwEvent) (p h : Nat) (off : Int) (bytes : List Byte) (s : State) : State :=
  match hndUse ev p h off bytes.length s with
  | .mismatch => hndMismatch p s
  | .bounds => progFault 0x03 p s
  | .ok e => (rowParts off.toNat bytes.length).foldl (fun s part =>
      let bank := e.bank part.1
      match takeSlot p bank s with
      | (false, s1) => s1
      | (true, s1) =>
        let dbg := fieldAt s1 (corePage p + 0x60) 0 1 = 1
        let piece := slice (128 * part.1 + part.2.1 - off.toNat) part.2.2 bytes
        updCore p (fun c => { c with bsn := putRow dbg bank (e.prow true part.1) part.2.1 piece c.bsn }) s1) s

/-- Last logical row of the slot that holds row n (R221, R246). -/
def Hnd.slotLast (e : Hnd) (n : Nat) : Nat := min ((n / e.slot + 1) * e.slot) e.len - 1

/-- A deposit of bytes into logical row n of handle `h`: an overwrite of an undrained slot is made and reported, and the last byte of a
slot's last row fills the slot (R221, R223). -/
def depRow (p h n lo : Nat) (bytes : List Byte) (s : State) : State :=
  let c := coreAt s p
  let e := hndAt c h
  let slot := n / e.slot
  let s1 := if e.kind = 2 ∧ slotDiff c.bsn h slot ≠ 0 then progFault 0x11 p (bsnStat p 2 s) else s
  let dbg := fieldAt s1 (corePage p + 0x60) 0 1 = 1
  let fills := decide (e.kind = 2) && decide (n = e.slotLast n) && decide (lo + bytes.length = 128)
  updCore p (fun c =>
    let b := putRow dbg (e.bank n) (e.prow true n) lo bytes c.bsn
    { c with bsn := if fills then { b with fill := mset 0 (h * 16384 + slot) ((mget 0 b.fill (h * 16384 + slot) + 1) % 256) b.fill }
                    else b }) s1

/-- A scheduled deposit at byte `off` of handle `h` takes place (R87, R211, R244). -/
def depAt (ev : List HwEvent) (p h : Nat) (off : Int) (bytes : List Byte) (s : State) : State :=
  match hndUse ev p h off bytes.length s with
  | .mismatch => hndMismatch p s
  | .bounds => progFault 0x03 p s
  | .ok _ => (rowParts off.toNat bytes.length).foldl (fun s part =>
      depRow p h part.1 part.2.1 (slice (128 * part.1 + part.2.1 - off.toNat) part.2.2 bytes) s) s

/-! ### HBM regions -/

/-- First byte, in the die's HBM, of the half of a region's byte `a` that is read or written (R238). -/
def regionByte (s : State) (i : Nat) (r : RegionD) (wr : Bool) (a : Nat) : Nat :=
  if r.kind = 1 ∧ mget false s.hbm.cur (i * 2 ^ 21 + a / 65536) ≠ wr then r.baseB + a else r.base + a

/-- Set stacks of a region, in ascending order (R237). -/
def setStacks (m : Nat) : List Nat := (List.range 4).filter fun k => bbit m k

/-- Stack (of the module) and lane of row r of a region (R237). -/
def rowLane (s : State) (r : RegionD) (row : Nat) : Nat × Nat :=
  let st := setStacks r.stk
  let k := st.getD (row % st.length) 0
  let stack := 4 * r.die + k
  let l := match s.task.img with | none => 32 | some i => i.lanes.getD stack 32
  (stack, row / st.length % l)

/-- Number, in its stack, of 32-byte unit x of a die: rows of a region, here row `row` from byte `base` on, take turns over its n stacks,
and units outside a region over four (R237, R256; notes/assumptions/11.md). -/
def stackUnit (n base row x : Nat) : Nat := 4 * (base / 512 + row / max n 1) + x % 4

/-- An uncorrectable word of HBM is counted and the first one's address held (R234, R256): stack `st`, unit `su` in it. -/
def hbmUeNote (st su : Nat) (s : State) : State :=
  note (.set (hbmPage st + 0x10) 1) (note (.set (hbmPage st + 0x2C) (1 <<< 31))
    (note (.first (hbmPage st + 0x2C) 31 0 31 (su % 2 ^ 31)) (note (.add (hbmPage st + 0x28) 16 8 1) s)))

/-- The errors that strike n 32-byte units of HBM from unit u of a die on, as core p reads them (R234, R252): stack `st`, the first one's
number in it. A unit met again in a later run of the tick is persistent. -/
def hbmErrors (ev : List HwEvent) (p die st su u n : Nat) (s : State) : State :=
  ev.foldl (fun s e => match e with
    | .hbmCe d x => if d = die ∧ u ≤ x ∧ x < u + n then
        note (.add (hbmPage st + 0x28) 0 16 1) { s with hbm := { s.hbm with scrub := s.hbm.scrub ++ [die * 2 ^ 40 + x] } } else s
    | .hbmUe d x => if d = die ∧ u ≤ x ∧ x < u + n then
        let key := die * 2 ^ 40 + x
        let s2 := coreSrc p 2 (hbmUeNote st (su + (x - u)) s)
        let s3 := if s.hbm.ueSeen.contains key then coreSrc p 15 s2 else s2
        if s3.hbm.ueRun.contains key then s3 else { s3 with hbm := { s3.hbm with ueRun := s3.hbm.ueRun ++ [key] } }
      else s
    | _ => s) s

/-- A unit of HBM that cannot be corrected. -/
def hbmStruck (ev : List HwEvent) (die u : Nat) : Bool :=
  ev.any fun e => match e with | .hbmUe d x => decide (d = die ∧ x = u) | _ => false

/-- Bytes read from unit u of a die on, as they are delivered (R217, R234). -/
def hbmBytes (ev : List HwEvent) (die u : Nat) (raw : List Byte) : List Byte :=
  (List.range raw.length).map fun j => if hbmStruck ev die (u + j / 32) then (0xFF : Byte) else raw.getD j 0

/-- Reads the 128-byte row at byte `a` of region i (R234, R238, R364). -/
def regionRead (ev : List HwEvent) (p i : Nat) (r : RegionD) (a : Nat) (s : State) : List Byte × State :=
  let blank := decide (r.kind = 1) && s.hbm.blank.contains (i * 2 ^ 21 + a / 65536)
  let x := regionByte s i r false a
  let raw := rdMem s.hbm.mem (r.die * 2 ^ 40 + x) 128
  let su := stackUnit (setStacks r.stk).length (x - a) (a / 128) 0
  (if blank then List.replicate 128 0 else hbmBytes ev r.die (x / 32) raw, hbmErrors ev p r.die (rowLane s r (a / 128)).1 su (x / 32) 4 s)

/-- First unit of the area of a die in which part b of the journal lies; the reserved areas follow the program capacity in the order of
R240's table (R240, R241; notes/assumptions/11.md). -/
def journalUnit (b : Nat) : Nat := 6123683840 + b % 2048 * 2 ^ 17
/-- Unit of word w of a dale's stream in the service area (R240; notes/assumptions/11.md). -/
def refillUnit (d w : Nat) : Nat := 6438256640 + d * 2 ^ 18 + w % 2 ^ 18

/-- Reads n bytes of a reserved area from unit u of a die on, its rows in turn over the four stacks. -/
def reservedRead (ev : List HwEvent) (p die u : Nat) (raw : List Byte) (s : State) : List Byte × State :=
  (hbmBytes ev die u raw, hbmErrors ev p die (4 * die + u / 4 % 4) (stackUnit 4 0 (u / 4) 0 + u % 4) u (cdiv raw.length 32) s)

/-- Writes a row at byte `a` of region i; a blank page's other bytes become zero, a committed region drops the write (R238, R239, R364). -/
def regionWrite (p i : Nat) (r : RegionD) (a : Nat) (bytes : List Byte) (s : State) : State :=
  let page := i * 2 ^ 21 + a / 65536
  if r.kind = 2 then progFault 0x14 p s
  else
    let m0 := if r.kind = 1 ∧ s.hbm.blank.contains page ∧ ¬ s.hbm.wr.contains page
      then
        let lo := r.die * 2 ^ 40 + regionByte s i r true (a / 65536 * 65536)
        s.hbm.mem.filter fun c => decide (c.1 < lo ∨ lo + 65536 ≤ c.1)
      else s.hbm.mem
    { s with hbm := { s.hbm with
        mem := wrMem m0 (r.die * 2 ^ 40 + regionByte s i r true a) bytes
        wr := if r.kind = 1 ∧ ¬ s.hbm.wr.contains page then s.hbm.wr ++ [page] else s.hbm.wr } }

/-- Contents of committed regions as the loader and host software write them, where `sel` takes the region (R239, R362). -/
def fillRegions (rs : List RegionD) (sel : Nat → Bool) (data : List (Nat × List Byte)) (s : State) : State :=
  let fill := fun (m : List Host.Cell) (x : Nat × List Byte) =>
    match rs[x.1]? with
    | some r => if r.kind = 2 ∧ sel x.1 then wrMem m (r.die * 2 ^ 40 + r.base) (x.2.take r.size) else m
    | none => m
  { s with hbm := { s.hbm with mem := data.foldl fill s.hbm.mem } }

/-- Bytes of the committed content of region i as host software writes them, from byte `off` on (R239, R424). -/
def writeCommitted (i : Nat) (r : RegionD) (off : Nat) (b : List Byte) (s : State) : State :=
  { s with hbm := { s.hbm with mem := (List.range b.length).foldl (fun m j =>
      mset 0 (r.die * 2 ^ 40 + regionByte s i r false (off + j)) (b.getD j 0) m) s.hbm.mem } }

/-- Region i of the loaded task. -/
def regionAt (s : State) (i : Nat) : Option RegionD :=
  match s.task.img with
  | none => none
  | some im => im.regions[i]?

end Sys2Proof.Machine
end

