-- ==== Sys2Proof/Machine/Operands.lean ====
section
/-! DEFINITION. The fields of an instruction (R78 to R80, R84), its steps and offsets (R86), participation (R56, R57) and the resource
it holds (R97). -/
namespace Sys2Proof.Machine

/-- A field of word 0 (R78). -/
def w0f (i : Ins) (lo w : Nat) : Nat := bfield i.w0.toNat lo w
/-- The 512-bit extension (R84). -/
def insExt (i : Ins) : Nat := i.w1.toNat + 2 ^ 256 * i.w2.toNat

def iUnit (i : Ins) : Nat := w0f i 0 4
def iOp (i : Ins) : Nat := w0f i 4 8
def iLen (i : Ins) : Nat := w0f i 12 2
def iClass (i : Ins) : Nat := w0f i 14 2
/-- Wait field k: object and amount (R80). -/
def iWait (i : Ins) (k : Nat) : Nat × Nat := (w0f i (16 + 14 * k) 6, w0f i (22 + 14 * k) 8)
/-- Signal field k: object, amount, stage (R80). -/
def iSig (i : Ins) (k : Nat) : Nat × Nat × Nat := (w0f i (44 + 18 * k) 6, w0f i (50 + 18 * k) 8, w0f i (58 + 18 * k) 4)
def iCsel (i : Ins) : Nat := w0f i 216 3
def iCtgt (i : Ins) : Nat := w0f i 219 2
def iCstride (i : Ins) : Int := sext 24 (w0f i 221 24)
def iUmod (i : Ins) : Nat := w0f i 245 11
/-- Operand j: kind, selector, offset (R79). -/
def iKind (i : Ins) (j : Nat) : Nat := w0f i (96 + 40 * j) 2
def iSel (i : Ins) (j : Nat) : Nat := w0f i (98 + 40 * j) 6
def iOff (i : Ins) (j : Nat) : Nat := w0f i (104 + 40 * j) 32
/-- Count of level L, minus 1 (R84). -/
def iCount (i : Ins) (l : Nat) : Nat := if l = 0 then w0f i 80 16 else bfield (insExt i) (16 * (l - 1)) 16
/-- Stride of operand j at level L (R84). -/
def iStride (i : Ins) (l j : Nat) : Int := sext 24 (bfield (insExt i) (80 + 72 * l + 24 * j) 24)

/-- Steps in one iteration of level L (R82). -/
def iInner (i : Ins) (l : Nat) : Nat := (List.range l).foldl (fun n k => n * (iCount i k + 1)) 1
/-- S (R99). -/
def iSteps (i : Ins) : Nat := iInner i 6
/-- Index of level L at step k: level 0 innermost (R86). -/
def iIndex (i : Ins) (k l : Nat) : Nat := k / iInner i l % (iCount i l + 1)

/-- Value of a core constant (R53). -/
def constOf (s : State) (p sel : Nat) : Nat :=
  let c := coreAt s p
  match sel with
  | 1 => if c.fenced then 0xFF else c.lidx
  | 2 => c.k
  | 3 => daleOf p
  | 4 => dieOf p
  | 5 => c.modIdx
  | _ => 0

/-- Offset of operand j at step k, 48-bit two's complement (R86). -/
def offsetOf (s : State) (p : Nat) (i : Ins) (j k : Nat) : Int :=
  let lin := (List.range 6).foldl (fun (a : Int) l => a + iIndex i k l * iStride i l j) (iOff i j)
  sext 48 (wrapN 48 (if iCsel i ≠ 0 ∧ iCtgt i = j then lin + constOf s p (iCsel i) * iCstride i else lin))

/-- The value of an immediate operand as step k reads it: its low 32 bits. -/
def immOf (s : State) (p : Nat) (i : Ins) (j k : Nat) : Nat := wrapN 32 (offsetOf s p i j k)

/-- A matrix-side instruction, or one of the post unit's array-facing half (R58). -/
def arrayIns (i : Ins) : Bool := decide (iUnit i = 2) || (decide (iUnit i = 3) && decide (iOp i = 1 ∨ iOp i = 2))

/-- The core participates in the instruction (R56, R57); every threaded core runs what its threads issue. The feeder, the array and the
array-facing half of the post unit of an array-less core never participate (R58, R169). -/
def participates (s : State) (p : Nat) (i : Ins) : Bool :=
  let c := coreAt s p
  (!arrayIns i || hasArray s p) && match c.mode with
  | .threaded => true
  | .halt => false
  | .broadcast =>
    match iClass i with
    | 0 => true
    | 1 => decide (c.lidx < c.k)
    | 2 => decide (c.k ≤ c.lidx ∧ c.lidx < 0xFF)
    | _ => false

/-- Resources of a core: 1 FE unit, 2 MX load path, 3 MX run path, 4 PU input path, 5 PU output path, 6 VX load path, 7 VX store path, 8
VX ALU, 9 CH send path, 10 CH control path, 100 + n stream context n (R97). -/
def resOf (i : Ins) : List Nat :=
  match iUnit i with
  | 1 => if iOp i = 1 ∨ iOp i = 2 ∨ 0x0B ≤ iOp i then [100 + iUmod i % 16] else [1]
  | 2 => if iOp i = 2 then [3] else [2]
  | 3 => if iOp i = 1 then [4] else if iOp i = 4 then [4, 5] else [5]
  | 4 => if iOp i = 1 then [6] else if iOp i = 2 then [7] else [8]
  | 5 => if iOp i = 3 ∨ iOp i = 4 ∨ iOp i = 5 then [9] else [10]
  | _ => []

/-- A queue of a core, by UNIT code 1 to 5. -/
def unitQ (c : Core) (u : Nat) : List Ins := mget [] c.q u

/-- Whether the instruction's resources are free at lc `now` (R99, R100). -/
def resFree (c : Core) (now : Nat) (i : Ins) : Bool := (resOf i).all fun r => decide (mget 0 c.busy r ≤ now)

end Sys2Proof.Machine
end

