-- ==== Sys2Proof/Machine/Flags.lean ====
section
/-! DEFINITION. Flags and progress counters (R258 to R261), waits (R81, R259), the start of an instruction at the head of a unit queue
(R50, R99, R100) with the signals it will fire (R82), and the end of an lc for them. -/
namespace Sys2Proof.Machine

/-- Largest value of an object: a flag F0 to F47, a counter C0 to C7 as 48 to 55 (R258). -/
def objMax (o : Nat) : Nat := if o < 48 then 65535 else 0xFFFFFFFF
/-- Value of an object as waits see it. -/
def objAt (c : Core) (o : Nat) : Nat := mget 0 c.obj o
/-- An addition of this lc (R259). -/
def addObj (p o n : Nat) (s : State) : State :=
  if o < 56 then updCore p (fun c => { c with adds := c.adds ++ [(o, n)] }) s else s
/-- A subtraction of this lc that is no granted wait (R261). -/
def takeObj (p o n : Nat) (s : State) : State :=
  if o < 56 then updCore p (fun c => { c with takes := c.takes ++ [(o, n)] }) s else s
/-- Amount listed for an object. -/
def sumFor (o : Nat) (l : List (Nat × Nat)) : Nat := l.foldl (fun n x => if x.1 = o then n + x.2 else n) 0

/-- Amount an instruction's two wait fields ask of an object (R81). -/
def waitOn (i : Ins) (o : Nat) : Nat :=
  (if (iWait i 0).1 = o then (iWait i 0).2 else 0) + (if (iWait i 1).1 = o then (iWait i 1).2 else 0)
/-- Both waits are satisfied (R81); object 63 is no object. -/
def waitsMet (obj : SMap Nat) (i : Ins) : Bool :=
  [(iWait i 0).1, (iWait i 1).1].all fun o => decide (56 ≤ o) || decide (waitOn i o ≤ mget 0 obj o)
/-- Both amounts are subtracted. -/
def takeWait (k : Nat) (i : Ins) (obj : SMap Nat) : SMap Nat :=
  if (iWait i k).1 < 56 then mset 0 (iWait i k).1 (mget 0 obj (iWait i k).1 - (iWait i k).2) obj else obj
def takeWaits (i : Ins) (obj : SMap Nat) : SMap Nat := takeWait 1 i (takeWait 0 i obj)

/-- The unit has started an instruction in this lc (R50). -/
def hasStarted (c : Core) (now u : Nat) : Bool := decide (mget 0 c.started u = now + 1)

/-- Instructions that unit u's queue held when the lc began: one that has started in it has left (R50). -/
def lenBefore (c : Core) (now u : Nat) : Nat := (unitQ c u).length + b2n (hasStarted c now u)

/-- The head of the queue entered it in this lc, and starts in the next at the earliest (R48). -/
def justCame (c : Core) (now u : Nat) : Bool := decide ((unitQ c u).length = 1 ∧ mget 0 c.came u = now + 1)

/-- The objects as unit u's waits see them: less what lower units that start in this lc take (R259). -/
def objsFor (c : Core) (now u : Nat) : SMap Nat :=
  (List.range u).foldl (fun obj v => match unitQ c v with
    | i :: _ => if !hasStarted c now v && !justCame c now v && resFree c now i && waitsMet obj i then takeWaits i obj else obj
    | [] => obj) c.obj

/-- The instruction that unit u can start now with opcode `op`: the head of its queue, resources free, waits granted (R50). -/
def startable (s : State) (p u op : Nat) : Option Ins :=
  let c := coreAt s p
  match unitQ c u with
  | [] => none
  | i :: _ =>
    if iUnit i = u ∧ iOp i = op ∧ ¬ hasStarted c s.clk.now u ∧ ¬ justCame c s.clk.now u ∧ resFree c s.clk.now i ∧ waitsMet (objsFor c s.clk.now u) i
    then some i else none

/-- When an instruction's steps begin, its step interval, read depth and result depth (R99). -/
structure Timing where
  b : Nat → Nat
  t : Nat
  r : Option Nat
  d : Option Nat

/-- Fixed timing (R99). -/
def fixedAt (s0 w t : Nat) (r d : Option Nat) : Timing := ⟨fun k => s0 + w + k * t, t, r, d⟩

/-- Signals of one field: START at the start, SRCFREE and DONE after the last step, ITERL after the last step of each iteration (R82,
R99). -/
def fieldSigs (i : Ins) (now : Nat) (tm : Timing) (f : Nat × Nat × Nat) : List Sig :=
  let n := iSteps i
  if 56 ≤ f.1 then []
  else match f.2.2 with
    | 0 => [⟨now, f.1, f.2.1⟩]
    | 1 => (match tm.r with | some r => [⟨tm.b (n - 1) + r, f.1, f.2.1⟩] | none => [])
    | 2 => (match tm.d with | some d => [⟨tm.b (n - 1) + d, f.1, f.2.1⟩] | none => [])
    | st => if 8 ≤ st ∧ st < 14 then (match tm.d with
        | some d => (List.range (n / iInner i (st - 8))).map fun k => ⟨tm.b ((k + 1) * iInner i (st - 8) - 1) + d, f.1, f.2.1⟩
        | none => []) else []

/-- The signals an instruction will fire. -/
def insSigs (i : Ins) (now : Nat) (tm : Timing) : List Sig := fieldSigs i now tm (iSig i 0) ++ fieldSigs i now tm (iSig i 1)

/-- The instruction leaves its queue: waits subtracted, resource held, signals planned (R50, R81, R99). -/
def startWith (p u : Nat) (i : Ins) (tm : Timing) (sigs : List Sig) (s : State) : State :=
  updCore p (fun c => { c with
    q := mput u (unitQ c u).tail c.q
    job := { c.job with qth := mset [] u (mget [] c.job.qth u).tail c.job.qth }
    obj := takeWaits i c.obj
    started := mput u (s.clk.now + 1) c.started
    busy := (resOf i).foldl (fun m r => mput r (tm.b (iSteps i - 1) + tm.t) m) c.busy
    sigs := c.sigs ++ sigs
    issue := c.issue + 1 }) s

/-- The start of an instruction with the signals of R82. -/
def startUnit (p u : Nat) (i : Ins) (tm : Timing) (s : State) : State := startWith p u i tm (insSigs i s.clk.now tm) s

/-- An instruction's steps are to be made, each in its own lc. -/
def addWork (p : Nat) (w : Work) (s : State) : State :=
  updCore p (fun c => { c with job := { c.job with work := c.job.work ++ [w] } }) s

/-- A step's write in an lc to come. -/
def addLate (p t : Nat) (ev : List HwEvent) (w : VWr) (s : State) : State :=
  updCore p (fun c => { c with job := { c.job with late := c.job.late ++ [⟨t, w, ev⟩] } }) s

/-- A unit of core p starts an instruction of opcode `op`, if it can: the timing is found, the start takes place, and a participating core
has the effect (R57). -/
def unitRun (p u op : Nat) (tim : Ins → State → Timing) (eff : Ins → Timing → State → State) (s : State) : State :=
  match startable s p u op with
  | none => s
  | some i =>
    let tm := tim i s
    let s1 := startUnit p u i tm s
    if participates s p i then eff i tm s1 else s1

/-- Thread of the instruction at the head of unit u's queue (R254). -/
def thrOf (c : Core) (u : Nat) : Nat := (mget [] c.job.qth u).headD 8

/-- Starts an instruction of fixed timing whose step k acts e lc after b(k) (R99): `pre` is what the start itself does, and a core that does
not participate makes no step (R57); `acc` is what the start itself gathers. -/
def stepRun (p u op e : Nat) (ev : List HwEvent) (tim : Ins → State → Timing) (pre : Ins → State → State) (s : State)
    (acc : Ins → State → Gath := fun _ _ => {}) : State :=
  let th := thrOf (coreAt s p) u
  unitRun p u op tim (fun i tm s =>
    addWork p { ins := i, ev := ev, thr := th, s0 := s.clk.now, due := tm.b 0 + e, t := tm.t, acc := acc i s } (pre i s)) s

/-- A due signal adds to its object in this lc. -/
def fireSig (p : Nat) (g : Sig) (s : State) : State := addObj p g.obj g.amt s

/-- The signals due by now fire, in the order in which they were planned (R82, R260). -/
def fireDue (p : Nat) (s : State) : State :=
  let c := coreAt s p
  let due := c.sigs.filter fun g => decide (g.due ≤ s.clk.now)
  due.foldl (fun s g => fireSig p g s)
    (setCore p { c with sigs := c.sigs.filter fun g => decide (s.clk.now < g.due) } s)

/-- Value of object o at the end of the lc: additions and subtractions together, held between 0 and its maximum (R259, R261). -/
def objEnd (c : Core) (o : Nat) : Nat := min (objAt c o + sumFor o c.adds - sumFor o c.takes) (objMax o)
/-- The net result of the lc leaves the object's range (R261). -/
def objSat (c : Core) (o : Nat) : Bool :=
  decide (objAt c o + sumFor o c.adds < sumFor o c.takes)
    || decide (objMax o + sumFor o c.takes < objAt c o + sumFor o c.adds)

/-- The end of an lc for the objects of core p. -/
def endObjs (p : Nat) (s : State) : State :=
  let c := coreAt s p
  if c.adds.isEmpty ∧ c.takes.isEmpty then s
  else
    let os := (List.range 56).filter fun o => (c.adds ++ c.takes).any fun x => decide (x.1 = o)
    let c1 := { c with obj := os.foldl (fun m o => mset 0 o (objEnd c o) m) c.obj, adds := [], takes := [] }
    let s1 := setCore p c1 s
    if os.any (objSat c) then progFault 0x19 p (chStat p 0 s1) else s1

end Sys2Proof.Machine
end

