-- ==== Sys2Proof/Machine/Cells.lean ====
section
/-! DEFINITION. Cells (R289 to R296): their fields, end-to-end check, and the way from a core into its router stop with credits and the
send buffer (R268, R271, R272). The payloads of OPEN, REPLY, CREDIT and BARRIER cells, which the spec describes and does not lay out, have
the layout of notes/assumptions/15.md. -/
namespace Sys2Proof.Machine

def cDmod (c : FCell) : Nat := bfield c.hdr.toNat 48 16
def cDcore (c : FCell) : Nat := bfield c.hdr.toNat 40 8
def cDep (c : FCell) : Nat := bfield c.hdr.toNat 30 10
def cType (c : FCell) : Nat := bfield c.hdr.toNat 26 4
def cClass (c : FCell) : Nat := bfield c.hdr.toNat 24 2
def cEpoch (c : FCell) : Nat := bfield c.hdr.toNat 20 4
def cValid (c : FCell) : Nat := bfield c.hdr.toNat 14 6
def cFseq (c : FCell) : Nat := bfield c.hdr.toNat 0 14
/-- Group of a multicast cell (R304). -/
def cGroup (c : FCell) : Nat := bfield c.hdr.toNat 36 12
/-- Bytes lo to lo + k - 1 of the payload, as a number. -/
def cPay (c : FCell) (lo k : Nat) : Nat := bfield c.pay.toNat (8 * lo) (8 * k)
/-- The payload's bytes. -/
def cBytes (c : FCell) : List Byte := leBytes 48 c.pay.toNat
def cEcrc (c : FCell) : Nat := bfield c.trl.toNat 32 32

/-- A unicast header (R289). -/
def mkHdr (dmod dcore dep ty cls ep valid fseq : Nat) : W64 :=
  BitVec.ofNat 64 (dmod % 2 ^ 16 * 2 ^ 48 + dcore % 256 * 2 ^ 40 + dep % 1024 * 2 ^ 30 + ty % 16 * 2 ^ 26 + cls % 4 * 2 ^ 24
    + ep % 16 * 2 ^ 20 + valid % 64 * 2 ^ 14 + fseq % 2 ^ 14)
/-- A multicast header (R304). -/
def mkMcHdr (group ty cls ep valid fseq : Nat) : W64 :=
  BitVec.ofNat 64 (0xFFFF * 2 ^ 48 + group % 4096 * 2 ^ 36 + ty % 16 * 2 ^ 26 + cls % 4 * 2 ^ 24 + ep % 16 * 2 ^ 20
    + valid % 64 * 2 ^ 14 + fseq % 2 ^ 14)

/-- Source identity (R293). -/
def srcId (mod core ep : Nat) : Nat := mod % 2 ^ 16 + core % 256 * 2 ^ 16 + ep % 1024 * 2 ^ 24

/-- ECRC of a cell from a source; the member mask of multicast cells is read as 0 (R292, R293). -/
def ecrcOf (src : Nat) (hdr : W64) (pay : BitVec 384) : Nat :=
  let p := if bfield hdr.toNat 48 16 = 0xFFFF then pay.toNat % 2 ^ 320 else pay.toNat
  crc32c (leBytes 8 src ++ leBytes 8 hdr.toNat ++ leBytes 48 p)

/-- A cell with its ECRC. -/
def sealCell (src : Nat) (hdr : W64) (pay : Nat) : FCell :=
  let p := BitVec.ofNat 384 pay
  ⟨hdr, p, BitVec.ofNat 64 (ecrcOf src hdr p * 2 ^ 32)⟩

/-- Types whose cells carry their source identity in payload bytes 0 to 5 and whose FSEQ is 0 and unchecked (R293, R296). -/
def selfNamed (ty : Nat) : Bool := [6, 7, 8, 10, 11, 12].contains ty

/-- LCRC over header, payload and trailer bits [63:16] (R292). -/
def lcrcOf (c : FCell) : Nat :=
  crc16 0x8BB7 0 (leBytes 8 c.hdr.toNat ++ leBytes 48 c.pay.toNat ++ leBytes 6 (c.trl.toNat >>> 16))

/-! ### Names of modules and cores -/

/-- This module's hardware identifier. -/
def ownMod (s : State) : Nat := s.sec.modid
/-- Modules of the task: the domain of `CMT_VTREE`, at least this one (R308, R374). -/
def taskMods (s : State) : Nat := max 1 (fieldAt s (cmtPage + 0x24) 7 16)
/-- Hardware identifier of a logical module (notes/assumptions/16.md). -/
def hwOf (s : State) (m : Nat) : Nat := if m = s.task.modIdx then ownMod s else m
/-- Logical module of a hardware identifier. -/
def logOf (s : State) (h : Nat) : Nat := if h = ownMod s then s.task.modIdx else h

/-- A channel declaration (R263). -/
def chanAt (s : State) (i : Nat) : Option ChanD := match s.task.img with | none => none | some im => im.chans[i]?

/-- Logical module, logical core and endpoint of the peer of core p (R263). -/
def peerOf (s : State) (p : Nat) (d : ChanD) : Nat × Nat × Nat :=
  let c := coreAt s p
  let m := if d.mrel then (if d.mcount = 0 then c.modIdx + d.pmod else (c.modIdx + d.pmod) % d.mcount) else d.pmod
  let k := if d.pmodk = 0 then c.k else d.pmodk
  (m, (d.pbase + d.pmul * c.lidx) % (max k 1), d.pep)

/-- Endpoint e of a core. -/
def epAt (c : Core) (e : Nat) : Ep := mget {} c.ch.ep e
/-- The core with endpoint e changed by f. -/
def updEp (p e : Nat) (f : Ep → Ep) (s : State) : State :=
  updCore p (fun c => { c with ch := { c.ch with ep := mset {} e (f (epAt c e)) c.ch.ep } }) s

/-- Virtual channel of a channel (R291). -/
def chanVc (d : ChanD) : Nat := if d.classes = 1 then 2 else 0
/-- Lowest class a channel allows (R290). -/
def lowClass (d : ChanD) : Nat := if bbit d.classes 0 then 0 else if bbit d.classes 1 then 1 else 2

/-- Router stop of a core on its die (R298): die, x, y. -/
def stopOf (p : Nat) : Nat × Nat × Nat :=
  let dl := daleOf p % 6
  let q := p % 16
  if p < 96 then (0, 2 * dl + q / 8, q % 8) else (1, 2 * (5 - dl) + q / 8, q % 8)
/-- Key of a stop. -/
def stopKey (die x y : Nat) : Nat := die * 96 + y * 12 + x

/-- Puts a cell at the end of an input of a stop, which holds it 2 lc (R299). -/
def enterStop (key input : Nat) (r : RCell) (s : State) : State :=
  let st := mget {} s.fab.stop key
  let q := mget [] st.ins input ++ [{ r with rdy := s.clk.now + 2 }]
  { s with fab := { s.fab with stop := mput key { st with ins := mput input q st.ins } s.fab.stop } }

/-- A cell is written into a col; it is read `l` lc later (R28). -/
def intoCol (l : Nat) (dst : ColTo) (r : RCell) (s : State) : State :=
  { s with fab := { s.fab with col := s.fab.col ++ [⟨s.clk.now + l, dst, r⟩] } }
/-- Lc of a hop through a col: R28's 6 (R299). -/
def colLcs : Nat := 6
/-- Lc of a hop between a stop and an edge stop of another region: the col, and the edge stop's 2 (R299; notes/assumptions/67.md). -/
def edgeLcs : Nat := 8
/-- Lc of a hop across the saddle: the cols of its two regions, the saddle's 14, and 2 for each saddle stop (R28, R299;
notes/assumptions/67.md). -/
def saddleLcs : Nat := 30

/-- A cell leaves core p, from endpoint `ep`, into the core input of its router stop. -/
def leaveCore (p ep vc : Nat) (cell : FCell) (s : State) : State :=
  let (die, x, y) := stopOf p
  enterStop (stopKey die x y) 0 { cell := cell, src := p, sep := ep, vc := vc } s

/-- A self-named cell from core p's endpoint: payload bytes 0 to 5 name the source. -/
def selfCell (s : State) (p ep dmod dcore dep ty epoch : Nat) (rest : Nat) : FCell :=
  let src := srcId (ownMod s) p ep
  sealCell src (mkHdr dmod dcore dep ty 3 epoch 0 0) (src + rest * 2 ^ 48)

/-- Reply codes of REPLY cells (notes/assumptions/15.md). -/
def rAccept : Nat := 0
def rRefuse : Nat := 1
def rClosed : Nat := 2
def rMiss : Nat := 3
def rFord : Nat := 4
def rFenced : Nat := 5

/-- One credit goes from endpoint `ep` to the sender of the cell `fseq` (R269). -/
def creditTo (p ep fseq : Nat) (dst : Nat × Nat × Nat) (s : State) : State :=
  leaveCore p ep 1 (selfCell s p ep dst.1 dst.2.1 dst.2.2 8 0 (1 + fseq * 2 ^ 16)) s

/-- Module, core and endpoint that an endpoint is bound to. -/
def Ep.peer (x : Ep) : Nat × Nat × Nat := (x.peerMod, x.peerCore, x.peerEp)
/-- The source an endpoint is bound to, or was bound to before in the tick (R273). -/
def Ep.source (x : Ep) : Option (Nat × Nat × Nat) := if x.bnd then some x.peer else x.was

/-- A reply from endpoint `ep` of core p to a source: code in byte 6, reason or epoch in byte 7, type, FSEQ and tag of the cell answered in
bytes 11 to 15. -/
def replyTo (p ep : Nat) (dst : Nat × Nat × Nat) (code arg ty fseq tag : Nat) (s : State) : State :=
  let rest := code + arg * 2 ^ 8 + ty * 2 ^ 40 + fseq * 2 ^ 48 + tag * 2 ^ 64
  leaveCore p ep 1 (selfCell s p ep dst.1 dst.2.1 dst.2.2 7 0 rest) s

/-- Drops a cell at the sender (R268, R271, R272). -/
def dropSend (p : Nat) (s : State) : State := note (.add (corePage p + 0x94) 0 16 1) s
/-- Discards a cell at the receiver (R270, R380). -/
def dropRecv (p : Nat) (s : State) : State := note (.add (corePage p + 0x94) 16 16 1) s

/-- Why a send on an endpoint is or is not made (R271, R272). -/
inductive SendUse where
  | ok (d : ChanD)
  | quiet
  | unopen
  | badClass
  deriving DecidableEq, Repr

/-- A send of class `cls` on endpoint e of core p, of a channel of one of the roles (R272). -/
def sendUse (s : State) (p e cls : Nat) (mc : Bool) : SendUse :=
  let x := epAt (coreAt s p) e
  if x.st = 5 ∨ x.st = 6 then .quiet
  else match chanAt s x.decl with
    | none => .unopen
    | some d =>
      if x.st ≠ 3 ∨ d.role ≠ (if mc then 2 else 0) then .unopen
      else if bbit d.classes cls then .ok d else .badClass

/-- What a refused send leaves behind (R271, R272). -/
def sendRefused (p : Nat) (u : SendUse) (s : State) : State :=
  match u with
  | .ok _ => s
  | .quiet => dropSend p s
  | .unopen => progFault 0x1D p (chStat p 4 (dropSend p s))
  | .badClass => progFault 0x1D p (chStat p 8 (dropSend p s))

/-- Cells of endpoint e wait in the send buffer. -/
def hasBuffered (c : Core) (e : Nat) : Bool := c.ch.sbuf.any fun x => decide (x.ep = e)

/-- Sends one cell on endpoint e: with a credit it leaves at once, else it waits in the send buffer of 64, else it is dropped as late
(R268); a cell without credit stays behind the channel's earlier cells. -/
def sendCell (p e vc : Nat) (credit : Bool) (cell : FCell) (s : State) : State :=
  let c := coreAt s p
  let x := epAt c e
  if ¬ hasBuffered c e ∧ (¬ credit ∨ 0 < x.credits) then
    let s1 := if credit then updEp p e (fun x => { x with credits := x.credits - 1 }) s else s
    countAt p s.clk.now 7 1 (leaveCore p e vc cell s1)
  else if c.ch.sbuf.length < 64 then
    updCore p (fun c => { c with ch := { c.ch with sbuf := c.ch.sbuf ++ [⟨e, credit, cell⟩] } }) s
  else coreSrc p 6 (chStat p 5 (dropSend p s))

/-- Sends the next cell of endpoint e's flow, built from its sequence number (R296). -/
def sendFlow (p e vc : Nat) (credit : Bool) (mk : Nat → FCell) (s : State) : State :=
  let n := (epAt (coreAt s p) e).fseq
  sendCell p e vc credit (mk n) (updEp p e (fun x => { x with fseq := (x.fseq + 1) % 16384 }) s)

/-- A unicast cell of the channel of endpoint e to its bound peer. -/
def chanCell (s : State) (p e ty cls valid pay fseq : Nat) : FCell :=
  let x := epAt (coreAt s p) e
  sealCell (srcId (ownMod s) p e) (mkHdr x.peerMod x.peerCore x.peerEp ty cls x.pepoch valid fseq) pay

/-- A fabric instruction of a broadcast core that starts before lc 8,192 of the tick, here at lc t of the module's count, is dropped and
reported (R380). -/
def tooEarlyAt (s : State) (p t : Nat) : Bool := decide ((coreAt s p).mode ≠ .threaded) && decide (tickLc s t < 8192)

/-- A step of a fabric instruction that started at lc t. -/
def fabricStep (p t : Nat) (f : State → State) (s : State) : State := if tooEarlyAt s p t then progFault 0x22 p s else f s

end Sys2Proof.Machine
end

