-- ==== Sys2Proof/Machine/Batch.lean ====
section
/-! DEFINITION. A batch part as the journal holds it and `FEBATCH` delivers it (R331, R332, R390). -/
namespace Sys2Proof.Machine

/-- Read words of a stored packet (R325). -/
def pktWords (b : List Byte) : Nat := cdiv b.length 64
/-- Read words of packets. -/
def allWords (l : List (List Byte × Bool)) : Nat := l.foldl (fun n x => n + pktWords x.1) 0

/-- Index entries from a first read word on (R332). -/
def idxEntries : Nat → List (List Byte × Bool) → List Byte
  | _, [] => []
  | w, x :: t => leBytes 4 (w + (pktWords x.1 - 1) * 2 ^ 17 + ((x.1.length - 1) % 64 + 1) * 2 ^ 23 + b2n x.2 * 2 ^ 30)
      ++ idxEntries (w + pktWords x.1) t

/-- A batch part as its 128-byte rows (R332), FLAGS bit 3 as given. -/
def partBytes (batch die : Nat) (pkts : List (List Byte × Bool)) (overrun refused restart : Bool) : List Byte :=
  let row0 := leBytes 8 (batch % 2 ^ 48) ++ leBytes 4 pkts.length ++ leBytes 4 (allWords pkts) ++ leBytes 1 die
    ++ leBytes 1 (b2n pkts.isEmpty + 2 * b2n overrun + 4 * b2n refused + 8 * b2n restart)
  let idx := idxEntries 0 pkts
  let data := pkts.flatMap fun x => padTo (64 * pktWords x.1) 0 x.1
  padTo 128 0 row0 ++ padTo (128 * cdiv pkts.length 32) 0 idx ++ padTo (128 * cdiv (allWords pkts) 2) 0 data

/-- The journal entry of a die's part of batch b. -/
def partAt (s : State) (die b : Nat) : Option JEnt := s.cmt.jnl.find? fun e => decide (e.die = die ∧ e.slot = b)

/-- A die's part of batch b with RESTART as given; a batch that no entry holds is empty. -/
def batchPart (s : State) (die b : Nat) (restart : Bool) : List Byte :=
  match partAt s die b with
  | some e => partBytes b die e.pkts e.overrun e.refused restart
  | none => partBytes b die [] false false restart

/-- What `FEBATCH` delivers to a core of a die: the next batch, or the batch after it, which is empty unless the tick takes two (R334). -/
def tickPart (s : State) (die which : Nat) : List Byte :=
  if which = 0 then batchPart s die s.cmt.batch s.task.restart
  else if s.cmt.two then batchPart s die (s.cmt.batch + 1) s.task.restart
  else partBytes (s.cmt.batch + 1) die [] false false s.task.restart

end Sys2Proof.Machine
end

