-- ==== Sys2Proof/Machine/Fetch.lean ====
section
/-! DEFINITION. The fetch engine: stream contexts and credits (R242 to R245), planned beats (R99, R233, R244), elastic requests (R106,
R107, R247, R248, R294, R295) and the host overflow window (R249 to R253). -/
namespace Sys2Proof.Machine

/-- Stream context n. -/
def ctxAt (c : Core) (n : Nat) : Ctx := mget {} c.fe.ctx n
/-- The core with context n changed by f. -/
def updCtx (p n : Nat) (f : Ctx → Ctx) (s : State) : State :=
  updCore p (fun c => { c with fe := { c.fe with ctx := mset {} n (f (ctxAt c n)) c.fe.ctx } }) s
/-- A stream declaration (R243). -/
def strmAt (s : State) (i : Nat) : Option StreamD := match s.task.img with | none => none | some im => im.strms[i]?
/-- An inbound stream (R244). -/
def isInbound (d : StreamD) : Bool := decide (d.kind = 0 ∨ d.kind = 1 ∨ d.kind = 4)

/-- Unbinds context n as `FECLOSE` does: an inbound stream's credits are taken from its flag (R242, R244). -/
def closeCtx (p n : Nat) (s : State) : State :=
  let x := ctxAt (coreAt s p) n
  if x.state = 0 then s
  else
    let s1 := match strmAt s x.decl with
      | some d => if isInbound d then takeObj p d.cred (d.ringm1 + 1) s else s
      | none => s
    updCtx p n (fun _ => {}) s1

/-! ### Planned steps -/

/-- Beats of the plan stream of context n for core p, in plan order; a core that does not participate goes by the stream's first
position (R57, R99, R232). -/
def planBeats (s : State) (p n : Nat) (part : Bool) : List Beat :=
  match s.task.img, strmAt s (ctxAt (coreAt s p) n).decl with
  | some im, some d =>
    let l := (im.beats.getD (dieOf p) []).filter fun b => decide (b.stream = d.plan)
    let pos := if part then p % 96 else (l.head?.map (·.pos)).getD 0
    l.filter fun b => decide (b.pos = pos)
  | _, _ => []

/-- Key of a core's place in a plan stream. -/
def cursorKey (s : State) (p n : Nat) : Nat :=
  p * 256 + (match strmAt s (ctxAt (coreAt s p) n).decl with | some d => d.plan | none => 0)

/-- Lc of a beat, when it belongs to the dale's segment and is not past (R233). -/
def beatLc (s : State) (p : Nat) (b : Beat) : Option Nat :=
  let d := daleAt s (daleOf p)
  let t := s.clk.now + d.seg + b.lc - s.clk.lc
  if b.seg = d.segNo ∧ s.clk.now ≤ t then some t else none

/-- Step lcs from the beats at hand: a step without a beat falls in the lc after the step before it. -/
def planTimes (prev : Nat) : List (Option Nat) → List Nat
  | [] => []
  | some t :: r => t :: planTimes (t + 1) r
  | none :: r => prev :: planTimes (prev + 1) r

/-- The beats of the steps of an instruction on context n. -/
def stepBeats (s : State) (p n : Nat) (i : Ins) : List (Option Beat) :=
  let bs := planBeats s p n (participates s p i)
  let k0 := mget 0 s.task.cursor (cursorKey s p n)
  (List.range (iSteps i)).map fun k => (bs[k0 + k]?).filter fun b => (beatLc s p b).isSome && decide ((ctxAt (coreAt s p) n).state ≠ 0)

/-- Plan timing (R99); a threaded core has no plan, and its steps follow lc by lc. -/
def planTiming (p : Nat) (d : Nat) (i : Ins) (s : State) : Timing :=
  if (coreAt s p).mode = .threaded then ⟨fun k => s.clk.now + k, 1, some 2, some d⟩
  else
    let l := planTimes s.clk.now ((stepBeats s p (iUmod i % 16) i).map fun b => b.bind (beatLc s p))
    ⟨fun k => l.getD k s.clk.now, 1, some 2, some d⟩

/-- The first operand of a kind. -/
def operandOf (i : Ins) (kind : Nat) : Option Nat := (List.range 3).find? fun j => decide (iKind i j = kind)

/-- Offset of an instruction's memory or basin operand with the context's base (R242). -/
def basedOff (s : State) (p : Nat) (i : Ins) (j k : Nat) (mem : Bool) : Int :=
  let x := ctxAt (coreAt s p) (iUmod i % 16)
  sext 48 (wrapN 48 (offsetOf s p i j k + (if mem then x.baseA else x.baseB)))

/-- The step's memory operand: region number, region, byte offset, when it lies inside the region (R87). -/
def memOperand (s : State) (p : Nat) (i : Ins) (k : Nat) (based : Bool) (bytes : Nat) : Option (Nat × RegionD × Nat) :=
  match operandOf i 2 with
  | none => none
  | some j =>
    let off := if based then basedOff s p i j k true else offsetOf s p i j k
    match regionAt s (iSel i j) with
    | none => none
    | some r => if 0 ≤ off ∧ 32 * off + bytes ≤ r.size then some (iSel i j, r, 32 * off.toNat) else none

/-- The step's basin operand: handle and byte offset. -/
def basinOperand (s : State) (p : Nat) (i : Ins) (k : Nat) (based : Bool) : Nat × Int :=
  match operandOf i 1 with
  | none => (0, -1)
  | some j => (iSel i j, if based then basedOff s p i j k false else offsetOf s p i j k)

/-- The lane that the step's address reaches is the beat's (R233, R237); operands outside HBM have none. -/
def laneFits (s : State) (p : Nat) (i : Ins) (k : Nat) (b : Beat) : Bool :=
  match memOperand s p i k true 128 with
  | none => true
  | some (_, r, a) => decide (r.kind = 3) || (decide (a % 128 = 0) && decide (rowLane s r (a / 128) = (b.stack, b.lane)))

/-- A plan mismatch (R233). -/
def planMis (p : Nat) (s : State) : State := progFault 0x13 p (feStat p 3 s)

/-- The entry of a granule of a port's window (R249). -/
def xlatAt (s : State) (port : Port) (g : Nat) : W64 := mget 0 (hpAt s port).xlat g

/-- An entry of a port's window as a use of it finds it: a disagreement with the complement that no copy repairs reads as unmapped (R249,
R395). -/
def xlatUse (ev : List HwEvent) (s : State) (port : Port) (g : Nat) : W64 := if ev.contains .tableCmp then 0 else xlatAt s port g

/-- A translation miss of core p at a granule: status, source, the port's first missed granule and its interrupt (R252, R253). -/
def xlatMiss (p : Nat) (port : Port) (g : Nat) (s : State) : State :=
  let a := hpPage port + 0x10C
  let s1 := coreSrc p 7 (feStat p 2 s)
  let s2 := if bbit (regAt s1 a) 31 then s1 else irqRaise (hpPage port / 0x1000) (1 <<< 8) (setReg a (g % 2 ^ 23 + 2 ^ 31) s1)
  if (coreAt s p).mode = .threaded then s2
  else { s2 with cmt := { s2.cmt with
      missSlots := some (s2.cmt.missSlots.getD 0)
      missPorts := if s2.cmt.missPorts.contains port then s2.cmt.missPorts else s2.cmt.missPorts ++ [port] } }

/-- Appends a row to the egress record `seq` of a die, made when it is not there (R107, R337). -/
def stageEgress (die seq : Nat) (row : List Byte) (s : State) : State :=
  if s.host.egr.any fun e => decide (e.die = die ∧ e.seq = seq)
  then { s with host := { s.host with egr := s.host.egr.map fun e => if e.die = die ∧ e.seq = seq then { e with rows := e.rows ++ row } else e } }
  else { s with host := { s.host with egr := s.host.egr ++ [⟨die, seq, row⟩] } }

/-- Lc at which the row of a load reaches the basin: the bank's last deposit slot by lc t, which the memory plan assigns (R202, R231;
notes/assumptions/9.md). -/
def depLc (s : State) (bank t : Nat) : Nat :=
  match s.task.img with
  | none => t
  | some im => t - (tickLc s t + 16 * 2 ^ im.slot - bank) % 2 ^ im.slot

/-- A row of a planned load is on its way into the basin. -/
def sendDep (ev : List HwEvent) (p h : Nat) (off : Int) (d : Nat) (row : List Byte) (s : State) : State :=
  addLate p (max s.clk.now (depLc s ((hndAt (coreAt s p) h).bank (off.toNat / 128)) (s.clk.now + d - 1))) ev (.dep h off row) s

/-- A thread's stream halts (R254). -/
def haltHere (p code : Nat) (addr : Nat) (s : State) : State :=
  updCore p (fun c => { c with job := { c.job with halt := some (code, BitVec.ofNat 64 addr) } }) s

/-- Die whose HBM the instruction's memory operand names. -/
def memDie (s : State) (i : Ins) : Option Nat :=
  match operandOf i 2 with | none => none | some j => (regionAt s (iSel i j)).map (·.die)

/-- Result depth of a planned instruction (R105, R107). -/
def planDepth (s : State) (p : Nat) (i : Ins) : Nat :=
  if iOp i = 0x01 then (if memDie s i = some (dieOf p) then 190 else 222) else if iOp i = 0x0C then 190 else 150

/-- One planned step in its lc, its beat and credit found: one row moves (R105, R107, R231, R244). -/
def makeBeat (ev : List HwEvent) (p : Nat) (i : Ins) (k : Nat) (s : State) : State :=
  let (h, off) := basinOperand s p i k true
  let s0 := countAt p s.clk.now 5 1 s
  match iOp i with
  | 0x01 =>
    (match memOperand s p i k true 128 with
    | none => sendDep ev p h off (planDepth s p i) (List.replicate 128 0) (progFault 0x03 p s0)
    | some (ri, r, a) =>
      let x := regionByte s ri r false a
      let (row, s1) := regionRead ev p ri r a s0
      let s2 := gcount 1 (rowLane s r (a / 128)).1 1 s1
      if (coreAt s p).mode = .threaded ∧ (List.range 4).any (fun j => hbmStruck ev r.die (x / 32 + j)) then haltHere p 2 x (regionRead ev p ri r a s).2
      else sendDep ev p h off (planDepth s p i) row s2)
  | 0x02 =>
    let (row, s1) := exRead ev p h off 128 s0
    (match memOperand s p i k true 128 with
    | none => progFault 0x03 p s1
    | some (ri, r, a) => regionWrite p ri r a row (gcount 1 (rowLane s r (a / 128)).1 1 s1))
  | 0x0B =>
    let (row, s1) := exRead ev p h off 128 s0
    (match memOperand s p i k true 128 with
    | none => progFault 0x03 p s1
    | some (_, r, a) =>
      let w := r.wbase * 65536 + a
      let g := w / 2 ^ 21
      let e := xlatUse ev s r.port g
      let ok := bbit e.toNat 0 && bbit e.toNat 1
      let s2 := if ok then s1 else xlatMiss p r.port g s1
      if !ok && decide ((coreAt s p).mode = .threaded) then haltHere p 1 w (xlatMiss p r.port g s)
      else { s2 with host := { s2.host with ovw := s2.host.ovw ++ [⟨r.port, e.toNat / 2 ^ 21 * 2 ^ 21 + w % 2 ^ 21, g, row, ok⟩] } })
  | 0x0C =>
    let which := immOf s p i 2 0
    let raw := padTo 128 0 (slice (128 * k) 128 (tickPart s (dieOf p) which))
    let (row, s1) := reservedRead ev p (dieOf p) (journalUnit (s.cmt.batch + which) + 4 * k) raw s0
    sendDep ev p h off (planDepth s p i) row s1
  | _ =>
    let (row, s1) := exRead ev p h off 128 s0
    stageEgress (dieOf p) (immOf s p i 2 0 % 65536) row s1

/-- Credits that a beat of this lc finds in a flag (R244, R259). -/
def creditsOf (c : Core) (o : Nat) : Nat := objAt c o - sumFor o c.takes

/-- A step with its beat in its lc: with a credit it takes it and is made, without one it is not (R244). -/
def creditBeat (ev : List HwEvent) (p : Nat) (part : Bool) (i : Ins) (k : Nat) (s : State) : State :=
  match strmAt s (ctxAt (coreAt s p) (iUmod i % 16)).decl with
  | none => s
  | some d =>
    if d.cred < 56 ∧ creditsOf (coreAt s p) d.cred = 0 then progFault 0x15 p (feStat p 0 s)
    else
      let s1 := takeObj p d.cred 1 s
      if part then makeBeat ev p i k s1 else s1

/-- The loop indices of step k. -/
def stepIdx (i : Ins) (k : Nat) : List Nat := (List.range 6).map fun l => iIndex i k l

/-- A step of a planned instruction in its own lc: the context shows its indices, and its beat is made or not (R233, R244, R255). -/
def planStep (p : Nat) (w : Work) (s : State) : State :=
  let n := iUmod w.ins % 16
  let s1 := updCtx p n (fun x => if x.state = 0 then x else { x with idx := stepIdx w.ins w.k }) s
  if (coreAt s p).mode = .threaded then makeBeat w.ev p w.ins w.k s1
  else match (w.beats.head?).bind (·.2) with
    | none => if w.part then planMis p s1 else s1
    | some b =>
      if (ctxAt (coreAt s p) n).state = 0 ∨ (w.part ∧ ¬ laneFits s p w.ins w.k b) then (if w.part then planMis p s1 else s1)
      else creditBeat w.ev p w.part w.ins w.k s1

/-- Starts a planned instruction of core p: its steps follow, each in the lc of its beat; credits move on every core alike, rows only where
the core participates (R57, R99). -/
def planRun (ev : List HwEvent) (p op : Nat) (pre : Ins → State → State) (s : State) : State :=
  match startable s p 1 op with
  | none => s
  | some i =>
    let n := iUmod i % 16
    let part := participates s p i
    let tm := planTiming p (planDepth s p i) i s
    let beats := stepBeats s p n i
    let th := thrOf (coreAt s p) 1
    let s1 := startUnit p 1 i tm s
    let key := cursorKey s p n
    let s2 := updCtx p n (fun x => if x.state = 0 then x else { x with state := 2, thr := th }) s1
    let s3 := { s2 with task := { s2.task with cursor := mput key (mget 0 s2.task.cursor key + iSteps i) s2.task.cursor } }
    addWork p { ins := i, ev := ev, part := part, thr := th, s0 := s.clk.now, due := tm.b 0,
                beats := (List.range (iSteps i)).map fun k => (tm.b k, beats.getD k none) } (if part then pre i s3 else s3)

/-- FELOAD (R105). -/
def execFeload (p : Nat) (ev : List HwEvent) (s : State) : Host.Outcome State Fault Refusal :=
  guarded (okCore p) "core" (planRun ev p 0x01 (fun _ s => s)) s
/-- FESTORE (R105). -/
def execFestore (p : Nat) (ev : List HwEvent) (s : State) : Host.Outcome State Fault Refusal :=
  guarded (okCore p) "core" (planRun ev p 0x02 (fun _ s => s)) s
/-- FEOVWR (R107). -/
def execFeovwr (p : Nat) (ev : List HwEvent) (s : State) : Host.Outcome State Fault Refusal :=
  guarded (okCore p) "core" (planRun ev p 0x0B (fun _ s => s)) s
/-- FEBATCH (R107). -/
def execFebatch (p : Nat) (ev : List HwEvent) (s : State) : Host.Outcome State Fault Refusal :=
  guarded (okCore p) "core" (planRun ev p 0x0C (fun _ s => s)) s
/-- An `FEEGR` of the number still makes its steps on some core. -/
def egressRuns (s : State) (seq : Nat) : Bool :=
  s.cores.any fun c => c.2.job.work.any fun w =>
    decide (iUnit w.ins = 1 ∧ iOp w.ins = 0x0D) && w.part && decide (immOf s c.1 w.ins 2 0 % 65536 = seq)
/-- Two records of one tick with one number (R107). -/
def egressCheck (p : Nat) (i : Ins) (s : State) : State :=
  let seq := immOf s p i 2 0 % 65536
  if egressRuns s seq ∨ s.host.egr.any (fun e => decide (e.seq = seq)) then progFault 0x05 p s else s
/-- FEEGR (R107). -/
def execFeegr (p : Nat) (ev : List HwEvent) (s : State) : Host.Outcome State Fault Refusal :=
  guarded (okCore p) "core" (planRun ev p 0x0D (egressCheck p)) s

/-! ### Contexts -/

/-- Binds a context (R242, R244): the bases are operand offsets, the credits come at DONE. -/
def armCtx (p : Nat) (i : Ins) (tm : Timing) (s : State) : State :=
  let n := iUmod i % 16
  let s1 := closeCtx p n s
  let di := immOf s p i 2 0
  match strmAt s1 di with
  | none => progFault 0x03 p s1
  | some d =>
    let s2 := updCtx p n (fun _ => { state := 1, decl := di, baseA := offsetOf s p i 0 0, baseB := offsetOf s p i 1 0 }) s1
    if isInbound d ∧ d.cred < 56
    then updCore p (fun c => { c with sigs := c.sigs ++ [⟨tm.b (iSteps i - 1) + 8, d.cred, d.ringm1 + 1⟩] }) s2 else s2

/-- Starts a context instruction: it reads and writes nothing, so it acts on every core (R57). -/
def ctxRun (p op d : Nat) (eff : Ins → Timing → State → State) (s : State) : State :=
  match startable s p 1 op with
  | none => s
  | some i =>
    let tm := fixedAt s.clk.now 0 1 none (some d)
    let th := thrOf (coreAt s p) 1
    updCtx p (iUmod i % 16) (fun x => if x.state = 0 then x else { x with thr := th }) (eff i tm (startUnit p 1 i tm s))

/-- FEARM (R242). -/
def execFearm (p : Nat) (s : State) : Host.Outcome State Fault Refusal :=
  guarded (okCore p) "core" (ctxRun p 0x03 8 (armCtx p)) s
/-- A step of `FEREARM` adds the operands' offsets to the bases (R242). -/
def rearmCtx (p : Nat) (i : Ins) (k : Nat) (s : State) : State :=
  updCtx p (iUmod i % 16) (fun x => { x with
    baseA := sext 48 (wrapN 48 (x.baseA + offsetOf s p i 0 k)), baseB := sext 32 (wrapN 32 (x.baseB + offsetOf s p i 1 k)) }) s
/-- FEREARM (R242): its steps act on every core (R57). -/
def execFerearm (p : Nat) (s : State) : Host.Outcome State Fault Refusal :=
  guarded (okCore p) "core" (ctxRun p 0x04 4 (fun i tm s => addWork p { ins := i, s0 := s.clk.now, due := tm.b 0 } s)) s
/-- FECLOSE (R244). -/
def execFeclose (p : Nat) (s : State) : Host.Outcome State Fault Refusal :=
  guarded (okCore p) "core" (ctxRun p 0x05 4 (fun i _ s => closeCtx p (iUmod i % 16) s)) s

/-! ### Elastic requests -/

/-- The lowest free tag below n. -/
def freeTag {α : Type} (m : SMap α) (n : Nat) : Option Nat := findN n fun t => !(m.any fun x => decide (x.1 = t))
/-- No tag is free (R247). -/
def tagExhausted (p : Nat) (s : State) : State := progFault 0x17 p (feStat p 1 s)

/-- Payload of an FREAD or of the third cell of an FWRITE group: data, then the descriptor from byte 32 on (R294). -/
def descPay (data off row tag lenm1 : Nat) : Nat :=
  data % 2 ^ 256 + off % 2 ^ 32 * 2 ^ 256 + row % 256 * 2 ^ 288 + tag % 2 ^ 16 * 2 ^ 296 + lenm1 % 256 * 2 ^ 312

/-- Rows enter the deposit buffer, and past its 64 rows wait upstream, in order (R202). -/
def addDeps (p : Nat) (l : List Dep) (s : State) : State :=
  updCore p (fun c =>
    let all := c.bsn.dep ++ c.bsn.up ++ l
    let room := 64 - c.fe.groups.length
    { c with bsn := { c.bsn with dep := all.take room, up := all.drop room } }) s

/-- Rows the deposit buffer holds: those that wait for a slot, and each row group whose third cell has not come (R202, R294). -/
def depRows (c : Core) : Nat := c.bsn.dep.length + c.bsn.up.length + c.fe.groups.length

/-- Rows of an elastic read enter the deposit buffer in row order (R202, R248). -/
def queueRows (p h : Nat) (off : Nat) (rows : List (List Byte)) (mtag ftag : Option Nat) (s : State) : State :=
  let e := hndAt (coreAt s p) h
  let n := rows.length
  addDeps p ((List.range n).map fun j =>
    let row := off / 128 + j
    ({ cls := 3, bank := e.bank row, row := e.prow true row, bytes := rows.getD j [], hnd := h, lrow := row,
       mtag := if j + 1 = n then mtag else none, ftag := if j + 1 = n then ftag else none } : Dep)) s

/-- Whether the destination of an elastic read is a handle the core may write (R87, R207, R211). -/
def elasticDest (p h : Nat) (off : Int) (bytes : Nat) (s : State) : Option State :=
  match hndUse [] p h off bytes s with
  | .ok _ => none
  | .mismatch => some (hndMismatch p s)
  | .bounds => some (progFault 0x03 p s)

/-- One step of `FEFABRD`: a read request with a fabric tag and no credit (R294, R295); through a destination that may not be written it is
not made (R87). -/
def fabReadStep (p : Nat) (i : Ins) (k : Nat) (s : State) : State :=
  let e := (offsetOf s p i 0 k).toNat
  let rows := iUmod i / 16 % 32 + 1
  let (h, off) := basinOperand s p i k false
  match sendUse s p e 1 false with
  | .ok d =>
    (match elasticDest p h off (128 * rows) s with
    | some s1 => s1
    | none =>
      match freeTag (coreAt s p).fe.ftags 384 with
      | none => tagExhausted p s
      | some tag =>
        let s1 := updCore p (fun c => { c with fe := { c.fe with ftags := mput tag { rows := rows, hnd := h, off := off.toNat, ep := e } c.fe.ftags } })
          (countAt p s.clk.now 6 1 s)
        sendFlow p e (chanVc d) false (fun n => chanCell s1 p e 3 1 0 (descPay 0 (immOf s p i 2 k) 0 tag (rows - 1)) n) s1)
  | u => sendRefused p u s

/-- FEFABRD (R106). -/
def execFefabrd (p : Nat) (s : State) : Host.Outcome State Fault Refusal :=
  guarded (okCore p) "core" (stepRun p 1 0x08 0 [] (fun _ s => fixedAt s.clk.now 0 1 (some 1) none) (fun _ s => s)) s

/-- One step of `FEFABWR`: a basin row as three cells with a credit each, and a fabric tag (R106, R268, R294, R295). -/
def fabWriteStep (ev : List HwEvent) (p : Nat) (i : Ins) (k : Nat) (s : State) : State :=
  let e := (offsetOf s p i 1 k).toNat
  let cls := iUmod i / 512 % 4
  match sendUse s p e cls false with
  | .ok d =>
    (match freeTag (coreAt s p).fe.ftags 384 with
    | none => tagExhausted p s
    | some tag =>
      let (row, s1) := exRead ev p (iSel i 0) (offsetOf s p i 0 k) 128 s
      let third := ((epAt (coreAt s1 p) e).fseq + 2) % 16384
      let s2 := updCore p (fun c => { c with fe := { c.fe with ftags := mput tag { rows := 0, ep := e, fseq := some third } c.fe.ftags } })
        (countAt p s.clk.now 6 1 s1)
      let cell := fun (valid pay : Nat) (s : State) => sendFlow p e (chanVc d) true (fun n => chanCell s p e 2 cls valid pay n) s
      cell 32 (descPay (leAt 96 32 row) (immOf s p i 2 k) 0 0 0) (cell 48 (leAt 48 48 row) (cell 48 (leAt 0 48 row) s2)))
  | u => sendRefused p u (dropSend p (dropSend p s))

/-- FEFABWR (R106). -/
def execFefabwr (p : Nat) (ev : List HwEvent) (s : State) : Host.Outcome State Fault Refusal :=
  guarded (okCore p) "core" (stepRun p 1 0x09 0 ev (fun _ s => fixedAt s.clk.now 0 3 (some 4) none) (fun _ s => s)) s

/-- A port's maximum read request size: one of PCIe's, 128 to 4,096 bytes (R248; notes/assumptions/64.md). -/
def readMax (port : Port) : Nat := 128 * 2 ^ (Config.readSize (portIdx port) % 6)

/-- Pieces of a span of host memory, cut at 4 KB boundaries of bus address and at a read size (R248): address and length. -/
def cutSpan (m lo len : Nat) : List (Nat × Nat) :=
  (List.range ((lo % 4096 + len + 4095) / 4096)).flatMap fun j =>
    let a := if j = 0 then lo else (lo / 4096 + j) * 4096
    let n := min (lo + len) ((lo / 4096 + j + 1) * 4096) - a
    (List.range (cdiv n m)).map fun q => (a + q * m, min m (n - q * m))

/-- Read requests of spans of host memory (R248). -/
def hostReads (port : Port) (spans : List (Nat × Nat)) (core tag : Nat) : List Out :=
  (spans.flatMap fun x => cutSpan (readMax port) x.1 x.2).map fun x => .hostRead port x.1 x.2 core tag

/-- Host DMA tags of a port that are held (R248). -/
def dmaHeld (s : State) (port : Port) : Nat :=
  s.cores.foldl (fun n c => c.2.fe.ov.foldl (fun n q => if q.port = port then n + q.dma else n) n) 0

/-- Two requests of a core that go to the host as one read: entered in consecutive lc, adjacent in that order, in one aligned 4 KB window
(R248); and no longer than the port's read size. -/
def joins (r q : OvReq) : Bool :=
  match r.spans, q.spans with
  | [(a, n)], [(b, m)] =>
    r.sent && decide (r.lc + 1 = q.lc) && decide (r.port = q.port) && decide (a + n = b) && decide (a / 4096 = (b + m - 1) / 4096)
      && decide (n + m ≤ readMax q.port)
  | _, _ => false

/-- Replaces the last read that a core's tag sent by one that also reads m bytes more for another tag. -/
def growRead (p old tag m : Nat) (l : List Out) : List Out :=
  let isIt : Out → Bool := fun o => match o with | .hostRead _ _ _ c t => decide (c = p ∧ t = old) | _ => false
  match findN l.length fun j => isIt (l.getD (l.length - 1 - j) .tickOut) with
  | none => l
  | some j => modAt (l.length - 1 - j) (fun o => match o with | .hostRead pt a n c _ => .hostRead pt a (n + m) c tag | o => o) l

/-- Sends an overflow read to the host while its port has host DMA tags for it; else it waits (R248). -/
def sendOvRead (p : Nat) (q : OvReq) (prev : Option OvReq) (s : State) : State :=
  let put := fun (q : OvReq) (s : State) =>
    updCore p (fun c => { c with fe := { c.fe with ov := c.fe.ov.map fun x => if x.tag = q.tag then q else x } }) s
  let reads := hostReads q.port q.spans p q.tag
  match prev with
  | some r =>
    if joins r q then
      { put { q with sent := true } s with out := growRead p r.tag q.tag ((q.spans.headD (0, 0)).2) s.out }
    else if 4096 < dmaHeld s q.port + reads.length then s
    else { put { q with sent := true, dma := reads.length } s with out := s.out ++ reads }
  | none =>
    if 4096 < dmaHeld s q.port + reads.length then s
    else { put { q with sent := true, dma := reads.length } s with out := s.out ++ reads }

/-- Parts of n bytes of a window from byte w on that lie in one granule each: granule, first byte in it, length (R249). -/
def granules (w n : Nat) : List (Nat × Nat × Nat) :=
  (List.range ((w % 2 ^ 21 + n + 2 ^ 21 - 1) / 2 ^ 21)).map fun j =>
    let lo := if j = 0 then w else (w / 2 ^ 21 + j) * 2 ^ 21
    (lo / 2 ^ 21, lo % 2 ^ 21, min (w + n) ((w / 2 ^ 21 + j + 1) * 2 ^ 21) - lo)

/-- An overflow read is under way under a tag, and its reads leave for the host once no staging copy runs there (R248, R251). -/
def askOv (p : Nat) (q : OvReq) (s : State) : State :=
  let prev := (coreAt s p).fe.ov.getLast?
  let s1 := updCore p (fun c => { c with fe := { c.fe with mtags := mput q.tag q.rows c.fe.mtags, ov := c.fe.ov ++ [q] } }) (countAt p s.clk.now 6 1 s)
  if s.host.copy.any fun o => decide (o.port = q.port) then s1 else sendOvRead p q prev s1

/-- What a read that misses leaves behind: a threaded core's stream halts, another core gets ones (R252, R254). -/
def missOv (p : Nat) (port : Port) (g rows h : Nat) (off : Int) (win : Nat) (s : State) : State :=
  let s1 := xlatMiss p port g s
  if (coreAt s p).mode = .threaded then haltHere p 1 win s1
  else queueRows p h off.toNat (List.replicate rows (List.replicate 128 0xFF)) none none (countAt p s.clk.now 6 1 s1)

/-- An overflow read of a step under a tag, from window byte `win` of region r, in the granules gs, into basin operand (h, off), unless one of
them misses (R248 to R253). -/
def tagOv (p : Nat) (w : Work) (r : RegionD) (win h : Nat) (off : Int) (tag : Nat) (gs : List (Nat × Nat × Nat)) (s : State) : State :=
  match gs.find? fun g => !bbit (xlatUse w.ev s r.port g.1).toNat 0 with
  | some g => missOv p r.port g.1 (iUmod w.ins / 16 % 32 + 1) h off win s
  | none =>
    askOv p { tag := tag, port := r.port, rows := iUmod w.ins / 16 % 32 + 1, hnd := h, off := off.toNat, lc := s.clk.now
              spans := gs.map fun g => ((xlatUse w.ev s r.port g.1).toNat / 2 ^ 21 * 2 ^ 21 + g.2.1, g.2.2)
              work := if (coreAt s p).mode = .threaded then some { w with ev := [], stop := some (w.k + 1) } else none } s

/-- One step of `FEOVRD` (R107, R247). -/
def ovReadStep (p : Nat) (w : Work) (s : State) : State :=
  let rows := iUmod w.ins / 16 % 32 + 1
  let (h, off) := basinOperand s p w.ins w.k false
  match elasticDest p h off (128 * rows) s with
  | some s1 => s1
  | none =>
    match memOperand s p w.ins w.k false (128 * rows) with
    | none => queueRows p h off.toNat (List.replicate rows (List.replicate 128 0)) none none (progFault 0x03 p s)
    | some (_, r, a) => match freeTag (coreAt s p).fe.mtags 256 with
      | none => tagExhausted p s
      | some tag => tagOv p w r (r.wbase * 65536 + a) h off tag (granules (r.wbase * 65536 + a) (128 * rows)) s

/-- FEOVRD (R107). -/
def execFeovrd (p : Nat) (ev : List HwEvent) (s : State) : Host.Outcome State Fault Refusal :=
  guarded (okCore p) "core" (stepRun p 1 0x0A 0 ev (fun _ s => fixedAt s.clk.now 0 1 (some 1) none) (fun _ s => s)) s

/-- A step of a fetch engine instruction in its lc. -/
def feStep (p : Nat) (w : Work) (s : State) : State :=
  match iOp w.ins with
  | 0x04 => rearmCtx p w.ins w.k s
  | 0x08 => fabricStep p w.s0 (fabReadStep p w.ins w.k) s
  | 0x09 => fabricStep p w.s0 (fabWriteStep w.ev p w.ins w.k) s
  | 0x0A => ovReadStep p w s
  | _ => planStep p w s

end Sys2Proof.Machine
end

