-- ==== Sys2Proof/Machine/Tiles.lean ====
section
/-! DEFINITION. Tile buffers (R171), mask rows (R173) and operand port queues (R174, R269). -/
namespace Sys2Proof.Machine

/-- A bit of `CORE_VXFLT` (R198). -/
def vxFlt (p bit : Nat) (s : State) : State := noteStat (corePage p) 0x50 bit 5 s

/-- n bytes at byte `off` of a tile as they stand; zeros and a bounds fault outside the tile (R87). -/
def tileRead (p tile : Nat) (off : Int) (n : Nat) (s : State) : List Byte × State :=
  if off < 0 ∨ 65536 < off + n then (List.replicate n 0, progFault 0x03 p s)
  else (rdMem (coreAt s p).vx.tile (tile * 65536 + off.toNat) n, s)

/-- Mask row m (R173). -/
def maskAt (s : State) (p m : Nat) : Nat := mget 0 (coreAt s p).vx.mask (m % 128)
/-- Writes mask row m and its count field. -/
def setMask (p m v cnt : Nat) (s : State) : State :=
  updCore p (fun c => { c with vx := { c.vx with
    mask := mset 0 (m % 128) (v % 2 ^ 128) c.vx.mask, mcnt := mset 0 (m % 128) (cnt % 256) c.vx.mcnt } }) s
/-- Number of 1 bits of a mask row. -/
def ones (v : Nat) : Nat := ((List.range 128).filter fun l => bbit v l).length

/-! ### Writes of an lc -/

/-- Elements of slot h replaced in a weight row of 256 4-bit elements. -/
def putHalf (row h : Nat) (codes : List Nat) : List Byte :=
  packRow 4 128 ((List.range 256).map fun j => if j % 2 = h then codes.getD (j / 2) 0 else elemAt 4 row j)

/-- The write port of a write of a tile (R172). -/
def VWr.tilePort : VWr → Option Nat
  | .tile w _ _ _ => some w
  | .lanes _ _ _ _ => some 2
  | .half _ _ _ _ => some 2
  | _ => none

/-- Tile, first byte and length that a write of a tile names. -/
def VWr.span : VWr → Nat × Int × Nat
  | .tile _ k off b => (k, off, b.length)
  | .lanes k off _ b => (k, off, b.length)
  | .half k off _ _ => (k, off, 128)
  | _ => (0, 0, 0)

/-- The write lies inside its tile (R87). -/
def VWr.fits (w : VWr) : Bool := decide (0 ≤ w.span.2.1) && decide (w.span.2.1 + w.span.2.2 ≤ 65536)

/-- The bytes that a write of a tile changes, by address, on tile bytes m. -/
def VWr.cells (m : List Host.Cell) (w : VWr) : List (Nat × Byte) :=
  let a := w.span.1 * 65536 + w.span.2.1.toNat
  if !w.fits then []
  else match w with
    | .tile _ _ _ b => (List.range b.length).map fun j => (a + j, b.getD j 0)
    | .lanes _ _ bits b => ((List.range b.length).filter fun j => bbit bits (j / 4)).map fun j => (a + j, b.getD j 0)
    | .half _ _ h codes =>
      let row := putHalf (leNat (rdMem m a 128)) h codes
      (List.range 128).map fun j => (a + j, row.getD j 0)
    | _ => []

/-- Bytes written one by one. -/
def wrCells (l : List (Nat × Byte)) (m : List Host.Cell) : List Host.Cell := l.foldl (fun m c => mset 0 c.1 c.2 m) m

/-- Two writers meet on a byte (R172). -/
def tilesMeet (m : List Host.Cell) (ws : List VWr) : Bool :=
  ws.any fun a => ws.any fun b => decide (a.tilePort ≠ b.tilePort) && (a.cells m).any fun c => (b.cells m).any fun d => decide (c.1 = d.1)

/-- The tile writes of one lc: post unit, then load path, then ALU, so that on a byte the ALU's survives, then the load path's (R172). -/
def tileWrites (p : Nat) (ws : List VWr) (s : State) : State :=
  let m := (coreAt s p).vx.tile
  let m1 := [0, 1, 2].foldl (fun m k => (ws.filter fun w => decide (w.tilePort = some k)).foldl (fun m w => wrCells (w.cells m) m) m) m
  let s1 := updCore p (fun c => { c with vx := { c.vx with tile := m1 } }) s
  let s2 := if ws.all (·.fits) then s1 else progFault 0x03 p s1
  if tilesMeet m ws then progFault 0x0C p (vxFlt p 1 s2) else s2

/-- A write of a mask row, a count field or a port queue. -/
def sideWrite (p : Nat) (s : State) : VWr → State
  | .mask m v cnt => setMask p m v cnt s
  | .cnt m n => setMask p m (maskAt s p m) n s
  | .port y b => updCore p (fun c =>
      let x := mget {} c.vx.port y
      { c with vx := { c.vx with port := mput y { bytes := x.bytes ++ b, cells := x.cells ++ [{ left := b.length }] } c.vx.port } }) s
  | _ => s

/-! ### Operand ports -/

/-- Removes n bytes from the cells of a port queue: the cells left, and each whose last byte is read (R269). -/
def eatCells : Nat → List PCell → List PCell × List PCell
  | _, [] => ([], [])
  | n, c :: t =>
    if n = 0 then (c :: t, [])
    else if n < c.left then ({ c with left := c.left - n } :: t, [])
    else
      let r := eatCells (n - c.left) t
      (r.1, c :: r.2)

/-- The credit of a cell read to its end goes to its sender; bytes of `VXLD` have none. -/
def cellCredit (p : Nat) (s : State) (c : PCell) : State :=
  match c.src with
  | some d => creditTo p c.ep c.fseq d s
  | none => s

/-- Takes up to n bytes from port queue q; each cell read to its end returns a credit (R174, R269). -/
def takePort (p q n : Nat) (s : State) : List Byte × State :=
  let x := mget {} (coreAt s p).vx.port q
  let got := x.bytes.take n
  let r := eatCells got.length x.cells
  let s1 := updCore p (fun c => { c with vx := { c.vx with port := mput q { bytes := x.bytes.drop n, cells := r.1 } c.vx.port } }) s
  (got, r.2.foldl (cellCredit p) s1)

/-- A late arrival at a vector port (R174). -/
def portLate (p : Nat) (s : State) : State := coreSrc p 6 (vxFlt p 3 s)

end Sys2Proof.Machine
end

