-- ==== Sys2Proof/Machine/Channel.lean ====
section
/-! DEFINITION. The channel unit: opening and closing channels (R263 to R273, R305), sends (R116, R268, R304), barriers (R277, R279),
role epochs (R274) and the instructions marked V (R117, R118). -/
namespace Sys2Proof.Machine

/-- A multicast table record of the active bank: module, core, endpoint of member i of a group (R303). -/
def memberAt (s : State) (g i : Nat) : Option (Nat × Nat × Nat) :=
  (s.fab.member.find? fun x => decide (x.1 = s.fab.sel * 2 ^ 18 + g * 64 + i)).map (·.2)
/-- Indices of a group's members. -/
def membersOf (s : State) (g : Nat) : List Nat := (List.range 64).filter fun i => (memberAt s g i).isSome
/-- A list of member indices as a mask. -/
def maskOf (l : List Nat) : Nat := l.foldl bset 0

/-! ### Opening -/

/-- Binds a LISTEN endpoint to a request, or refuses it (R265 steps 3 and 4, R266, R267). -/
def bindCheck (p e : Nat) (r : OpenReq) (s : State) : State :=
  let c := coreAt s p
  let x := epAt c e
  let src := (r.mod, r.core, r.ep)
  let refuse := fun (why : Nat) (s : State) => replyTo p e src rRefuse why 6 0 0 s
  match chanAt s x.decl with
  | none => refuse 2 s
  | some d =>
    let peer := peerOf s p d
    if peer ≠ (logOf s r.mod, r.lcore, r.ep) ∨ d.land ≠ r.land ∨ d.classes ≠ r.classes ∨ d.window ≠ r.window then refuse 2 s
    else if d.land < 3 ∧ (c.ch.ep.any fun y => decide (y.1 ≠ e ∧ y.2.st = 3) &&
        (match chanAt s y.2.decl with | some d2 => decide (d2.role = 1 ∧ d2.land = d.land) | none => false)) then refuse 5 s
    else
      let s1 := updEp p e (fun x => { x with
        st := 3, bnd := true, peerMod := r.mod, peerCore := r.core, peerEp := r.ep
        pepoch := r.epoch, fseq := 0, rseq := 0, parked := none }) s
      replyTo p e src rAccept (coreAt s1 p).ch.epoch 6 0 0 (addObj p x.compl 1 s1)

/-- The open request of a sending endpoint: source identity, logical core, WINDOW, LAND, CLASSES, role epoch, logical module (R265). -/
def openRest (s : State) (p : Nat) (d : ChanD) : Nat :=
  let c := coreAt s p
  c.lidx + d.window * 2 ^ 8 + d.land * 2 ^ 16 + d.classes * 2 ^ 24 + c.ch.epoch * 2 ^ 32 + c.modIdx * 2 ^ 40

/-- One step of `CHOPEN` (R265, R305, R308). -/
def openStep (p e di obj : Nat) (s : State) : State :=
  let parked := (epAt (coreAt s p) e).parked
  let was := (epAt (coreAt s p) e).source
  let fresh := fun (st : Nat) (s : State) => updEp p e (fun _ => { st := st, decl := di, compl := obj, was := was }) s
  let refused := fun (why : Nat) (s : State) =>
    addObj p obj 1 (updEp p e (fun _ => { st := 4, reason := why, decl := di, compl := obj, was := was }) s)
  match chanAt s di with
  | none => refused 2 s
  | some d =>
    if d.role = 1 then
      (match parked with
      | none => fresh 1 s
      | some r => bindCheck p e r (fresh 1 s))
    else if d.role = 0 then
      let peer := peerOf s p d
      if taskMods s ≤ peer.1 ∨ (peer.1 = (coreAt s p).modIdx ∧ (coreAt s p).k ≤ peer.2.1 ∧ physOf s peer.2.1 = none) then refused 3 s
      else
        leaveCore p e 3 (selfCell s p e (hwOf s peer.1) peer.2.1 peer.2.2 6 (coreAt s p).ch.epoch (openRest s p d)) (fresh 2 s)
    else
      let ms := membersOf s d.group
      if ms.isEmpty then addObj p obj 1 (updEp p e (fun _ => { st := 3, decl := di, compl := obj, credits := d.window }) s)
      else
        let src := srcId (ownMod s) p e
        let s1 := updEp p e (fun _ => { st := 2, decl := di, compl := obj, await := ms }) s
        let pay := src + openRest s p d * 2 ^ 48 + maskOf ms * 2 ^ 320
        leaveCore p e 3 (sealCell src (mkMcHdr d.group 6 3 (coreAt s p).ch.epoch 0 0) pay) s1

/-- CHOPEN (R265). -/
def execChopen (p : Nat) (s : State) : Host.Outcome State Fault Refusal :=
  guarded (okCore p) "core" (stepRun p 5 0x01 0 [] (fun _ s => fixedAt s.clk.now 0 1 none none) (fun _ s => s)) s

/-- The mask of the members a multicast cell goes to. -/
def fullMask (s : State) (d : ChanD) : Nat := maskOf (membersOf s d.group)

/-- One step of `CHCLOSE` (R273): a sender's close cell goes behind its earlier cells; a receiver closes at once. -/
def closeStep (p e : Nat) (s : State) : State :=
  let x := epAt (coreAt s p) e
  match chanAt s x.decl with
  | none => updEp p e (fun x => { x with st := 0 }) s
  | some d =>
    let s1 :=
      if x.st = 3 ∧ d.role = 0 then sendFlow p e (chanVc d) false (fun n => chanCell s p e 9 (lowClass d) 0 0 n) s
      else if x.st = 3 ∧ d.role = 2 then
        sendFlow p e (chanVc d) false (fun n => sealCell (srcId (ownMod s) p e)
          (mkMcHdr d.group 9 (lowClass d) x.pepoch 0 n) (fullMask s d * 2 ^ 320)) s
      else s
    updEp p e (fun x => { x with st := 0 }) s1

/-- CHCLOSE (R273). -/
def execChclose (p : Nat) (s : State) : Host.Outcome State Fault Refusal :=
  guarded (okCore p) "core" (stepRun p 5 0x02 0 [] (fun _ s => fixedAt s.clk.now 0 1 none (some 4)) (fun _ s => s)) s

/-! ### Sends -/

/-- n bytes of a send's source operand A at step k: basin or tile (R116). -/
def sendSource (ev : List HwEvent) (p : Nat) (i : Ins) (n k : Nat) (s : State) : List Byte × State :=
  if iKind i 0 = 1 then exRead ev p (iSel i 0) (offsetOf s p i 0 k) n s
  else tileRead p (iSel i 0) (offsetOf s p i 0 k) n s

/-- One step of `CHSEND`: a DATA cell of 48 bytes (R116, R268, R272). -/
def sendStep (ev : List HwEvent) (p : Nat) (i : Ins) (k : Nat) (s : State) : State :=
  let e := (offsetOf s p i 1 k).toNat
  let cls := iUmod i % 4
  let (data, s1) := sendSource ev p i 48 k s
  match sendUse s1 p e cls false with
  | .ok d => sendFlow p e (chanVc d) true (fun n => chanCell s1 p e 0 cls 48 (leNat data) n) s1
  | u => sendRefused p u s1

/-- CHSEND (R116). -/
def execChsend (p : Nat) (ev : List HwEvent) (s : State) : Host.Outcome State Fault Refusal :=
  guarded (okCore p) "core" (stepRun p 5 0x03 1 ev (fun _ s => fixedAt s.clk.now 0 1 (some 2) none) (fun _ s => s)) s

/-- One step of `CHSIG`: a SIGNAL cell behind the channel's earlier cells, without a credit (R268). -/
def sigStep (p : Nat) (i : Ins) (k : Nat) (s : State) : State :=
  let e := (offsetOf s p i 0 k).toNat
  let x := epAt (coreAt s p) e
  let cls := match chanAt s x.decl with | some d => lowClass d | none => 0
  match sendUse s p e cls false with
  | .ok d => sendFlow p e (chanVc d) false (fun n => chanCell s p e 1 cls 2 (immOf s p i 1 k % 2 ^ 14) n) s
  | u => sendRefused p u s

/-- CHSIG (R268). -/
def execChsig (p : Nat) (s : State) : Host.Outcome State Fault Refusal :=
  guarded (okCore p) "core" (stepRun p 5 0x04 0 [] (fun _ s => fixedAt s.clk.now 0 1 none none) (fun _ s => s)) s

/-- The endpoint of a core whose multicast channel goes to a group: an open one first. -/
def groupEp (s : State) (p g : Nat) : Nat :=
  let l := (coreAt s p).ch.ep.filter fun y => match chanAt s y.2.decl with | some d => decide (d.role = 2 ∧ d.group = g) | none => false
  match l.find? fun y => decide (y.2.st = 3) with
  | some y => y.1
  | none => (l.head?.map (·.1)).getD 320

/-- One step of `CHMCAST`: an MCAST cell of 40 bytes with the group's full mask (R290, R304, R305). -/
def mcastStep (ev : List HwEvent) (p : Nat) (i : Ins) (k : Nat) (s : State) : State :=
  let g := immOf s p i 1 k % 4096
  let e := groupEp s p g
  let cls := iUmod i % 4
  let (data, s1) := sendSource ev p i 40 k s
  match sendUse s1 p e cls true with
  | .ok d =>
    let x := epAt (coreAt s1 p) e
    let s2 := updEp p e (fun x => { x with mcred := x.mcred ++ [(x.fseq, membersOf s1 d.group)] }) s1
    sendFlow p e (chanVc d) true (fun n => sealCell (srcId (ownMod s) p e) (mkMcHdr g 5 cls x.pepoch 40 n)
      (leNat data + fullMask s1 d * 2 ^ 320)) s2
  | u => sendRefused p u s1

/-- CHMCAST (R304). -/
def execChmcast (p : Nat) (ev : List HwEvent) (s : State) : Host.Outcome State Fault Refusal :=
  guarded (okCore p) "core" (stepRun p 5 0x05 1 ev (fun _ s => fixedAt s.clk.now 0 1 (some 2) none) (fun _ s => s)) s

/-- SEND_BUFFER_DEPART (R268): the first buffered cell that stands first in its channel and has its credit leaves. -/
def sendBufferDepart (p : Nat) (s : State) : State :=
  let c := coreAt s p
  let ok := fun (j : Nat) => match c.ch.sbuf[j]? with
    | some x => !((c.ch.sbuf.take j).any fun y => decide (y.ep = x.ep)) && (!x.credit || decide (0 < (epAt c x.ep).credits))
    | none => false
  match findN c.ch.sbuf.length ok with
  | none => s
  | some j =>
    match c.ch.sbuf[j]? with
    | none => s
    | some x =>
      let s1 := updCore p (fun c => { c with ch := { c.ch with sbuf := c.ch.sbuf.eraseIdx j } }) s
      let s2 := if x.credit then updEp p x.ep (fun y => { y with credits := y.credits - 1 }) s1 else s1
      let vc := match chanAt s (epAt c x.ep).decl with | some d => chanVc d | none => 0
      countAt p s.clk.now 7 1 (leaveCore p x.ep vc x.cell s2)

/-- SEND_BUFFER_DEPART (R268). -/
def execSendBufferDepart (p : Nat) (s : State) : Host.Outcome State Fault Refusal :=
  guarded (okCore p) "core" (sendBufferDepart p) s

/-! ### Barriers and role epochs -/

/-- A barrier declaration (R276). -/
def barAt (s : State) (b : Nat) : Option BarD := match s.task.img with | none => none | some im => im.bars.find? fun d => decide (d.bar = b)

/-- A core of the loaded task belongs to a barrier's participants (R276). -/
def inBarrier (s : State) (d : BarD) (p : Nat) : Bool :=
  let c := coreAt s p
  holdsIndex c && bbit d.dales (daleOf p) &&
    (match d.pclass with | 0 => true | 1 => decide (c.lidx < c.k) | 2 => decide (c.k ≤ c.lidx) | _ => false)
/-- The participants, in ascending order. -/
def barCores (s : State) (d : BarD) : List Nat := (List.range 192).filter (inBarrier s d)

/-- A BARRIER cell: barrier in byte 6, kind in byte 7 (0 arrival, 1 release, 2 a module's arrival, 3 a release for a module), phase in byte
8, participants that the arrival combines in bytes 9 and 10 (notes/assumptions/15.md). -/
def barCell (s : State) (p dmod dcore b kind phase count : Nat) : FCell :=
  selfCell s p 0 dmod dcore 0 10 0 (b + kind * 2 ^ 8 + phase * 2 ^ 16 + count * 2 ^ 24)

/-- A barrier fault at a core (R277, R279). -/
def barFault (p : Nat) (s : State) : State := progFault 0x1F p (chStat p 6 s)

/-- Participants in the order of a barrier's tree: the root, then the others, ascending (R277; notes/assumptions/15.md). -/
def barOrder (s : State) (d : BarD) : List Nat :=
  match physOf s d.root with
  | some r => r :: (barCores s d).filter (· ≠ r)
  | none => barCores s d
/-- Places below place n of m in a tree of a fan-in. -/
def treeKids (fanin m n : Nat) : List Nat := (List.range (max fanin 1)).filterMap fun j =>
  if max fanin 1 * n + 1 + j < m then some (max fanin 1 * n + 1 + j) else none
/-- The place above place n. -/
def treeUp (fanin n : Nat) : Nat := (n - 1) / max fanin 1
/-- Cores below core q in a barrier's tree. -/
def kidCores (s : State) (d : BarD) (q : Nat) : List Nat :=
  let l := barOrder s d
  (treeKids d.fanin l.length (l.idxOf q)).filterMap fun n => l[n]?

/-- A central release goes from core p to every participant of this module (R277). -/
def releaseAll (p b : Nat) (d : BarD) (s : State) : State :=
  (barCores s d).foldl (fun s q => leaveCore p 0 3 (barCell s p (ownMod s) q b 1 0 0) s) s
/-- Core q sees the release from the next lc on, and in a tree hands it down (R277, R89). -/
def releaseHere (q b : Nat) (d : BarD) (s : State) : State :=
  let s1 := updCore q (fun c => { c with ch := { c.ch with flips := c.ch.flips ++ [b], arrived := mset 0 b 0 c.ch.arrived } }) s
  if d.sense then (kidCores s d q).foldl (fun s k => leaveCore q 0 3 (barCell s q (ownMod s) k b 1 0 0) s) s1 else s1
/-- The release of this module's participants from its root p. -/
def releaseModule (p b : Nat) (d : BarD) (s : State) : State := if d.sense then releaseHere p b d s else releaseAll p b d s
/-- A cell of a kind from the local root p to a module's root. -/
def toModule (p b kind m : Nat) (s : State) : State := leaveCore p 0 3 (barCell s p (hwOf s m) p b kind 0 0) s

/-- A module of a sense-reversing domain barrier has its own participants' arrivals and those of the modules below it (R278). -/
def domCheck (p b : Nat) (d : BarD) (s : State) : State :=
  let m := s.task.modIdx
  if mget 0 s.fab.barLoc b = 1 ∧ mget 0 s.fab.barDom b = (treeKids d.fanin d.nmod m).length then
    let s1 := { s with fab := { s.fab with barLoc := mdel b s.fab.barLoc, barDom := mdel b s.fab.barDom } }
    if m = 0 then releaseModule p b d ((treeKids d.fanin d.nmod 0).foldl (fun s k => toModule p b 3 k s) s1)
    else toModule p b 2 (treeUp d.fanin m) s1
  else s

/-- The module's own arrivals are complete at root p: the root's phase flips, and a module barrier releases; a domain barrier's module
arrives at the domain root (R277, R278). -/
def localDone (p b : Nat) (d : BarD) (s : State) : State :=
  let ph := mget 0 s.fab.barPhase b
  let next := (mget (0, 0) (coreAt s p).ch.tree (2 * b + (1 - ph))).2
  let s1 := { s with fab := { s.fab with barPhase := mset 0 b ((ph + 1) % 2) s.fab.barPhase, barArr := mset 0 b next s.fab.barArr } }
  if d.scope then
    if d.sense then domCheck p b d { s1 with fab := { s1.fab with barLoc := mset 0 b 1 s1.fab.barLoc } } else toModule p b 2 0 s1
  else releaseModule p b d s1

/-- A core's phase bit, releases of this lc included (R277). -/
def barBit (c : Core) (b : Nat) : Nat := (mget 0 c.ch.phase b + (c.ch.flips.filter (· = b)).length) % 2

/-- Core q's place in the tree has its own arrival and all those below it: they go up as one, or the root is complete (R277). -/
def treeCheck (q b ph : Nat) (d : BarD) (s : State) : State :=
  let c := coreAt s q
  let l := barOrder s d
  let n := l.idxOf q
  let t := mget (0, 0) c.ch.tree (2 * b + ph)
  let own := mget 0 c.ch.arrived b = 1 ∧ barBit c b = ph
  let s0 := if n = 0 ∧ ph = mget 0 s.fab.barPhase b
    then { s with fab := { s.fab with barArr := mset 0 b (t.2 + if own then 1 else 0) s.fab.barArr } } else s
  if own ∧ t.1 = (treeKids d.fanin l.length n).length then
    let s1 := updCore q (fun c => { c with ch := { c.ch with tree := mdel (2 * b + ph) c.ch.tree } }) s0
    if n = 0 then localDone q b d s1
    else leaveCore q 0 3 (barCell s1 q (ownMod s1) (l.getD (treeUp d.fanin n) 0) b 0 ph (t.2 + 1)) s1
  else s0

/-- `CHBAR` (R277, R279): an arrival goes to the root, or takes its place in the tree. -/
def barStep (p b : Nat) (s : State) : State :=
  let c := coreAt s p
  match barAt s b with
  | none => barFault p s
  | some d =>
    if !inBarrier s d p then barFault p s
    else if mget 0 c.ch.arrived b = 1 then barFault p s
    else
      let s1 := updCore p (fun c => { c with ch := { c.ch with arrived := mset 0 b 1 c.ch.arrived } }) s
      if d.sense then countAt p s.clk.now 7 1 (treeCheck p b (barBit c b) d s1)
      else match physOf s d.root with
        | none => s1
        | some r => countAt p s.clk.now 7 1 (leaveCore p 0 3 (barCell s p (ownMod s) r b 0 (barBit c b) 1) s1)

/-- CHBAR (R277). -/
def execChbar (p : Nat) (s : State) : Host.Outcome State Fault Refusal :=
  guarded (okCore p) "core" (stepRun p 5 0x06 0 [] (fun _ s => fixedAt s.clk.now 0 1 none none) (fun _ s => s)) s

/-- CHROLE (R274): the epoch changes at DONE. -/
def execChrole (p : Nat) (s : State) : Host.Outcome State Fault Refusal :=
  guarded (okCore p) "core" (unitRun p 5 0x07 (fun _ s => fixedAt s.clk.now 0 1 none (some 2)) (fun i tm s =>
    updCore p (fun c => { c with ch := { c.ch with
      roleAt := c.ch.roleAt ++ (List.range (iSteps i)).map fun k => tm.b k + 2 } }) s)) s

/-- A role change takes place: receiving endpoints that LISTEN or are OPEN close, parked requests are dropped; a 16th is a fault (R274). -/
def roleChange (p : Nat) (s : State) : State :=
  let c := coreAt s p
  if 15 ≤ c.ch.epoch then progFault 0x1E p (chStat p 7 s)
  else
    let recv : Ep → Bool := fun x => match chanAt s x.decl with | some d => decide (d.role = 1) | none => false
    let closes : Ep → Bool := fun x => decide (x.st = 1 ∨ x.st = 3) && recv x
    setCore p { c with ch := { c.ch with
      epoch := c.ch.epoch + 1
      ep := c.ch.ep.map fun y => (y.1, { y.2 with parked := none, st := if closes y.2 then 0 else y.2.st }) } } s

/-- The role changes of core p whose lc has come. -/
def roleDue (p : Nat) (s : State) : State :=
  let l := (coreAt s p).ch.roleAt
  if l.any fun t => decide (t ≤ s.clk.now) then
    (l.filter fun t => decide (t ≤ s.clk.now)).foldl (fun s _ => roleChange p s)
      (updCore p (fun c => { c with ch := { c.ch with roleAt := l.filter fun t => decide (s.clk.now < t) } }) s)
  else s

/-! ### V instructions -/

/-- Bytes a V-log entry takes: its header and its data padded to 8 bytes (R383). -/
def vSize (e : VEnt) : Nat := 8 + cdiv e.data.length 8 * 8

/-- The entry that answers a V instruction of a replay (R118, R385). -/
def vOld (c : Core) (op idx : Nat) : Option VEnt := c.vold.find? fun e => decide (e.op = op ∧ e.idx = idx)

/-- Adds a step's result to its instruction's entry of the log. -/
def vAppend (op idx : Nat) (d : List Byte) (l : List VEnt) : List VEnt :=
  if l.any fun e => decide (e.op = op ∧ e.idx = idx) then l.map fun e => if e.op = op ∧ e.idx = idx then { e with data := e.data ++ d } else e
  else l ++ [⟨op, idx, d⟩]

/-- Bytes that a log takes. -/
def vTotal (l : List VEnt) : Nat := l.foldl (fun n e => n + vSize e) 0

/-- The result of a step of a V instruction: the logged one in a replay, else the new one, or zeros with bit 127 where the log of 4 KB has
no room for it (R117, R118). -/
def vResult (p op idx k : Nat) (new : List Byte) (s : State) : List Byte × State :=
  let c := coreAt s p
  let n := new.length
  if c.mode = .threaded then (new, s)
  else
    let got := match vOld c op idx with | some e => slice (n * k) n e.data | none => new
    let log := vAppend op idx got c.vlog
    if 4096 < vTotal log then
      let z := List.replicate n (0 : Byte)
      (if op = 0x10 ∨ op = 0x13 then z.set 15 0x80 else z, progFault 0x08 p s)
    else (got, updCore p (fun c => { c with vlog := log }) s)

/-- Result depth of a V instruction and bytes of a step's result (R117). -/
def vShape (op : Nat) : Nat × Nat := match op with | 0x10 => (48, 16) | 0x11 => (64, 32) | 0x12 => (12, 128) | _ => (40, 16)

/-- The V result of step k is written at operand C in the lc before DONE: basin, or tile through the load path's write port (R43, R172). -/
def vWrite (p : Nat) (i : Ins) (k : Nat) (bytes : List Byte) (s : State) : State :=
  let t := s.clk.now + (vShape (iOp i)).1 - 1
  addLate p t [] (if iKind i 2 = 1 then .basin 10 (iSel i 2) (offsetOf s p i 2 k) bytes else .tile 1 (iSel i 2) (offsetOf s p i 2 k) bytes) s

/-- Starts a V instruction of step interval t; what the sources answer comes with its command. -/
def vRun (p op t : Nat) (answers : List Byte) (s : State) : State :=
  let th := thrOf (coreAt s p) 5
  unitRun p 5 op (fun _ s => fixedAt s.clk.now 0 t none (some (vShape op).1)) (fun i tm s =>
    addWork p { ins := i, thr := th, s0 := s.clk.now, due := tm.b 0, t := t,
                acc := { bytes := answers, idx := (coreAt s p).issue - 1 } } s) s

/-- The unavailable form of `TSREAD` and `HOSTPOLL` (R117). -/
def unavail : List Byte := leBytes 16 (2 ^ 127)

/-- What a source answers, as bytes: the first is 1 where it answers, its value follows. -/
def answer (t : Option Nat) : List Byte := match t with | some v => leBytes 16 (1 + v * 256) | none => List.replicate 16 0
/-- Whether the source answers, and with what, from byte 16k of the answers. -/
def answerAt (b : List Byte) (k : Nat) : Option Nat :=
  let x := slice (16 * k) 16 b
  if x.headD 0 = 1 then some (leNat x / 256) else none

/-- TSREAD (R117): the host time at lc s0. -/
def execTsread (p : Nat) (time : Option W64) (s : State) : Host.Outcome State Fault Refusal :=
  guarded (okCore p) "core" (vRun p 0x10 1 (answer (time.map (·.toNat)))) s

/-- ENTROPY (R117): each step's source answers or not. -/
def execEntropy (p : Nat) (avail : List Bool) (s : State) : Host.Outcome State Fault Refusal :=
  guarded (okCore p) "core" (vRun p 0x11 16 (avail.flatMap fun b => answer (if b then some 0 else none))) s

/-- Counter values as a sample at this lc gives them, each with its command's CSEQ (R435). -/
def pcntSample (s : State) (p : Nat) : List Byte :=
  let x := (coreAt s p).pc
  let first := decide (s.clk.now = x.start)
  (List.range 16).flatMap fun n =>
    leBytes 8 ((if first then mget 0 x.fin n else mget 0 x.val n) % 2 ^ 48 + (if first then x.finSeq else x.cseq) % 2 ^ 16 * 2 ^ 48)

/-- CNTREAD (R117, R435). -/
def execCntread (p : Nat) (s : State) : Host.Outcome State Fault Refusal :=
  guarded (okCore p) "core" (vRun p 0x12 1 []) s

/-- HOSTPOLL (R117). -/
def execHostpoll (p : Nat) (avail : Bool) (s : State) : Host.Outcome State Fault Refusal :=
  guarded (okCore p) "core" (vRun p 0x13 1 (answer (if avail then some 0 else none))) s

/-- What step k of a V instruction reads in its lc: host time and tick number; a free value of 32 bytes; the counters; the mailbox word of
the port that owns management, else of port A (R117). -/
def vValue (p : Nat) (w : Work) (s : State) : List Byte × State :=
  let a := answerAt w.acc.bytes 0
  match iOp w.ins with
  | 0x10 => (match a with | some t => leBytes 8 t ++ leBytes 8 (s.clk.num % 2 ^ 48) | none => unavail, s)
  | 0x11 => if (answerAt w.acc.bytes w.k).isSome then (leBytes 32 (Config.entropy s.fresh).toNat, drawn s) else (List.replicate 32 0, s)
  | 0x12 => (pcntSample s p, s)
  | _ => (if a.isSome then leBytes 16 (mget 0 (hpAt s (s.host.owner.getD .a)).mbox (immOf s p w.ins 0 w.k % 256)).toNat else unavail, s)

/-- A step of a V instruction in its lc. -/
def vStep (p : Nat) (w : Work) (s : State) : State :=
  let r := vValue p w s
  let x := vResult p (iOp w.ins) w.acc.idx w.k r.1 r.2
  vWrite p w.ins w.k x.1 x.2

/-- A step of a channel unit instruction in its lc. -/
def chStep (p : Nat) (w : Work) (s : State) : State :=
  let i := w.ins
  match iOp i with
  | 0x01 => fabricStep p w.s0 (fun s => openStep p (offsetOf s p i 0 w.k).toNat (immOf s p i 1 w.k) (immOf s p i 2 w.k % 64) s) s
  | 0x02 => closeStep p (offsetOf s p i 0 w.k).toNat s
  | 0x03 => fabricStep p w.s0 (sendStep w.ev p i w.k) s
  | 0x04 => fabricStep p w.s0 (sigStep p i w.k) s
  | 0x05 => fabricStep p w.s0 (mcastStep w.ev p i w.k) s
  | 0x06 => fabricStep p w.s0 (barStep p (immOf s p i 0 w.k % 256)) s
  | _ => vStep p w s

end Sys2Proof.Machine
end

