-- ==== Sys2Proof/Machine/Arrive.lean ====
section
/-! DEFINITION. Cells that arrive at a core: the discard window (R380), the end-to-end check (R296), the checks of R270 and what passes
them, replies and credits at the sender (R269, R271, R297, R305, R307) and barrier cells (R277, R278). -/
namespace Sys2Proof.Machine

/-- Arriving cells are discarded without reply: from the vote to lc 8,191 of the next tick (R380). -/
def inWindow (s : State) (p : Nat) : Bool :=
  s.clk.run && decide ((coreAt s p).mode ≠ .threaded) && (decide (s.clk.lc < 8192) || (s.clk.zone && s.cmt.voted))

/-- The oldest cell at core p leaves the inbox. -/
def popCell (p : Nat) (s : State) : State := updCore p (fun c => { c with ch := { c.ch with inbox := c.ch.inbox.tail } }) s

/-- The oldest cell at core p, where it is of one of the types. -/
def headCell (s : State) (p : Nat) (tys : List Nat) : Option (Nat × FCell) :=
  match (coreAt s p).ch.inbox with
  | [] => none
  | x :: _ => if tys.contains (cType x.2) then some x else none

/-- A credit or a reply other than to an open or from a router comes from the source its endpoint is bound to; a multicast sender has none
(R293, R305). -/
def fromBound (s : State) (p e : Nat) (c : FCell) : Bool :=
  let x := epAt (coreAt s p) e
  x.bnd && (decide (cType c = 8) || decide (cType c = 7 ∧ 2 ≤ cPay c 6 1 ∧ cPay c 6 1 ≤ 4))
    && (match chanAt s x.decl with | some d => decide (d.role ≠ 2) | none => true)

/-- Source identity that a cell's ECRC is checked with: from the cell, or from the endpoint's binding (R293). -/
def srcFor (s : State) (p e : Nat) (c : FCell) : Nat :=
  let x := epAt (coreAt s p) e
  if selfNamed (cType c) && !fromBound s p e c then cPay c 0 6 else srcId x.peerMod x.peerCore x.peerEp

/-- ECRC and FSEQ agree (R296); an endpoint never bound in the tick has no source to check with. -/
def e2eOk (s : State) (p e : Nat) (c : FCell) : Bool :=
  let x := epAt (coreAt s p) e
  if selfNamed (cType c) then decide (cEcrc c = ecrcOf (srcFor s p e c) c.hdr c.pay)
  else !x.bnd || (decide (cEcrc c = ecrcOf (srcFor s p e c) c.hdr c.pay) &&
    decide (cFseq c = (if cType c = 4 then x.rseq else x.fseq)))

/-- A cell fails the end-to-end check (R296). -/
def e2eFail (p : Nat) (s : State) : State :=
  coreSrc p 4 (noteStat (corePage p) 0xB0 1 11 (note (.add (corePage p + 0xB4) 16 16 1) s))

/-- The flow's expected sequence advances. -/
def nextSeq (p e : Nat) (c : FCell) (s : State) : State :=
  if selfNamed (cType c) then s
  else updEp p e (fun x => if cType c = 4 then { x with rseq := (x.rseq + 1) % 16384 } else { x with fseq := (x.fseq + 1) % 16384 }) s

/-- A "closed" or "epoch miss" reply to the source that an endpoint is or was bound to (R270, R273). -/
def replyBound (p e code : Nat) (c : FCell) (s : State) : State :=
  match (epAt (coreAt s p) e).source with
  | some d => replyTo p e d code 0 (cType c) (cFseq c) 0xFFFF s
  | none => s

/-- What the checks before landing find (R270, R296, R380). -/
inductive Arr where
  | gone (s : State)
  | unbound (s : State)
  | epoch (s : State)
  | cls (s : State)
  | ok (d : ChanD) (s : State)

/-- Window, end-to-end check and checks 1 to 4 of R270 on a cell at endpoint e of a channel of the role. -/
def arrCheck (p e role : Nat) (c : FCell) (s : State) : Arr :=
  let x := epAt (coreAt s p) e
  if inWindow s p then .gone (dropRecv p s)
  else if !e2eOk s p e c then .gone (e2eFail p s)
  else
    let s1 := nextSeq p e c s
    if s.clk.zone ∧ (coreAt s p).mode ≠ .threaded then .gone (coreSrc p 6 (dropRecv p s1))
    else match chanAt s x.decl with
      | none => .unbound (dropRecv p s1)
      | some d =>
        if x.st ≠ 3 ∨ d.role ≠ role then .unbound (dropRecv p s1)
        else if cEpoch c ≠ (coreAt s p).ch.epoch then .epoch (dropRecv p s1)
        else if !bbit d.classes (cClass c) then .cls (dropRecv p s1)
        else .ok d (countAt p s.clk.now 8 1 s1)

/-- A ford refusal, answered to the sender (R215). -/
def fordRefuse (p e ford : Nat) (c : FCell) (src : Nat × Nat × Nat) (tag : Nat) (s : State) : State :=
  let a := corePage p + 0x70
  let s1 := note (.set (corePage p + 0x10) (1 <<< 7)) (note (.set a (1 <<< 29)) (note (.first a 29 16 4 ford) (note (.first a 29 20 9 e)
    (note (.add a 0 16 1) s))))
  progFault 0x10 p (replyTo p e src rFord ford (cType c) (cFseq c) tag s1)

/-- The third cell of a row group: its VALID is 32 (R294). -/
def lastOfGroup (c : FCell) : Bool := decide (cValid c = 32)

/-- A remote access waits for its ford. -/
def addRemote (p e : Nat) (c : FCell) (data : List Byte) (s : State) : State :=
  let src := (epAt (coreAt s p) e).peer
  updCore p (fun k => { k with fe := { k.fe with remote := k.fe.remote ++ [{ ep := e, cell := c, data := data, src := src }] } }) s

/-- A cell that has passed the checks lands (R270, R294): the first two cells of a group take a row of the deposit buffer. -/
def landCell (p e : Nat) (d : ChanD) (c : FCell) (s : State) : State :=
  let ty := cType c
  let data := (cBytes c).take (cValid c)
  let src := (epAt (coreAt s p) e).peer
  if d.land = 3 then
    if ty = 2 then
      let grp := (coreAt s p).fe.groups.find? fun g => decide (g.ep = e) && !g.resp
      let have_ := match grp with | some g => g.bytes | none => []
      let rest := (coreAt s p).fe.groups.filter fun g => decide (g.ep ≠ e) || g.resp
      let s1 := updCore p (fun k => { k with fe := { k.fe with groups := rest } }) s
      if lastOfGroup c then addRemote p e c (have_ ++ data) s1
      else updCore p (fun k => { k with fe := { k.fe with groups := rest ++ [⟨e, have_ ++ data, false⟩] } }) s1
    else if ty = 3 then addRemote p e c [] s
    else fordRefuse p e d.ford c src 0xFFFF s
  else if ty = 1 then addObj p (cPay c 0 2 % 64) (cPay c 0 2 / 64 % 256) s
  else if ty = 2 ∨ ty = 3 then fordRefuse p e d.ford c src (if ty = 3 then cPay c 37 2 else 0xFFFF) s
  else if d.land = 4 then dropRecv p s
  else updCore p (fun k =>
    let q := mget {} k.vx.port d.land
    { k with vx := { k.vx with port := mput d.land { bytes := q.bytes ++ data,
                                                     cells := q.cells ++ [{ left := data.length, ep := e, fseq := cFseq c, src := some src }] } k.vx.port } }) s

/-- A cell that would take a row of the full deposit buffer stays where it is (R202). -/
def heldUp (s : State) (p : Nat) (c : FCell) : Bool := [2, 3, 4].contains (cType c) && decide (64 ≤ depRows (coreAt s p))

/-- CELL_ARRIVAL (R270): the oldest cell is DATA, SIGNAL, FWRITE, FREAD, MCAST or EXTERN (R309). -/
def cellArrival (p : Nat) (s : State) : State :=
  match headCell s p [0, 1, 2, 3, 5, 14] with
  | none => s
  | some (e, c) =>
    if cType c = 14 then dropRecv p (popCell p s)
    else if heldUp s p c then s
    else match arrCheck p e 1 c (popCell p s) with
      | .gone s1 => s1
      | .unbound s1 => replyBound p e rClosed c s1
      | .epoch s1 => replyBound p e rMiss c s1
      | .cls s1 => updEp p e (fun x => { x with st := 0 }) (replyBound p e rClosed c s1)
      | .ok d s1 => landCell p e d c s1

/-- CELL_ARRIVAL (R270). -/
def execCellArrival (p : Nat) (s : State) : Host.Outcome State Fault Refusal := guarded (okCore p) "core" (cellArrival p) s

/-- BOUNDARY_CELL_DISCARD (R380): the oldest cell, of TYPE 0 to 10, arrives in the window. -/
def boundaryDiscard (p : Nat) (s : State) : State :=
  match headCell s p [0, 1, 2, 3, 4, 5, 6, 7, 8, 9, 10] with
  | none => s
  | some _ => if inWindow s p then dropRecv p (popCell p s) else s

/-- BOUNDARY_CELL_DISCARD (R380). -/
def execBoundaryCellDiscard (p : Nat) (s : State) : Host.Outcome State Fault Refusal :=
  guarded (okCore p) "core" (boundaryDiscard p) s

/-- Window, end-to-end check and check 1 on a self-named cell. -/
def ctlCheck (p e : Nat) (c : FCell) (s : State) : Option State × State :=
  if inWindow s p then (none, dropRecv p s)
  else if !e2eOk s p e c then (none, e2eFail p s)
  else if s.clk.zone ∧ (coreAt s p).mode ≠ .threaded then (none, coreSrc p 6 (dropRecv p s))
  else (some s, s)

/-- The source named in a cell: module, core, endpoint. -/
def srcOf (c : FCell) : Nat × Nat × Nat := (cPay c 0 2, cPay c 2 1, cPay c 3 2 % 1024)

/-- OPEN_REQUEST_ARRIVAL (R265 step 3). -/
def openArrival (p : Nat) (s : State) : State :=
  match headCell s p [6] with
  | none => s
  | some (e, c) =>
    match ctlCheck p e c (popCell p s) with
    | (none, s1) => s1
    | (some s1, _) =>
      let src := srcOf c
      let r : OpenReq := ⟨src.1, src.2.1, src.2.2, cPay c 6 1, cPay c 8 1, cPay c 9 1, cPay c 7 1, cPay c 10 1⟩
      let x := epAt (coreAt s1 p) e
      if x.st = 1 then bindCheck p e r s1
      else if x.st = 0 ∧ x.parked = none then updEp p e (fun x => { x with parked := some r }) s1
      else replyTo p e src rRefuse 1 6 0 0 s1

/-- OPEN_REQUEST_ARRIVAL (R265). -/
def execOpenRequestArrival (p : Nat) (s : State) : Host.Outcome State Fault Refusal :=
  guarded (okCore p) "core" (openArrival p) s

/-- The member index of a source in a group. -/
def memberIdx (s : State) (g : Nat) (src : Nat × Nat × Nat) : Option Nat := (membersOf s g).find? fun i => decide (memberAt s g i = some src)

/-- A member of a multicast channel has answered or is fenced; the last one settles the endpoint (R305). -/
def memberAnswered (p e i : Nat) (refusal : Option Nat) (s : State) : State :=
  let x := epAt (coreAt s p) e
  let reason := if x.reason ≠ 0 then x.reason else refusal.getD 0
  let rest := x.await.filter (· ≠ i)
  if ¬ x.await.contains i then s
  else if rest.isEmpty then
    let w := match chanAt s x.decl with | some d => d.window | none => 0
    addObj p x.compl 1 (updEp p e (fun x => { x with await := [], reason := reason, st := if reason = 0 then 3 else 4,
                                                     credits := if reason = 0 then w else 0 }) s)
  else updEp p e (fun x => { x with await := rest, reason := reason }) s

/-- OPEN_REPLY_ARRIVAL (R265 step 5, R305): accept or refusal at an OPENING endpoint. -/
def openReply (p e : Nat) (c : FCell) (s : State) : State :=
  let x := epAt (coreAt s p) e
  let src := srcOf c
  let accept := decide (cPay c 6 1 = rAccept)
  if x.st ≠ 2 then s
  else match chanAt s x.decl with
    | none => s
    | some d =>
      if d.role = 2 then
        (match memberIdx s d.group src with
        | none => s
        | some i =>
          let s1 := if accept then updEp p e (fun x => { x with pepoch := cPay c 7 1 }) s else s
          memberAnswered p e i (if accept then none else some (cPay c 7 1)) s1)
      else if accept then
        addObj p x.compl 1 (updEp p e (fun x => { x with
          st := 3, bnd := true, peerMod := src.1, peerCore := src.2.1, peerEp := src.2.2
          pepoch := cPay c 7 1, credits := d.window, fseq := 0, rseq := 0 }) s)
      else addObj p x.compl 1 (updEp p e (fun x => { x with st := 4, reason := cPay c 7 1 }) s)

/-- A REPLY of one of the codes passes the checks and acts. -/
def onReply (p : Nat) (codes : List Nat) (f : Nat → FCell → State → State) (s : State) : State :=
  match headCell s p [7] with
  | none => s
  | some (e, c) =>
    if ¬ codes.contains (cPay c 6 1) then s
    else match ctlCheck p e c (popCell p s) with
      | (none, s1) => s1
      | (some s1, _) => f e c s1

/-- OPEN_REPLY_ARRIVAL (R265). -/
def execOpenReplyArrival (p : Nat) (s : State) : Host.Outcome State Fault Refusal :=
  guarded (okCore p) "core" (onReply p [rAccept, rRefuse] (openReply p)) s

/-- One credit comes back to an endpoint, up to its WINDOW (R269). -/
def addCredit (p e : Nat) (s : State) : State :=
  let w := match chanAt s (epAt (coreAt s p) e).decl with | some d => d.window | none => 0
  updEp p e (fun x => { x with credits := min (x.credits + 1) w }) s

/-- The fabric tag of a write whose third cell is named is freed (R295). -/
def freeWriteTag (p e fseq : Nat) (s : State) : State :=
  updCore p (fun c => { c with fe := { c.fe with ftags := c.fe.ftags.filter fun t => decide (t.2.ep ≠ e ∨ t.2.fseq ≠ some fseq) } }) s

/-- A reply comes from the receiver of an endpoint's cells, or from a member of its group (R271, R305). -/
def fromReader (s : State) (p e : Nat) (c : FCell) : Bool :=
  let x := epAt (coreAt s p) e
  match chanAt s x.decl with
  | some d => if d.role = 2 then (memberIdx s d.group (srcOf c)).isSome else decide (srcOf c = x.peer)
  | none => false

/-- A sender's endpoint learns that its reader is gone or in another epoch; cells that still wait behind a close are dropped too (R271,
R273). -/
def readerGone (p e : Nat) (c : FCell) (miss : Bool) (s : State) : State :=
  let x := epAt (coreAt s p) e
  if !(decide (x.st = 3) || (decide (x.st = 0) && hasBuffered (coreAt s p) e)) || !fromReader s p e c then s
  else
    let w := match chanAt s x.decl with | some d => d.window | none => 0
    let dropped := ((coreAt s p).ch.sbuf.filter fun y => decide (y.ep = e)).length
    let s1 := updCore p (fun k => { k with ch := { k.ch with sbuf := k.ch.sbuf.filter fun y => decide (y.ep ≠ e) } }) s
    let s2 := updEp p e (fun x => { x with st := if x.st = 0 then 0 else if miss then 6 else 5, credits := w }) s1
    let s3 := foldN dropped (fun s _ => dropSend p s) s2
    if miss then progFault 0x1C p (chStat p 2 s3) else progFault 0x1B p (chStat p 3 s3)

/-- The reply's effect at the sender (R271). -/
def senderReply (p e : Nat) (c : FCell) (s : State) : State :=
  let code := cPay c 6 1
  if code = rFord then freeWriteTag p e (cPay c 12 2) (chStat p 9 (addCredit p e s))
  else readerGone p e c (decide (code = rMiss)) s

/-- SENDER_REPLY_ARRIVAL (R271). -/
def execSenderReplyArrival (p : Nat) (s : State) : Host.Outcome State Fault Refusal :=
  guarded (okCore p) "core" (onReply p [rClosed, rMiss, rFord] (senderReply p)) s

/-- A credit for the cell `fseq` from a source: a multicast credit returns when its last member has returned it (R269, R305). -/
def creditBack (p e fseq : Nat) (src : Nat × Nat × Nat) (s : State) : State :=
  let x := epAt (coreAt s p) e
  match chanAt s x.decl with
  | none => s
  | some d =>
    if d.role = 2 then
      (match memberIdx s d.group src with
      | none => s
      | some i =>
        let upd := x.mcred.map fun m => if m.1 = fseq then (m.1, m.2.filter (· ≠ i)) else m
        let done := upd.any fun m => decide (m.1 = fseq) && m.2.isEmpty
        let s1 := updEp p e (fun x => { x with mcred := upd.filter fun m => !m.2.isEmpty }) s
        if done then addCredit p e s1 else s1)
    else freeWriteTag p e fseq (addCredit p e s)

/-- An endpoint whose cells may still be on their way: open, or closed behind them (R273). -/
def sendsOn (x : Ep) : Bool := decide (x.st = 3) || (decide (x.st = 0) && x.bnd)

/-- CREDIT_ARRIVAL (R269). -/
def creditArrival (p : Nat) (s : State) : State :=
  match headCell s p [8] with
  | none => s
  | some (e, c) =>
    match ctlCheck p e c (popCell p s) with
    | (none, s1) => s1
    | (some s1, _) => if sendsOn (epAt (coreAt s1 p) e) then creditBack p e (cPay c 8 2) (srcOf c) s1 else s1

/-- CREDIT_ARRIVAL (R269). -/
def execCreditArrival (p : Nat) (s : State) : Host.Outcome State Fault Refusal := guarded (okCore p) "core" (creditArrival p) s

/-- CLOSE_CELL_ARRIVAL (R273). -/
def closeArrival (p : Nat) (s : State) : State :=
  match headCell s p [9] with
  | none => s
  | some (e, c) =>
    match arrCheck p e 1 c (popCell p s) with
    | .gone s1 => s1
    | .unbound s1 => replyBound p e rClosed c s1
    | .epoch s1 => replyBound p e rMiss c s1
    | .cls s1 => updEp p e (fun x => { x with st := 0 }) (replyBound p e rClosed c s1)
    | .ok _ s1 => updEp p e (fun x => { x with st := 0 }) s1

/-- CLOSE_CELL_ARRIVAL (R273). -/
def execCloseCellArrival (p : Nat) (s : State) : Host.Outcome State Fault Refusal := guarded (okCore p) "core" (closeArrival p) s

/-- Fabric tag t of core p is freed. -/
def freeFabTag (p t : Nat) (s : State) : State :=
  updCore p (fun c => { c with fe := { c.fe with ftags := mdel t c.fe.ftags } }) s

/-- An FRESP cell that has passed the checks: the third of a row queues the row's deposit (R294). -/
def landResp (p e : Nat) (c : FCell) (s : State) : State :=
  let data := (cBytes c).take (cValid c)
  let grp := (coreAt s p).fe.groups.find? fun g => decide (g.ep = e) && g.resp
  let have_ := match grp with | some g => g.bytes | none => []
  let rest := (coreAt s p).fe.groups.filter fun g => decide (g.ep ≠ e) || !g.resp
  if !lastOfGroup c then
    updCore p (fun k => { k with fe := { k.fe with groups := rest ++ [⟨e, have_ ++ data, true⟩] } }) s
  else
    let s1 := updCore p (fun k => { k with fe := { k.fe with groups := rest } }) s
    let tag := cPay c 37 2
    match (coreAt s p).fe.ftags.find? fun t => decide (t.1 = tag) with
    | none => s1
    | some (_, t) =>
      let off := t.off + 128 * cPay c 36 1
      match elasticDest p t.hnd off 128 s1 with
      | some s2 =>
        if t.rows ≤ 1 then freeFabTag p tag s2
        else updCore p (fun k => { k with fe := { k.fe with ftags := mput tag { t with rows := t.rows - 1 } k.fe.ftags } }) s2
      | none => queueRows p t.hnd off [padTo 128 0 (have_ ++ data)] none (some tag) s1

/-- A discarded response frees its tag, which the third cell of a row names (R294, R295). -/
def respGone (p : Nat) (c : FCell) (s : State) : State := if lastOfGroup c then freeFabTag p (cPay c 37 2) s else s

/-- FRESP_ARRIVAL (R297). -/
def frespArrival (p : Nat) (s : State) : State :=
  match headCell s p [4] with
  | none => s
  | some (e, c) =>
    if heldUp s p c then s
    else match arrCheck p e 0 c (popCell p s) with
      | .gone s1 => s1
      | .unbound s1 => respGone p c s1
      | .epoch s1 => progFault 0x1C p (respGone p c s1)
      | .cls s1 => respGone p c s1
      | .ok _ s1 => landResp p e c s1

/-- FRESP_ARRIVAL (R297). -/
def execFrespArrival (p : Nat) (s : State) : Host.Outcome State Fault Refusal := guarded (okCore p) "core" (frespArrival p) s

/-! ### Barriers -/

/-- A counted arrival (R277): central on the root's flag, sense-reversing at its place in the tree. -/
def barArrived (p b phase count : Nat) (d : BarD) (s : State) : State :=
  if d.sense then
    treeCheck p b phase d (updCore p (fun c =>
      let t := mget (0, 0) c.ch.tree (2 * b + phase)
      { c with ch := { c.ch with tree := mput (2 * b + phase) (t.1 + 1, t.2 + count) c.ch.tree } }) s)
  else
    addObj p d.flag 1 { s with fab := { s.fab with barArr := mset 0 b (mget 0 s.fab.barArr b + 1) s.fab.barArr } }

/-- A BARRIER cell of one of the kinds passes the checks and acts. -/
def onBarrier (p : Nat) (kinds : List Nat) (f : Nat → BarD → FCell → State → State) (s : State) : State :=
  match headCell s p [10] with
  | none => s
  | some (e, c) =>
    if ¬ kinds.contains (cPay c 7 1) then s
    else match ctlCheck p e c (popCell p s) with
      | (none, s1) => s1
      | (some s1, _) =>
        match barAt s1 (cPay c 6 1) with
        | none => s1
        | some d => f (cPay c 6 1) d c (countAt p s1.clk.now 8 1 s1)

/-- BARRIER_ARRIVAL (R277). -/
def execBarrierArrival (p : Nat) (s : State) : Host.Outcome State Fault Refusal :=
  guarded (okCore p) "core" (onBarrier p [0] (fun b d c s => barArrived p b (cPay c 8 1 % 2) (cPay c 9 2) d s)) s

/-- A release at a participant, or a domain release at a module's root, which goes on down the tree of modules and to the module's
participants (R277, R278). -/
def barReleased (p b : Nat) (d : BarD) (c : FCell) (s : State) : State :=
  if cPay c 7 1 = 3 then
    releaseModule p b d (if d.sense then (treeKids d.fanin d.nmod s.task.modIdx).foldl (fun s k => toModule p b 3 k s) s else s)
  else releaseHere p b d s

/-- BARRIER_RELEASE (R277). -/
def execBarrierRelease (p : Nat) (s : State) : Host.Outcome State Fault Refusal :=
  guarded (okCore p) "core" (onBarrier p [1, 3] (barReleased p)) s

/-- A module's arrival (R278): central on the domain root's flag, sense-reversing at the module's place in the tree of modules. -/
def domArrived (p b : Nat) (d : BarD) (_c : FCell) (s : State) : State :=
  let s1 := { s with fab := { s.fab with barDom := mset 0 b (mget 0 s.fab.barDom b + 1) s.fab.barDom } }
  if d.sense then domCheck p b d s1 else addObj p d.flag 1 s1

/-- DOMAIN_BARRIER_ARRIVAL (R278). -/
def execDomainBarrierArrival (p : Nat) (s : State) : Host.Outcome State Fault Refusal :=
  guarded (okCore p) "core" (onBarrier p [2] (domArrived p)) s

/-- Takes a complete count off a root's flag at the end of its lc (R277). -/
def takeCount (p o n : Nat) (s : State) : State :=
  updCore p (fun c => { c with obj := mset 0 o (mget 0 c.obj o - n) c.obj }) s

/-- A central barrier at its root p as the lc ends: a flag that has reached P releases the module's own participants, one that has reached
NMOD at the domain root every module (R277, R278); arrivals of modules count apart from the module's own. -/
def barRoot (p : Nat) (s : State) (d : BarD) : State :=
  if d.sense ∨ physOf s d.root ≠ some p then s
  else
    let n := (barCores s d).length
    let dom := mget 0 s.fab.barDom d.bar
    let s1 := if 0 < n ∧ n + dom ≤ objAt (coreAt s p) d.flag then localDone p d.bar d (takeCount p d.flag n s) else s
    if d.scope ∧ 0 < d.nmod ∧ d.nmod ≤ dom ∧ d.nmod ≤ objAt (coreAt s1 p) d.flag then
      let s2 := takeCount p d.flag d.nmod { s1 with fab := { s1.fab with barDom := mdel d.bar s1.fab.barDom } }
      foldN d.nmod (fun s m => toModule p d.bar 3 m s) s2
    else s1

/-- The lc ends for the barriers rooted at core p, and releases of the lc count from the next on. -/
def barLc (p : Nat) (s : State) : State :=
  let s1 := match s.task.img with
    | none => s
    | some im => im.bars.foldl (barRoot p) s
  if (coreAt s1 p).ch.flips.isEmpty then s1
  else updCore p (fun c => { c with ch := { c.ch with
    phase := c.ch.flips.foldl (fun m b => mset 0 b (mget 0 m b + 1) m) c.ch.phase, flips := [] } }) s1

/-! ### Fenced acknowledgements -/

/-- The acknowledgement's effect by the type of the absorbed cell (R307). -/
def fencedAck (p e : Nat) (c : FCell) (s : State) : State :=
  let ty := cPay c 11 1
  let dst := (cPay c 8 2, cPay c 7 1)
  let a := corePage p + 0xB0
  let s1 := coreSrc p 10 (noteStat (corePage p) 0xB0 0 11 (note (.first a 0 2 8 dst.2) s))
  let s2 := if bbit (regAt s a) 0 ∨ (s.evts.any fun x => decide (x = .set a 1)) then s1
            else note (.put (corePage p + 0xB4) 0 16 dst.1) s1
  let x := epAt (coreAt s p) e
  let mem := match chanAt s x.decl with
    | some d => if d.role = 2 then (membersOf s d.group).find? fun i => match memberAt s d.group i with
        | some m => decide ((m.1, m.2.1) = dst) | none => false else none
    | none => none
  if ty = 6 then
    (match mem with
    | some i => memberAnswered p e i none s2
    | none => if x.st = 2 then addObj p x.compl 1 (updEp p e (fun x => { x with st := 4, reason := 4 }) s2) else s2)
  else if ty = 0 ∨ ty = 2 then freeWriteTag p e (cPay c 12 2) (addCredit p e s2)
  else if ty = 5 then
    (match mem with
    | some i => (match chanAt s x.decl with
      | some d => (match memberAt s d.group i with | some m => creditBack p e (cPay c 12 2) m s2 | none => s2)
      | none => s2)
    | none => s2)
  else if ty = 3 then freeFabTag p (cPay c 14 2) s2
  else s2

/-- FENCED_ACK_ARRIVAL (R307). -/
def execFencedAckArrival (p : Nat) (s : State) : Host.Outcome State Fault Refusal :=
  guarded (okCore p) "core" (onReply p [rFenced] (fencedAck p)) s

end Sys2Proof.Machine
end

