-- ==== Sys2Proof/Machine/Matrix.lean ====
section
/-! DEFINITION. The matrix side: weight tiles and side data (R150, R152 to R154), runs and their chunk results (R109, R149, R151, R155,
R157, R158), the ramp (R110, R156) and the residue checker (R160). -/
namespace Sys2Proof.Machine

/-- A bit of `CORE_MXFLT` (R170). -/
def mxFlt (p bit : Nat) (s : State) : State := noteStat (corePage p) 0x48 bit 4 s

/-- n bytes from the matrix side port; a byte that has not arrived reads as zero, a late arrival (R270). -/
def sideRead (p n : Nat) (s : State) : List Byte × State :=
  let r := takePort p 2 n s
  if r.1.length = n then r else (padTo n 0 r.1, portLate p r.2)

/-- n bytes of operand A at byte `off`, basin or side port (R108, R109). -/
def mxRead (ev : List HwEvent) (p : Nat) (i : Ins) (off : Int) (n : Nat) (s : State) : List Byte × State :=
  if iKind i 0 = 1 then exRead ev p (iSel i 0) off n s else sideRead p n s

/-- An activation row: its basin read has an execute slot of the compiler's choice in the 32 lc up to this one, which no field names
(R155). -/
def actRead (ev : List HwEvent) (p : Nat) (i : Ins) (off : Int) (s : State) : List Byte × State :=
  if iKind i 0 = 1 then exReadAt true ev p (iSel i 0) off 128 s else sideRead p 128 s

/-! ### Loads -/

/-- Loads whose lc has passed reach the shadow tile (R109): a row that a swap overtakes counts for it from 2 lc after its step on (DESIGN
CHOICE, notes/assumptions/65.md). -/
def settleLoads (now : Nat) (m : Mx) : Mx :=
  let due := m.load.filter fun l => decide (l.1 ≤ now)
  let shd := due.foldl (fun (w : Wt) l => match l.2.1 with
    | 0 => { w with rows := mset 0 l.2.2.1 l.2.2.2 w.rows }
    | 1 => { w with scales := mset 0 l.2.2.1 l.2.2.2 w.scales }
    | _ => { w with side := mput l.2.2.1 l.2.2.2 w.side }) m.shd
  { m with shd := shd, load := m.load.filter fun l => decide (now < l.1) }

/-- Scale bytes that an `MXLDW` step of an MX format takes (R153). -/
def scalesPerStep (fmt : Nat) : Nat := if fmt = 12 then 8 else if isMX fmt then 4 else 0

/-- Adds to a census counter; one that stops at its limit sets OVF (R167). -/
def cenAdd (a n : Nat) (c : Census) : Nat × Bool := (min (a + n) 0xFFFFFFFF, c.ovf || decide (0xFFFFFFFF < a + n))
def cenNan (n : Nat) (c : Census) : Census := { c with nan := (cenAdd c.nan n c).1, ovf := (cenAdd c.nan n c).2 }
def cenSat (n : Nat) (c : Census) : Census := { c with sat := (cenAdd c.sat n c).1, ovf := (cenAdd c.sat n c).2 }
/-- Events of lc t join the census when it is over (R167, R180). -/
def cenAt (p t : Nat) (f : Census → Census) (s : State) : State :=
  let d := f {}
  if d = {} then s else countAt p t 11 d.elems (updCore p (fun c => { c with pu := { c.pu with cenDue := c.pu.cenDue ++ [(t, d)] } }) s)

/-- Bytes of a row that are no T5 code (R131). -/
def badT5 (row : List Byte) : Nat := (row.filter fun b => decide (242 < b.toNat)).length

/-- One step of `MXLDW` in its lc: weight row j and, for an MX format, its scales (R150, R152, R153); invalid T5 codes count in the next lc
(R167). -/
def ldwStep (ev : List HwEvent) (p : Nat) (i : Ins) (j : Nat) (s : State) : State :=
  let fmt := iUmod i % 32
  let t := s.clk.now
  let (row, s1) := mxRead ev p i (offsetOf s p i 0 j) 128 s
  let n := scalesPerStep fmt
  let (sc, s2) := if n = 0 then (([] : List Byte), s1) else takePort p 2 n s1
  let s3 := if sc.length < n then progFault 0x09 p (mxFlt p 0 s2) else s2
  let s4 := if fmt = 18 ∧ j ≤ 102 then cenAt p (t + 1) (cenNan (5 * badT5 row)) s3 else s3
  let scl := (List.range n).map fun q => (t + 2, 1, n * j + q, (sc.getD q 0xFF).toNat)
  updCore p (fun c => { c with mx := { c.mx with load := c.mx.load ++ (t + 2, 0, j, leNat row) :: scl } }) s4

/-- `MXLDW` starts: the shadow's side data is invalid, and its rows follow (R152). -/
def ldwStart (p : Nat) (i : Ins) (s : State) : State :=
  updCore p (fun c => { c with mx := { settleLoads s.clk.now c.mx with
    shd := { (settleLoads s.clk.now c.mx).shd with fmt := some (iUmod i % 32), side := [] } } }) s

/-- MXLDW (R108, R152). -/
def execMxldw (p : Nat) (ev : List HwEvent) (s : State) : Host.Outcome State Fault Refusal :=
  guarded (okCore p) "core" (stepRun p 2 0x01 0 ev (fun _ s => fixedAt s.clk.now 0 1 (some 1) (some 3)) (ldwStart p)) s

/-- One step of `MXLDS` in its lc: side-data row j (R154). -/
def ldsStep (ev : List HwEvent) (p : Nat) (i : Ins) (j : Nat) (s : State) : State :=
  let (row, s1) := mxRead ev p i (offsetOf s p i 0 j) 128 s
  if j ≤ 40 then updCore p (fun c => { c with mx := { c.mx with load := c.mx.load ++ [(s.clk.now + 2, 2, j, leNat row)] } }) s1 else s1

/-- `MXLDS` starts: rows of an earlier load of the side data do not make it complete (R154). -/
def ldsStart (p : Nat) (_i : Ins) (s : State) : State :=
  updCore p (fun c => { c with mx := { settleLoads s.clk.now c.mx with shd := { (settleLoads s.clk.now c.mx).shd with side := [] } } }) s

/-- MXLDS (R154). -/
def execMxlds (p : Nat) (ev : List HwEvent) (s : State) : Host.Outcome State Fault Refusal :=
  guarded (okCore p) "core" (stepRun p 2 0x03 0 ev (fun _ s => fixedAt s.clk.now 0 1 (some 1) (some 3)) (ldsStart p)) s

/-! ### Tiles as values -/

/-- Pass K of a weight format (R149). -/
def passK (w : Nat) : Nat :=
  if w = 1 ∨ w = 2 then 64
  else if w = 7 ∨ w = 12 ∨ w = 13 ∨ w = 16 then 256
  else if w = 17 ∨ w = 18 then 512 else 128

/-- Elements per activation row (R151). -/
def actElems (a : Nat) : Nat :=
  if a = 1 ∨ a = 2 then 64 else if a = 7 ∨ a = 16 then 256 else if a = 17 then 512 else 128

/-- A pair the array accepts (R149). -/
def pairOk (w a : Nat) : Bool :=
  let act8 := [3, 4, 5, 6].contains a
  if w = 1 ∨ w = 2 then decide (a = w)
  else if [3, 4, 5, 6, 8, 9, 10, 11].contains w then act8
  else if [7, 12, 13].contains w then act8 || decide (a = 7)
  else if w = 15 then decide (a = 15)
  else if w = 16 then [15, 16].contains a
  else if w = 17 ∨ w = 18 then [15, 16, 17].contains a
  else false

/-- Parts per pass (R149). -/
def partsOf (w a : Nat) : Nat := passK w / actElems a

/-- Weight code of column c at K index k (R150). -/
def weightCode (t : Wt) (w c k : Nat) : Nat :=
  match passK w with
  | 64 => elemAt 16 (mget 0 t.rows (2 * k + c / 64)) (c % 64)
  | 256 => elemAt 4 (mget 0 t.rows (k / 2)) (2 * c + k % 2)
  | 512 => if w = 18 then elemAt 8 (mget 0 t.rows (k / 5)) c else elemAt 2 (mget 0 t.rows (k / 4)) (4 * c + k % 4)
  | _ => elemAt (fmtBits w) (mget 0 t.rows k) c

/-- The side data is complete (R154). -/
def sideComplete (t : Wt) : Bool := (List.range 41).all fun j => t.side.any fun x => decide (x.1 = j)
/-- The KF4 tile scale, block scale and outlier record (R154); zeros without complete side data (R108). -/
def tileScale (t : Wt) : Nat := if sideComplete t then bfield (mget 0 t.side 40) 0 32 else 0
def blockScale (t : Wt) (c k : Nat) : Nat := if sideComplete t then elemAt 8 (mget 0 t.side (k / 16)) c else 0
/-- Byte n of the side-data block. -/
def sideByte (t : Wt) (n : Nat) : Nat := elemAt 8 (mget 0 t.side (n / 128)) (n % 128)
def outlierRec (t : Wt) (c k : Nat) : Nat :=
  if sideComplete t then
    let n := 2048 + 6 * (128 * (k / 64) + c)
    (List.range 6).foldl (fun a j => a + sideByte t (n + j) * 256 ^ j) 0
  else 0

/-- Value of the weight of column c at K index k (R125, R127, R131); NaN in each chunk of a malformed outlier record (R129). -/
def weightVal (t : Wt) (w c k : Nat) : Val :=
  if w = 13 then kf4Eff (weightCode t w c k) (blockScale t c k) (outlierRec t c k) (k % 64)
  else if isMX w then mxVal w (mget 0 t.scales (128 * (k / 32) + c)) (weightCode t w c k)
  else elemVal w (weightCode t w c k)
/-- The same as a whole number (R130, R131). -/
def weightInt (t : Wt) (w c k : Nat) : Int :=
  if w = 18 then t5Digit (weightCode t w c k) (k % 5) else sext (fmtBits w) (weightCode t w c k)

/-- Chunk value of 32 K indices from k0 on against activation codes (R137 to R139, R142, R161 step 1). -/
def chunkOf (t : Wt) (w a c k0 : Nat) (codes : List Nat) : Int :=
  let n := codes.length
  if isIntFmt a then
    chunkI ((List.range n).map fun j => (sext (fmtBits a) (codes.getD j 0), weightInt t w c (k0 + j)))
  else
    let l := (List.range n).map fun j => (elemVal a (codes.getD j 0), weightVal t w c (k0 + j))
    if w = 1 ∨ w = 2 then (chunk16 l : Nat)
    else if w = 13 then (mul32 false (chunkF l) (tileScale t) : Nat)
    else (chunkF l : Nat)

/-- Chunk results of an activation row as part p: per column, in K order. -/
def rowChunks (t : Wt) (w a part : Nat) (row : Nat) : List (List Int) :=
  let n := actElems a
  let codes := (List.range n).map fun e => elemAt (fmtBits a) row e
  (List.range 128).map fun c => (List.range (n / 32)).map fun q => chunkOf t w a c (part * n + 32 * q) (slice (32 * q) 32 codes)

/-! ### Residue checker (R157 to R160) -/

/-- Fraction length of an operand's format (R157); for BF16 and FP16 from the chunk maximum exponent. -/
def fracLen (fmt : Nat) (e : Int) : Int :=
  match fmt with
  | 1 | 2 => 23 - e
  | 3 | 8 => 9
  | 4 | 9 => 16
  | 5 | 10 => 4
  | 6 | 11 => 3
  | 7 | 12 => 1
  | 13 => 18
  | _ => 0
/-- A finite value at a fraction length, as a whole number, truncated toward zero (R138, R157). -/
def fixedAtF (f : Int) (v : Val) : Int :=
  match v with
  | .fin n m e =>
    let k : Nat := if 0 ≤ e + f then m <<< (e + f).toNat else m >>> (-(e + f)).toNat
    if n then -(k : Int) else k
  | _ => 0
/-- The term of a product (R159): its sign, and the residues of its factors multiplied mod 4,095. -/
def resTerm (x : Int × Int) : Int := (x.1 * x.2).sign * ((x.1.natAbs % 4095) * (x.2.natAbs % 4095) % 4095 : Nat)
/-- The checker's residue of a chunk from the factors of its products (R159); `rho_eq` (Sys2Proof/Laws/Matrix.lean) says that it is A mod 4,095. -/
def rho (l : List (Int × Int)) : Int := (l.foldl (fun r x => r + resTerm x) 0) % 4095
/-- The accumulator of a chunk (R157, R158): the exact sum of its products. -/
def accA (l : List (Int × Int)) : Int := l.foldl (fun a x => a + x.1 * x.2) 0

/-- The weight of column c at K index k as the array multiplies it, without its MX scale: q(k) for KF4 (R157, R158). -/
def cellVal (t : Wt) (w c k : Nat) : Val :=
  if w = 13 then mulV (decUE5M3 (blockScale t c k)) (decF fE2M1 (weightCode t w c k)) else elemVal w (weightCode t w c k)
/-- The products of a chunk as pairs of whole numbers, the corrections of the outlier lane among them (R157 to R159). -/
def chunkPairs (t : Wt) (w a c k0 : Nat) (codes : List Nat) : List (Int × Int) :=
  let ks := List.range codes.length
  if isIntFmt a then ks.map fun j => (sext (fmtBits a) (codes.getD j 0), weightInt t w c (k0 + j))
  else
    let av := ks.map fun j => elemVal a (codes.getD j 0)
    let wv := ks.map fun j => cellVal t w c (k0 + j)
    let fa := fracLen a ((maxExp av).getD 0)
    let fw := fracLen w ((maxExp wv).getD 0)
    ks.flatMap fun j =>
      let ia := fixedAtF fa (av.getD j .nan)
      let iq := fixedAtF fw (wv.getD j .nan)
      (ia, iq) :: (if w = 13 then match orAt (outlierRec t c (k0 + j)) ((k0 + j) % 64) with
        | some o => [(ia, fixedAtF fw (decF fBF16 o) - iq)]
        | none => [] else [])
/-- The status bits of a chunk are clear (R139, R157). -/
def chunkClear (t : Wt) (w a c k0 : Nat) (codes : List Nat) : Bool :=
  isIntFmt a || (match chunkSum ((List.range codes.length).map fun j => (elemVal a (codes.getD j 0), weightVal t w c (k0 + j))) with
    | .fin _ _ _ => true
    | _ => false)

/-- A column's residue differs (R160). -/
def residueHit (p col : Nat) (s : State) : State :=
  let a := corePage p + 0x40
  coreSrc p 0 (note (.set (corePage p + 0x10) 4) (note (.set a (1 <<< 23)) (note (.first a 23 16 7 col) (note (.add a 0 16 1) s))))
/-- The residues that a command's events give for a row of a run, as part `part` on weights of format w: a mismatch where one differs from
the accumulator's, in a chunk whose status bits are clear (R159, R160). Where no event strikes, rho is that residue (`rho_eq`). -/
def residues (ev : List HwEvent) (p k w a part : Nat) (row : List Byte) (s : State) : State :=
  ev.foldl (fun s e => match e with
    | .residue q col j ch r =>
      if q ≠ p ∨ j ≠ k ∨ actElems a ≤ 32 * ch then s
      else
        let t := (coreAt s p).mx.act
        let codes := slice (32 * ch) 32 ((List.range (actElems a)).map fun e => elemAt (fmtBits a) (leNat row) e)
        let k0 := part * actElems a + 32 * ch
        if chunkClear t w a (col % 128) k0 codes && decide (((r % 4096 : Nat) : Int) % 4095 ≠ accA (chunkPairs t w a (col % 128) k0 codes) % 4095)
        then residueHit p (col % 128) s else s
    | _ => s) s

/-- Chunks of a run whose weights are no tile of its pair (R149): as many as the activation's 8-bit, 4-bit, 2-bit or 16-bit kind has; 0 for an
integer activation format, else NaN. -/
def deadChunks (a : Nat) : List (List Int) :=
  let int := decide (a = 15 ∨ a = 16 ∨ a = 17)
  let n := if a = 1 ∨ a = 2 then 2 else if a = 7 ∨ a = 12 ∨ a = 13 ∨ a = 16 then 8 else if a = 17 ∨ a = 18 then 16 else 4
  List.replicate 128 (List.replicate n (if int then 0 else (nan32 : Int)))

/-! ### Runs -/

/-- W of R110: 32 for the first run of a segment, whatever ran over the hold (R104). -/
def rampW (m : Mx) (now : Nat) : Nat :=
  match if m.fresh then none else m.lastE with
  | none => 32
  | some e => if now < e + 64 then 0 else if now < e + 96 then 64 - (now - (e + 64)) else 32

/-- Activity of the array at lc t: 0 cold, 1 ramping up, 2 warm, 3 ramping down (R156). -/
def rampState (m : Mx) (t : Nat) : Nat :=
  match m.down with
  | some d => if t < d + 32 then 3 else 0
  | none => match m.up with
    | none => 0
    | some u =>
      if t < u then 3 else if t < u + 32 then 1
      else match m.lastE with
        | none => 0
        | some e => if t < e + 64 then 2 else if t < e + 96 then 3 else 0

/-- Activity of core p's array: cold on an array-less or fenced core (R156, R169). -/
def arrayState (s : State) (p : Nat) : Nat :=
  let c := coreAt s p
  if hasArray s p && !c.fenced then rampState c.mx s.clk.now else 0

/-- The result row of a step of `MXRUN` from its activation rows, 264 lc after it began at lc b (R109, R151, R155). -/
def runResult (ev : List HwEvent) (p : Nat) (i : Ins) (b k : Nat) (r0 r1 : List Byte) (s : State) : State :=
  let a := iUmod i / 2 % 32
  let tile := (coreAt s p).mx.act
  let w := tile.fmt.getD a
  let good := match tile.fmt with | some f => pairOk f a | none => false
  let pp := if good then partsOf w a else 1
  let val := fun (part : Nat) (row : List Byte) => if good then rowChunks tile w a part (leNat row) else deadChunks a
  let s1 := if !good then s
    else if a = 1 ∨ a = 2 then residues ev p (2 * k + 1) w a 0 r1 (residues ev p (2 * k) w a 0 r0 s)
    else residues ev p k w a (k % pp) r0 s
  let outs := if a = 1 ∨ a = 2 then [(2 * k, 0, val 0 r0), (2 * k + 1, 0, val 0 r1)] else [(k / pp, k % pp, val (k % pp) r0)]
  countAt p b 2 1 (updCore p (fun c => { c with mx := { c.mx with fly := c.mx.fly ++ [⟨b + 264, decide (a = 15 ∨ a = 16 ∨ a = 17), outs⟩] } }) s1)

/-- A wide activation takes two rows, one in each lc of the step (R151). -/
def isWide (i : Ins) : Bool := decide (iUmod i / 2 % 32 = 1 ∨ iUmod i / 2 % 32 = 2)

/-- A lc of `MXRUN`: an activation row enters; the wide formats' first row waits for the second. Answers the row that waits. -/
def runStep (p : Nat) (w : Work) (s : State) : List Byte × State :=
  let i := w.ins
  if !w.part then
    ([], if isWide i && decide (w.k % 2 = 0) then s else
      updCore p (fun c => { c with mx := { c.mx with
        fly := c.mx.fly ++ [⟨(if isWide i then s.clk.now - 1 else s.clk.now) + 264, false, []⟩] } }) s)
  else if isWide i then
    let k := w.k / 2
    if w.k % 2 = 0 then actRead w.ev p i (offsetOf s p i 0 k) s
    else
      let (r1, s1) := actRead w.ev p i (offsetOf s p i 0 k + 128) s
      ([], runResult w.ev p i (s.clk.now - 1) k w.acc.bytes r1 s1)
  else
    let (r0, s1) := actRead w.ev p i (offsetOf s p i 0 w.k) s
    ([], runResult w.ev p i s.clk.now w.k r0 [] s1)

/-- Exchanges the tiles (R109). -/
def swapTiles (m : Mx) : Mx := { m with act := m.shd, shd := m.act }

/-- A run begins: loads settle, a swap takes place, a cold array ramps up (R109, R110, R156). -/
def runBegin (p : Nat) (i : Ins) (tm : Timing) (w : Nat) (part : Bool) (s : State) : State :=
  updCore p (fun c =>
    let m := settleLoads s.clk.now c.mx
    let m1 := if part && bbit (iUmod i) 0 then swapTiles m else m
    { c with mx := { m1 with
      lastE := some (tm.b (iSteps i - 1) + tm.t), down := none, fresh := false
      up := if part then (if w = 0 then m.up else some (tm.b 0 - 32)) else none } }) s

/-- What `MXRUN` finds wrong with the active tile at its start (R108, R149). -/
def runChecks (p : Nat) (i : Ins) (s : State) : State :=
  let tile := (coreAt s p).mx.act
  let good := match tile.fmt with | some f => pairOk f (iUmod i / 2 % 32) | none => false
  let s1 := if good then s else progFault 0x0B p (mxFlt p 6 s)
  if good && decide (tile.fmt = some 13) && !sideComplete tile then progFault 0x06 p (mxFlt p 1 s1) else s1

/-- MXRUN (R109): its rows follow, one an lc; a core that does not participate passes empty rows at the same lc (R57). -/
def mxRun (ev : List HwEvent) (p : Nat) (s : State) : State :=
  match startable s p 2 0x02 with
  | none => s
  | some i =>
    let w := rampW (coreAt s p).mx s.clk.now
    let tm := fixedAt s.clk.now w (if isWide i then 2 else 1) (some 1) (some 264)
    let part := participates s p i
    let th := thrOf (coreAt s p) 2
    let s1 := runBegin p i tm w part (startUnit p 2 i tm s)
    let s2 := if part then runChecks p i s1 else s1
    addWork p { ins := i, ev := ev, part := part, thr := th, s0 := s.clk.now, due := tm.b 0, t := 1 } s2

/-- MXRUN (R109). -/
def execMxrun (p : Nat) (ev : List HwEvent) (s : State) : Host.Outcome State Fault Refusal := guarded (okCore p) "core" (mxRun ev p) s

/-- ARRAY_RAMP_DOWN (R156): from 64 lc after the last release the idle array ramps down and is cold 32 lc later. -/
def rampDown (p : Nat) (s : State) : State :=
  let m := (coreAt s p).mx
  match m.lastE, m.down with
  | some e, none =>
    if e + 64 ≤ s.clk.now ∧ m.up ≠ none then
      updCore p (fun c => { c with mx := { c.mx with down := some (e + 64) } }) s
    else s
  | _, _ => s

/-- ARRAY_RAMP_DOWN (R156). -/
def execArrayRampDown (p : Nat) (s : State) : Host.Outcome State Fault Refusal := guarded (okCore p) "core" (rampDown p) s

/-- The instruction is an `MXRUN`. -/
def isMxrun (i : Ins) : Bool := decide (iUnit i = 2 ∧ iOp i = 0x02)
/-- An `MXRUN` that the core makes is issued and has not started: it waits in the core's queue or is on its way there (R48). -/
def runWaits (s : State) (p : Nat) : Bool :=
  (unitQ (coreAt s p) 2 ++ (daleAt s (daleOf p)).flight.flatMap (·.ins)).any fun i => isMxrun i && participates s p i

/-- A dale reaches a hold: an idle array that is not cold ramps down from this lc, and a run issued before it that is released later, one
still in the queue included, is a fault (R104). -/
def holdRamp (p : Nat) (s : State) : State :=
  let late := fun s => progFault 0x04 p (mxFlt p 2 s)
  let s1 := if runWaits s p then late s else s
  let m := (coreAt s p).mx
  match m.lastE with
  | none => s1
  | some e =>
    if s.clk.now < e then (if m.up = none ∨ runWaits s p then s1 else late s)
    else updCore p (fun c => { c with mx := { c.mx with
      lastE := none, up := none
      down := if m.up = none then none else some (if m.down.isSome ∨ e + 64 ≤ s.clk.now then e + 64 else s.clk.now) } }) s1

/-- A lc of a matrix instruction, and what it keeps for the next one. -/
def mxStep (p : Nat) (w : Work) (s : State) : Gath × State :=
  match iOp w.ins with
  | 0x01 => (w.acc, ldwStep w.ev p w.ins w.k s)
  | 0x03 => (w.acc, ldsStep w.ev p w.ins w.k s)
  | _ =>
    let r := runStep p w s
    ({ w.acc with bytes := r.1 }, r.2)

end Sys2Proof.Machine
end

