-- ==== Sys2Proof/Machine/Post.lean ====
section
/-! DEFINITION. The post unit: input FIFO (R112), accumulator (R161 to R163), flush, scale and bias (R164, R165), census (R167, R168) and
duplicated arithmetic (R166). -/
namespace Sys2Proof.Machine

/-- The duplicated units differ (R166). -/
def dupHits (ev : List HwEvent) (p : Nat) (s : State) : State :=
  ev.foldl (fun s e => match e with
    | .dupadd q => if q = p then coreSrc p 1 (note (.set (corePage p + 0x10) 8) (note (.add (corePage p + 0x44) 0 16 1) s)) else s
    | _ => s) s

/-! ### Pushes -/

/-- What a push does to an element: the element, and which fault it meets: 0 none, 1 order or span, 2 depth (R162). -/
def mergeEnt (v c lvl : Nat) : Nat → List AccEnt → List AccEnt × Nat
  | 0, _ => ([], 2)
  | fuel + 1, ents =>
    match ents.getLast? with
    | some top =>
      if top.lvl = lvl ∧ (c / 2 ^ lvl) % 2 = 1 then mergeEnt (rneAdd top.v v) (c - 2 ^ lvl) (lvl + 1) fuel ents.dropLast
      else if 4 ≤ ents.length then (ents, 2) else (ents ++ [⟨v, c, lvl⟩], 0)
    | none => ([⟨v, c, lvl⟩], 0)

/-- A float push (R162). -/
def pushFloat (v c lvl : Nat) (e : AccElem) : AccElem × Nat :=
  if e.bad then (e, 0)
  else match e.ents.getLast? with
    | some top =>
      if c ≠ top.c + 2 ^ top.lvl ∨ c / 65536 ≠ top.c / 65536 then ({ e with ents := [], bad := true }, 1)
      else
        let r := mergeEnt v c lvl 20 e.ents
        if r.2 = 0 then ({ e with ents := r.1 }, 0) else ({ e with ents := [], bad := true }, 2)
    | none => ({ e with ents := [⟨v, c, lvl⟩] }, 0)

/-- An integer push: exact, stopped at 48 bits for good; whether it saturates now (R142, R163). -/
def pushInt (v : Int) (e : AccElem) : AccElem × Bool :=
  if e.stuck then (e, false)
  else
    let r := sat48 (e.sum + v)
    ({ e with sum := r.1, stuck := r.2 }, r.2)

/-- A row of pushes of a `PUACC` step: accumulator row, integer mode, first chunk, level and a value per column (R161). -/
structure PushRow where
  row : Nat
  int : Bool
  c : Nat
  lvl : Nat
  vals : List Int
  deriving DecidableEq, Repr

/-- Two census counts added (R167, R180). -/
def cenJoin (a b : Census) : Census :=
  let f := fun (x y : Nat) => min (x + y) 0xFFFFFFFF
  let o := fun (x y : Nat) => decide (0xFFFFFFFF < x + y)
  { zero := f a.zero b.zero, subn := f a.subn b.subn, sat := f a.sat b.sat, nan := f a.nan b.nan, inf := f a.inf b.inf
    elems := f a.elems b.elems, amax := max a.amax b.amax, int := a.int || b.int
    ovf := a.ovf || b.ovf || o a.zero b.zero || o a.subn b.subn || o a.sat b.sat || o a.nan b.nan || o a.inf b.inf || o a.elems b.elems }

/-- Events of an lc before `t` join the counters. -/
def settleCen (p t : Nat) (s : State) : State :=
  if (coreAt s p).pu.cenDue.any fun x => decide (x.1 < t) then
    updCore p (fun c => { c with pu := { c.pu with
      cen := (c.pu.cenDue.filter fun x => decide (x.1 < t)).foldl (fun a x => cenJoin a x.2) c.pu.cen
      cenDue := c.pu.cenDue.filter fun x => decide (t ≤ x.1) } }) s
  else s

/-- A row of pushes lands in this lc (R161 step 3, R162, R163); a sum that stops at 48 bits is counted (R167). -/
def landPush (p : Nat) (x : PushRow) (s : State) : State :=
  let row := mget {} (coreAt s p).pu.acc x.row
  let put := fun (elems : List AccElem) (s : State) =>
    updCore p (fun c => { c with pu := { c.pu with acc := mput x.row { mode := some x.int, elems := elems } c.pu.acc } }) s
  if x.int then
    let r := (row.elems.zip x.vals).map fun ev => pushInt ev.2 ev.1
    let sats := (r.filter (·.2)).length
    cenAt p s.clk.now (fun c => if sats = 0 then c else cenSat sats c) (put (r.map (·.1)) s)
  else
    let r := (row.elems.zip x.vals).map fun ev => pushFloat ev.2.toNat x.c x.lvl ev.1
    let s1 := put (r.map (·.1)) s
    let s2 := if r.any fun y => decide (y.2 = 1) then progFault 0x0A p (mxFlt p 4 s1) else s1
    if r.any fun y => decide (y.2 = 2) then progFault 0x0A p (mxFlt p 5 s2) else s2

/-! ### PUACC -/

/-- Values of a row that the step pushes: rounded chunks folded by the tree, or their exact sum; a row of the other mode is NaN or 0
(R161, R163). -/
def foldChunks (int good : Bool) (cols : List (List Int)) : List Int :=
  cols.map fun l =>
    if int then (if good then l.foldl (· + ·) 0 else 0)
    else if good then (treeFold rneAdd 16 (l.map Int.toNat) : Nat) else (nan32 : Int)

/-- Step k of `PUACC` in its lc, on a result row: its pushes land after what a flush of this lc has taken (R165). -/
def accStep (p : Nat) (i : Ins) (k : Nat) (r : RRow) (s : State) : State :=
  let int := bbit (iUmod i) 0
  let good := decide (r.int = int)
  let base := immOf s p i 1 k
  let s1 := if good || r.outs.isEmpty then s else progFault 0x0B p (mxFlt p 6 s)
  r.outs.foldl (fun s o =>
    let n := (o.2.2.headD []).length
    landPush p { row := o.1 % 64, int := int, c := base + o.2.1 * n, lvl := n.log2, vals := foldChunks int good o.2.2 } s)
    (countAt p s.clk.now 3 (b2n !r.outs.isEmpty) s1)

/-- The signals of step k of a paced instruction that ran at lc t (R82, R99). -/
def pacedSigs (i : Ins) (k t r d : Nat) : List Sig :=
  [iSig i 0, iSig i 1].flatMap fun f =>
    if 56 ≤ f.1 then []
    else if f.2.2 = 1 ∧ k + 1 = iSteps i then [⟨t + r, f.1, f.2.1⟩]
    else if f.2.2 = 2 ∧ k + 1 = iSteps i then [⟨t + d, f.1, f.2.1⟩]
    else if 8 ≤ f.2.2 ∧ f.2.2 < 14 ∧ (k + 1) % iInner i (f.2.2 - 8) = 0 then [⟨t + d, f.1, f.2.1⟩]
    else []

/-- A running `PUACC` takes the oldest row of the FIFO, one in an lc (R99, R111). -/
def accLc (p : Nat) (s : State) : State :=
  let c := coreAt s p
  match c.pu.run, c.pu.fifo with
  | some r, row :: rest =>
    let fin := decide (r.done + 1 = iSteps r.ins)
    accStep p r.ins r.done row (updCore p (fun c => { c with
      pu := { c.pu with fifo := rest, run := if fin then none else some { r with done := r.done + 1 } }
      busy := if fin then mput 4 (s.clk.now + 1) c.busy else c.busy
      sigs := c.sigs ++ pacedSigs r.ins r.done s.clk.now 1 6 }) s)
  | _, _ => s

/-- PUACC (R111): its steps follow as rows arrive; a core that does not participate takes the empty rows of its runs in the same lc. -/
def puacc (ev : List HwEvent) (p : Nat) (s : State) : State :=
  match startable s p 3 0x01 with
  | none => s
  | some i =>
    let s1 := startUnit p 3 i ⟨fun _ => 2 ^ 62, 1, none, none⟩ s
    dupHits ev p (updCore p (fun c => { c with pu := { c.pu with run := some { ins := i } } }) s1)

/-- PUACC (R111). -/
def execPuacc (p : Nat) (ev : List HwEvent) (s : State) : Host.Outcome State Fault Refusal := guarded (okCore p) "core" (puacc ev p) s

/-- POST_INPUT_ARRIVAL (R112): a row that meets 64 rows is dropped; one that `PUACC` takes in this lc still counts among them, since the
arrival comes first (DESIGN CHOICE, notes/assumptions/65.md). -/
def postArrival (p : Nat) (s : State) : State :=
  let c := coreAt s p
  match c.mx.fly with
  | [] => s
  | r :: rest =>
    if s.clk.now < r.due then s
    else
      let s1 := updCore p (fun c => { c with mx := { c.mx with fly := rest } }) s
      if 64 ≤ c.pu.fifo.length then (if r.outs.isEmpty then s1 else progFault 0x07 p (mxFlt p 3 s1))
      else updCore p (fun c => { c with pu := { c.pu with fifo := c.pu.fifo ++ [r] } }) s1

/-- POST_INPUT_ARRIVAL (R112). -/
def execPostInputArrival (p : Nat) (s : State) : Host.Outcome State Fault Refusal := guarded (okCore p) "core" (postArrival p) s

/-! ### Outputs -/

/-- An output element is counted (R167): an FP32 code, or an INT32. -/
def cenOut (int : Bool) (code : Nat) (c : Census) : Census :=
  let v := if int then valInt (sext 32 code) else v32 code
  let mag := if int then r32 false (valInt ((sext 32 code).natAbs)) else code % 2 ^ 31
  let c1 := { c with elems := (cenAdd c.elems 1 c).1, ovf := (cenAdd c.elems 1 c).2, int := c.int || int }
  match v with
  | .nan => { c1 with nan := (cenAdd c1.nan 1 c1).1, ovf := (cenAdd c1.nan 1 c1).2 }
  | .inf _ => { c1 with inf := (cenAdd c1.inf 1 c1).1, ovf := (cenAdd c1.inf 1 c1).2 }
  | .fin _ m _ =>
    if m = 0 then { c1 with zero := (cenAdd c1.zero 1 c1).1, ovf := (cenAdd c1.zero 1 c1).2 }
    else
      let c2 := { c1 with amax := max c1.amax mag }
      if ¬ int ∧ mag < 2 ^ 23 then { c2 with subn := (cenAdd c2.subn 1 c2).1, ovf := (cenAdd c2.subn 1 c2).2 } else c2

/-- A row of 128 results goes to tile operand A at lc t, and is counted then (R164, R167). -/
def putOut (p : Nat) (i : Ins) (int : Bool) (t k : Nat) (codes : List Nat) (s : State) : State :=
  addLate p t [] (.tile 0 (iSel i 0) (offsetOf s p i 0 k) (packRow 32 512 codes))
    (cenAt p t (fun c => codes.foldl (fun c x => cenOut int x c) c) s)

/-- Element as the fold of its entries from the top down; an empty one is +0 (R164 step 1). -/
def foldEnts (e : AccElem) : Nat :=
  if e.bad then nan32
  else match e.ents.reverse with
    | [] => 0
    | top :: rest => rest.foldl (fun acc x => rneAdd x.v acc) top.v

/-- Bank of the row at byte `off` of a handle. -/
def bankAt (s : State) (p h : Nat) (off : Int) : Nat := (hndAt (coreAt s p) h).bank (off.toNat / 128)

/-- Lc of the instruction, 0 or 1, in which row k of its scale and bias block is read: the first four rows in the first, a row in the other
one where its bank is a deposit bank in its own (R164 step 2, R203; notes/assumptions/49.md). `v` is the lc at hand. -/
def blockLc (s : State) (p h : Nat) (off : Int) (v k : Nat) : Nat :=
  if isDepositSlot s (tickLc s (s.clk.now + k / 4 - v)) (bankAt s p h (off + (128 * k : Nat))) then 1 - k / 4 else k / 4

/-- The rows of the block of 128 scales and 128 biases, operand j, that lc v of the instruction reads; none where no term is selected
(R164 step 2). -/
def readBlock (p : Nat) (w : Work) (j v : Nat) (s : State) : Gath × State :=
  let i := w.ins
  if iUmod i % 4 = 0 ∨ iKind i j ≠ 1 ∨ 2 ≤ v then (w.acc, s)
  else
    let off := offsetOf s p i j 0
    ((List.range 8).filter fun k => decide (blockLc s p (iSel i j) off v k = v)).foldl (fun (x : Gath × State) k =>
      let r := exRead w.ev p (iSel i j) (off + (128 * k : Nat)) 128 x.2
      ({ x.1 with rows := mput k r.1 x.1.rows }, r.2)) (w.acc, s)

/-- The block as bytes. -/
def blockOf (g : Gath) : List Byte := (List.range 8).flatMap fun k => mget [] g.rows k

/-- Scale and bias of column c (R164 step 2). -/
def scaled32 (i : Ins) (blk : List Byte) (c acc : Nat) : Nat :=
  let a := if bbit (iUmod i) 0 then mul32 false acc (leAt (4 * c) 4 blk) else acc
  if bbit (iUmod i) 1 then add32 false a (leAt (512 + 4 * c) 4 blk) else a

/-- Step k of `PUFLUSH` takes accumulator row k mod 64 as it stood before this lc, and leaves it empty (R164, R165). -/
def flushTake (p k : Nat) (s : State) : AccRow × State :=
  (mget {} (coreAt s p).pu.acc (k % 64), updCore p (fun c => { c with pu := { c.pu with acc := mdel (k % 64) c.pu.acc } }) s)

/-- The outputs of step k of `PUFLUSH` from the row it took, written at lc t (R164). -/
def flushOut (p : Nat) (i : Ins) (blk : List Byte) (t k : Nat) (row : AccRow) (s : State) : State :=
  let int := bbit (iUmod i) 2
  if row.mode = some (!int) then
    putOut p i int t k (List.replicate 128 (if int then 0 else nan32)) (progFault 0x0B p (mxFlt p 6 s))
  else if int ∧ iUmod i % 4 = 0 then
    let r := row.elems.map fun e => sat32 e.sum
    let sats := (r.filter (·.2)).length
    putOut p i true t k (r.map fun x => wrapN 32 x.1) (cenAt p t (fun c => if sats = 0 then c else cenSat sats c) s)
  else
    putOut p i false t k ((List.range 128).map fun c =>
      let e := row.elems.getD c {}
      scaled32 i blk c (if int then r32 false (valInt e.sum) else foldEnts e)) s

/-- Lc v of `PUFLUSH`: rows of the block are read, step v takes its row, and the row that step v - 1 took is worked out, since the block is
complete only in the second lc; it is written 19 lc after its own step (R99, R164). -/
def flushStep (p : Nat) (w : Work) (s : State) : Gath × State :=
  let (g, s1) := readBlock p w 1 w.k s
  let s2 := match g.held with
    | some row => flushOut p w.ins (blockOf g) (s.clk.now + 18) (w.k - 1) row s1
    | none => s1
  if w.k < iSteps w.ins then
    let r := flushTake p w.k s2
    ({ g with held := some r.1 }, r.2)
  else ({ g with held := none }, s2)

/-- PUFLUSH (R164). -/
def execPuflush (p : Nat) (ev : List HwEvent) (s : State) : Host.Outcome State Fault Refusal :=
  guarded (okCore p) "core" (stepRun p 3 0x02 0 ev (fun _ s => fixedAt s.clk.now 0 1 (some 1) (some 20)) fun _ s => dupHits ev p s) s

/-- Lc v of `PUVEC`: rows of the block are read, and step v - 1 reads tile B, the lc after it began; it is written 11 lc after it began
(R99, R164). -/
def vecStep (p : Nat) (w : Work) (s : State) : Gath × State :=
  let (g, s1) := readBlock p w 2 w.k s
  if w.k = 0 then (g, s1)
  else
    let k := w.k - 1
    let (src, s2) := tileRead p (iSel w.ins 1) (offsetOf s p w.ins 1 k) 512 s1
    (g, putOut p w.ins false (s.clk.now + 10) k ((List.range 128).map fun c => scaled32 w.ins (blockOf g) c (leAt (4 * c) 4 src)) s2)

/-- PUVEC (R164). -/
def execPuvec (p : Nat) (ev : List HwEvent) (s : State) : Host.Outcome State Fault Refusal :=
  guarded (okCore p) "core" (stepRun p 3 0x05 0 ev (fun _ s => fixedAt s.clk.now 0 1 (some 2) (some 12)) fun _ s => dupHits ev p s) s

/-- The census record (R168). -/
def cenBytes (c : Census) (seq : Nat) : List Byte :=
  [c.zero, c.subn, c.sat, c.nan, c.inf, c.elems, c.amax, seq % 65536 + b2n c.int * 2 ^ 16 + b2n c.ovf * 2 ^ 17].flatMap (leBytes 4)

/-- Step k of `PUCENSUS` (R168, R180, R348): the record goes to the basin 5 lc later, the counts to the commit logic, and the counters, as
the last lc left them, clear. -/
def censusStep (p : Nat) (i : Ins) (k : Nat) (s : State) : State :=
  let c := (coreAt s p).pu.cen
  let seq := (coreAt s p).pu.seq
  let s1 := addLate p (s.clk.now + 5) [] (.basin 6 (iSel i 0) (offsetOf s p i 0 k) (cenBytes c seq)) s
  let s2 := updCore p (fun c => { c with pu := { c.pu with cen := {}, seq := seq + 1 } }) s1
  if (coreAt s p).mode = .threaded then s2
  else { s2 with cmt := { s2.cmt with cen := s2.cmt.cen ++ [(p, seq % 65536, [c.zero, c.sat, c.nan, c.inf, c.elems])] } }

/-- PUCENSUS (R168). -/
def execPucensus (p : Nat) (s : State) : Host.Outcome State Fault Refusal :=
  guarded (okCore p) "core" (stepRun p 3 0x03 0 [] (fun _ s => fixedAt s.clk.now 0 1 none (some 6)) fun _ s => s) s

/-- A step of `PUCLR` (R165); events of results still to be written count after it. -/
def clearStep (p : Nat) (s : State) : State := updCore p (fun c => { c with pu := { c.pu with acc := [], cen := {} } }) s

/-- PUCLR (R165). -/
def execPuclr (p : Nat) (s : State) : Host.Outcome State Fault Refusal :=
  guarded (okCore p) "core" (stepRun p 3 0x04 0 [] (fun _ s => fixedAt s.clk.now 0 2 none (some 2)) fun _ s => s) s

/-- A lc of a post-unit instruction, and what it keeps for the next one. -/
def puStep (p : Nat) (w : Work) (s : State) : Gath × State :=
  match iOp w.ins with
  | 0x02 => flushStep p w s
  | 0x05 => vecStep p w s
  | 0x03 => (w.acc, censusStep p w.ins w.k s)
  | _ => (w.acc, clearStep p s)

end Sys2Proof.Machine
end

