-- ==== Sys2Proof/Machine/Vector.lean ====
section
/-! DEFINITION. The vector engine: loads and stores (R171, R172), element programs (R175 to R179), conversions (R133, R181 to R184),
compress, expand and band (R185 to R188), moves of bit fields (R189 to R191), masks (R192), combination, accumulation, optimiser and random
draws (R193 to R197). -/
namespace Sys2Proof.Machine

/-! ### Steps -/

/-- An ALU instruction of fixed timing: step interval t, read depth r, result depth d; its steps read at b + r - 1 (R99). -/
def aluRun (p op t r d : Nat) (s : State) : State :=
  stepRun p 4 op (r - 1) [] (fun _ s => fixedAt s.clk.now 0 t (some r) (some d)) (fun _ s => s) s

/-- Byte offset of tile operand j at step k. -/
def vOff (s : State) (p : Nat) (i : Ins) (j k : Nat) : Int := offsetOf s p i j k
/-- A row of n bytes of tile operand j. -/
def tileRow (p : Nat) (i : Ins) (j k n : Nat) (s : State) : List Byte × State := tileRead p (iSel i j) (vOff s p i j k) n s
/-- A write of operand C at step k. -/
def toC (s : State) (p : Nat) (i : Ins) (k : Nat) (bytes : List Byte) : VWr := .tile 2 (iSel i 2) (vOff s p i 2 k) bytes
/-- Mask row of operand j at step k (R173). -/
def mRow (s : State) (p : Nat) (i : Ins) (j k : Nat) : Nat := (offsetOf s p i j k).toNat / 128 % 128
/-- FP32 or INT32 elements of a row. -/
def words (l : List Byte) : List Nat := (List.range 128).map fun e => leAt (4 * e) 4 l
/-- Words as bytes. -/
def wordBytes (l : List Nat) : List Byte := l.flatMap (leBytes 4)

/-- A row of FP32 from a tile, a vector port or an immediate; what a port lacks reads as NaN (R174, R177). -/
def rowOf (p : Nat) (i : Ins) (j k : Nat) (s : State) : List Nat × State :=
  if iKind i j = 0 then (List.replicate 128 0, s)
  else if iSel i j = 32 then (List.replicate 128 (immOf s p i j k), s)
  else if iSel i j = 5 ∨ iSel i j = 6 then
    let r := takePort p (iSel i j - 5) 512 s
    if 512 ≤ r.1.length then (words r.1, r.2)
    else ((List.range 128).map fun e => if 4 * e + 4 ≤ r.1.length then leAt (4 * e) 4 r.1 else nan32, portLate p r.2)
  else
    let r := tileRow p i j k 512 s
    (words r.1, r.2)

/-! ### Loads and stores -/

/-- A step of `VXLD` in its lc: rows of the basin go to a tile or to the queue of a vector port 3 lc later (R43, R172). -/
def vldStep (ev : List HwEvent) (p : Nat) (i : Ins) (k : Nat) (s : State) : State :=
  let (b, s1) := exRead ev p (iSel i 0) (offsetOf s p i 0 k) (128 * (iUmod i % 4 + 1)) s
  addLate p (s.clk.now + 3) [] (if iSel i 1 = 5 ∨ iSel i 1 = 6 then .port (iSel i 1 - 5) b else .tile 1 (iSel i 1) (offsetOf s p i 1 k) b) s1

/-- VXLD (R172). -/
def execVxld (p : Nat) (ev : List HwEvent) (s : State) : Host.Outcome State Fault Refusal :=
  guarded (okCore p) "core" (stepRun p 4 0x01 0 ev (fun _ s => fixedAt s.clk.now 0 1 (some 1) (some 4)) fun _ s => s) s

/-- A step of `VXST` in its lc: rows of a tile reach the basin 3 lc later. -/
def vstStep (ev : List HwEvent) (p : Nat) (i : Ins) (k : Nat) (s : State) : State :=
  let (b, s1) := tileRead p (iSel i 0) (offsetOf s p i 0 k) (128 * (iUmod i % 4 + 1)) s
  addLate p (s.clk.now + 3) ev (.basin 9 (iSel i 1) (offsetOf s p i 1 k) b) s1

/-- VXST (R171). -/
def execVxst (p : Nat) (ev : List HwEvent) (s : State) : Host.Outcome State Fault Refusal :=
  guarded (okCore p) "core" (stepRun p 4 0x02 0 ev (fun _ s => fixedAt s.clk.now 0 1 (some 1) (some 4)) fun _ s => s) s

/-! ### Element programs -/

/-- Fields of a micro-operation (R176). -/
def mOpc (w : W256) : Nat := bfield w.toNat 0 8
def mDst (w : W256) : Nat := bfield w.toNat 8 5
def mSrc (w : W256) (n : Nat) : Nat := bfield w.toNat (8 + 5 * n) 5
def mRnd (w : W256) : Bool := bbit w.toNat 28
def mSgn (w : W256) : Bool := bbit w.toNat 29
def mImm (w : W256) : Nat := bfield w.toNat 32 32

/-- Fields that an operation uses: DST, and how many sources; none when the OPC is reserved (R178). -/
def mUses (opc : Nat) : Option (Bool × Nat) :=
  if opc = 0 then some (false, 0)
  else if [0x06, 0x09, 0x0A, 0x19, 0x1A].contains opc || (decide (0x20 ≤ opc) && decide (opc ≤ 0x28)) then some (true, 1)
  else if opc = 0x04 ∨ opc = 0x0B then some (true, 3)
  else if [0x01, 0x02, 0x03, 0x05, 0x07, 0x08, 0x0C, 0x0D, 0x0E].contains opc || (decide (0x10 ≤ opc) && decide (opc ≤ 0x18)) then some (true, 2)
  else if opc = 0x30 ∨ opc = 0x38 then some (false, 1)
  else if opc = 0x31 then some (true, 0)
  else none

/-- A transcendental operation (R178). -/
def isTransc (opc : Nat) : Bool := decide (0x20 ≤ opc) && decide (opc ≤ 0x28)

/-- The micro-operations of a program: up to the last whose OPC is not 0 (R175). -/
def progOf (ws : List W256) : List W256 := ((ws.reverse).dropWhile fun w => decide (mOpc w = 0)).reverse

/-- A micro-operation passes the checks of R175. -/
def opOk (w : W256) : Bool :=
  match mUses (mOpc w) with
  | none => false
  | some (d, n) =>
    (!d || decide (mDst w < 16 ∨ mDst w = 20)) && ((List.range n).all fun j => decide (mSrc w (j + 1) < 20))
      && decide (bfield w.toNat 30 2 = 0) && decide (w.toNat >>> 64 = 0)

/-- The program is valid (R175). -/
def progOk (ws : List W256) : Bool :=
  (progOf ws).all opOk && (progOf ws).any fun w => decide (mDst w = 20) && (match mUses (mOpc w) with | some (d, _) => d | none => false)

/-- c of R113. -/
def progLen (ws : List W256) : Nat := (progOf ws).foldl (fun n w => n + (if isTransc (mOpc w) then 4 else 1)) 0

/-- Registers of an element while its program runs: TMP0 to TMP15, OUT, its mask bit, and operands counted by CENS (R177, R180). -/
structure Elem where
  tmp : List Nat := List.replicate 16 0
  out : Nat := 0
  m : Bool := false
  cens : List Nat := []
  deriving DecidableEq, Repr

/-- A word that counts as true for SEL, SETM. -/
def truthy (w : Nat) : Bool := decide (w ≠ 0 ∧ w ≠ 0x80000000)
def one32 : Nat := 0x3F800000
/-- FP32 1.0 or +0. -/
def fbool (b : Bool) : Nat := if b then one32 else 0

/-- Result of an operation with a destination, on words a, b, c (R178, R179). -/
def mEval (w : W256) (a b c : Nat) (mbit : Bool) : Nat :=
  let z := mRnd w
  let t := fun (f : Val → Val) => r32 z (f (flush32 a))
  match mOpc w with
  | 0x01 => add32 z a b
  | 0x02 => sub32 z a b
  | 0x03 => mul32 z a b
  | 0x04 => fma32 z a b c
  | 0x05 => div32 z a b
  | 0x06 => sqrt32 z a
  | 0x07 => maxMin fFP32 true a b
  | 0x08 => maxMin fFP32 false a b
  | 0x09 => if (v32 a).isNan then nan32 else a % 2 ^ 31
  | 0x0A => if (v32 a).isNan then nan32 else a ^^^ 2 ^ 31
  | 0x0B => if truthy c then a else b
  | 0x0C => fbool (ltV (v32 a) (v32 b))
  | 0x0D => fbool (ltV (v32 a) (v32 b) || eqV (v32 a) (v32 b))
  | 0x0E => fbool (eqV (v32 a) (v32 b))
  | 0x10 => (a + b) % 2 ^ 32
  | 0x11 => (a + 2 ^ 32 - b) % 2 ^ 32
  | 0x12 => a * b % 2 ^ 32
  | 0x13 => a &&& b
  | 0x14 => a ||| b
  | 0x15 => a ^^^ b
  | 0x16 => a <<< (b % 32) % 2 ^ 32
  | 0x17 => if mSgn w then wrapN 32 (sext 32 a / 2 ^ (b % 32)) else a >>> (b % 32)
  | 0x18 => if mSgn w then b2n (decide (sext 32 a < sext 32 b)) else b2n (decide (a < b))
  | 0x19 => r32 z (valInt (if mSgn w then sext 32 a else (a : Int)))
  | 0x1A => if mSgn w then wrapN 32 (encInt (-(2 ^ 31)) (2 ^ 31 - 1) z (v32 a)).1 else wrapN 32 (encInt 0 (2 ^ 32 - 1) z (v32 a)).1
  | 0x20 => t tExp2
  | 0x21 => t (tLog true)
  | 0x22 => t tExp
  | 0x23 => t (tLog false)
  | 0x24 => t tRsqrt
  | 0x25 => t tSinPi
  | 0x26 => t tCosPi
  | 0x27 => t tTanh
  | 0x28 => t tSigm
  | 0x31 => fbool mbit
  | _ => 0

/-- One micro-operation of an element. -/
def mStep (ia ib lane : Nat) (e : Elem) (w : W256) : Elem :=
  let src := fun (n : Nat) => match mSrc w n with
    | 16 => ia | 17 => ib | 18 => mImm w | 19 => lane
    | r => e.tmp.getD r 0
  match mUses (mOpc w) with
  | some (true, _) =>
    let v := mEval w (src 1) (src 2) (src 3) e.m
    if mDst w = 20 then { e with out := v } else { e with tmp := e.tmp.set (mDst w) v }
  | _ =>
    if mOpc w = 0x30 then { e with m := truthy (src 1) }
    else if mOpc w = 0x38 then { e with cens := e.cens ++ [src 1] } else e

/-- Loads that have reached DONE fill their slots; a bad one leaves the slot invalid (R113, R175). -/
def settleSlots (now : Nat) (v : Vx) : Vx :=
  let slot := (v.slotDue.filter fun x => decide (x.1 ≤ now)).foldl (fun m x => match x.2.2 with
    | some c => mput x.2.1 c m
    | none => mdel x.2.1 m) v.slot
  let len := (v.lenDue.filter fun x => decide (x.1 ≤ now)).foldl (fun m x => match x.2.2 with
    | some n => mput x.2.1 n m
    | none => mdel x.2.1 m) v.len
  { v with slot := slot, slotDue := v.slotDue.filter fun x => decide (now < x.1)
           len := len, lenDue := v.lenDue.filter fun x => decide (now < x.1) }

/-- A valid slot of a kind. -/
def slotOf (s : State) (p n : Nat) (param : Bool) : Option VSlot :=
  match (settleSlots s.clk.now (coreAt s p).vx).slot.find? fun x => decide (x.1 = n) with
  | some (_, v) => if v.param = param then some v else none
  | none => none

/-- n bytes at byte `off` of handle `h` as they stand; zeros where an access would not be made. -/
def peekBasin (s : State) (p h : Nat) (off : Int) (n : Nat) : List Byte :=
  match hndUse [] p h off n s with
  | .ok e => (rowParts off.toNat n).flatMap fun x =>
      rdMem (coreAt s p).bsn.mem (rowBase (coreAt s p).bsn (e.bank x.1) (e.prow false x.1) + x.2.1) x.2.2
  | _ => List.replicate n 0

/-- A step of `VXEPL` in its lc, and at the last one what the slot holds from DONE on (R113, R175): an element program of 1 to 8 rows, or a
parameter block of one row. A core that does not participate loads nothing, and keeps only how long the program is that it would have
loaded, by which its signals keep pace (R57; notes/assumptions/66.md). -/
def eplStep (p : Nat) (w : Work) (s : State) : Gath × State :=
  let i := w.ins
  let off := offsetOf s p i 0 w.k
  let (row, s1) := if w.part then exRead w.ev p (iSel i 0) off 128 s else (peekBasin s p (iSel i 0) off 128, s)
  let bytes := w.acc.bytes ++ row
  let n := iSteps i
  if w.k + 1 < n then ({ w.acc with bytes := bytes }, s1)
  else
    let ws := (List.range (4 * n)).map fun j => BitVec.ofNat 256 (leAt (32 * j) 32 bytes)
    let param := bbit (iUmod i) 0
    let good := if param then decide (n = 1) else decide (n ≤ 8) && progOk ws
    let slot := immOf s p i 1 0 % 4
    let t := s.clk.now + 10
    (w.acc, updCore p (fun c =>
      let v := settleSlots s.clk.now c.vx
      { c with vx := { v with
        slotDue := if w.part then v.slotDue ++ [(t, slot, if good then some ⟨param, ws⟩ else none)] else v.slotDue
        lenDue := v.lenDue ++ [(t, slot, if good && !param then some (progLen ws) else none)] } }) s1)

/-- Starts an instruction whose steps are followed on every core (R57). -/
def everyRun (p u op : Nat) (ev : List HwEvent) (tim : Ins → State → Timing) (s : State) : State :=
  match startable s p u op with
  | none => s
  | some i =>
    let tm := tim i s
    let th := thrOf (coreAt s p) u
    addWork p { ins := i, ev := ev, part := participates s p i, thr := th, s0 := s.clk.now, due := tm.b 0, t := tm.t } (startUnit p u i tm s)

/-- VXEPL (R175). -/
def execVxepl (p : Nat) (ev : List HwEvent) (s : State) : Host.Outcome State Fault Refusal :=
  guarded (okCore p) "core" (everyRun p 4 0x03 ev fun _ s => fixedAt s.clk.now 0 1 (some 1) (some 10)) s

/-- Step interval and result depth of `VXEP` (R113), from the length of the program that a participating core has in the slot (R57). -/
def epTiming (p : Nat) (i : Ins) (s : State) : Nat × Nat :=
  let t := cdiv (mget 4 (settleSlots s.clk.now (coreAt s p).vx).len (iUmod i % 4)) 4
  (t, 4 * t + 6)

/-- One step of `VXEP` (R177, R178). -/
def epStep (p : Nat) (i : Ins) (prog : List W256) (t k : Nat) (s : State) : List VWr × State :=
  let (a, s1) := rowOf p i 0 k s
  let (b, s2) := rowOf p i 1 k s1
  let m := (iUmod i / 4 % 128 + k) % 128
  let bits := maskAt s2 p m
  let es := (List.range 128).map fun l =>
    prog.foldl (mStep (a.getD l 0) (b.getD l 0) l) { m := bbit bits l }
  let setm := prog.any fun w => decide (mOpc w = 0x30)
  let nb := (List.range 128).foldl (fun v l => if (es.getD l {}).m then bset v l else v) 0
  let s3 := cenAt p t (fun c => es.foldl (fun c e => e.cens.foldl (fun c x => cenOut false x c) c) c) s2
  ([toC s p i k (wordBytes (es.map (·.out)))] ++ (if setm then [.mask m nb (mget 0 (coreAt s2 p).vx.mcnt m)] else []), s3)

/-- A `VXEP` or `VXOPT` on an invalid slot (R175). -/
def epInvalid (p : Nat) (s : State) : State := progFault 0x0D p (vxFlt p 0 s)

/-- VXEP (R177): it runs the program that its slot holds at its start (R113). -/
def execVxep (p : Nat) (s : State) : Host.Outcome State Fault Refusal :=
  guarded (okCore p) "core" (fun s => stepRun p 4 0x04 1 []
    (fun i s => fixedAt s.clk.now 0 (epTiming p i s).1 (some 2) (some (epTiming p i s).2))
    (fun i s => if (slotOf s p (iUmod i % 4) false).isNone then epInvalid p s else s) s
    (fun i s => { slot := slotOf s p (iUmod i % 4) false })) s

/-- A step of `VXEP` on the slot found at its start; without one its elements are NaN (R175). -/
def epAct (p : Nat) (i : Ins) (slot : Option VSlot) (t k : Nat) (s : State) : List VWr × State :=
  match slot with
  | some v => epStep p i (progOf v.words) t k s
  | none => ([toC s p i k (wordBytes (List.replicate 128 nan32))], s)

/-! ### Conversion -/

/-- Counts saturations and replaced NaNs of converted elements (R133, R180). -/
def cvtCens (p t : Nat) (l : List Cvt) (s : State) : State :=
  let a := (l.filter (·.sat)).length
  let b := (l.filter (·.nanRep)).length
  cenAt p t (fun c => { c with sat := c.sat + a, nan := c.nan + b }) s

/-- Options and formats of a `VXCVT` (R114). -/
def cvSrc (i : Ins) : Nat := iUmod i % 32
def cvDst (i : Ins) : Nat := iUmod i / 32 % 32
def cvRtz (s : State) (p : Nat) (i : Ins) : Bool := bbit (immOf s p i 1 0) 0
def cvNonsat (s : State) (p : Nat) (i : Ins) : Bool := bbit (immOf s p i 1 0) 1
def cvEmit (s : State) (p : Nat) (i : Ins) : Bool := bbit (immOf s p i 1 0) 2

/-- 128 element codes of a format at operand A's offset of step k. -/
def srcCodes (p : Nat) (i : Ins) (fmt k : Nat) (s : State) : List Nat × State :=
  let r := tileRow p i 0 k (16 * fmtBits fmt) s
  let n := leNat r.1
  ((List.range 128).map fun e => elemAt (fmtBits fmt) n e, r.2)

/-- The scale area of an MX tile (R182). -/
def scaleByte (s : State) (p tile n : Nat) : Nat := ((coreAt s p).vx.tile.find? fun c => decide (c.1 = tile * 65536 + 0xC000 + n)).elim 0 (·.2.toNat)

/-- Values of 128 source elements at step k, MX scales applied (R182). -/
def srcVals (p : Nat) (i : Ins) (k : Nat) (s : State) : List Val × State :=
  let f := cvSrc i
  let (codes, s1) := srcCodes p i f k s
  if isMX f then
    ((List.range 128).map fun e =>
      mxVal f (scaleByte s p (iSel i 0) (if bbit (iUmod i) 10 then 128 * (k / 32) + e else 4 * k + e / 32)) (codes.getD e 0), s1)
  else (codes.map (elemVal f), s1)

/-- Converted elements as a packed row of the destination. -/
def dstRow (fmt : Nat) (l : List Cvt) : List Byte := packRow (fmtBits fmt) (16 * fmtBits fmt) (l.map (·.code))

/-- A step of a conversion between formats other than MX destinations, KF4 and T5 (R181). -/
def cvtPlain (p : Nat) (i : Ins) (t k : Nat) (s : State) : List VWr × State :=
  let (v, s1) := srcVals p i k s
  let out := v.map (cvtTo (cvDst i) (cvRtz s p i) (cvNonsat s p i))
  ([toC s p i k (dstRow (cvDst i) out)], cvtCens p t out s1)

/-- A step of a conversion to an MX format with blocks along the row (R134, R182). -/
def cvtMxRow (p : Nat) (i : Ins) (t k : Nat) (s : State) : List VWr × State :=
  let (v, s1) := srcVals p i k s
  let xs := (List.range 4).map fun b => mxScale (cvDst i) (slice (32 * b) 32 v)
  let out := (List.range 128).map fun e => mxElem (cvDst i) (xs.getD (e / 32) 0) (cvRtz s p i) (v.getD e .nan)
  ([toC s p i k (dstRow (cvDst i) out)] ++
    (if cvEmit s p i then [.tile 2 (iSel i 2) (0xC000 + 4 * k : Nat) (xs.map (BitVec.ofNat 8))] else []), cvtCens p t out s1)

/-- A step of a conversion to an MX format with blocks across rows: R gathering steps, then R converting ones (R182). -/
def cvtMxCol (p : Nat) (i : Ins) (t k : Nat) (rows : List (List Val)) (s : State) : List VWr × List (List Val) × State :=
  let r := iSteps i / 2
  if k < r then
    let (v, s1) := srcVals p i k s
    ([], rows ++ [v], s1)
  else
    let j := k - r
    let (v, s1) := srcVals p i j s
    let xs := (List.range 128).map fun c => mxScale (cvDst i) ((slice (32 * (j / 32)) 32 rows).map fun row => row.getD c .nan)
    let out := (List.range 128).map fun c => mxElem (cvDst i) (xs.getD c 0) (cvRtz s p i) (v.getD c .nan)
    ([toC s p i j (dstRow (cvDst i) out)] ++
      (if cvEmit s p i && decide (j % 32 = 0) then [.tile 2 (iSel i 2) (0xC000 + 128 * (j / 32) : Nat) (xs.map (BitVec.ofNat 8))] else []),
      rows, cvtCens p t out s1)

/-- Decoding T5: the group's first step reads the row of codes (R131, R184). -/
def cvtFromT5 (p : Nat) (i : Ins) (t k : Nat) (row : List Byte) (s : State) : List VWr × List Byte × State :=
  let (r, s1) := if k % 5 = 0 then tileRow p i 0 k 128 s else (row, s)
  let s2 := if k % 5 = 0 ∧ badT5 r ≠ 0 then cenAt p t (fun c => { c with nan := c.nan + 5 * badT5 r }) s1 else s1
  let out := (List.range 128).map fun e =>
    let n := 128 * (k % 5) + e
    cvtTo (cvDst i) (cvRtz s p i) (cvNonsat s p i) (valInt (t5Digit (r.getD (n / 5) 0).toNat (n % 5)))
  ([toC s p i k (dstRow (cvDst i) out)], r, cvtCens p t out s2)

/-- Encoding T5: the group's last step writes the row of codes at the first step's offset (R131, R184). -/
def cvtToT5 (p : Nat) (i : Ins) (t k : Nat) (acc : List Int) (s : State) : List VWr × List Int × State :=
  let (v, s1) := srcVals p i k s
  let r := v.map (cvtTrit (cvRtz s p i))
  let trits := (if k % 5 = 0 then [] else acc) ++ r.map (·.1)
  let s2 := cvtCens p t (r.map fun x => ⟨0, x.2.1, x.2.2⟩) s1
  if k % 5 = 4 then
    ([toC s p i (k - 4) ((List.range 128).map fun m => BitVec.ofNat 8 (t5Code (slice (5 * m) 5 trits)))], [], s2)
  else ([], trits, s2)

/-- Row k of the 128 KB source of a KF4 encoding (R183). -/
def kf4Row (p : Nat) (i : Ins) (k : Nat) (s : State) : List Val × State :=
  let r := tileRead p (iSel i 0 + k / 128) (512 * (k % 128) : Nat) 512 s
  ((words r.1).map v32, r.2)

/-- Columns of rows. -/
def columns (rows : List (List Val)) : List (List Val) := (List.range 128).map fun c => rows.map fun r => r.getD c .nan

/-- The side data of an encoded tile (R154, R183). -/
def kf4Side (f : Kf4Fix) (recs : List (List Nat)) : List Byte :=
  let sc := (List.range 16).flatMap fun b => (List.range 128).map fun c => BitVec.ofNat 8 ((f.scales.getD c []).getD b 0)
  let rc := (List.range 4).flatMap fun g => (List.range 128).flatMap fun c => leBytes 6 ((recs.getD c []).getD g 0)
  sc ++ rc ++ leBytes 4 (r32 false (.fin false 1 f.tsE)) ++ List.replicate 124 0

/-- A step of a KF4 encoding (R135, R183). -/
def cvtToKf4 (p : Nat) (i : Ins) (t k : Nat) (a : Gath) (s : State) : List VWr × Gath × State :=
  if k < 256 then
    let (v, s1) := kf4Row p i k s
    ([], { a with vals := a.vals ++ [v] }, s1)
  else
    let f := a.fix.getD (kf4Fix (columns a.vals))
    let m := k - 256
    let (v, s1) := kf4Row p i m s
    let els := (List.range 128).map fun c => kf4Elem (cvRtz s p i) f.tsE ((f.scales.getD c []).getD (m / 16) 0) (v.getD c .nan)
    let second := a.second ++ [v]
    let w := VWr.half (iSel i 2) (128 * (m / 2) : Nat) (m % 2) (els.map (·.code))
    let s2 := cvtCens p t els s1
    if m = 255 then
      let rs := (List.range 128).map fun c => kf4Recs f.tsE ((columns second).getD c []) (f.outs.getD c [])
      let sats := rs.foldl (fun n r => n + r.2) 0
      ([w, .tile 2 (iSel i 2) 0xC000 (kf4Side f (rs.map (·.1)))], { a with fix := some f, second := second },
        cenAt p t (fun c => { c with sat := c.sat + sats }) s2)
    else ([w], { a with fix := some f, second := second }, s2)

/-- A step of a KF4 decoding: the side data is read once, in step 0 (R127, R184). -/
def cvtFromKf4 (p : Nat) (i : Ins) (t k : Nat) (side : List Byte) (s : State) : List VWr × List Byte × State :=
  let (sd, s1) := if k = 0 then tileRead p (iSel i 0) 0xC000 5248 s else (side, s)
  let (row, s2) := tileRead p (iSel i 0) (128 * (k / 2) : Nat) 128 s1
  let n := leNat row
  let ts := v32 (leAt 5120 4 sd)
  let out := (List.range 128).map fun c =>
    let v := kf4Eff (elemAt 4 n (2 * c + k % 2)) (leAt (128 * (k / 16) + c) 1 sd) (leAt (2048 + 6 * (128 * (k / 64) + c)) 6 sd) (k % 64)
    cvtTo (cvDst i) (cvRtz s p i) (cvNonsat s p i) (mulV v ts)
  ([toC s p i k (dstRow (cvDst i) out)], sd, cvtCens p t out s2)

/-- Signals of a conversion with blocks across rows: ITER stages fire in the second pass only (R182). -/
def mxColSigs (i : Ins) (now : Nat) (tm : Timing) : List Sig :=
  let r := iSteps i / 2
  let one := fun (f : Nat × Nat × Nat) =>
    if 8 ≤ f.2.2 ∧ f.2.2 < 14 ∧ f.1 < 56 then
      ((List.range r).filter fun j => decide ((j + 1) % iInner i (f.2.2 - 8) = 0)).map fun j => (⟨tm.b (r + j) + 16, f.1, f.2.1⟩ : Sig)
    else fieldSigs i now tm f
  one (iSig i 0) ++ one (iSig i 1)

/-- Whether a conversion is to or from a block format (R114), and whether it makes two passes (R182). -/
def cvSlow (i : Ins) : Bool := [cvSrc i, cvDst i].any fun f => decide (8 ≤ f ∧ f ≤ 13)
def cvTwice (i : Ins) : Bool := isMX (cvDst i) && bbit (iUmod i) 10

/-- VXCVT starts (R181 to R184). -/
def vcvt (p : Nat) (s : State) : State :=
  match startable s p 4 0x05 with
  | none => s
  | some i =>
    let tm := fixedAt s.clk.now 0 (if cvSlow i then 2 else 1) (some 2) (some (if cvSlow i then 16 else 8))
    let th := thrOf (coreAt s p) 4
    let s1 := startWith p 4 i tm (if cvTwice i then mxColSigs i s.clk.now tm else insSigs i s.clk.now tm) s
    if participates s p i then addWork p { ins := i, thr := th, s0 := s.clk.now, due := s.clk.now + 1, t := tm.t } s1 else s1

/-- A step of `VXCVT` (R181 to R184), its results written at lc t. -/
def cvtAct (p : Nat) (i : Ins) (t k : Nat) (g : Gath) (s : State) : List VWr × Gath × State :=
  if cvDst i = 13 then cvtToKf4 p i t k g s
  else if cvSrc i = 13 then
    let r := cvtFromKf4 p i t k g.bytes s
    (r.1, { g with bytes := r.2.1 }, r.2.2)
  else if cvTwice i then
    let r := cvtMxCol p i t k g.vals s
    (r.1, { g with vals := r.2.1 }, r.2.2)
  else if isMX (cvDst i) then
    let r := cvtMxRow p i t k s
    (r.1, g, r.2)
  else if cvSrc i = 18 then
    let r := cvtFromT5 p i t k g.bytes s
    (r.1, { g with bytes := r.2.1 }, r.2.2)
  else if cvDst i = 18 then
    let r := cvtToT5 p i t k g.trits s
    (r.1, { g with trits := r.2.1 }, r.2.2)
  else
    let r := cvtPlain p i t k s
    (r.1, g, r.2)

/-- VXCVT (R181). -/
def execVxcvt (p : Nat) (s : State) : Host.Outcome State Fault Refusal := guarded (okCore p) "core" (vcvt p) s

/-! ### Compress, expand, band -/

/-- Lanes whose bit is 1, ascending. -/
def lanesOf (m : Nat) : List Nat := (List.range 128).filter fun l => bbit m l

/-- VXCMP step (R185). -/
def cmpStep (p : Nat) (i : Ins) (k : Nat) (s : State) : List VWr × State :=
  let (a, s1) := tileRow p i 0 k 512 s
  let m := mRow s p i 1 k
  let ls := lanesOf (maskAt s p m)
  ([toC s p i k (wordBytes (padTo 128 0 (ls.map fun l => (words a).getD l 0))), .cnt m ls.length], s1)

/-- VXCMP (R185). -/
def execVxcmp (p : Nat) (s : State) : Host.Outcome State Fault Refusal :=
  guarded (okCore p) "core" (aluRun p 0x06 1 2 10) s

/-- An update of the band ledger, made only inside its range (R188). -/
def bandAdd (p : Nat) (n : Int) (s : State) : State :=
  let v := (coreAt s p).vx.band + n
  if 0 ≤ v ∧ v ≤ 0xFFFFFFFF then updCore p (fun c => { c with vx := { c.vx with band := v.toNat } }) s
  else progFault 0x0E p (vxFlt p 2 s)

/-- VXEXP step (R186): MERGE 1 writes the lanes of the mask alone. -/
def expStep (p : Nat) (i : Ins) (k : Nat) (s : State) : List VWr × State :=
  let (a, s1) := tileRow p i 0 k 512 s
  let bits := maskAt s p (mRow s p i 1 k)
  let out := wordBytes ((List.range 128).map fun l => if bbit bits l then (words a).getD (ones (bits % 2 ^ l)) 0 else 0)
  ([if bbit (iUmod i) 0 then .lanes (iSel i 2) (vOff s p i 2 k) bits out else toC s p i k out],
    if bbit (iUmod i) 1 then bandAdd p (-(ones bits : Int)) s1 else s1)

/-- VXEXP (R186). -/
def execVxexp (p : Nat) (s : State) : Host.Outcome State Fault Refusal :=
  guarded (okCore p) "core" (aluRun p 0x07 1 2 10) s

/-- An element lies in the closed band (R187). -/
def inBand (x th h : Val) : Bool :=
  if x.isNan then true
  else if th.isNan || h.isNan then false
  else match x, th with
    | .inf a, .inf b => if a = b then !ltV h (.fin false 0 0) else eqV h (.inf false)
    | .inf _, _ => eqV h (.inf false)
    | _, .inf _ => eqV h (.inf false)
    | _, _ =>
      let dist := match addV x th.negate with | .fin _ m e => Val.fin false m e | v => v
      !ltV h dist

/-- VXBAND step (R187). -/
def bandStep (p : Nat) (i : Ins) (k : Nat) (s : State) : List VWr × State :=
  let (a, s1) := tileRow p i 0 k 512 s
  let (pr, s2) := tileRead p (iSel i 1) (vOff s p i 1 k) 8 s1
  let xs := words a
  let ls := (List.range 128).filter fun l => inBand (v32 (xs.getD l 0)) (v32 (leAt 0 4 pr)) (v32 (leAt 4 4 pr))
  let m := (iUmod i % 128 + k) % 128
  let vals := ls.map fun l => if (v32 (xs.getD l 0)).isNan then nan32 else xs.getD l 0
  ([.mask m (ls.foldl bset 0) ls.length,
    toC s p i k (wordBytes (padTo 128 0 vals) ++ wordBytes (padTo 128 0xFFFFFFFF (ls.map fun l => (128 * k + l) % 2 ^ 32)))],
    bandAdd p ls.length s2)

/-- VXBAND (R187). -/
def execVxband (p : Nat) (s : State) : Host.Outcome State Fault Refusal :=
  guarded (okCore p) "core" (aluRun p 0x08 1 2 12) s

/-! ### Moves of bit fields -/

/-- Element width of `VXPERM` and `VXSHUF` in bytes (R189). -/
def permW (i : Ins) : Nat := 2 ^ (iUmod i % 4)

/-- VXPERM step (R189). -/
def permStep (p : Nat) (i : Ins) (k : Nat) (s : State) : List VWr × State :=
  let w := permW i
  let (a, s1) := tileRow p i 0 k (128 * w) s
  let (b, s2) := tileRow p i 1 k 512 s1
  let out := (words b).flatMap fun x => if x < 128 then slice (w * x) w a else List.replicate w 0
  ([toC s p i k out], s2)

/-- VXPERM (R189). -/
def execVxperm (p : Nat) (s : State) : Host.Outcome State Fault Refusal :=
  guarded (okCore p) "core" (aluRun p 0x09 1 2 6) s

/-- Source element of lane l under a pattern (R190); a reserved kind, which the loader refuses, moves nothing. -/
def shufSrc (pat l : Nat) : Nat :=
  let n := bfield pat 4 7
  match pat % 16 with
  | 0 => 127 - l
  | 1 => (l + n) % 128
  | 2 => if l % 2 = 0 then l / 2 else 64 + (l - 1) / 2
  | 3 => if l < 64 then 2 * l else 2 * (l - 64) + 1
  | 4 => (l ^^^ 2 ^ n) % 128
  | 5 => n
  | _ => l

/-- VXSHUF step (R190). -/
def shufStep (p : Nat) (i : Ins) (k : Nat) (s : State) : List VWr × State :=
  let w := permW i
  let (a, s1) := tileRow p i 0 k (128 * w) s
  ([toC s p i k ((List.range 128).flatMap fun l => slice (w * shufSrc (immOf s p i 1 k) l) w a)], s1)

/-- VXSHUF (R190). -/
def execVxshuf (p : Nat) (s : State) : Host.Outcome State Fault Refusal :=
  guarded (okCore p) "core" (aluRun p 0x0A 1 1 4) s

/-- Widths of `VXPACK` and `VXUNPK` in bits (R191). -/
def packW (c : Nat) : Nat := [1, 2, 4, 6, 8, 16, 32].getD c 32
def wideW (i : Ins) : Nat := packW (iUmod i % 8)
def narrowW (i : Ins) : Nat := packW (iUmod i / 8 % 8)

/-- 128 fields of w bits of operand A. -/
def fields (p : Nat) (i : Ins) (w k : Nat) (s : State) : List Nat × State :=
  let (a, s1) := tileRow p i 0 k (16 * w) s
  ((List.range 128).map fun e => elemAt w (leNat a) e, s1)

/-- VXPACK step (R191). -/
def packStep (p : Nat) (i : Ins) (k : Nat) (s : State) : List VWr × State :=
  let (f, s1) := fields p i (wideW i) k s
  ([toC s p i k (packRow (narrowW i) (16 * narrowW i) f)], s1)

/-- VXPACK (R191). -/
def execVxpack (p : Nat) (s : State) : Host.Outcome State Fault Refusal := guarded (okCore p) "core" (aluRun p 0x0B 1 1 4) s

/-- VXUNPK step (R191). -/
def unpackStep (p : Nat) (i : Ins) (k : Nat) (s : State) : List VWr × State :=
  let (f, s1) := fields p i (narrowW i) k s
  let g := f.map fun x => if bbit (iUmod i) 6 then wrapN (wideW i) (sext (narrowW i) x) else x
  ([toC s p i k (packRow (wideW i) (16 * wideW i) g)], s1)

/-- VXUNPK (R191). -/
def execVxunpk (p : Nat) (s : State) : Host.Outcome State Fault Refusal := guarded (okCore p) "core" (aluRun p 0x0C 1 1 4) s

/-! ### Masks -/

/-- VXMASK step (R192). -/
def maskStep (p : Nat) (i : Ins) (k : Nat) (s : State) : List VWr × State :=
  let c := mRow s p i 2 k
  let a := maskAt s p (mRow s p i 0 k)
  let b := maskAt s p (mRow s p i 1 k)
  let full : Nat := 2 ^ 128 - 1
  let put := fun (v : Nat) => [VWr.mask c v (ones v)]
  let lanes := fun (f : Nat → Bool) (l : List Nat) => ((List.range 128).filter fun e => f (l.getD e 0)).foldl bset 0
  match iUmod i % 8 with
  | 0 => (put (a &&& b), s)
  | 1 => (put (a ||| b), s)
  | 2 => (put (a ^^^ b), s)
  | 3 => (put (a &&& (full - b)), s)
  | 4 => let r := tileRow p i 0 k 512 s; (put (lanes (fun x => !(v32 x).isZero) (words r.1)), r.2)
  | 5 => let r := tileRow p i 0 k 512 s; (put (lanes (fun x => bbit x 31) (words r.1)), r.2)
  | 6 => (put a, s)
  | _ => ([.cnt c (ones a)], s)

/-- VXMASK (R192). -/
def execVxmask (p : Nat) (s : State) : Host.Outcome State Fault Refusal :=
  guarded (okCore p) "core" (aluRun p 0x11 1 1 3) s

/-! ### Combination, accumulation, optimiser, random draws -/

/-- VXTREE step (R193). -/
def treeStep (p : Nat) (i : Ins) (k : Nat) (s : State) : List VWr × State :=
  let (a, s1) := rowOf p i 0 k s
  let (b, s2) := rowOf p i 1 k s1
  ([toC s p i k (wordBytes ((List.range 128).map fun l => rneAdd (a.getD l 0) (b.getD l 0)))], s2)

/-- VXTREE (R193). -/
def execVxtree (p : Nat) (s : State) : Host.Outcome State Fault Refusal := guarded (okCore p) "core" (aluRun p 0x0D 1 2 6) s

/-- Element index of lane l at step k (R146). -/
def drawIdx (s : State) (p : Nat) (i : Ins) (k l : Nat) : Nat :=
  wrapN 40 ((128 * k + l : Nat) + constOf s p (iCsel i) * iCstride i)
/-- Offset of an operand of `VXSRACC` or `VXRAND`: the constant term is added to none (R146). -/
def rawOff (i : Ins) (j k : Nat) : Int :=
  sext 48 (wrapN 48 ((List.range 6).foldl (fun (a : Int) l => a + iIndex i k l * iStride i l j) (iOff i j)))
/-- Random words of a lane (R145). -/
def drawWords (s : State) (p : Nat) (i : Ins) (j k l pu : Nat) : Nat × Nat × Nat × Nat :=
  philoxAt s.task.seed.toNat (drawIdx s p i k l) (wrapN 32 (rawOff i j k) % 2 ^ 24) (iUmod i) s.cmt.batch pu

/-- VXSRACC step (R194). -/
def sraccStep (p : Nat) (i : Ins) (t k : Nat) (s : State) : List VWr × State :=
  let (a, s1) := tileRead p (iSel i 0) (rawOff i 0 k) 512 s
  let (b, s2) := tileRead p (iSel i 1) (rawOff i 1 k) 512 s1
  let out := (List.range 128).map fun l =>
    let x := v32 ((words a).getD l 0)
    let y := v32 ((words b).getD l 0)
    let v := match addV x y with | .fin n m e => if m = 0 then Val.fin false 0 0 else .fin n m e | w => w
    let r := stoch32 (drawWords s p i 2 k l 0).1 v
    (r, v.isFin && !(v32 r).isFin)
  let n := (out.filter (·.2)).length
  ([.tile 2 (iSel i 0) (rawOff i 0 k) (wordBytes (out.map (·.1)))], cenAt p t (fun c => { c with inf := c.inf + n }) s2)

/-- VXSRACC (R194). -/
def execVxsracc (p : Nat) (s : State) : Host.Outcome State Fault Refusal :=
  guarded (okCore p) "core" (aluRun p 0x0F 1 2 10) s

/-- A draw of a distribution (R197); a reserved one, which the loader refuses, draws the raw word. -/
def drawOf (sel : Nat) (w : Nat × Nat × Nat × Nat) : Nat :=
  let frac := fun (n : Nat) => Val.fin false n (-24)
  match sel % 16 with
  | 1 => r32 false (frac (w.1 / 256))
  | 2 => fbool (decide (w.1 / 256 < sel / 256 % 2 ^ 24))
  | 3 =>
    let ln := r32 false (tLog false (frac (w.1 / 256 + 1)))
    let rad := sqrt32 false (r32 false (mulV (.fin true 2 0) (v32 ln)))
    let cs := r32 false (tCosPi (mulV (.fin false 2 0) (frac (w.2.1 / 256))))
    mul32 false rad cs
  | _ => w.1

/-- Writes of a step of `VXRAND`: 128 draws in a row (R197). -/
def randStep (p : Nat) (i : Ins) (k : Nat) (s : State) : List VWr :=
  [.tile 2 (iSel i 2) (rawOff i 2 k) (wordBytes ((List.range 128).map fun l => drawOf (wrapN 32 (rawOff i 1 k)) (drawWords s p i 0 k l 1)))]

/-- VXRAND (R197): it reads nothing. -/
def execVxrand (p : Nat) (s : State) : Host.Outcome State Fault Refusal :=
  guarded (okCore p) "core" (stepRun p 4 0x10 0 [] (fun _ s => fixedAt s.clk.now 0 1 none (some 12)) fun _ s => s) s

/-- One element of `VXOPT` (R196): master, first and second moment after the step, and what the census counts (1 NaN, 2 infinity). -/
def optElem (prm : Nat → Nat) (sgd : Bool) (w g0 m v : Nat) : (Nat × Nat × Nat) × Nat :=
  let g := mul32 false g0 (prm 0x24)
  match v32 g with
  | .nan => ((w, m, v), 1)
  | .inf _ => ((w, m, v), 2)
  | .fin _ _ _ =>
    let mul := mul32 false
    let add := add32 false
    let m1 := if sgd then add (mul (prm 0x04) m) g else add (mul (prm 0x04) m) (mul (prm 0x08) g)
    let v1 := if sgd then v else add (mul (prm 0x0C) v) (mul (prm 0x10) (mul g g))
    let u0 := if sgd then m1 else div32 false (mul m1 (prm 0x1C)) (add (sqrt32 false (mul v1 (prm 0x20))) (prm 0x14))
    let wv := decF fW48 w
    let u := add u0 (mul (prm 0x18) (r32 false wv))
    let w1 := (encF fW48 false (addV wv (v32 (mul (prm 0x00) u)).negate)).code
    ((w1, m1, v1), 0)

/-- VXOPT step (R196); without a parameter block every element it would write is NaN (R175). -/
def optStep (p : Nat) (i : Ins) (prm : Option (Nat → Nat)) (t k : Nat) (s : State) : List VWr × State :=
  let wA := fun (l : List Nat) => VWr.tile 2 (iSel i 0) (vOff s p i 0 k) (l.flatMap (leBytes 8))
  match prm with
  | none => ([wA (List.replicate 128 fW48.cnan), toC s p i k (wordBytes (List.replicate 256 nan32))], s)
  | some f =>
    let (a, s1) := tileRow p i 0 k 1024 s
    let (b, s2) := tileRow p i 1 k 512 s1
    let (c, s3) := tileRow p i 2 k 1024 s2
    let r := (List.range 128).map fun l =>
      optElem f (bbit (iUmod i) 0) (leAt (8 * l) 6 a) (leAt (4 * l) 4 b) (leAt (4 * l) 4 c) (leAt (512 + 4 * l) 4 c)
    let n := fun (x : Nat) => (r.filter fun y => decide (y.2 = x)).length
    ([wA (r.map (·.1.1)), toC s p i k (wordBytes (r.map (·.1.2.1)) ++ wordBytes (r.map (·.1.2.2)))],
      cenAt p t (fun c => { c with nan := c.nan + n 1, inf := c.inf + n 2 }) s3)

/-- A parameter block's 4 bytes at an offset. -/
def prmAt (v : VSlot) (off : Nat) : Nat := bfield (v.words.getD (off / 32) 0).toNat (8 * (off % 32)) 32

/-- VXOPT (R196): it uses the parameter block that its slot holds at its start. -/
def execVxopt (p : Nat) (s : State) : Host.Outcome State Fault Refusal :=
  guarded (okCore p) "core" (fun s => stepRun p 4 0x0E 2 [] (fun _ s => fixedAt s.clk.now 0 4 (some 3) (some 24))
    (fun i s => if (slotOf s p (iUmod i / 2 % 4) true).isNone then epInvalid p s else s) s
    (fun i s => { slot := slotOf s p (iUmod i / 2 % 4) true })) s

/-! ### Steps in their lc -/

/-- Lc from a step's reading to its writes (R99): d - r, or d - 1 for `VXRAND`. -/
def aluGap (w : Work) : Nat :=
  match iOp w.ins with
  | 0x04 => 4 * w.t + 4
  | 0x05 => if cvSlow w.ins then 14 else 6
  | 0x06 => 8
  | 0x07 => 8
  | 0x08 => 10
  | 0x09 => 4
  | 0x0A => 3
  | 0x0B => 3
  | 0x0C => 3
  | 0x0D => 4
  | 0x0E => 21
  | 0x0F => 8
  | 0x10 => 11
  | _ => 2

/-- What a step of an ALU instruction writes, gathers and leaves, its results written at lc t. -/
def aluAct (p : Nat) (w : Work) (t : Nat) (s : State) : List VWr × Gath × State :=
  let i := w.ins
  let k := w.k
  let keep := fun (r : List VWr × State) => (r.1, w.acc, r.2)
  match iOp i with
  | 0x04 => keep (epAct p i w.acc.slot t k s)
  | 0x05 => cvtAct p i t k w.acc s
  | 0x06 => keep (cmpStep p i k s)
  | 0x07 => keep (expStep p i k s)
  | 0x08 => keep (bandStep p i k s)
  | 0x09 => keep (permStep p i k s)
  | 0x0A => keep (shufStep p i k s)
  | 0x0B => keep (packStep p i k s)
  | 0x0C => keep (unpackStep p i k s)
  | 0x0D => keep (treeStep p i k s)
  | 0x0E => keep (optStep p i (w.acc.slot.map prmAt) t k s)
  | 0x0F => keep (sraccStep p i t k s)
  | 0x10 => keep (randStep p i k s, s)
  | _ => keep (maskStep p i k s)

/-- A step of a vector instruction in its lc, and what it keeps for the next one. -/
def vxStep (p : Nat) (w : Work) (s : State) : Gath × State :=
  match iOp w.ins with
  | 0x01 => (w.acc, vldStep w.ev p w.ins w.k s)
  | 0x02 => (w.acc, vstStep w.ev p w.ins w.k s)
  | 0x03 => eplStep p w s
  | _ =>
    let t := s.clk.now + aluGap w
    let r := aluAct p w t s
    (r.2.1, countAt p s.clk.now 4 1 (r.1.foldl (fun s x => addLate p t [] x s) r.2.2))

end Sys2Proof.Machine
end

