-- ==== Sys2Proof/Machine/Work.lean ====
section
/-! DEFINITION. What the units of a core do in one lc: the steps whose lc it is, in ascending UNIT (R99, R203), the writes of earlier steps
that fall in it (R172), the wait of a thread for its bank (R204) and the halt of a stream (R254). -/
namespace Sys2Proof.Machine

/-- Lc in which an instruction does something: its steps; two for a step of a wide `MXRUN` (R151), and one more than the steps where the
block is read beside them (R164). -/
def visits (i : Ins) : Nat :=
  match iUnit i, iOp i with
  | 2, 0x02 => if isWide i then 2 * iSteps i else iSteps i
  | 3, 0x02 => iSteps i + 1
  | 3, 0x05 => iSteps i + 1
  | _, _ => iSteps i

/-- Nothing is left to do. -/
def Work.ended (w : Work) : Bool := decide (visits w.ins ≤ w.k) || decide (w.stop = some w.k)

/-- The instruction after one of its lc: planned steps follow their beats, others come t lc apart (R99). -/
def Work.after (w : Work) (g : Gath) : Work :=
  { w with k := w.k + 1, acc := g, beats := w.beats.tail
           due := match w.beats.tail with | b :: _ => b.1 | [] => w.due + w.t }

/-- Order of an instruction's basin accesses in an lc: UNIT, and the store path of the vector engine after its load path (R203). -/
def Work.rank (w : Work) : Nat := if iUnit w.ins = 4 ∧ iOp w.ins = 0x02 then 9 else 2 * iUnit w.ins

/-- A step in its lc, and what the instruction keeps for the next one. -/
def unitStep (p : Nat) (w : Work) (s : State) : Gath × State :=
  match iUnit w.ins with
  | 1 => (w.acc, feStep p w s)
  | 2 => mxStep p w s
  | 3 => puStep p w s
  | 4 => vxStep p w s
  | _ => (w.acc, chStep p w s)

/-- Replaces the j-th instruction at work. -/
def setWork (p j : Nat) (w : Work) (s : State) : State :=
  updCore p (fun c => { c with job := { c.job with work := modAt j (fun _ => w) c.job.work } }) s

/-- No step at hand waits or halts. -/
def clearMarks (p : Nat) (s : State) : State := updCore p (fun c => { c with job := { c.job with wait := false, halt := none } }) s

/-- Lc until which the thread of a halted stream waits: none that comes (R254). -/
def haltLc : Nat := 2 ^ 64

/-- Thread t of core p stops being ready until its stream goes on (R254). -/
def stallThread (p t : Nat) (s : State) : State :=
  updCore p (fun c => { c with th := { c.th with thr := modAt t (fun t => { t with stall := some haltLc }) c.th.thr } }) s

/-- Context n halts: its instructions make no step until it runs again (R254). -/
def haltCtx (p n code : Nat) (addr : W64) (s : State) : State :=
  updCtx p n (fun x => if x.state = 3 then x else { x with state := 3, prev := x.state, fault := code, faddr := addr }) s

/-- The instruction is the fetch engine's, and its context has halted (R254). -/
def ctxHalted (c : Core) (w : Work) : Bool := decide (iUnit w.ins = 1) && decide ((ctxAt c (iUmod w.ins % 16)).state = 3)

/-- The j-th instruction at work makes its step of this lc; a thread's step that finds its bank taken is made again in the next lc (R204),
and one that meets a fault when its stream runs again (R254). -/
def workStep (p j : Nat) (w : Work) (s : State) : State :=
  let s0 := clearMarks p s
  let r := unitStep p w s0
  let b := (coreAt r.2 p).job
  if b.wait then setWork p j { w with due := s.clk.now + 1 } s0
  else match b.halt with
    | some h => stallThread p w.thr (haltCtx p (iUmod w.ins % 16) h.1 h.2 (setWork p j { w with ev := [] } (clearMarks p r.2)))
    | none => setWork p j (w.after r.1) r.2

/-- A write into the basin in its lc, by an execute-side path; a thread's that finds its bank taken comes again in the next lc (R203,
R204). -/
def lateBasin (p : Nat) (s : State) (x : LateWr) : State :=
  match x.w with
  | .basin _ h off b =>
    let s0 := clearMarks p s
    let s1 := exWrite x.ev p h off b s0
    if (coreAt s1 p).job.wait then addLate p (s.clk.now + 1) x.ev x.w s0 else s1
  | _ => s

/-- A scheduled deposit in its slot, which takes the bank's access (R199, R202). -/
def lateDep (p : Nat) (s : State) (x : LateWr) : State :=
  match x.w with
  | .dep h off b =>
    let e := hndAt (coreAt s p) h
    let banks := (rowParts off.toNat b.length).map fun x => e.bank x.1
    depAt x.ev p h off b (updCore p (fun c => { c with bsn := { c.bsn with blog := c.bsn.blog ++ banks } }) s)
  | _ => s

/-- The write's rank among the execute-side accesses; none for another write. -/
def VWr.rank : VWr → Option Nat
  | .basin r _ _ _ => some r
  | _ => none

/-- Writes of core p that fall in this lc. -/
def lateNow (s : State) (p : Nat) : List LateWr := (coreAt s p).job.late.filter fun x => decide (x.lc ≤ s.clk.now)

/-- The steps and the basin writes of one rank in this lc, the steps in order of their starts. -/
def rankLc (p : Nat) (s : State) (r : Nat) : State :=
  let s1 := foldN (coreAt s p).job.work.length (fun s j =>
    match (coreAt s p).job.work[j]? with
    | some w => if w.rank = r ∧ ¬ w.ended ∧ ¬ ctxHalted (coreAt s p) w ∧ w.due ≤ s.clk.now then workStep p j w s else s
    | none => s) s
  ((lateNow s1 p).filter fun x => decide (x.w.rank = some r)).foldl (lateBasin p) s1

/-- The writes of this lc into tiles, masks and port queues: every read of the lc has been made before them (R172). -/
def lateTiles (p : Nat) (s : State) : State :=
  let ws := (lateNow s p).map (·.w)
  let tw := ws.filter fun w => w.tilePort.isSome
  ws.foldl (sideWrite p) (if tw.isEmpty then s else tileWrites p tw s)

/-- What the units of core p do in this lc: scheduled deposits, steps, writes. -/
def coreWork (p : Nat) (s : State) : State :=
  let s1 := (lateNow s p).foldl (lateDep p) s
  let s2 := lateTiles p ([2, 4, 6, 8, 9, 10].foldl (rankLc p) s1)
  updCore p (fun c => { c with job := { c.job with
    work := c.job.work.filter fun w => !w.ended, late := c.job.late.filter fun x => decide (s.clk.now < x.lc) } }) s2

end Sys2Proof.Machine
end

