-- ==== Sys2Proof/Machine/Basin.lean ====
section
/-! DEFINITION. What reaches a basin from outside its core's program: deposit slots (R201, R202), fords (R212 to R215), elastic sinks
(R246), scrubbing and row repair (R217 to R220). -/
namespace Sys2Proof.Machine

/-! ### Fords -/

/-- The fields of a ford record that the check uses (R212). -/
structure FordF where
  hnd : Nat
  wr : Bool
  rd : Bool
  lo : Nat
  span : Nat
  ranges : List (Nat × Nat)
  deriving DecidableEq, Repr

/-- The fields of a ford record (R212). -/
def fordOf (w : BitVec 128) : FordF :=
  let n := w.toNat
  let los := [(40, 49), (58, 67), (76, 85), (94, 103)]
  { hnd := bfield n 0 6, wr := bbit n 6, rd := bbit n 7, lo := bfield n 8 16, span := bfield n 24 16 + 1
    ranges := (los.take (bfield n 112 4)).map fun x => (bfield n x.1 9, bfield n x.2 9) }

/-- An endpoint lies in one of a ford's ranges. -/
def FordF.has (f : FordF) (e : Nat) : Bool := f.ranges.any fun r => decide (r.1 ≤ e ∧ e ≤ r.2)

/-- An endpoint in ford d's ranges holds an open channel whose declaration names the ford (R213). -/
def fordNow (s : State) (p d : Nat) : Bool :=
  let f := fordOf (mget 0 (coreAt s p).bsn.ford d)
  (coreAt s p).ch.ep.any fun x => decide (x.2.st = 3) && f.has x.1 &&
    (match chanAt s x.2.decl with | some c => decide (c.role = 1 ∧ c.land = 3 ∧ c.ford = d) | none => false)

/-- Ford d of core p is open; it closes in the lc after its last channel leaves the open state (R213). -/
def fordOpen (s : State) (p d : Nat) : Bool := fordNow s p d || (coreAt s p).bsn.fords.contains d

/-- The fords of core p that are open as the lc ends (R213). -/
def fordLc (p : Nat) (s : State) : State :=
  let l := (List.range 16).filter (fordNow s p)
  if (coreAt s p).bsn.fords = l then s else updCore p (fun c => { c with bsn := { c.bsn with fords := l } }) s

/-- The ford check of a remote access at endpoint e over 32-byte units [o, o + n) from LO (R214); the ford's own span and handle. -/
def fordPass (s : State) (p e d : Nat) (wr : Bool) (o n : Nat) : Bool :=
  let f := fordOf (mget 0 (coreAt s p).bsn.ford d)
  fordOpen s p d && (if wr then f.wr else f.rd) && f.has e && decide (o + n ≤ f.span)

/-- The oldest remote access of a cell type at core p, and the rest (R214). -/
def oldestRemote (s : State) (p ty : Nat) : Option (Remote × List Remote) :=
  let l := (coreAt s p).fe.remote
  match l.find? fun x => decide (cType x.cell = ty) with
  | none => none
  | some x => some (x, l.eraseIdx (l.findIdx fun y => decide (cType y.cell = ty)))

/-- The remote accesses left at core p. -/
def setRemote (p : Nat) (l : List Remote) (s : State) : State :=
  updCore p (fun c => { c with fe := { c.fe with remote := l } }) s

/-- The declaration's ford of endpoint e. -/
def epFord (s : State) (p e : Nat) : Nat :=
  match chanAt s (epAt (coreAt s p) e).decl with | some d => d.ford | none => 0

/-- Credits of n cells of a remote write go to its sender, the first two of the group's FSEQs before the third (R269). -/
def writeCredits (p e third n : Nat) (src : Nat × Nat × Nat) (s : State) : State :=
  foldN n (fun s k => creditTo p e ((third + 16382 + k) % 16384) src s) s

/-- A remote write that has waited meets its ford: admitted rows queue for deposit slots, a refusal is answered (R214, R215, R269). -/
def remoteWrite (p : Nat) (s : State) : State :=
  match oldestRemote s p 2 with
  | none => s
  | some (r, rest) =>
    let d := epFord s p r.ep
    let o := cPay r.cell 32 4
    let third := cFseq r.cell
    if fordPass s p r.ep d true o 4 then
      if 64 ≤ depRows (coreAt s p) then s
      else
        let f := fordOf (mget 0 (coreAt s p).bsn.ford d)
        let off := 32 * (f.lo + o)
        match elasticDest p f.hnd off 128 (setRemote p rest s) with
        | some s1 => writeCredits p r.ep third 3 r.src s1
        | none =>
          let h := hndAt (coreAt s p) f.hnd
          addDeps p ((rowParts off 128).map fun x => ({
            cls := 3, bank := h.bank x.1, row := h.prow true x.1, off := x.2.1
            bytes := slice (128 * x.1 + x.2.1 - off) x.2.2 r.data
            hnd := f.hnd, lrow := x.1
            credEp := if x.1 = (off + 127) / 128 then some (r.ep, third) else none, src := r.src } : Dep)) (setRemote p rest s)
    else
      writeCredits p r.ep third 2 r.src (fordRefuse p r.ep d r.cell r.src 0xFFFF (setRemote p rest s))

/-- REMOTE_WRITE (R214). -/
def execRemoteWrite (p : Nat) (s : State) : Host.Outcome State Fault Refusal := guarded (okCore p) "core" (remoteWrite p) s

/-- The three FRESP cells of a ford read's row (R291, R294, R297). -/
def sendResp (p e epoch tag row : Nat) (src : Nat × Nat × Nat) (data : List Byte) (s : State) : State :=
  let cell := fun (valid pay : Nat) (s : State) =>
    let x := epAt (coreAt s p) e
    leaveCore p e 1 (sealCell (srcId (ownMod s) p e) (mkHdr src.1 src.2.1 src.2.2 4 1 epoch valid x.rseq) pay)
      (updEp p e (fun x => { x with rseq := (x.rseq + 1) % 16384 }) s)
  cell 32 (descPay (leAt 96 32 data) 0 row tag 0) (cell 48 (leAt 48 48 data) (cell 48 (leAt 0 48 data) s))

/-- The row accesses of row k of a ford read from byte `off` of its handle: one, or two where it lies in two rows (R199, R206). -/
def readDeps (h : Hnd) (hnd off k : Nat) (resp : Nat × Nat) (src : Nat × Nat × Nat) : List Dep :=
  let parts := rowParts off 128
  (List.range parts.length).map fun j =>
    let x := parts.getD j (0, 0, 0)
    { cls := 2, bank := h.bank x.1, row := h.prow false x.1, off := x.2.1, len := x.2.2, part := if parts.length = 1 then 0 else j + 1
      hnd := hnd, lrow := x.1, resp := some (resp.1, resp.2, k), src := src }

/-- A remote read request meets its ford: its rows are read in deposit slots, or it is refused (R214, R215); through a handle entry that may
not be used no access is made, and its rows are answered as zeros (R87, R207, R211). -/
def remoteRead (p : Nat) (s : State) : State :=
  match oldestRemote s p 3 with
  | none => s
  | some (r, rest) =>
    let d := epFord s p r.ep
    let o := cPay r.cell 32 4
    let rows := cPay r.cell 39 1 % 32 + 1
    let tag := cPay r.cell 37 2
    if fordPass s p r.ep d false o (4 * rows) then
      if 64 ≤ depRows (coreAt s p) then s
      else
        let f := fordOf (mget 0 (coreAt s p).bsn.ford d)
        let first := 32 * (f.lo + o)
        match elasticDest p f.hnd first (128 * rows) (setRemote p rest s) with
        | some s1 => foldN rows (fun s k => sendResp p r.ep (cEpoch r.cell) tag k r.src (List.replicate 128 0) s) s1
        | none =>
          let h := hndAt (coreAt s p) f.hnd
          addDeps p ((List.range rows).flatMap fun k =>
            readDeps h f.hnd (first + 128 * k) k (r.ep + 1024 * cEpoch r.cell, tag) r.src) (setRemote p rest s)
    else fordRefuse p r.ep d r.cell r.src tag (setRemote p rest s)

/-- REMOTE_READ (R214). -/
def execRemoteRead (p : Nat) (s : State) : Host.Outcome State Fault Refusal := guarded (okCore p) "core" (remoteRead p) s

/-! ### Deposit slots -/

/-- A scheduled deposit takes the bank's deposit slot of this lc (R202). -/
def scheduledHere (s : State) (p bank : Nat) : Bool :=
  (coreAt s p).job.late.any fun x => match x.w with
    | .dep h off b => decide (x.lc = s.clk.now) && (rowParts off.toNat b.length).any fun y => decide ((hndAt (coreAt s p) h).bank y.1 = bank)
    | _ => false

/-- Bank's deposit slot of this lc is there and free: one row access a bank and lc (R199, R201), scheduled deposits first (R202); with no
image loaded no slot plan holds a bank back (notes/assumptions/9.md). -/
def depSlotFree (s : State) (p bank : Nat) : Bool :=
  (s.task.img.isNone || isDepositSlot s s.clk.lc bank) && !(coreAt s p).bsn.blog.contains bank && !scheduledHere s p bank

/-- The bank's access of this lc is taken. -/
def useDepSlot (p bank : Nat) (s : State) : State :=
  updCore p (fun c => { c with bsn := { c.bsn with blog := c.bsn.blog ++ [bank] } }) s

/-- The waiting access that the bank serves next, by its place in a list: ford reads, then elastic, each in order of arrival (R202). -/
def nextDep (l : List Dep) (bank : Nat) : Option (Nat × Dep) :=
  [1, 2, 3].findSome? fun k => match findN l.length fun j => match l[j]? with | some x => decide (x.bank = bank ∧ x.cls = k) | none => false with
    | some j => (l[j]?).map fun x => (j, x)
    | none => none

/-- The other part of an answer that lies in two rows still waits. -/
def isTwin (d x : Dep) : Bool := decide (x.resp = d.resp ∧ x.src = d.src ∧ x.part = 3 - d.part) && decide (d.part ≠ 0)

/-- A ford read's access: the bytes with what strikes them (R217) go to its answer, which leaves with the last one (R294). -/
def serveRead (ev : List HwEvent) (p : Nat) (d : Dep) (ee tag row : Nat) (s : State) : State :=
  let r := readPart ev p d.bank d.row d.off d.len s
  let b := (coreAt s p).bsn
  if (b.dep ++ b.up).any (isTwin d) then
    let put := fun (x : Dep) => if isTwin d x then { x with bytes := r.1 } else x
    updCore p (fun c => { c with bsn := { c.bsn with dep := c.bsn.dep.map put, up := c.bsn.up.map put } }) r.2
  else sendResp p (ee % 1024) (ee / 1024) tag row d.src (if d.part = 1 then r.1 ++ d.bytes else d.bytes ++ r.1) r.2

/-- A memory tag's last row, or a fabric tag's row, has been deposited (R247, R295). -/
def depTags (p : Nat) (d : Dep) (s : State) : State :=
  updCore p (fun c => { c with fe := { c.fe with
    mtags := match d.mtag with | some t => mdel t c.fe.mtags | none => c.fe.mtags
    ftags := match d.ftag with
      | some t => (match c.fe.ftags.find? fun x => decide (x.1 = t) with
        | some (_, x) => if x.rows ≤ 1 then mdel t c.fe.ftags else mput t { x with rows := x.rows - 1 } c.fe.ftags
        | none => c.fe.ftags)
      | none => c.fe.ftags } }) s

/-- Credits of an admitted remote write's three cells (R269). -/
def depCredits (p : Nat) (d : Dep) (s : State) : State :=
  match d.credEp with
  | some (e, third) => writeCredits p e third 3 d.src s
  | none => s

/-- A waiting access is served; while a core reset waits, the data of what was outstanding are discarded (R69, R202, R216, R221). -/
def serveDep (ev : List HwEvent) (p : Nat) (d : Dep) (s : State) : State :=
  match d.resp with
  | some (ee, tag, row) => serveRead ev p d ee tag row s
  | none =>
    let dbg := fieldAt s (corePage p + 0x60) 0 1 = 1
    let s1 :=
      if d.cls = 3 ∧ (coreAt s p).rst.isSome then s
      else if d.hnd = 64 then updCore p (fun c => { c with bsn := putRow dbg d.bank d.row d.off d.bytes c.bsn }) s
      else depRow p d.hnd d.lrow d.off d.bytes s
    depCredits p d (depTags p d s1)

/-- DEPOSIT_SLOT_ACCESS (R202): a trusted access comes before the others; a row from upstream takes the room that is made. -/
def depositSlot (ev : List HwEvent) (p bank : Nat) (s : State) : State :=
  let b := (coreAt s p).bsn
  if !depSlotFree s p bank then s
  else match nextDep b.trust bank with
    | some (j, d) =>
      serveDep ev p d (useDepSlot p bank (updCore p (fun c => { c with bsn := { c.bsn with trust := c.bsn.trust.eraseIdx j } }) s))
    | none => match nextDep b.dep bank with
      | none => s
      | some (j, d) =>
        addDeps p [] (serveDep ev p d (useDepSlot p bank (updCore p (fun c => { c with bsn := { c.bsn with dep := c.bsn.dep.eraseIdx j } }) s)))

/-- DEPOSIT_SLOT_ACCESS (R202). -/
def execDepositSlotAccess (p bank : Nat) (ev : List HwEvent) (s : State) : Host.Outcome State Fault Refusal :=
  guarded (okCore p && decide (bank < 16)) "core" (depositSlot ev p bank) s

/-! ### Scrubbing and repair -/

/-- BASIN_SCRUB_WRITEBACK (R217): the corrected word takes the bank's deposit slot; the bytes are those that reads deliver. -/
def execBasinScrubWriteback (p bank row word : Nat) (s : State) : Host.Outcome State Fault Refusal :=
  guarded (okCore p && decide (bank < 16) && decide (row < 1024) && decide (word < 4)) "core" (fun s =>
    if depSlotFree s p bank then useDepSlot p bank s else s) s

/-- Spare rows of a bank that neither a mapping nor a repair under way uses (R218 to R220). -/
def freeSpares (b : Bsn) (bank : Nat) : List Nat :=
  (List.range 16).filter fun k => !((b.spare ++ b.spareNext).any fun x => decide (x.1 / 1024 = bank ∧ x.2 = k))

/-- A field repair entry (R220). -/
def repairEntry (p bank row spare : Nat) : W32 :=
  BitVec.ofNat 32 (p % 256 + bank % 16 * 2 ^ 8 + row % 1024 * 2 ^ 12 + spare % 16 * 2 ^ 22 + 2 ^ 31)
/-- Core, bank x 1,024 + row, and spare row of an entry that is in use and agrees with its complement (R220, R395). -/
def repairOf (e : W32 × W32) : Option (Nat × Nat × Nat) :=
  let n := e.1.toNat
  if e.2 = ~~~ e.1 ∧ bbit n 31 then some (bfield n 0 8, bfield n 8 4 * 1024 + bfield n 12 10, bfield n 22 4) else none

/-- FIELD_REPAIR (R219): a marked row is mapped to a spare from the next watershed on; a row marked for correctable errors is copied, in
the commit zone, once the body has ended. -/
def fieldRepair (p bank row : Nat) (s : State) : State :=
  let b := (coreAt s p).bsn
  let k := bank * 1024 + row
  match b.marked.find? fun x => decide (x.1 = k) with
  | none => s
  | some (_, lost) =>
    if ¬ lost ∧ s.clk.run ∧ (¬ s.clk.zone ∨ s.clk.bodyEnd = none) then s
    else match freeSpares b bank with
      | [] => coreSrc p 15 (bsnStat p 6 s)
      | sp :: _ =>
        let from_ := rowBase b bank row
        let to_ := (bank * 1040 + 1024 + sp) * 128
        let b1 := { b with
          mem := if lost then b.mem else wrMem b.mem to_ (rdMem b.mem from_ 128)
          spareNext := mput k sp b.spareNext
          marked := mdel k b.marked
          suspect := mdel k b.suspect }
        let s1 := updCore p (fun c => { c with bsn := b1 }) s
        { s1 with
          sec := { s1.sec with repairs := s1.sec.repairs ++ [(repairEntry p bank row sp, ~~~ repairEntry p bank row sp)] }
          cmt := { s1.cmt with fences := s1.cmt.fences ++ [BitVec.ofNat 64 (4 + (p + bank * 2 ^ 8 + row * 2 ^ 12) * 16)] } }

/-- FIELD_REPAIR (R219). -/
def execFieldRepair (p bank row : Nat) (s : State) : Host.Outcome State Fault Refusal :=
  guarded (okCore p && decide (bank < 16) && decide (row < 1024)) "core"
    (byCtl (coreDie p) (.repair p bank row) (fieldRepair p bank row)) s

/-- Fewest free spare rows of any bank of core p (R226). -/
def spareMin (b : Bsn) : Nat :=
  (List.range 16).foldl (fun m k => min m (16 - (b.spare.filter fun x => decide (x.1 / 1024 = k)).length)) 16

/-- The repairs of core p take effect (R219). -/
def applyRepairs (p : Nat) (s : State) : State :=
  if (coreAt s p).bsn.spareNext.isEmpty then s
  else updCore p (fun c => { c with bsn := { c.bsn with
    spare := c.bsn.spareNext.foldl (fun m x => mput x.1 x.2 m) c.bsn.spare, spareNext := [] } }) s

/-! ### Elastic sinks -/

/-- The sink that a flag serves: its handle (R246). -/
def sinkOf (s : State) (flag : Nat) : Option Nat :=
  match s.task.img with
  | none => none
  | some im => (im.strms.find? fun d => decide (d.kind = 7 ∧ d.cred = flag)).map (·.ring)

/-- The sink's position runs over n rows of handle h: every slot whose last row it passes drains once (R246). -/
def advanceSink (h n : Nat) (e : Hnd) (b : Bsn) : Bsn :=
  let pos := mget 0 b.sink h
  let b1 := foldN n (fun b j =>
    let r := (pos + j) % e.len
    if r = e.slotLast r then { b with drain := mset 0 (h * 16384 + r / e.slot) ((mget 0 b.drain (h * 16384 + r / e.slot) + 1) % 256) b.drain }
    else b) b
  { b1 with sink := mset 0 h ((pos + n) % e.len) b1.sink }

/-- ELASTIC_SINK_DRAIN (R246): all that the flag holds is taken. -/
def sinkDrain (p flag : Nat) (s : State) : State :=
  let c := coreAt s p
  let n := objAt c flag - sumFor flag c.takes
  match sinkOf s flag with
  | none => s
  | some h =>
    if n = 0 then s
    else takeObj p flag n (updCore p (fun c => { c with bsn := advanceSink h n (hndAt c h) c.bsn }) s)

/-- ELASTIC_SINK_DRAIN (R246). -/
def execElasticSinkDrain (p flag : Nat) (s : State) : Host.Outcome State Fault Refusal :=
  guarded (okCore p && decide (flag < 48)) "core" (sinkDrain p flag) s

end Sys2Proof.Machine
end

