-- ==== Sys2Proof/Machine/Fop.lean ====
section
/-! DEFINITION. Operating points (R33 to R36), margin sentinels (R31, R32), cols (R28 to R30) and the sources of the tick (R15 to R20,
R27). -/
namespace Sys2Proof.Machine

/-! ### Sources -/

/-- Primary and secondary source (R42). -/
def srcPri (s : State) : Nat := fieldAt s (tckPage + 0x24) 0 5
def srcSecond (s : State) : Nat := fieldAt s (tckPage + 0x24) 5 5

/-- Lc from an edge to the boundary it names: the first lc that begins at least 64 reference periods after the compensated edge, of which
`gone` eighths have passed (R16, R27). -/
def leadLc (s : State) (gone : Nat) : Nat :=
  let eighths : Int := 512 + sext 6 (fieldAt s (tckPage + 0x24) 10 6) - gone
  cdiv (eighths.toNat * fopMHz s.clk.fop) 12000

/-- Nominal periods from the last boundary to the predicted one: N, less what a boundary of the module's own timer came late, so that the
timer keeps to the earlier edges (R18). -/
def predicted (s : State) : Int := (slotN s s.clk.fop : Int) - s.clk.slip

/-- An edge whose boundary is `lead` lc away falls within 64 nominal periods of the predicted one (R18); the first edge after START has no
prediction. -/
def edgeGood (s : State) (lead : Nat) : Bool :=
  s.clk.starting || (decide (predicted s ≤ npNow s + lead + 64) && decide ((npNow s + lead : Int) ≤ predicted s + 64))

/-- An edge of a source arrives, `gone` eighths of a reference period ago: a good primary edge names the boundary lc, a good secondary edge
is kept (R15, R17, R18, R27). -/
def edgeArrives (src gone : Nat) (s : State) : State :=
  let lead := leadLc s gone
  if (s.clk.run ∨ s.clk.starting) ∧ s.clk.named = none ∧ edgeGood s lead then
    if src = srcPri s then
      { s with clk := { s.clk with named := some (s.clk.now + lead), namedSec := false, namedTimer := false } }
    else if src = srcSecond s then { s with clk := { s.clk with secEdge := some (s.clk.now + lead) } }
    else s
  else s

/-- TICK_SOURCE_EDGE (R27, R18). -/
def execTickSourceEdge (src : Nat) (s : State) : Host.Outcome State Fault Refusal :=
  guarded (okSource src) "source" (edgeArrives src 0) s

/-- TICK_SYMBOL_ARRIVAL (R17, R282): the slot delay, the link delay and the 24 reference periods of regeneration are subtracted. -/
def execTickSymbolArrival (n _tick delay : Nat) (s : State) : Host.Outcome State Fault Refusal :=
  guarded (okPort n) "port" (fun s => edgeArrives n (delay + (lpAt s n).delay + 192) s) s

/-- The window of the predicted edge has passed without a good primary edge (R18). -/
def windowOver (s : State) : Bool := decide (predicted s + 64 < npNow s + leadLc s 0)

/-- MISSED_BOUNDARY (R18): the secondary edge, or the module's own timer, names the boundary. -/
def execMissedBoundary (s : State) : Host.Outcome State Fault Refusal :=
  .next (
    if ¬ s.clk.run ∨ s.clk.named ≠ none ∨ !windowOver s then s
    else
      let sec := if srcSecond s = 0x1E then none else s.clk.secEdge
      { s with clk := { s.clk with
          named := some (match sec with | some t => max s.clk.now t | none => s.clk.now + (predicted s - npNow s).toNat)
          namedSec := sec.isSome
          namedTimer := sec.isNone } })

/-- A good edge of this slot has arrived (R18). -/
def goodEdge (s : State) : Bool := (s.clk.named.isSome && !s.clk.namedTimer) || (s.clk.secEdge.isSome && decide (srcSecond s ≠ 0x1E))

/-- HOLDOVER_EXPIRY (R18): 8 boundaries or 2 ms in holdover and no good edge; ticking stops at the next boundary. -/
def execHoldoverExpiry (s : State) : Host.Outcome State Fault Refusal :=
  .next (
    if s.clk.holdover ∧ ¬ s.clk.stopNext ∧ ¬ goodEdge s ∧ (8 ≤ s.clk.hoCnt ∨ 2000 * wallUs ≤ s.clk.wall - s.clk.hoWall) then
      irqRaise (tckPage / 0x1000) 2 { s with clk := { s.clk with tickLost := true, stopNext := true } }
    else s)

/-- TICK_NUMBER_EXHAUSTED (R20). -/
def execTickNumberExhausted (s : State) : Host.Outcome State Fault Refusal :=
  .next (if s.clk.run ∧ s.clk.num = 2 ^ 48 - 1 then { s with clk := { s.clk with stopNext := true } } else s)

/-- TICK_NUM_START_WRITE (R20). -/
def execTickNumStartWrite (port : Port) (v : BitVec 48) (s : State) : Host.Outcome State Fault Refusal :=
  .next (hostGate port (tckPage + 0x3C) true 0
    (fun s => setReg64 (tckPage + 0x3C) v.toNat { s with clk := { s.clk with numStart := v.toNat } }) s)

/-! ### FOP changes -/

/-- Wall time from now to the boundary that opens tick `at_`. -/
def wallTo (s : State) (at_ : Nat) : Nat :=
  (at_ - s.clk.num) * (fieldAt s (tckPage + 0x20) 0 17 * wallUs) - s.clk.npq * fopQuarter s.clk.fop
/-- A tick number lies at least 4 ticks and 400 us ahead (R34, R365). -/
def farEnough (s : State) (at_ : Nat) : Bool := decide (s.clk.num + 4 ≤ at_) && decide (400 * wallUs ≤ wallTo s at_)
/-- The earliest such tick. -/
def earliestFar (s : State) : Nat :=
  s.clk.num + max 4 (cdiv (400 * wallUs + s.clk.npq * fopQuarter s.clk.fop) (max 1 (fieldAt s (tckPage + 0x20) 0 17) * wallUs))

/-- The loaded image, and while a switch is armed the incoming one, are valid at an operating point (R34, R365). -/
def fopValid (s : State) (f : Nat) : Bool :=
  taskValidAt s f && (match s.phase.img with
    | some i => decide (s.phase.st ≠ 2) || validAt s i.body i.hold f
    | none => true)

/-- A request is refused, its reason recorded (R34 step 2); a controller's request names the port of the leader's die. -/
def fopRefused (port : Option Port) (cause : Nat) (s : State) : State :=
  let s1 := irqRaise (tckPage / 0x1000) (1 <<< 4) (setBits (tckPage + 0x44) (1 <<< 6) { s with clk := { s.clk with fopPend := none } })
  refuseWrite (port.getD (portOf (decide (s.ctl.leader = 1)))) (tckPage + 0x30) cause s1

/-- Both core rails move to an operating point: its default with each die's trim, within 0.70 to 0.85 V (R33). -/
def setRails (f : Nat) (s : State) : State :=
  { s with clk := { s.clk with rail := [0, 1].map fun d => (max 700 (min 850 ((fopRail f : Int) + s.clk.trim.getD d 0))).toNat } }

/-- A request is written, and taken or refused; a higher voltage is set at once (R34 steps 1 to 3). Cause 6, which the cause table gives to
an image that is not valid, also stands for a FOP that is not usable (DESIGN CHOICE, notes/assumptions/65.md). -/
def fopRequested (port : Option Port) (f at_ : Nat) (s : State) : State :=
  let s0 := setField (tckPage + 0x30) 0 3 f (if port.isSome then s else setReg64 (tckPage + 0x34) at_ s)
  if !usable s f || !fopValid s f then fopRefused port 6 s0
  else if !farEnough s at_ then fopRefused port 7 s0
  else
    let s1 := { s0 with clk := { s0.clk with fopPend := some (f, at_), fopCtl := false, fopLate := false, pll := [false, false] } }
    if fopRail s.clk.fop < fopRail f then setRails f s1 else s1

/-- FOP_REQUEST (R34). -/
def execFopRequest (who : Requester) (fop : Nat) (s : State) : Host.Outcome State Fault Refusal :=
  guarded (decide (fop < 8)) "fop" (fun s => match who with
    | .host port => hostGate port (tckPage + 0x30) true 0
        (fun s => fopRequested (some port) fop (reg64 s (tckPage + 0x34) % 2 ^ 48) s) s
    | .controller => fopRequested none fop (earliestFar s) s) s

/-- PLL_LOCK (R34 step 4). -/
def execPllLock (die : Nat) (s : State) : Host.Outcome State Fault Refusal :=
  guarded (okDie die) "die" (fun s =>
    if s.clk.fopPend = none then s else { s with clk := { s.clk with pll := s.clk.pll.set die true } }) s

/-- Service FOP: the current one, or in T1 the one held for the exit (R36, R399). -/
def serviceFop (s : State) : Nat := s.clk.svcFop.getD s.clk.fop

/-- The service FOP moves to f: in T1 it is what the exit will take, else it is requested (R34, R36, R399). -/
def moveService (f : Nat) (s : State) : State :=
  match s.clk.svcFop with
  | some _ => { s with clk := { s.clk with svcFop := some f } }
  | none => fopRequested none f (earliestFar s) s

/-- A reason to step down: a sentinel warning, 4 overruns within 1,024 ticks, or an abandoned tick (R36, R39). -/
def stepDownDue (s : State) : Bool :=
  s.clk.regions.any (fun r => r.2.warned) || decide (4 ≤ s.clk.overruns.length) || bbit s.cmt.src 14

/-- The FOP goes down by one if the image is valid there, else the condition is reported (R36). -/
def lowerFop (s : State) : State :=
  let f := serviceFop s + 1
  if 8 ≤ f ∨ !usable s f ∨ !fopValid s f then emit (.report 1) s else moveService f s

/-- Warnings that have been answered. -/
def clearWarned (s : State) : State :=
  { s with clk := { s.clk with regions := s.clk.regions.foldl (fun m r => mset {} r.1 { r.2 with warned := false } m) s.clk.regions } }

/-- FOP_STEP_DOWN (R36). A step that 4 overruns have caused forgets them: the next takes 4 more (DESIGN CHOICE, notes/assumptions/65.md). -/
def fopDown (s : State) : State :=
  if !stepDownDue s then s
  else
    let s1 := clearWarned s
    lowerFop { s1 with clk := { s1.clk with overruns := [] } }

/-- FOP_STEP_DOWN (R36). -/
def execFopStepDown (s : State) : Host.Outcome State Fault Refusal := .next (fopDown s)

/-- FOP_STEP_UP (R36): after 65,536 quiet ticks, never above the image's declared FOP. -/
def fopUp (s : State) : State :=
  let f := serviceFop s
  let top := match s.task.img with | some i => i.fop | none => 0
  if s.clk.quiet < 65536 ∨ f ≤ top ∨ f = 0 then s
  else if !usable s (f - 1) || !fopValid s (f - 1) then s
  else moveService (f - 1) { s with clk := { s.clk with quiet := 0 } }

/-- FOP_STEP_UP (R36). -/
def execFopStepUp (s : State) : Host.Outcome State Fault Refusal := .next (fopUp s)

/-- Each region switches to the idle loop at a boundary; a lower voltage follows, and rails stay for T1 (R34 steps 5 to 7, R399). Where the
idle loops are not locked yet, the change waits for a later boundary (DESIGN CHOICE, notes/assumptions/65.md). -/
def fopSwitch (s : State) : State :=
  match s.clk.fopPend with
  | none => s
  | some (f, at_) =>
    if at_ ≤ s.clk.num ∧ s.clk.pll.all id then
      let s1 := { s with clk := { s.clk with fop := f, fopPend := none, fopCtl := false, fopLate := false, pll := [false, false] } }
      if s.clk.fopCtl then s1
      else irqRaise (tckPage / 0x1000) (1 <<< 3) (if fopRail f < fopRail s.clk.fop then setRails f s1 else s1)
    else s

/-! ### Regions: margins, stretching and cols -/

/-- Region g. -/
def regionOf (s : State) (g : Nat) : Region := mget {} s.clk.regions g
/-- The module with region g changed. -/
def updRegion (g : Nat) (f : Region → Region) (s : State) : State :=
  { s with clk := { s.clk with regions := mset {} g (f (regionOf s g)) s.clk.regions } }
/-- A region's margin: the lowest report among its 16 sentinels (R31). -/
def Region.margin (r : Region) : Nat := r.sent.foldl (fun m x => min m x.2) 7
/-- Quarter nominal periods lost per period at a margin (R31). -/
def stretchOf (m : Nat) : Nat := [4, 2, 1].getD m 0

/-- 1 ms of wall time. -/
def wallMs : Nat := 1000 * wallUs

/-- Changes of margin that a 1 ms average still needs at a wall time. -/
def keepHist (from_ : Nat) : List (Nat × Nat) → List (Nat × Nat)
  | [] => []
  | x :: t => if x.1 ≤ from_ then [x] else x :: keepHist from_ t

/-- Margin times wall time from `from_` to `to_`. -/
def marginArea (from_ : Nat) : List (Nat × Nat) → Nat → Nat
  | [], to_ => 7 * (to_ - from_)
  | x :: t, to_ => if x.1 ≤ from_ then x.2 * (to_ - from_) else x.2 * (to_ - x.1) + marginArea from_ t x.1

/-- The average of a region's margin over the last 1 ms is below 3.5 (R32); before power-on it counts as 7. -/
def Region.avgLow (wall : Nat) (r : Region) : Bool :=
  decide (2 * (marginArea (wall - wallMs) r.hist wall + 7 * (wallMs - wall)) < 7 * wallMs)

/-- Sentinel k of region g reports a step; a new margin is kept for the average. -/
def sentReport (g k step : Nat) (s : State) : State :=
  updRegion g (fun r =>
    let r1 := { r with sent := mset 7 k step r.sent }
    if r1.margin = r.margin then r1 else { r1 with hist := (s.clk.wall, r1.margin) :: keepHist (s.clk.wall - wallMs) r.hist }) s

/-- MARGIN_FALL (R31): the region stretches from its next period on. -/
def execMarginFall (g k step : Nat) (s : State) : Host.Outcome State Fault Refusal :=
  guarded (okRegion g && decide (k < 16) && decide (step < 8)) "region"
    (fun s => if step < mget 7 (regionOf s g).sent k then sentReport g k step s else s) s

/-- MARGIN_RECOVERY (R31): the depth follows the margin; at 3 or more stretching stops. -/
def execMarginRecovery (g k step : Nat) (s : State) : Host.Outcome State Fault Refusal :=
  guarded (okRegion g && decide (k < 16) && decide (step < 8)) "region"
    (fun s => if mget 7 (regionOf s g).sent k < step then sentReport g k step s else s) s

/-- A region's average margin falls below 3.5, or is back (R32). -/
def sentCheck (g : Nat) (s : State) : State :=
  let r := regionOf s g
  let l := r.avgLow s.clk.wall
  if l && !r.low then
    let s1 := updRegion g (fun r => { r with low := true, warned := true }) { s with clk := { s.clk with quiet := 0 } }
    irqRaise (tckPage / 0x1000) (1 <<< 5) (setBits (tckPage + 0x60 + 4 * (g / 32)) (1 <<< (g % 32)) (setBits (tckPage + 0x44) (1 <<< 7) s1))
  else if !l && r.low then updRegion g (fun r => { r with low := false }) s
  else s

/-- SENTINEL_WARNING (R32). -/
def execSentinelWarning (g : Nat) (s : State) : Host.Outcome State Fault Refusal := guarded (okRegion g) "region" (sentCheck g) s

/-- The regions a col joins, lower-numbered first, in the table order of R26 to R28; where the manual does not say which core region it is,
it is the configuration's (notes/assumptions/21.md). -/
def colSides (c : Nat) : Nat × Nat :=
  if c = 132 then (31, 63)
  else
    let k := c % 66
    let g := 32 * (c / 66)
    let free := g + Config.colCore c % 24
    if k < 18 then (g + 4 * (k / 3) + k % 3, g + 4 * (k / 3) + k % 3 + 1)
    else if k < 38 then (g + 4 * ((k - 18) / 4) + (k - 18) % 4, g + 4 * ((k - 18) / 4 + 1) + (k - 18) % 4)
    else if k < 50 then (free, g + 24 + (k - 38) / 3)
    else if k < 58 then (free, g + 28 + (k - 50) / 4)
    else if k < 62 then (free, g + 30)
    else (g + (if g = 0 then 20 else 0) + (k - 62), g + 31)

/-- How much later than at one nominal period an lc the k-th last lc of region g began. -/
def lateAt (s : State) (g k : Nat) : Int := (regionOf s g).late.getD k 0

/-- Quarter periods that region g waits before its next lc n at col c until the neighbour h has begun lc n - 3, at the saddle lc n - 12
(R29). -/
def colWait (s : State) (c g h : Nat) : Nat :=
  let r := regionOf s g
  let other : Int := if c = 132 then lateAt s h 11 - 48 else lateAt s h 2 - 12
  (other - (lateAt s g 0 + stretchOf r.margin + r.gate)).toNat

/-- Lead of the lower-numbered side of a col (R29): lc that it has begun and its neighbour has not. -/
def colLead (s : State) (c : Nat) : Int :=
  let ahead := fun (a b : Nat) => ((List.range 12).filter fun k => decide (lateAt s a 0 < lateAt s b k - 4 * k)).length
  let x := colSides c
  (ahead x.1 x.2 : Int) - ahead x.2 x.1

/-- The col's register follows the lead across it, and counts its holds (R30). -/
def colNote (c held : Nat) (s : State) : State :=
  let old : ColSt := mget {} s.clk.cols c
  let lead := colLead s c
  { s with clk := { s.clk with cols := mset {} c ⟨lead, max old.maxLead lead.natAbs, min 65535 (old.holds + held)⟩ s.clk.cols } }

/-- COL_HOLD (R29, R30): the side that would pass the bound is gated until its neighbour catches up: wall time, never lc. -/
def colHeld (c : Nat) (s : State) : State :=
  let x := colSides c
  let go := fun (g h : Nat) => colNote c 1 (updRegion g (fun r => { r with gate := r.gate + colWait s c g h }) s)
  if colWait s c x.1 x.2 ≠ 0 then go x.1 x.2 else if colWait s c x.2 x.1 ≠ 0 then go x.2 x.1 else s

/-- COL_HOLD (R29, R30). -/
def execColHold (c : Nat) (s : State) : Host.Outcome State Fault Refusal := guarded (okCol c) "col" (colHeld c) s

/-- Longest wait of region g at any of its cols (R29). -/
def regionWait (s : State) (g : Nat) : Nat :=
  (List.range 133).foldl (fun m c =>
    let x := colSides c
    if x.1 = g then max m (colWait s c x.1 x.2) else if x.2 = g then max m (colWait s c x.2 x.1) else m) 0

/-- Region g after its next lc has begun (R29 to R31): its stretched period, what it was gated, what it waits. -/
def regionNext (s : State) (g : Nat) : Region :=
  let r := regionOf s g
  let d := stretchOf r.margin + r.gate + regionWait s g
  let l := ((lateAt s g 0 + d) :: r.late).take 12
  { r with late := if l.all (· = 0) then [] else l, gate := 0
           loss := if s.clk.run ∧ s.cmt.ran ∧ s.clk.bodyEnd = none then r.loss + d else r.loss }

/-- One lc of the regions (R26, R29 to R32): each begins its next lc; while no region differs from the others nothing is to be worked out. -/
def regionLc (s : State) : State :=
  if s.clk.regions.isEmpty then s
  else
    let held := fun c => let x := colSides c
      b2n (decide (colWait s c x.1 x.2 ≠ 0)) + b2n (decide (colWait s c x.2 x.1 ≠ 0))
    let s1 := { s with clk := { s.clk with regions := (List.range 64).foldl (fun m g => mset {} g (regionNext s g) m) [] } }
    foldN 64 (fun s g => sentCheck g s) (foldN 133 (fun s c => colNote c (held c) s) s1)

/-- Quarters of a nominal period from one lc of region 30 of die 0 to the next, which sets the pace of the module's own count (R27, R42). -/
def lcQuarters (before after : State) : Nat := (4 + lateAt after 30 0 - lateAt before 30 0).toNat

/-- Region starts are counted from region 30's start of lc 0 (R27). -/
def rebase (s : State) : State :=
  let d := lateAt s 30 0
  if d = 0 then s
  else { s with clk := { s.clk with regions := (List.range 64).foldl (fun m g =>
    let r := regionOf s g
    let l := (List.range 12).map fun k => lateAt s g k - d
    mset {} g { r with late := if l.all (· = 0) then [] else l } m) [] } }

end Sys2Proof.Machine
end

