-- ==== Sys2Proof/Machine/Shake.lean ====
section
/-! DEFINITION. SHAKE256 (FIPS 202), the digest of images, measurements, journal records and the audit chain (R72, R66, R415, R420). Its
constants are made as the standard makes them: the rotations by a walk over the lanes, the round constants by a shift register. -/
namespace Sys2Proof.Machine

/-- A 64-bit lane rotated left by n < 64. -/
def rotl64 (n x : Nat) : Nat := x * 2 ^ n % 2 ^ 64 + x / 2 ^ (64 - n)

/-- The walk over the 24 lanes other than lane 0, from (1, 0) on: lane t moves by (t + 1)(t + 2)/2 places and becomes lane t + 1. -/
def laneWalk : Nat → Nat × Nat
  | 0 => (1, 0)
  | t + 1 => let w := laneWalk t; (w.2, (2 * w.1 + 3 * w.2) % 5)
/-- Number of a lane. -/
def laneNo (w : Nat × Nat) : Nat := w.1 + 5 * w.2
/-- The lane that comes to place i, and by how many bits it has turned. -/
def laneFrom (i : Nat) : Nat × Nat :=
  match (List.range 24).find? fun t => decide (laneNo (laneWalk (t + 1)) = i) with
  | some t => (laneNo (laneWalk t), (t + 1) * (t + 2) / 2 % 64)
  | none => (0, 0)
/-- Where each lane comes from. -/
def laneMoves : List (Nat × Nat) := (List.range 25).map laneFrom

/-- One step of the 8-bit register x^8 + x^6 + x^5 + x^4 + 1. -/
def regStep (r : Nat) : Nat := if r < 128 then 2 * r else (2 * r) ^^^ 0x171
/-- The register after n steps. -/
def regAfter (n : Nat) : Nat := Nat.repeat regStep n 1
/-- Bits 2^j - 1 of round k's constant are the register's lowest bits at steps 7k + j. -/
def roundConst (k : Nat) : Nat := ((List.range 7).map fun j => regAfter (7 * k + j) % 2 * 2 ^ (2 ^ j - 1)).sum
/-- The 24 constants. -/
def roundConsts : List Nat := (List.range 24).map roundConst

/-- What column x of the lanes adds up to. -/
def parity (a : List Nat) (x : Nat) : Nat := (List.range 5).foldl (fun v y => v ^^^ a.getD (x + 5 * y) 0) 0
/-- Every lane takes the parities of the columns beside its own. -/
def mixColumns (a : List Nat) : List Nat :=
  let c := (List.range 5).map (parity a)
  a.mapIdx fun i v => v ^^^ c.getD ((i + 4) % 5) 0 ^^^ rotl64 1 (c.getD ((i % 5 + 1) % 5) 0)
/-- Lanes turn and change places. -/
def moveLanes (a : List Nat) : List Nat := laneMoves.map fun m => rotl64 m.2 (a.getD m.1 0)
/-- Every lane takes the bits of the second next lane of its row that the next one lacks. -/
def mixRows (a : List Nat) : List Nat :=
  a.mapIdx fun i v =>
    let next := fun k => a.getD (i / 5 * 5 + (i + k) % 5) 0
    v ^^^ next 2 ^^^ (next 1 &&& next 2)
/-- One round. -/
def permRound (a : List Nat) (k : Nat) : List Nat :=
  match mixRows (moveLanes (mixColumns a)) with
  | v :: t => (v ^^^ k) :: t
  | [] => []

/-- One block of 136 bytes is taken in, and the 24 rounds run. -/
def takeBlock (a : List Nat) (b : List Byte) : List Nat :=
  roundConsts.foldl permRound (a.mapIdx fun i v => if i < 17 then v ^^^ leAt (8 * i) 8 b else v)

/-- The message's blocks: it is followed by 0x1F and zeros, and the last byte of the last block gets bit 7. -/
def shakePad (l : List Byte) : List Byte :=
  let n := l.length / 136 * 136 + 135
  (l ++ [0x1F] ++ List.replicate (n - l.length) 0).take n ++ [if l.length = n then 0x9F else 0x80]

/-- SHAKE256 with 256 bits of output, as 32 bytes. -/
def shake256 (l : List Byte) : List Byte :=
  let p := shakePad l
  (((chunksOf 136 (p.length / 136) p).foldl takeBlock (List.replicate 25 0)).take 4).flatMap (leBytes 8)

end Sys2Proof.Machine
end

