-- ==== Sys2Proof/Machine/Measure.lean ====
section
/-! DEFINITION. The measurement register and its log (R415), the verification of a firmware slot (R414) and the service mailbox rings (R60,
R321, R322, R440). -/
namespace Sys2Proof.Machine

/-- An event extends MREG and joins the log (R415). -/
def measure (ty : Nat) (d : List Byte) (s : State) : State :=
  { s with sec := { s.sec with
      mreg := shake256 (s.sec.mreg ++ leBytes 1 ty ++ d), events := s.sec.events + 1, mlog := s.sec.mlog ++ [(ty, d)] } }

/-- Bytes of a firmware slot. -/
def fwSlot (s : State) (k : Nat) : List Byte := mget [] s.sec.slot k

/-- A firmware slot is acceptable (R414): key and signature hold, and its version is at least the fused one. -/
def fwAccepts (s : State) (b : List Byte) : Bool := Config.firmwareOk b && decide (s.sec.svnFused ≤ leAt 4 4 b)

/-! ### Service mailbox -/

/-- A word of the memory that a port's BAR0 maps above the pages (R440). -/
def mbxWord (s : State) (port : Port) (a : Nat) : Nat := (mget (0 : W32) s.regs (2 ^ 28 * (1 + portIdx port) + a)).toNat
def setMbxWord (port : Port) (a v : Nat) (s : State) : State :=
  { s with regs := mset 0 (2 ^ 28 * (1 + portIdx port) + a) (BitVec.ofNat 32 v) s.regs }

/-- Offsets in BAR0 of the rings, and of their pointers: request tail, request head, reply tail, reply head (R440). -/
def reqRing : Nat := 0x3E00000
def replyRing : Nat := 0x3E01000
def reqTail : Nat := 0x3E02000
def reqHead : Nat := 0x3E02004
def replyTail : Nat := 0x3E02008
def replyHead : Nat := 0x3E0200C

/-- A record with its RSEQ (R321). -/
def withRseq (b : List Byte) (n : Nat) : List Byte := b.take 4 ++ leBytes 4 (n % 2 ^ 32) ++ b.drop 8

/-- A pad record of u bytes (R322). -/
def padRec (u rseq : Nat) : List Byte := withRseq (padTo u 0 (leBytes 2 (u / 16))) rseq

/-- A record's bytes in the reply ring, from a byte offset on. -/
def putReply (port : Port) (a : Nat) (b : List Byte) (s : State) : State :=
  foldN (b.length / 4) (fun s k => setMbxWord port (replyRing + a + 4 * k) (leAt (4 * k) 4 b) s) s

/-- The next RSEQ of a port's reply ring is n. -/
def setRseq (port : Port) (n : Nat) (s : State) : State := { s with ctl := { s.ctl with rseq := s.ctl.rseq.set (portIdx port) n } }

/-- A reply record is placed in the ring, if there is room for it (R322). -/
def placeReply (port : Port) (b : List Byte) (s : State) : Option State :=
  let tail := mbxWord s port replyTail % 4096
  let f := 4096 - 16 - (tail + 4096 - mbxWord s port replyHead % 4096) % 4096
  let u := 4096 - tail
  let n := b.length
  let q := s.ctl.rseq.getD (portIdx port) 0
  let put := fun (a q : Nat) (s : State) =>
    setMbxWord port replyTail ((a + n) % 4096) (emit (.mailbox port (withRseq b q)) (setRseq port (q + 1) (putReply port a (withRseq b q) s)))
  if n ≤ u then (if f < n then none else some (put tail q s))
  else if f < u + n then none
  else some (put 0 (q + 1) (putReply port tail (padRec u q) s))

/-- Replies go to their ring in order, until one finds no room (R322). -/
def placeReplies (port : Port) : List (List Byte) → State → List (List Byte) × State
  | [], s => ([], s)
  | b :: rest, s => match placeReply port b s with
    | some s1 => placeReplies port rest s1
    | none => (b :: rest, s)

/-- The waiting replies of a port are placed as far as there is room. -/
def sendReplies (port : Port) (s : State) : State :=
  let r := placeReplies port ((s.ctl.replies.filter fun x => decide (x.1 = port)).map (·.2)) s
  { r.2 with ctl := { r.2.ctl with replies := (s.ctl.replies.filter fun x => decide (x.1 ≠ port)) ++ r.1.map fun b => (port, b) } }

/-- The header of R321 with TYPE 2 before a body (notes/assumptions/17.md). -/
def svcRec (body : List Byte) : List Byte :=
  let n := 1 + cdiv body.length 16
  leBytes 16 (n + 2 * 2 ^ 16) ++ padTo (16 * (n - 1)) 0 body

/-- A reply on a port's service mailbox: records of at most half the ring (R322, notes/assumptions/17.md). -/
def svcReply (port : Port) (body : List Byte) (s : State) : State :=
  let recs := (List.range (max 1 (cdiv body.length 2032))).map fun k => svcRec (slice (2032 * k) (min 2032 (body.length - 2032 * k)) body)
  sendReplies port { s with ctl := { s.ctl with replies := s.ctl.replies ++ recs.map fun b => (port, b) } }

/-- The record at the head of the request ring has been taken, with a pad before it (R321, R322). -/
def takeRecord : Nat → Port → State → State
  | 0, _, s => s
  | fuel + 1, port, s =>
    let h := mbxWord s port reqHead % 4096
    if h = mbxWord s port reqTail % 4096 then s
    else
      let w := mbxWord s port (reqRing + h)
      let s1 := setMbxWord port reqHead ((h + 16 * bfield w 0 16) % 4096) s
      if bfield w 16 4 = 0 then takeRecord fuel port s1 else s1

/-- Bytes of 256-bit words (R12). -/
def storeBytes (l : List W256) : List Byte := l.flatMap fun w => leBytes 32 w.toNat

end Sys2Proof.Machine
end

