-- ==== Sys2Proof/Machine/Host.lean ====
section
/-! DEFINITION. Host ports: ownership and hello (R317 to R319), rings (R320 to R323), intake (R324 to R330), the release of egress (R337,
R338), latency tolerance (R339), link up and host-port reset (R404). -/
namespace Sys2Proof.Machine

/-! ### Ownership -/

/-- Pages whose PEND is 1 (R443). -/
def pendPages (s : State) : List Nat :=
  (s.regs.filter fun x => decide (x.1 % 0x1000 = 0x10) && decide (x.2.toNat &&& regAt s (x.1 + 4) ≠ 0)).map fun x => x.1 / 0x1000

/-- Both host-port pages raise a bit. -/
def irqBoth (bit : Nat) (s : State) : State :=
  irqRaise (hpPage .b / 0x1000) (1 <<< bit) (irqRaise (hpPage .a / 0x1000) (1 <<< bit) s)

/-- Ownership passes; when no port owned management and a PEND is 1, the new owner is owed one message (R318, R341, R443). -/
def passTo (port : Port) (s : State) : State :=
  let owed := match s.host.owner with | none => (pendPages s).take 1 | some _ => s.host.irqOwed
  irqBoth 0 { s with host := { s.host with owner := some port, offer := none, irqOwed := owed } }

/-- HOST_OWN_OFFER (R318). -/
def execHostOwnOffer (port : Port) (s : State) : Host.Outcome State Fault Refusal :=
  .next (hostGate port (hpPage port + 0x24) true 0 (fun s =>
    if s.host.owner = some port then { s with host := { s.host with offer := some s.clk.wall } } else s) s)

/-- HOST_OWN_ACCEPT (R318): within 1 s of the offer. -/
def execHostOwnAccept (port : Port) (s : State) : Host.Outcome State Fault Refusal :=
  .next (hostGate port (hpPage port + 0x24) true 0 (fun s =>
    match s.host.offer with
    | some t => if s.host.owner = some (portOther port) ∧ s.clk.wall ≤ t + 1000000 * wallUs then passTo port s else s
    | none => s) s)

/-- OFFER_LAPSE (R318). -/
def execOfferLapse (s : State) : Host.Outcome State Fault Refusal :=
  .next (match s.host.offer with
    | some t => if t + 1000000 * wallUs ≤ s.clk.wall then { s with host := { s.host with offer := none } } else s
    | none => s)

/-- The owner's link has been down, or its PERST# asserted, for 100 ms (R318). -/
def ownerGone (s : State) (owner : Port) : Bool :=
  match (hpAt s owner).downAt with | some t => decide (t + 100000 * wallUs ≤ s.clk.wall) | none => false

/-- HOST_OWN_TAKE (R318). -/
def execHostOwnTake (port : Port) (s : State) : Host.Outcome State Fault Refusal :=
  .next (hostGate port (hpPage port + 0x24) true 0 (fun s =>
    match s.host.owner with
    | none => passTo port s
    | some o =>
      if o = port then s
      else if ownerGone s o then passTo port s
      else setBits (hpPage .b + 0x24) (1 <<< 5) (setBits (hpPage .a + 0x24) (1 <<< 5) s)) s)

/-- Host interface version agreed with a host's highest: the module supports 1.0 (R319). -/
def agree (v : Nat) : Nat := if 0x0100 ≤ v then 0x0100 else 0

/-- AGREED changes, and the page says so (R319, R341). -/
def setAgreed (port : Port) (v : Nat) (s : State) : State :=
  if (hpAt s port).agreed = v then s
  else irqRaise (hpPage port / 0x1000) 2 (updHp port (fun h => { h with agreed := v }) s)

/-- HP_HELLO_WRITE (R319). -/
def execHpHelloWrite (port : Port) (v : BitVec 16) (s : State) : Host.Outcome State Fault Refusal :=
  .next (hostGate port (hpPage port + 0x28) true 0
    (fun s => setAgreed port (agree v.toNat) (updHp port (fun h => { h with hostMax := v.toNat }) s)) s)

/-! ### Rings -/

/-- Ring r of a port. -/
def ringAt (s : State) (port : Port) (r : Nat) : Ring := mget {} (hpAt s port).rings r
/-- The ring changed by f. -/
def updRing (port : Port) (r : Nat) (f : Ring → Ring) (s : State) : State :=
  updHp port (fun h => { h with rings := mset {} r (f (mget {} h.rings r)) h.rings }) s
/-- Ring size in bytes. -/
def Ring.size (x : Ring) : Nat := 2 ^ x.log2
/-- Bytes between HEAD and TAIL. -/
def Ring.used (x : Ring) : Nat := (x.tail + x.size - x.head) % x.size

/-- A record waits for a ring; `die` is the staging that holds it, 2 for none. -/
def pushRing (port : Port) (r die : Nat) (bytes : List Byte) (s : State) : State :=
  updRing port r (fun x => { x with wait := x.wait ++ [(die, bytes)] }) s

/-- The header of R321, its RSEQ 0, before a record's content. -/
def ringRec (ty tick eseq : Nat) (content : List Byte) : List Byte :=
  let n := 1 + cdiv content.length 16
  leBytes 2 n ++ leBytes 2 ty ++ leBytes 4 0 ++ leBytes 6 tick ++ leBytes 2 eseq ++ padTo (16 * (n - 1)) 0 content

/-- Key of a ring's status bits among those that hardware sets. -/
def ringKey (port : Port) (r : Nat) : Nat := 2 ^ 40 + 2 ^ 32 * portIdx port + 0x1000 * r + 0x18

/-- RING_HEAD_WRITE (R320): HEAD moves within the span from the old HEAD to TAIL. -/
def headWrite (port : Port) (r : Nat) (v : W32) (s : State) : State :=
  let x := ringAt s port r
  let h := v.toNat % 2 ^ 24
  let s1 := if 2 ^ 24 ≤ v.toNat then refuseWrite port (hpPage port + 0x10) 4 s else s
  if h % 16 = 0 ∧ h < x.size ∧ (h + x.size - x.head) % x.size ≤ x.used then updRing port r (fun x => { x with head := h }) s1
  else hwSets (ringKey port r) 2 (updRing port r (fun x => { x with badHead := true }) s1)

/-- RING_HEAD_WRITE (R320). -/
def execRingHeadWrite (port : Port) (r : Nat) (v : W32) (s : State) : Host.Outcome State Fault Refusal :=
  guarded (okRing r) "ring" (headWrite port r v) s

/-- RING_ENABLE (R319, R320): an enabled ring starts empty, with RSEQ 0; records that wait still wait. -/
def ringEnable (port : Port) (r : Nat) (v : W32) (s : State) : State :=
  let en := v.getLsbD 0
  let vec := bfield v.toNat 1 11
  if en ∧ (hpAt s port).agreed = 0 then s
  else updRing port r (fun x =>
    if en ∧ ¬ x.en then { x with en := true, vec := vec, head := 0, tail := 0, rseq := 0, stuck := false }
    else { x with en := en, vec := vec }) s

/-- RING_ENABLE (R320). -/
def execRingEnable (port : Port) (r : Nat) (v : W32) (s : State) : Host.Outcome State Fault Refusal :=
  guarded (okRing r) "ring" (ringEnable port r v) s

/-- The ring's vector goes out once per watershed in which TAIL advanced (R323). -/
def ringMsix (port : Port) (x : Ring) (s : State) : State := if x.moved then s else emit (.msix port x.vec) s

/-- RING_RECORD_WRITE (R322, R323): the first waiting record is placed, if there is room for it. -/
def recordWrite (port : Port) (r : Nat) (s : State) : State :=
  let x := ringAt s port r
  match x.wait with
  | [] => s
  | (_, b) :: rest =>
    let n := b.length
    let f := x.size - 16 - x.used
    let u := x.size - x.tail
    if ¬ x.en ∨ x.stuck ∨ ¬ (hpAt s port).up then s
    else if x.size < 2 * n then hwSets (ringKey port r) 4 (updRing port r (fun x => { x with tooBig := true, stuck := true }) s)
    else if n ≤ u then
      if f < n then s
      else ringMsix port x (updRing port r (fun x => { x with wait := rest, tail := (x.tail + n) % x.size, rseq := x.rseq + 1, moved := true })
        (emit (.hostWrite port (x.base + x.tail) (withRseq b x.rseq)) s))
    else if f < u + n then s
    else ringMsix port x (updRing port r (fun x => { x with wait := rest, tail := n, rseq := x.rseq + 2, moved := true })
      (emit (.hostWrite port x.base (withRseq b (x.rseq + 1))) (emit (.hostWrite port (x.base + x.tail) (padRec u x.rseq)) s)))

/-- RING_RECORD_WRITE (R322). -/
def execRingRecordWrite (port : Port) (r : Nat) (s : State) : Host.Outcome State Fault Refusal :=
  guarded (okRing r) "ring" (recordWrite port r) s

/-! ### Release of egress -/

/-- The port that takes a record now, if one does (R338). -/
def relPort (s : State) (x : RelRec) : Option Port :=
  if (hpAt s x.port).up then some x.port
  else if x.alt ∧ (hpAt s (portOther x.port)).up then some (portOther x.port) else none

/-- Committed records go to their rings in release order, until one has no port (R337, R338). -/
def releaseEgress : List RelRec → State → State
  | [], s => { s with host := { s.host with rel := [] } }
  | x :: rest, s => match relPort s x with
    | some p => releaseEgress rest (pushRing p x.ring x.die x.bytes s)
    | none => { s with host := { s.host with rel := x :: rest } }

/-- Bytes of a die's egress staging in use (R338). -/
def stagedBytes (s : State) (die : Nat) : Nat :=
  let rings := fun (p : Port) => (hpAt s p).rings.foldl (fun n r => (r.2.wait.filter fun w => decide (w.1 = die)).foldl (fun n w => n + w.2.length) n) 0
  (s.host.rel.filter fun x => decide (x.die = die)).foldl (fun n x => n + x.bytes.length) (rings .a + rings .b)

/-! ### Intake -/

/-- Read words of the open packet (R325). -/
def openWords (h : HPort) : Nat := cdiv (8 * h.open_.length) 64

/-- The intake of a port takes words (R326, R330, R342, R402). -/
def takesWords (s : State) (h : HPort) : Bool := h.inEn && h.up && s.clk.run

/-- A bit of `INTK_STAT` and its interrupt. -/
def intkStat (port : Port) (bit irq : Nat) (s : State) : State :=
  irqRaise (intkPage port / 0x1000) (1 <<< irq) (setBits (intkPage port + 0x24) (1 <<< bit) s)

/-- The fill rises from `old` to `new` by a write (R328). -/
def threshold (port : Port) (old new : Nat) (s : State) : State :=
  let level := fieldAt s (intkPage port + 0x2C) 0 17
  if old < level ∧ level ≤ new then irqRaise (intkPage port / 0x1000) 1 s else s

/-- A word of the open packet is stored, or lost when the bank is full or intake is refused (R329, R335). -/
def storeWord (port : Port) (w : W64) (s : State) : State :=
  let h := hpAt s port
  let grow := cdiv (8 * (h.open_.length + 1)) 64 - openWords h
  if h.bad then s
  else if h.refuse ∨ 65536 < h.fillWords + grow then
    intkStat port 1 1 (updHp port (fun h => { h with bad := true, ovrSlot := true }) s)
  else
    gcount 9 (portIdx port) 1 (threshold port h.fillWords (h.fillWords + grow)
      (updHp port (fun h => { h with open_ := h.open_ ++ [w], fillWords := h.fillWords + grow }) s))

/-- INTAKE_WORD_WRITE (R324 to R326): a header opens a packet, a payload word goes on with it. -/
def intakeWord (port : Port) (w : W64) (s : State) : State :=
  let h := hpAt s port
  if !takesWords s h then s
  else if ¬ h.isOpen then
    let len := bfield w.toNat 0 13
    let bad := decide (len = 0 ∨ 4080 < len ∨ bfield w.toNat 13 3 ≠ 0)
    storeWord port w (updHp port (fun h => { h with isOpen := true, bad := bad, need := cdiv len 8, seen := 0, open_ := [] }) s)
  else if h.seen < h.need then storeWord port w (updHp port (fun h => { h with seen := h.seen + 1 }) s)
  else s

/-- INTAKE_WORD_WRITE (R324). -/
def execIntakeWordWrite (port : Port) (w : W64) (s : State) : Host.Outcome State Fault Refusal := .next (intakeWord port w s)

/-- The open packet vanishes (R326). -/
def rewind (port : Port) (s : State) : State :=
  let h := hpAt s port
  if ¬ h.isOpen then s
  else satField (intkPage port + 0x34) 0 32 1
    (updHp port (fun h => { h with isOpen := false, bad := false, fillWords := h.fillWords - openWords h, open_ := [], need := 0, seen := 0 }) s)

/-- Header and payload bytes of the open packet (R325). -/
def packetBytes (h : HPort) : List Byte :=
  let len := match h.open_ with | x :: _ => bfield x.toNat 0 13 | [] => 0
  (h.open_.flatMap fun w => leBytes 8 w.toNat).take (8 + len)

/-- INTAKE_TRAILER (R326): the packet commits or rewinds. -/
def intakeTrailer (port : Port) (w : W64) (s : State) : State :=
  let h := hpAt s port
  if !takesWords s h ∨ ¬ h.isOpen ∨ h.seen < h.need then s
  else
    let crcOk := decide (bfield w.toNat 0 32 = crc32c (packetBytes h))
    if h.bad then rewind port s
    else if crcOk ∧ ¬ w.getLsbD 32 then
      gcount 9 (portIdx port) 1 (satField (intkPage port + 0x30) 0 32 1 (updHp port (fun h =>
        { h with bank := h.bank ++ [packetBytes h], isOpen := false, open_ := [], need := 0, seen := 0 }) s))
    else rewind port (if crcOk then s else intkStat port 2 2 s)

/-- INTAKE_TRAILER (R326). -/
def execIntakeTrailer (port : Port) (w : W64) (s : State) : Host.Outcome State Fault Refusal := .next (intakeTrailer port w s)

/-- A port's link is down, or its PERST# asserted, from now on (R318). -/
def portGone (port : Port) (perst : Bool) (s : State) : State :=
  updHp port (fun h => { h with up := false, perst := h.perst || perst, downAt := some (h.downAt.getD s.clk.wall) }) s

/-- INTAKE_ENABLE (R342): the FIFO takes writes, or stops (R319, R330). -/
def intakeEnable (port : Port) (en : Bool) (s : State) : State :=
  if en ∧ (hpAt s port).agreed = 0 then s
  else
    let s1 := setField (intkPage port + 0x20) 0 1 (b2n en) (updHp port (fun h => { h with inEn := en }) s)
    if en then s1 else rewind port s1

/-- INTAKE_STOP (R330). -/
def intakeStop (port : Port) (why : StopCause) (s : State) : State :=
  match why with
  | .linkDown => rewind port (portGone port false s)
  | .perst => rewind port (portGone port true s)
  | .disable => intakeEnable port false s

/-- INTAKE_STOP (R330). -/
def execIntakeStop (port : Port) (why : StopCause) (s : State) : Host.Outcome State Fault Refusal := .next (intakeStop port why s)

/-- INTAKE_ENABLE (R342). -/
def execIntakeEnable (port : Port) (en : Bool) (s : State) : Host.Outcome State Fault Refusal :=
  .next (hostGate port (intkPage port + 0x20) true 0 (intakeEnable port en) s)

/-! ### Latency tolerance, link up, host-port reset -/

/-- Exit latency of a terrace in ns (R398). -/
def exitNs (s : State) (t : Nat) : Nat :=
  match t with
  | 0 => 0
  | 1 => fieldAt s (tckPage + 0x20) 0 17 * 1000
  | 2 => 20000
  | _ => 2000000

/-- An LTR message goes to each port that is up with LTR enabled (R339, R400). -/
def sendLtr (ns : Nat) (s : State) : State :=
  [Port.a, Port.b].foldl (fun s p =>
    if (hpAt s p).up ∧ (hpAt s p).tol.isSome then emit (.ltr p ns) (updHp p (fun h => { h with sent := ns }) s) else s)
    { s with pwr := { s.pwr with lat := ns } }

/-- HOST_PORT_LINK_UP (R314, R338): the link comes up at the rate and width it trains to, and egress that waited for it leaves. -/
def linkUp (port : Port) (rate width : Nat) (s : State) : State :=
  if ¬ s.pwr.on ∨ s.pwr.inReset then s
  else
    let s1 := updHp port (fun h => { h with up := true, rate := rate, width := width, perst := false, downAt := none }) s
    releaseEgress s1.host.rel s1

/-- HOST_PORT_LINK_UP (R338). -/
def execHostPortLinkUp (port : Port) (rate width : Nat) (s : State) : Host.Outcome State Fault Refusal :=
  guarded (okLink rate width) "rate or width" (linkUp port rate width) s

/-- What a host-port reset clears of a port: configuration, rings, pending halves (R404, R444); records that wait still wait (R396). -/
def clearPort (h : HPort) : HPort :=
  { h with
    rate := 0, width := 0, tol := none, halves := []
    rings := (h.rings.filter fun r => !r.2.wait.isEmpty).map fun r => (r.1, { wait := r.2.wait }) }

/-- HOST_PORT_RESET (R404). -/
def hostPortReset (port : Port) (linkDown : Bool) (s : State) : State :=
  setAgreed port 0 (updHp port clearPort (rewind port (portGone port (!linkDown) s)))

/-- HOST_PORT_RESET (R404). -/
def execHostPortReset (port : Port) (linkDown : Bool) (s : State) : Host.Outcome State Fault Refusal :=
  .next (hostPortReset port linkDown s)

end Sys2Proof.Machine
end

