-- ==== Sys2Proof/Machine/Stream.lean ====
section
/-! DEFINITION. HBM upkeep (R230, R234) and the overflow window after the instruction: completions, errors, resume, timeout, translation
entries and the staging copy (R248 to R254). -/
namespace Sys2Proof.Machine

/-- The task is faulted (R393): the first fault, its batch, and the page's interrupt. -/
def taskFault (code p : Nat) (s : State) : State :=
  let s1 := { s with cmt := { s.cmt with st := 2 } }
  let s2 := if bbit (regAt s1 (cmtPage + 0x58)) 16 then s1
    else setReg64 (cmtPage + 0x5C) s1.cmt.batch (setReg (cmtPage + 0x58) (code + p * 2 ^ 8 + 2 ^ 16) s1)
  irqRaise (cmtPage / 0x1000) (1 <<< 2) s2

/-! ### HBM -/

/-- HBM_REFRESH (R230): the lane's round is noted. -/
def execHbmRefresh (stack lane : Nat) (s : State) : Host.Outcome State Fault Refusal :=
  guarded (decide (stack < 8) && decide (lane < 32)) "lane"
    (fun s => { s with hbm := { s.hbm with refresh := mput (stack * 32 + lane) s.clk.now s.hbm.refresh } }) s

/-- Stack, lane and number in its stack of a 32-byte unit of a die: of the region that holds it, else by rows over the four stacks
(notes/assumptions/11.md). -/
def unitPlace (s : State) (die unit : Nat) : Nat × Nat × Nat :=
  let regs := match s.task.img with | none => [] | some im => im.regions
  let x := 32 * unit
  match regs.find? fun r => decide (r.die = die ∧ r.kind ≠ 3) &&
      (decide (r.base ≤ x ∧ x < r.base + r.size) || (decide (r.kind = 1) && decide (r.baseB ≤ x ∧ x < r.baseB + r.size))) with
  | some r =>
    let base := if r.base ≤ x ∧ x < r.base + r.size then r.base else r.baseB
    let l := rowLane s r ((x - base) / 128)
    (l.1, l.2, stackUnit (setStacks r.stk).length base ((x - base) / 128) unit)
  | none => (4 * die + unit / 4 % 4, unit / 16 % 32, stackUnit 4 0 (unit / 4) unit)

/-- Stack of a unit. -/
def unitStack (s : State) (die unit : Nat) : Nat := (unitPlace s die unit).1

/-- HBM_SCRUB (R234): a corrected word is counted and rewritten, an error that cannot be corrected is counted and its address held. -/
def hbmScrub (die unit : Nat) (ev : List HwEvent) (s : State) : State :=
  let at_ := unitPlace s die unit
  let s1 := { s with hbm := { s.hbm with scrub := s.hbm.scrub.filter (· ≠ die * 2 ^ 40 + unit) } }
  if hbmStruck ev die unit then hbmUeNote at_.1 at_.2.2 s1
  else if ev.any fun e => match e with | .hbmCe d x => decide (d = die ∧ x = unit) | _ => false
    then note (.add (hbmPage at_.1 + 0x28) 0 16 1) s1
  else s1

/-- HBM_SCRUB (R234). -/
def execHbmScrub (die unit : Nat) (ev : List HwEvent) (s : State) : Host.Outcome State Fault Refusal :=
  guarded (okDie die) "die" (hbmScrub die unit ev) s

/-! ### Overflow reads -/

/-- The request of core p with a tag that has gone to the host. -/
def ovOut (s : State) (p tag : Nat) : Option OvReq := (coreAt s p).fe.ov.find? fun q => decide (q.tag = tag) && q.sent

/-- The request leaves the core's list. -/
def dropOv (p tag : Nat) (s : State) : State :=
  updCore p (fun c => { c with fe := { c.fe with ov := c.fe.ov.filter fun q => decide (q.tag ≠ tag) } }) s

/-- The request in the core's list is replaced. -/
def putOv (p : Nat) (q : OvReq) (s : State) : State :=
  updCore p (fun c => { c with fe := { c.fe with ov := c.fe.ov.map fun x => if x.tag = q.tag then q else x } }) s

/-- Overflow reads of a port that wait for the copy or for host DMA tags go to the host, core by core in order of entry (R248, R251). -/
def sendWaiting (port : Port) (s : State) : State :=
  if s.host.copy.any fun o => decide (o.port = port) then s
  else eachCore (fun p s =>
    let l := (coreAt s p).fe.ov
    if l.any fun q => decide (q.port = port) && !q.sent then
      (List.range l.length).foldl (fun s j =>
        match (coreAt s p).fe.ov[j]? with
        | some q => if q.port = port ∧ ¬ q.sent then sendOvRead p q (if j = 0 then none else (coreAt s p).fe.ov[j - 1]?) s else s
        | none => s) s
    else s) s

/-- Rows of the request that stand next in order and have come (R248). -/
def cameNext (q : OvReq) : Nat := (findN (q.rows + 1) fun n => !(q.came.any fun x => decide (x.1 = q.done + n))).getD q.rows

/-- OVERFLOW_COMPLETION (R202, R248): rows whose completions have all come, from `row` of the request on; each goes to the deposit buffer in
row order, and the request's DMA tags are free when its last row has come. -/
def ovComplete (p tag row : Nat) (bytes : List Byte) (s : State) : State :=
  match ovOut s p tag with
  | none => s
  | some q =>
    let n := bytes.length / 128
    if n = 0 ∨ bytes.length % 128 ≠ 0 ∨ row < q.done ∨ q.rows < row + n then s
    else
      let q1 := { q with came := (List.range n).foldl (fun m j => mput (row + j) (slice (128 * j) 128 bytes) m) q.came }
      let k := cameNext q1
      let fin := decide (q.rows ≤ q.done + k)
      let q2 := { q1 with done := q.done + k, came := q1.came.filter fun x => decide (q.done + k ≤ x.1) }
      let rows := (List.range k).map fun j => mget [] q1.came (q.done + j)
      let s1 := queueRows p q.hnd (q.off + 128 * q.done) rows (if fin then some tag else none) none (putOv p q2 s)
      if fin then sendWaiting q.port (dropOv p tag s1) else s1

/-- OVERFLOW_COMPLETION (R248). -/
def execOverflowCompletion (p tag row : Nat) (bytes : List Byte) (s : State) : Host.Outcome State Fault Refusal :=
  guarded (okCore p) "core" (ovComplete p tag row bytes) s

/-- PCIE_COMPLETION_ERROR (R252, R254): the tag completes; a broadcast core deposits the poison pattern in the rows that have not come in
order, and its tick is not clean; a threaded one halts the stream at the request. -/
def ovError (p tag : Nat) (s : State) : State :=
  match ovOut s p tag with
  | none => s
  | some q =>
    let s1 := sendWaiting q.port (dropOv p tag s)
    if (coreAt s p).mode = .threaded then
      let s2 := updCore p (fun c => { c with fe := { c.fe with mtags := mdel tag c.fe.mtags } }) s1
      match q.work with
      | some w => stallThread p w.thr (haltCtx p (iUmod w.ins % 16) 3 (BitVec.ofNat 64 ((q.spans.headD (0, 0)).1)) (addWork p w s2))
      | none => s2
    else coreSrc p 4 (queueRows p q.hnd (q.off + 128 * q.done) (List.replicate (q.rows - q.done) (List.replicate 128 0xFF)) (some tag) none s1)

/-- PCIE_COMPLETION_ERROR (R252). -/
def execPcieCompletionError (p tag : Nat) (s : State) : Host.Outcome State Fault Refusal :=
  guarded (okCore p) "core" (ovError p tag) s

/-- Threads of the instructions that context n of core p still has to make. -/
def ctxThreads (c : Core) (n : Nat) : List Nat :=
  (ctxAt c n).thr :: ((c.job.work.filter fun w => decide (iUnit w.ins = 1 ∧ iUmod w.ins % 16 = n)).map (·.thr))

/-- The threads of context n are ready again (R254). -/
def wakeThreads (n : Nat) (c : Core) : Core :=
  { c with th := { c.th with thr := (ctxThreads c n).foldl (fun l t => modAt t (fun t => if t.stall = some haltLc then { t with stall := none } else t) l) c.th.thr } }

/-- A halted context runs again at its saved indices (R254). -/
def resumeCtx (p n : Nat) (s : State) : State :=
  updCore p (wakeThreads n) (updCtx p n (fun x => if x.state = 3 then { x with state := x.prev, fault := 0 } else x) s)

/-- A halted context is discarded with what it had still to do (R254). -/
def discardCtx (p n : Nat) (s : State) : State :=
  if (ctxAt (coreAt s p) n).state ≠ 3 then s
  else
    let s1 := closeCtx p n (updCore p (wakeThreads n) s)
    updCore p (fun c => { c with job := { c.job with work := c.job.work.filter fun w => !(decide (iUnit w.ins = 1 ∧ iUmod w.ins % 16 = n)) } }) s1

/-- Streams of threaded cores that a translation miss of the port has halted run again (R254). -/
def resumeStreams (port : Port) (s : State) : State :=
  eachCore (fun p s =>
    let c := coreAt s p
    if c.mode ≠ .threaded then s
    else c.fe.ctx.foldl (fun (s : State) (x : Nat × Ctx) =>
      let ports : List Port := (c.job.work.filter fun w => decide (iUnit w.ins = 1 ∧ iUmod w.ins % 16 = x.1)).filterMap fun w =>
        (operandOf w.ins 2).bind fun j => (regionAt s (iSel w.ins j)).map (·.port)
      if x.2.state = 3 ∧ x.2.fault = 1 ∧ (ports.isEmpty ∨ ports.contains port) then resumeCtx p x.1 s else s) s) s

/-- OVERFLOW_RESUME (R253, R254): the miss of the port is answered; with several ports missed, each answers for its own (DESIGN CHOICE,
notes/assumptions/65.md). -/
def ovResume (port : Port) (s : State) : State :=
  let s1 := resumeStreams port s
  let left := s1.cmt.missPorts.filter fun q => decide (q ≠ port)
  if s1.cmt.missSlots.isSome ∧ s1.cmt.missPorts.contains port then
    { s1 with cmt := { s1.cmt with missPorts := left, resumed := left.isEmpty } }
  else s1

/-- OVERFLOW_RESUME (R253). -/
def execOverflowResume (port : Port) (s : State) : Host.Outcome State Fault Refusal :=
  .next (woGate port (hpPage port + 0x110) true 0 (ovResume port) s)

/-- Slots allowed before the timeout: the fewest of the ports whose miss awaits a resume. -/
def missTmo (s : State) : Nat := s.cmt.missPorts.foldl (fun m p => min m (fieldAt s (hpPage p + 0x110) 16 16)) 65536

/-- A core whose request missed (R253), for the fault's record. -/
def missCore (s : State) : Nat := (findN 192 fun p => bbit (regAt s (corePage p + 0x80)) 2).getD 0

/-- OVERFLOW_TIMEOUT (R253): the task stops with an overflow-timeout program fault. -/
def execOverflowTimeout (s : State) : Host.Outcome State Fault Refusal :=
  .next (match s.cmt.missSlots with
    | some n =>
      if missTmo s ≤ n ∧ ¬ s.cmt.resumed then taskFault 0x18 (missCore s) { s with cmt := { s.cmt with missSlots := none, missPorts := [] } } else s
    | none => s)

/-- THREADED_STREAM_HALT (R254): the context halts with its fault, and the threads of its instructions stop being ready. -/
def streamHalt (p ctx : Nat) (cause : HaltCause) (addr : W64) (s : State) : State :=
  let c := coreAt s p
  let x := ctxAt c ctx
  if c.mode ≠ .threaded ∨ x.state = 0 ∨ x.state = 3 then s
  else
    let code := match cause with | .xlatMiss => 1 | .hbmUe => 2 | .pcieError => 3
    (ctxThreads c ctx).foldl (fun s t => stallThread p t s) (haltCtx p ctx code addr s)

/-- THREADED_STREAM_HALT (R254). -/
def execThreadedStreamHalt (p ctx : Nat) (cause : HaltCause) (addr : W64) (s : State) : Host.Outcome State Fault Refusal :=
  guarded (okCore p && decide (ctx < 16)) "core" (streamHalt p ctx cause addr) s

/-! ### Translation entries and the staging copy -/

/-- Committed staging data of a granule awaits its copy (R250). -/
def copyPend (s : State) (port : Port) (g : Nat) : Bool := s.host.copy.any fun o => decide (o.port = port ∧ o.gran = g) && o.ok

/-- An agreeing pair of both entry words (R250, R445): the entry holds from the next boundary on. -/
def xentWrite (port : Port) (entry : W64) (s : State) : State :=
  let g := fieldAt s (hpPage port + 0x100) 0 23
  let e := entry.toNat
  let old := (xlatAt s port g).toNat
  let clears := decide ((bbit old 0 ∧ ¬ bbit e 0) ∨ (bbit old 1 ∧ ¬ bbit e 1))
  hostGate port (hpPage port + 0x104) (!(copyPend s port g && clears)) 8
    (fun s => updHp port (fun h => { h with xlatNext := mput g (BitVec.ofNat 64 (e / 2 ^ 21 * 2 ^ 21 + e % 4)) h.xlatNext })
      (setReg64 (hpPage port + 0x104) e s)) s

/-- OVF_XENT_WRITE (R250). -/
def execOvfXentWrite (port : Port) (entry : W64) (s : State) : Host.Outcome State Fault Refusal := .next (xentWrite port entry s)

/-- Copied rows as writes of host memory: adjacent ones in one aligned 4 KB window are one write (R248). -/
def copyWrites (port : Port) : List OvWr → List Out → List Out
  | [], acc => acc
  | o :: t, acc =>
    match acc.getLast? with
    | some (.hostWrite pt a b) =>
      if pt = port ∧ a + b.length = o.bus ∧ a / 4096 = (o.bus + o.bytes.length - 1) / 4096
      then copyWrites port t (acc.dropLast ++ [.hostWrite port a (b ++ o.bytes)])
      else copyWrites port t (acc ++ [.hostWrite port o.bus o.bytes])
    | _ => copyWrites port t (acc ++ [.hostWrite port o.bus o.bytes])

/-- OVERFLOW_STAGING_COPY (R107, R251): the port's committed staging goes to host memory in tick and step order, then the reads that waited. -/
def stagingCopy (port : Port) (s : State) : State :=
  if ¬ (hpAt s port).up then s
  else
    let mine := s.host.copy.filter fun o => decide (o.port = port)
    let s1 := { s with
      host := { s.host with copy := s.host.copy.filter fun o => decide (o.port ≠ port) }
      out := s.out ++ copyWrites port (mine.filter (·.ok)) [] }
    sendWaiting port s1

/-- OVERFLOW_STAGING_COPY (R107, R251). -/
def execOverflowStagingCopy (port : Port) (s : State) : Host.Outcome State Fault Refusal := .next (stagingCopy port s)

end Sys2Proof.Machine
end

