-- ==== Sys2Proof/Machine/Dale.lean ====
section
/-! DEFINITION. Dale sequencers (R44 to R49, R88 to R91, R102 to R104), the broadcast into unit queues (R48, R50, R52, R59) and the signal
stage (R82). -/
namespace Sys2Proof.Machine

/-- The first core of a dale, named where a dale reports a program fault. -/
def daleCore (d : Nat) : Nat := 16 * d
/-- The cores of a dale. -/
def daleCores (d : Nat) : List Nat := (List.range 16).map fun k => 16 * d + k

/-- A program fault that a dale reports at the commit zone (R45, R394). -/
def daleFault (code d : Nat) (s : State) : State :=
  if s.cmt.faults.contains (code, daleCore d) then s
  else { s with cmt := { s.cmt with faults := s.cmt.faults ++ [(code, daleCore d)] } }

/-- Word n of the stream as instruction memory holds it: a streaming dale's memory is a ring (R45). -/
def imemAt (x : Dale) (n : Nat) : W256 := mget 0 x.imem (if x.stream then n % 32768 else n)

/-- The instruction whose word 0 is word n. -/
def insAt (x : Dale) (n : Nat) : Ins :=
  let w := imemAt x n
  let len := bfield w.toNat 12 2
  ⟨w, if 1 ≤ len then imemAt x (n + 1) else 0, if 2 ≤ len then imemAt x (n + 2) else 0⟩

/-- Words of an instruction (R78). -/
def insWords (i : Ins) : Nat := min (iLen i + 1) 3

/-- Words already issued in this lc (R47). -/
def wordsNow (s : State) (x : Dale) : Nat := if x.cntLc = s.clk.now then x.cnt else 0

/-- The dale can issue in this lc (R24, R45, R46, R49): not in the last Z nominal periods of a slot, an overrunning tick's included. -/
def canIssue (s : State) (x : Dale) : Bool :=
  s.clk.run && s.cmt.ran && !s.clk.zone && decide (npNow s + slotZ s < slotN s s.clk.fop) && decide (x.st = 1) && decide (x.stopped = 0) && decide (x.next ≤ s.clk.now)
    && decide (x.pc < x.words)

/-- The next n words are in the ring (R45). -/
def wordsHere (x : Dale) (n : Nat) : Bool := !x.stream || decide (x.pc + n ≤ x.filled)

/-- After word `pc - 1`: the word that comes next and the blocks still in progress; a block that ends there repeats, or is left (R102). -/
def blockEnd (pc : Nat) : List Rep → Nat × List Rep
  | [] => (pc, [])
  | r :: rest =>
    if pc < r.stop then (pc, r :: rest)
    else if r.left = 0 then blockEnd pc rest
    else (r.start, { r with left := r.left - 1 } :: rest)

/-- The instruction's words have issued; a repetition starts in the lc after (R102). -/
def advance (s : State) (i : Ins) (x : Dale) : Dale :=
  let e := blockEnd (x.pc + insWords i) x.reps
  { x with
    pc := e.1, reps := e.2, cnt := wordsNow s x + insWords i, cntLc := s.clk.now
    next := if e.1 = x.pc + insWords i then x.next else max x.next (s.clk.now + 1) }

/-- Issue meets a word that is not in the ring (R45). -/
def underrun (d : Nat) (s : State) : State :=
  daleFault 0x01 d (noteStat (dalePage d) 0x24 2 0 (updDale d (fun x => { x with stopped := 1 }) s))

/-- Issue meets a word that cannot be corrected (R46). -/
def imemBad (d : Nat) (s : State) : State :=
  markSrc 2 (noteStat (dalePage d) 0x24 3 1 (updDale d (fun x => { x with stopped := 2 }) s))

/-- An imem error that cannot be corrected strikes one of the instruction's words (R46). -/
def imemStruck (ev : List HwEvent) (d : Nat) (x : Dale) (i : Ins) : Bool :=
  ev.any fun e => match e with
    | .imemUe dd w => decide (dd = d ∧ x.pc ≤ w ∧ w < x.pc + insWords i)
    | _ => false

/-- Words of the instruction that are read corrected (R46). -/
def imemFixed (ev : List HwEvent) (d : Nat) (x : Dale) (i : Ins) : Nat :=
  ((List.range (insWords i)).filter fun k => ev.contains (.imemCe d (x.pc + k))).length

/-- The words of an instruction are read: corrected ones are counted, one that cannot be corrected stops issue; whether the instruction
may go on (R46). -/
def imemRead (ev : List HwEvent) (d : Nat) (x : Dale) (i : Ins) (s : State) : State × Bool :=
  let n := imemFixed ev d x i
  let s1 := if n = 0 then s else note (.add (dalePage d + 0x1C) 0 32 n) s
  if imemStruck ev d x i then (imemBad d s1, false) else (s1, true)

/-- The instruction joins the broadcast group of this lc (R48). -/
def broadcast (now : Nat) (i : Ins) (l : List Flight) : List Flight :=
  match l.getLast? with
  | some f => if f.lc = now then l.dropLast ++ [{ f with ins := f.ins ++ [i] }] else l ++ [⟨now, [i]⟩]
  | none => [⟨now, [i]⟩]

/-- The queue has an instruction of this lc already (R47). -/
def unitTaken (now u : Nat) (l : List Flight) : Bool :=
  match l.getLast? with
  | some f => decide (f.lc = now) && f.ins.any fun j => decide (iUnit j = u)
  | none => false

/-- What issue meets at the dale's next word in this lc (R45, R47). -/
inductive Meets where
  /-- Nothing: the dale cannot issue now, or its four words of this lc are used. -/
  | none
  /-- A word that has not arrived. -/
  | missing
  /-- An instruction whose words are all there and fit into this lc. -/
  | ins (i : Ins)
  deriving DecidableEq, Repr

/-- What issue meets. -/
def nextIssue (s : State) (x : Dale) : Meets :=
  if !canIssue s x || decide (4 ≤ wordsNow s x) then .none
  else if !wordsHere x 1 then .missing
  else
    let i := insAt x x.pc
    if 4 < wordsNow s x + insWords i then .none
    else if !wordsHere x (insWords i) then .missing
    else .ins i

/-- Issues one instruction of a unit, if this lc allows it; an SQ instruction is executed by its own command (R47). -/
def issueOne (d : Nat) (ev : List HwEvent) (s : State) : State × Bool :=
  let x := daleAt s d
  match nextIssue s x with
  | .none => (s, false)
  | .missing => (underrun d s, false)
  | .ins i =>
    if iUnit i = 0 ∨ unitTaken s.clk.now (iUnit i) x.flight then (s, false)
    else match imemRead ev d x i s with
      | (s1, false) => (s1, false)
      | (s1, true) => (setDale d (advance s i { x with flight := broadcast s.clk.now i x.flight }) s1, true)

/-- INSTRUCTION_ISSUE (R47): up to four words in this lc. -/
def issueUpTo (d : Nat) (ev : List HwEvent) : Nat → State → State
  | 0, s => s
  | fuel + 1, s => match issueOne d ev s with
    | (s1, true) => issueUpTo d ev fuel s1
    | (s1, false) => s1

/-- INSTRUCTION_ISSUE (R47). -/
def execInstructionIssue (d : Nat) (ev : List HwEvent) (s : State) : Host.Outcome State Fault Refusal :=
  guarded (okDale d) "dale" (issueUpTo d ev 4) s

/-! ### Unit queues -/

/-- A full queue drops the instruction (R52). -/
def queueOverflow (p u : Nat) (s : State) : State :=
  progFault 0x02 p (note (.set (corePage p + 0x10) 1) (note (.set (corePage p + 0x2C) 1)
    (note (.first (corePage p + 0x2C) 0 2 3 (u - 1)) s)))

/-- One instruction reaches core p's queue (R50, R52, R59); one that arrives in the lc in which the head starts finds it still there (DESIGN
CHOICE, notes/assumptions/65.md). -/
def enqueue (p : Nat) (i : Ins) (s : State) : State :=
  let c := coreAt s p
  let u := iUnit i
  if c.mode ≠ .broadcast ∨ c.rst.isSome ∨ u = 0 ∨ 5 < u then s
  else if 32 ≤ lenBefore c s.clk.now u then queueOverflow p u s
  else setCore p { c with q := mput u (unitQ c u ++ [i]) c.q, came := mput u (s.clk.now + 1) c.came } s

/-- QUEUE_ENTRY (R48): the oldest group enters 20 lc after its issue. -/
def queueEntry (d : Nat) (s : State) : State :=
  match (daleAt s d).flight with
  | [] => s
  | f :: rest =>
    if s.clk.now < f.lc + 20 ∨ !colsOpen s then s
    else
      let s1 := updDale d (fun x => { x with flight := rest }) s
      (daleCores d).foldl (fun s p => f.ins.foldl (fun s i => enqueue p i s) s) s1

/-- QUEUE_ENTRY (R48). -/
def execQueueEntry (d : Nat) (s : State) : Host.Outcome State Fault Refusal := guarded (okDale d) "dale" (queueEntry d) s

/-- SIGNAL_STAGE (R82): the first due signal fires. -/
def signalStage (p : Nat) (s : State) : State :=
  let c := coreAt s p
  match c.sigs.find? fun g => decide (g.due ≤ s.clk.now) with
  | none => s
  | some g => fireSig p g (setCore p { c with sigs := c.sigs.erase g } s)

/-- SIGNAL_STAGE (R82). -/
def execSignalStage (p : Nat) (s : State) : Host.Outcome State Fault Refusal := guarded (okCore p) "core" (signalStage p) s

/-! ### Sequencer instructions -/

/-- The dale executes the SQ instruction of an opcode at its next word, where it stands there and may issue (R46, R47). -/
def sqRun (d op : Nat) (ev : List HwEvent) (f : Ins → State → State) (s : State) : State :=
  let x := daleAt s d
  match nextIssue s x with
  | .none => s
  | .missing => underrun d s
  | .ins i =>
    if iUnit i ≠ 0 ∨ iOp i ≠ op then s
    else match imemRead ev d x i s with
      | (s1, false) => s1
      | (s1, true) => f i s1

/-- SQNOP (R47): nothing issues for COUNT0 + 1 lc after its own. -/
def execSqnop (d : Nat) (ev : List HwEvent) (s : State) : Host.Outcome State Fault Refusal :=
  guarded (okDale d) "dale" (sqRun d 0x00 ev fun i s =>
    updDale d (fun x => advance s i { x with next := s.clk.now + iCount i 0 + 2 }) s) s

/-- SQREP (R102): the following block issues COUNT0 + 1 times. -/
def execSqrep (d : Nat) (ev : List HwEvent) (s : State) : Host.Outcome State Fault Refusal :=
  guarded (okDale d) "dale" (sqRun d 0x01 ev fun i s =>
    updDale d (fun x =>
      let y := { x with pc := x.pc + insWords i, cnt := wordsNow s x + insWords i, cntLc := s.clk.now }
      { y with reps := ⟨y.pc, y.pc + iOff i 0, iCount i 0⟩ :: y.reps }) s) s

/-- A hold table entry (R103). -/
def holdAt (s : State) (id : Nat) : Option HoldD := match s.task.img with | none => none | some im => im.holds[id]?

/-- SQHOLD (R88, R104): the dale waits, and its idle arrays ramp down. -/
def execSqhold (d : Nat) (ev : List HwEvent) (s : State) : Host.Outcome State Fault Refusal :=
  guarded (okDale d) "dale" (sqRun d 0x02 ev fun i s =>
    let s1 := updDale d (fun x => { advance s i x with st := 2, hold := some (iOff i 0 % 64, s.clk.now) }) s
    (daleCores d).foldl (fun s p => if (coreAt s p).mode = .broadcast then holdRamp p s else s) s1) s

/-- SQEND (R91). -/
def execSqend (d : Nat) (ev : List HwEvent) (s : State) : Host.Outcome State Fault Refusal :=
  guarded (okDale d) "dale" (sqRun d 0x03 ev fun i s => updDale d (fun x => { advance s i x with st := 3 }) s) s

/-! ### Holds -/

/-- Dales that take part in a hold (R88). -/
def holdDales (h : HoldD) : List Nat := (List.range 12).filter fun d => bbit h.dales d

/-- Cores on which a hold's condition is tested (R103): SQHOLD has PCLASS 0 (R83). -/
def testedCores (s : State) (h : HoldD) : List Nat :=
  ((holdDales h).flatMap daleCores).filter fun p => decide ((coreAt s p).mode = .broadcast) && decide ((coreAt s p).lidx ≠ 0xFF)

/-- The journal engine has written a batch on both dies (R103, R331). -/
def batchWritten (s : State) (b : Nat) : Bool :=
  [0, 1].all fun die => match partAt s die b with | some e => e.full | none => true

/-- Every elastic request of the selected kinds has completed (R103, R247, R295). -/
def tagsDone (c : Core) (par : Nat) : Bool :=
  (!bbit par 0 || (c.fe.mtags.isEmpty && !((c.bsn.dep ++ c.bsn.up).any fun d => decide (d.cls = 3) && d.credEp.isNone && d.ftag.isNone)))
    && (!bbit par 1 || c.fe.ftags.isEmpty)

/-- The release condition holds now (R103). -/
def holdMet (s : State) (h : HoldD) : Bool :=
  match h.cond with
  | 0 => true
  | 1 => if h.param % 2 = 0 then batchWritten s s.cmt.batch else !s.cmt.two || batchWritten s (s.cmt.batch + 1)
  | 2 => (testedCores s h).all fun p => tagsDone (coreAt s p) h.param
  | 3 => (testedCores s h).all fun p => decide (bfield h.param 6 8 ≤ objAt (coreAt s p) (h.param % 64))
  | 4 =>
    let b := h.param % 256
    (testedCores s h).all fun p => match barAt s b with
      | some d => !inBarrier s d p || decide (mget 0 (coreAt s p).ch.used b < mget 0 (coreAt s p).ch.phase b)
      | none => false
  | _ => false

/-- Lc at which the last taking-part dale reached the hold, when all have (R89). -/
def holdReached (s : State) (id : Nat) (h : HoldD) : Option Nat :=
  if (holdDales h).all fun d => match (daleAt s d).hold with | some x => decide (x.1 = id) | none => false then
    some ((holdDales h).foldl (fun m d => match (daleAt s d).hold with | some x => max m x.2 | none => m) 0)
  else none

/-- A BARRIER hold uses up one release on each tested core (R103). -/
def useRelease (h : HoldD) (s : State) : State :=
  if h.cond = 4 then
    let b := h.param % 256
    (testedCores s h).foldl (fun s p =>
      updCore p (fun c => { c with ch := { c.ch with used := mset 0 b (mget 0 c.ch.used b + 1) c.ch.used } }) s) s
  else s

/-- A new segment begins for the arrays of a dale: their next run is its first (R110). -/
def freshRuns (d : Nat) (s : State) : State :=
  (daleCores d).foldl (fun s p => updCore p (fun c => { c with mx := { c.mx with fresh := true } }) s) s

/-- The taking-part dales resume in the lc after the release (R49, R89, R90). -/
def resumeDales (id rel : Nat) (h : HoldD) (s : State) : State :=
  (holdDales h).foldl (fun s d => freshRuns d <| updDale d (fun x =>
    { x with st := 1, hold := none, next := rel + 1, seg := s.clk.lc + rel + 1 - s.clk.now, segNo := x.segNo + 1 }) s)
    { s with holds := s.holds.filter fun r => decide (r.id ≠ id) }

/-- HOLD_RELEASE (R89): the release lc is fixed 32 lc after the later of the last arrival and the condition; past it the dales resume. -/
def holdRelease (id : Nat) (s : State) : State :=
  match holdAt s id with
  | none => s
  | some h =>
    match s.holds.find? fun r => decide (r.id = id) with
    | some r => if r.rel < s.clk.now then resumeDales id r.rel h s else s
    | none =>
      match holdReached s id h with
      | none => s
      | some last =>
        if !holdMet s h then s
        else
          let from_ := if h.cond = 0 then last else max last s.clk.now
          let s1 := useRelease h s
          { s1 with holds := s1.holds ++ [⟨id, from_ + 32⟩] }

/-- HOLD_RELEASE (R89). -/
def execHoldRelease (id : Nat) (s : State) : Host.Outcome State Fault Refusal :=
  guarded (decide (id < 64)) "hold" (holdRelease id) s

/-! ### Refill -/

/-- INSTRUCTION_REFILL_BEAT (R45): the next word of the dale's stream enters the ring, as HBM delivers it (R234). -/
def refillBeat (d : Nat) (ev : List HwEvent) (s : State) : State :=
  let x := daleAt s d
  match s.task.img with
  | none => s
  | some im =>
    if !x.stream || decide (x.words ≤ x.filled) then s
    else
      let w := (im.streams.getD d []).getD x.filled 0
      let r := reservedRead ev (daleCore d) (d / 6) (refillUnit d x.filled) (leBytes 32 w.toNat) s
      setDale d { x with imem := mset 0 (x.filled % 32768) (BitVec.ofNat 256 (leNat r.1)) x.imem, filled := x.filled + 1 } r.2

/-- INSTRUCTION_REFILL_BEAT (R45). -/
def execInstructionRefillBeat (d : Nat) (ev : List HwEvent) (s : State) : Host.Outcome State Fault Refusal :=
  guarded (okDale d) "dale" (refillBeat d ev) s

end Sys2Proof.Machine
end

