-- ==== Sys2Proof/Machine/Thread.lean ====
section
/-! DEFINITION. Threaded mode (R63 to R66, R119), core modes and the core reset (R67, R69), and the service controllers (R60 to R62). -/
namespace Sys2Proof.Machine

/-! ### Threads -/

/-- Thread t of a core. -/
def thAt (c : Core) (t : Nat) : Thread := c.th.thr.getD t {}
/-- The core with thread t changed. -/
def updTh (p t : Nat) (f : Thread → Thread) (s : State) : State :=
  updCore p (fun c => { c with th := { c.th with thr := modAt t f c.th.thr } }) s

/-- Register numbers in operand A (R119). -/
def thRd (i : Ins) : Nat := iOff i 0 % 32
def thRs1 (i : Ins) : Nat := iOff i 0 / 32 % 32
def thRs2 (i : Ins) : Nat := iOff i 0 / 1024 % 32
/-- Operand B, sign-extended (R119). -/
def thImm (i : Ins) : W64 := BitVec.ofInt 64 (sext 32 (iOff i 1))

/-- Registers that a threaded control instruction reads (R119). -/
def thReads (i : Ins) : List Nat :=
  match iOp i with
  | 0x01 | 0x0C | 0x0D | 0x10 => []
  | 0x0B | 0x0E | 0x0F => [thRs1 i]
  | _ => [thRs1 i, thRs2 i]

/-- Latency of a threaded control instruction (R119). -/
def thLat (op : Nat) : Nat := if op = 0x09 then 4 else if op = 0x0D ∨ op = 0x0E then 6 else 1

/-- The instruction at word n of the local store. -/
def storeIns (c : Core) (n : Nat) : Ins :=
  let w := fun k => mget (0 : W256) c.th.store ((n + k) % 2048)
  let len := bfield (w 0).toNat 12 2
  ⟨w 0, if 1 ≤ len then w 1 else 0, if 2 ≤ len then w 2 else 0⟩

/-- Thread t is ready with its next instruction (R63, R64, R254). -/
def thReady (s : State) (p t : Nat) : Bool :=
  let c := coreAt s p
  let x := thAt c t
  let i := storeIns c x.pc
  x.live && (match x.stall with | some l => decide (l ≤ s.clk.now) | none => true)
    && waitsMet c.obj i
    && (if iUnit i = 6 then (thReads i).all fun r => decide (x.ready.getD r 0 ≤ s.clk.now)
        else if 1 ≤ iUnit i ∧ iUnit i ≤ 5 then decide (lenBefore c s.clk.now (iUnit i) < 32) else true)

/-- The next ready thread after the one that issued last (R63). -/
def nextThread (s : State) (p : Nat) : Option Nat :=
  ((List.range 8).map fun k => ((coreAt s p).th.last + 1 + k) % 8).find? (thReady s p)

/-- The instruction with the amounts of THBASE added to its operand offsets (R119). -/
def basedIns (x : Thread) (i : Ins) : Ins :=
  { i with w0 := BitVec.ofNat 256 ((List.range 3).foldl (fun n j => bput n (104 + 40 * j) 32 (iOff i j + (x.base.getD j 0).toNat)) i.w0.toNat) }

/-- Signals of a threaded control instruction: START and DONE (R119). -/
def thSigs (now : Nat) (i : Ins) : List Sig :=
  ([iSig i 0, iSig i 1].filter fun g => decide (g.1 < 56 ∧ (g.2.2 = 0 ∨ g.2.2 = 2))).map fun g =>
    ⟨if g.2.2 = 0 then now else now + thLat (iOp i), g.1, g.2.1⟩

/-- The thread goes on after its instruction's words; a block of `SQREP` that ends there repeats, or is left (R64, R102). -/
def thNext (i : Ins) (y : Thread) : Thread :=
  let e := blockEnd (y.pc + insWords i) y.reps
  { y with pc := e.1 % 2048, reps := e.2, stall := none }

/-- A sequencer instruction of a thread (R64): `SQNOP` keeps it back for COUNT0 + 1 lc, `SQREP` repeats its block, `SQEND` ends it; no hold
has a thread among its dales (DESIGN CHOICE, notes/assumptions/18.md). -/
def thSeq (now : Nat) (i : Ins) (y : Thread) : Thread :=
  match iOp i with
  | 0x00 => { thNext i y with stall := some (now + iCount i 0 + 2) }
  | 0x01 => { y with pc := (y.pc + insWords i) % 2048, stall := none, reps := ⟨y.pc + insWords i, y.pc + insWords i + iOff i 0, iCount i 0⟩ :: y.reps }
  | 0x03 => { thNext i y with live := false }
  | _ => thNext i y

/-- Thread t issues its next instruction: a threaded control instruction is at hand for its own command, one of a unit joins the queue and
may start in the next lc, a sequencer instruction acts on the thread (R63, R64, R119; notes/assumptions/18.md). -/
def threadIssues (p t : Nat) (s : State) : State :=
  let c := coreAt s p
  let x := thAt c t
  let i := storeIns c x.pc
  let u := iUnit i
  let s1 := updCore p (fun c => { c with th := { c.th with last := t }, started := mput 6 (s.clk.now + 1) c.started }) s
  if u = 0 then updTh p t (thSeq s.clk.now i) s1
  else if u = 6 then
    updTh p t (thNext i) (updCore p (fun c => { c with
      th := { c.th with issued := some (t, i) }, obj := takeWaits i c.obj, sigs := c.sigs ++ thSigs s.clk.now i }) s1)
  else if u ≤ 5 then
    updTh p t (fun y => { thNext i y with base := [0, 0, 0] }) (updCore p (fun c => { c with
      q := mput u (unitQ c u ++ [basedIns x i]) c.q, came := mput u (s.clk.now + 1) c.came
      job := { c.job with qth := mput u (mget [] c.job.qth u ++ [t]) c.job.qth } }) s1)
  else updTh p t (thNext i) s1

/-- THREAD_ISSUE (R63): one instruction per lc. -/
def threadIssue (p : Nat) (s : State) : State :=
  let c := coreAt s p
  if c.mode ≠ .threaded ∨ c.th.issued.isSome ∨ hasStarted c s.clk.now 6 then s
  else match nextThread s p with
    | none => s
    | some t => threadIssues p t s

/-- THREAD_ISSUE (R63). -/
def execThreadIssue (p : Nat) (s : State) : Host.Outcome State Fault Refusal := guarded (okCore p) "core" (threadIssue p) s

/-- Executes the issued threaded control instruction of an opcode: thread number and instruction go to the effect. -/
def thRun (p op : Nat) (f : Nat → Ins → State → State) (s : State) : State :=
  match (coreAt s p).th.issued with
  | none => s
  | some (t, i) =>
    if iOp i ≠ op then s
    else f t i (updCore p (fun c => { c with th := { c.th with issued := none } }) s)

/-- Register r of thread t. -/
def thReg (s : State) (p t r : Nat) : W64 := (thAt (coreAt s p) t).regs.getD r 0

/-- Writes register r of thread t, readable after the latency. -/
def setThReg (p t r lat : Nat) (v : W64) (s : State) : State :=
  updTh p t (fun y => { y with regs := y.regs.set r v, ready := y.ready.set r (s.clk.now + lat) }) s

/-- An instruction rd ← f rs1 rs2. -/
def thAlu (p op : Nat) (f : Ins → W64 → W64 → W64) (s : State) : State :=
  thRun p op (fun t i s => setThReg p t (thRd i) (thLat op) (f i (thReg s p t (thRs1 i)) (thReg s p t (thRs2 i))) s) s

/-- THLI (R119). -/
def execThli (p : Nat) (s : State) : Host.Outcome State Fault Refusal :=
  guarded (okCore p) "core" (thAlu p 0x01 fun i _ _ => thImm i) s
/-- THADD (R119). -/
def execThadd (p : Nat) (s : State) : Host.Outcome State Fault Refusal :=
  guarded (okCore p) "core" (thAlu p 0x02 fun _ a b => a + b) s
/-- THSUB (R119). -/
def execThsub (p : Nat) (s : State) : Host.Outcome State Fault Refusal :=
  guarded (okCore p) "core" (thAlu p 0x03 fun _ a b => a - b) s
/-- THAND (R119). -/
def execThand (p : Nat) (s : State) : Host.Outcome State Fault Refusal :=
  guarded (okCore p) "core" (thAlu p 0x04 fun _ a b => a &&& b) s
/-- THOR (R119). -/
def execThor (p : Nat) (s : State) : Host.Outcome State Fault Refusal :=
  guarded (okCore p) "core" (thAlu p 0x05 fun _ a b => a ||| b) s
/-- THXOR (R119). -/
def execThxor (p : Nat) (s : State) : Host.Outcome State Fault Refusal :=
  guarded (okCore p) "core" (thAlu p 0x06 fun _ a b => a ^^^ b) s
/-- THSHL (R119). -/
def execThshl (p : Nat) (s : State) : Host.Outcome State Fault Refusal :=
  guarded (okCore p) "core" (thAlu p 0x07 fun _ a b => a <<< (b.toNat % 64)) s
/-- THSHR (R119). -/
def execThshr (p : Nat) (s : State) : Host.Outcome State Fault Refusal :=
  guarded (okCore p) "core" (thAlu p 0x08 fun i a b => if iUmod i % 2 = 1 then a.sshiftRight (b.toNat % 64) else a >>> (b.toNat % 64)) s
/-- THMUL (R119). -/
def execThmul (p : Nat) (s : State) : Host.Outcome State Fault Refusal :=
  guarded (okCore p) "core" (thAlu p 0x09 fun _ a b => a * b) s
/-- THCMP (R119). -/
def execThcmp (p : Nat) (s : State) : Host.Outcome State Fault Refusal :=
  guarded (okCore p) "core" (thAlu p 0x0A fun i a b => if (if iUmod i % 2 = 1 then a.slt b else a.ult b) then 1 else 0) s

/-- The thread goes on at the word operand B names, and leaves the blocks that word lies outside. -/
def thJump (p t : Nat) (i : Ins) (s : State) : State :=
  let w := iOff i 1 % 2048
  updTh p t (fun y => { y with pc := w, reps := y.reps.dropWhile fun r => !decide (r.start ≤ w ∧ w < r.stop) }) s

/-- THBR (R119). -/
def execThbr (p : Nat) (s : State) : Host.Outcome State Fault Refusal :=
  guarded (okCore p) "core" (thRun p 0x0B fun t i s => if thReg s p t (thRs1 i) ≠ 0 then thJump p t i s else s) s
/-- THJMP (R119). -/
def execThjmp (p : Nat) (s : State) : Host.Outcome State Fault Refusal :=
  guarded (okCore p) "core" (thRun p 0x0C fun t i s => thJump p t i s) s
/-- A thread's own access of the basin: where its bank is taken, nothing is done and the instruction stays issued for the next lc (R204). -/
def thAccess (p op : Nat) (f : Nat → Ins → State → State) (s : State) : State :=
  let s0 := clearMarks p s
  let s1 := thRun p op f s0
  if (coreAt s1 p).job.wait then s0 else s1

/-- THLDS (R119, R204). -/
def execThlds (p : Nat) (ev : List HwEvent) (s : State) : Host.Outcome State Fault Refusal :=
  guarded (okCore p) "core" (thAccess p 0x0D fun t i s =>
    let r := exRead ev p (iSel i 2) (offsetOf s p i 2 0) 8 s
    setThReg p t (thRd i) 6 (BitVec.ofNat 64 (leNat r.1)) r.2) s
/-- THSTS (R119, R204). -/
def execThsts (p : Nat) (s : State) : Host.Outcome State Fault Refusal :=
  guarded (okCore p) "core" (thAccess p 0x0E fun t i s =>
    exWrite [] p (iSel i 2) (offsetOf s p i 2 0) (leBytes 8 (thReg s p t (thRs1 i)).toNat) s) s
/-- THBASE (R119). -/
def execThbase (p : Nat) (s : State) : Host.Outcome State Fault Refusal :=
  guarded (okCore p) "core" (thRun p 0x0F fun t i s =>
    updTh p t (fun y => { y with base := modAt (iUmod i % 4) (fun b => b + thReg s p t (thRs1 i)) y.base }) s) s
/-- THEXIT (R119). -/
def execThexit (p : Nat) (s : State) : Host.Outcome State Fault Refusal :=
  guarded (okCore p) "core" (thRun p 0x10 fun t _ s => updTh p t (fun y => { y with live := false }) s) s

/-! ### Modes and the core reset -/

/-- Every thread of a core starts at word 0 of the store (notes/assumptions/18.md). -/
def startThreads (x : Thr) : Thr := { x with thr := List.replicate 8 { live := true }, last := 7, issued := none }

/-- Nothing of a threaded core's work is left (R67). -/
def thrIdle (c : Core) : Bool :=
  c.th.thr.all (fun t => !t.live) && c.q.all (fun u => u.2.isEmpty) && (List.range 56).all (fun o => decide (objAt c o = 0))
    && c.fe.mtags.isEmpty && c.fe.ftags.isEmpty

/-- The core is in threaded mode, out of broadcast service until a new load takes it in (R67). -/
def intoThreaded (c : Core) : Core :=
  { c with mode := .threaded, modeNext := none, stale := true, th := if c.th.loaded then startThreads c.th else c.th }

/-- CORE_MODE_CHANGE (R67): taken at once, kept for its boundary, or refused. -/
def modeChange (p : Nat) (m : CoreMode) (s : State) : State :=
  let c := coreAt s p
  let refused := noteStat (corePage p) 0x2C 1 1 s
  match c.mode, m with
  | .halt, .threaded => if c.th.loaded then setCore p (intoThreaded c) s else refused
  | .halt, .broadcast => if c.lidx ≠ 0xFF ∧ ¬ c.fenced then setCore p { c with modeNext := some .broadcast } s else refused
  | .broadcast, .threaded =>
    if ¬ s.clk.run then setCore p (intoThreaded c) s
    else if c.fenced then setCore p { c with modeNext := some .threaded } s else refused
  | .threaded, .broadcast =>
    if ¬ c.fenced ∧ c.lidx ≠ 0xFF ∧ ¬ c.stale ∧ thrIdle c then setCore p { c with modeNext := some .broadcast } s else refused
  | _, _ => refused

/-- CORE_MODE_CHANGE (R67): by the controller of the core's die, once it is up (R62). -/
def execCoreModeChange (p : Nat) (m : CoreMode) (s : State) : Host.Outcome State Fault Refusal :=
  guarded (okCore p) "core" (byCtl (coreDie p) (.mode p m) (modeChange p m)) s

/-- What a core reset leaves of an endpoint: closed, with the source it was bound to, whose cells still draw the closed reply (R69, R273). -/
def resetEp (e : Ep) : Ep := { was := if e.bnd then some (e.peerMod, e.peerCore, e.peerEp) else e.was, fseq := e.fseq, rseq := e.rseq }

/-- A core stops for its reset: what it still had to do is dropped, what is outstanding completes with its data discarded (R69). -/
def haltCore (c : Core) : Core :=
  { c with
    q := [], busy := [], started := [], came := [], sigs := [], adds := [], takes := [], job := {}
    bsn := { c.bsn with dep := c.bsn.dep.filter (fun d => decide (d.cls = 3)), up := c.bsn.up.filter (fun d => decide (d.cls = 3)) }
    th := { c.th with thr := List.replicate 8 {}, last := 7, issued := none } }

/-- A core reset (R69): what it clears, what it keeps. -/
def resetCore (c : Core) : Core :=
  { haltCore c with
    mode := .halt, modeNext := none, rst := none, obj := []
    fe := { c.fe with ctx := [], mtags := [], ftags := [], ov := [], groups := [], remote := [] }
    bsn := { c.bsn with dep := [], up := [] }
    mx := {}
    pu := { c.pu with fifo := [], acc := [], run := none }
    vx := { c.vx with tile := [], mask := [], mcnt := [], slotDue := [], lenDue := [] }
    ch := { c.ch with ep := c.ch.ep.map fun e => (e.1, resetEp e.2), sbuf := [], roleAt := [], flips := [], tree := [] } }

/-- No memory or fabric tag is outstanding. -/
def tagsFree (c : Core) : Bool := c.fe.mtags.isEmpty && c.fe.ftags.isEmpty

/-- CORE_RESET (R69): at once, or when the tags that are outstanding have completed, at the latest 100 µs on. -/
def coreReset (p : Nat) (s : State) : State :=
  let c := coreAt s p
  if tagsFree c then setCore p (resetCore c) s
  else setCore p { haltCore c with rst := some (c.rst.getD (s.clk.wall + 100 * wallUs)) } s

/-- A core reset that waits completes when nothing is outstanding any more, or its time is over (R69). -/
def resetLc (p : Nat) (s : State) : State :=
  let c := coreAt s p
  match c.rst with
  | none => s
  | some t => if tagsFree c ∨ t ≤ s.clk.wall then setCore p (resetCore c) s else s

/-- CORE_RESET (R69): by the controller of the core's die, once it is up (R62). -/
def execCoreReset (p : Nat) (s : State) : Host.Outcome State Fault Refusal :=
  guarded (okCore p) "core" (byCtl (coreDie p) (.reset p) (coreReset p)) s

/-- The store's image is part of the firmware that runs, or of a helper set whose digest it lists (R66). -/
def storeListed (s : State) (store : List W256) : Bool :=
  Config.imageListed (fwSlot s s.pwr.bootSlot) (shake256 (storeBytes store))

/-- A request for threaded work is answered. -/
def answerWork (p : Nat) (store : List W256) (code : Byte) (s : State) : State :=
  match s.ctl.reqs.find? fun r => decide (r.2 = .threadedWork p store) with
  | none => s
  | some r => svcReply r.1 [code] { s with ctl := { s.ctl with reqs := s.ctl.reqs.erase r } }

/-- The local store is written through the trusted path; a threaded core runs it (R66). -/
def loadStore (p : Nat) (store : List W256) (s : State) : State :=
  let words := store.take 2048
  updCore p (fun c =>
    let st := (List.range words.length).foldl (fun m k => mset 0 k (words.getD k 0) m) []
    let th := { c.th with store := st, loaded := true }
    { c with th := if c.mode = .threaded then startThreads th else th }) s

/-- THREADED_WORK_LOAD (R66): an image that the firmware holds or lists is loaded and its digest measured; another is not. -/
def workLoad (p : Nat) (store : List W256) (s : State) : State :=
  if storeListed s store then answerWork p store 0 (measure 2 (shake256 (storeBytes store)) (loadStore p store s))
  else answerWork p store 1 s

/-- THREADED_WORK_LOAD (R66): by the controller of the core's die, once it is up (R62). -/
def execThreadedWorkLoad (p : Nat) (store : List W256) (s : State) : Host.Outcome State Fault Refusal :=
  guarded (okCore p) "core" (byCtl (coreDie p) (.load p store) (workLoad p store)) s

/-! ### Service controllers -/

/-- WATCHDOG_KICK (R61): a controller resets the watchdog that the other keeps of it. -/
def execWatchdogKick (die : Nat) (s : State) : Host.Outcome State Fault Refusal :=
  guarded (okDie die) "die" (fun s =>
    if s.ctl.up.getD die false then { s with ctl := { s.ctl with kick := s.ctl.kick.set die s.clk.wall } } else s) s

/-- WATCHDOG_EXPIRY (R62): the other controller leads and restarts the failed one; a second expiry within 1 s of a restart stops ticks. -/
def watchdogExpiry (die : Nat) (s : State) : State :=
  if ¬ s.ctl.up.getD die false ∨ s.clk.wall < s.ctl.kick.getD die 0 + 10000 * wallUs then s
  else
    let s1 := { s with ctl := { s.ctl with leader := 1 - die, up := s.ctl.up.set die false }, pwr := { s.pwr with cause := 4 } }
    match s.ctl.restart.getD die none with
    | some t => if s.clk.wall ≤ t + 1000000 * wallUs
        then emit (.report 2) { s1 with clk := { s1.clk with stopNext := true }, pwr := { s1.pwr with lost := true } } else s1
    | none => s1

/-- WATCHDOG_EXPIRY (R62). -/
def execWatchdogExpiry (die : Nat) (s : State) : Host.Outcome State Fault Refusal :=
  guarded (okDie die) "die" (watchdogExpiry die) s

/-- The fabric's inactive bank (R300). -/
def offBank (s : State) : Nat := 1 - s.fab.sel

/-- A core leaves its fence: the fence tables follow at the next boundary (R67, R69, R306). -/
def unfenceCore (p : Nat) (s : State) : State :=
  let k := s.sec.modid * 192 + p
  updCore p (fun c => { c with fenced := false }) { s with fab := { s.fab with fcoreNext := s.fab.fcoreNext.filter (· ≠ k) } }

/-- What a request makes the controllers do (R60, R66, R239, R300, R303, R306, R411, R415, R424,
R449). -/
def mailboxAct (port : Port) (r : MbRequest) (s : State) : State :=
  match r with
  | .threadedWork p store =>
    if p < 192 ∧ storeListed s store then { s with ctl := { s.ctl with reqs := s.ctl.reqs ++ [(port, r)] } } else svcReply port [1] s
  | .setModid v => svcReply port [0] { s with sec := { s.sec with modidNext := v.toNat } }
  | .route dmod out =>
    if dmod < 65536 ∧ (out < 24 ∨ out = 30 ∨ out = 31) then
      svcReply port [0] { s with fab := { s.fab with route := mset 31 (offBank s * 65536 + dmod) out s.fab.route } }
    else svcReply port [1] s
  | .treeMask group out mask =>
    if group < 4096 ∧ out ≤ 24 then
      svcReply port [0] { s with fab := { s.fab with tree := mset 0 (offBank s * 2 ^ 17 + group * 32 + out) mask.toNat s.fab.tree } }
    else svcReply port [1] s
  | .member group idx dmod core ep =>
    if group < 4096 ∧ idx < 64 ∧ dmod < 65535 ∧ core < 192 ∧ ep < 320 then
      svcReply port [0] { s with fab := { s.fab with member := mput (offBank s * 2 ^ 18 + group * 64 + idx) (dmod, core, ep) s.fab.member } }
    else svcReply port [1] s
  | .fence dmod core on =>
    if dmod < 65535 ∧ dmod ≠ s.sec.modid ∧ (core < 192 ∨ core = 255) then
      svcReply port [0] { s with fab := { s.fab with fmarks := mput (if core = 255 then 65536 * 192 + dmod else dmod * 192 + core) on s.fab.fmarks } }
    else svcReply port [1] s
  | .switchAt tick => svcReply port [0] { s with fab := { s.fab with switch := some tick } }
  | .region i off b =>
    match regionAt s i with
    | some r => if ¬ s.clk.run ∧ (r.kind = 1 ∨ r.kind = 2) ∧ off + b.length ≤ r.size then svcReply port [0] (writeCommitted i r off b s)
      else svcReply port [1] s
    | none => svcReply port [1] s
  | .readLog => svcReply port (leBytes 4 s.sec.mlog.length ++ s.sec.mlog.flatMap fun x => leBytes 1 x.1 ++ x.2) s
  | .unfence p => if p < 192 then svcReply port [0] (unfenceCore p s) else svcReply port [1] s
  | .railTrim die mv =>
    if die < 2 ∧ mv.natAbs ≤ 15 then svcReply port [0] (setRails s.clk.fop { s with clk := { s.clk with trim := s.clk.trim.set die mv } })
    else svcReply port [1] s
  | .stream p ctx go =>
    let x := ctxAt (coreAt s p) ctx
    if p < 192 ∧ ctx < 16 ∧ x.state = 3 ∧ x.fault ≠ 1 then svcReply port [0] (if go then resumeCtx p ctx s else discardCtx p ctx s)
    else svcReply port [1] s
  | .coreRecord p bank row body =>
    if p < 192 ∧ bank < 16 ∧ row < 1024 ∧ body.length ≤ 112 then
      svcReply port [0] (updCore p (fun c => { c with bsn := { c.bsn with trust := c.bsn.trust ++
        [{ cls := 1, bank := bank, row := row, bytes := padTo 128 0 (svcRec body) }] } }) s)
    else svcReply port [1] s
  | .firmware slot =>
    if s.pwr.recovery ∧ s.pwr.stage = 0xF ∧ port = .a ∧ fwAccepts s slot then
      svcReply port [0] { s with sec := { s.sec with slot := mput (1 - s.sec.active) slot s.sec.slot } }
    else svcReply port [1] s

/-- SERVICE_MAILBOX_REQUEST (R60): the record is taken from the request ring; in recovery mode port A alone is served, and for firmware
alone (R411). -/
def mailboxRequest (port : Port) (r : MbRequest) (s : State) : State :=
  let s1 := takeRecord 256 port s
  if s.pwr.recovery then
    (match port, r with
    | .a, .firmware _ => mailboxAct port r s1
    | _, _ => s)
  else mailboxAct port r s1

/-- SERVICE_MAILBOX_REQUEST (R60): by the controller of the port's die, once it is up (R62). -/
def execServiceMailboxRequest (port : Port) (r : MbRequest) (s : State) : Host.Outcome State Fault Refusal :=
  .next (byCtl (portIdx port) (.mailbox port r) (mailboxRequest port r) s)

/-- A step that has waited for its controller is made (R62). -/
def ctlRun (x : CtlStep) (s : State) : State :=
  match x with
  | .mode p m => modeChange p m s
  | .reset p => coreReset p s
  | .load p store => workLoad p store s
  | .mailbox port r => mailboxRequest port r s
  | .repair p bank row => fieldRepair p bank row s

/-- CONTROLLER_RESTART_DONE (R62): firmware from flash that is verified afresh, the slot that ACTIVE names first (R414), brings the
controller up, and the steps that waited for it are made; while no slot verifies the controller stays down. -/
def restartDone (die : Nat) (s : State) : State :=
  if s.ctl.up.getD die true then s
  else match [s.sec.active, 1 - s.sec.active].find? fun k => fwAccepts s (fwSlot s k) with
    | none => s
    | some k =>
      let s1 := measure 1 (shake256 (fwSlot s k)) { s with ctl := { s.ctl with
        up := s.ctl.up.set die true, restart := s.ctl.restart.set die (some s.clk.wall), kick := s.ctl.kick.set die s.clk.wall
        steps := s.ctl.steps.filter fun x => decide (x.1 ≠ die) } }
      (s.ctl.steps.filter fun x => decide (x.1 = die)).foldl (fun s x => ctlRun x.2 s) s1

/-- CONTROLLER_RESTART_DONE (R62). -/
def execControllerRestartDone (die : Nat) (s : State) : Host.Outcome State Fault Refusal := guarded (okDie die) "die" (restartDone die) s

end Sys2Proof.Machine
end

