-- ==== Sys2Proof/Machine/Image.lean ====
section
/-! DEFINITION. The image container (R72 to R75), its declarations (R103, R205, R212, R236, R243, R263, R276, R336), and formulas and
patches (R92, R93). -/
namespace Sys2Proof.Machine

/-! ### Container -/

/-- A section table entry (R73). -/
structure Sect where
  ty : Nat
  attr : Nat
  inst : Nat
  res : Nat
  off : Nat
  len : Nat
  deriving DecidableEq, Repr

/-- The section table (R72, R73). -/
def sectTable (b : List Byte) : List Sect :=
  (List.range (leAt 0x36 2 b)).map fun n =>
    let o := 0x40 + 16 * n
    ⟨leAt o 2 b, leAt (o + 2) 2 b, leAt (o + 4) 2 b, leAt (o + 6) 2 b, leAt (o + 8) 4 b, leAt (o + 12) 4 b⟩

/-- A type the loader knows (R75). -/
def Sect.known (e : Sect) : Bool := decide (1 ≤ e.ty ∧ e.ty ≤ 0xC)
/-- A section that the loader skips whatever it holds (R73). -/
def Sect.info (e : Sect) : Bool := decide (0x8000 ≤ e.ty)

/-- Content of the section of a type and instance; empty where there is none. -/
def secBytes (b : List Byte) (ty inst : Nat) : List Byte :=
  match (sectTable b).find? fun e => decide (e.ty = ty ∧ e.inst = inst) with
  | some e => slice e.off e.len b
  | none => []

/-- Records of k bytes of a section, as numbers. -/
def recsOf (k : Nat) (l : List Byte) : List Nat := (chunksOf k (l.length / k) l).map leNat

/-- Words of a stream. -/
def wordsOf (l : List Byte) : List W256 := (recsOf 32 l).map (BitVec.ofNat 256)
/-- The dale streams as the compiler wrote them. -/
def rawStreams (b : List Byte) : List (List W256) := (List.range 12).map fun d => wordsOf (secBytes b 1 d)

/-- Extension words that LEN provides (R78). -/
def extWords (w : W256) : Nat := match bfield w.toNat 12 2 with | 1 => 1 | 2 => 2 | _ => 0

/-- The instructions of a stream with the index of their word 0 (R77). -/
def splitIns : Nat → Nat → List W256 → List (Nat × Ins)
  | 0, _, _ => []
  | fuel + 1, n, l => match l with
    | [] => []
    | w :: t =>
      let k := extWords w
      (n, ⟨w, if 1 ≤ k then t.getD 0 0 else 0, if 2 ≤ k then t.getD 1 0 else 0⟩) :: splitIns fuel (n + 1 + k) (t.drop k)
/-- The instructions of a stream. -/
def insOf (l : List W256) : List (Nat × Ins) := splitIns l.length 0 l

/-- SHAKE256 over the image with DIGEST read as zero (R72). -/
def imgDigest (b : List Byte) : List Byte := shake256 (b.take 8 ++ List.replicate 32 0 ++ b.drop 40)
/-- The DIGEST field. -/
def digestField (b : List Byte) : List Byte := slice 8 32 b

/-! ### Declarations -/

/-- Stream declarations (R243). -/
def strmOf (n : Nat) : StreamD := ⟨bfield n 0 4, bfield n 4 8, bfield n 12 6, bfield n 18 14, bfield n 32 6, bfield n 38 4⟩
def strmsOf (b : List Byte) : List StreamD := (recsOf 16 (secBytes b 5 0)).map strmOf

/-- Region declarations (R236). -/
def regionOfRec (n : Nat) : RegionD :=
  { kind := bfield n 0 2, die := bfield n 2 1, stk := bfield n 3 4, port := portOf (bbit n 7), size := (bfield n 8 21 + 1) * 65536
    wbase := bfield n 64 32 }
  where portOf (x : Bool) : Port := if x then .b else .a
def regionsOf (b : List Byte) : List RegionD := (recsOf 16 (secBytes b 4 0)).map regionOfRec

/-- Channel declarations (R263). -/
def chanOf (n : Nat) : ChanD :=
  { role := bfield n 0 2, land := bfield n 2 3, classes := bfield n 5 3, window := bfield n 8 5, ford := bfield n 13 4
    pmod := bfield n 17 16, mrel := bbit n 33, mcount := bfield n 34 16, pbase := bfield n 50 8, pmul := bfield n 58 8
    pmodk := bfield n 66 8, pep := bfield n 74 9, group := bfield n 83 12 }
def chansOf (b : List Byte) : List ChanD := (recsOf 16 (secBytes b 6 0)).map chanOf

/-- Barrier declarations (R276). -/
def barOf (n : Nat) : BarD :=
  { bar := bfield n 0 8, sense := bbit n 8, scope := bbit n 9, dales := bfield n 10 12, pclass := bfield n 22 2, root := bfield n 24 8
    flag := bfield n 32 6, fanin := 2 ^ (bfield n 38 2 + 1), nmod := bfield n 40 16 }
def barsOf (b : List Byte) : List BarD := (recsOf 16 (secBytes b 7 0)).map barOf

/-- Hold table entries, by identifier (R103, notes/assumptions/22.md). -/
def holdOf (n : Nat) : HoldD := ⟨bfield n 0 12, bfield n 12 4, bfield n 16 32, bfield n 64 32⟩
def holdsOf (b : List Byte) : List HoldD := (recsOf 16 (secBytes b 8 0)).map holdOf

/-- Egress declarations (R336). -/
def egrOf (n : Nat) : EgrD :=
  ⟨bfield n 0 16, bfield n 16 16, bfield n 32 11, if bbit n 43 then .b else .a, bbit n 44⟩
def egrsOf (b : List Byte) : List EgrD := (recsOf 8 ((secBytes b 0xC 0).drop 8)).map egrOf
def egMaxOf (b : List Byte) : Nat := leAt 0 4 (secBytes b 0xC 0)

/-- Handle entries and fords (R205, R212). -/
def nHnd (b : List Byte) : Nat := leAt 0 2 (secBytes b 3 0)
def nFord (b : List Byte) : Nat := leAt 2 2 (secBytes b 3 0)
def hndsOf (b : List Byte) : List W64 := (recsOf 8 (slice 16 (8 * nHnd b) (secBytes b 3 0))).map (BitVec.ofNat 64)
def fordsOf (b : List Byte) : List (BitVec 128) := (recsOf 16 (((secBytes b 3 0)).drop (16 + 8 * nHnd b))).map (BitVec.ofNat 128)

/-- Lane counts of the plans, by stack of the module (R232). -/
def lanesOfImg (b : List Byte) : List Nat := (List.range 8).map fun st => leAt (5 + st % 4) 1 (secBytes b 2 (st / 4))

/-- Dales with a refill stream (R77, R243). -/
def refillOf (b : List Byte) (d : Nat) : Bool := (strmsOf b).any fun x => decide (x.kind = 6 ∧ x.dale = d)

/-! ### Version and section structure (codes 0x01 and 0x02) -/

/-- Format major 4 and no unknown critical section (R75). -/
def versionOk (b : List Byte) : Bool :=
  decide (leAt 2 2 b = 4) && (sectTable b).all fun e => !bbit e.attr 0 || e.known || e.info

/-- Places and reserved fields of the section table (R73). -/
def tableOk (b : List Byte) : Bool :=
  let t := sectTable b
  let first := 0x40 + 16 * t.length
  decide (first ≤ b.length)
    && t.all (fun e => decide (e.off % 64 = 0 ∧ first ≤ e.off ∧ e.off + e.len ≤ b.length ∧ e.res = 0 ∧ e.attr < 2))
    && (List.range t.length).all fun i => (List.range i).all fun j =>
      match t[i]?, t[j]? with
      | some x, some y => decide (x.off + x.len ≤ y.off ∨ y.off + y.len ≤ x.off)
      | _, _ => true

/-- Sections of a type and instance. -/
def countSect (b : List Byte) (ty inst : Nat) : Nat := ((sectTable b).filter fun e => decide (e.ty = ty ∧ e.inst = inst)).length

/-- Required and single sections (R73, R74). -/
def sectsOk (b : List Byte) : Bool :=
  (List.range 12).all (fun d => decide (countSect b 1 d = 1)) && decide (countSect b 2 0 = 1) && decide (countSect b 2 1 = 1)
    && ([3, 4, 5, 6, 7, 8, 9, 10, 11, 12].all fun ty => decide (countSect b ty 0 ≤ 1))
    && (sectTable b).all fun e => !e.known || decide (e.inst < (if e.ty = 1 then 12 else if e.ty = 2 then 2 else 1))

/-- A section's LENGTH fits its layout (R92, R93, R205, R232, R236, R243, R263, R276, R336): 0x02 for every section, also those that R96 does
not list there (DESIGN CHOICE, notes/assumptions/65.md). -/
def lenFits (b : List Byte) (e : Sect) : Bool :=
  let c := slice e.off e.len b
  match e.ty with
  | 1 => decide (e.len % 32 = 0)
  | 2 => decide (32 ≤ e.len ∧ leAt 2 2 c = 1 ∧ leAt 4 1 c = e.inst)
  | 3 => decide (16 ≤ e.len ∧ e.len = 16 + 8 * leAt 0 2 c + 16 * leAt 2 2 c)
  | 4 | 5 | 6 | 7 | 8 => decide (e.len % 16 = 0)
  | 9 => decide (e.len % 20 = 0)
  | 10 => decide (e.len % 12 = 0)
  | 12 => decide (8 ≤ e.len ∧ e.len = 8 + 8 * leAt 4 2 c)
  | _ => true

/-- A stream holds an `SQEND`, and when resident its last instruction ends inside it (R74). -/
def streamOk (b : List Byte) (d : Nat) : Bool :=
  let l := wordsOf (secBytes b 1 d)
  let is := insOf l
  is.any (fun x => decide (iUnit x.2 = 0 ∧ iOp x.2 = 3))
    && (refillOf b d || decide (32768 < l.length) || match is.getLast? with
      | some x => decide (x.1 + 1 + extWords x.2.w0 ≤ l.length)
      | none => false)

/-- The structure of R73 and R74. -/
def structOk (b : List Byte) : Bool :=
  tableOk b && sectsOk b && (sectTable b).all (fun e => !e.known || lenFits b e) && (List.range 12).all (streamOk b)

/-! ### Formulas and patches (code 0x05) -/

/-- Value of a formula entry of 20 bytes at K; none where it is in error (R92). -/
def formulaVal (k : Nat) (e : List Byte) : Option Int :=
  let p := sext 32 (leAt 0 4 e)
  let q := sext 32 (leAt 4 4 e)
  let r := sext 16 (leAt 8 2 e)
  let s := sext 16 (leAt 10 2 e)
  let t := sext 32 (leAt 12 4 e)
  let num := p + q * k
  let den := r + s * k
  if den ≤ 0 ∨ leAt 0x11 3 e ≠ 0 then none
  else match leAt 0x10 1 e with
    | 0 => some (num / den + t)
    | 1 => some (-((-num) / den) + t)
    | 2 => if num % den = 0 then some (num / den + t) else none
    | _ => none

/-- All formula values, where none is in error. -/
def formulas (b : List Byte) (k : Nat) : Option (List Int) :=
  let c := secBytes b 9 0
  (chunksOf 20 (c.length / 20) c).mapM (formulaVal k)

/-- Lowest bit (from word 0 on), width and sign of a patch field (R93). -/
def patchField (fc : Nat) : Option (Nat × Nat × Bool) :=
  if fc = 0 then some (80, 16, false)
  else if fc ≤ 5 then some (256 + 16 * (fc - 1), 16, false)
  else if fc ≤ 23 then some (256 + 80 + 24 * (fc - 6), 24, true)
  else if fc = 24 then some (221, 24, true)
  else if fc ≤ 27 then some (104 + 40 * (fc - 25), 32, false)
  else none

/-- The words of one instruction with a field replaced. -/
def putField (ws : List W256) (lo w v : Nat) : List W256 :=
  let n := (ws.reverse).foldl (fun a x => a * 2 ^ 256 + x.toNat) 0
  (List.range ws.length).map fun j => BitVec.ofNat 256 (bput n lo w v >>> (256 * j))

/-- One patch of 12 bytes applied to the streams; none where it is in error (R93). -/
def applyPatch (vals : List Int) (e : List Byte) (st : List (List W256)) : Option (List (List W256)) :=
  let d := leAt 0 1 e
  let n := leAt 1 3 e
  let fc := leAt 4 2 e
  match patchField fc, vals[leAt 6 2 e]?, (insOf (st.getD d [])).find? fun x => decide (x.1 = n) with
  | some (lo, w, signed), some v, some x =>
    let k := 1 + extWords x.2.w0
    let u := if fc ≤ 5 then v - 1 else v
    let fits := if signed then decide (-(2 ^ (w - 1) : Int) ≤ u ∧ u < 2 ^ (w - 1)) else decide (0 ≤ u ∧ u < 2 ^ w)
    if 12 ≤ d ∨ leAt 8 4 e ≠ 0 ∨ !fits ∨ 256 * k < lo + w then none
    else
      let l := st.getD d []
      some (st.set d (l.take n ++ putField (slice n k l) lo w (wrapN w u) ++ l.drop (n + k)))
  | _, _, _ => none

/-- All patches applied in table order; no two name one field (R93). -/
def applyPatches (vals : List Int) : List (List Byte) → List (List W256) → Option (List (List W256))
  | [], st => some st
  | e :: t, st =>
    if t.any fun f => decide (f.take 6 = e.take 6) then none
    else match applyPatch vals e st with
      | some st1 => applyPatches vals t st1
      | none => none

/-- The streams patched for K, with the formula values (R94 step 3). -/
def patched (b : List Byte) (k : Nat) : Option (List (List W256) × List Int) :=
  match formulas b k with
  | none => none
  | some vals =>
    let c := secBytes b 10 0
    match applyPatches vals (chunksOf 12 (c.length / 12) c) (rawStreams b) with
    | some st => some (st, vals)
    | none => none

end Sys2Proof.Machine
end

