-- ==== Sys2Proof/Machine/Check.lean ====
section
/-! DEFINITION. The loader's checks of single instructions and of declarations (R53, R56, R58, R64, R78 to R85, R97, R98 and the rules of
single opcodes): each gives the refusal codes of R96 that it finds. -/
namespace Sys2Proof.Machine

/-- A code where a check fails. -/
def codeIf (bad : Bool) (c : Nat) : List Nat := if bad then [c] else []

/-! ### Opcode table -/

/-- What the opcode tables say of an opcode (R97): words allowed, operand classes of A, B and C, stages (3 stands for ITER), defined
UMOD bits. Operand classes: 0 none, 1 basin, 2 memory, 3 tile, 4 mask, 5 operand port, 6 matrix side port, 7 endpoint, 8 immediate, 9
overflow region, 10 elastic-checked handle, 11 region in a die's HBM. -/
structure OpSpec where
  lens : List Nat
  a : List Nat
  b : List Nat
  c : List Nat
  stages : List Nat
  umod : Nat
  deriving DecidableEq, Repr

/-- Sequencer opcodes. -/
def sqSpec : Nat → Option OpSpec
  | 0x00 | 0x03 => some ⟨[1], [0], [0], [0], [], 0⟩
  | 0x01 | 0x02 => some ⟨[1], [8], [0], [0], [], 0⟩
  | _ => none

/-- Fetch engine opcodes. `FEFABWR` keeps R106's UMOD[8:4], which its single rows do not use, among the defined bits (DESIGN CHOICE,
notes/assumptions/65.md); a load or store of HBM names no overflow region (R235). -/
def feSpec : Nat → Option OpSpec
  | 0x01 => some ⟨[1, 2, 3], [11], [1], [0], [0, 1, 2, 3], 0xF⟩
  | 0x02 => some ⟨[1, 2, 3], [1], [11], [0], [0, 1, 2, 3], 0xF⟩
  | 0x03 => some ⟨[1], [2], [1], [8], [0, 2], 0xF⟩
  | 0x04 => some ⟨[1], [2], [1], [0], [0, 2], 0xF⟩
  | 0x05 => some ⟨[1], [0], [0], [0], [0, 2], 0xF⟩
  | 0x08 => some ⟨[1, 2, 3], [7], [10], [8], [0, 1], 0x1F0⟩
  | 0x09 => some ⟨[1, 2, 3], [1], [7], [8], [0, 1], 0x7F0⟩
  | 0x0A => some ⟨[1, 2, 3], [9], [10], [0], [0, 1], 0x1F0⟩
  | 0x0B => some ⟨[1, 2, 3], [1], [9], [0], [0, 1, 2, 3], 0xF⟩
  | 0x0C => some ⟨[1, 2, 3], [0], [1], [8], [0, 1, 2, 3], 0xF⟩
  | 0x0D => some ⟨[1, 2, 3], [1], [0], [8], [0, 1, 2], 0xF⟩
  | _ => none

/-- Matrix side and post unit opcodes. -/
def mxSpec : Nat → Option OpSpec
  | 0x01 => some ⟨[2, 3], [1, 6], [0], [0], [0, 1, 2], 0x1F⟩
  | 0x02 => some ⟨[1, 2, 3], [1, 6], [0], [0], [0, 1, 2, 3], 0x3F⟩
  | 0x03 => some ⟨[1, 2], [1, 6], [0], [0], [0, 1, 2], 0x1F⟩
  | _ => none
def puSpec : Nat → Option OpSpec
  | 0x01 => some ⟨[1, 2, 3], [0], [8], [0], [0, 1, 2, 3], 1⟩
  | 0x02 => some ⟨[1, 2, 3], [3], [0, 1], [0], [0, 1, 2, 3], 7⟩
  | 0x03 => some ⟨[1], [1], [0], [0], [0, 2], 0⟩
  | 0x04 => some ⟨[1], [0], [0], [0], [0, 2], 0⟩
  | 0x05 => some ⟨[1, 2, 3], [3], [3], [0, 1], [0, 1, 2, 3], 3⟩
  | _ => none

/-- Vector engine opcodes. -/
def vxSpec (op : Nat) : Option OpSpec :=
  let m := fun (a b c : List Nat) (u : Nat) => some (⟨[1, 2, 3], a, b, c, [0, 1, 2, 3], u⟩ : OpSpec)
  match op with
  | 0x01 => m [1] [3, 5] [0] 3
  | 0x02 => m [3] [1] [0] 3
  | 0x03 => some ⟨[1], [1], [8], [0], [0, 2], 1⟩
  | 0x04 => m [3, 5] [3, 5, 8] [3] 0x1FF
  | 0x05 => m [3] [8] [3] 0x7FF
  | 0x06 => m [3] [4] [3] 0
  | 0x07 => m [3] [4] [3] 3
  | 0x08 => m [3] [3] [3] 0x7F
  | 0x09 => m [3] [3] [3] 3
  | 0x0A => m [3] [8] [3] 3
  | 0x0B => m [3] [0] [3] 0x3F
  | 0x0C => m [3] [0] [3] 0x7F
  | 0x0D => m [3] [3, 5] [3] 0
  | 0x0E => m [3] [3] [3] 7
  | 0x0F => m [3] [3] [8] 0x7FF
  | 0x10 => some ⟨[1, 2, 3], [8], [8], [3], [0, 2, 3], 0x7FF⟩
  | 0x11 => m [3, 4] [0, 3, 4] [4] 7
  | _ => none

/-- Channel unit opcodes. -/
def chSpec : Nat → Option OpSpec
  | 0x01 => some ⟨[1], [7], [8], [8], [0], 0⟩
  | 0x02 => some ⟨[1], [7], [0], [0], [0, 2], 0⟩
  | 0x03 => some ⟨[1, 2, 3], [1, 3], [7], [0], [0, 1], 3⟩
  | 0x04 => some ⟨[1], [7], [8], [0], [0], 0⟩
  | 0x05 => some ⟨[1, 2, 3], [1, 3], [8], [0], [0, 1], 3⟩
  | 0x06 => some ⟨[1], [8], [0], [0], [0], 0⟩
  | 0x07 => some ⟨[1], [0], [0], [0], [0, 2], 0⟩
  | 0x10 | 0x12 => some ⟨[1], [0], [0], [1, 3], [0, 2], 0⟩
  | 0x11 => some ⟨[1, 2], [0], [0], [1, 3], [0, 2], 0⟩
  | 0x13 => some ⟨[1], [8], [0], [1, 3], [0, 2], 0⟩
  | _ => none

/-- Threaded control opcodes, which a broadcast stream may not hold (R64, R119). -/
def thSpec (op : Nat) : Option OpSpec :=
  if op = 0 ∨ 0x10 < op then none
  else some ⟨[1], [8], [0, 8], if op = 0x0D ∨ op = 0x0E then [1] else [0], [0, 2], if op = 0x08 ∨ op = 0x0A then 1 else if op = 0x0F then 3 else 0⟩

/-- The table of a unit. -/
def opSpec (i : Ins) : Option OpSpec :=
  match iUnit i with
  | 0 => sqSpec (iOp i)
  | 1 => feSpec (iOp i)
  | 2 => mxSpec (iOp i)
  | 3 => puSpec (iOp i)
  | 4 => vxSpec (iOp i)
  | 5 => chSpec (iOp i)
  | 6 => thSpec (iOp i)
  | _ => none

/-! ### One instruction -/

/-- What the instruction checks read of the image. -/
structure ImgDecls where
  hnds : List W64
  regions : List RegionD
  strms : List StreamD

/-- Class of an operand as the tables name it; 99 for a reserved selector (R79). -/
def operandClass (i : Ins) (j : Nat) : Nat :=
  match iKind i j with
  | 0 => 0
  | 1 => 1
  | 2 => 2
  | _ =>
    let s := iSel i j
    if s < 4 then 3 else if s = 4 then 4 else if s = 5 ∨ s = 6 then 5 else if s = 7 then 6 else if s = 16 then 7
    else if s = 32 then 8 else 99

/-- An operand is of a class the opcode allows, and its OFFSET has no bit where the object has none (R79, R98). -/
def operandOk (d : ImgDecls) (i : Ins) (j : Nat) (allowed : List Nat) : Bool :=
  let k := operandClass i j
  let ovr := match d.regions[iSel i j]? with | some r => decide (r.kind = 3) | none => false
  let elastic := match d.hnds[iSel i j]? with | some w => decide ((hndOf w).kind = 2) | none => false
  (allowed.contains k || (decide (k = 2) && (if ovr then allowed.contains 9 else allowed.contains 11)) || (decide (k = 1) && allowed.contains 10 && elastic))
    && (match k with | 5 | 6 => decide (iOff i j = 0) | 7 => decide (iOff i j < 512) | _ => true)

/-- A flag of an elastic sink (R246). -/
def sinkFlag (d : ImgDecls) (o : Nat) : Bool := d.strms.any fun x => decide (x.kind = 7 ∧ x.cred = o)

/-- Levels that LEN provides (R85). -/
def levelsOf (i : Ins) : Nat := match iLen i with | 0 => 1 | 1 => 2 | _ => 6

/-- A wait field: 0x06 for a reserved object, 0x07 for values outside R80 and for a sink flag (R246). -/
def waitCodes (d : ImgDecls) (w : Nat × Nat) : List Nat :=
  codeIf (decide (56 ≤ w.1 ∧ w.1 ≤ 62)) 0x06
    ++ codeIf ((decide (w.1 = 63 ∧ w.2 ≠ 0)) || (decide (w.1 < 56 ∧ w.2 = 0)) || sinkFlag d w.1) 0x07

/-- A signal field (R80, R82, R83, R98). -/
def sigCodes (sp : OpSpec) (i : Ins) (g : Nat × Nat × Nat) : List Nat :=
  let st := g.2.2
  let offered := if st < 3 then sp.stages.contains st
    else sp.stages.contains 3 && decide (48 ≤ g.1) && decide (st - 8 < levelsOf i)
  codeIf (decide (56 ≤ g.1 ∧ g.1 ≤ 62) || decide (3 ≤ st ∧ st ≤ 7) || decide (14 ≤ st)) 0x06
    ++ codeIf (if g.1 = 63 then decide (g.2.1 ≠ 0 ∨ st ≠ 0) else decide (g.1 < 56) && (decide (g.2.1 = 0) || !offered)) 0x07

/-- Waits and signals of an instruction; a sequencer instruction carries none and has PCLASS 0 (R83): 0x07, which R96 gives to breaches of
R80 to R83, for its PCLASS too (DESIGN CHOICE, notes/assumptions/65.md). -/
def fieldCodes (d : ImgDecls) (sp : OpSpec) (i : Ins) : List Nat :=
  waitCodes d (iWait i 0) ++ waitCodes d (iWait i 1) ++ sigCodes sp i (iSig i 0) ++ sigCodes sp i (iSig i 1)
    ++ codeIf (decide (iUnit i = 0) && (decide (iClass i ≠ 0) || [(iWait i 0).1, (iWait i 1).1, (iSig i 0).1, (iSig i 1).1].any fun o => decide (o ≠ 63))) 0x07

/-- Fields of a two-word instruction beyond its levels are 0; an immediate has no stride, but that the constant term of `VXSRACC` and
`VXRAND` is added to no operand (R79, R85, R146). -/
def strideCodes (i : Ins) : List Nat :=
  let draws := decide (iUnit i = 4 ∧ (iOp i = 0x0F ∨ iOp i = 0x10))
  codeIf (decide (iLen i = 1) && (decide (bfield i.w1.toNat 16 64 ≠ 0) || decide (bfield i.w1.toNat 224 32 ≠ 0))) 0x0A
    ++ codeIf ((List.range 3).any fun j => decide (operandClass i j = 8)
        && ((List.range 6).any (fun l => decide (iStride i l j ≠ 0))
          || (!draws && decide (iCsel i ≠ 0 ∧ iCtgt i = j ∧ iCstride i ≠ 0)))) 0x0A

/-- A conversion that `VXCVT` makes (R133, R114). -/
def cvtPairOk (s t : Nat) : Bool :=
  let block := fun n => decide (8 ≤ n ∧ n ≤ 13)
  decide (s < 20 ∧ t < 20 ∧ s ≠ t) && !(block s && block t)
    && (!(decide (s = 13 ∨ s = 18)) || decide (t ≤ 2))
    && !(decide (s = 14) && (block t || decide (t = 18 ∨ t = 19)))
    && (decide (t ≠ 13) || decide (s = 0))

/-- The rules of `VXCVT` (R114, R135, R182 to R184). -/
def cvtCodes (i : Ins) : List Nat :=
  let s := iUmod i % 32
  let t := iUmod i / 32 % 32
  let n := iSteps i
  let rows := bbit (iUmod i) 10
  let mx := fun x => decide (8 ≤ x ∧ x ≤ 12)
  codeIf (!cvtPairOk s t || decide (8 ≤ iOff i 1) || (decide (t = 13) && !bbit (iOff i 1) 2)) 0x06
    ++ codeIf ((mx t && rows && !([64, 128, 192, 256].contains n)) || (mx s && rows && !([32, 64, 96, 128].contains n))
        || (decide (s = 18 ∨ t = 18) && decide (n % 5 ≠ 0))
        || (decide (t = 13) && decide (iLen i ≠ 0 ∨ iCount i 0 ≠ 511 ∨ (iSel i 0 ≠ 0 ∧ iSel i 0 ≠ 2) ∨ iSel i 2 ≠ 3 - iSel i 0))
        || (decide (s = 13) && decide (iLen i ≠ 0 ∨ iCount i 0 ≠ 255 ∨ iOff i 0 ≠ 0))) 0x0A

/-- Weight formats of the array (R149). -/
def weightFmt (w : Nat) : Bool := (List.range 20).any fun a => pairOk w a
/-- Activation formats of the array (R149). -/
def actFmt (a : Nat) : Bool := (List.range 20).any fun w => pairOk w a

/-- The rules of single opcodes (R106, R108, R116, R146, R149, R153, R164, R175, R190 to R192, R197). -/
def opcodeCodes (i : Ins) : List Nat :=
  let um := iUmod i
  let n := iSteps i
  let b := iOff i 1
  match iUnit i, iOp i with
  | 1, 0x09 => codeIf (decide (um / 512 % 4 = 3)) 0x06
  | 1, 0x0C => codeIf (decide (1 < iOff i 2)) 0x06
  | 2, 0x01 => codeIf (!weightFmt (um % 32) || (isMX (um % 32) && decide (iKind i 0 ≠ 1))) 0x06 ++ codeIf (decide (n ≠ 128)) 0x0A
  | 2, 0x02 => codeIf (!actFmt (um / 2 % 32)) 0x06
  | 2, 0x03 => codeIf (decide (um % 32 ≠ 13)) 0x06 ++ codeIf (decide (64 < n)) 0x0A
  | 3, 0x02 => codeIf (decide (um % 4 ≠ 0 ∧ iKind i 1 = 0)) 0x06 ++ codeIf ((List.range 6).any fun l => decide (iStride i l 1 ≠ 0)) 0x0A
  | 3, 0x05 => codeIf (decide (um % 4 ≠ 0 ∧ iKind i 2 = 0)) 0x06
  | 4, 0x03 => codeIf (decide (3 < b)) 0x06 ++ codeIf (decide ((if um % 2 = 1 then 1 else 8) < n)) 0x0A
  | 4, 0x05 => cvtCodes i
  | 4, 0x0A => codeIf (decide (5 < b % 16 ∨ 2048 ≤ b ∨ (b % 16 = 4 ∧ 6 < b / 16))) 0x06
  | 4, 0x0B | 4, 0x0C => codeIf (decide (um % 8 = 7 ∨ um / 8 % 8 = 7 ∨ um % 8 ≤ um / 8 % 8)) 0x06
  | 4, 0x0F => codeIf (decide (2 ^ 24 ≤ iOff i 2)) 0x06
  | 4, 0x10 => codeIf (decide (3 < b % 16 ∨ b / 16 % 16 ≠ 0 ∨ 2 ^ 24 ≤ iOff i 0)) 0x06
  | 4, 0x11 =>
    let o := um % 8
    codeIf (decide (operandClass i 0 ≠ (if o = 4 ∨ o = 5 then 3 else 4))
      || (if o < 4 then decide (operandClass i 1 ≠ 4) else if o < 7 then decide (operandClass i 1 ≠ 0) else decide (operandClass i 1 = 3))) 0x06
  | 5, 0x03 | 5, 0x05 => codeIf (decide (um % 4 = 3)) 0x06
  | _, _ => []

/-- Everything the loader checks of one instruction by itself (R94 step 4). -/
def insCodes (d : ImgDecls) (i : Ins) : List Nat :=
  codeIf (decide (iUnit i = 6)) 0x09 ++ match opSpec i with
    | none => [0x06]
    | some sp =>
      codeIf (decide (iLen i = 3 ∨ iClass i = 3 ∨ 6 ≤ iCsel i ∨ iCtgt i = 3)
          || decide (iUmod i &&& (0x7FF - sp.umod) ≠ 0)
          || !operandOk d i 0 sp.a || !operandOk d i 1 sp.b || !operandOk d i 2 sp.c) 0x06
        ++ fieldCodes d sp i
        ++ codeIf ((decide (iUnit i = 2) || decide (iUnit i = 3 ∧ (iOp i = 1 ∨ iOp i = 2))) && decide (iClass i ≠ 1)) 0x08
        ++ codeIf (decide (iLen i ≠ 3) && !sp.lens.contains (iLen i + 1)) 0x0A
        ++ strideCodes i ++ opcodeCodes i

/-! ### Declarations -/

/-- Reserved codes and fields of the header (R72). -/
def headerCodes (b : List Byte) : List Nat :=
  let flags := leAt 4 4 b
  let slot := leAt 0x2B 1 b
  codeIf (decide (2 ≤ flags ∨ leAt 0x38 8 b ≠ 0 ∨ slot = 0 ∨ 3 < slot ∨ (flags % 2 = 0 ∧ leAt 0x34 2 b ≠ 0))) 0x06

/-- Reserved codes and bits of a declared handle entry, in use or not, and what its KIND rules out in one that is (R205, R221). -/
def handleReserved (w : W64) : Bool :=
  let h := hndOf w
  decide (h.kind = 3 ∨ 4 < bfield w.toNat 38 3 ∨ bfield w.toNat 59 5 ≠ 0)
    || h.valid && decide ((h.kind ≠ 1 ∧ (h.rowB ≠ 0 ∨ h.phase)) ∨ (h.kind ≠ 2 ∧ h.slot ≠ 1))

/-- A handle in use lies in its banks, and the two places of a carried one are apart (R206). -/
def handlePlaced (w : W64) : Bool :=
  let h := hndOf w
  let n := cdiv h.len h.width
  !h.valid || decide (h.bank0 + h.width ≤ 16 ∧ h.row + n ≤ 1024
    ∧ (h.kind = 1 → h.rowB + n ≤ 1024 ∧ (h.rowB + n ≤ h.row ∨ h.row + n ≤ h.rowB)))

/-- Handle entries (R205, R206, R221). -/
def handleCodes (b : List Byte) : List Nat :=
  let l := hndsOf b
  let slots := (l.filter fun w => (hndOf w).valid && decide ((hndOf w).kind = 2)).foldl (fun n w => n + cdiv (hndOf w).len (hndOf w).slot) 0
  codeIf (decide (leAt 4 12 (secBytes b 3 0) ≠ 0) || l.any handleReserved) 0x06 ++ codeIf (!l.all handlePlaced) 0x0B
    ++ codeIf (decide (64 < nHnd b ∨ 1024 < slots)) 0x10

/-- Ford records (R212). -/
def fordCodes (b : List Byte) : List Nat :=
  (fordsOf b).flatMap (fun w =>
    let n := w.toNat
    let inside := match (hndsOf b)[bfield n 0 6]? with
      | some x => (hndOf x).valid && (hndOf x).ford && decide (bfield n 8 16 + bfield n 24 16 + 1 ≤ 4 * (hndOf x).len)
      | none => false
    codeIf (decide (4 < bfield n 112 4 ∨ bfield n 116 12 ≠ 0)) 0x06 ++ codeIf (!inside) 0x0B)
    ++ codeIf (decide (16 < nFord b)) 0x10

/-- Reserved codes and fields of the remaining declarations (R103, R232, R236, R243, R263, R276, R336). -/
def declCodes (b : List Byte) : List Nat :=
  let bad := fun (k ty : Nat) (f : Nat → Bool) => codeIf ((recsOf k (secBytes b ty 0)).any f) 0x06
  bad 16 4 (fun n => decide (bfield n 29 35 ≠ 0 ∨ bfield n 96 32 ≠ 0 ∨ (bfield n 0 2 = 3) = (bfield n 3 4 ≠ 0)))
    ++ bad 16 5 (fun n => decide (8 ≤ bfield n 0 4 ∨ (48 ≤ bfield n 32 6 ∧ bfield n 32 6 ≤ 62) ∨ bfield n 42 86 ≠ 0))
    ++ bad 16 6 (fun n => decide (bfield n 0 2 = 3 ∨ 5 ≤ bfield n 2 3 ∨ bfield n 95 33 ≠ 0))
    ++ bad 16 7 (fun n => decide (bfield n 22 2 = 3 ∨ bfield n 56 72 ≠ 0))
    ++ bad 16 8 (fun n => decide (bfield n 48 16 ≠ 0 ∨ bfield n 96 32 ≠ 0))
    ++ codeIf (decide (leAt 6 2 (secBytes b 0xC 0) ≠ 0)) 0x06
    ++ codeIf ((recsOf 8 ((secBytes b 0xC 0).drop 8)).any fun n => decide (bfield n 45 19 ≠ 0)) 0x06
    ++ codeIf ((List.range 2).any fun die => decide (leAt 0x10 16 (secBytes b 2 die) ≠ 0)) 0x06
    ++ codeIf ((lanesOfImg b).any fun l => decide (l ≠ 31 ∧ l ≠ 32)) 0x06

/-- A plan's header counts what its list holds (R232): 0x06 for no plan stream, 0x02 for another count (DESIGN CHOICE,
notes/assumptions/65.md). -/
def planCodes (b : List Byte) (beats : List (List Beat)) : List Nat :=
  (List.range 2).flatMap fun die =>
    let c := secBytes b 2 die
    let l := beats.getD die []
    codeIf (decide (leAt 9 1 c = 0)) 0x06
      ++ codeIf (decide (leAt 0xC 4 c ≠ l.length) || l.any (fun x => decide (leAt 0xA 2 c ≤ x.seg))
        || decide (leAt 9 1 c < (l.map (·.stream)).eraseDups.length)) 0x02

/-- Numbers of declarations (R235, R243, R263, R276) and the largest egress (R336). -/
def countCodes (b : List Byte) : List Nat :=
  codeIf (decide (64 < (regionsOf b).length ∨ 256 < (strmsOf b).length ∨ 1024 < (chansOf b).length ∨ 256 < (barsOf b).length
    ∨ 67108864 < egMaxOf b)) 0x10

end Sys2Proof.Machine
end

