-- ==== Sys2Proof/Machine/Walk.lean ====
section
/-! DEFINITION. The loader's walks of the dale streams (R88, R91, R102, R107, R109, R113, R149) and of every core's offsets and plan
beats (R87, R94 step 5, R173, R182, R233, R237, R239, R242). -/
namespace Sys2Proof.Machine

/-! ### Issue order -/

/-- One issued instruction: word index, instruction, its lc without the lc at holds, segment, lc from the segment's start. -/
structure WIns where
  idx : Nat
  ins : Ins
  lc : Nat
  seg : Nat
  slc : Nat
  deriving DecidableEq, Repr

/-- A walk of one stream in issue order (R47, R102). -/
structure Walk where
  pc : Nat := 0
  lc : Nat := 0
  words : Nat := 0
  units : List Nat := []
  next : Nat := 0
  seg : Nat := 0
  seg0 : Nat := 0
  reps : List Rep := []
  /-- Instructions issued, newest first. -/
  out : List WIns := []
  /-- A block breaks R102. -/
  bad : Bool := false
  done : Bool := false
  deriving DecidableEq, Repr

/-- A block that ends at `pc` repeats or is left (R102). -/
def walkBlocks (w : Walk) : Walk :=
  let e := blockEnd w.pc w.reps
  { w with pc := e.1, reps := e.2, next := if e.1 = w.pc then w.next else max w.next (w.lc + 1) }

/-- The block that an `SQREP` opens is allowed (R102). -/
def blockOk (ws : List W256) (w : Walk) (start n : Nat) : Bool :=
  let stop := start + n
  decide (1 ≤ n ∧ n ≤ 4096 ∧ w.reps.length < 4 ∧ stop ≤ ws.length)
    && (match w.reps with | r :: _ => decide (stop ≤ r.stop) | [] => true)
    && (decide (stop = ws.length) || (insOf ws).any fun x => decide (x.1 = stop))

/-- One instruction issues; the lc of an `SQHOLD` is one of its hold's, and the next instruction's takes its place (R89, R91). -/
def walkStep (ws : List W256) (w : Walk) : Walk :=
  match ws[w.pc]? with
  | none => { w with done := true }
  | some x =>
    let k := extWords x
    let i : Ins := ⟨x, if 1 ≤ k then ws.getD (w.pc + 1) 0 else 0, if 2 ≤ k then ws.getD (w.pc + 2) 0 else 0⟩
    let u := iUnit i
    let w1 := if w.lc < w.next then { w with lc := w.next, words := 0, units := [] } else w
    let w2 := if 4 < w1.words + 1 + k ∨ (u ≠ 0 ∧ w1.units.contains u) then { w1 with lc := w1.lc + 1, words := 0, units := [] } else w1
    let w3 := { w2 with
      words := w2.words + 1 + k, units := if u = 0 then w2.units else w2.units ++ [u], pc := w2.pc + 1 + k
      out := ⟨w2.pc, i, w2.lc, w2.seg, w2.lc - w2.seg0⟩ :: w2.out }
    let w4 :=
      if u ≠ 0 then w3
      else match iOp i with
        | 0 => { w3 with next := w3.lc + iCount i 0 + 2 }
        | 1 =>
          if blockOk ws w3 w3.pc (iOff i 0) then { w3 with reps := ⟨w3.pc, w3.pc + iOff i 0, iCount i 0⟩ :: w3.reps }
          else { w3 with bad := true, done := true }
        | 2 => { w3 with bad := w3.bad || !w3.reps.isEmpty, words := 0, units := [], next := w3.lc, seg := w3.seg + 1, seg0 := w3.lc }
        | 3 => { w3 with bad := w3.bad || !w3.reps.isEmpty, done := true }
        | _ => w3
    if u = 0 ∧ iOp i = 1 then w4 else walkBlocks w4

/-- Walks on until the stream ends; `fuel` bounds the instructions issued. -/
def walkOn (ws : List W256) : Nat → Walk → Walk
  | 0, w => w
  | fuel + 1, w => if w.done then w else walkOn ws fuel (walkStep ws w)

/-- The walk of a stream: a body of more instructions than 4 in each of 2^32 lc breaks R91 whatever B is. -/
def walkOf (ws : List W256) : Walk := walkOn ws (2 ^ 34) {}
/-- The instructions in issue order. -/
def Walk.list (w : Walk) : List WIns := w.out.reverse

/-- An instruction of a unit and opcode. -/
def isOp (i : Ins) (u op : Nat) : Bool := decide (iUnit i = u ∧ iOp i = op)

/-- Hold identifiers in issue order (R88). -/
def holdIds (l : List WIns) : List Nat := (l.filter fun x => isOp x.ins 0 2).map fun x => iOff x.ins 0

/-- PARAM fits COND (R103); a FLAG hold on n = 0 tests nothing and does not fit (DESIGN CHOICE, notes/assumptions/65.md). -/
def paramOk (catchup : Bool) (h : HoldD) : Bool :=
  match h.cond with
  | 0 => decide (h.param = 0)
  | 1 => decide (h.param = 0) || (catchup && decide (h.param = 1))
  | 2 => decide (h.param < 4)
  | 3 => decide (h.param < 2 ^ 14 ∧ h.param % 64 < 56 ∧ 1 ≤ h.param / 64)
  | 4 => decide (h.param < 256)
  | _ => false

/-- The hold table against the streams (R88, R103). -/
def holdCodes (catchup : Bool) (holds : List HoldD) (walks : List (List WIns)) : List Nat :=
  let ids := walks.map holdIds
  let used := (List.range holds.length).all fun n => match holds[n]? with
    | some h =>
      let cnt := fun d => ((ids.getD d []).filter fun x => decide (x = n)).length
      decide (h.cond ≤ 4) && paramOk catchup h && (List.range 12).all fun d => decide (cnt d = b2n (bbit h.dales d))
    | none => true
  let named := ids.all fun l => l.all fun x => decide (x < 64 ∧ x < holds.length)
  let order := (List.range 12).all fun a => (List.range 12).all fun c =>
    let x := ids.getD a []
    let y := ids.getD c []
    decide (x.filter y.contains = y.filter x.contains)
  codeIf (!used || !named || !order || decide (64 < holds.length)) 0x0E

/-- An `FEBATCH` follows a BATCH hold for the same batch (R107). -/
def batchOk (holds : List HoldD) : List Nat → List WIns → Bool
  | _, [] => true
  | seen, x :: t =>
    if isOp x.ins 0 2 then
      match holds[iOff x.ins 0]? with
      | some h => batchOk holds (if h.cond = 1 then h.param % 2 :: seen else seen) t
      | none => batchOk holds seen t
    else if isOp x.ins 1 0x0C then seen.contains (iOff x.ins 2) && batchOk holds seen t
    else batchOk holds seen t

/-- Each `MXRUN` meets an active tile whose format its activations go with (R149): shadow, active. -/
def pairsOk : Option Nat → Option Nat → List WIns → Bool
  | _, _, [] => true
  | shd, act, x :: t =>
    if isOp x.ins 2 1 then pairsOk (some (iUmod x.ins % 32)) act t
    else if isOp x.ins 2 2 then
      let a := if iUmod x.ins % 2 = 1 then shd else act
      let b := if iUmod x.ins % 2 = 1 then act else shd
      (match a with | some w => pairOk w (iUmod x.ins / 2 % 32) | none => false) && pairsOk b a t
    else pairsOk shd act t

/-! ### Dependencies -/

/-- What a signal of an instruction adds to its object (R82), before the instruction is done where `early`: an iteration's signal fires once
per iteration, the last time with the last result. -/
def sigAdds (i : Ins) (early : Bool) (g : Nat × Nat × Nat) : Nat :=
  if g.2.2 < 8 then (if early ∧ g.2.2 = 2 then 0 else g.2.1)
  else g.2.1 * (iSteps i / max 1 (iInner i (g.2.2 - 8)) - b2n early)

/-- Objects that something besides the signals of the dale's own stream adds to (R244, R246, R258): credit and sink flags, root flags,
completion objects, objects that `CHSIG` names. -/
def freeObjs (strms : List StreamD) (bars : List BarD) (l : List Ins) : List Nat :=
  strms.map (·.cred) ++ bars.map (·.flag)
    ++ l.flatMap fun i => if isOp i 5 1 then [iOff i 2 % 64] else if isOp i 5 4 then [iOff i 1 % 64] else []

/-- A run of a dale's instructions by their dependencies alone, without time: places that have started, what each object holds, and what it has
been given in all. -/
structure DepRun where
  went : List Nat := []
  obj : SMap Nat := []
  got : SMap Nat := []
  deriving DecidableEq, Repr

/-- The waits of an instruction are met; on an object that others add to, each is (R50). -/
def DepRun.meets (free : List Nat) (r : DepRun) (i : Ins) : Bool :=
  [(iWait i 0).1, (iWait i 1).1].all fun o => decide (56 ≤ o ∨ waitOn i o ≤ mget 0 r.obj o) || free.contains o

/-- The instruction at place n starts: it takes what it waits for and gives its signals, but for those that come with its end where `early`. -/
def DepRun.start (early : Bool) (n : Nat) (i : Ins) (r : DepRun) : DepRun :=
  let taken := [(iWait i 0), (iWait i 1)].foldl (fun m w => mset 0 w.1 (mget 0 m w.1 - w.2) m) r.obj
  [iSig i 0, iSig i 1].foldl (fun r g =>
    let k := sigAdds i early g
    { r with obj := mset 0 g.1 (mget 0 r.obj g.1 + k) r.obj, got := mset 0 g.1 (mget 0 r.got g.1 + k) r.got })
    { r with went := n :: r.went, obj := taken }

/-- Segments that the holds let issue: a FLAG hold does once its object has been given n in all (R88, R103). -/
def DepRun.opened (free : List Nat) (met : List HoldD) (r : DepRun) : Nat :=
  (met.takeWhile fun h => decide (h.cond ≠ 3 ∨ h.param / 64 ≤ mget 0 r.got (h.param % 64)) || free.contains (h.param % 64)).length

/-- A unit's queue gives up its instructions in order while they can start (R50). -/
def depQueue (free : List Nat) (a segs : Nat) : List (WIns × Nat) → DepRun → List (WIns × Nat) × DepRun
  | [], r => ([], r)
  | x :: t, r =>
    if x.1.seg ≤ segs ∧ r.meets free x.1.ins then depQueue free a segs t (r.start (x.2 = a) x.2 x.1.ins) else (x :: t, r)

/-- The queues run until nothing more can start; `fuel` bounds the passes over them. -/
def depRun (free : List Nat) (met : List HoldD) (a : Nat) : Nat → List (List (WIns × Nat)) → DepRun → DepRun
  | 0, _, r => r
  | fuel + 1, qs, r =>
    let z := qs.foldl (fun (acc : List (List (WIns × Nat)) × DepRun) q =>
      let y := depQueue free a (r.opened free met) q acc.2
      (acc.1 ++ [y.1], y.2)) ([], r)
    if z.2.went.length = r.went.length then r else depRun free met a fuel z.1 z.2

/-- The dependencies order the end of the load at place a before the start of the instruction at place n: where the load is never done, that
instruction never starts (R109, R113; DEDUCED, notes/assumptions/12.md). -/
def ordered (free : List Nat) (holds : List HoldD) (l : List WIns) (a n : Nat) : Bool :=
  let met := (holdIds l).map fun id => holds.getD id ⟨0, 0, 0, 0⟩
  let qs := (List.range 5).map fun u => l.zipIdx.filter fun x => decide (iUnit x.1.ins = u + 1)
  !(depRun free met a (l.length + 1) qs {}).went.contains n

/-- The first place after a whose instruction is such a one. -/
def firstUse (use : Ins → Bool) (l : List WIns) (a : Nat) : Option Nat :=
  (List.range l.length).find? fun n => decide (a < n) && (match l[n]? with | some x => use x.ins | none => false)

/-- Each tile or side-data load is ordered before the next swap (R109). -/
def swapsOk (free : List Nat) (holds : List HoldD) (l : List WIns) : Bool :=
  (List.range l.length).all fun a => match l[a]? with
    | some x => !(isOp x.ins 2 1 || isOp x.ins 2 3) ||
        (match firstUse (fun i => isOp i 2 2 && decide (iUmod i % 2 = 1)) l a with | some n => ordered free holds l a n | none => true)
    | none => true

/-- An ALU instruction of the vector engine. -/
def isAlu (i : Ins) : Bool := decide (iUnit i = 4 ∧ 3 ≤ iOp i)

/-- Earliest start of the ALU instruction at place n: from its queue entry on, and once earlier ones have left the ALU (R48, R100). -/
def aluEarliest (l : List WIns) (n : Nat) : Nat :=
  ((l.take (n + 1)).filter fun x => isAlu x.ins).foldl (fun (r : Nat × Nat) x =>
    let s := max (x.lc + 21) r.2
    (s, s + iSteps x.ins * (if iOp x.ins = 0x0E then 4 else 1))) (0, 0) |>.1

/-- Latest start of the vector instruction at place n, while no instruction of its queue up to it waits (R48, R100); programs take at most 40
lc a step (R113). -/
def vxLatest (l : List WIns) (n : Nat) : Option Nat :=
  let q := (l.take (n + 1)).filter fun x => decide (iUnit x.ins = 4)
  if q.any fun x => decide ((iWait x.ins 0).1 ≠ 63 ∨ (iWait x.ins 1).1 ≠ 63) then none
  else some (q.foldl (fun (r : Nat × SMap Nat) x =>
    let res := (resOf x.ins).headD 0
    let s := max (x.lc + 21) (max (r.1 + 1) (mget 0 r.2 res))
    (s, mset 0 res (s + iSteps x.ins * (if iOp x.ins = 4 then 40 else 4)) r.2)) (0, []) |>.1)

/-- The time of issue alone lets the `VXEPL` at place a be done when the `VXEP` at place n starts (R113). -/
def slotInTime (l : List WIns) (a n : Nat) : Bool :=
  match vxLatest l a, l[a]? with
  | some t, some x => decide (t + iSteps x.ins + 9 ≤ aluEarliest l n)
  | _, _ => false

/-- Least lc that instructions of the ALU between two places hold it (R97, R100): one lc a step. -/
def aluLc (l : List WIns) (a n : Nat) : Nat :=
  ((l.take n).drop (a + 1)).foldl (fun s x => if isAlu x.ins then s + iSteps x.ins else s) 0

/-- Each program load is done before the next `VXEP` of its slot starts: by a dependency, by the ALU's own time, or by the time of issue
(R113). -/
def slotsOk (free : List Nat) (holds : List HoldD) (l : List WIns) : Bool :=
  (List.range l.length).all fun a => match l[a]? with
    | some x => !(isOp x.ins 4 3 && decide (iUmod x.ins % 2 = 0)) ||
        (match firstUse (fun i => isOp i 4 4 && decide (iUmod i % 4 = iOff x.ins 1 % 4)) l a with
        | some n => decide (9 ≤ aluLc l a n) || slotInTime l a n || ordered free holds l a n
        | none => true)
    | none => true

/-! ### Offsets on one core -/

/-- Constants of a core of the load (R53). -/
structure LCore where
  p : Nat
  lidx : Nat
  k : Nat
  mod : Nat
  deriving DecidableEq, Repr

/-- Value of a constant selector (R53). -/
def LCore.const (c : LCore) (sel : Nat) : Int :=
  match sel with
  | 1 => c.lidx
  | 2 => c.k
  | 3 => (daleOf c.p : Nat)
  | 4 => (dieOf c.p : Nat)
  | 5 => c.mod
  | _ => 0

/-- The core participates under a class (R56). -/
def LCore.part (c : LCore) (cls : Nat) : Bool :=
  match cls with
  | 0 => true
  | 1 => decide (c.lidx < c.k)
  | 2 => decide (c.k ≤ c.lidx)
  | _ => false

/-- OFFSET with the constant term (R86), which `VXSRACC` and `VXRAND` add to no operand (R146). -/
def baseOff (c : LCore) (i : Ins) (j : Nat) : Int :=
  let draws := isOp i 4 0x0F || isOp i 4 0x10
  if draws = false ∧ iCsel i ≠ 0 ∧ iCtgt i = j then iOff i j + c.const (iCsel i) * iCstride i else iOff i j
/-- The exact offset of operand j at step k (R94 step 5). -/
def exactOff (c : LCore) (i : Ins) (j k : Nat) : Int :=
  (List.range 6).foldl (fun (a : Int) l => a + iIndex i k l * iStride i l j) (baseOff c i j)
/-- Least and greatest exact offset over all steps. -/
def offRange (c : LCore) (i : Ins) (j : Nat) : Int × Int :=
  (List.range 6).foldl (fun (r : Int × Int) l =>
    let x := iCount i l * iStride i l j
    (r.1 + min 0 x, r.2 + max 0 x)) (baseOff c i j, baseOff c i j)

/-- Least and greatest offset that `VXCVT` uses: with blocks across rows an encoding uses those of its first half (R182). -/
def usedRange (c : LCore) (i : Ins) (j : Nat) : Int × Int :=
  if isOp i 4 5 ∧ 8 ≤ iUmod i / 32 % 32 ∧ iUmod i / 32 % 32 ≤ 12 ∧ bbit (iUmod i) 10 ∧ iSteps i ≤ 256 then
    (List.range (iSteps i / 2)).foldl (fun (r : Int × Int) k => (min r.1 (exactOff c i j k), max r.2 (exactOff c i j k)))
      (exactOff c i j 0, exactOff c i j 0)
  else offRange c i j

/-- Bytes that a step of the instruction reaches from its operand's offset on, in a handle, region or tile; 1 where it makes no access
there. -/
def accBytes (i : Ins) (j : Nat) : Nat :=
  let um := iUmod i
  let rows := 128 * (um / 16 % 32 + 1)
  let vrows := 128 * (um % 4 + 1)
  match iUnit i, iOp i with
  | 1, 0x03 | 1, 0x04 => 1
  | 1, 0x08 | 1, 0x0A => rows
  | 1, _ => 128
  | 2, 0x02 => if um / 2 % 32 = 1 ∨ um / 2 % 32 = 2 then 256 else 128
  | 2, _ => 128
  | 3, 0x02 => if j = 0 then 512 else if um % 4 = 0 then 1 else 1024
  | 3, 0x03 => 32
  | 3, 0x05 => if j < 2 then 512 else if um % 4 = 0 then 1 else 1024
  | 4, 0x01 | 4, 0x02 => vrows
  | 4, 0x03 => 128
  | 4, 0x05 =>
    let f := if j = 0 then um % 32 else um / 32 % 32
    if um % 32 = 13 ∨ um % 32 = 18 ∨ um / 32 % 32 = 13 ∨ um / 32 % 32 = 18 then 1 else 16 * fmtBits f
  | 4, 0x08 => if j = 0 then 512 else if j = 1 then 8 else 1024
  | 4, 0x09 => if j = 1 then 512 else 128 * 2 ^ (um % 4)
  | 4, 0x0A => 128 * 2 ^ (um % 4)
  | 4, 0x0B => 16 * [1, 2, 4, 6, 8, 16, 32].getD (if j = 0 then um % 8 else um / 8 % 8) 1
  | 4, 0x0C => 16 * [1, 2, 4, 6, 8, 16, 32].getD (if j = 0 then um / 8 % 8 else um % 8) 1
  | 4, 0x0E => if j = 1 then 512 else 1024
  | 4, _ => 512
  | 5, 0x10 | 5, 0x13 => 16
  | 5, 0x11 => 32
  | 5, 0x12 => 128
  | 5, _ => 48
  | _, _ => 1

/-- The whole mask row is read or written (R173). -/
def wholeMask (i : Ins) (j : Nat) : Bool :=
  decide (iUnit i = 4 ∧ operandClass i j = 4 ∧ (iOp i = 6 ∨ iOp i = 7 ∨ iOp i = 0x11))

/-- Offsets [lo, hi] of operand j, with n bytes at each, lie inside its object (R87, R173, R182). -/
def insideObj (d : ImgDecls) (i : Ins) (j : Nat) (lo hi : Int) : Bool :=
  let n := accBytes i j
  match operandClass i j with
  | 1 => (match d.hnds[iSel i j]? with
    | some w => (hndOf w).valid && decide (0 ≤ lo ∧ hi + n ≤ 128 * (hndOf w).len)
    | none => false)
  | 2 => (match d.regions[iSel i j]? with
    | some r => decide (0 ≤ lo ∧ 32 * hi + n ≤ r.size)
    | none => false)
  | 3 =>
    let f := if j = 0 then iUmod i % 32 else iUmod i / 32 % 32
    decide (0 ≤ lo ∧ hi + n ≤ (if isOp i 4 5 ∧ 8 ≤ f ∧ f ≤ 12 then 0xC000 else 0x10000))
  | 4 => decide (0 ≤ lo ∧ hi < 16384)
  | 7 => decide (0 ≤ lo ∧ hi < 320)
  | _ => true

/-- Every step presents a multiple of `m`. -/
def allMultiple (m : Nat) (base : Int) (i : Ins) (j : Nat) : Bool :=
  decide (base % m = 0) && (List.range 6).all fun l => decide (iCount i l = 0 ∨ iStride i l j % m = 0)

/-- A planned instruction of a stream context (R99). -/
def isPlanned (i : Ins) : Bool := decide (iUnit i = 1) && [1, 2, 0x0B, 0x0C, 0x0D].contains (iOp i)

/-- Exact offsets leave the 48-bit range (R94 step 5). -/
def leaves48 (r : Int × Int) : Bool := decide (r.1 < -(2 ^ 47) ∨ 2 ^ 47 ≤ r.2)

/-- The offsets of an instruction on a participating core are in bounds; operands of a planned one are checked with their bases. -/
def offsetsOk (d : ImgDecls) (c : LCore) (i : Ins) : Bool :=
  !c.part (iClass i) || (List.range 3).all fun j =>
    let r := usedRange c i j
    !leaves48 (offRange c i j)
      && ((isPlanned i && decide (operandClass i j = 1 ∨ operandClass i j = 2)) || insideObj d i j r.1 r.2)
      && (!wholeMask i j || allMultiple 128 (baseOff c i j) i j)

/-! ### Streams on one core -/

/-- A bound context in the loader's walk (R242). -/
structure LCtx where
  plan : Nat
  selA : Nat
  selB : Nat
  baseA : Int
  baseB : Int
  deriving DecidableEq, Repr

/-- The fetch engine of one core in the loader's walk: contexts, beats used of each plan stream, a breach found. -/
structure LFe where
  ctx : SMap LCtx := []
  cur : SMap Nat := []
  bad : Bool := false
  deriving DecidableEq, Repr

/-- Stack and lane of a row of a region under the plan's lane counts (R237). -/
def laneOf (lanes : List Nat) (r : RegionD) (row : Nat) : Nat × Nat :=
  let st := setStacks r.stk
  let stack := 4 * r.die + st.getD (row % st.length) 0
  (stack, row / st.length % max 1 (lanes.getD stack 32))

/-- One step of a planned instruction against its beat (R48, R87, R233, R237): no beat lies before the instruction's earliest start. -/
def plannedStep (lanes : List Nat) (r : Option RegionD) (off : Int) (x : WIns) (b : Option Beat) : Bool :=
  match b with
  | none => false
  | some b => decide (b.seg = x.seg ∧ x.slc + 21 ≤ b.lc) &&
    (match r with
    | some r => decide (off % 4 = 0) && decide (r.kind = 3 ∨ laneOf lanes r (off.toNat / 4) = (b.stack, b.lane))
    | none => true)

/-- A planned instruction on its context (R87, R233, R237, R239, R242). -/
def plannedIns (d : ImgDecls) (lanes : List Nat) (beats : List Beat) (c : LCore) (x : WIns) (f : LFe) : LFe :=
  match f.ctx.find? fun e => decide (e.1 = iUmod x.ins % 16) with
  | none => { f with bad := true }
  | some (_, t) =>
    let i := x.ins
    let n := iSteps i
    let bs := (beats.filter fun b => decide (b.stream = t.plan ∧ b.pos = c.p % 96)).drop (mget 0 f.cur t.plan)
    let inR := (List.range 3).all fun j =>
      let r := offRange c i j
      match operandClass i j with
      | 1 => decide (iSel i j = t.selB) && insideObj d i j (r.1 + t.baseB) (r.2 + t.baseB)
      | 2 => decide (iSel i j = t.selA) && insideObj d i j (r.1 + t.baseA) (r.2 + t.baseA)
      | _ => true
    let j := if operandClass i 0 = 2 then 0 else 1
    let reg := if operandClass i j = 2 then d.regions[iSel i j]? else none
    let steps := (List.range n).all fun k => plannedStep lanes reg (exactOff c i j k + t.baseA) x bs[k]?
    let commits := decide (iOp i = 2) && (match reg with | some r => decide (r.kind = 2) | none => false)
    { f with
      cur := mput t.plan (mget 0 f.cur t.plan + n) f.cur
      bad := f.bad || (c.part (iClass i) && (!inR || commits || decide (bs.length < n) || !steps)) }

/-- One fetch engine instruction in queue order on one core. -/
def feWalk (d : ImgDecls) (lanes : List Nat) (beats : List Beat) (c : LCore) (f : LFe) (x : WIns) : LFe :=
  let i := x.ins
  let n := iUmod i % 16
  if iUnit i ≠ 1 then f
  else if isPlanned i then plannedIns d lanes beats c x f
  else match iOp i with
    | 3 => (match d.strms[iOff i 2]? with
      | some s => { f with ctx := mput n ⟨s.plan, iSel i 0, iSel i 1, baseOff c i 0, baseOff c i 1⟩ f.ctx }
      | none => { f with bad := true })
    | 4 => (match f.ctx.find? fun e => decide (e.1 = n) with
      | some (_, t) => { f with ctx := mput n { t with
        baseA := t.baseA + iSteps i * baseOff c i 0, baseB := t.baseB + iSteps i * baseOff c i 1 } f.ctx }
      | none => f)
    | 5 => { f with ctx := mdel n f.ctx }
    | _ => f

/-- Bytes that a core's `FEOVWR` steps stage for a port (R251). -/
def stagedBy (d : ImgDecls) (port : Port) (c : LCore) (l : List WIns) : Nat :=
  l.foldl (fun n x =>
    if isOp x.ins 1 0x0B && c.part (iClass x.ins)
        && (match d.regions[iSel x.ins 1]? with | some r => decide (r.port = port) | none => false)
    then n + 128 * iSteps x.ins else n) 0

end Sys2Proof.Machine
end

