-- ==== Sys2Proof/Machine/Loader.lean ====
section
/-! DEFINITION. The Ifezen loader (R94 to R96): the refusal code of an image, the place of its regions in HBM (R236, R241), and what a
task load writes (R9, R53, R76, R205 to R207, R415, R420, R422). -/
namespace Sys2Proof.Machine

/-! ### K and logical indices -/

/-- Unfenced cores with and without an array, in ascending order (R4, R5). -/
def freeCores (s : State) (arr : Bool) : List Nat := (List.range 192).filter fun p => !(coreAt s p).fenced && (hasArray s p == arr)
/-- K (R4). -/
def kOf (s : State) : Nat := (freeCores s true).length
/-- The cores of a load with their logical indices (R9). -/
def loadCores (s : State) (mod : Nat) : List LCore :=
  let l := freeCores s true ++ freeCores s false
  (List.range l.length).map fun n => ⟨l.getD n 0, n, kOf s, mod⟩

/-! ### HBM space -/

/-- 2^30 bytes. -/
def gb : Nat := 2 ^ 30
/-- Pseudo-channels fenced on the stacks of a die (R241). -/
def fencedPcs (s : State) (die : Nat) : Nat :=
  (List.range 4).foldl (fun n k => n + ((List.range 32).filter fun j => bbit (mget 0 s.hbm.pcf (4 * die + k)) j).length) 0
/-- Program capacity of a die in bytes (R241, R381). -/
def capacityOf (s : State) (die : Nat) : Nat :=
  365 * gb / 2 - (fieldAt s (cmtPage + 0x40) 0 7 - 8) * gb - fencedPcs s die * (3 * gb / 2)
/-- Bytes that a region takes (R241). -/
def RegionD.takes (r : RegionD) : Nat := if r.kind = 3 then 0 else if r.kind = 1 then 2 * r.size else r.size
/-- Bytes that regions take on a die. -/
def takenOn (die : Nat) (l : List RegionD) : Nat := l.foldl (fun n r => if r.die = die then n + r.takes else n) 0
/-- Each die holds the regions (R241). -/
def roomFor (s : State) (l : List RegionD) : Bool := [0, 1].all fun die => decide (takenOn die l ≤ capacityOf s die)

/-- Places in use on a die: first byte and length. -/
def placesOf (die : Nat) (l : List RegionD) : List (Nat × Nat) :=
  (l.filter fun r => decide (r.die = die ∧ r.kind ≠ 3)).flatMap fun r => (r.base, r.size) :: (if r.kind = 1 then [(r.baseB, r.size)] else [])
/-- A place of `n` bytes at `a` is free. -/
def placeFree (used : List (Nat × Nat)) (a n : Nat) : Bool := used.all fun u => decide (a + n ≤ u.1 ∨ u.1 + u.2 ≤ a)
/-- The lowest free place: 0 or the end of a place in use. -/
def fitPlace (used : List (Nat × Nat)) (n : Nat) : Nat :=
  let cand := (0 :: used.map fun u => u.1 + u.2).filter fun a => placeFree used a n
  cand.foldl min (cand.headD 0)
/-- A region in the lowest free places. -/
def placeRegion (used : List RegionD) (r : RegionD) : RegionD :=
  if r.kind = 3 then r
  else
    let a := fitPlace (placesOf r.die used) r.size
    if r.kind = 1 then { r with base := a, baseB := fitPlace ((a, r.size) :: placesOf r.die used) r.size } else { r with base := a }
/-- Regions placed one after the other, clear of those in use. -/
def placeAll (used : List RegionD) (l : List RegionD) : List RegionD :=
  (l.foldl (fun (acc : List RegionD × List RegionD) r =>
    let x := placeRegion acc.1 r
    (acc.1 ++ [x], acc.2 ++ [x])) (used, [])).2

/-! ### Refusal codes -/

/-- What instruction checks read of the image. -/
def declsOf (b : List Byte) : ImgDecls := ⟨hndsOf b, regionsOf b, strmsOf b⟩

/-- Resources: lanes on unfenced pseudo-channels, trained stacks, capacity, overflow staging (R228, R236, R241, R251, R410). -/
def resourceCodes (s : State) (b : List Byte) (cores : List LCore) (walks : List (List WIns)) : List Nat :=
  let lanes := lanesOfImg b
  let rs := regionsOf b
  let healthy := fun st => 32 - ((List.range 32).filter fun j => bbit (mget 0 s.hbm.pcf st) j).length
  let staged := fun port => cores.foldl (fun n c => n + stagedBy (declsOf b) port c (walks.getD (daleOf c.p) [])) 0
  codeIf ((List.range 8).any (fun st => decide (healthy st < lanes.getD st 32))
    || rs.any (fun r => decide (r.kind ≠ 3) && (setStacks r.stk).any fun k => !bbit s.hbm.trained (4 * r.die + k))
    || !roomFor s rs || [Port.a, Port.b].any fun port => decide (2 ^ 27 < staged port)) 0x10

/-- Barrier roots participate (R276). -/
def rootCodes (b : List Byte) (cores : List LCore) : List Nat :=
  codeIf (!((barsOf b).all fun d => cores.any fun c => decide (c.lidx = d.root) && bbit d.dales (daleOf c.p) && c.part d.pclass)) 0x0B

/-- The correction row's handle (R351). -/
def chndCodes (s : State) (b : List Byte) : List Nat :=
  let a := cmtPage + 0x304
  let ok := match (hndsOf b)[fieldAt s a 0 6]? with
    | some w => (hndOf w).valid && decide ((hndOf w).kind = 0 ∧ fieldAt s a 6 14 + 2 ≤ (hndOf w).len)
    | none => false
  codeIf (decide (fieldAt s (cmtPage + 0x300) 0 1 = 1) && !ok) 0x0B

/-- The bound that a certificate of a kind must keep (R95, R112, R153, R247, R269). -/
def certLimit (b : List Byte) : CertKind → Nat
  | .unitQueue => 32
  | .channel d => match (chansOf b)[d]? with | some c => min c.window 16 | none => 0
  | .postFifo => 64
  | .memTags => 256
  | .fabTags => 384
  | .sidePortOverlap => 0
/-- Capacity certificates (R95). -/
def certCodes (b : List Byte) (vals : List Int) (l : List Cert) : List Nat :=
  codeIf (l.any fun c => match (if c.isFormula then vals[c.val]? else some (c.val : Int)) with
    | some v => decide ((certLimit b c.kind : Int) < v)
    | none => true) 0x0F

/-- B and H (R22, R91): at an operating point, and against the streams. -/
def bodyCodes (s : State) (fop : Nat) (b : List Byte) (walks : List Walk) : List Nat :=
  let body := leAt 0x2C 4 b
  let hold := leAt 0x30 4 b
  let holds := holdsOf b
  codeIf (decide (7 < fop) || !validAt s body hold fop || walks.any (fun w => !w.done || decide (body < w.lc + 1))
    || walks.any fun w => decide (hold < (holdIds w.list).foldl (fun n x => n + (match holds[x]? with | some h => h.bound | none => 0)) 0)) 0x0C

/-- Sequence numbers of `FEEGR` lie in exactly one declaration (R336). -/
def egressCodes (b : List Byte) (ins : List Ins) : List Nat :=
  codeIf (ins.any fun i => isOp i 1 0x0D
    && decide (((egrsOf b).filter fun e => decide (e.lo ≤ iOff i 2 ∧ iOff i 2 ≤ e.hi)).length ≠ 1)) 0x0E

/-- All codes of an image whose streams are patched (R94 steps 4 to 6). -/
def deepCodes (s : State) (fop mod : Nat) (img : Image) (st : List (List W256)) (vals : List Int) : List Nat :=
  let b := img.bytes
  let d := declsOf b
  let walks := st.map walkOf
  let lists := walks.map Walk.list
  let ins := st.flatMap fun ws => (insOf ws).map (·.2)
  let cores := loadCores s mod
  let holds := holdsOf b
  let lanes := lanesOfImg b
  let free := freeObjs d.strms (barsOf b) ins
  headerCodes b ++ handleCodes b ++ fordCodes b ++ declCodes b ++ planCodes b img.beats ++ countCodes b ++ ins.flatMap (insCodes d)
    ++ codeIf (lists.any fun l => !pairsOk none none l) 0x06
    ++ codeIf (cores.any fun c => (insOf (st.getD (daleOf c.p) [])).any fun x => !offsetsOk d c x.2) 0x0B
    ++ codeIf (cores.any fun c =>
        ((lists.getD (daleOf c.p) []).foldl (feWalk d lanes (img.beats.getD (dieOf c.p) []) c) {}).bad) 0x0B
    ++ rootCodes b cores ++ chndCodes s b ++ bodyCodes s fop b walks
    ++ codeIf ((List.range 12).any fun n => decide (32768 < (st.getD n []).length) && !refillOf b n) 0x0D
    ++ holdCodes (bbit (leAt 4 4 b) 0) holds lists
    ++ codeIf (walks.any (·.bad) || lists.any fun l => !batchOk holds [] l || !swapsOk free holds l || !slotsOk free holds l) 0x0E
    ++ egressCodes b ins ++ certCodes b vals img.certs ++ resourceCodes s b cores lists

/-- The least code of a list, 0 for none. -/
def firstCode (l : List Nat) : Nat := l.foldl (fun m c => if m = 0 ∨ c < m then c else m) 0

/-- The loader's answer to an image at an operating point (R94 steps 1 to 6, R96): a refusal code, or 0 and the patched streams. -/
def checkImage (s : State) (fop mod : Nat) (img : Image) : Nat × List (List W256) :=
  let b := img.bytes
  let k := kOf s
  if !versionOk b then (0x01, [])
  else if !structOk b then (0x02, [])
  else if imgDigest b ≠ digestField b then (0x03, [])
  else if leAt 0x28 1 b = 0 ∨ 192 < leAt 0x29 1 b ∨ k < leAt 0x28 1 b ∨ leAt 0x29 1 b < k then (0x04, [])
  else match patched b k with
    | none => (0x05, [])
    | some (st, vals) => (firstCode (deepCodes s fop mod img st vals), st)

/-! ### What a load writes -/

/-- The image as the module keeps it, its regions placed clear of those in use. -/
def keptImage (img : Image) (st : List (List W256)) (regions : List RegionD) : Loaded :=
  let b := img.bytes
  { digest := digestField b, kmin := leAt 0x28 1 b, kmax := leAt 0x29 1 b, fop := leAt 0x2A 1 b, slot := leAt 0x2B 1 b
    body := leAt 0x2C 4 b, hold := leAt 0x30 4 b, catchup := if bbit (leAt 4 4 b) 0 then some (leAt 0x34 2 b) else none
    streams := st, refill := (List.range 12).map (refillOf b), handles := hndsOf b, fords := fordsOf b, regions := regions
    strms := strmsOf b, chans := chansOf b, bars := barsOf b, holds := holdsOf b, egrs := egrsOf b, egmax := egMaxOf b
    beats := img.beats, lanes := lanesOfImg b }

/-- A sparse map of the words of a list. -/
def mapOfWords (base : Nat) (l : List W256) : SMap W256 := (List.range l.length).filterMap fun n =>
  let w := l.getD n 0
  if w = 0 then none else some (base + n, w)

/-- A dale with its stream in instruction memory, at rest (R45). -/
def loadedDale (x : Dale) (ws : List W256) (refill : Bool) : Dale :=
  { imem := mapOfWords 0 (if refill then ws.take 32768 else ws), stream := refill, words := ws.length
    filled := if refill then min ws.length 32768 else ws.length, samples := x.samples }
/-- All dales with their streams. -/
def loadDales (im : Loaded) (s : State) : State :=
  foldN 12 (fun s d => updDale d (fun x => loadedDale x (im.streams.getD d []) (im.refill.getD d false)) s) s

/-- Handle entries as the loader writes them into a bank (R205, R207). -/
def ownedHnds (im : Loaded) (id : Nat) : List W64 := im.handles.map fun w =>
  BitVec.ofNat 64 (bput w.toNat 46 8 id)
/-- A bank of the handle table with the entries of an image; other entries become unused. -/
def writeBank (bank : Nat) (l : List W64) (b : Bsn) : Bsn := foldN 64 (fun b i => setHnd bank i (l.getD i 0) b) b

/-- Fords of an image as a core holds them (R212). -/
def fordMap (im : Loaded) : SMap (BitVec 128) := (List.range im.fords.length).map fun n => (n, im.fords.getD n 0)

/-- A physical row that handle entries of the core cover, by place of its bytes (R206, R225). -/
def coveredBy (b : Bsn) (es : List Hnd) (cell : Nat) : Bool :=
  let bank := cell / 128 / 1040
  let r := cell / 128 % 1040
  let row := if r < 1024 then r else match b.spare.find? fun x => decide (x.1 / 1024 = bank ∧ 1024 + x.2 = r) with
    | some x => x.1 % 1024
    | none => 1024
  es.any fun h => decide (h.bank0 ≤ bank ∧ bank < h.bank0 + h.width) && (h.row :: (if h.kind = 1 then [h.rowB] else [])).any fun p =>
    decide (p ≤ row ∧ (row - p) * h.width + (bank - h.bank0) < h.len)
/-- Zeroes the rows that entries cover (R225, R390). -/
def zeroRows (es : List Hnd) (b : Bsn) : Bsn := { b with mem := b.mem.filter fun c => !coveredBy b es c.1 }
/-- Valid entries of both banks of a core. -/
def validHnds (b : Bsn) : List Hnd := (b.hnd.map fun x => hndOf x.2).filter (·.valid)

/-- A core of the load: constants, handle bank 0, fords, objects at 0; it enters broadcast at the next tick (R9, R53, R67, R205, R258,
R390). -/
def loadedCore (im : Loaded) (id k mod : Nat) (l : LCore) (c : Core) : Core :=
  let hs := ownedHnds im id
  let b := zeroRows ((hs.map hndOf).filter fun h => h.valid && decide (h.kind = 1)) (writeBank 0 hs { c.bsn with hsel := 0, hswitch := none })
  { c with
    lidx := l.lidx, k := k, task := id, modIdx := mod, bsn := { b with ford := fordMap im }
    modeNext := if c.mode = .halt then some .broadcast else c.modeNext
    stale := false, obj := [], adds := [], takes := []
    mx := {}, vx := { c.vx with slot := [], slotDue := [], len := [], lenDue := [] }, vlog := [], vold := [] }

/-- All cores of the load; fenced cores hold no index (R9, R59), and every flag and counter is 0 (R258). -/
def loadCoresWith (im : Loaded) (id mod : Nat) (s : State) : State :=
  let k := kOf s
  let ls := loadCores s mod
  eachCore (fun p s => match ls.find? fun l => decide (l.p = p) with
    | some l => updCore p (loadedCore im id k mod l) s
    | none => updCore p (fun c => { c with lidx := 0xFF, k := k, task := 0, modIdx := mod, obj := [], adds := [], takes := [] }) s) s

/-- Digest of the watch table (R347). -/
def watchDigest (w : SMap (BitVec 128)) : List Byte := shake256 ((List.range 256).flatMap fun n => leBytes 16 (mget 0 w n).toNat)
/-- Measured event of a task load or reload (R415). -/
def measureLoad (im : Loaded) (k : Nat) (s : State) : State :=
  measure 3 (shake256 (im.digest ++ leBytes 1 k ++ leBytes 2 s.task.modIdx ++ shake256 (leBytes 8 s.task.seed.toNat) ++ watchDigest s.task.watch)) s

/-- The effective epoch exponent (R422): 2^k x P is at least 40 ms. -/
def effectiveK (s : State) : Nat :=
  let e := fieldAt s (secPage + 0x60) 0 5
  let p := fieldAt s (tckPage + 0x20) 0 17
  match (List.range 32).find? fun k => decide (e ≤ k ∧ 40000 ≤ 2 ^ k * p) with
  | some k => k
  | none => 31

/-- The next task identifier (R207). -/
def nextTaskId (last : Nat) : Nat := last % 255 + 1

/-- Commit state as a load leaves it: the journal and its lag stay, per-tick state starts afresh (R350, R387, R405). -/
def freshCmt (c : Cmt) : Cmt :=
  { c with
    src := 0, srcNext := 0, faults := [], run := 1, ran := false, decided := false, two := false, corr := [], sums := [], cen := []
    failing := 0, missSlots := none, missPorts := [], resumed := false, persist := false }

/-- The image takes its place on the module under a task identifier: streams, tables, constants, measurement (R94 steps 7 and 8). -/
def writeTask (im : Loaded) (img : Image) (id mod : Nat) (seed : W64) (s : State) : State :=
  let k := kOf s
  let s1 := loadDales im (loadCoresWith im id mod s)
  let s2 := { s1 with
    task := { s1.task with img := some im, src := some img, id := id, lastId := id, k := k, modIdx := mod, seed := seed
                           restart := true, cursor := [] }
    cmt := freshCmt s1.cmt
    holds := [] }
  measureLoad im k s2

/-- An accepted task load (R94, R420, R422, R424). -/
def loadTask (img : Image) (st : List (List W256)) (mod : Nat) (seed : W64) (s : State) : State :=
  let im := keptImage img st (placeAll [] (regionsOf img.bytes))
  let s1 := writeTask im img (nextTaskId s.task.lastId) mod seed s
  let s2 := { s1 with
    task := { s1.task with repro := decide (fieldAt s (secPage + 0x60) 17 1 = 1) }
    phase := {}
    pwr := { s1.pwr with lost := s1.pwr.trip }
    hbm := { s1.hbm with cur := [], wr := [], blank := [], flips := [] }
    sec := { s1.sec with head := List.replicate 32 0, elinks := 0, ehead := List.replicate 32 0, keff := effectiveK s1, genesis := true } }
  emit (.loader 0) s2

/-- The loader is served: boot is complete and no recovery mode runs (R409, R411). -/
def loaderServed (s : State) : Bool := decide (s.pwr.stage = 9)

end Sys2Proof.Machine
end

