-- ==== Sys2Proof/Machine/Power.lean ====
section
/-! DEFINITION. Terraces (R398 to R403), resets (R404 to R407), power sequencing (R408, R459, R460), boot (R409 to R411) and thermal
action (R463, R464). -/
namespace Sys2Proof.Machine

/-! ### Terrace selection -/

/-- The entry condition of T2 and T3 (R398): ticks are stopped, none are to start, no phase load is staged or armed. -/
def idleNow (s : State) : Bool := !s.clk.run && !s.clk.starting && decide (s.phase.st ≠ 1 ∧ s.phase.st ≠ 2)

/-- Keeps the wall time since which the condition has held. -/
def idleCheck (s : State) : State :=
  if idleNow s then (if s.pwr.idleAt.isSome then s else { s with pwr := { s.pwr with idleAt := some s.clk.wall } })
  else { s with pwr := { s.pwr with idleAt := none } }

/-- The smaller tolerance of the ports that are up with LTR enabled, in ns; none where no port states one (R339). -/
def toleranceNs (s : State) : Option Nat :=
  ([Port.a, Port.b].filterMap fun p => if (hpAt s p).up then (hpAt s p).tol else none).min?

/-- Shut-down time of a terrace in ns (R398). -/
def shutNs (s : State) (t : Nat) : Nat :=
  match t with
  | 0 => 0
  | 1 => 150000 + fieldAt s (tckPage + 0x20) 0 17 * 1000
  | 2 => 10000
  | _ => 1000000

/-- The T1 FOP (R23, R399): the lowest usable frequency at which the image is valid, not below the floor; none when T1 is not entered. -/
def t1Fop (s : State) : Option Nat :=
  match (List.range (fieldAt s (pwrPage + 0x20) 3 3 + 1)).reverse.find? fun f => usable s f && taskValidAt s f with
  | some f => if serviceFop s < f then some f else none
  | none => none

/-- The condition has held for IDLE_MS (R400). -/
def idleLong (s : State) : Bool :=
  match s.pwr.idleAt with
  | some t => idleNow s && decide (t + fieldAt s (pwrPage + 0x20) 16 16 * 1000 * wallUs ≤ s.clk.wall)
  | none => false

/-- A terrace may be entered now (R400). -/
def mayEnter (s : State) (t : Nat) : Bool :=
  match toleranceNs s with
  | none => false
  | some tol =>
    decide (t ≤ fieldAt s (pwrPage + 0x20) 0 3) && decide (shutNs s t + exitNs s t ≤ tol)
      && (if t = 1 then s.clk.run && s.clk.fopPend.isNone && (t1Fop s).isSome else idleLong s)

/-- The deepest terrace that may be entered, 0 for none (R400). -/
def deepest (s : State) : Nat := ([3, 2, 1].find? (mayEnter s)).getD 0

/-- TERRACE_ENTRY (R399, R400): the shut-down towards the deepest allowed terrace begins. -/
def terraceEntry (s : State) : State :=
  let t := deepest s
  if s.pwr.busy ∨ s.pwr.stage ≠ 9 ∨ t ≤ s.pwr.terrace then s
  else
    let s1 := sendLtr (shutNs s t + exitNs s t) { s with pwr := { s.pwr with target := t, busy := true, exiting := false } }
    if t = 1 then
      match t1Fop s with
      | some f => { s1 with clk := { s1.clk with fopPend := some (f, 0), fopCtl := true, pll := [false, false], svcFop := some s.clk.fop } }
      | none => s1
    else s1

/-- TERRACE_ENTRY (R400). -/
def execTerraceEntry (s : State) : Host.Outcome State Fault Refusal := .next (terraceEntry s)

/-! ### T3 (R401) -/

/-- Carried handles of a core, in both banks. -/
def carriedHnds (b : Bsn) : List Hnd := (validHnds b).filter fun h => decide (h.kind = 1)
/-- A row covered by the read place of carried handles. -/
def carriedCell (b : Bsn) (cell : Nat) : Bool :=
  coveredBy b ((carriedHnds b).map fun h => { h with row := h.place false, kind := 0 }) cell

/-- What T3 saves of a core's basin, keyed by core and byte. -/
def savedOf (p : Nat) (b : Bsn) : List Host.Cell :=
  (b.mem.filter fun x => carriedCell b x.1).map fun x => (p * 2 ^ 24 + x.1, x.2)
/-- A core and a dale without power. -/
def coreDark (c : Core) : Core := { c with bsn := { c.bsn with mem := [], hnd := [], hndC := [] } }
def daleDark (d : Dale) : Dale := { d with imem := [] }

/-- T3 takes power from the gated regions: read places of carried handles and both handle banks go to the trace area, which then reads as
empty; the rest of the basins and the instruction memories are lost. -/
def enterT3 (s : State) : State :=
  irqRaise (trcPage / 0x1000) (1 <<< 2) <| setBits (trcPage + 0x24) 2 { s with
    pwr := { s.pwr with
      saved := s.cores.flatMap (fun (c : Nat × Core) => savedOf c.1 c.2.bsn)
      savedHnd := s.cores.flatMap (fun (c : Nat × Core) => c.2.bsn.hnd.map fun x => (c.1 * 128 + x.1, x.2)) }
    trc := { s.trc with recs := [], idx := [0, 0], vis := [0, 0] }
    cores := s.cores.map (fun (c : Nat × Core) => (c.1, coreDark c.2))
    dales := s.dales.map (fun (d : Nat × Dale) => (d.1, daleDark d.2)) }

/-- The handle tables of a core as they were saved. -/
def savedBanks (s : State) (p : Nat) (b : Bsn) : Bsn :=
  s.pwr.savedHnd.foldl (fun b x => if x.1 / 128 = p then setHnd (x.1 % 128 / 64) (x.1 % 64) x.2 b else b) b

/-- Flags, counters, endpoints, barriers and units of a core as at lc 0 (R258, R264, R279, R401). -/
def coreAtRest (c : Core) : Core :=
  { c with
    q := [], busy := [], started := [], came := [], sigs := [], job := {}, obj := [], adds := [], takes := [], fe := {}, mx := {}, pu := {}, vx := {}
    ch := {}
    bsn := { c.bsn with fill := [], drain := [], sink := [], written := [], dep := [], up := [], blog := [], fords := [] } }

/-- The exit from T3: saved rows and tables return, instruction memory is refilled from the image in force. -/
def leaveT3 (s : State) : State :=
  let s1 := eachCore (fun p s => updCore p (fun c =>
    let mine := s.pwr.saved.filter fun x => decide (x.1 / 2 ^ 24 = p)
    coreAtRest { c with bsn := { savedBanks s p c.bsn with mem := mine.map fun x => (x.1 % 2 ^ 24, x.2) } }) s) s
  let s2 := match s1.task.img with | some im => loadDales im s1 | none => s1
  { s2 with pwr := { s2.pwr with saved := [], savedHnd := [] } }

/-! ### Exit (R402, R403) -/

/-- The terrace changes: `IRQ_RAW` bit 0 of the power page (R412). -/
def setTerrace (t : Nat) (s : State) : State :=
  irqRaise (pwrPage / 0x1000) 1 (sendLtr (exitNs s t) { s with pwr := { s.pwr with terrace := t, target := t, busy := false, exiting := false } })

/-- Ticks start at the first source edge from now on (R23, R402). -/
def startNow (s : State) : State := idleCheck { s with clk := { s.clk with starting := true }, pwr := { s.pwr with startPend := false } }

/-- A T1 exit is done: the module ticks at the service FOP again. -/
def t1Done (s : State) : State := setTerrace 0 { s with clk := { s.clk with svcFop := none } }

/-- The exit runs: from T1 the switch back to the service FOP waits for the next boundary while ticks run; from T2 and T3 full service
returns, and a START that waited takes effect. -/
def exitNow (s : State) : State :=
  match s.pwr.terrace with
  | 0 => s
  | 1 =>
    let f := serviceFop s
    if s.clk.run then
      { s with
        pwr := { s.pwr with target := 0, busy := true, exiting := true }
        clk := { s.clk with fopPend := some (f, 0), fopCtl := true, pll := [true, true] } }
    else t1Done { s with clk := { s.clk with fop := f, fopPend := none, fopCtl := false } }
  | t =>
    let s1 := if t = 3 then leaveT3 s else s
    let s2 := setTerrace 0 (match s1.clk.svcFop with
      | some f => { s1 with clk := { s1.clk with fop := f, svcFop := none } }
      | none => s1)
    if s2.pwr.startPend then startNow s2 else s2

/-- A trigger that T1 answers too: a tolerance below 1 tick, and WAKE (R402). -/
def triggersT1 : ExitTrigger → Bool
  | .tolerance | .wake => true
  | .start | .load | .serviceCell => false

/-- An exit trigger (R402, R403): a shut-down in progress completes first. -/
def trigger (why : ExitTrigger) (s : State) : State :=
  let at_ := if s.pwr.busy then s.pwr.target else s.pwr.terrace
  if s.pwr.exiting ∨ at_ = 0 ∨ at_ = 1 ∧ !triggersT1 why then s
  else if s.pwr.busy then { s with pwr := { s.pwr with exitPend := true } }
  else exitNow s

/-- The tolerance in force is below what the terrace needs (R402). -/
def toleranceBroken (s : State) : Bool :=
  let t := if s.pwr.busy then s.pwr.target else s.pwr.terrace
  match toleranceNs s with
  | some tol => decide (tol < exitNs s t)
  | none => decide (2 ≤ t)

/-- TERRACE_EXIT (R402). -/
def terraceExit (why : ExitTrigger) (s : State) : State :=
  match why with
  | .tolerance => if toleranceBroken s then trigger .tolerance s else s
  | w => trigger w s

/-- TERRACE_EXIT (R402). -/
def execTerraceExit (why : ExitTrigger) (s : State) : Host.Outcome State Fault Refusal := .next (terraceExit why s)

/-- PWR_WAKE (R402). -/
def execPwrWake (port : Port) (s : State) : Host.Outcome State Fault Refusal :=
  .next (woGate port (pwrPage + 0x20) true 0 (trigger .wake) s)

/-- LTR_TOLERANCE_WRITE (R339, R402). -/
def ltrWrite (port : Port) (ns : Option Nat) (s : State) : State :=
  terraceExit .tolerance (sendLtr s.pwr.lat (updHp port (fun h => { h with tol := ns }) s))

/-- LTR_TOLERANCE_WRITE (R339). -/
def execLtrToleranceWrite (port : Port) (ns : Option Nat) (s : State) : Host.Outcome State Fault Refusal := .next (ltrWrite port ns s)

/-- TERRACE_SHUTDOWN_DONE (R403): the terrace is reached; T1 only once the switch has been made. An exit that waits then runs. -/
def shutdownDone (s : State) : State :=
  if ¬ s.pwr.busy ∨ s.pwr.exiting ∨ s.pwr.target = 1 ∧ s.clk.fopPend.isSome then s
  else
    let t := s.pwr.target
    let s1 := setTerrace t (if t = 3 then enterT3 s else s)
    if s1.pwr.exitPend then exitNow { s1 with pwr := { s1.pwr with exitPend := false } } else s1

/-- TERRACE_SHUTDOWN_DONE (R403). -/
def execTerraceShutdownDone (s : State) : Host.Outcome State Fault Refusal := .next (shutdownDone s)

/-! ### TICK_START -/

/-- TICK_START (R23): refused at an operating point that is not usable, or at which the loaded image is not valid; in T2 and T3 it waits for
the exit (R402). -/
def tickStart (port : Port) (s : State) : State :=
  if s.clk.run ∨ s.clk.starting ∨ s.pwr.startPend then s
  else if !usable s s.clk.fop || !taskValidAt s s.clk.fop then refuseWrite port (tckPage + 0x2C) 1 s
  else
    let s1 := setReg (tckPage + 0x2C) 1 s
    if 2 ≤ (if s.pwr.busy then s.pwr.target else s.pwr.terrace) then trigger .start { s1 with pwr := { s1.pwr with startPend := true } }
    else startNow s1

/-- TICK_START (R23). -/
def execTickStart (port : Port) (s : State) : Host.Outcome State Fault Refusal :=
  .next (hostGate port (tckPage + 0x2C) true 0 (tickStart port) s)

/-! ### Resets and power -/

/-- What flash and fuses hold (R404): firmware slots, reservation limits, repairs, the identifier set, fused versions, grade and maps. -/
def keptSec (x : Sec) : Sec :=
  { slot := x.slot, svnFused := x.svnFused, grade := x.grade, arrays := x.arrays, fuseRows := x.fuseRows, repairs := x.repairs,
    modid := x.modidNext, modidNext := x.modidNext, lims := x.lims }

/-- The module as its rails come up: all but flash and fuses at reset; the identifier of the task held last stays with the loader (R207).
The queue, the draws and what has left are the model's own. -/
def wiped (s : State) : State :=
  { pending := s.pending, fresh := s.fresh, out := s.out, sec := keptSec s.sec, task := { lastId := s.task.lastId } }

/-- POWER_ON (R408, R459): with the input in range the rails rise, and the straps are sampled as sequencing ends. -/
def powerOn (vin slotId : Nat) (recovery : Bool) (s : State) : State :=
  if s.pwr.on then s
  else if vin < 4800 ∨ 5400 < vin then { s with pwr := { s.pwr with vin := vin } }
  else
    let w := wiped s
    { w with pwr := { w.pwr with vin := vin, slotId := slotId % 64, recovery := recovery } }

/-- POWER_ON (R408). -/
def execPowerOn (vin slotId : Nat) (recovery : Bool) (s : State) : Host.Outcome State Fault Refusal := .next (powerOn vin slotId recovery s)

/-- The rails are down: nothing is held but flash and fuses (R404, R406, R408). -/
def powerOff (vin : Nat) (s : State) : State :=
  let w := wiped s
  { w with pwr := { w.pwr with on := false, vin := vin, idleAt := none } }

/-- POWER_DOWN (R408). -/
def execPowerDown (vin : Nat) (s : State) : Host.Outcome State Fault Refusal := .next (powerOff vin s)

/-- OVERVOLTAGE_SHUTOFF (R460). -/
def execOvervoltageShutoff (vin : Nat) (s : State) : Host.Outcome State Fault Refusal :=
  .next (if 5800 < vin then powerOff vin s else s)

/-- MODULE_RESET (R404, R406, R407): everything but flash, fuses, the cause and a latched trip is cleared, and held until the release. -/
def moduleReset (both : Bool) (s : State) : State :=
  if ¬ s.pwr.on then s
  else
    let w := wiped s
    { w with
      pwr := { w.pwr with cause := if both then 3 else 2, trip := s.pwr.trip, vin := s.pwr.vin, slotId := s.pwr.slotId
                          recovery := s.pwr.recovery, inReset := true }
      host := { w.host with pa := { w.host.pa with perst := both || s.host.pa.perst }, pb := { w.host.pb with perst := both || s.host.pb.perst } } }

/-- MODULE_RESET (R404). -/
def execModuleReset (both : Bool) (s : State) : Host.Outcome State Fault Refusal := .next (moduleReset both s)

/-- MODULE_RESET_RELEASE (R459): with a PERST# deasserted the module leaves reset, and the straps are sampled. -/
def resetRelease (perstA perstB : Bool) (slotId : Nat) (recovery : Bool) (s : State) : State :=
  let s1 := updHp .b (fun h => { h with perst := perstB }) (updHp .a (fun h => { h with perst := perstA }) s)
  if ¬ s.pwr.inReset ∨ perstA ∧ perstB then s1
  else { s1 with pwr := { s1.pwr with inReset := false, slotId := slotId % 64, recovery := recovery } }

/-- MODULE_RESET_RELEASE (R459). -/
def execModuleResetRelease (perstA perstB : Bool) (slotId : Nat) (recovery : Bool) (s : State) : Host.Outcome State Fault Refusal :=
  .next (resetRelease perstA perstB slotId recovery s)

/-! ### Boot -/

/-- The slot that boot accepts (R414): the one that ACTIVE names first. -/
def bootSlotOf (f : BootFinds) (s : State) : Option Nat :=
  [s.sec.active, 1 - s.sec.active].find? fun k => f.slotOk.getD k false && decide (s.sec.svnFused ≤ leAt 4 4 (fwSlot s k))

/-- The next signature index: the larger agreeing copy of L (R417). -/
def nextIndex (l : List (Option Nat)) : Option Nat := (l.filterMap id).max?

/-- The identity key is retired (R417, R425). -/
def retireKey (s : State) : State :=
  if s.sec.dead then s
  else irqRaise (secPage / 0x1000) (1 <<< 2) { s with sec := { s.sec with dead := true } }

/-- Step 2: firmware is measured by each controller, and the index loaded (R414, R415, R417). -/
def bootFirmware (k : Nat) (s : State) : State :=
  let m := shake256 (fwSlot s k)
  let s1 := measure 1 m (measure 1 m { s with
    sec := { s.sec with fwm := m, svnRun := leAt 4 4 (fwSlot s k) }, pwr := { s.pwr with bootSlot := k } })
  match nextIndex s1.sec.lims with
  | some n => { s1 with sec := { s1.sec with next := n } }
  | none => retireKey s1

/-- A row of core p is mapped to a spare row of its bank. -/
def mapRow (p k sp : Nat) (s : State) : State := updCore p (fun c => { c with bsn := { c.bsn with spare := mput k sp c.bsn.spare } }) s

/-- Step 3: the fuse map, then the repair table, whose entries that disagree with their complements are ignored (R218, R220, R395). -/
def bootRows (s : State) : State :=
  let s1 := s.sec.fuseRows.foldl (fun s x => mapRow (x.1 % 256) (x.1 / 256 % 16 * 1024 + x.1 / 4096) x.2 s) s
  s1.sec.repairs.foldl (fun s e => match repairOf e with | some x => mapRow x.1 x.2.1 x.2.2 s | none => s) s1

/-- Step 6: cores that fail self-test are fenced (R410). -/
def bootBist (l : List Nat) (s : State) : State :=
  let bad := (List.range 192).filter fun p => l.contains p
  let s1 := bad.foldl (fun s p => updCore p (fun c => { c with fenced := true }) s) s
  let keys := bad.map fun p => s.sec.modid * 192 + p
  { s1 with
    pwr := { s1.pwr with bistFail := bad.length % 256 }
    fab := { s1.fab with fcore := keys, fcoreNext := keys } }

/-- Step 7: enabled fabric ports train (R283, R403). -/
def bootPorts (s : State) : State :=
  foldN 24 (fun s n => if fieldAt s (lnkPage n + 0x20) 0 1 = 1 then updLp n (fun l => { l with st := 1 }) s else s) s

/-- BOOT (R409 to R411), from step 1 to READY. -/
def boot (f : BootFinds) (s : State) : State :=
  if ¬ s.pwr.on ∨ s.pwr.inReset ∨ s.pwr.trip ∨ s.pwr.stage ≠ 0 then s
  else if s.pwr.recovery then { s with pwr := { s.pwr with stage := 0xF } }
  else match bootSlotOf f s with
    | none => { s with pwr := { s.pwr with stage := 0xE } }
    | some k =>
      let s1 := bootRows (bootFirmware k s)
      let s2 := { s1 with
        hbm := { s1.hbm with trained := f.trained.toNat }
        pwr := { s1.pwr with degraded := decide (f.trained ≠ 0xFF), sdlLocked := true } }
      let s3 := bootPorts (bootBist f.bistFail s2)
      { s3 with pwr := { s3.pwr with stage := 9, ready := true } }

/-- BOOT (R409). -/
def execBoot (f : BootFinds) (s : State) : Host.Outcome State Fault Refusal := .next (boot f s)

/-! ### Thermal action -/

/-- Any junction at or above a, or any stack at or above b, in °C. -/
def hotter (a b die0 die1 : Nat) (hbmT : List Nat) : Bool := decide (a ≤ die0) || decide (a ≤ die1) || (hbmT.take 8).any fun t => decide (b ≤ t)

/-- The sensors' readings (R463). -/
def setTemps (die0 die1 : Nat) (hbmT : List Nat) (s : State) : State :=
  { s with pwr := { s.pwr with temps := [die0, die1], stackT := (List.range 8).map fun k => hbmT.getD k 0 } }

/-- First row of the thresholds: `ALERT_N` is asserted, and stays until it is cleared; the second row's condition ends with a reading below it
(R463, R465). -/
def thermalAlert (die0 die1 : Nat) (hbmT : List Nat) (s : State) : State :=
  let hot := hotter 95 90 die0 die1 hbmT
  let s1 := setTemps die0 die1 hbmT s
  let held := hotter 100 95 die0 die1 hbmT
  { s1 with pwr := { s1.pwr with
      warm := hot, alert := s1.pwr.alert || hot, throttled := s1.pwr.throttled && held, throttleAt := if held then s1.pwr.throttleAt else 0 } }

/-- Second row: the FOP steps down at once, and again after each 1,024 ticks (R463). -/
def thermalThrottle (die0 die1 : Nat) (hbmT : List Nat) (s : State) : State :=
  let s1 := thermalAlert die0 die1 hbmT s
  if !hotter 100 95 die0 die1 hbmT || s1.pwr.throttled then s1
  else lowerFop { s1 with pwr := { s1.pwr with throttled := true, throttleAt := 1024 } }

/-- The boundary's share of the second row. -/
def throttleTick (s : State) : State :=
  if ¬ s.pwr.throttled then s
  else if s.pwr.throttleAt ≤ 1 then lowerFop { s with pwr := { s.pwr with throttleAt := 1024 } }
  else { s with pwr := { s.pwr with throttleAt := s.pwr.throttleAt - 1 } }

/-- Third row, a hardware trip (R464): ticks stop, the module is lost, and the core, HBM and SerDes rails go off with what they hold. -/
def trip (s : State) : State :=
  let down := fun (h : HPort) => { h with up := false, downAt := some (h.downAt.getD s.clk.wall) }
  { s with
    pwr := { s.pwr with trip := true, lost := true }
    clk := { s.clk with run := false, starting := false, named := none, rail := [0, 0] }
    cores := [], dales := [], holds := []
    hbm := { s.hbm with mem := [], trained := 0 }
    host := { s.host with pa := down s.host.pa, pb := down s.host.pb }
    fab := { s.fab with port := s.fab.port.map fun l => (l.1, { l.2 with st := 0, trained := false, major := 0, minor := 0 }), stop := [], col := [] } }

/-- Third row (R463, R464). -/
def thermalTrip (die0 die1 : Nat) (hbmT : List Nat) (s : State) : State :=
  let s1 := thermalThrottle die0 die1 hbmT s
  if hotter 110 105 die0 die1 hbmT then trip s1 else s1

/-- The sensors work while the service rail is up. -/
def sensed (f : State → State) (s : State) : State := if s.pwr.on then f s else s

/-- THERMAL_ALERT (R463). -/
def execThermalAlert (die0 die1 : Nat) (hbmT : List Nat) (s : State) : Host.Outcome State Fault Refusal :=
  .next (sensed (thermalAlert die0 die1 hbmT) s)
/-- THERMAL_THROTTLE (R463). -/
def execThermalThrottle (die0 die1 : Nat) (hbmT : List Nat) (s : State) : Host.Outcome State Fault Refusal :=
  .next (sensed (thermalThrottle die0 die1 hbmT) s)
/-- THERMAL_TRIP (R464). -/
def execThermalTrip (die0 die1 : Nat) (hbmT : List Nat) (s : State) : Host.Outcome State Fault Refusal :=
  .next (sensed (thermalTrip die0 die1 hbmT) s)

end Sys2Proof.Machine
end

