-- ==== Sys2Proof/Machine/Secure.lean ====
section
/-! DEFINITION. Identity key and signatures (R416 to R419), the audit chain and its epochs (R420 to R422), the certificate and the fused
security version (R414, R425). -/
namespace Sys2Proof.Machine

/-! ### Records for the host -/

/-- A record goes to ring `AUD_CTL.RING` of port `AUD_CTL.PORT` (R419). -/
def auditRing (b : List Byte) (s : State) : State :=
  pushRing (portOf (fieldAt s (secPage + 0x60) 16 1 = 1)) (fieldAt s (secPage + 0x60) 5 11) 2 b s

/-- The fields of an attestation statement, bytes 16 to 271 of its record (R419). -/
def statement (nonce : List Byte) (s : State) : List Byte :=
  let img := match s.task.img with | some i => i.digest | none => []
  leBytes 2 1 ++ leBytes 2 s.sec.modid ++ leBytes 4 s.sec.svnRun ++ leBytes 4 s.sec.events ++ leBytes 1 s.sec.grade
    ++ leBytes 1 (if s.task.img.isSome then s.task.k else 0) ++ leBytes 2 (Config.stepping 0).toNat
    ++ padTo 32 0 nonce ++ s.sec.mreg ++ s.sec.fwm ++ padTo 32 0 img ++ s.sec.head ++ leBytes 6 s.sec.hslot ++ List.replicate 74 0

/-- The fields of an epoch record (R421), in the places of R419 (notes/assumptions/23.md). -/
def epochFields (e : Nat) (s : State) : List Byte :=
  let x := s.sec
  let first := if x.elinks = 0 then 0 else x.efirst
  let last := if x.elinks = 0 then 0 else x.hslot
  leBytes 2 2 ++ leBytes 2 x.modid ++ leBytes 8 e ++ leBytes 1 0 ++ leBytes 1 x.keff ++ leBytes 2 0
    ++ leBytes 6 first ++ leBytes 6 last ++ leBytes 8 x.elinks ++ List.replicate 12 0
    ++ x.mreg ++ x.ehead ++ List.replicate 32 0 ++ x.head ++ leBytes 6 x.hslot ++ List.replicate 74 0

/-! ### The audit chain -/

/-- A link extends the chain head (R420). -/
def addLink (slot : Nat) (link : List Byte) (s : State) : State :=
  { s with sec := { s.sec with
      head := shake256 (s.sec.head ++ link), hslot := slot, elinks := s.sec.elinks + 1
      efirst := if s.sec.elinks = 0 then slot else s.sec.efirst } }

/-- The genesis link of a task, whose first tick takes a slot (R420). -/
def genesisLink (slot : Nat) (s : State) : State :=
  if ¬ s.sec.genesis then s
  else
    let s1 := addLink slot (leBytes 1 0 ++ leBytes 6 slot ++ s.sec.mreg) s
    { s1 with sec := { s1.sec with genesis := false, enum := slot / 2 ^ s.sec.keff } }

/-- The audit epoch in progress closes: its record waits for a signature ahead of any attestation (R418, R421). -/
def closeEpoch (s : State) : State :=
  let q := s.sec.queue
  { s with sec := { s.sec with
      queue := q.takeWhile (fun x => x.1 = 2) ++ (2, epochFields s.sec.enum s) :: q.dropWhile (fun x => x.1 = 2)
      elinks := 0, ehead := s.sec.head, enum := s.sec.enum + 1 } }

/-- At a boundary: the epoch before the new slot's closes (R421). -/
def epochBoundary (s : State) : State :=
  if s.task.img.isNone ∨ s.sec.genesis ∨ s.clk.num / 2 ^ s.sec.keff ≤ s.sec.enum then s
  else
    let s1 := closeEpoch s
    { s1 with sec := { s1.sec with enum := s.clk.num / 2 ^ s.sec.keff } }

/-- A final record for the epoch in progress, before a task reset or a change of k (R421, R422). -/
def finalRecord (s : State) : State := if s.task.img.isNone ∨ s.sec.genesis then s else closeEpoch s

/-- At the restart after a cold boundary: a changed k signs a final record, and epochs follow the new k (R422). -/
def refixK (s : State) : State :=
  if effectiveK s = s.sec.keff then s
  else
    let s1 := finalRecord s
    { s1 with sec := { s1.sec with keff := effectiveK s, enum := s.clk.num / 2 ^ effectiveK s } }

/-! ### Signing -/

/-- The index block is reserved in flash before its first index is used (R417): none when the key must retire. -/
def reserveIndex (s : State) : Option State :=
  match nextIndex s.sec.lims with
  | none => none
  | some l =>
    if s.sec.next < l then some s
    else if 2 ^ 40 - 4096 < l + 4096 then none
    else
      let older := if (s.sec.lims.getD 0 none).getD 0 ≤ (s.sec.lims.getD 1 none).getD 0 then 0 else 1
      some { s with sec := { s.sec with lims := s.sec.lims.set older (some (l + 4096)) } }

/-- The leader signs what stands first in the queue and writes its record (R416 to R421). -/
def signHead (s : State) : State :=
  match s.sec.queue with
  | [] => s
  | (k, b) :: rest =>
    if s.sec.dead ∨ ¬ s.ctl.up.getD s.ctl.leader false then s
    else match reserveIndex s with
      | none => retireKey s
      | some s1 =>
        let body := if k = 1 then statement b s1 else b
        let sig := leBytes 9893 (Config.signature s1.fresh).toNat
        irqRaise (secPage / 0x1000) 1 (auditRing (ringRec 2 0 0 (body ++ sig))
          (drawn { s1 with sec := { s1.sec with next := s1.sec.next + 1, queue := rest } }))

/-- SIGNATURE_COMPLETE (R416). -/
def execSignatureComplete (s : State) : Host.Outcome State Fault Refusal := .next (signHead s)

/-- EPOCH_RECORD (R421): the record of a closed epoch, which stands first where one waits. -/
def epochRecord (s : State) : State :=
  match s.sec.queue with
  | (2, _) :: _ => signHead s
  | _ => s

/-- EPOCH_RECORD (R421). -/
def execEpochRecord (s : State) : Host.Outcome State Fault Refusal := .next (epochRecord s)

/-- The nonce as written (R419). -/
def nonceOf (s : State) : List Byte := (List.range 8).flatMap fun n => leBytes 4 (regAt s (secPage + 0x40 + 4 * n))

/-- ATTEST (R418, R419): queued, or refused while another waits. -/
def attest (s : State) : State :=
  if s.sec.dead then s
  else if s.sec.queue.any fun x => decide (x.1 = 1) then setBits (secPage + 0x24) 2 s
  else { s with sec := { s.sec with queue := s.sec.queue ++ [(1, nonceOf s)] } }

/-- ATTEST (R419). -/
def execAttest (port : Port) (s : State) : Host.Outcome State Fault Refusal := .next (woGate port (secPage + 0x20) true 0 attest s)

/-- CERT (R416, R425): the certificate leaves as a service record. -/
def cert (s : State) : State := drawn (auditRing (ringRec 2 0 0 (leBytes 512 (Config.certificate s.fresh).toNat)) s)

/-- CERT (R425). -/
def execCert (port : Port) (s : State) : Host.Outcome State Fault Refusal := .next (woGate port (secPage + 0x20) true 0 cert s)

/-- The other slot holds a valid image at the running version or above (R414). -/
def otherSlotOk (s : State) : Bool :=
  let b := fwSlot s (1 - s.pwr.bootSlot)
  Config.firmwareOk b && decide (s.sec.svnRun ≤ leAt 4 4 b)

/-- SVN_COMMIT (R414): the fused version rises to the running one, and never falls. -/
def svnCommit (port : Port) (s : State) : State :=
  if otherSlotOk s then { s with sec := { s.sec with svnFused := max s.sec.svnFused s.sec.svnRun } }
  else refuseWrite port (secPage + 0x20) 1 s

/-- SVN_COMMIT (R414). -/
def execSvnCommit (port : Port) (s : State) : Host.Outcome State Fault Refusal :=
  .next (hostGate port (secPage + 0x20) true 0 (svnCommit port) s)

/-! ### Snapshot -/

/-- Byte a of the committed content of region i (R238, R364). -/
def committedByte (s : State) (i : Nat) (r : RegionD) (a : Nat) : Byte :=
  if r.kind = 1 ∧ s.hbm.blank.contains (i * 2 ^ 21 + a / 65536) then 0
  else mget 0 s.hbm.mem (r.die * 2 ^ 40 + regionByte s i r false a)

/-- Digest over committed regions and committed halves of flip regions, in region order (R420). -/
def snapshotDigest (s : State) : List Byte :=
  match s.task.img with
  | none => shake256 []
  | some im => shake256 ((List.range im.regions.length).flatMap fun i => match im.regions[i]? with
    | some r => if r.kind = 1 ∨ r.kind = 2 then (List.range r.size).map (committedByte s i r) else []
    | none => [])

/-- Number that the next boundary takes (R20). -/
def nextTick (s : State) : Nat := if s.clk.run then s.clk.num + 1 else s.clk.numStart

/-- AUDIT_SNAPSHOT (R420). -/
def snapshot (s : State) : State :=
  if s.task.img.isNone then s
  else addLink (nextTick s) (leBytes 1 4 ++ leBytes 6 (nextTick s) ++ snapshotDigest s) (genesisLink (nextTick s) s)

/-- AUDIT_SNAPSHOT (R420): with ticks stopped only. -/
def execAuditSnapshot (port : Port) (s : State) : Host.Outcome State Fault Refusal :=
  .next (woGate port (secPage + 0x60) (!s.clk.run) 1 snapshot s)

end Sys2Proof.Machine
end

