-- ==== Sys2Proof/Machine/Journal.lean ====
section
/-! DEFINITION. The journal: a slot's record as bytes (R382, R383), the space of an entry and when it is freed (R381), the drain of a batch
part (R331) and its read-out and supply (R423, R424). -/
namespace Sys2Proof.Machine

/-! ### Record bytes -/

/-- A section with its header (R383). -/
def sectBytes (x : Nat × List Byte) : List Byte := leBytes 2 x.1 ++ leBytes 4 x.2.length ++ leBytes 2 0 ++ x.2
/-- All sections of a record. -/
def sectsBytes (l : List (Nat × List Byte)) : List Byte := l.flatMap sectBytes

/-- FLAGS bits 2 to 4 follow the sections present (R382). -/
def recFlags (h : JRec) : Nat :=
  let has := fun t b => if h.secs.any (fun x => decide (x.1 = t)) then 2 ^ b else 0
  h.flags % 4 + has 2 2 + has 4 3 + has 3 4 + h.flags / 32 % 2 * 32

/-- The 128-byte header of a die's record (R382). -/
def recHeader (e : JEnt) : List Byte :=
  let h := e.hdr
  leBytes 4 0x00010000 ++ leBytes 1 e.die ++ leBytes 1 h.outcome ++ leBytes 1 h.run ++ leBytes 1 (recFlags h) ++ leBytes 6 e.slot
    ++ leBytes 2 h.src ++ leBytes 6 h.batch ++ leBytes 1 h.fop ++ leBytes 1 h.k ++ leBytes 4 e.npk ++ leBytes 4 (sectsBytes h.secs).length
    ++ padTo 32 0 e.inDig ++ padTo 32 0 h.egDig ++ leBytes 2 (min h.lag 65535) ++ List.replicate 30 0

/-- A record: header, complement, sections. -/
def recBytes (e : JEnt) : List Byte :=
  let h := recHeader e
  h ++ h.map (fun b => ~~~ b) ++ sectsBytes e.hdr.secs

/-- The batch part of an entry as stored, FLAGS bit 3 as 0 (R332). -/
def storedPart (e : JEnt) : List Byte := partBytes e.slot e.die e.pkts e.overrun e.refused false
/-- A journal entry as bytes (R381). -/
def entryBytes (e : JEnt) : List Byte := recBytes e ++ storedPart e

/-! ### Records of a slot -/

/-- The module with both dies' records of a slot changed. -/
def updRecs (slot : Nat) (f : JEnt → JEnt) (s : State) : State :=
  { s with cmt := { s.cmt with jnl := s.cmt.jnl.map fun e => if e.slot = slot then f e else e } }

/-- The parts that the run at hand processes on a die, as stored. -/
def runParts (s : State) (die : Nat) : List JEnt :=
  (partAt s die s.cmt.batch).toList ++ (if s.cmt.two then (partAt s die (s.cmt.batch + 1)).toList else [])
/-- PKTS and IN_DIG of the run on a die (R382). -/
def runPkts (s : State) (die : Nat) : Nat := (runParts s die).foldl (fun n e => n + e.pkts.length) 0
def runInDig (s : State) (die : Nat) : List Byte :=
  shake256 (batchPart s die s.cmt.batch false ++ if s.cmt.two then batchPart s die (s.cmt.batch + 1) false else [])

/-- The V-log section: entries in LIDX order, then in issue order (R383). -/
def vlogBytes (s : State) : List Byte :=
  let ent := fun (l : Nat) (v : VEnt) =>
    let b := leBytes 1 l ++ leBytes 1 v.op ++ leBytes 2 v.data.length ++ leBytes 4 v.idx ++ v.data
    padTo (8 * cdiv b.length 8) 0 b
  (List.range 192).flatMap fun l => match physOf s l with
    | some p => (coreAt s p).vlog.flatMap (ent l)
    | none => []

/-- The correction row as bytes: c(s) as a signed byte (R351). -/
def corrRow (s : State) : List Byte := (List.range 256).map fun n => BitVec.ofNat 8 (256 - mget 0 s.cmt.corr n)

/-- Sections of the record of the run at hand: V-log when it commits, correction row, fences (R383). -/
def runSecs (committed : Bool) (s : State) : List (Nat × List Byte) :=
  (if committed then [(1, vlogBytes s)] else [])
    ++ (if s.cmt.corr.isEmpty then [] else [(2, corrRow s)])
    ++ (if s.cmt.fences.isEmpty then [] else [(4, s.cmt.fences.flatMap fun w => leBytes 8 w.toNat)])
    ++ (if s.cmt.failing = 0 then [] else [(5, leBytes 32 s.cmt.failing.toNat)])

/-! ### Space -/

/-- Bytes that a die's journal holds. -/
def jnlUsed (s : State) (die : Nat) : Nat := (s.cmt.jnl.filter fun e => decide (e.die = die)).foldl (fun n e => n + (entryBytes e).length) 0
/-- Free bytes of a die's journal (R381). -/
def jnlFree (s : State) (die : Nat) : Nat := fieldAt s (cmtPage + 0x40) 0 7 * gb - jnlUsed s die
/-- Either die's journal has less than 4.5 MB free (R381). -/
def jnlShort (s : State) : Bool := [0, 1].any fun die => decide (jnlFree s die < 9 * 2 ^ 19)
/-- Entries whose batch a committed tick has processed are freed, with KEEP only up to `JNL_REL` (R381). -/
def freeEntries (s : State) : State :=
  let keep := fieldAt s (cmtPage + 0x48) 0 1 = 1
  let rel := reg64 s (cmtPage + 0x4C) % 2 ^ 48
  { s with cmt := { s.cmt with jnl := s.cmt.jnl.filter fun e => decide (s.cmt.nextBatch ≤ e.slot ∨ keep ∧ rel < e.slot) } }

/-! ### Drain -/

/-- The drained bank of a die's port is fully written into the entry of the slot before (R331). -/
def drainBank (die : Nat) (s : State) : State :=
  let port := if die = 0 then Port.a else Port.b
  let h := hpAt s port
  let slot := s.clk.num - 1
  if ¬ s.clk.run ∨ s.clk.num = 0 ∨ !(s.cmt.jnl.any fun e => decide (e.die = die ∧ e.slot = slot) && !e.full) then s
  else
    let s1 := { s with cmt := { s.cmt with jnl := s.cmt.jnl.map fun e =>
      if e.die = die ∧ e.slot = slot ∧ ¬ e.full then
        { e with pkts := e.pkts ++ h.drainB.map (fun b => (b, false)), overrun := h.drainOvr, refused := h.drainRef, full := true }
      else e } }
    updHp port (fun h => { h with drainB := [], drainOvr := false, drainRef := false, lastBatch := slot }) s1

/-- JOURNAL_DRAIN (R331). -/
def execJournalDrain (die : Nat) (s : State) : Host.Outcome State Fault Refusal := guarded (okDie die) "die" (drainBank die) s

/-! ### Read-out and supply -/

/-- Sections that bytes spell. -/
def parseSects : Nat → List Byte → List (Nat × List Byte)
  | 0, _ => []
  | fuel + 1, b =>
    if b.length < 8 then []
    else
      let n := leAt 2 4 b
      (leAt 0 2 b, slice 8 n b) :: parseSects fuel (b.drop (8 + n))

/-- Packets of a stored part (R332): a data packet's bytes, cut at the valid bytes of its last read word. -/
def parsePkts (part : List Byte) : List (List Byte × Bool) :=
  let n := leAt 8 4 part
  let data := part.drop (128 + 128 * cdiv n 32)
  (List.range n).map fun k =>
    let w := leAt (128 + 4 * k) 4 part
    (slice (64 * bfield w 0 17) (64 * bfield w 17 6 + bfield w 23 7) data, bbit w 30)

/-- An entry that the host supplies for a die and slot (R424); none where header and complement disagree. -/
def parseEntry (die slot : Nat) (b : List Byte) : Option JEnt :=
  let h := slice 0 128 b
  if (slice 128 128 b) ≠ h.map (fun x => ~~~ x) ∨ b.length < 384 then none
  else
    let n := leAt 0x1C 4 h
    let part := b.drop (256 + n)
    let fl := leAt 17 1 part
    some { die := die, slot := slot, pkts := parsePkts part, overrun := bbit fl 1, refused := bbit fl 2, full := true
           npk := leAt 0x18 4 h, inDig := slice 0x20 32 h
           hdr := { outcome := leAt 5 1 h, run := leAt 6 1 h, flags := leAt 7 1 h, slot := leAt 8 6 h, src := leAt 0xE 2 h, batch := leAt 0x10 6 h
                    fop := leAt 0x16 1 h, k := leAt 0x17 1 h, lag := leAt 0x60 2 h, egDig := slice 0x40 32 h
                    secs := parseSects n (slice 256 n b) } }

/-- The copy is done (R423, R425). -/
def copyDone (n : Nat) (s : State) : State :=
  irqRaise (secPage / 0x1000) (1 <<< 1) (setBits (secPage + 0x80) (1 <<< 3) (setReg (secPage + 0x84) n s))

/-- JOURNAL_COPY (R423): an entry to host memory, or in reproduction mode from it. -/
def journalCopy (port : Port) (data : List Byte) (s : State) : State :=
  let die := fieldAt s (secPage + 0x80) 1 1
  let slot := reg64 s (secPage + 0x78) % 2 ^ 48
  if fieldAt s (secPage + 0x80) 2 1 = 0 then
    match partAt s die slot with
    | some e => copyDone (entryBytes e).length (emit (.hostWrite port (reg64 s (secPage + 0x70)) (entryBytes e)) s)
    | none => setBits (secPage + 0x80) (1 <<< 4) s
  else if ¬ s.task.repro then refuseWrite port (secPage + 0x80) 1 s
  else
    let rest := s.cmt.jnl.filter fun e => decide (e.die ≠ die ∨ e.slot ≠ slot)
    copyDone data.length { s with cmt := { s.cmt with jnl := rest ++ (parseEntry die slot data).toList } }

/-- JOURNAL_COPY (R423). -/
def execJournalCopy (port : Port) (data : List Byte) (s : State) : Host.Outcome State Fault Refusal :=
  .next (woGate port (secPage + 0x80) true 0 (journalCopy port data) s)

end Sys2Proof.Machine
end

