-- ==== Sys2Proof/Machine/Phase.lean ====
section
/-! DEFINITION. Task load (R94), phase load and switch (R358 to R369), cold boundary (R366) and task reset (R225, R404, R405). -/
namespace Sys2Proof.Machine

/-! ### Task load -/

/-- IMAGE_LOAD (R94, R239, R402): a refused image leaves the module as it was; an accepted one triggers an exit from T2 or T3. -/
def imageLoad (img : Image) (mod : BitVec 16) (seed : W64) (data : List (Nat × List Byte)) (s : State) : State :=
  if !loaderServed s || s.task.img.isSome then s
  else
    let r := checkImage s (leAt 0x2A 1 img.bytes) mod.toNat img
    if r.1 ≠ 0 then emit (.loader r.1) s
    else fillRegions (placeAll [] (regionsOf img.bytes)) (fun _ => true) data (loadTask img r.2 mod.toNat seed (trigger .load s))

/-- IMAGE_LOAD (R94). -/
def execImageLoad (img : Image) (mod : BitVec 16) (seed : W64) (data : List (Nat × List Byte)) (s : State) : Host.Outcome State Fault Refusal :=
  .next (imageLoad img mod seed data s)

/-! ### Carry list -/

/-- Fields of a carry list entry (R361). -/
def cyOut (w : W32) : Nat := bfield w.toNat 0 6
def cyIn (w : W32) : Nat := bfield w.toNat 6 6
def cyConv (w : W32) : Nat := bfield w.toNat 12 2

/-- An entry joins two regions of one shape, of kinds that its CONV allows (R361). -/
def carryEntryOk (old new : List RegionD) (w : W32) : Bool :=
  match old[cyOut w]?, new[cyIn w]? with
  | some o, some n =>
    decide (bfield w.toNat 14 18 = 0 ∧ o.die = n.die ∧ o.stk = n.stk ∧ o.size = n.size) &&
      (match cyConv w with
        | 0 => decide (o.kind = n.kind ∧ (o.kind = 1 ∨ o.kind = 2))
        | 1 => decide (o.kind = 1 ∧ n.kind = 2)
        | 2 => decide (o.kind = 2 ∧ n.kind = 1)
        | _ => false)
  | _, _ => false

/-- The carry list keeps R361: 64 entries, each region in one. -/
def carryOk (old new : List RegionD) (l : List W32) : Bool :=
  decide (l.length ≤ 64) && l.all (carryEntryOk old new) && decide ((l.map cyOut).Nodup ∧ (l.map cyIn).Nodup)

/-- The entry that carries into incoming region i. -/
def carryInto (l : List W32) (i : Nat) : Option W32 := l.find? fun w => decide (cyIn w = i)

/-- Digest of a carry list (R363, R415). -/
def carryDigest (l : List W32) : List Byte := shake256 (l.flatMap fun w => leBytes 4 w.toNat)

/-! ### Places of the incoming regions (R362) -/

/-- Regions of `new` that `sel` takes are placed, each clear of `clear` and of those placed before. -/
def placePass (new clear : List RegionD) (sel : Nat → RegionD → Bool) (f : List RegionD → Nat → RegionD → RegionD)
    (acc : List (Nat × RegionD)) : List (Nat × RegionD) :=
  (List.range new.length).foldl (fun acc i => match new[i]? with
    | some r => if sel i r then acc ++ [(i, f (clear ++ acc.map (·.2)) i r)] else acc
    | none => acc) acc

/-- Incoming regions in their places: carried ones where they were, committed ones outside every outgoing region, the others clear of what
stays. -/
def placePhase (old new : List RegionD) (l : List W32) : List RegionD :=
  let conv := fun i => match carryInto l i with | some w => some (cyConv w) | none => none
  let from_ := fun i => match carryInto l i with | some w => (old[cyOut w]?).getD (regionOfRec 0) | none => regionOfRec 0
  let a := placePass new [] (fun i _ => decide (conv i = some 0 ∨ conv i = some 1))
    (fun _ i r => { r with base := (from_ i).base, baseB := (from_ i).baseB }) []
  let b := placePass new old (fun i _ => decide (conv i = some 2))
    (fun used i r => { r with base := (from_ i).base, baseB := fitPlace (placesOf r.die used) r.size }) a
  let c := placePass new old (fun i r => decide (conv i = none ∧ r.kind = 2)) (fun used _ r => placeRegion used r) b
  let d := placePass new [] (fun i r => decide (conv i = none ∧ r.kind ≠ 2)) (fun used _ r => placeRegion used r) c
  (List.range new.length).filterMap fun i => (d.find? fun x => decide (x.1 = i)).map (·.2)

/-- Room for a phase load on each die while it is staged (R368). -/
def phaseRoom (s : State) (old new : List RegionD) (l : List W32) : Bool :=
  [0, 1].all fun die =>
    let fill := (List.range new.length).foldl (fun n i => match new[i]? with
      | some r => if r.die = die ∧ r.kind = 2 ∧ (carryInto l i).isNone then n + r.size else n
      | none => n) 0
    decide (takenOn die old + fill + gb ≤ capacityOf s die)

/-! ### Load, arm, cancel, abort -/

/-- Refusal codes of a phase load (R360). -/
def phaseCodes (s : State) (old : Loaded) (img : Image) (l : List W32) (code : Nat) : List Nat :=
  let new := regionsOf img.bytes
  (if code = 0 then [] else [code]) ++ codeIf (decide (7 < leAt 0x2A 1 img.bytes)) 0x0C ++ codeIf (!phaseRoom s old.regions new l) 0x10
    ++ codeIf (!carryOk old.regions new l) 0x11 ++ codeIf (decide (s.phase.st ≠ 0)) 0x12

/-- The inactive handle bank of every core of the task takes the incoming entries (R205, R207, R360). -/
def stageBanks (im : Loaded) (s : State) : State :=
  eachCore (fun p s => if holdsIndex (coreAt s p)
    then updCore p (fun c => { c with bsn := writeBank (1 - c.bsn.hsel) (ownedHnds im s.task.id) c.bsn }) s else s) s

/-- PHASE_LOAD (R360, R362, R402): steps 1 and 2 write nothing; committed regions that are not carried are filled at once. -/
def phaseLoad (img : Image) (carry : List W32) (sw : Nat) (data : List (Nat × List Byte)) (s : State) : State :=
  match s.task.img with
  | none => s
  | some old =>
    if !loaderServed s then s
    else
      let r := checkImage s s.clk.fop s.task.modIdx img
      let code := firstCode (phaseCodes s old img carry r.1)
      if code ≠ 0 then emit (.loader code) s
      else
        let im := keptImage img r.2 (placePhase old.regions (regionsOf img.bytes) carry)
        let s1 := fillRegions im.regions (fun i => (carryInto carry i).isNone) data (stageBanks im (trigger .load s))
        emit (.loader 0) (idleCheck { s1 with
          phase := { st := 1, img := some im, src := some img, carry := carry, tick := sw % 2 ^ 48, seq := s.phase.seq } })

/-- PHASE_LOAD (R360). -/
def execPhaseLoad (img : Image) (carry : List W32) (sw : Nat) (data : List (Nat × List Byte)) (s : State) : Host.Outcome State Fault Refusal :=
  .next (phaseLoad img carry sw data s)

/-- The cores of the task name a tick for their handle bank switch, or none (R210). -/
def nameSwitch (t : Option Nat) (s : State) : State :=
  eachCore (fun p s => if holdsIndex (coreAt s p) then updCore p (fun c => { c with bsn := { c.bsn with hswitch := t } }) s else s) s

/-- The marks written for the switch enter the fence table: whole modules, and cores of other modules (R306). -/
def applyMarks (f : Fab) : Fab :=
  f.fmarks.foldl (fun (g : Fab) (x : Nat × Bool) =>
    let put := fun (k : Nat) (l : List Nat) => if x.2 then (if l.contains k then l else l ++ [k]) else l.filter (· ≠ k)
    if x.1 < 65536 * 192 then { g with fcoreNext := put x.1 g.fcoreNext }
    else { g with fmod := put (x.1 - 65536 * 192) g.fmod }) { f with fmarks := [] }

/-- The tables of the fabric switch banks, and the fences follow (R300, R306). -/
def turnTables (f : Fab) : Fab :=
  let m := applyMarks f
  { m with fcore := m.fcoreNext, fport := m.fportNext, sel := 1 - m.sel, switch := none }

/-- The tables' named tick is that of a switch that is armed or under way: they wait for its bridge (R363, R366). -/
def tablesWait (s : State) : Bool := decide ((s.phase.st = 2 ∨ s.phase.st = 3) ∧ s.fab.switch = some s.phase.tick)

/-- The tables no longer name the tick of a switch that is cancelled or discarded (R365). -/
def tablesDrop (s : State) : State := if tablesWait s then { s with fab := { s.fab with switch := none } } else s

/-- PHASE_ARM (R360, R365, R415): a tick too near is refused; a warm switch takes no conversion (R361); all banks name the tick. -/
def phaseArm (cold : Bool) (s : State) : State :=
  let t := reg64 s (cmtPage + 0x344) % 2 ^ 48
  let s0 := setReg (cmtPage + 0x340) (1 + 2 * b2n cold) s
  match s.phase.img with
  | none => s0
  | some im =>
    if s.phase.st ≠ 1 ∨ !cold ∧ s.phase.carry.any (fun w => decide (cyConv w ≠ 0)) then s0
    else if !farEnough s t then setBits (cmtPage + 0x34C) (1 <<< 4) s0
    else measure 4 (shake256 (im.digest ++ carryDigest s.phase.carry))
      (nameSwitch (some t) { s0 with fab := { s0.fab with switch := some t }, phase := { s0.phase with st := 2, tick := t, cold := cold } })

/-- PHASE_ARM (R365). -/
def execPhaseArm (port : Port) (cold : Bool) (s : State) : Host.Outcome State Fault Refusal :=
  .next (hostGate port (cmtPage + 0x340) true 0 (phaseArm cold) s)

/-- PHASE_CANCEL (R365). -/
def phaseCancel (s : State) : State :=
  let s0 := setReg (cmtPage + 0x340) 0 s
  if s.phase.st = 2 then
    let s1 := tablesDrop s0
    nameSwitch none { s1 with phase := { s1.phase with st := 1, cold := false } }
  else s0

/-- PHASE_CANCEL (R365). -/
def execPhaseCancel (port : Port) (s : State) : Host.Outcome State Fault Refusal :=
  .next (hostGate port (cmtPage + 0x340) true 0 phaseCancel s)

/-- A phase load is discarded (R365, R369). -/
def abortPhase (s : State) : State :=
  if s.phase.st ≠ 1 ∧ s.phase.st ≠ 2 then s
  else irqRaise (cmtPage / 0x1000) (1 <<< 9) (setBits (cmtPage + 0x34C) (1 <<< 3)
    (idleCheck (nameSwitch none { tablesDrop s with phase := { seq := s.phase.seq } })))

/-- A core of the task has been fenced, or K is not the task's (R365). -/
def kChanged (s : State) : Bool :=
  decide (kOf s ≠ s.task.k) || s.cores.any fun c => c.2.fenced && decide (c.2.lidx ≠ 0xFF)

/-- PHASE_ABORT (R365). -/
def execPhaseAbort (s : State) : Host.Outcome State Fault Refusal := .next (if kChanged s then abortPhase s else s)

/-! ### The switch -/

/-- Entry i of the incoming bank, with PHASE carried over where both banks carry the same places (R210). -/
def carriedOver (c : Core) (i : Nat) : W64 :=
  let w := mget 0 c.bsn.hnd ((1 - c.bsn.hsel) * 64 + i)
  let a := hndAt c i
  let b := hndOf w
  let same := a.valid && b.valid && decide (a.kind = 1 ∧ b.kind = 1 ∧ a.row = b.row ∧ a.rowB = b.rowB ∧ a.bank0 = b.bank0
    ∧ a.width = b.width ∧ a.len = b.len)
  BitVec.ofNat 64 (if same && a.phase then bset w.toNat 44 else bclr w.toNat 44)

/-- The handle bank of a core switches (R210). -/
def switchBank (c : Core) : Core :=
  let b := foldN 64 (fun b i => setHnd (1 - c.bsn.hsel) i (carriedOver c i) b) c.bsn
  { c with bsn := { b with hsel := 1 - c.bsn.hsel, hswitch := none } }

/-- Current bits after the carry: a carried flip region keeps them (R362, R366). -/
def carriedCur (l : List W32) (cur : SMap Bool) : SMap Bool :=
  (l.filter fun w => decide (cyConv w = 0)).foldl (fun m w =>
    (cur.filter fun x => decide (x.1 / 2 ^ 21 = cyOut w)).foldl (fun m x => mset false (cyIn w * 2 ^ 21 + x.1 % 2 ^ 21) x.2 m) m) []

/-- Blank pages after the carry: those carried, and every page of an incoming flip region that is not (R363, R364). -/
def carriedBlank (new : List RegionD) (l : List W32) (blank : List Nat) : List Nat :=
  (List.range new.length).flatMap fun i => match new[i]?, carryInto l i with
    | some r, none => if r.kind = 1 then (List.range (r.size / 65536)).map fun p => i * 2 ^ 21 + p else []
    | some _, some w => if cyConv w = 0 then (blank.filter fun b => decide (b / 2 ^ 21 = cyOut w)).map fun b => i * 2 ^ 21 + b % 2 ^ 21 else []
    | none, _ => []

/-- n bytes of a die copied from one place to another. -/
def moveCells (die src dst n : Nat) (m : List Host.Cell) : List Host.Cell :=
  let lo := die * 2 ^ 40 + src
  let to_ := die * 2 ^ 40 + dst
  let got := m.filter fun c => decide (lo ≤ c.1 ∧ c.1 < lo + n)
  got.foldl (fun m c => mput (to_ + (c.1 - lo)) c.2 m) (m.filter fun c => decide (c.1 < to_ ∨ to_ + n ≤ c.1))

/-- n bytes of a die set to zero. -/
def zeroCells (die at_ n : Nat) (m : List Host.Cell) : List Host.Cell :=
  m.filter fun c => decide (c.1 < die * 2 ^ 40 + at_ ∨ die * 2 ^ 40 + at_ + n ≤ c.1)

/-- CONV 1: pages whose committed half is B go to A, blank pages read as zero (R364, R366). -/
def convPages (s : State) (o : Nat) (r : RegionD) : State :=
  let pagesB := (s.hbm.cur.filter fun x => x.2 && decide (x.1 / 2 ^ 21 = o)).map fun x => x.1 % 2 ^ 21
  let blank := (s.hbm.blank.filter fun b => decide (b / 2 ^ 21 = o)).map (· % 2 ^ 21)
  let m1 := pagesB.foldl (fun m p => moveCells r.die (r.baseB + p * 65536) (r.base + p * 65536) 65536 m) s.hbm.mem
  { s with hbm := { s.hbm with mem := blank.foldl (fun m p => zeroCells r.die (r.base + p * 65536) 65536 m) m1 } }

/-- The copies of a cold boundary (R366). -/
def convAll (old : List RegionD) (l : List W32) (s : State) : State :=
  (l.filter fun w => decide (cyConv w = 1)).foldl (fun s w => match old[cyOut w]? with | some r => convPages s (cyOut w) r | none => s) s

/-- Step 1 of the bridge: the handle bank of every core of the task and the tables of the fabric that name its tick switch (R210, R300,
R363). -/
def bridgeBanks (s : State) : State :=
  let s1 := eachCore (fun p s => if holdsIndex (coreAt s p) then updCore p switchBank s else s) s
  { s1 with fab := if tablesWait s1 then turnTables s1.fab else s1.fab }

/-- Steps 2 to 4 of the bridge (R363), its link (R420) and its digests in the record of its first slot (R383). -/
def finishPhase (s : State) : State :=
  match s.phase.img with
  | none => s
  | some im =>
    let l := s.phase.carry
    let s1 := eachCore (fun p s => if holdsIndex (coreAt s p) then
      updCore p (fun c => { c with bsn := { c.bsn with ford := fordMap im } }) s else s) s
    let s2 := loadDales im { s1 with
      hbm := { s1.hbm with cur := carriedCur l s1.hbm.cur, blank := carriedBlank im.regions l s1.hbm.blank, wr := [], flips := [] }
      task := { s1.task with img := some im, src := s.phase.src, cursor := [] }
      phase := { seq := (s.phase.seq + 1) % 65536, cold := s.phase.cold } }
    let digs := padTo 32 0 im.digest ++ carryDigest l
    let s3 := updRecs s.phase.slot0 (fun e => { e with hdr := { e.hdr with secs := e.hdr.secs ++ [(3, digs)] } }) s2
    irqRaise (cmtPage / 0x1000) (1 <<< 8) (setBits (cmtPage + 0x34C) (1 <<< 2)
      (addLink s.phase.slot0 (leBytes 1 2 ++ leBytes 6 s.phase.slot0 ++ digs) s3))

/-- PHASE_BRIDGE (R363): the bridge has taken its 40,960 lc. -/
def execPhaseBridge (s : State) : Host.Outcome State Fault Refusal :=
  .next (if s.phase.st = 3 ∧ ¬ s.phase.cold ∧ s.phase.left = 0 then finishPhase s else s)

/-- COLD_BOUNDARY (R366): ticks have stopped; the carry is applied and the incoming phase takes effect. -/
def coldBoundary (s : State) : State :=
  if s.phase.st = 3 ∧ s.phase.cold ∧ ¬ s.clk.run then
    match s.task.img with
    | some old => finishPhase (bridgeBanks (convAll old.regions s.phase.carry s))
    | none => s
  else s

/-- COLD_BOUNDARY (R366). -/
def execColdBoundary (s : State) : Host.Outcome State Fault Refusal := .next (coldBoundary s)

/-! ### Task reset -/

/-- A core of the task after a task reset: its rows zero, both banks unused, no fords, the core reset, no index (R69, R225). -/
def coreUnload (c : Core) : Core :=
  let b := zeroRows (validHnds c.bsn) c.bsn
  let b1 := foldN 64 (fun b i => setHnd 1 i (bclrW (mget 0 b.hnd (64 + i))) (setHnd 0 i (bclrW (mget 0 b.hnd i)) b)) b
  let c1 := resetCore { c with bsn := { b1 with ford := [], hswitch := none, fill := [], drain := [], sink := [], written := [], dep := [] } }
  { c1 with lidx := 0xFF, k := 0, task := 0, vlog := [], vold := [] }
where
  /-- An entry without VALID. -/
  bclrW (w : W64) : W64 := BitVec.ofNat 64 (bclr w.toNat 45)

/-- Flags and counters that are not 0 at the end of the lc, as a bit mask (R262). -/
def auditMask (c : Core) : Nat := (List.range 56).foldl (fun m o => if objEnd c o = 0 then m else m + 2 ^ o) 0
/-- The flag audit of a core (R262). -/
def flagAudit (p : Nat) (s : State) : State :=
  let m := auditMask (coreAt s p)
  let s1 := note (.put (corePage p + 0x9C) 0 24 (m >>> 32)) (note (.put (corePage p + 0x98) 0 32 (m % 2 ^ 32)) s)
  if m = 0 then s1 else progFault 0x1A p (coreSrc p 8 (chStat p 1 s1))
/-- The audit of the cores that hold an index, as the task ends (R262). -/
def endAudit (p : Nat) (s : State) : State := if holdsIndex (coreAt s p) then flagAudit p s else s

/-- A task reset (R404, R405): the flag audit of its end (R262), then tasks, regions, seed, watch table and phase state are cleared, and the commit state runs. -/
def doTaskReset (s : State) : State :=
  let s1 := finalRecord (publishEvts (eachCore endAudit (publishEvts s)))
  let s2 := eachCore (fun p s => if decide ((coreAt s p).lidx ≠ 0xFF) || decide ((coreAt s p).task ≠ 0) then updCore p coreUnload s else s) s1
  idleCheck { s2 with
    dales := s2.dales.map fun (d : Nat × Dale) => (d.1, { samples := d.2.samples })
    holds := []
    pwr := { s2.pwr with lost := s2.pwr.trip }
    task := { lastId := s.task.lastId }
    phase := {}
    hbm := { s2.hbm with cur := [], wr := [], blank := [], flips := [] }
    host := { s2.host with egr := [], ovw := [] }
    cmt := { freshCmt s2.cmt with st := 0, inDoubt := false, resetPend := false, resume := false, committed := false, verdict := none
                                  run := 0, fences := [] } }

/-- From T2 or T3 a task reset first exits to T0, a shut-down in progress completing first (R403, R406). -/
def resetExit (s : State) : State :=
  if s.pwr.busy ∧ 2 ≤ s.pwr.target ∧ ¬ s.pwr.exiting then shutdownDone { s with pwr := { s.pwr with exitPend := true } }
  else if 1 ≤ s.pwr.terrace then exitNow s else s

/-- TASK_RESET (R405): at the next boundary while ticks run, else at once. -/
def taskReset (s : State) : State :=
  let s1 := setField (svcPage + 0x68) 0 1 1 (resetExit s)
  if s1.clk.run then { s1 with cmt := { s1.cmt with resetPend := true } } else doTaskReset s1

/-- TASK_RESET (R405). -/
def execTaskReset (port : Port) (s : State) : Host.Outcome State Fault Refusal :=
  .next (hostGate port (svcPage + 0x68) true 0 taskReset s)

end Sys2Proof.Machine
end

