-- ==== Sys2Proof/Machine/Link.lean ====
section
/-! DEFINITION. Fabric ports: training and versions (R281 to R285), link-level retry (R286 to R288); router stops: paths, arbitration,
replication and fences (R298 to R307); EXTERN transfers (R309), SERVICE cells (R402) and saddle lanes (R450). -/
namespace Sys2Proof.Machine

/-! ### Link cells -/

/-- Index of a virtual channel half (notes/assumptions/24.md). -/
def halfIdx (vc : Nat) (hi : Bool) : Nat := 2 * vc + b2n hi
/-- Cells that an input port buffers per half (R302). -/
def halfCells : List Nat := [1024, 1024, 1024, 1024, 1920, 1920, 128, 128]

/-- A cell with link sequence, ACKNAK and LCRC (R286, R292). -/
def linkTrailer (seq ack : Nat) (c : FCell) : FCell :=
  let t := cEcrc c * 2 ^ 32 + seq % 8192 * 2 ^ 19 + ack * 2 ^ 16
  let c1 : FCell := { c with trl := BitVec.ofNat 64 t }
  { c1 with trl := BitVec.ofNat 64 (t + lcrcOf c1) }

/-- A LINKCTL cell leaves on a port (R284, R286). -/
def emitCtl (n seq ack pay : Nat) (s : State) : State :=
  emit (.cell n (linkTrailer seq ack ⟨mkHdr 0 0 0 13 3 0 48 0, BitVec.ofNat 384 pay, 0⟩)) s

/-- Credits returned, as running totals in bytes 0 to 15 (R286). -/
def creditPay (l : List Nat) : Nat := leNat (l.flatMap fun x => leBytes 2 (x % 65536))

/-- An interrupt bit and a saturating count of a link page. -/
def lnkIrq (n bit : Nat) (s : State) : State := note (.set (lnkPage n + 0x10) (1 <<< bit)) s
def lnkCount (n off lo w k : Nat) (s : State) : State := if k = 0 then s else note (.add (lnkPage n + off) lo w k) s
/-- A cell discarded at a port (R288, R290, R291). -/
def lnkDisc (n : Nat) (s : State) : State := lnkCount n 0x30 24 8 1 s
/-- LNK_CTL.ENABLE. -/
def lnkEnabled (s : State) (n : Nat) : Bool := decide (fieldAt s (lnkPage n + 0x20) 0 1 = 1)

/-! ### Training -/

/-- This module's capability cell payload (R284): majors 2 and 3 at minor 0 (notes/assumptions/24.md). -/
def ownCap (s : State) (n : Nat) : Nat :=
  leNat ([0xFF, 0xFF, 0, 0, 0xFF, 0xFF, 0xFF, 0xFF] ++ leBytes 2 s.sec.modid ++ leBytes 1 n ++ leBytes 1 4 ++ leBytes 4 7
    ++ List.replicate 31 0 ++ leBytes 1 1)

/-- Training starts at step 1 (R283). -/
def startTraining (n : Nat) (s : State) : State :=
  updLp n (fun l => { l with st := 1, trained := false, major := 0, minor := 0, leaving := false, retrainAfter := false, replay := [] }) s

/-- A port goes UP: sequences start afresh and each end grants the credits of R302 (R283). -/
def goUp (n : Nat) (s : State) : State :=
  lnkIrq n 1 (updLp n (fun l => { l with
    st := 2, replay := [], tx := 0, rx := 0, nak := false, owed := 0, tries := 0, trySeq := 0, lostUp := false, fails := []
    cred := halfCells, gotTot := List.replicate 8 0, gave := List.replicate 8 0 }) s)

/-- The version a trained port has agreed lets it run, or it retrains at the other rate (R285). -/
def agreeRate (n : Nat) (s : State) : State :=
  let l := lpAt s n
  if l.st ≠ 1 ∨ ¬ l.trained ∨ l.major = 0 then s
  else if (l.major = 3) = (l.slow = false) then goUp n s
  else updLp n (fun l => { l with trained := false }) s

/-- LINK_TRAINING (R283): lanes train at a rate, the capability cell leaves, the delay is measured. -/
def linkTraining (n : Nat) (slow : Bool) (delay : Nat) (s : State) : State :=
  let l := lpAt s n
  if 1 < l.st ∨ !lnkEnabled s n ∨ s.pwr.stage < 9 then s
  else agreeRate n (emitCtl n 0 0 (ownCap s n) (updLp n (fun l => { l with st := 1, slow := slow, delay := delay % 2 ^ 24, trained := true }) s))

/-- LINK_TRAINING (R283). -/
def execLinkTraining (n : Nat) (slow : Bool) (delay : Nat) (s : State) : Host.Outcome State Fault Refusal :=
  guarded (okPort n) "port" (linkTraining n slow delay) s

/-- The highest major that both ends list (R285): major and smaller minor. -/
def commonMajor (pay : Nat) : Option (Nat × Nat) :=
  ([3, 2].find? fun j => decide (bfield pay (8 * j) 8 ≠ 0xFF)).map fun j => (j, min 0 (bfield pay (8 * j) 8))

/-- CAPABILITY_CELL_ARRIVAL (R284, R285): versions are agreed, or the port mismatches. -/
def capability (n : Nat) (pay : BitVec 384) (s : State) : State :=
  let l := lpAt s n
  let b := pay.toNat
  if l.st ≠ 1 ∨ bfield b 376 8 ≠ 1 then s
  else
    let s1 := updLp n (fun l => { l with peer := bfield b 64 16, sk3 := decide (bfield b 88 8 = 3) }) s
    match commonMajor b with
    | none => lnkIrq n 2 (updLp n (fun l => { l with st := 3 }) s1)
    | some v => agreeRate n (updLp n (fun l => { l with major := v.1, minor := v.2 }) s1)

/-- CAPABILITY_CELL_ARRIVAL (R285). -/
def execCapabilityCellArrival (n : Nat) (pay : BitVec 384) (s : State) : Host.Outcome State Fault Refusal :=
  guarded (okPort n) "port" (capability n pay) s

/-- TRAINING_TIMEOUT (R283, R288): the port goes DOWN; a failed retrain is remembered. -/
def trainingTimeout (n : Nat) (s : State) : State :=
  let l := lpAt s n
  let failed := if l.lostUp then ((l.fails ++ [s.clk.wall]).reverse.take 3).reverse else []
  if l.st = 1 then lnkIrq n 0 (lnkCount n 0x30 16 8 1 (updLp n (fun l => { l with st := 0, trained := false, major := 0, minor := 0, fails := failed }) s))
  else if l.st = 0 ∧ l.lostUp ∧ lnkEnabled s n then updLp n (fun l => { l with fails := failed }) s
  else s

/-- TRAINING_TIMEOUT (R283). -/
def execTrainingTimeout (n : Nat) (s : State) : Host.Outcome State Fault Refusal := guarded (okPort n) "port" (trainingTimeout n) s

/-- A shut-down has drained the port: it trains again, or is DOWN (R403). -/
def leaveDone (n : Nat) (s : State) : State :=
  let l := lpAt s n
  if ¬ l.leaving ∨ l.replay ≠ [] then s
  else if l.retrainAfter then startTraining n s
  else lnkIrq n 0 (lnkCount n 0x30 16 8 1 (updLp n (fun l => { l with st := 0, trained := false, major := 0, minor := 0, leaving := false }) s))

/-- LINK_RETRAIN (R285, R403). -/
def linkRetrain (n : Nat) (s : State) : State :=
  let l := lpAt s n
  if !lnkEnabled s n ∨ l.st = 4 then s
  else if l.st = 2 then leaveDone n (updLp n (fun l => { l with leaving := true, retrainAfter := true }) s)
  else startTraining n s

/-- LINK_RETRAIN (R285). -/
def execLinkRetrain (port : Port) (n : Nat) (s : State) : Host.Outcome State Fault Refusal :=
  guarded (okPort n) "port" (woGate port (lnkPage n + 0x20) true 0 (linkRetrain n)) s

/-- LINK_ENABLE (R283, R403): a shut-down in progress completes first; a port in MISMATCH stays there until it is retrained (R285). -/
def linkEnable (n : Nat) (en : Bool) (s : State) : State :=
  let s1 := setField (lnkPage n + 0x20) 0 1 (b2n en) s
  let l := lpAt s n
  if l.st = 3 ∨ l.st = 4 then s1
  else if en then
    (if l.leaving then updLp n (fun l => { l with retrainAfter := true }) s1 else if l.st = 0 then startTraining n s1 else s1)
  else if l.st = 2 then leaveDone n (updLp n (fun l => { l with leaving := true, retrainAfter := false }) s1)
  else updLp n (fun l => { l with st := 0, trained := false, major := 0, minor := 0 }) s1

/-- LINK_ENABLE (R403). -/
def execLinkEnable (port : Port) (n : Nat) (en : Bool) (s : State) : Host.Outcome State Fault Refusal :=
  guarded (okPort n) "port" (hostGate port (lnkPage n + 0x20) true 0 (linkEnable n en)) s

/-! ### Retry -/

/-- Credits come back as running totals (R286). -/
def takeTotals (credits : List Nat) (l : LPort) : LPort :=
  { l with
    cred := (List.range 8).map fun k => l.cred.getD k 0 + (credits.getD k 0 + 65536 - l.gotTot.getD k 0) % 65536
    gotTot := (List.range 8).map fun k => credits.getD k 0 % 65536 }

/-- LINKCTL_ACK (R286, R287): entries up to the sequence are freed. -/
def linkAck (n seq : Nat) (credits : List Nat) (s : State) : State :=
  let l := lpAt s n
  if l.st ≠ 2 then s
  else
    let freed := l.replay.any fun x => decide (x.1 = seq % 8192)
    let rest := if freed then (l.replay.dropWhile fun x => decide (x.1 ≠ seq % 8192)).drop 1 else l.replay
    leaveDone n (updLp n (fun l => takeTotals credits { l with replay := rest, tries := if freed then 0 else l.tries }) s)

/-- LINKCTL_ACK (R287). -/
def execLinkctlAck (n seq : Nat) (credits : List Nat) (s : State) : Host.Outcome State Fault Refusal :=
  guarded (okPort n) "port" (linkAck n seq credits) s

/-- Every buffered cell from a sequence on goes out again (R287). -/
def resendFrom (n seq : Nat) (s : State) : State :=
  let l := lpAt s n
  let again := l.replay.dropWhile fun x => decide (x.1 ≠ seq)
  if l.st ≠ 2 ∨ again.isEmpty then s
  else again.foldl (fun s x => emit (.cell n x.2) s) (gcount 5 n 1 <| lnkCount n 0x30 0 16 1
    (updLp n (fun l => { l with tries := if l.trySeq = seq then l.tries + 1 else 1, trySeq := seq }) s))

/-- LINKCTL_NAK (R286, R287): its credits, then the resend. -/
def linkNak (n seq : Nat) (credits : List Nat) (s : State) : State :=
  if (lpAt s n).st ≠ 2 then s else resendFrom n (seq % 8192) (updLp n (takeTotals credits) s)

/-- LINKCTL_NAK (R287). -/
def execLinkctlNak (n seq : Nat) (credits : List Nat) (s : State) : Host.Outcome State Fault Refusal :=
  guarded (okPort n) "port" (linkNak n seq credits) s

/-- ACK_TIMEOUT (R287): from the oldest entry. -/
def execAckTimeout (n : Nat) (s : State) : Host.Outcome State Fault Refusal :=
  guarded (okPort n) "port" (fun s => match (lpAt s n).replay with | x :: _ => resendFrom n x.1 s | [] => s) s

/-- ACK_SEND (R286). -/
def ackSend (n : Nat) (s : State) : State :=
  let l := lpAt s n
  if l.st ≠ 2 then s
  else emitCtl n (l.rx + 8191) 1 (creditPay l.gave) (updLp n (fun l => { l with owed := 0 }) s)

/-- ACK_SEND (R286). -/
def execAckSend (n : Nat) (s : State) : Host.Outcome State Fault Refusal := guarded (okPort n) "port" (ackSend n) s

/-- Place of a fabric port: die, stop column and row, direction in which the edge stop lies (R298). -/
def portPlace (n : Nat) : Nat × Nat × Nat × Nat :=
  let k := n % 12
  if k < 2 then (n / 12, k, 0, 2) else if k < 10 then (n / 12, 0, k - 2, 1) else (n / 12, k - 10, 7, 4)

/-- A discarded cell: a NAK names the expected sequence, once (R287). -/
def badCell (n : Nat) (s : State) : State :=
  let l := lpAt s n
  if l.nak then s else emitCtl n l.rx 2 (creditPay l.gave) (updLp n (fun l => { l with nak := true }) s)

/-- LINK_CELL_RECEIVE (R287, R290): FEC, link CRC and sequence are checked, and a good cell takes the col from the port's edge stop into the
mesh, on the half of its virtual channel that it came on (R291, R301). -/
def linkReceive (n : Nat) (c : FCell) (half : Nat) (uncorr : Bool) (syms : Nat) (s : State) : State :=
  let l := lpAt s n
  if l.st ≠ 2 then s
  else
    let s1 := gcount 4 n 1 (lnkCount n 0x28 0 32 syms s)
    if uncorr then badCell n (lnkCount n 0x2C 0 16 1 s1)
    else if bfield c.trl.toNat 0 16 ≠ lcrcOf c then badCell n (lnkCount n 0x2C 16 16 1 s1)
    else if cType c = 13 then s1
    else if bfield c.trl.toNat 19 13 ≠ l.rx then badCell n s1
    else
      let s2 := updLp n (fun l => { l with rx := (l.rx + 1) % 8192, nak := false, owed := l.owed + 1 }) s1
      if cType c = 15 then lnkDisc n s2
      else
        let pl := portPlace n
        intoCol edgeLcs (.stop (stopKey pl.1 pl.2.1 pl.2.2.1) pl.2.2.2)
          { cell := c, from_ := some n, src := 256 + n, vc := half / 2, hi := decide (half % 2 = 1) } s2

/-- LINK_CELL_RECEIVE (R287). -/
def execLinkCellReceive (n : Nat) (c : FCell) (half : Nat) (uncorr : Bool) (syms : Nat) (s : State) : Host.Outcome State Fault Refusal :=
  guarded (okPort n && decide (half < 8)) "port" (linkReceive n c half uncorr syms) s

/-- PORT_DOWN (R288): the replay buffer is discarded and the tick is not clean. -/
def portDown (n : Nat) (cause : DownCause) (s : State) : State :=
  let l := lpAt s n
  if l.st ≠ 2 ∨ cause = .resends ∧ l.tries < 16 then s
  else markSrc 5 (lnkIrq n 0 (lnkCount n 0x30 24 8 l.replay.length (lnkCount n 0x30 16 8 1
    (updLp n (fun l => { l with st := 0, trained := false, major := 0, minor := 0, replay := [], leaving := false, lostUp := true, fails := [], tries := 0 }) s))))

/-- PORT_DOWN (R288). -/
def execPortDown (n : Nat) (cause : DownCause) (s : State) : Host.Outcome State Fault Refusal := guarded (okPort n) "port" (portDown n cause) s

/-- A port is fenced (R288, R306, R383, R392). -/
def fencePort (n : Nat) (s : State) : State :=
  if (lpAt s n).st = 4 then s
  else
    let s1 := updLp n (fun l => { l with st := 4, trained := false, replay := [] }) s
    markSrc 15 (lnkIrq n 3 { s1 with
      fab := { s1.fab with fportNext := s1.fab.fportNext ++ [n] }
      cmt := { s1.cmt with fences := s1.cmt.fences ++ [BitVec.ofNat 64 (2 + n * 16)] } })

/-- PORT_FENCE (R288): after 3 failed retrains within 10 s. -/
def portFence (n : Nat) (s : State) : State :=
  match (lpAt s n).fails with
  | a :: _ :: _ :: _ => if s.clk.wall ≤ a + 10000000 * wallUs then fencePort n s else s
  | _ => s

/-- PORT_FENCE (R288). -/
def execPortFence (n : Nat) (s : State) : Host.Outcome State Fault Refusal := guarded (okPort n) "port" (portFence n) s

/-! ### Where a cell goes -/

/-- Where a router sends a cell. -/
inductive Tgt where
  | core (p ep : Nat)
  | ctl (die : Nat)
  | port (n : Nat)
  | absorb (mod core : Nat)
  | noIndex
  | discard
  deriving DecidableEq, Repr

/-- A module and core are fenced (R306). -/
def isFenced (s : State) (mod core : Nat) : Bool := s.fab.fmod.contains mod || decide (core < 192) && s.fab.fcore.contains (mod * 192 + core)
/-- Route of a module in the bank in force (R300). -/
def routeOf (s : State) (mod : Nat) : Nat := mget 31 s.fab.route (s.fab.sel * 65536 + mod)
/-- A port, unless it is fenced. -/
def portTgt (s : State) (n mod core : Nat) : Tgt := if s.fab.fport.contains n ∨ (lpAt s n).st = 4 then .absorb mod core else .port n

/-- The fenced core that held a logical index of the load. -/
def fencedIdx (s : State) (l : Nat) : Option Nat :=
  findN 192 fun p => decide ((coreAt s p).lidx = l) && (coreAt s p).fenced && decide (l < 192)

/-- Target of a cell that is no longer to be replicated (R299, R300, R306); an open request to an index that the load does not have is
refused (R266). -/
def target (s : State) (r : RCell) : Tgt :=
  let c := r.cell
  match r.toCore, r.toPort with
  | some v, _ => .core (v % 256) (v / 256)
  | none, some n => portTgt s n 0xFFFF 0
  | none, none =>
    let m := cDmod c
    if m = ownMod s ∨ routeOf s m = 30 then
      if cType c = 6 then
        (match physOf s (cDcore c), fencedIdx s (cDcore c) with
        | some p, _ => if isFenced s m p then .absorb m p else .core p (cDep c)
        | none, some p => .absorb m p
        | none, none => .noIndex)
      else if cDcore c = 0xFE ∨ cDcore c = 0xFF then .ctl (cDcore c - 0xFE)
      else if 192 ≤ cDcore c then .discard
      else if isFenced s m (cDcore c) then .absorb m (cDcore c) else .core (cDcore c) (cDep c)
    else if s.fab.fmod.contains m ∨ cType c ≠ 6 ∧ isFenced s m (cDcore c) then .absorb m (cDcore c)
    else if routeOf s m < 24 then portTgt s (routeOf s m) m (cDcore c) else .absorb m (cDcore c)

/-- Place and exit direction of a target. -/
def tgtPlace : Tgt → Nat × Nat × Nat × Nat
  | .core p _ => let st := stopOf p; (st.1, st.2.1, st.2.2, 0)
  | .ctl die => (die, 5, 0, 2)
  | .port n => portPlace n
  | .absorb _ _ | .noIndex | .discard => (0, 0, 0, 0)

/-- Output of stop (die, x, y) towards a target: 0 core, 1 outer, 2 north, 3 inner, 4 south (R298, R299). -/
def outputTo (die x y : Nat) (t : Tgt) : Nat :=
  let (td, tx, ty, ex) := tgtPlace t
  if die ≠ td then 3
  else if x < tx then 3 else if tx < x then 1
  else if y < ty then 4 else if ty < y then 2 else ex

/-- The stop is the one at which the target lies. -/
def atTgt (die x y : Nat) (t : Tgt) : Bool :=
  let (td, tx, ty, _) := tgtPlace t
  decide (die = td ∧ x = tx ∧ y = ty)

/-- The next stop in a direction, and the input there; column 11 meets the other die's across the saddle. -/
def nextStop (die x y o : Nat) : Nat × Nat :=
  match o with
  | 1 => (stopKey die (x - 1) y, 3)
  | 2 => (stopKey die x (y - 1), 4)
  | 3 => if x = 11 then (stopKey (1 - die) 11 y, 3) else (stopKey die (x + 1) y, 1)
  | _ => (stopKey die x (y + 1), 2)

/-! ### Fenced acknowledgements and replication -/

/-- The input buffer of a port gives back a credit as a cell leaves it (R286, R302). -/
def giveBack (r : RCell) (s : State) : State :=
  match r.from_ with
  | none => s
  | some n =>
    let k := halfIdx r.vc r.hi
    updLp n (fun l => { l with gave := modAt k (fun g => (g + 1) % 65536) l.gave, owed := l.owed + 1 }) s

/-- The source core's endpoint, on this module, that a fenced acknowledgement goes to, else the module and core that the cell names. -/
def ackTo (s : State) (r : RCell) : Option (Nat × Nat × Nat) :=
  if r.src < 192 then some (ownMod s, r.src, r.sep)
  else if selfNamed (cType r.cell) then
    let v := cPay r.cell 0 6
    some (v % 2 ^ 16, bfield v 16 8, bfield v 24 10)
  else none

/-- A cell of a controller enters the mesh north of (5, 0) (R298), through the col of its region (R28). -/
def ctlSend (die vc : Nat) (c : FCell) (s : State) : State :=
  intoCol edgeLcs (.stop (stopKey die 5 0) 2) { cell := c, src := 0xFE + die, vc := vc } s

/-- A reply that a router gives to the source of a cell: at its own core at once, else by the route of a REPLY. -/
def routerReply (die : Nat) (r : RCell) (rest : Nat) (s : State) : State :=
  match ackTo s r with
  | none => s
  | some (m, p, e) =>
    let src := srcId (ownMod s) (0xFE + die) 0
    let cell := sealCell src (mkHdr m p e 7 3 0 0 0) (src + rest * 2 ^ 48)
    if m = ownMod s ∧ p < 192 then updCore p (fun c => { c with ch := { c.ch with inbox := c.ch.inbox ++ [(e, cell)] } }) s
    else ctlSend die 1 cell s

/-- A fenced acknowledgement for a cell of a program (R307). -/
def fencedReply (die : Nat) (r : RCell) (mod core : Nat) (s : State) : State :=
  let ty := cType r.cell
  let tag := if ty = 3 then cPay r.cell 37 2 else 0xFFFF
  if ¬ [0, 1, 2, 3, 5, 6, 9, 10].contains ty then s
  else routerReply die r (rFenced + core % 256 * 2 ^ 8 + mod % 65536 * 2 ^ 16 + ty * 2 ^ 40 + cFseq r.cell * 2 ^ 48 + tag * 2 ^ 64) s

/-- The refusal of an open request to an index that the load does not have (R266 reason 3). -/
def noIndexReply (die : Nat) (r : RCell) (s : State) : State := routerReply die r (rRefuse + 3 * 2 ^ 8 + 6 * 2 ^ 40 + 0xFFFF * 2 ^ 64) s

/-- Mask of a multicast cell (R304). -/
def mcMask (c : FCell) : Nat := cPay c 40 8
/-- The cell with another mask. -/
def withMask (c : FCell) (m : Nat) : FCell := { c with pay := BitVec.ofNat 384 (bput c.pay.toNat 320 64 m) }
/-- A tree mask: port 0 to 23, 24 for this module (R303). -/
def treeMask (s : State) (g n : Nat) : Nat := mget 0 s.fab.tree (s.fab.sel * 2 ^ 17 + g * 32 + n)

/-- Members of a mask that are fenced. -/
def fencedMembers (s : State) (g m : Nat) : List Nat := (List.range 64).filter fun i => bbit m i &&
  (match memberAt s g i with | some x => isFenced s x.1 x.2.1 | none => false)

/-- The copies of a multicast cell at this module (R304). -/
def copies (s : State) (r : RCell) : List RCell :=
  let g := cGroup r.cell
  let m := mcMask r.cell
  let m1 := (fencedMembers s g m).foldl bclr m
  let ports := (List.range 24).filterMap fun n =>
    let k := treeMask s g n &&& m1
    if k = 0 then none else some { r with cell := withMask r.cell k, toPort := some n }
  let here := (List.range 64).filterMap fun i =>
    if bbit (treeMask s g 24 &&& m1) i then
      (match memberAt s g i with
      | some x => some { r with toCore := some (x.2.1 + 256 * x.2.2) }
      | none => none)
    else none
  ports ++ here

/-- A cell that is still to be replicated. -/
def isMcast (r : RCell) : Bool := decide (cDmod r.cell = 0xFFFF) && r.toPort.isNone && r.toCore.isNone

/-- The members that a multicast cell's mask names. -/
def maskMembers (s : State) (c : FCell) : List (Nat × Nat × Nat) :=
  (List.range 64).filterMap fun i => if bbit (mcMask c) i then memberAt s (cGroup c) i else none

/-- An absorbed cell is acknowledged as fenced: a multicast cell once for each member that it would have reached (R305, R307). -/
def absorbed (die : Nat) (r : RCell) (mod core : Nat) (s : State) : State :=
  if cDmod r.cell = 0xFFFF then (maskMembers s r.cell).foldl (fun s x => fencedReply die r x.1 x.2.1 s) s
  else fencedReply die r mod core s

/-- Replication at a stop: each multicast cell gives its copies, and a fenced acknowledgement for each member it loses (R304, R307). Its
credit goes back with the first copy that leaves, or now where there is none. -/
def replicate (die key : Nat) (s : State) : State :=
  let st := mget {} s.fab.stop key
  let all := st.ins.flatMap fun x => x.2.filter isMcast
  let onlyFirst := fun (l : List RCell) => match l with | a :: t => a :: t.map (fun r => { r with from_ := none }) | [] => []
  let s1 := { s with fab := { s.fab with stop := mput key { st with
    ins := st.ins.map fun x => (x.1, x.2.flatMap fun r => if isMcast r then onlyFirst (copies s r) else [r]) } s.fab.stop } }
  all.foldl (fun s1 r =>
    let s2 := (fencedMembers s (cGroup r.cell) (mcMask r.cell)).foldl (fun s1 i => match memberAt s (cGroup r.cell) i with
      | some x => fencedReply die r x.1 x.2.1 s1
      | none => s1) s1
    if (copies s r).isEmpty then giveBack r s2 else s2) s1

/-- Cells for fenced or unroutable destinations are absorbed (R300, R307). -/
def absorbAll (die key : Nat) (s : State) : State :=
  let st := mget {} s.fab.stop key
  let gone := fun r => match target s r with | .absorb _ _ | .noIndex | .discard => true | _ => false
  let all := st.ins.flatMap fun x => x.2.filter gone
  let s1 := { s with fab := { s.fab with stop := mput key { st with ins := st.ins.map fun x => (x.1, x.2.filter fun r => !gone r) } s.fab.stop } }
  all.foldl (fun s1 r => giveBack r (match target s r with
    | .absorb m c => absorbed die r m c s1
    | .noIndex => noIndexReply die r s1
    | _ => s1)) s1

/-! ### Forwarding -/

/-- The half a cell takes when it leaves through a port (R301). -/
def hiOut (s : State) (n : Nat) (r : RCell) : Bool := r.hi || decide (fieldAt s (lnkPage n + 0x20) 2 1 = 1)

/-- Clock region, on its die, of a stop's cores (R26, R298). -/
def stopRegion (die x y : Nat) : Nat := 4 * (if die = 0 then x / 2 else 5 - x / 2) + 2 * (x % 2) + y / 4

/-- Lc that a hop from a stop to the next one takes beyond the stop's own (R299). -/
def hopLcs (die x y o : Nat) : Nat :=
  match o with
  | 1 => if stopRegion die x y = stopRegion die (x - 1) y then 0 else colLcs
  | 2 => if stopRegion die x y = stopRegion die x (y - 1) then 0 else colLcs
  | 3 => if x = 11 then saddleLcs else if stopRegion die x y = stopRegion die (x + 1) y then 0 else colLcs
  | _ => if stopRegion die x y = stopRegion die x (y + 1) then 0 else colLcs

/-- Cells of a half that are on their way to an input of a stop. -/
def onWay (s : State) (dst : ColTo) (h : Nat) : Nat :=
  (s.fab.col.filter fun w => decide (w.dst = dst ∧ halfIdx w.cell.vc w.cell.hi = h)).length

/-- Cells on their way to a port that take the half `h` of its link, and all of them. -/
def toPort (s : State) (n h : Nat) : Nat × Nat :=
  let l := s.fab.col.filter fun w => decide (w.dst = .port n)
  ((l.filter fun w => decide (halfIdx w.cell.vc (hiOut s n w.cell) = h)).length, l.length)

/-- A cell may leave on an output now: it has been in the stop 2 lc (R299), a credit of its half is at the next hop (R302), and a hop out of
its region takes place outside the boundary window (R25). -/
def mayLeave (s : State) (die x y o : Nat) (r : RCell) : Bool :=
  let t := target s r
  let h := halfIdx r.vc r.hi
  decide (r.rdy ≤ s.clk.now) &&
  if atTgt die x y t then
    match t with
    | .port n =>
      let l := lpAt s n
      let hp := halfIdx r.vc (hiOut s n r)
      let w := toPort s n hp
      colsOpen s && (decide (l.st ≠ 2) || (!l.leaving && decide (w.1 < l.cred.getD hp 0) && decide (l.replay.length + w.2 < 4096)))
    | .ctl _ => colsOpen s
    | _ => true
  else
    let (key, i) := nextStop die x y o
    let q := mget [] (mget {} s.fab.stop key).ins i
    (decide (hopLcs die x y o = 0) || colsOpen s) &&
      decide ((q.filter fun z => decide (halfIdx z.vc z.hi = h)).length + onWay s (.stop key i) h < 32)

/-- What a port at protocol 2.x carries: SERVICE and EXTERN cells, and cells that came in on such a port, the speculative class apart
(R291, R310). -/
def thinCarries (s : State) (r : RCell) : Bool :=
  decide (cType r.cell = 12 ∨ cType r.cell = 14)
    || (decide (256 ≤ r.src ∧ cClass r.cell ≠ 2) && decide ((lpAt s (r.src - 256)).major = 2))

/-- A cell leaves the module on a port (R287, R288, R291, R307, R310): a port that is not UP discards it, and one at protocol 2.x absorbs what
it does not carry. -/
def outPort (n : Nat) (r : RCell) (s : State) : State :=
  let l := lpAt s n
  if l.st ≠ 2 then markSrc 5 (lnkDisc n s)
  else if l.major = 2 ∧ ¬ thinCarries s r then absorbed (n / 12) r (cDmod r.cell) (cDcore r.cell) (lnkDisc n s)
  else
    let k := halfIdx r.vc (hiOut s n r)
    let c := linkTrailer l.tx 0 r.cell
    gcount 3 n 1 <| emit (.cell n c) (updLp n (fun l => { l with
      replay := l.replay ++ [(l.tx, c)], tx := (l.tx + 1) % 8192, cred := modAt k (· - 1) l.cred }) s)

/-- A cell leaves a stop. -/
def sendOn (die x y o : Nat) (r : RCell) (s : State) : State :=
  let t := target s r
  let s1 := giveBack r s
  if atTgt die x y t then
    match t with
    | .core p e => updCore p (fun c => { c with ch := { c.ch with inbox := c.ch.inbox ++ [(e, r.cell)] } }) s1
    | .ctl d => intoCol edgeLcs (.ctl d) r s1
    | .port n => intoCol edgeLcs (.port n) r s1
    | _ => s1
  else
    let (key, i) := nextStop die x y o
    let r1 := { r with from_ := none }
    if hopLcs die x y o = 0 then enterStop key i r1 s1 else intoCol (hopLcs die x y o) (.stop key i) r1 s1

/-- A word is read out of its col (R28). -/
def colRead (s : State) (w : ColWord) : State :=
  match w.dst with
  | .stop key i => enterStop key i w.cell s
  | .port n => outPort n w.cell s
  | .ctl d => { s with fab := { s.fab with svc := mput d (mget [] s.fab.svc d ++ [w.cell.cell]) s.fab.svc } }

/-- Words whose lc has come are read; in the boundary window none is, and they are read right after it (R25, R28; notes/assumptions/67.md). -/
def colLc (s : State) : State :=
  if s.fab.col.isEmpty || !colsOpen s then s
  else (s.fab.col.filter fun w => decide (w.due ≤ s.clk.now)).foldl colRead
    { s with fab := { s.fab with col := s.fab.col.filter fun w => decide (s.clk.now < w.due) } }

/-- First cell of an input that may leave on an output: cells of one half keep their order. -/
def firstFor (s : State) (die x y o : Nat) : Nat → List Nat → List RCell → Option Nat
  | _, _, [] => none
  | k, blocked, r :: t =>
    let h := halfIdx r.vc r.hi
    if blocked.contains h then firstFor s die x y o (k + 1) blocked t
    else if outputTo die x y (target s r) = o ∧ mayLeave s die x y o r then some k
    else firstFor s die x y o (k + 1) (h :: blocked) t

/-- Input i of a stop. -/
def inputAt (s : State) (key i : Nat) : List RCell := mget [] (mget {} s.fab.stop key).ins i

/-- One cell of an input leaves on an output, if one may. -/
def moveOne (die x y o i : Nat) (s : State) : State :=
  let key := stopKey die x y
  let q := inputAt s key i
  match firstFor s die x y o 0 [] q with
  | none => s
  | some k => match q[k]? with
    | none => s
    | some r =>
      let st := mget {} s.fab.stop key
      sendOn die x y o r { s with fab := { s.fab with stop := mput key { st with ins := mput i (q.eraseIdx k) st.ins } s.fab.stop } }

/-- One output of a stop for one lc: the first input at or after the pointer wins it for up to 4 cells (R299, R302). -/
def serveOutput (die x y : Nat) (s : State) (o : Nat) : State :=
  let key := stopKey die x y
  let wants := (List.range 5).filter fun i => (firstFor s die x y o 0 [] (inputAt s key i)).isSome
  let p := mget 0 (mget {} s.fab.stop key).ptr o
  let setPtr := fun v (s : State) =>
    let st := mget {} s.fab.stop key
    { s with fab := { s.fab with stop := mput key { st with ptr := mset 0 o v st.ptr } s.fab.stop } }
  match (wants.filter (p ≤ ·)) ++ wants with
  | [] => setPtr 0 s
  | w :: _ => setPtr (if 1 < wants.length then (w + 1) % 5 else 0) (Nat.repeat (moveOne die x y o w) 4 s)

/-- A stop's lc has been used. -/
def stopServed (key : Nat) (s : State) : State :=
  { s with fab := { s.fab with stop := mput key { mget {} s.fab.stop key with at_ := s.clk.now + 1 } s.fab.stop } }

/-- ROUTER_FORWARD (R299, R302): one lc of a stop, which it has once. -/
def routerForward (die x y : Nat) (s : State) : State :=
  let key := stopKey die x y
  if (mget {} s.fab.stop key).at_ = s.clk.now + 1 then s
  else (List.range 5).foldl (serveOutput die x y) (absorbAll die key (replicate die key (stopServed key s)))

/-- ROUTER_FORWARD (R299). -/
def execRouterForward (die x y : Nat) (s : State) : Host.Outcome State Fault Refusal :=
  guarded (okDie die && decide (x < 12) && decide (y < 8)) "stop" (routerForward die x y) s

/-! ### Controllers' cells -/

/-- The EXTERN cells of a range of committed rows (R309). -/
def externCells (s : State) (die region off rows dmod : Nat) : List FCell :=
  match regionAt s region with
  | none => []
  | some r =>
    if r.kind ≠ 1 ∧ r.kind ≠ 2 ∨ r.size < off + 128 * rows then []
    else
      let data := (List.range (128 * rows)).map fun a => committedByte s region r (off + a)
      let parts := chunksOf 48 data.length data
      (List.range parts.length).map fun k =>
        let b := parts.getD k []
        sealCell (srcId (ownMod s) (0xFE + die) 0) (mkHdr dmod (0xFE + die) 0 14 1 0 b.length k) (leNat b)

/-- An EXTERN transfer is made. -/
def externSend (x : Nat × Nat × Nat × Nat × Nat) (s : State) : State :=
  (externCells s x.1 x.2.1 x.2.2.1 x.2.2.2.1 x.2.2.2.2).foldl (fun s c => ctlSend x.1 0 c s) s

/-- EXTERN_TRANSFER (R309): while ticks run it waits for the watershed. -/
def externTransfer (die region off rows dmod : Nat) (s : State) : State :=
  let x := (die, region, off, rows, dmod % 65536)
  if s.clk.run then { s with host := { s.host with ext := s.host.ext ++ [x] } } else externSend x s

/-- EXTERN_TRANSFER (R309). -/
def execExternTransfer (die region off rows dmod : Nat) (s : State) : Host.Outcome State Fault Refusal :=
  guarded (okDie die) "die" (externTransfer die region off rows dmod) s

/-- A controller has taken a cell. -/
def takeSvc (die : Nat) (c : FCell) (s : State) : State :=
  { s with fab := { s.fab with svc := mput die ((mget [] s.fab.svc die).erase c) s.fab.svc } }

/-- A controller checks a cell's ECRC with the source in its payload (R292, R293). -/
def ctlCellOk (c : FCell) : Bool := decide (cEcrc c = ecrcOf (cPay c 0 6) c.hdr c.pay)
/-- A controller checks an EXTERN cell's ECRC with a controller of module `src`, which it expects the cell from (R292, R293;
notes/assumptions/68.md). -/
def externOk (src : Nat) (c : FCell) : Bool := [0xFE, 0xFF].any fun p => decide (cEcrc c = ecrcOf (srcId src p 0) c.hdr c.pay)

/-- EXTERN_ARRIVAL (R309): an external record joins the part of the controller's die in the batch of the slot. -/
def externArrival (die src : Nat) (c : FCell) (s : State) : State :=
  let s1 := takeSvc die c s
  if cType c ≠ 14 ∨ cValid c = 0 ∨ ¬ externOk src c ∨ ¬ s.clk.run then s1
  else { s1 with cmt := { s1.cmt with jnl := s1.cmt.jnl.map fun e =>
    if e.die = die ∧ e.slot = s.clk.num then { e with pkts := e.pkts ++ [((cBytes c).take (cValid c), true)] } else e } }

/-- EXTERN_ARRIVAL (R309). -/
def execExternArrival (die src : Nat) (c : FCell) (s : State) : Host.Outcome State Fault Refusal :=
  guarded (okDie die) "die" (externArrival die src c) s

/-- SERVICE_CELL_ARRIVAL (R290, R293, R402): the oldest SERVICE cell is taken; a good one triggers an exit from T2 or T3. -/
def serviceArrival (die : Nat) (s : State) : State :=
  match (mget [] s.fab.svc die).find? fun c => decide (cType c = 12) with
  | none => s
  | some c =>
    let s1 := takeSvc die c s
    if ctlCellOk c then trigger .serviceCell s1 else s1

/-- SERVICE_CELL_ARRIVAL (R402). -/
def execServiceCellArrival (die : Nat) (s : State) : Host.Outcome State Fault Refusal := guarded (okDie die) "die" (serviceArrival die) s

/-- SADDLE_SPARE_LANE (R450): up to 8 in use. -/
def execSaddleSpareLane (s : State) : Host.Outcome State Fault Refusal :=
  .next (if s.pwr.spares < 8 then irqRaise (sdlPage / 0x1000) 1 { s with pwr := { s.pwr with spares := s.pwr.spares + 1 } } else s)

end Sys2Proof.Machine
end

