-- ==== Sys2Proof/Machine/Tick.lean ====
section
/-! DEFINITION. What an lc brings to a core: the steps and writes of its units, its signals, counters and objects (R82, R99, R259, R433),
and when the body of a tick has ended (R24). -/
namespace Sys2Proof.Machine

/-- Amounts whose lc has passed enter the counters that select their event (R433). -/
def settleCounts (now : Nat) (x : Pcnt) : Pcnt :=
  let due := x.due.filter fun d => decide (d.1 ≤ now)
  let val := (List.range 16).foldl (fun m n =>
    let k : Nat := due.foldl (fun a d => if d.2.1 = mget 0 x.sel n then a + d.2.2 else a) 0
    if k = 0 then m else mset 0 n ((mget 0 m n + k) % 2 ^ 48) m) x.val
  { x with val := val, due := x.due.filter fun d => decide (now < d.1) }

/-- The body of a broadcast core runs in this lc (R433 code 1). -/
def inBody (s : State) (c : Core) : Bool :=
  s.clk.run && s.cmt.ran && s.clk.bodyEnd.isNone && decide (c.mode = .broadcast) && decide (c.lidx ≠ 0xFF)

/-- Events counted per lc: body lc, and the units' waiting lc (R433 codes 1, 9, 10). -/
def lcEvents (s : State) (p : Nat) : State :=
  let c := coreAt s p
  let s1 := countAt p s.clk.now 1 (b2n (inBody s c)) s
  let waits := (List.range 5).any fun u => match unitQ c (u + 1) with
    | i :: _ => !hasStarted c s.clk.now (u + 1) && !justCame c s.clk.now (u + 1) && !waitsMet c.obj i
    | [] => false
  let s2 := countAt p s.clk.now 9 (b2n waits) s1
  countAt p s.clk.now 10 (b2n (decide (arrayState s p ≠ 0))) s2

/-- Counters take the events whose lc is over, and the banks' accesses of the lc are done with (R199, R433). -/
def closeLc (p : Nat) (s : State) : State :=
  updCore p (fun c => { c with pc := settleCounts s.clk.now c.pc, bsn := { c.bsn with blog := [] } }) s

/-- What one lc brings to core p: its units' steps and writes, a row for a `PUACC`, role changes, signals, events, counters, fords and
barriers; then the additions and subtractions of the lc reach the objects, and a core reset that waited may complete. -/
def coreLc (p : Nat) (s : State) : State :=
  let s1 := settleCen p (s.clk.now + 1) (accLc p (coreWork p s))
  let s2 := fireDue p (roleDue p s1)
  resetLc p (endObjs p (barLc p (fordLc p (closeLc p (lcEvents s2 p)))))

/-- A core has nothing queued, nothing running and no signal to come (R24). -/
def coreDrained (now : Nat) (c : Core) : Bool :=
  c.q.all (fun u => u.2.isEmpty) && c.busy.all (fun r => decide (r.2 ≤ now)) && c.sigs.isEmpty && c.pu.run.isNone
    && c.job.work.isEmpty && c.job.late.isEmpty

/-- The body has ended on every dale (R24). -/
def bodyOver (s : State) : Bool :=
  s.dales.all (fun d => decide (d.2.st = 3 ∨ d.2.st = 0) && d.2.flight.isEmpty)
    && s.cores.all fun c => decide (c.2.mode ≠ .broadcast) || coreDrained s.clk.now c.2

/-- A warm bridge runs while its slot is before the commit zone (R363). -/
def bridgeLc (s : State) : State :=
  if s.clk.run ∧ s.phase.st = 3 ∧ ¬ s.phase.cold ∧ npNow s < slotN s s.clk.fop - slotZ s then
    { s with phase := { s.phase with left := s.phase.left - 1 } }
  else s

/-- A die has a region that stretches its period (R31, R437): counted once per period and die. -/
def stretched (s : State) : State :=
  [0, 1].foldl (fun s die => if s.clk.regions.any fun r => decide (r.1 / 32 = die ∧ stretchOf r.2.margin ≠ 0) then gcount 8 die 1 s else s) s

/-- Lc that dales spend at holds (R49). -/
def holdLcs (s : State) : State :=
  { s with dales := s.dales.map fun d => (d.1, if d.2.st = 2 then { d.2 with holdLc := d.2.holdLc + 1 } else d.2) }

/-- The body ends in this lc, once it has on every dale (R24). -/
def noteBodyEnd (s : State) : State :=
  if s.clk.run ∧ s.cmt.ran ∧ s.clk.bodyEnd = none ∧ bodyOver s then { s with clk := { s.clk with bodyEnd := some s.clk.lc } } else s

/-- Logical and wall time go on by one lc, which took q quarters of a nominal period (R20, R21, R31, R33). -/
def timePasses (q : Nat) (s : State) : State :=
  { s with clk := { s.clk with
      now := s.clk.now + 1
      lc := if s.clk.run then s.clk.lc + 1 else s.clk.lc
      npq := if s.clk.run then s.clk.npq + q else s.clk.npq
      wall := s.clk.wall + q * fopQuarter s.clk.fop } }

end Sys2Proof.Machine
end

