-- ==== Sys2Proof/Machine/Commit.lean ====
section
/-! DEFINITION. The commit zone and its checks (R24, R37 to R39, R211, R245, R262, R348, R349), the commit-domain vote (R372 to R376), the
watershed (R377 to R379, R350, R353), escalation, fences and reload (R387 to R393). -/
namespace Sys2Proof.Machine

/-! ### The commit zone -/

/-- The watch table is in use (R347, R357). -/
def watchOn (s : State) : Bool := decide (fieldAt s (cmtPage + 0x300) 0 1 = 1)
/-- A watch entry's fields (R347): dales, SEQ, STRICT, STRICT_NF, VALID and the three thresholds. -/
def wEnt (s : State) (k : Nat) : Nat := (mget 0 s.task.watch k).toNat
def wDales (n : Nat) : Nat := bfield n 0 12
def wSeq (n : Nat) : Nat := bfield n 12 16
/-- Slots whose entry is valid. -/
def watchSlots (s : State) : List Nat := if watchOn s then (List.range 256).filter fun k => bbit (wEnt s k) 30 else []
/-- The census records that an entry watches (R348). -/
def watchRows (s : State) (n : Nat) : List (List Nat) :=
  (s.cmt.cen.filter fun c => bbit (wDales n) (daleOf c.1) && holdsIndex (coreAt s c.1) && decide (c.2.1 = wSeq n)).map (·.2.2)
/-- Sums of ZERO, SAT, NAN, INF and ELEMS. -/
def sumRows (l : List (List Nat)) : List Nat := (List.range 5).map fun k => l.foldl (fun a r => a + r.getD k 0) 0
/-- The core at the lowest logical index in an entry's dales. -/
def lowestIn (s : State) (n : Nat) : Nat :=
  match (List.range 192).filterMap fun l => (physOf s l).filter fun p => bbit (wDales n) (daleOf p) with
  | p :: _ => p
  | [] => 0
/-- The sums of a slot fail its strict conditions (R349). -/
def slotFails (n : Nat) (l : List Nat) : Bool :=
  (bbit n 28 && decide (l.getD 1 0 ≠ 0)) || (bbit n 29 && decide (l.getD 2 0 ≠ 0 ∨ l.getD 3 0 ≠ 0))

/-- A slot's watch sums, its failing bit and its missing-census fault (R348, R349). -/
def watchSlot (s : State) (k : Nat) : State :=
  let n := wEnt s k
  let rows := watchRows s n
  let sums := sumRows rows
  let s1 := { s with cmt := { s.cmt with
    sums := mput k sums s.cmt.sums
    failing := if slotFails n sums then s.cmt.failing ||| (1 <<< k) else s.cmt.failing } }
  if rows.isEmpty then progFault 0x20 (lowestIn s n) (note (.set (cmtPage + 0x31C) (1 <<< 25)) s1) else s1
/-- All watch slots; a failing one makes the tick not clean (R349). -/
def watchAll (s : State) : State :=
  let s1 := (watchSlots s).foldl watchSlot s
  if s1.cmt.failing = 0 then s1 else markSrc 9 s1

/-- Contexts still bound are closed, each an unclosed stream (R245). -/
def closeStreams (p : Nat) (s : State) : State :=
  foldN 16 (fun s n => if (ctxAt (coreAt s p) n).state = 0 then s else progFault 0x16 p (feStat p 4 (closeCtx p n s))) s
/-- Endpoints still open are closed (R264). -/
def closeEps (p : Nat) (s : State) : State :=
  updCore p (fun c => { c with ch := { c.ch with ep := c.ch.ep.map fun e => (e.1, if 1 ≤ e.2.st ∧ e.2.st ≤ 3 then { e.2 with st := 0 } else e.2) } }) s
/-- The band ledger must be 0 (R188); the register shows it from the watershed on. -/
def bandCheck (p : Nat) (s : State) : State :=
  let b := (coreAt s p).vx.band
  let s1 := note (.put (corePage p + 0x54) 0 32 b) s
  if b = 0 then s1 else progFault 0x0E p (vxFlt p 2 s1)
/-- Disagreeing pairs of a handle bank are repaired: from an image's entries, PHASE as the entry has it, or, in a bank that no image is in,
from the entry as it was written last. -/
def repairPairs (img : Option Loaded) (id bank : Nat) (b : Bsn) : Bsn :=
  foldN 64 (fun b1 i =>
    let w := mget (0 : W64) b.hnd (bank * 64 + i)
    if mget (BitVec.allOnes 64) b.hndC (bank * 64 + i) = ~~~ w then b1
    else setHnd bank i (match img with
      | none => w
      | some im =>
        let src := (ownedHnds im id).getD i 0
        BitVec.ofNat 64 (if bbit w.toNat 44 then bset src.toNat 44 else src.toNat)) b1) b
/-- The scrubber's pass over both handle banks (R211). -/
def scrubPairs (p : Nat) (s : State) : State :=
  updCore p (fun c =>
    let b := repairPairs s.task.img s.task.id c.bsn.hsel c.bsn
    { c with bsn := repairPairs s.phase.img s.task.id (1 - c.bsn.hsel) b }) s
/-- What a core does as the commit zone opens: every core's endpoints close (R264), and a core of the task checks what it holds. -/
def coreZone (p : Nat) (s : State) : State :=
  let c := coreAt s p
  if !holdsIndex c || decide (c.mode ≠ .broadcast) then closeEps p s
  else scrubPairs p (flagAudit p (closeEps p (bandCheck p (closeStreams p s))))

/-- The commit-zone work of a run: dales stop, cores check, faults make the tick not clean (R24, R372, R373, R394). -/
def zoneWork (s : State) : State :=
  let s1 := watchAll (eachCore coreZone s)
  let s2 := { s1 with clk := { s1.clk with zone := true }, cmt := { s1.cmt with zoned := true } }
  if s2.cmt.faults.isEmpty then s2 else markSrc 12 s2
/-- The run is abandoned: its queues empty, its dales stop (R39). -/
def abandon (s : State) : State :=
  markSrc 14 (markSrc 13 { s with
    dales := s.dales.map fun (d : Nat × Dale) => (d.1, { d.2 with st := 3, flight := [], hold := none, reps := [] })
    cores := s.cores.map fun (c : Nat × Core) => (c.1, if c.2.mode = .broadcast then { c.2 with q := [] } else c.2) })
/-- Errors of the zone's own reads strike the handle pairs of cores (R211); an item of R395 that nothing repairs sets COMPL. -/
def zoneErrors (ev : List HwEvent) (s : State) : State :=
  ev.foldl (fun s e => match e with
    | .hndCmp p bank i => updCore p (fun c => { c with bsn := { c.bsn with
        hndC := mset (BitVec.allOnes 64) (bank % 2 * 64 + i % 64) (mget (0 : W64) c.bsn.hnd (bank % 2 * 64 + i % 64)) c.bsn.hndC } }) s
    | .tableCmp => markSrc 3 s
    | _ => s) s
/-- A dale stopped issuing at a bad word: its run is no overrun (R37, R46). -/
def imemStopped (s : State) : Bool := s.dales.any fun d => decide (d.2.stopped = 2)
/-- COMMIT_ZONE_OPEN (R24, R37 to R39): the zone opens, or a body that has not ended overruns, once. A tick that has broken H or V and whose
body has ended in time is no overrun (DESIGN CHOICE, notes/assumptions/65.md). -/
def zoneOpen (ev : List HwEvent) (s : State) : State :=
  if ¬ s.clk.run ∨ s.clk.zone ∨ npNow s < slotN s s.clk.fop - slotZ s then s
  else if ¬ s.cmt.ran ∨ s.cmt.zoned then { s with clk := { s.clk with zone := true } }
  else if s.clk.bodyEnd.isSome ∨ imemStopped s then zoneWork (zoneErrors ev s)
  else if bbit s.cmt.src 13 then s
  else if s.clk.overrun then zoneWork (abandon (zoneErrors ev s))
  else
    let recent := (s.clk.overruns.filter fun t => decide (s.clk.num < t + 1024)) ++ [s.clk.num]
    markSrc 13 (note (.add (tckPage + 0x58) 0 32 1) (note (.set (tckPage + 0x10) (1 <<< 2))
      { s with clk := { s.clk with overrun := true, overruns := recent, quiet := 0 } }))
/-- COMMIT_ZONE_OPEN (R24). -/
def execCommitZoneOpen (ev : List HwEvent) (s : State) : Host.Outcome State Fault Refusal := .next (zoneOpen ev s)

/-! ### The vote -/

/-- Children of this module in the tree (R374). -/
def childrenOf (s : State) : List Nat :=
  let f := fieldAt s (cmtPage + 0x24) 0 7
  ((List.range f).map fun k => f * s.task.modIdx + k + 1).filter fun c => decide (c < fieldAt s (cmtPage + 0x24) 7 16)
/-- The parent of a module other than the root (R374). -/
def parentOf (s : State) : Nat := (s.task.modIdx - 1) / max 1 (fieldAt s (cmtPage + 0x24) 0 7)
/-- This module is the root. -/
def isRoot (s : State) : Bool := decide (s.task.modIdx = 0)
/-- A task is loaded on a module that is not lost. -/
def votes (s : State) : Bool := s.clk.run && s.task.img.isSome && !s.pwr.lost
/-- FLAGS of a VOTE cell (R374). -/
def voteFlags (v : Vote) (verdict : Bool) : Nat :=
  b2n v.notrun + 2 * b2n verdict + 4 * (v.kind % 4) + 16 * b2n v.counted + 32 * b2n v.correct + 64 * b2n v.escal
/-- A VOTE cell to a logical module (R374). -/
def voteCell (s : State) (v : Vote) (verdict : Bool) (to_ : Nat) : FCell :=
  let src := srcId (ownMod s) 0xFE 0
  sealCell src (mkHdr (hwOf s to_) 0xFE 0 11 3 0 48 0) (src + v.slot % 2 ^ 48 * 2 ^ 48 + v.src.toNat * 2 ^ 96
    + voteFlags v verdict * 2 ^ 112 + v.run % 256 * 2 ^ 120 + v.slots.toNat * 2 ^ 128)
/-- The vote or verdict that a VOTE cell carries, and whether it is a verdict. -/
def voteOf (s : State) (c : FCell) : Vote × Bool :=
  let f := cPay c 14 1
  ({ child := logOf s (cPay c 0 2), slot := cPay c 6 6, src := BitVec.ofNat 16 (cPay c 12 2), notrun := bbit f 0, kind := bfield f 2 2
     counted := bbit f 4, correct := bbit f 5, escal := bbit f 6, run := cPay c 15 1, slots := BitVec.ofNat 256 (cPay c 16 32) }, bbit f 1)
/-- The cell at the controller that carries a vote or verdict, where it has come by one. -/
def voteCellOf (v : Vote) (verdict : Bool) (s : State) : Option FCell :=
  (mget [] s.fab.svc 0).find? fun c => decide (cType c = 11) && decide (voteOf s c = (v, verdict))
/-- The controller takes that cell. -/
def takeVote (v : Vote) (verdict : Bool) (s : State) : State :=
  match voteCellOf v verdict s with
  | some c => takeSvc 0 c s
  | none => s
/-- The cell passes the check that its destination makes (R292). -/
def voteOk (v : Vote) (verdict : Bool) (s : State) : Bool := (voteCellOf v verdict s).all ctlCellOk
/-- This module's own vote (R372 to R374). -/
def ownVote (s : State) : Vote :=
  { child := s.task.modIdx, slot := s.clk.num, src := BitVec.ofNat 16 s.cmt.src, notrun := !s.cmt.ran
    run := if s.cmt.ran then s.cmt.run else 0, slots := s.cmt.failing }
/-- Two votes combined (R374). -/
def joinVotes (a b : Vote) : Vote :=
  { a with src := a.src ||| b.src, notrun := a.notrun || b.notrun, slots := a.slots ||| b.slots, run := max a.run b.run }
/-- The combined vote, where this module has voted. -/
def combined (s : State) : Option Vote := s.cmt.own.map fun v => s.cmt.votes.foldl joinVotes v
/-- Children whose vote of this slot is missing. -/
def missingKids (s : State) : List Nat := (childrenOf s).filter fun c => !(s.cmt.votes.any fun v => decide (v.child = c))
/-- An inner module with all its votes sends the combined one to its parent (R374). -/
def passUp (s : State) : State :=
  match combined s with
  | some v => if isRoot s || !(missingKids s).isEmpty then s else ctlSend 0 3 (voteCell s v false (parentOf s)) s
  | none => s
/-- VOTE_SEND (R373): 512 nominal periods into the zone. -/
def voteSend (s : State) : State :=
  if !votes s || s.cmt.voted || !(s.clk.zone || bbit s.cmt.src 13) || decide (npNow s < slotN s s.clk.fop - slotZ s + 512) then s
  else passUp { s with cmt := { s.cmt with voted := true, own := some (ownVote s) } }
/-- VOTE_SEND (R373). -/
def execVoteSend (s : State) : Host.Outcome State Fault Refusal := .next (voteSend s)
/-- A verdict goes to children (R375, R379). -/
def sendVerdict (v : Vote) (to_ : List Nat) (s : State) : State := to_.foldl (fun s c => ctlSend 0 3 (voteCell s v true c) s) s
/-- The verdict kept from the slot before, for a child in doubt (R379). -/
def resendLast (v : Vote) (s : State) : State :=
  match s.cmt.last with
  | some l => if v.notrun ∧ l.slot + 1 = s.clk.num then sendVerdict l [v.child] s else s
  | none => s
/-- VOTE_ARRIVAL (R374, R379): a child's vote of this slot joins. -/
def voteArrival (v : Vote) (s : State) : State :=
  let s0 := takeVote v false s
  if !voteOk v false s || !votes s || !(childrenOf s).contains v.child || decide (v.slot ≠ s.clk.num) || s.cmt.votes.any (fun x => decide (x.child = v.child)) then s0
  else passUp (resendLast v { s0 with cmt := { s0.cmt with votes := s0.cmt.votes ++ [v] } })
/-- VOTE_ARRIVAL (R374). -/
def execVoteArrival (v : Vote) (s : State) : Host.Outcome State Fault Refusal := .next (voteArrival v s)
/-- This slot's verdict is held, or has been applied. -/
def decidedSlot (s : State) : Bool := s.cmt.verdict.isSome || s.cmt.last.any fun v => decide (v.slot = s.clk.num)
/-- VOTE_CUTOFF (R376): the root marks VOTE and the first missing child. -/
def voteCutoff (s : State) : State :=
  let miss := missingKids s
  let cut := slotN s s.clk.fop - slotZ s + fieldAt s (cmtPage + 0x28) 0 16
  if !votes s || !isRoot s || decidedSlot s || decide (npNow s < cut) || miss.isEmpty || !s.cmt.missNow.isEmpty then s
  else
    let s1 := { s with cmt := { s.cmt with
      missNow := miss, own := s.cmt.own.map fun v => { v with src := v.src ||| (1 <<< 11) }
      src := if s.cmt.voted then s.cmt.src else bset s.cmt.src 11 } }
    if bbit (regAt s1 (cmtPage + 0x34)) 16 then s1 else setReg (cmtPage + 0x34) (miss.headD 0 % 2 ^ 16 + 2 ^ 16) s1
/-- VOTE_CUTOFF (R376). -/
def execVoteCutoff (s : State) : Host.Outcome State Fault Refusal := .next (voteCutoff s)

/-! ### The verdict -/

/-- What the rule table reads besides the combined vote. -/
structure RuleCtx where
  held : Bool
  again : Bool
  resume : Bool
  deriving DecidableEq, Repr
/-- The verdict by the first matching row (R375); a fourth counted run escalates, a resume discards uncounted (R389). -/
def ruleOf (x : RuleCtx) (v : Vote) : Vote :=
  let n := v.src.toNat
  let base : Vote := { v with kind := 0, counted := false, correct := false, escal := false }
  if bbit n 13 && !bbit n 14 then { base with kind := 2 }
  else if x.held && x.resume then { base with kind := 1 }
  else if x.held || x.again then { base with kind := 3 }
  else if v.notrun || bbit n 11 then { base with kind := 1 }
  else if bbit n 15 || bbit n 10 then { base with kind := 3 }
  else if n % 128 ≠ 0 || bbit n 14 then
    (if 4 ≤ v.run then { base with kind := 3, escal := true } else { base with kind := 1, counted := true })
  else if bbit n 7 then { base with kind := 1 }
  else if bbit n 12 || bbit n 8 then { base with kind := 3 }
  else if bbit n 9 then { base with kind := 1, correct := true }
  else base
/-- The root's view for the rules (R375, R391). -/
def ruleCtx (s : State) : RuleCtx :=
  { held := decide (s.cmt.st = 1 ∨ s.cmt.st = 3), again := s.cmt.missNow.any fun c => s.cmt.missPrev.contains c, resume := s.cmt.resume }
/-- The verdict is held for the slot and goes down the tree (R375, R376, R397). -/
def takeVerdict (v : Vote) (s : State) : State :=
  let lat := npNow s - (slotN s s.clk.fop - slotZ s)
  sendVerdict v (childrenOf s) <| setReg (cmtPage + 0x3C) (min 65535 lat) <| setReg (cmtPage + 0x30) v.src.toNat
    <| setField (cmtPage + 0x2C) 5 3 v.run <| setField (cmtPage + 0x2C) 3 2 v.kind { s with cmt := { s.cmt with verdict := some v } }
/-- VERDICT_DECIDE (R375): the root, with every vote in or past the cut-off. -/
def verdictDecide (s : State) : State :=
  match combined s with
  | none => s
  | some v =>
    if !votes s || !isRoot s || decidedSlot s || !((missingKids s).isEmpty || !s.cmt.missNow.isEmpty) then s
    else
      let d := ruleOf (ruleCtx s) v
      takeVerdict d (if (ruleCtx s).held then { s with cmt := { s.cmt with resume := false } } else s)
/-- VERDICT_DECIDE (R375). -/
def execVerdictDecide (s : State) : Host.Outcome State Fault Refusal := .next (verdictDecide s)
/-- VERDICT_ARRIVAL (R375, R379): the verdict of this slot, or the one resent for the slot in doubt. -/
def verdictArrival (v : Vote) (s : State) : State :=
  let s0 := takeVote v true s
  if !voteOk v true s || !votes s || isRoot s then s0
  else if v.slot = s.clk.num ∧ ¬ decidedSlot s ∧ npNow s < slotN s s.clk.fop - 32 then takeVerdict v s0
  else if s.cmt.inDoubt ∧ v.slot = s.cmt.doubtSlot ∧ s.cmt.doubtV = none then
    sendVerdict v (childrenOf s) { s0 with cmt := { s0.cmt with doubtV := some v } }
  else s0
/-- VERDICT_ARRIVAL (R375). -/
def execVerdictArrival (v : Vote) (s : State) : Host.Outcome State Fault Refusal := .next (verdictArrival v s)

/-! ### Fences -/

/-- A fence entry of the slot's record (R383): kind and identifier. -/
def fenceEntry (kind id : Nat) (s : State) : State :=
  { s with cmt := { s.cmt with fences := s.cmt.fences ++ [BitVec.ofNat 64 (kind + id * 16)] } }
/-- What a fence does to a core: its array is cold, and it leaves broadcast mode at the next boundary (R68, R156, R391). -/
def fencedCore (c : Core) : Core :=
  { c with
    fenced := true, mx := { c.mx with lastE := none, up := none, down := none }
    modeNext := if c.mode = .broadcast then some .threaded else c.modeNext }
/-- A core is fenced: it runs on to the end of its tick, its array cold, and the fence table follows at the boundary (R68, R156, R306,
R389). -/
def fenceCore (p : Nat) (s : State) : State :=
  if (coreAt s p).fenced then s
  else
    let s1 := updCore p fencedCore s
    fenceEntry 1 p { s1 with fab := { s1.fab with fcoreNext := s1.fab.fcoreNext ++ [s.sec.modid * 192 + p] } }
/-- The pseudo-channel of a unit: its lane's, counted over unfenced ones (R228). -/
def unitPc (s : State) (key : Nat) : Nat × Nat :=
  let x := unitPlace s (key / 2 ^ 40) (key % 2 ^ 40)
  (x.1, ((List.range 32).filter fun j => !bbit (mget 0 s.hbm.pcf x.1) j).getD x.2.1 31)
/-- A pseudo-channel is fenced, which loses the module (R252, R256, R388, R391). -/
def fencePc (s : State) (key : Nat) : State :=
  let x := unitPc s key
  if bbit (mget 0 s.hbm.pcf x.1) x.2 then s
  else
    let s1 := { s with hbm := { s.hbm with pcf := mput x.1 (bset (mget 0 s.hbm.pcf x.1) x.2) s.hbm.pcf }, pwr := { s.pwr with lost := true } }
    fenceEntry 3 (32 * x.1 + x.2) (irqRaise (hbmPage x.1 / 0x1000) (1 <<< 1) s1)
/-- An event of the run set a bit of a register. -/
def struckBit (s : State) (a bit : Nat) : Bool := s.evts.any fun e => match e with | .set x m => decide (x = a) && bbit m bit | _ => false
/-- Fences that a persistent fault of this module calls for (R219, R252, R389): cores without a spare row, units that failed again. -/
def fencePersistent (s : State) : State :=
  let cores := (List.range 192).filter fun p => struckBit s (corePage p + 0x64) 6
  let units := s.hbm.ueRun.filter fun k => s.hbm.ueSeen.contains k
  units.foldl fencePc (cores.foldl (fun s p => fenceCore p s) s)
/-- Fences of an escalation, by this module's own sources (R388). -/
def fenceEscalated (own : Nat) (s : State) : State :=
  let array := (List.range 192).filter fun p => (bbit own 0 && struckBit s (corePage p + 0x10) 2) || (bbit own 1 && struckBit s (corePage p + 0x10) 3)
  let imem := if bbit own 2 then (List.range 192).filter fun p => decide ((daleAt s (daleOf p)).stopped = 2) else []
  let units := if bbit own 2 then s.hbm.ueRun else []
  let ports := if bbit own 5 then (List.range 24).filter fun n => struckBit s (lnkPage n + 0x10) 0 else []
  units.foldl fencePc (ports.foldl (fun s n => fencePort n s) ((array ++ imem).foldl (fun s p => fenceCore p s) s))

/-! ### The watershed -/

/-- Places an egress record by ascending sequence. -/
def insEgr (e : Egr) : List Egr → List Egr
  | [] => [e]
  | x :: t => if e.seq < x.seq then e :: x :: t else x :: insEgr e t
/-- The tick's records in release order (R337). -/
def egrOrder (s : State) : List Egr := s.host.egr.foldl (fun l e => insEgr e l) []
/-- The ring record of an egress record, its RSEQ 0 (R321, R337). -/
def egrBytes (slot : Nat) (e : Egr) : List Byte := ringRec 1 slot e.seq e.rows
/-- EG_DIG (R382, R420). -/
def egDig (slot : Nat) (s : State) : List Byte := shake256 ((egrOrder s).flatMap (egrBytes slot))
/-- A committed record on its way to the ring that its declaration names (R336, R338). -/
def relOf (s : State) (slot : Nat) (e : Egr) : Option RelRec :=
  match s.task.img with
  | none => none
  | some im => (im.egrs.find? fun d => decide (d.lo ≤ e.seq ∧ e.seq ≤ d.hi)).map fun d => ⟨d.port, d.ring, d.alt, e.die, egrBytes slot e⟩
/-- Step 1 of R377, and the record of a discarded run (R378): outcome, sources, sections, digests. -/
def closeRecord (slot outcome : Nat) (late : Bool) (v : Vote) (s : State) : State :=
  let ok := decide (outcome = 1)
  let secs := runSecs ok s
  let dig := if ok then egDig slot s else []
  updRecs slot (fun e => { e with
    npk := runPkts s e.die, inDig := runInDig s e.die
    hdr := { e.hdr with outcome := outcome, run := s.cmt.run, src := v.src.toNat, egDig := dig, secs := e.hdr.secs ++ secs
                        flags := e.hdr.flags % 4 + 32 * b2n late } }) s
/-- The flip tables with the recorded flips made (R238, R364). -/
def flipPages (s : State) : State :=
  { s with hbm := { s.hbm with
      cur := s.hbm.flips.foldl (fun m p => mset false p (!(mget false m p)) m) s.hbm.cur
      blank := s.hbm.blank.filter fun b => !s.hbm.flips.contains b, flips := [] } }
/-- EXTERN transfers that wait on this tick leave, with its data (R309). -/
def sendExterns (s : State) : State :=
  let seen := flipPages s
  s.host.ext.foldl (fun s x => (externCells seen x.1 x.2.1 x.2.2.1 x.2.2.2.1 x.2.2.2.2).foldl (fun s c => ctlSend x.1 0 c s) s)
    { s with host := { s.host with ext := [] } }
/-- What fires of a watch slot: ZERO, SAT, NAN + INF, corrected (R353). -/
def alertCause (s : State) (k : Nat) : Nat :=
  let n := wEnt s k
  let l := mget [] s.cmt.sums k
  let el := l.getD 4 0
  let fires := fun (count t : Nat) => decide (el ≠ 0 ∧ t ≠ 0 ∧ t * el < count * 65536)
  b2n (fires (l.getD 0 0) (bfield n 32 16)) + 2 * b2n (fires (l.getD 1 0) (bfield n 48 16))
    + 4 * b2n (fires (l.getD 2 0 + l.getD 3 0) (bfield n 64 16)) + 8 * b2n (decide (mget 0 s.cmt.corr k ≠ 0))
/-- A census alert record (R353). -/
def alertBytes (s : State) (slot k cause : Nat) : List Byte :=
  let l := mget [] s.cmt.sums k
  ringRec 3 0 0 (leBytes 2 k ++ leBytes 2 (wSeq (wEnt s k)) ++ leBytes 1 cause ++ leBytes 1 (256 - mget 0 s.cmt.corr k) ++ leBytes 2 0
    ++ leBytes 6 slot ++ leBytes 2 0 ++ leBytes 8 (l.getD 4 0) ++ leBytes 8 (l.getD 0 0) ++ leBytes 8 (l.getD 1 0)
    ++ leBytes 8 (l.getD 2 0 + l.getD 3 0))
/-- Census alerts of a committed tick (R353). -/
def sendAlerts (slot : Nat) (s : State) : State :=
  let a := cmtPage + 0x300
  (watchSlots s).foldl (fun s k =>
    let cause := alertCause s k
    if cause = 0 then s
    else pushRing (portOf (fieldAt s a 16 1 = 1)) (fieldAt s a 5 11) 2 (alertBytes s slot k cause) (satField (cmtPage + 0x320) 0 32 1 s)) s
/-- A new watershed: no ring has advanced in it yet (R323). -/
def ringsStill (s : State) : State :=
  let still := fun (h : HPort) => { h with rings := h.rings.map fun r => (r.1, { r.2 with moved := false }) }
  updHp .b still (updHp .a still s)
/-- Step 3 of R377: egress, staging copy, alerts and EXTERN transfers start. -/
def startRelease (slot : Nat) (s : State) : State :=
  let s1 := ringsStill s
  let s2 := { s1 with host := { s1.host with
    rel := s1.host.rel ++ (egrOrder s).filterMap (relOf s slot), egr := []
    copy := s1.host.copy ++ s1.host.ovw, ovw := [] } }
  sendExterns (sendAlerts slot (releaseEgress s2.host.rel s2))
/-- A core's host-visible snapshot (R226, R280, R436), and its tick's logs done (R118, R385). -/
def coreSnap (s : State) (p : Nat) (c : Core) : Core :=
  { c with
    pubObj := c.obj, pubEp := c.ch.ep, pubEpoch := c.ch.epoch, pubFord := (List.range 16).filter (fordOpen s p), vlog := [], vold := []
    pc := if c.pc.ended then { c.pc with pub := c.pc.fin, pubSeq := c.pc.finSeq, ended := false } else c.pc }
/-- Counts that R437 names and no rule fixes: trace and service beats, saddle words, energy. -/
def activityCounts (s : State) : State :=
  let l := ((List.range 8).map fun k => (2, k)) ++ [(6, 0), (6, 1), (7, 0), (7, 1)]
  l.foldl (fun s x => drawn (gcount x.1 x.2 (Config.activity s.fresh).toNat s)) s
/-- Step 4 of R377: snapshots (R280, R436, R437, R451). -/
def snapshots (s : State) : State :=
  let s1 := activityCounts (gcount 10 0 1 s)
  { s1 with
    cores := s1.cores.map fun (c : Nat × Core) => (c.1, coreSnap s1 c.1 c.2)
    fab := { s1.fab with pubArr := s1.fab.barArr, pubPhase := s1.fab.barPhase }
    trc := { s1.trc with gpub := s1.trc.gval } }
/-- The tick link of the audit chain (R420). -/
def tickLink (slot : Nat) (s : State) : State :=
  addLink slot (leBytes 1 1 ++ leBytes 6 slot ++ leBytes 6 s.cmt.batch ++ leBytes 1 (if s.cmt.two then 2 else 1)
    ++ runInDig s 0 ++ runInDig s 1 ++ egDig slot s) s
/-- Samples of the slot become visible (R431). -/
def showTrace (s : State) : State := { s with trc := { s.trc with vis := s.trc.idx } }
/-- What the tick leaves behind once it has ended for good: nothing recorded against it. -/
def tickOver (s : State) : State :=
  { s with
    clk := { s.clk with overrun := false }
    cmt := { s.cmt with persist := false, fences := [], failing := 0 } }
/-- A tick commits (R377, R208, R238, R333, R350, R385, R390). -/
def commitTick (slot : Nat) (late : Bool) (v : Vote) (s : State) : State :=
  let s1 := closeRecord slot 1 late v (eachCore applyRepairs (publishEvts s))
  let s2 := { s1 with
    hbm := { s1.hbm with flips := s1.hbm.wr, wr := [], ueSeen := [], ueRun := [] }
    cmt := { s1.cmt with committed := true, nextBatch := (s1.cmt.batch + (if s1.cmt.two then 2 else 1)) % 2 ^ 48 } }
  let s3 := showTrace (snapshots (tickLink slot (startRelease slot s2)))
  freeEntries (tickOver { s3 with
    task := { s3.task with restart := false }
    cmt := { s3.cmt with corr := [], decided := false, run := 1 } })

/-- R350: every failing slot's correction is lowered by 1, unless one of them is at the limit. -/
def correctSlots (m : BitVec 256) (s : State) : State :=
  let top := fieldAt s (cmtPage + 0x300) 1 4
  let l := (List.range 256).filter fun k => m.toNat.testBit k
  let s1 := setField (cmtPage + 0x31C) 16 8 (l.headD 0) s
  if l.any fun k => decide (top ≤ mget 0 s.cmt.corr k) then
    let s2 := setBits (cmtPage + 0x31C) (1 <<< 24) s1
    { s2 with cmt := { s2.cmt with srcNext := bset s2.cmt.srcNext 12, faults := s2.cmt.faults ++ [(0x21, 0)] } }
  else
    satField (cmtPage + 0x31C) 0 16 1 { s1 with cmt := { s1.cmt with corr := l.foldl (fun m k => mput k (mget 0 m k + 1) m) s1.cmt.corr } }
/-- The verdict stands on program and audit sources alone (R375 row 7). -/
def programHold (v : Vote) : Bool :=
  let n := v.src.toNat
  !v.escal && !v.notrun && decide (n % 256 = 0) && !bbit n 10 && !bbit n 11 && !bbit n 14 && !bbit n 15 && (bbit n 12 || bbit n 8)
/-- The fences of a HOLD, before the record is written (R388, R389). -/
def holdFences (v : Vote) (s : State) : State :=
  let own := match s.cmt.own with | some o => o.src.toNat | none => 0
  let s1 := if bbit own 15 then fencePersistent s else s
  if v.escal then fenceEscalated own s1 else s1
/-- The held or faulted state (R391, R393, R397); `n` fence entries stood before. -/
def enterHold (v : Vote) (n : Nat) (s : State) : State :=
  let s0 := if v.escal then irqRaise (cmtPage / 0x1000) (1 <<< 4) (satField (cmtPage + 0x38) 16 16 1 s) else s
  let s1 := if v.escal ∧ s0.cmt.fences.length = n then emit (.report 3) s0 else s0
  let s2 := if s.cmt.st = 0 then irqRaise (cmtPage / 0x1000) (1 <<< 1) s1 else s1
  if s.cmt.st = 2 then s2
  else if programHold v then
    (match s2.cmt.faults with
    | f :: _ => taskFault f.1 f.2 s2
    | [] => irqRaise (cmtPage / 0x1000) (1 <<< 2) (setReg64 (cmtPage + 0x5C) s2.cmt.batch { s2 with cmt := { s2.cmt with st := 2 } }))
  else { s2 with cmt := { s2.cmt with st := if kChanged s2 then 3 else 1 } }
/-- A slot without a tick keeps its record's outcome (R382). -/
def closeEmpty (slot : Nat) (v : Vote) (s : State) : State :=
  let secs := if s.cmt.fences.isEmpty then [] else [(4, s.cmt.fences.flatMap fun w => leBytes 8 w.toNat)]
  updRecs slot (fun e => { e with hdr := { e.hdr with src := v.src.toNat, secs := e.hdr.secs ++ secs } }) s
/-- A run is dropped (R378): staging, written bits; the V-log stays. -/
def dropRun (v : Vote) (s : State) : State :=
  { s with
    host := { s.host with egr := [], ovw := [], ext := [] }
    hbm := { s.hbm with wr := [], ueSeen := s.hbm.ueSeen ++ s.hbm.ueRun, ueRun := [] }
    cores := s.cores.map fun (c : Nat × Core) => (c.1, { c.2 with pc := { c.2.pc with ended := false } })
    cmt := { s.cmt with run := if v.counted then s.cmt.run + 1 else s.cmt.run } }
/-- A DISCARD or HOLD verdict is applied (R378, R350, R387 to R391); `ran`: to a run, else to a slot without a tick. -/
def discardTick (slot : Nat) (late ran : Bool) (v : Vote) (s : State) : State :=
  let n := s.cmt.fences.length
  let s1 := if v.kind = 3 then holdFences v s else s
  let s2 := { s1 with cmt := { s1.cmt with failing := if ran then v.slots else 0 } }
  let s3 := showTrace (eachCore applyRepairs (publishEvts (if ran then gcount 11 0 1 (dropRun v (closeRecord slot 2 late v s2)) else closeEmpty slot v s2)))
  let s4 := if v.kind = 1 then irqRaise (cmtPage / 0x1000) 1 (satField (cmtPage + 0x38) 0 16 1 s3) else s3
  let s5 := if v.correct then correctSlots v.slots s4 else s4
  let s6 := if v.kind = 3 then enterHold v n s5
    else if s.cmt.st = 1 then { s5 with cmt := { s5.cmt with st := 0, run := 1 } } else s5
  tickOver s6
/-- The tick's commit moves to the next slot (R37, R378). Only an overrun of the module's own counts in `TCK_OVR_CNT`, among the four of R36
and against its quiet ticks; one that another module of the domain reports does not (DESIGN CHOICE, notes/assumptions/65.md). -/
def overrunTick (slot : Nat) (v : Vote) (s : State) : State :=
  let s1 := updRecs slot (fun e => { e with hdr := { e.hdr with outcome := 3, src := v.src.toNat } }) s
  { s1 with clk := { s1.clk with overrun := true }, cmt := { s1.cmt with persist := true } }
/-- The verdict that was in doubt is applied, to the slot in doubt (R379). -/
def settleDoubt (s : State) : State :=
  match s.cmt.doubtV with
  | none => s
  | some v =>
    let s1 := if v.kind = 0 then commitTick s.cmt.doubtSlot true v s else discardTick s.cmt.doubtSlot true true v s
    { s1 with cmt := { s1.cmt with inDoubt := false, doubtV := none } }
/-- The slot's verdict has been applied, and is kept until the next watershed (R379). -/
def verdictDone (v : Vote) (s : State) : State := { s with cmt := { s.cmt with verdict := none, last := some v } }
/-- N − 32 has come for a module with a task (R377). -/
def atShed (s : State) : Bool := votes s && decide (slotN s s.clk.fop ≤ npNow s + 32)
/-- The slot's verdict is applied (R377 to R379); a slot in doubt is settled first. -/
def applyVerdict (v : Vote) (s : State) : State :=
  if v.kind = 0 then verdictDone v (if s.cmt.ran then commitTick s.clk.num false v s else s)
  else
    let s1 := if s.cmt.inDoubt then settleDoubt s else s
    verdictDone v (if v.kind = 2 ∧ s.cmt.ran then overrunTick s.clk.num v s1 else discardTick s.clk.num false s.cmt.ran v s1)
/-- WATERSHED_COMMIT (R377): with a COMMIT verdict. -/
def watershedCommit (s : State) : State :=
  match s.cmt.verdict with
  | none => s
  | some v => if !atShed s || decide (v.kind ≠ 0) then s else applyVerdict v s
/-- WATERSHED_COMMIT (R377). -/
def execWatershedCommit (s : State) : Host.Outcome State Fault Refusal := .next (watershedCommit s)
/-- WATERSHED_DISCARD (R378, R379): with any other verdict. -/
def watershedDiscard (s : State) : State :=
  match s.cmt.verdict with
  | none => s
  | some v => if !atShed s || decide (v.kind = 0) then s else applyVerdict v s
/-- WATERSHED_DISCARD (R378). -/
def execWatershedDiscard (s : State) : Host.Outcome State Fault Refusal := .next (watershedDiscard s)
/-- The slot's run is in doubt: its staged effects stay, and it ends here (R379). -/
def doubtNow (s : State) : State :=
  if decidedSlot s || s.cmt.inDoubt || !s.cmt.ran then s
  else irqRaise (cmtPage / 0x1000) (1 <<< 3) { s with
    clk := { s.clk with zone := true }, cmt := { s.cmt with inDoubt := true, doubtSlot := s.clk.num } }
/-- IN_DOUBT (R379): no verdict at N − 32. -/
def enterDoubt (s : State) : State := if atShed s then doubtNow s else s
/-- IN_DOUBT (R379). -/
def execInDoubt (s : State) : Host.Outcome State Fault Refusal := .next (enterDoubt s)

/-! ### Resume and reload -/

/-- DOMAIN_RESUME (R389, R391): at the root of a held domain. -/
def execDomainResume (port : Port) (s : State) : Host.Outcome State Fault Refusal :=
  .next (woGate port (cmtPage + 0x20) true 0 (fun s =>
    if isRoot s && decide (s.cmt.st = 1 ∨ s.cmt.st = 3) then { s with cmt := { s.cmt with resume := true } } else s) s)
/-- The basins of the task are zeroed (R225, R389). -/
def zeroBasins (s : State) : State := eachCore (fun p s =>
  if decide ((coreAt s p).lidx ≠ 0xFF) then updCore p (fun c => { c with bsn := zeroRows (validHnds c.bsn) c.bsn }) s else s) s
/-- The task is loaded again in place with the K there is now (R389, R390, R420): regions, journal, lag, seed, MOD and watch table stay, and
the held tick keeps its batches (R384). -/
def reloadTask (img : Image) (old : Loaded) (s : State) : State :=
  let s0 := zeroBasins (abortPhase s)
  let r := checkImage s0 (leAt 0x2A 1 img.bytes) s.task.modIdx img
  if r.1 ≠ 0 then emit (.loader r.1) { s with pwr := { s.pwr with lost := true } }
  else
    let c := s.cmt
    let s1 := writeTask (keptImage img r.2 old.regions) img s.task.id s.task.modIdx s.task.seed s0
    let s2 := addLink s.clk.num (leBytes 1 3 ++ leBytes 6 s.clk.num ++ leBytes 1 s1.task.k ++ padTo 32 0 old.digest) s1
    emit (.loader 0) { s2 with cmt := { s2.cmt with batch := c.batch, two := c.two, decided := c.decided, corr := c.corr, st := 1 } }
/-- CORE_FENCE_RELOAD (R389): in a held domain, core p fenced, the task reloaded. -/
def coreFenceReload (p : Nat) (s : State) : State :=
  match s.task.src, s.task.img with
  | some img, some old => if s.cmt.st = 1 ∨ s.cmt.st = 3 then reloadTask img old (fenceCore p s) else s
  | _, _ => s
/-- CORE_FENCE_RELOAD (R389). -/
def execCoreFenceReload (p : Nat) (s : State) : Host.Outcome State Fault Refusal := guarded (okCore p) "core" (coreFenceReload p) s

end Sys2Proof.Machine
end

