-- ==== Sys2Proof/Machine/Trace.lean ====
section
/-! DEFINITION. PC samples (R426 to R432), the command boundary of the core counters (R433 to R436) and global counter selection
(R437). -/
namespace Sys2Proof.Machine

/-! ### Samples -/

/-- A queue head lacks a wait on an object of a range, and nothing but waits on that range, its resource free (R428). -/
def waitsOnly (c : Core) (now lo hi : Nat) (i : Ins) : Bool :=
  let unmet := [iWait i 0, iWait i 1].filter fun w => decide (w.1 < 56) && decide (mget 0 c.obj w.1 < waitOn i w.1)
  resFree c now i && !unmet.isEmpty && unmet.all fun w => decide (lo ≤ w.1 ∧ w.1 < hi)
/-- Heads of the unit queues. -/
def queueHeads (c : Core) : List Ins := ((List.range 5).map fun u => (unitQ c (u + 1)).head?).filterMap id
/-- The stall code of a core at the end of an lc (R428). -/
def stallCode (s : State) (p : Nat) : Nat :=
  let c := coreAt s p
  let d := daleAt s (daleOf p)
  let now := s.clk.now
  if c.mode = .halt then 9
  else if c.mode = .threaded then 8
  else if !holdsIndex c then 7
  else if decide (d.st = 3) && d.flight.isEmpty && coreDrained now c then 6
  else if d.st = 2 then 5
  else if (queueHeads c).any (waitsOnly c now 0 48) then 2
  else if (queueHeads c).any (waitsOnly c now 48 56) then 3
  else if (queueHeads c).any fun i => waitsMet c.obj i && !resFree c now i then 4
  else if c.busy.any fun r => decide (now < r.2) then 1
  else 0
/-- A PC sample record (R427). -/
def sampleRec (s : State) (d : Nat) : BitVec 256 :=
  let x := daleAt s d
  let stalls : Nat := (List.range 16).foldl (fun n q => n + stallCode s (16 * d + q) * 2 ^ (4 * q)) 0
  let run : Nat := if s.cmt.ran then s.cmt.run else 0
  BitVec.ofNat 256 (s.clk.num % 2 ^ 48 + s.clk.lc % 2 ^ 29 * 2 ^ 48 + d * 2 ^ 77 + x.pc % 2 ^ 15 * 2 ^ 81 + x.st % 4 * 2 ^ 96 + run % 8 * 2 ^ 98
    + stalls * 2 ^ 128 + x.samples % 2 ^ 16 * 2 ^ 192)
/-- Records that an area holds (R430). -/
def areaRecs : Nat := 2 ^ 25
/-- TRC_STAT.FULL, and its interrupt bit. -/
def traceFull (s : State) : State := irqRaise (trcPage / 0x1000) (1 <<< 1) (setBits (trcPage + 0x24) 1 s)
/-- A record enters a die's trace area, or is dropped at the end of it in stop mode (R430); the last record that stop mode admits fills it. -/
def traceWrite (die : Nat) (r : BitVec 256) (s : State) : State :=
  let i := s.trc.idx.getD die 0
  if fieldAt s (trcPage + 0x20) 6 1 = 1 ∧ areaRecs ≤ i then
    traceFull (satField (trcPage + 0x24) 2 30 1 s)
  else
    let s1 := { s with trc := { s.trc with recs := mput (die * areaRecs + i % areaRecs) r s.trc.recs, idx := s.trc.idx.set die (i + 1) } }
    if fieldAt s (trcPage + 0x20) 6 1 = 1 ∧ i + 1 = areaRecs then traceFull s1 else s1
/-- PC_SAMPLE (R426): the dale samples, once, at the lc at hand, which its interval names. -/
def pcSample (d : Nat) (s : State) : State :=
  let a := trcPage + 0x20
  if ¬ s.clk.run ∨ fieldAt s a 0 1 = 0 ∨ ¬ bbit (fieldAt s a 7 12) d ∨ s.clk.lc % 2 ^ fieldAt s a 1 5 ≠ 0
      ∨ s.clk.now < (daleAt s d).sampledAt then s
  else traceWrite (d / 6) (sampleRec s d)
    (updDale d (fun x => { x with samples := (x.samples + 1) % 2 ^ 16, sampledAt := s.clk.now + 1 }) s)
/-- The dales that TRC_CTL names sample in an lc of their interval (R426). -/
def samplesLc (s : State) : State :=
  if ¬ s.clk.run ∨ fieldAt s (trcPage + 0x20) 0 1 = 0 then s else foldN 12 (fun s d => pcSample d s) s
/-- PC_SAMPLE (R426). -/
def execPcSample (d : Nat) (s : State) : Host.Outcome State Fault Refusal := guarded (okDale d) "dale" (pcSample d) s
/-- TRACE_COPY (R432): visible records that are still there go to host memory. -/
def traceCopy (port : Port) (s : State) : State :=
  let a := trcPage + 0x50
  let die := fieldAt s a 1 1
  let n := fieldAt s a 16 16 + 1
  let i := reg64 s (trcPage + 0x48) % 2 ^ 40
  if s.trc.vis.getD die 0 < i + n ∨ i + areaRecs < s.trc.idx.getD die 0 then setBits a (1 <<< 3) s
  else
    let bytes := (List.range n).flatMap fun k => leBytes 32 (mget 0 s.trc.recs (die * areaRecs + (i + k) % areaRecs)).toNat
    irqRaise (trcPage / 0x1000) 1 (setBits a (1 <<< 2) (emit (.hostWrite port (reg64 s (trcPage + 0x40)) bytes) s))
/-- TRACE_COPY (R432). -/
def execTraceCopy (port : Port) (s : State) : Host.Outcome State Fault Refusal :=
  .next (woGate port (trcPage + 0x50) true 0 (traceCopy port) s)

/-! ### Counters -/

/-- The selections as host software has written them (R433). -/
def selOf (s : State) (p : Nat) : SMap Nat :=
  (List.range 16).foldl (fun m n => mset 0 n (fieldAt s (corePage p + 0xD0 + 4 * (n / 4)) (8 * (n % 4)) 6) m) []
/-- A command boundary: final values are kept, every counter restarts, CSEQ rises (R434). -/
def cmdBoundary (p : Nat) (s : State) : State :=
  let now := s.clk.now
  let sel := selOf s p
  updCore p (fun c =>
    let x := if now = 0 then c.pc else settleCounts (now - 1) c.pc
    { c with pc := { x with fin := x.val, finSeq := x.cseq, val := [], cseq := (x.cseq + 1) % 2 ^ 16, start := now, sel := sel, ended := true } }) s
/-- PCNT_GO (R434). -/
def execPcntGo (port : Port) (p : Nat) (s : State) : Host.Outcome State Fault Refusal :=
  guarded (okCore p) "core" (woGate port (corePage p + 0xC0) true 0 (cmdBoundary p)) s
/-- GCNT_SELECT (R437): a write of a selection clears its counter. -/
def gcntSelect (port : Port) (n : Nat) (v : W32) (s : State) : State :=
  let a := trcPage + 0x100 + 4 * n
  let s1 := if 2 ^ 11 ≤ v.toNat then refuseWrite port a 4 s else s
  setReg a (v.toNat % 2 ^ 11) { s1 with trc := { s1.trc with gval := mdel n s1.trc.gval } }
/-- GCNT_SELECT (R437). -/
def execGcntSelect (port : Port) (n : Nat) (v : W32) (s : State) : Host.Outcome State Fault Refusal :=
  guarded (decide (n < 32)) "counter" (hostGate port (trcPage + 0x100 + 4 * n) true 0 (gcntSelect port n v)) s

end Sys2Proof.Machine
end

