-- ==== Sys2Proof/Machine/Boundary.lean ====
section
/-! DEFINITION. TICK_BOUNDARY: the slot that ends, the slot that opens, and lc 0 of a tick (R17 to R20, R27, R30, R34, R38, R67, R208,
R210, R327, R331, R333 to R335, R338, R340, R351, R363, R366, R381, R384 to R386, R424, R467). -/
namespace Sys2Proof.Machine

/-! ### The slot that ends -/

/-- What N − 32 has left undone: a verdict at hand is applied, a slot without one is in doubt, and a slot in doubt that has its verdict is
settled (R377 to R379). -/
def settleSlot (s : State) : State :=
  if !votes s then s
  else match s.cmt.verdict with
    | some v => applyVerdict v s
    | none => doubtNow (if s.cmt.inDoubt then settleDoubt s else s)

/-- Cores that leave broadcast do so before lc 0 (R67, R68). -/
def applyThreaded (s : State) : State :=
  { s with cores := s.cores.map fun (c : Nat × Core) =>
      (c.1, if c.2.modeNext = some .threaded then intoThreaded c.2 else c.2) }

/-- Debt, loss and hold registers show the tick that has ended, and count afresh (R30, R71). -/
def showLosses (s : State) : State :=
  let loss := s.clk.regions.foldl (fun n r => max n r.2.loss) 0
  { s with clk := { s.clk with
    colsPub := if s.cmt.ran then s.clk.cols else s.clk.colsPub
    lossPub := if s.cmt.ran then loss else s.clk.lossPub
    cols := s.clk.cols.map fun (c : Nat × ColSt) => (c.1, { c.2 with holds := 0, maxLead := c.2.lead.natAbs })
    regions := s.clk.regions.map fun (r : Nat × Region) => (r.1, { r.2 with loss := 0 }) } }
/-- The lc at holds of the tick that has ended (R71). -/
def showHolds (s : State) : State :=
  if s.cmt.ran then s.dales.foldl (fun s d => setField (dalePage d.1 + 0x2C) 0 28 d.2.holdLc s) s else s

/-- Ticks stop at this boundary, with all tick state kept (R18, R20, R62); what the boundary does for a tick that has ended takes place (R30,
R68, R71). -/
def stopTicks (s : State) : State :=
  let s0 := if s.cmt.persist then s else applyThreaded (showHolds (showLosses s))
  let s1 := publishEvts (drainBank 1 (drainBank 0 s0))
  idleCheck { s1 with
    pwr := { s1.pwr with lost := s1.pwr.lost || s1.clk.tickLost }
    clk := { s1.clk with run := false, stopNext := false, named := none, namedSec := false, namedTimer := false, secEdge := none } }

/-! ### The slot that opens -/

/-- Number of the slot that opens (R20). -/
def nextNum (s : State) : Nat := if s.clk.starting then s.clk.numStart else (s.clk.num + 1) % 2 ^ 48

/-- The clock page's state at a boundary: number, sources, holdover, and the counts, lc kept where the tick goes on (R18, R20, R27, R38). -/
def clkOpen (goesOn : Bool) (s : State) : State :=
  let x := s.clk
  let enters := x.namedTimer && !x.holdover
  let s1 := rebase { s with clk := { x with
    num := nextNum s, run := true, starting := false, named := none, secEdge := none
    srcSec := x.namedSec, holdover := x.namedTimer, namedSec := false, namedTimer := false
    hoCnt := if enters then 1 else if x.namedTimer then x.hoCnt + 1 else 0
    hoWall := if enters then x.wall else x.hoWall
    slip := if x.namedTimer then npNow s - predicted s else 0
    npq := 0, lc := if goesOn then x.lc else 0 } }
  if enters then irqRaise (tckPage / 0x1000) 1 s1 else s1

/-- A tick symbol leaves on port n with the delay to its cell slot (R17, R282). -/
def sendSymbol (s : State) (n : Nat) : State :=
  drawn (emit (.tickSym n s.clk.num (Config.slotDelay s.fresh)) s)
/-- The boundary is regenerated on the marked ports and on TICK_OUT (R17). -/
def forwardTick (s : State) : State :=
  let ports := (List.range 24).filter fun n => bbit (fieldAt s (tckPage + 0x68) 0 24) n
  let s1 := ports.foldl sendSymbol s
  if fieldAt s1 (tckPage + 0x68) 24 1 = 1 then emit .tickOut s1 else s1

/-- A port's latch of the boundary's time (R340), and the translation entries that take effect (R250). -/
def portOpen (port : Port) (ptm : Option W64) (s : State) : State :=
  updHp port (fun h =>
    let h1 := match ptm with | some t => { h with ptmTick := s.clk.num, ptmTime := t } | none => h
    { h1 with xlat := h1.xlatNext.foldl (fun m x => mput x.1 x.2 m) h1.xlat, xlatNext := [] }) s

/-- The intake banks of a port swap (R327, R335): an open packet is carried on, and the filling bank refuses at the lag limit. -/
def swapBanks (full : Bool) (port : Port) (s : State) : State :=
  let s1 := updHp port (fun h => { h with
    drainB := h.bank, drainOvr := h.ovrSlot, drainRef := h.refuse
    bank := [], fillWords := openWords h, ovrSlot := false, refuse := full }) s
  if full then intkStat port 3 3 s1 else s1

/-- The lowest batch that no committed tick has processed, as a start finds it (R333). -/
def firstBatch (s : State) : Nat :=
  let l := (s.cmt.jnl.map (·.slot)).filter fun n => !s.cmt.nextOk || decide (s.cmt.nextBatch ≤ n)
  l.foldl min ((s.clk.num + 2 ^ 48 - 1) % 2 ^ 48)

/-- Next batch and lag (R333). -/
def fixLag (started : Bool) (s : State) : State :=
  let b := if started || !s.cmt.nextOk then firstBatch s else s.cmt.nextBatch
  { s with cmt := { s.cmt with nextBatch := b, nextOk := true, lag := (s.clk.num + 2 ^ 48 - 1 - b) % 2 ^ 48 } }

/-- The lag limit is reached (R335, R381). -/
def lagFull (s : State) : Bool := decide (fieldAt s (cmtPage + 0x44) 0 15 ≤ s.cmt.lag) || jnlShort s

/-- The record of the slot that opens, and the slot's batch part, still to come (R331, R381, R382); entries supplied for a reproduction stay. -/
def openRecord (outcome : Nat) (s : State) : State :=
  let n := s.clk.num
  let hdr : JRec := { outcome := outcome, slot := n, fop := s.clk.fop, k := if s.task.img.isSome then s.task.k else 0, lag := s.cmt.lag }
  let fresh : List JEnt := [0, 1].map fun die => { die := die, slot := n, hdr := hdr }
  let supplied := s.cmt.jnl.filter fun e => decide (e.slot = n)
  let rest := s.cmt.jnl.filter fun e => decide (e.slot ≠ n)
  if s.task.repro && !supplied.isEmpty then s else { s with cmt := { s.cmt with jnl := rest ++ fresh } }

/-- The vote state of a new slot (R373 to R376, R379). -/
def voteOpen (goesOn : Bool) (s : State) : State :=
  let c := s.cmt
  { s with cmt := { c with
    src := if goesOn then bclr c.src 13 ||| c.srcNext else c.srcNext, srcNext := 0
    voted := false, votes := [], own := none, verdict := none, missPrev := c.missNow, missNow := [] } }

/-- Everything that takes place at every boundary, an overrunning tick's included (R38). -/
def slotOpen (goesOn : Bool) (ptmA ptmB : Option W64) (s : State) : State :=
  let started := s.clk.starting
  let s1 := forwardTick (clkOpen goesOn (drainBank 1 (drainBank 0 s)))
  let s2 := fixLag started (voteOpen goesOn (portOpen .b ptmB (portOpen .a ptmA s1)))
  let full := lagFull s2
  openRecord 4 (swapBanks full .b (swapBanks full .a s2))

/-! ### Boundary work -/

/-- The double-buffered handle entries of a core change buffers (R209). -/
def flipCore (c : Core) : Core :=
  foldN 64 (fun c i =>
    let e := hndAt c i
    if e.valid ∧ e.kind = 1 then
      let w := (hndWord c i).toNat
      { c with bsn := setHnd c.bsn.hsel i (BitVec.ofNat 64 (if e.phase then bclr w 44 else bset w 44)) c.bsn }
    else c) c
/-- The flips that a committed watershed recorded: region pages and PHASE bits (R208, R238). -/
def flipPhases (s : State) : State :=
  let s1 := flipPages s
  { s1 with cores := s1.cores.map fun (c : Nat × Core) => (c.1, if holdsIndex c.2 then flipCore c.2 else c.2) }

/-- Fabric tables switch banks at their named tick (R300), and fences follow (R306); those that a phase names switch in its bridge (R363). -/
def switchTables (started : Bool) (s : State) : State :=
  let due := match s.fab.switch with
    | some t => decide (t ≤ s.clk.num) && (s.cmt.committed || started || s.task.img.isNone) && !tablesWait s
    | none => false
  { s with fab := if due then turnTables s.fab else { s.fab with fcore := s.fab.fcoreNext, fport := s.fab.fportNext } }

/-- The operating point switches (R34), a change that fell due in an overrunning tick only where a tick starts (R35); a T1 exit that waited for it is done (R402), and the thermal step counts (R463). -/
def switchFop (starts : Bool) (s : State) : State :=
  let s1 := if s.clk.fopLate ∧ ¬ starts then s else fopSwitch s
  throttleTick (if s1.pwr.exiting ∧ s1.pwr.terrace = 1 ∧ s1.clk.fopPend = none then t1Done s1 else s1)

/-- Per-tick state is clear until a tick starts. -/
def tickClear (s : State) : State :=
  { s with
    clk := { s.clk with bodyEnd := none, zone := false, overrun := false }
    cmt := { s.cmt with ran := false, zoned := false }
    dales := s.dales.map fun (d : Nat × Dale) => (d.1, { d.2 with st := 0, hold := none, flight := [], reps := [] }) }

/-- A cold boundary stops ticks here: at lag 0, with both egress stagings empty (R366 step 3). -/
def coldReady (s : State) : Bool :=
  decide (s.cmt.lag = 0) && s.host.rel.isEmpty && [0, 1].all fun die => decide (stagedBytes s die = 0)

/-- An armed switch at its tick, after a commit: discarded when K has changed, else a bridge begins, the banks switching as it does, or ticks
stop (R210, R300, R363, R365, R366). -/
def phaseDue (s : State) : State :=
  if s.phase.st ≠ 2 ∨ s.clk.num < s.phase.tick ∨ ¬ s.cmt.committed then s
  else if kChanged s then abortPhase s
  else if ¬ s.phase.cold then bridgeBanks { s with phase := { s.phase with st := 3, left := 40960, slot0 := s.clk.num } }
  else if coldReady s then
    { s with
      phase := { s.phase with st := 3, slot0 := s.clk.num }
      clk := { s.clk with run := false }
      cmt := { s.cmt with jnl := s.cmt.jnl.filter fun e => decide (e.slot ≠ s.clk.num) } }
  else s

/-- Slots passed since a translation miss (R253). -/
def missCount (s : State) : State :=
  match s.cmt.missSlots with
  | none => s
  | some n =>
    if s.cmt.resumed then { s with cmt := { s.cmt with missSlots := none, missPorts := [], resumed := false } }
    else if s.cmt.ran then s
    else { s with cmt := { s.cmt with missSlots := some (n + 1) } }

/-- The boundary work of a slot that is not an overrunning tick's (R38). -/
def boundaryWork (started : Bool) (s : State) : State :=
  let s1 := applyThreaded (if s.cmt.committed then flipPhases s else s)
  let s2 := switchTables started s1
  let s3 := if started ∧ s2.phase.cold ∧ s2.phase.st = 0 then refixK { s2 with phase := { s2.phase with cold := false } } else s2
  let s4 := tickClear (missCount (showHolds (showLosses (epochBoundary s3))))
  let s5 := phaseDue s4
  { s5 with cmt := { s5.cmt with committed := false } }

/-! ### Lc 0 of a tick -/

/-- Matrix side, post unit, vector engine, endpoints and barriers of a core at rest (R264, R279, R467). -/
def restUnits (c : Core) : Core :=
  { c with
    mx := {}, pu := {}, vx := { c.vx with slot := [], slotDue := [], len := [], lenDue := [], band := 0 }
    ch := { inbox := c.ch.inbox } }
/-- Every tick-local object of a broadcast core at rest (R221, R224, R246, R258, R386). -/
def restCore (c : Core) : Core :=
  { restUnits c with
    q := [], busy := [], started := [], came := [], sigs := [], job := {}, obj := [], adds := [], takes := [], fe := {}, issue := 0
    vx := { tile := c.vx.tile, mask := c.vx.mask, mcnt := c.vx.mcnt }
    bsn := { c.bsn with fill := [], drain := [], sink := [], written := [], dep := [], up := [], fords := [], blog := [] } }
/-- The tick counts afresh for the suspect rows (R218). -/
def suspectsOpen (c : Core) : Core :=
  { c with bsn := { c.bsn with suspect := c.bsn.suspect.map fun x => (x.1, x.2.1, false) } }
/-- A core that is named for broadcast enters it at lc 0 (R67). -/
def joinCore (c : Core) : Core :=
  match c.modeNext with
  | some .broadcast => { c with mode := .broadcast, modeNext := none }
  | _ => c
/-- A core at lc 0: at rest, wholly where it is in broadcast or enters it (R67). -/
def enterCore (c : Core) : Core := if (joinCore c).mode = .broadcast then restCore (joinCore c) else restUnits (joinCore c)

/-- Readings for the run: a replay answers from those of the runs before, a first run takes new ones (R118, R385). -/
def rewindLog (replay : Bool) (c : Core) : Core :=
  { c with vold := if replay then c.vlog ++ c.vold.filter (fun v => !(c.vlog.any fun w => decide (w.op = v.op ∧ w.idx = v.idx))) else [], vlog := [] }

/-- A core as a tick starts, which is a replay or a first run. -/
def openCore (replay : Bool) (c : Core) : Core := suspectsOpen (rewindLog replay (enterCore c))

/-- A dale at word 0; a streaming dale's ring holds its first words again (R44, R45). -/
def startDale (now : Nat) (ws : List W256) (x : Dale) : Dale :=
  { x with
    st := 1, stopped := 0, pc := 0, next := now, cnt := 0, cntLc := now, reps := [], flight := [], hold := none, holdLc := 0, seg := 0, segNo := 0
    imem := if x.stream then mapOfWords 0 (ws.take 32768) else x.imem
    filled := if x.stream then min x.words 32768 else x.words }
def startDales (im : Loaded) (s : State) : State :=
  foldN 12 (fun s d => updDale d (startDale s.clk.now (im.streams.getD d [])) s) s

/-- Packets of batch b over both parts, the part still in the drained banks included (R334). -/
def batchPkts (s : State) (b : Nat) : Nat :=
  [0, 1].foldl (fun n die => match partAt s die b with
    | some e => n + e.pkts.length + (if e.full ∨ (s.clk.num + 2 ^ 48 - 1) % 2 ^ 48 ≠ b then 0 else (hpAt s (portOf (decide (die = 1)))).drainB.length)
    | none => n) 0
/-- The tick takes two batches (R334). -/
def takesTwo (im : Loaded) (s : State) : Bool :=
  match im.catchup with
  | some c => decide (1 ≤ s.cmt.lag ∧ batchPkts s s.cmt.nextBatch + batchPkts s (s.cmt.nextBatch + 1) ≤ c)
  | none => false
/-- The batches of the tick: those of its first run (R384). -/
def takeBatches (im : Loaded) (s : State) : State :=
  if s.cmt.decided then s
  else { s with
    cmt := { s.cmt with batch := s.cmt.nextBatch, two := takesTwo im s, decided := true }
    hbm := { s.hbm with ueSeen := [], ueRun := [] } }

/-- V-log entries that a section holds (R383). -/
def parseVlog : Nat → List Byte → List (Nat × VEnt)
  | 0, _ => []
  | fuel + 1, b =>
    if b.length < 8 then []
    else
      let n := leAt 2 2 b
      (leAt 0 1 b, ⟨leAt 1 1 b, leAt 4 4 b, slice 8 n b⟩) :: parseVlog fuel (b.drop (8 * cdiv (8 + n) 8))
/-- Section of a record. -/
def sectOf (h : JRec) (ty : Nat) : List Byte := match h.secs.find? fun x => decide (x.1 = ty) with | some x => x.2 | none => []
/-- The supplied entries of the slot, both of committed ticks (R424). -/
def supplied (s : State) : Option JRec :=
  match partAt s 0 s.clk.num, partAt s 1 s.clk.num with
  | some a, some b => if a.hdr.outcome = 1 ∧ b.hdr.outcome = 1 then some a.hdr else none
  | _, _ => none
/-- A reproduction takes its batches, restart, correction row and readings from the slot's entry (R385, R424). -/
def takeEntry (h : JRec) (s : State) : State :=
  let log := parseVlog (sectOf h 1).length (sectOf h 1)
  let row := sectOf h 2
  let s1 := { s with
    cmt := { s.cmt with batch := h.batch, two := bbit h.flags 0, decided := true
                        corr := (List.range row.length).filterMap fun n => let v := (row.getD n 0).toNat; if v = 0 then none else some (n, 256 - v) }
    task := { s.task with restart := bbit h.flags 1 }
    hbm := { s.hbm with ueSeen := [], ueRun := [] } }
  { s1 with cores := s1.cores.map fun (c : Nat × Core) =>
      (c.1, if holdsIndex c.2 then { c.2 with vold := (log.filter fun x => decide (x.1 = c.2.lidx)).map (·.2), vlog := [] } else c.2) }

/-- The replay engine's trusted write of a row of a handle's place waits for its deposit slot (R202, R216). -/
def trustRow (p h row : Nat) (bytes : List Byte) (s : State) : State :=
  updCore p (fun c =>
    let e := hndAt c h
    { c with bsn := { c.bsn with trust := c.bsn.trust ++ [{ cls := 1, bank := e.bank row, row := e.prow true row, bytes := bytes }] } }) s
/-- The correction row goes into its two rows on every core of the task (R351). -/
def writeCorr (s : State) : State :=
  let h := fieldAt s (cmtPage + 0x304) 0 6
  let row := fieldAt s (cmtPage + 0x304) 6 14
  let bytes := corrRow s
  if !watchOn s then s
  else eachCore (fun p s => if holdsIndex (coreAt s p) && decide ((coreAt s p).mode = .broadcast)
    then trustRow p h (row + 1) (bytes.drop 128) (trustRow p h row (bytes.take 128) s) else s) s

/-- The record of a slot in which a tick runs, or goes on (R382). -/
def runRecord (s : State) : State :=
  updRecs s.clk.num (fun e => { e with hdr := { e.hdr with
    outcome := 0, run := s.cmt.run, flags := b2n s.cmt.two + 2 * b2n s.task.restart, batch := s.cmt.batch, slot := s.clk.num
    fop := s.clk.fop, k := s.task.k, lag := s.cmt.lag, secs := [] } }) s

/-- A tick may run in the slot (R253, R363, R379, R391, R393). -/
def mayRun (s : State) : Bool :=
  s.clk.run && s.task.img.isSome && !s.pwr.lost && decide (s.cmt.st = 0) && !s.cmt.inDoubt && s.cmt.missSlots.isNone && decide (s.phase.st ≠ 3)
/-- Each die has EGMAX bytes of egress staging free (R338). -/
def egressFree (im : Loaded) (s : State) : Bool := [0, 1].all fun die => decide (stagedBytes s die + im.egmax ≤ 2 ^ 26)

/-- Lc 0 of a tick (R386, R467). -/
def startTick (im : Loaded) (s : State) : State :=
  let s1 := eachCore cmdBoundary { s with cores := s.cores.map fun (c : Nat × Core) => (c.1, openCore s.cmt.decided c.2) }
  let s2 := startDales im { s1 with
    holds := []
    task := { s1.task with cursor := [] }
    fab := { s1.fab with barArr := [], barDom := [], barLoc := [], barPhase := [] }
    clk := { s1.clk with quiet := s1.clk.quiet + 1 }
    cmt := { s1.cmt with ran := true, faults := s1.cmt.faults.filter fun f => decide (f.1 = 0x21), sums := [], cen := [], failing := 0 } }
  let s3 := match s2.task.repro, supplied s2 with
    | true, some h => takeEntry h s2
    | _, _ => takeBatches im s2
  genesisLink s3.clk.num (runRecord (writeCorr s3))

/-- A tick may start in the slot, egress staging apart: its readings are at hand (R424). -/
def mayStart (s : State) : Bool := mayRun s && !(s.task.repro && (supplied s).isNone)
/-- A tick starts in the slot. -/
def starts (s : State) : Bool := match s.task.img with | none => false | some im => mayStart s && egressFree im s
/-- The slot starts a tick, passes for want of egress staging, or passes without one. -/
def openTick (s : State) : State :=
  match s.task.img with
  | none => s
  | some im =>
    if !mayStart s then s
    else if egressFree im s then startTick im s
    else setBits (intkPage .b + 0x24) (1 <<< 4) (setBits (intkPage .a + 0x24) (1 <<< 4) s)

/-- A bridge slot's record says so (R363). -/
def bridgeRecord (s : State) : State :=
  if s.clk.run ∧ s.phase.st = 3 then updRecs s.clk.num (fun e => { e with hdr := { e.hdr with outcome := 5 } }) s else s

/-- A FOP change is due at this boundary (R34). -/
def fopDue (s : State) : Bool := match s.clk.fopPend with | some x => decide (x.2 ≤ s.clk.num) | none => false
/-- A boundary inside an overrunning tick: the tick goes on, its commit in the new slot (R37, R38); a FOP change that is due waits (R35). -/
def overBoundary (ptmA ptmB : Option W64) (s : State) : State :=
  let s1 := slotOpen true ptmA ptmB s
  runRecord { s1 with
    clk := { s1.clk with zone := false, fopLate := s1.clk.fopLate || fopDue s1 }, cmt := { s1.cmt with persist := false } }

/-- Any other boundary. -/
def tickBoundary (ptmA ptmB : Option W64) (s : State) : State :=
  let started := s.clk.starting
  let s1 := boundaryWork started (slotOpen false ptmA ptmB s)
  let s2 := if s1.cmt.resetPend then doTaskReset s1 else s1
  let s3 := bridgeRecord s2
  idleCheck (openTick (switchFop (starts s3) s3))

/-- TICK_BOUNDARY (R27, R38): the regions have reached the named boundary lc. -/
def boundary (ptmA ptmB : Option W64) (s : State) : State :=
  match s.clk.named with
  | none => s
  | some t =>
    if s.clk.now < t ∨ ¬ s.clk.run ∧ ¬ s.clk.starting then s
    else
      let s1 := if s.clk.run then settleSlot s else s
      if s1.clk.run ∧ s1.clk.stopNext then stopTicks s1
      else if s1.cmt.persist ∧ s1.cmt.ran then overBoundary ptmA ptmB s1
      else tickBoundary ptmA ptmB s1

/-- TICK_BOUNDARY (R38). -/
def execTickBoundary (ptmA ptmB : Option W64) (s : State) : Host.Outcome State Fault Refusal := .next (boundary ptmA ptmB s)

end Sys2Proof.Machine
end

