-- ==== Sys2Proof/Machine/View.lean ====
section
/-! DEFINITION. What a register reads as (R13, R440 to R451): the register file's word, and in place of the fields that show other state
the value of that state. -/
namespace Sys2Proof.Machine

/-- Words of a number from its register's first word on. -/
def wordOf (n k : Nat) : Nat := (n >>> (32 * k)) % 2 ^ 32
/-- The low w bits of a whole number. -/
def bitsOf (w : Nat) (i : Int) : Nat := wrapN w i

/-! ### Common registers (R441) -/

/-- PEND of a page (R443). -/
def pagePend (s : State) (pi : Nat) : Bool := decide (regAt s (pi * 0x1000 + 0x10) &&& regAt s (pi * 0x1000 + 0x14) ≠ 0)
/-- A half of a pair of the page awaits its partner on a port (R444). -/
def twinPend (s : State) (pi : Nat) : Bool :=
  [Port.a, Port.b].any fun p => (hpAt s p).halves.any fun x => decide (x.1 / 0x1000 = pi)
/-- The page's core or port is fenced. -/
def pageFenced (s : State) (f : Fam) (inst : Nat) : Bool :=
  match f with
  | .core => (coreAt s inst).fenced
  | .lnk => decide ((lpAt s inst).st = 4)
  | _ => false
/-- Number shown in PAGE_ID.INST. -/
def viewPage (s : State) (f : Fam) (inst pi o : Nat) : Nat :=
  match o with
  | 0x00 => f.code + inst * 2 ^ 8 + 2 ^ 24
  | 0x04 => f.irqN + 32 * b2n (decide (f = .core ∨ f = .lnk))
  | 0x0C => b2n (pagePend s pi) + 2 * b2n (twinPend s pi) + 4 * b2n (pageFenced s f inst)
  | _ => regAt s (pi * 0x1000 + o)

/-! ### Families -/

/-- Tick/clock page (R42). -/
def viewTck (s : State) (o old : Nat) : Nat :=
  let x := s.clk
  match o with
  | 0x44 => b2n x.run + 2 * b2n x.srcSec + 4 * b2n x.holdover + 8 * b2n x.tickLost + 16 * b2n x.overrun + 32 * b2n x.fopPend.isSome
      + (old &&& 0xC0) + x.fop * 2 ^ 8
  | 0x48 => wordOf x.num 0
  | 0x4C => wordOf x.num 1
  | 0x50 => x.lc % 2 ^ 29
  | 0x54 => npNow s % 2 ^ 28
  | 0x5C => min x.lossPub (2 ^ 32 - 1)
  | _ =>
    if 0x100 ≤ o ∧ o < 0x314 then
      let c := mget {} x.colsPub ((o - 0x100) / 4)
      bitsOf 8 c.lead + min c.maxLead 255 * 2 ^ 8 + min c.holds 65535 * 2 ^ 16
    else old

/-- A stream context as 256 bits (R255). -/
def ctxBits (x : Ctx) : Nat :=
  x.state + x.fault * 2 ^ 2 + x.decl % 256 * 2 ^ 4 + (List.range 6).foldl (fun n k => n + x.idx.getD k 0 % 2 ^ 16 * 2 ^ (16 + 16 * k)) 0
    + bitsOf 48 x.baseA * 2 ^ 112 + bitsOf 32 x.baseB * 2 ^ 160 + x.faddr.toNat * 2 ^ 192
/-- Mode code (R70). -/
def modeCode : CoreMode → Nat
  | .halt => 0
  | .broadcast => 1
  | .threaded => 2
/-- Values that a core shows of its last watershed (R280, R436). -/
def viewCoreData (s : State) (c : Core) (a o old : Nat) : Nat :=
  match o with
  | 0xA4 =>
    let e := mget {} c.pubEp (fieldAt s (a + 0xA0) 0 9)
    e.st + e.reason * 2 ^ 3 + e.decl % 2 ^ 10 * 2 ^ 6 + e.credits % 2 ^ 5 * 2 ^ 16 + e.pepoch % 2 ^ 4 * 2 ^ 21
  | 0xA8 => c.pubEpoch % 16
  | 0xC0 => c.pc.cseq % 2 ^ 16 * 2 ^ 16
  | 0xC8 => wordOf (mget 0 c.pc.pub (fieldAt s (a + 0xC4) 0 4)) 0
  | 0xCC => c.pc.hi
  | _ =>
    if 0x100 ≤ o ∧ o < 0x1E0 then mget 0 c.pubObj ((o - 0x100) / 4) % 2 ^ 32
    else if 0x200 ≤ o ∧ o < 0x400 then wordOf (ctxBits (ctxAt c ((o - 0x200) / 32))) (o % 32 / 4)
    else if 0x400 ≤ o ∧ o < 0x600 then wordOf (hndWord c ((o - 0x400) / 8)).toNat (o % 8 / 4)
    else if 0x600 ≤ o ∧ o < 0x800 then wordOf (mget (0 : W64) c.bsn.hnd ((1 - c.bsn.hsel) * 64 + (o - 0x600) / 8)).toNat (o % 8 / 4)
    else old
/-- Core page (R70, R170, R226, R255, R280, R439). -/
def viewCore (s : State) (p o old : Nat) : Nat :=
  let c := coreAt s p
  match o with
  | 0x20 => (if c.fenced then 0xFF else c.lidx) + daleOf p * 2 ^ 8 + dieOf p * 2 ^ 12 + b2n (hasArray s p) * 2 ^ 13 + p * 2 ^ 14
  | 0x24 => c.k % 256 + c.task % 256 * 2 ^ 8 + c.modIdx % 2 ^ 16 * 2 ^ 16
  | 0x28 => modeCode c.mode + 4 * b2n c.fenced
      + (List.range 8).foldl (fun n t => n + b2n (decide (c.mode = .threaded) && (thAt c t).live) * 2 ^ (3 + t)) 0
  | 0x40 | 0x44 | 0x48 => if hasArray s p then old else 0
  | 0x4C => arrayState s p
  | 0x60 => old % 2 + 2 * c.bsn.hsel
  | 0x68 => bput old 24 5 (if s.pwr.stage = 9 then spareMin c.bsn else 0)
  | 0x6C => c.pubFord.foldl bset 0
  | 0x84 => c.fe.mtags.length % 2 ^ 9 + c.fe.ftags.length % 2 ^ 9 * 2 ^ 16
  | _ => viewCoreData s c (corePage p) o old

/-- Dale page (R71). -/
def viewDale (s : State) (d o old : Nat) : Nat :=
  let x := daleAt s d
  match o with
  | 0x20 => b2n x.stream
  | 0x24 => x.st % 4 + (old &&& 0xC)
  | 0x28 => (if x.stream then x.pc % 32768 else x.pc) % 2 ^ 15
  | _ => old

/-- Unfenced pseudo-channels of a stack (R256). -/
def healthyPcs (s : State) (st : Nat) : Nat := ((List.range 32).filter fun j => !bbit (mget 0 s.hbm.pcf st) j).length
/-- HBM page (R256). -/
def viewHbm (s : State) (st o old : Nat) : Nat :=
  match o with
  | 0x20 => b2n (bbit s.hbm.trained st) + healthyPcs s st * 2 + (match s.task.img with | some im => im.lanes.getD st 32 | none => 0) % 64 * 2 ^ 7
  | 0x24 => mget 0 s.hbm.pcf st
  | 0x30 => s.pwr.stackT.getD st 0 % 256
  | _ => old

/-- Link page (R312). -/
def viewLnk (s : State) (n o old : Nat) : Nat :=
  let l := lpAt s n
  match o with
  | 0x24 => l.st + b2n l.slow * 2 ^ 3 + l.major % 8 * 2 ^ 4 + l.minor % 256 * 2 ^ 7 + b2n l.sk3 * 2 ^ 15 + l.peer % 2 ^ 16 * 2 ^ 16
  | 0x34 => l.delay % 2 ^ 24
  | _ => old

/-- OWNER (R317, R341). -/
def ownerCode : Option Port → Nat
  | none => 0
  | some .a => 1
  | some .b => 2
/-- Host-port page (R257, R341). -/
def viewHp (s : State) (port : Port) (o old : Nat) : Nat :=
  let h := hpAt s port
  match o with
  | 0x20 => b2n h.up + h.rate % 8 * 2 + h.width % 16 * 2 ^ 4
  | 0x24 => ownerCode s.host.owner + (old &&& 0x20)
  | 0x28 => h.hostMax % 2 ^ 16 + h.agreed % 2 ^ 16 * 2 ^ 16
  | 0x2C => min 65535 ((h.tol.getD 0) / 1000) + min 65535 (cdiv h.sent 1000) * 2 ^ 16
  | 0x30 => wordOf h.ptmTick 0
  | 0x34 => wordOf h.ptmTick 1
  | 0x38 => wordOf h.ptmTime.toNat 0
  | 0x3C => wordOf h.ptmTime.toNat 1
  | 0x104 => wordOf (mget 0 h.xlat (fieldAt s (hpPage port + 0x100) 0 23)).toNat 0
  | 0x108 => wordOf (mget 0 h.xlat (fieldAt s (hpPage port + 0x100) 0 23)).toNat 1
  | 0x114 => b2n (s.host.copy.any fun x => decide (x.port = port))
  | _ => old

/-- Intake page (R342). -/
def viewIntk (s : State) (port : Port) (o old : Nat) : Nat :=
  let h := hpAt s port
  match o with
  | 0x24 => b2n (decide (65536 ≤ h.fillWords)) + (old &&& 0x1E) + b2n h.isOpen * 2 ^ 5
  | 0x28 => h.fillWords % 2 ^ 17
  | 0x38 => wordOf h.lastBatch 0
  | 0x3C => wordOf h.lastBatch 1
  | 0x40 => min 65535 s.cmt.lag
  | _ => old

/-- A barrier's state word (R451). -/
def barState (s : State) (b : Nat) : Nat :=
  match s.task.img with
  | none => 0
  | some im => match im.bars.find? fun d => decide (d.bar = b) with
    | none => 0
    | some d => 1 + 2 * b2n d.sense + 4 * b2n d.scope + 8 * (mget 0 s.fab.pubPhase b % 2) + min 255 (mget 0 s.fab.pubArr b) * 2 ^ 12
        + min 255 (barCores s d).length * 2 ^ 20
/-- Journal and commit page (R357, R369, R397, R451). -/
def viewCmt (s : State) (o old : Nat) : Nat :=
  match o with
  | 0x2C => s.cmt.st % 4 + 4 * b2n s.cmt.inDoubt + (old &&& 0xF8)
  | 0x54 => min (jnlFree s 0) (jnlFree s 1) / 2 ^ 20
  | 0x74 => barState s (fieldAt s (cmtPage + 0x70) 0 8)
  | 0x30C | 0x310 | 0x314 | 0x318 => wordOf (wEnt s (fieldAt s (cmtPage + 0x308) 0 8)) ((o - 0x30C) / 4)
  | 0x34C => s.phase.st % 4 + (old &&& 0x1C)
  | 0x350 => s.phase.seq % 2 ^ 16
  | _ => old

/-- Power page (R412). -/
def viewPwr (s : State) (o old : Nat) : Nat :=
  match o with
  | 0x24 => s.pwr.terrace + s.pwr.target * 2 ^ 3 + b2n s.pwr.busy * 2 ^ 6
  | 0x28 => s.pwr.lat % 2 ^ 32
  | _ => old

/-- Pages with PEND set among 32 page indices (R443). -/
def irqSum (s : State) (n : Nat) : Nat := (List.range 32).foldl (fun m j => m + b2n (pagePend s (32 * n + j)) * 2 ^ j) 0
/-- Service page (R412, R449). -/
def viewSvc (s : State) (o old : Nat) : Nat :=
  match o with
  | 0x20 => s.sec.grade % 256
  | 0x40 => s.sec.modid % 2 ^ 16
  | 0x60 => s.pwr.stage + s.pwr.bootSlot % 2 * 2 ^ 4 + b2n s.pwr.degraded * 2 ^ 5 + s.pwr.bistFail % 256 * 2 ^ 6
  | 0x64 => s.pwr.cause % 8
  | 0x68 => old % 2 + 2 * b2n s.cmt.resetPend
  | _ => if 0x24 ≤ o ∧ o < 0x3C then arrayMap s ((o - 0x24) / 4) % 2 ^ 32
    else if 0x80 ≤ o ∧ o < 0xC0 then irqSum s ((o - 0x80) / 4) else old

/-- Security page (R425). -/
def viewSec (s : State) (o old : Nat) : Nat :=
  match o with
  | 0x20 => s.sec.active % 2
  | 0x24 => b2n s.sec.dead + (old &&& 2)
  | 0x28 => s.sec.svnFused % 2 ^ 32
  | 0x2C => wordOf s.sec.next 0
  | 0x30 => wordOf s.sec.next 1 % 256
  | 0x64 => s.sec.keff % 32
  | _ => old

/-- Trace page (R437, R439). -/
def viewTrc (s : State) (o old : Nat) : Nat :=
  match o with
  | 0x28 => wordOf (s.trc.vis.getD 0 0) 0
  | 0x2C => wordOf (s.trc.vis.getD 0 0) 1 % 256
  | 0x30 => wordOf (s.trc.vis.getD 1 0) 0
  | 0x34 => wordOf (s.trc.vis.getD 1 0) 1 % 256
  | _ => if 0x200 ≤ o ∧ o < 0x300 then wordOf (mget 0 s.trc.gpub ((o - 0x200) / 8)) (o % 8 / 4) % (if o % 8 = 0 then 2 ^ 32 else 2 ^ 16) else old

/-- Saddle page (R450). -/
def viewSdl (s : State) (o old : Nat) : Nat := if o = 0x20 then b2n s.pwr.sdlLocked + s.pwr.spares % 16 * 2 ^ 8 else old

/-- Mask of the fields that a read shows: all but WO and reserved ones (R13). -/
def readMask (l : List Fld) : Nat := fldsMask (fun a => decide (a ≠ .wo)) l

/-- A register's word at a BAR0 page offset, where there is a page (R440). -/
def view0 (s : State) (a : Nat) : Nat :=
  let pi := a / 0x1000
  let o := a % 0x1000
  match pageFam pi with
  | none => 0
  | some (f, inst) =>
    let old := regAt s a
    let v := if o < 0x20 then viewPage s f inst pi o else match f with
      | .core => viewCore s inst o old | .dale => viewDale s inst o old | .hbm => viewHbm s inst o old | .lnk => viewLnk s inst o old
      | .sdl => viewSdl s o old | .tck => viewTck s o old | .hp => viewHp s (portOf (decide (inst = 1))) o old
      | .intk => viewIntk s (portOf (decide (inst = 1))) o old | .cmt => viewCmt s o old | .pwr => viewPwr s o old | .svc => viewSvc s o old
      | .sec => viewSec s o old | .trc => viewTrc s o old
    v &&& readMask (famFlds f o)

/-! ### BAR2 -/

/-- A ring page's word (R320). -/
def viewRing (s : State) (port : Port) (r o : Nat) : Nat :=
  let x := ringAt s port r
  match o with
  | 0x00 => x.base % 2 ^ 32
  | 0x04 => wordOf x.base 1
  | 0x08 => x.log2 % 32
  | 0x0C => b2n x.en + x.vec % 2 ^ 11 * 2
  | 0x10 => x.head
  | 0x14 => x.tail
  | 0x18 => b2n (x.en && !x.wait.isEmpty) + 2 * b2n x.badHead + 4 * b2n x.tooBig
  | _ => 0

/-- What a 32-bit read of a port's BAR finds, before it clears anything: page registers and their twins, ring pages and their twins, the task
mailbox; the service mailbox and the MSI-X table are memory of the port's own (R13, R315, R440, R444). -/
def peek (s : State) (port : Port) (bar off : Nat) : Nat :=
  let a := off / 4 * 4
  let paired := fun (l : List Fld) => l.any fun f => decide (f.acc = .pw)
  let twin := fun (v : Nat) => 2 ^ 32 - 1 - v % 2 ^ 32
  if bar = 0 then
    if 0x3E00000 ≤ a then mbxWord s port a
    else if a % 0x1000 < 0x800 then view0 s a
    else if paired (bar0Flds (a - 0x800)) then twin (view0 s (a - 0x800)) else 0
  else if bar = 2 then
    if 0x800000 ≤ a then
      (if a < 0x800800 then wordOf (mget (0 : W64) (hpAt s port).mbox ((a - 0x800000) / 8)).toNat (a % 8 / 4) else 0)
    else if a % 0x1000 < 0x800 then viewRing s port (a / 0x1000) (a % 0x1000)
    else if paired (fldsRing (a % 0x1000 - 0x800)) then twin (viewRing s port (a / 0x1000) (a % 0x1000 - 0x800)) else 0
  else 0

/-! ### A read -/

/-- Mask of a register's RC fields. -/
def rcMask (l : List Fld) : Nat := fldsMask (fun a => decide (a = .rc)) l
/-- The RC fields that a read returns are cleared (R13). -/
def clearRc (a : Nat) (s : State) : State := setReg a (regAt s a &&& (2 ^ 32 - 1 - rcMask (bar0Flds a))) s
/-- A port's read gives a value to its host. -/
def giveRead (port : Port) (off v : Nat) (s : State) : State := updHp port (fun h => { h with rdata := some (off, BitVec.ofNat 32 v) }) s
/-- A port's read of a register with RC fields is kept for the lc at hand, with the bits that it got. -/
def noteRc (port : Port) (a bits : Nat) (s : State) : State :=
  { s with host := { s.host with rcRead := s.host.rcRead ++ [(port, a, bits)] } }
/-- What port B's read of a register gave it in this lc goes to port A, which reads it too: B's value has 0 there (R13). -/
def takeRc (a m : Nat) (s : State) : State :=
  let s1 := updHp .b (fun h => { h with
    rdata := h.rdata.map fun x => if x.1 / 4 * 4 = a then (x.1, x.2 &&& BitVec.ofNat 32 (2 ^ 32 - 1 - m)) else x }) s
  { s1 with host := { s1.host with rcRead := s1.host.rcRead.filter fun x => !decide (x.1 = .b ∧ x.2.1 = a) } }
/-- A read of a register with the RC fields m, whose word is v: of two ports' reads in one lc, port A's gets the fields and port B's gets 0
(R13). -/
def readRc (port : Port) (off a m v : Nat) (s : State) : State :=
  let was := fun (p : Port) => s.host.rcRead.find? fun x => decide (x.1 = p ∧ x.2.1 = a)
  match port, was (portOther port) with
  | .a, some x => giveRead .a off ((v &&& (2 ^ 32 - 1 - m)) ||| x.2.2) (takeRc a m (noteRc .a a 0 s))
  | .b, some _ => giveRead .b off (v &&& (2 ^ 32 - 1 - m)) s
  | p, none => giveRead p off v (noteRc p a (v &&& m) (clearRc a s))
/-- A read of `CORE_PCNT_LO` latches HI and CSEQ (R436). -/
def latchHi (a : Nat) (s : State) : State :=
  match pageFam (a / 0x1000) with
  | some (.core, p) =>
    if a % 0x1000 ≠ 0xC8 then s
    else updCore p (fun c => { c with pc := { c.pc with
      hi := wordOf (mget 0 c.pc.pub (fieldAt s (corePage p + 0xC4) 0 4)) 1 % 2 ^ 16 + c.pc.pubSeq % 2 ^ 16 * 2 ^ 16 } }) s
  | _ => s
/-- The memory above the pages of a port's BAR0 is served: after boot, and in recovery mode on port A, for its mailbox (R409, R411). -/
def mbxOpen (s : State) (port : Port) : Bool := decide (s.pwr.stage = 9) || decide (s.pwr.stage = 0xF ∧ port = .a)
/-- Reads are served once boot is complete; the service page answers from the ROM on too, in recovery mode on port A alone (R409, R411). -/
def readOpen (s : State) (port : Port) (bar off : Nat) : Bool :=
  decide (s.pwr.stage = 9) || (decide (bar = 0 ∧ 0x3E00000 ≤ off) && mbxOpen s port) || decide (bar = 0 ∧ off / 0x1000 = 0 ∧ s.pwr.stage ≠ 0 ∧ (s.pwr.stage ≠ 0xF ∨ port = .a))
/-- A host read: the value goes to the host, and RC fields clear (R13). -/
def readReg (port : Port) (bar off : Nat) (s : State) : State :=
  let a := off / 4 * 4
  let v := if readOpen s port bar off then peek s port bar off else 0
  if bar ≠ 0 ∨ !readOpen s port bar off then giveRead port off v s
  else
    let m := rcMask (bar0Flds a)
    latchHi a (if m = 0 then giveRead port off v s else readRc port off a m v s)

/-- READ_CLEAR (R13). -/
def execReadClear (port : Port) (bar off : Nat) (s : State) : Host.Outcome State Fault Refusal :=
  guarded ((decide (bar = 0) && decide (off < 0x4000000)) || (decide (bar = 2) && decide (off < 0x1000000))
    || (decide (bar = 4) && decide (off < 0x800000))) "offset" (readReg port bar off) s

end Sys2Proof.Machine
end

