-- ==== Sys2Proof/Machine/Register.lean ====
section
/-! DEFINITION. REGISTER_WRITE and IRQ_MESSAGE: ownership, lock, state and range checks, paired writes and collisions (R13, R315, R317,
R440 to R446), and what a register's write does. -/
namespace Sys2Proof.Machine

/-! ### Checks -/

/-- A field's stated range (R42, R255, R320, R342, R357, R397, R412, R425, R439). -/
def inRange (f : Fam) (o v : Nat) : Bool :=
  let within := fun (lo w a b : Nat) => decide (a ≤ bfield v lo w ∧ bfield v lo w ≤ b)
  match f, o with
  | .tck, 0x20 => within 0 17 10 100000
  | .tck, 0x24 => okSource (bfield v 0 5) && (okSource (bfield v 5 5) || decide (bfield v 5 5 = 0x1E))
  | .tck, 0x28 => within 0 7 10 100 && decide (bfield v 7 7 < bfield v 0 7) && within 16 16 2048 65535
  | .intk, 0x2C => within 0 17 0 65536
  | .core, 0xA0 => within 0 9 0 319
  | .cmt, 0x24 => within 0 7 2 64
  | .cmt, 0x40 => within 0 7 8 64
  | .cmt, 0x44 => within 0 16 16 16384
  | .cmt, 0x300 => within 1 4 1 8
  | .pwr, 0x20 => within 0 3 0 3
  | .sec, 0x60 => within 0 5 4 24
  | .trc, 0x20 => within 1 5 8 20
  | _, _ => true
/-- A write of an RW or PW field is allowed in the state at hand (R19, R357, R397). -/
def stateOk (s : State) (f : Fam) (o : Nat) : Bool :=
  match f, o with
  | .tck, 0x20 | .tck, 0x24 | .tck, 0x28 | .tck, 0x68 => !s.clk.run
  | .cmt, 0x24 | .cmt, 0x28 | .cmt, 0x40 | .cmt, 0x44 | .cmt, 0x48 => s.task.img.isNone
  | .cmt, _ => s.task.img.isNone || !(decide (0x300 ≤ o ∧ o < 0x324))
  | _, _ => true
/-- Bits of no field, or of fields that no write changes. -/
def resMask (l : List Fld) : Nat := 2 ^ 32 - 1 - fldsMask (fun _ => true) l
/-- Bits that a pair compares: fields that are not RO (R444). -/
def pairMask (l : List Fld) : Nat := fldsMask (fun a => decide (a ≠ .ro)) l
/-- A paired-write register (R13). -/
def isPaired (l : List Fld) : Bool := l.any fun f => decide (f.acc = .pw)
/-- A register with a field that a lock guards (R441). -/
def lockable (l : List Fld) : Bool := l.any fun f => decide (f.acc = .rw ∨ f.acc = .pw)

/-! ### Effects -/

/-- The word after a write: RW and PW fields take the value, unless `keep`; ones clear W1C bits, but those in `hw`, which hardware sets in
the same lc (R13). -/
def putWord (keep : Bool) (l : List Fld) (hw v old : Nat) : Nat :=
  l.foldl (fun n f => match f.acc with
    | .rw | .pw => if keep then n else bput n f.lo f.w (bfield v f.lo f.w)
    | .w1c => bput n f.lo f.w (bfield n f.lo f.w &&& (2 ^ f.w - 1 - bfield v f.lo f.w ||| bfield hw f.lo f.w))
    | _ => n) old

/-- An IRQ_EN bit is written 1 while its IRQ_RAW bit is set (R443). -/
def enableIrq (pi v : Nat) (s : State) : State :=
  let newly := v &&& (2 ^ 32 - 1 - regAt s (pi * 0x1000 + 0x14))
  let s1 := setReg (pi * 0x1000 + 0x14) v s
  if newly &&& regAt s (pi * 0x1000 + 0x10) = 0 then s1 else irqOwe pi s1

/-- ENABLE of the trace goes from 0 to 1: the areas start again (R427, R430). -/
def traceStart (s : State) : State :=
  { s with
    trc := { s.trc with recs := [], idx := [0, 0], vis := [0, 0] }
    dales := s.dales.map fun (d : Nat × Dale) => (d.1, { d.2 with samples := 0, sampledAt := 0 }) }

/-- Does `f` where bit `b` of the written value is 1. -/
def onBit (v b : Nat) (f : State → State) (s : State) : State := if bbit v b then f s else s

/-- A link page's control register (R285, R312). -/
def writeLnkCtl (n v : Nat) (keep : Bool) (s : State) : State :=
  let s1 := if keep then s
    else
      let s0 := setField (lnkPage n + 0x20) 2 1 (bfield v 2 1) s
      if fieldAt s0 (lnkPage n + 0x20) 0 1 = bfield v 0 1 then s0 else linkEnable n (bbit v 0) s0
  onBit v 1 (linkRetrain n) s1

/-- HOST_OWN (R318): each bit written 1 acts. -/
def writeOwn (port : Port) (v : Nat) (s : State) : State :=
  let run := fun (f : State → Host.Outcome State Fault Refusal) (s : State) => match f s with | .next t => t | _ => s
  onBit v 4 (run (execHostOwnTake port)) (onBit v 3 (run (execHostOwnAccept port)) (onBit v 2 (run (execHostOwnOffer port)) s))

/-- A watch entry's word k (R347, R357). -/
def writeWatch (k v : Nat) (s : State) : State :=
  let n := fieldAt s (cmtPage + 0x308) 0 8
  let w := BitVec.ofNat 128 (bput (wEnt s n) (32 * k) 32 v)
  { s with task := { s.task with watch := mset 0 n w s.task.watch } }

/-- What an admitted write of a register does, its word already changed; `keep`: its RW and PW fields were locked. -/
def regActs (port : Port) (f : Fam) (inst o v : Nat) (keep : Bool) (was : Nat) (s : State) : State :=
  let pw := fun (g : State → State) (s : State) => if keep then s else g s
  match f, o with
  | .svc, 0x68 => pw (onBit v 0 taskReset) s
  | .hp, 0x24 => pw (writeOwn port v) s
  | .hp, 0x28 => pw (fun s => let p := portOf (decide (inst = 1))
      setAgreed p (agree (bfield v 0 16)) (updHp p (fun h => { h with hostMax := bfield v 0 16 }) s)) s
  | .hp, 0x110 => onBit v 0 (ovResume (portOf (decide (inst = 1)))) s
  | .cmt, 0x20 => onBit v 0 (fun s =>
      if isRoot s && decide (s.cmt.st = 1 ∨ s.cmt.st = 3) then { s with cmt := { s.cmt with resume := true } } else s) s
  | .cmt, 0x48 => pw freeEntries s
  | .cmt, 0x4C | .cmt, 0x50 => pw freeEntries s
  | .pwr, 0x20 => onBit v 6 (trigger .wake) s
  | .sec, 0x20 =>
    let s1 := pw (fun s => onBit v 1 (svnCommit port) { s with sec := { s.sec with active := bfield v 0 1 } }) s
    onBit v 3 cert (onBit v 2 attest s1)
  | .sec, 0x60 => onBit v 18 (fun s => if s.clk.run then refuseWrite port (secPage + 0x60) 1 s else snapshot s) s
  | .sec, 0x80 => onBit v 0 (fun s => if bbit v 2 then s else journalCopy port [] s) s
  | .trc, 0x20 => pw (fun s => if bbit v 0 ∧ ¬ bbit was 0 then traceStart s else s) s
  | .trc, 0x50 => onBit v 0 (traceCopy port) s
  | .core, 0xC0 => onBit v 0 (cmdBoundary inst) s
  | _, _ => s

/-- An admitted write takes effect in all its fields together (R13, R444). -/
def regTakes (port : Port) (f : Fam) (inst a v : Nat) (keep : Bool) (s : State) : State :=
  let o := a % 0x1000
  let was := regAt s a
  if o = 0x14 then (if keep then s else enableIrq (a / 0x1000) v s)
  else match f, o with
    | .lnk, 0x20 => writeLnkCtl inst v keep s
    | .tck, 0x2C => if keep then s else if bbit v 0 then tickStart port s else setReg a 0 s
    | .tck, 0x30 => if keep then s else fopRequested (some port) (bfield v 0 3) (reg64 s (tckPage + 0x34) % 2 ^ 48) s
    | .intk, 0x20 => if keep then s else intakeEnable (portOf (decide (inst = 1))) (bbit v 0) s
    | .cmt, 0x340 => if keep then s else if bbit v 0 then phaseArm (bbit v 1) s else phaseCancel s
    | .cmt, 0x30C | .cmt, 0x310 | .cmt, 0x314 | .cmt, 0x318 => if keep then s else writeWatch ((o - 0x30C) / 4) v s
    | .sec, 0x40 | .sec, 0x44 | .sec, 0x48 | .sec, 0x4C | .sec, 0x50 | .sec, 0x54 | .sec, 0x58 | .sec, 0x5C => setReg a v s
    | _, _ =>
      if f = .trc ∧ 0x100 ≤ o ∧ o < 0x180 then (if keep then s else setReg a (v % 2 ^ 11) { s with
        trc := { s.trc with gval := mdel ((o - 0x100) / 4) s.trc.gval } })
      else regActs port f inst o v keep was (setReg a (putWord keep (famFlds f o) (mget 0 s.host.hw a) v was) s)

/-- A write whose words are all at hand: reserved bits are recorded, then state, range and lock are checked (R441, R442). -/
def regWrite (port : Port) (f : Fam) (inst a v : Nat) (s : State) : State :=
  let o := a % 0x1000
  let l := famFlds f o
  let s1 := if v &&& resMask l = 0 then s else refuseWrite port a 4 s
  if !stateOk s f o then refuseWrite port a 1 s
  else if !inRange f o v then refuseWrite port a 9 s
  else if locked s a && lockable l && decide (o ≠ 8) then regTakes port f inst a v true (refuseWrite port a 5 s1)
  else regTakes port f inst a v false s1

/-- The words of a register of two words (R444, R445), first word first. -/
def groupOf (f : Fam) (o : Nat) : Option (Nat × Nat) :=
  match f, o with
  | .tck, 0x34 | .tck, 0x38 => some (0x34, 0x38)
  | .tck, 0x3C | .tck, 0x40 => some (0x3C, 0x40)
  | .cmt, 0x344 | .cmt, 0x348 => some (0x344, 0x348)
  | .hp, 0x104 | .hp, 0x108 => some (0x104, 0x108)
  | _, _ => none

/-- A register of two words takes effect (R20, R250, R445). -/
def groupTakes (port : Port) (f : Fam) (b o v0 v1 : Nat) (s : State) : State :=
  let v := v0 + (if f = .hp then v1 else v1 % 2 ^ 16) * 2 ^ 32
  let s1 := if f = .hp ∨ v1 < 2 ^ 16 then s else refuseWrite port (b + o + 4) 4 s
  if f = .hp then xentWrite port (BitVec.ofNat 64 v) s
  else if locked s b then refuseWrite port (b + o) 5 s1
  else if f = .tck ∧ o = 0x3C then setReg64 (b + o) v { s1 with clk := { s1.clk with numStart := v } }
  else setReg64 (b + o) v s1

/-! ### Pairs (R444) -/

/-- A pending half of a port. -/
def halfAt (s : State) (port : Port) (k : Nat) : Option Nat := ((hpAt s port).halves.find? fun x => decide (x.1 = k)).map (·.2.toNat)
def setHalf (port : Port) (k v : Nat) (s : State) : State := updHp port (fun h => { h with halves := mput k (BitVec.ofNat 32 v) h.halves }) s
def dropHalves (port : Port) (l : List Nat) (s : State) : State :=
  l.foldl (fun s k => updHp port (fun h => { h with halves := mdel k h.halves }) s) s
/-- The value of a word whose halves are both at hand, with whether they agree. -/
def pairAt (s : State) (port : Port) (k : Nat) (l : List Fld) : Option (Nat × Bool) :=
  match halfAt s port k, halfAt s port (k + 0x800) with
  | some v, some t => some (v, decide ((v ^^^ t) &&& pairMask l = pairMask l))
  | _, _ => none

/-- A half of a paired-write register of BAR0 arrives (R444, R445). -/
def halfWrite (port : Port) (f : Fam) (inst a : Nat) (twin : Bool) (v : Nat) (s : State) : State :=
  let b := a / 0x1000 * 0x1000
  let o := a % 0x1000
  let s1 := setHalf port (if twin then a + 0x800 else a) v s
  match pairAt s1 port a (famFlds f o) with
  | none => s1
  | some (_, false) => refuseWrite port a 3 (dropHalves port [a, a + 0x800] s1)
  | some (x, true) => match groupOf f o with
    | none => regWrite port f inst a x (dropHalves port [a, a + 0x800] s1)
    | some (o0, o1) => match pairAt s1 port (b + o0) (famFlds f o0), pairAt s1 port (b + o1) (famFlds f o1) with
      | some (x0, true), some (x1, true) =>
        groupTakes port f b o0 x0 x1 (dropHalves port [b + o0, b + o0 + 0x800, b + o1, b + o1 + 0x800] s1)
      | _, _ => s1

/-! ### BAR0 -/

/-- A write that passed ownership reaches its page (R440, R441, R444). -/
def pageWrite (port : Port) (a v : Nat) (s : State) : State :=
  let o := a % 0x1000
  match pageFam (a / 0x1000) with
  | none => s
  | some (f, inst) =>
    let l := famFlds f (o % 0x800)
    if o < 0x800 then
      if l.isEmpty then s
      else if isPaired l then halfWrite port f inst a false v s
      else regWrite port f inst a v s
    else if isPaired l then halfWrite port f inst (a - 0x800) true v s
    else s

/-- Port B's write of an offset that port A writes in the same lc is dropped and counted (R446). -/
def collides (s : State) (port : Port) (a : Nat) : Bool := decide (port = .b ∧ s.host.wroteAt = s.clk.now) && s.host.wrote.contains a
def countCollision (a : Nat) (s : State) : State :=
  let c := svcPage + 0x70
  let s1 := satField c 0 16 1 s
  if bbit (regAt s1 c) 31 then s1 else setBits c (1 <<< 31) (setReg (c + 4) a s1)
/-- Port A's writes of the lc at hand are kept. -/
def noteWrite (port : Port) (a : Nat) (s : State) : State :=
  if port = .b then s
  else { s with host := { s.host with
    wrote := if s.host.wroteAt = s.clk.now then s.host.wrote ++ [a] else [a], wroteAt := s.clk.now } }

/-- A write to the memory that a port's BAR0 has above the pages: the pointers that the module moves do not change, and a new reply head may
let replies into their ring (R60, R322, R440). -/
def mbxWrite (port : Port) (a v : Nat) (s : State) : State :=
  if !mbxOpen s port ∨ a = reqHead ∨ a = replyTail then s
  else if a = replyHead then sendReplies port (setMbxWord port a v s)
  else setMbxWord port a v s

/-- A 32-bit write to BAR0 (R315, R317, R409, R440, R446); above the pages lies memory of the port's own. -/
def bar0Write (port : Port) (a v : Nat) (s : State) : State :=
  if 0x3E00000 ≤ a then mbxWrite port a v s
  else if (pageFam (a / 0x1000)).isNone ∨ !bar0Open s a then s
  else if !mayWrite s port a then refuseWrite port a 2 s
  else if collides s port a then countCollision a s
  else pageWrite port a v (noteWrite port a s)

/-! ### BAR2 -/

/-- A refused write to a ring page is recorded in its port's host-port page. -/
def ringRefuse (port : Port) (o cause : Nat) (s : State) : State := refuseWrite port (hpPage port + o) cause s
/-- A ring page's register takes effect (R320). -/
def ringTakes (port : Port) (r o v : Nat) (s : State) : State :=
  let x := ringAt s port r
  let s1 := if v &&& resMask (fldsRing o) = 0 then s else ringRefuse port o 4 s
  match o with
  | 0x00 => if x.en then ringRefuse port o 1 s else updRing port r (fun x => { x with base := bput x.base 0 32 (v / 4096 * 4096) }) s1
  | 0x04 => if x.en then ringRefuse port o 1 s else updRing port r (fun x => { x with base := bput x.base 32 32 v }) s1
  | 0x08 =>
    if x.en then ringRefuse port o 1 s
    else if bfield v 0 5 < 12 ∨ 24 < bfield v 0 5 then ringRefuse port o 9 s
    else updRing port r (fun x => { x with log2 := bfield v 0 5 }) s1
  | 0x0C => ringEnable port r (BitVec.ofNat 32 v) s1
  | 0x18 =>
    let hw := mget 0 s.host.hw (ringKey port r)
    updRing port r (fun x => { x with badHead := x.badHead && (!bbit v 1 || bbit hw 1), tooBig := x.tooBig && (!bbit v 2 || bbit hw 2) }) s1
  | _ => s
/-- A 32-bit write to BAR2: a ring page, or half of a task mailbox word (R315, R320). -/
def bar2Write (port : Port) (a v : Nat) (s : State) : State :=
  let r := a / 0x1000
  let o := a % 0x1000
  let k := 2 * 2 ^ 27 + a
  if s.pwr.stage ≠ 9 then s
  else if 0x800800 ≤ a then s
  else if 0x800000 ≤ a then
    updHp port (fun h =>
      let n := (a - 0x800000) / 8
      { h with mbox := mset 0 n (BitVec.ofNat 64 (bput (mget (0 : W64) h.mbox n).toNat (a % 8 / 4 * 32) 32 v)) h.mbox }) s
  else if o % 0x800 = 0x10 then (if o = 0x10 then headWrite port r (BitVec.ofNat 32 v) s else s)
  else
    let l := fldsRing (o % 0x800)
    if !isPaired l then (if o < 0x800 then ringTakes port r o v s else s)
    else
      let k0 := if o < 0x800 then k else k - 0x800
      let s1 := setHalf port k v s
      match pairAt s1 port k0 l with
      | none => s1
      | some (_, false) => ringRefuse port (o % 0x800) 3 (dropHalves port [k0, k0 + 0x800] s1)
      | some (x, true) => ringTakes port r (o % 0x800) x (dropHalves port [k0, k0 + 0x800] s1)

/-- A 32-bit host write (R315): to BAR4 it is no whole 8-byte word and is discarded with an error. -/
def hostWrite32 (port : Port) (bar off : Nat) (v : W32) (s : State) : State :=
  let a := off / 4 * 4
  match bar with
  | 0 => bar0Write port a v.toNat s
  | 2 => bar2Write port a v.toNat s
  | 4 => emit (.aer port) s
  | _ => s

/-- REGISTER_WRITE (R444). -/
def execRegisterWrite (port : Port) (bar off : Nat) (v : W32) (s : State) : Host.Outcome State Fault Refusal :=
  guarded ((decide (bar = 0) && decide (off < 0x4000000)) || (decide (bar = 2) && decide (off < 0x1000000))
    || (decide (bar = 4) && decide (off < 0x800000))) "offset" (hostWrite32 port bar off v) s

/-! ### Interrupt messages -/

/-- A message may be sent: 1 µs has passed since the last (R443). -/
def irqFree (s : State) : Bool := match s.host.irqWall with | some t => decide (t + wallUs ≤ s.clk.wall) | none => true
/-- The message that pages owe goes out on vector 0 of the owner's port; rises that waited are merged into it (R443). -/
def irqSend (page : Nat) (s : State) : State :=
  match s.host.owner with
  | none => s
  | some p =>
    if !s.host.irqOwed.contains page || !irqFree s then s
    else emit (.msix p 0) { s with host := { s.host with irqOwed := [], irqWall := some s.clk.wall } }
/-- IRQ_MESSAGE (R443). -/
def execIrqMessage (page : Nat) (s : State) : Host.Outcome State Fault Refusal := guarded (decide (page < 512)) "page" (irqSend page) s

end Sys2Proof.Machine
end

