-- ==== Sys2Proof/Machine/Smb.lean ====
section
/-! DEFINITION. SMBus (R463, R465): the module's answers, and the release of `ALERT_N`. -/
namespace Sys2Proof.Machine

/-- The module answers on SMBus: powered, out of reset and past rail sequencing. -/
def smbUp (s : State) : Bool := s.pwr.on && !s.pwr.inReset && decide (s.pwr.stage ≠ 0)
/-- An answer of bytes. -/
def smbAnswer (f : State → List Byte) (s : State) : State := if smbUp s then { s with pwr := { s.pwr with smb := f s } } else s

/-- STATUS (R465). -/
def statusWord (s : State) : Nat :=
  b2n s.pwr.ready + 2 * b2n s.pwr.warm + 4 * b2n s.pwr.throttled + 8 * b2n s.pwr.trip
    + 16 * b2n (decide (s.pwr.vin < 4800 ∨ 5400 < s.pwr.vin)) + 32 * b2n s.pwr.lost + s.pwr.stage % 16 * 2 ^ 8
/-- STATUS (R465). -/
def execStatus (s : State) : Host.Outcome State Fault Refusal := .next (smbAnswer (fun s => leBytes 2 (statusWord s)) s)
/-- TEMP_DIE (R465): the hottest junction of each die. -/
def execTempDie (s : State) : Host.Outcome State Fault Refusal := .next (smbAnswer (fun s => (List.range 2).map fun d => BitVec.ofNat 8 (s.pwr.temps.getD d 0)) s)
/-- TEMP_HBM (R465): stacks 0 to 7. -/
def execTempHbm (s : State) : Host.Outcome State Fault Refusal := .next (smbAnswer (fun s => (List.range 8).map fun k => BitVec.ofNat 8 (s.pwr.stackT.getD k 0)) s)
/-- VIN (R465). -/
def execVin (s : State) : Host.Outcome State Fault Refusal := .next (smbAnswer (fun s => leBytes 2 s.pwr.vin) s)
/-- PIN (R465): a reading of the power monitor. -/
def execPin (s : State) : Host.Outcome State Fault Refusal :=
  .next (if smbUp s then drawn (smbAnswer (fun s => leBytes 2 (Config.power s.fresh).toNat) s) else s)
/-- SLOT (R465). -/
def execSlot (s : State) : Host.Outcome State Fault Refusal := .next (smbAnswer (fun s => leBytes 1 s.pwr.slotId) s)
/-- MODID (R465). -/
def execModid (s : State) : Host.Outcome State Fault Refusal := .next (smbAnswer (fun s => leBytes 2 s.sec.modid) s)
/-- TERRACE (R465). -/
def execTerrace (s : State) : Host.Outcome State Fault Refusal := .next (smbAnswer (fun s => leBytes 1 s.pwr.terrace) s)
/-- CLEAR_ALERT (R465): `ALERT_N` is released when no cause remains. -/
def execClearAlert (s : State) : Host.Outcome State Fault Refusal :=
  .next (if smbUp s ∧ ¬ s.pwr.warm then { s with pwr := { s.pwr with alert := false } } else s)

end Sys2Proof.Machine
end

