-- ==== Sys2Proof/Machine/Dispatch.lean ====
section
/-! DEFINITION. One arm per command. -/
namespace Sys2Proof.Machine

/-- The effect of a command on everything but the queue. -/
def exec (i : Instr) (s : State) : Host.Outcome State Fault Refusal :=
  match i with
  | .tickSourceEdge src => Sys2Proof.Machine.execTickSourceEdge src s
  | .tickSymbolArrival n tick delay => Sys2Proof.Machine.execTickSymbolArrival n tick delay s
  | .tickBoundary ptmA ptmB => Sys2Proof.Machine.execTickBoundary ptmA ptmB s
  | .missedBoundary => Sys2Proof.Machine.execMissedBoundary s
  | .holdoverExpiry => Sys2Proof.Machine.execHoldoverExpiry s
  | .tickNumberExhausted => Sys2Proof.Machine.execTickNumberExhausted s
  | .tickStart port => Sys2Proof.Machine.execTickStart port s
  | .tickNumStartWrite port v => Sys2Proof.Machine.execTickNumStartWrite port v s
  | .commitZoneOpen ev => Sys2Proof.Machine.execCommitZoneOpen ev s
  | .voteSend => Sys2Proof.Machine.execVoteSend s
  | .voteArrival v => Sys2Proof.Machine.execVoteArrival v s
  | .voteCutoff => Sys2Proof.Machine.execVoteCutoff s
  | .verdictDecide => Sys2Proof.Machine.execVerdictDecide s
  | .verdictArrival v => Sys2Proof.Machine.execVerdictArrival v s
  | .watershedCommit => Sys2Proof.Machine.execWatershedCommit s
  | .watershedDiscard => Sys2Proof.Machine.execWatershedDiscard s
  | .inDoubt => Sys2Proof.Machine.execInDoubt s
  | .overflowStagingCopy port => Sys2Proof.Machine.execOverflowStagingCopy port s
  | .boundaryCellDiscard p => Sys2Proof.Machine.execBoundaryCellDiscard p s
  | .journalDrain die => Sys2Proof.Machine.execJournalDrain die s
  | .domainResume port => Sys2Proof.Machine.execDomainResume port s
  | .coreFenceReload p => Sys2Proof.Machine.execCoreFenceReload p s
  | .fopRequest who fop => Sys2Proof.Machine.execFopRequest who fop s
  | .pllLock die => Sys2Proof.Machine.execPllLock die s
  | .fopStepDown => Sys2Proof.Machine.execFopStepDown s
  | .fopStepUp => Sys2Proof.Machine.execFopStepUp s
  | .marginFall g k step => Sys2Proof.Machine.execMarginFall g k step s
  | .sentinelWarning g => Sys2Proof.Machine.execSentinelWarning g s
  | .colHold c => Sys2Proof.Machine.execColHold c s
  | .instructionIssue d ev => Sys2Proof.Machine.execInstructionIssue d ev s
  | .queueEntry d => Sys2Proof.Machine.execQueueEntry d s
  | .signalStage p => Sys2Proof.Machine.execSignalStage p s
  | .sqnop d ev => Sys2Proof.Machine.execSqnop d ev s
  | .sqrep d ev => Sys2Proof.Machine.execSqrep d ev s
  | .sqhold d ev => Sys2Proof.Machine.execSqhold d ev s
  | .holdRelease id => Sys2Proof.Machine.execHoldRelease id s
  | .sqend d ev => Sys2Proof.Machine.execSqend d ev s
  | .feload p ev => Sys2Proof.Machine.execFeload p ev s
  | .festore p ev => Sys2Proof.Machine.execFestore p ev s
  | .fearm p => Sys2Proof.Machine.execFearm p s
  | .ferearm p => Sys2Proof.Machine.execFerearm p s
  | .feclose p => Sys2Proof.Machine.execFeclose p s
  | .fefabrd p => Sys2Proof.Machine.execFefabrd p s
  | .fefabwr p ev => Sys2Proof.Machine.execFefabwr p ev s
  | .feovrd p ev => Sys2Proof.Machine.execFeovrd p ev s
  | .feovwr p ev => Sys2Proof.Machine.execFeovwr p ev s
  | .febatch p ev => Sys2Proof.Machine.execFebatch p ev s
  | .feegr p ev => Sys2Proof.Machine.execFeegr p ev s
  | .mxldw p ev => Sys2Proof.Machine.execMxldw p ev s
  | .mxlds p ev => Sys2Proof.Machine.execMxlds p ev s
  | .mxrun p ev => Sys2Proof.Machine.execMxrun p ev s
  | .arrayRampDown p => Sys2Proof.Machine.execArrayRampDown p s
  | .puacc p ev => Sys2Proof.Machine.execPuacc p ev s
  | .puflush p ev => Sys2Proof.Machine.execPuflush p ev s
  | .pucensus p => Sys2Proof.Machine.execPucensus p s
  | .puclr p => Sys2Proof.Machine.execPuclr p s
  | .puvec p ev => Sys2Proof.Machine.execPuvec p ev s
  | .postInputArrival p => Sys2Proof.Machine.execPostInputArrival p s
  | .vxld p ev => Sys2Proof.Machine.execVxld p ev s
  | .vxst p ev => Sys2Proof.Machine.execVxst p ev s
  | .vxepl p ev => Sys2Proof.Machine.execVxepl p ev s
  | .vxep p => Sys2Proof.Machine.execVxep p s
  | .vxcvt p => Sys2Proof.Machine.execVxcvt p s
  | .vxcmp p => Sys2Proof.Machine.execVxcmp p s
  | .vxexp p => Sys2Proof.Machine.execVxexp p s
  | .vxband p => Sys2Proof.Machine.execVxband p s
  | .vxperm p => Sys2Proof.Machine.execVxperm p s
  | .vxshuf p => Sys2Proof.Machine.execVxshuf p s
  | .vxpack p => Sys2Proof.Machine.execVxpack p s
  | .vxunpk p => Sys2Proof.Machine.execVxunpk p s
  | .vxtree p => Sys2Proof.Machine.execVxtree p s
  | .vxopt p => Sys2Proof.Machine.execVxopt p s
  | .vxsracc p => Sys2Proof.Machine.execVxsracc p s
  | .vxrand p => Sys2Proof.Machine.execVxrand p s
  | .vxmask p => Sys2Proof.Machine.execVxmask p s
  | .chopen p => Sys2Proof.Machine.execChopen p s
  | .chclose p => Sys2Proof.Machine.execChclose p s
  | .chsend p ev => Sys2Proof.Machine.execChsend p ev s
  | .chsig p => Sys2Proof.Machine.execChsig p s
  | .chmcast p ev => Sys2Proof.Machine.execChmcast p ev s
  | .chbar p => Sys2Proof.Machine.execChbar p s
  | .chrole p => Sys2Proof.Machine.execChrole p s
  | .tsread p time => Sys2Proof.Machine.execTsread p time s
  | .entropy p avail => Sys2Proof.Machine.execEntropy p avail s
  | .cntread p => Sys2Proof.Machine.execCntread p s
  | .hostpoll p avail => Sys2Proof.Machine.execHostpoll p avail s
  | .sendBufferDepart p => Sys2Proof.Machine.execSendBufferDepart p s
  | .thli p => Sys2Proof.Machine.execThli p s
  | .thadd p => Sys2Proof.Machine.execThadd p s
  | .thsub p => Sys2Proof.Machine.execThsub p s
  | .thand p => Sys2Proof.Machine.execThand p s
  | .thor p => Sys2Proof.Machine.execThor p s
  | .thxor p => Sys2Proof.Machine.execThxor p s
  | .thshl p => Sys2Proof.Machine.execThshl p s
  | .thshr p => Sys2Proof.Machine.execThshr p s
  | .thmul p => Sys2Proof.Machine.execThmul p s
  | .thcmp p => Sys2Proof.Machine.execThcmp p s
  | .thbr p => Sys2Proof.Machine.execThbr p s
  | .thjmp p => Sys2Proof.Machine.execThjmp p s
  | .thlds p ev => Sys2Proof.Machine.execThlds p ev s
  | .thsts p => Sys2Proof.Machine.execThsts p s
  | .thbase p => Sys2Proof.Machine.execThbase p s
  | .thexit p => Sys2Proof.Machine.execThexit p s
  | .threadIssue p => Sys2Proof.Machine.execThreadIssue p s
  | .threadedStreamHalt p ctx cause addr => Sys2Proof.Machine.execThreadedStreamHalt p ctx cause addr s
  | .coreModeChange p m => Sys2Proof.Machine.execCoreModeChange p m s
  | .coreReset p => Sys2Proof.Machine.execCoreReset p s
  | .watchdogExpiry die => Sys2Proof.Machine.execWatchdogExpiry die s
  | .watchdogKick die => Sys2Proof.Machine.execWatchdogKick die s
  | .serviceMailboxRequest port r => Sys2Proof.Machine.execServiceMailboxRequest port r s
  | .threadedWorkLoad p store => Sys2Proof.Machine.execThreadedWorkLoad p store s
  | .imageLoad img mod seed data => Sys2Proof.Machine.execImageLoad img mod seed data s
  | .phaseLoad img carry sw data => Sys2Proof.Machine.execPhaseLoad img carry sw data s
  | .phaseArm port cold => Sys2Proof.Machine.execPhaseArm port cold s
  | .phaseCancel port => Sys2Proof.Machine.execPhaseCancel port s
  | .phaseBridge => Sys2Proof.Machine.execPhaseBridge s
  | .coldBoundary => Sys2Proof.Machine.execColdBoundary s
  | .phaseAbort => Sys2Proof.Machine.execPhaseAbort s
  | .taskReset port => Sys2Proof.Machine.execTaskReset port s
  | .depositSlotAccess p bank ev => Sys2Proof.Machine.execDepositSlotAccess p bank ev s
  | .basinScrubWriteback p bank row word => Sys2Proof.Machine.execBasinScrubWriteback p bank row word s
  | .fieldRepair p bank row => Sys2Proof.Machine.execFieldRepair p bank row s
  | .elasticSinkDrain p flag => Sys2Proof.Machine.execElasticSinkDrain p flag s
  | .remoteWrite p => Sys2Proof.Machine.execRemoteWrite p s
  | .remoteRead p => Sys2Proof.Machine.execRemoteRead p s
  | .hbmRefresh stack lane => Sys2Proof.Machine.execHbmRefresh stack lane s
  | .hbmScrub die unit ev => Sys2Proof.Machine.execHbmScrub die unit ev s
  | .overflowCompletion p tag row bytes => Sys2Proof.Machine.execOverflowCompletion p tag row bytes s
  | .pcieCompletionError p tag => Sys2Proof.Machine.execPcieCompletionError p tag s
  | .overflowResume port => Sys2Proof.Machine.execOverflowResume port s
  | .overflowTimeout => Sys2Proof.Machine.execOverflowTimeout s
  | .ovfXentWrite port entry => Sys2Proof.Machine.execOvfXentWrite port entry s
  | .openRequestArrival p => Sys2Proof.Machine.execOpenRequestArrival p s
  | .openReplyArrival p => Sys2Proof.Machine.execOpenReplyArrival p s
  | .cellArrival p => Sys2Proof.Machine.execCellArrival p s
  | .senderReplyArrival p => Sys2Proof.Machine.execSenderReplyArrival p s
  | .creditArrival p => Sys2Proof.Machine.execCreditArrival p s
  | .closeCellArrival p => Sys2Proof.Machine.execCloseCellArrival p s
  | .frespArrival p => Sys2Proof.Machine.execFrespArrival p s
  | .barrierArrival p => Sys2Proof.Machine.execBarrierArrival p s
  | .barrierRelease p => Sys2Proof.Machine.execBarrierRelease p s
  | .domainBarrierArrival p => Sys2Proof.Machine.execDomainBarrierArrival p s
  | .linkTraining n slow delay => Sys2Proof.Machine.execLinkTraining n slow delay s
  | .trainingTimeout n => Sys2Proof.Machine.execTrainingTimeout n s
  | .capabilityCellArrival n pay => Sys2Proof.Machine.execCapabilityCellArrival n pay s
  | .linkRetrain port n => Sys2Proof.Machine.execLinkRetrain port n s
  | .linkEnable port n en => Sys2Proof.Machine.execLinkEnable port n en s
  | .linkctlAck n seq credits => Sys2Proof.Machine.execLinkctlAck n seq credits s
  | .linkctlNak n seq credits => Sys2Proof.Machine.execLinkctlNak n seq credits s
  | .ackTimeout n => Sys2Proof.Machine.execAckTimeout n s
  | .ackSend n => Sys2Proof.Machine.execAckSend n s
  | .linkCellReceive n c half uncorr syms => Sys2Proof.Machine.execLinkCellReceive n c half uncorr syms s
  | .portDown n cause => Sys2Proof.Machine.execPortDown n cause s
  | .portFence n => Sys2Proof.Machine.execPortFence n s
  | .routerForward die x y => Sys2Proof.Machine.execRouterForward die x y s
  | .fencedAckArrival p => Sys2Proof.Machine.execFencedAckArrival p s
  | .externTransfer die region off rows dmod => Sys2Proof.Machine.execExternTransfer die region off rows dmod s
  | .externArrival die src c => Sys2Proof.Machine.execExternArrival die src c s
  | .saddleSpareLane => Sys2Proof.Machine.execSaddleSpareLane s
  | .hostOwnOffer port => Sys2Proof.Machine.execHostOwnOffer port s
  | .hostOwnAccept port => Sys2Proof.Machine.execHostOwnAccept port s
  | .offerLapse => Sys2Proof.Machine.execOfferLapse s
  | .hostOwnTake port => Sys2Proof.Machine.execHostOwnTake port s
  | .hpHelloWrite port v => Sys2Proof.Machine.execHpHelloWrite port v s
  | .ringHeadWrite port r v => Sys2Proof.Machine.execRingHeadWrite port r v s
  | .ringEnable port r v => Sys2Proof.Machine.execRingEnable port r v s
  | .ringRecordWrite port r => Sys2Proof.Machine.execRingRecordWrite port r s
  | .intakeWordWrite port w => Sys2Proof.Machine.execIntakeWordWrite port w s
  | .intakeTrailer port w => Sys2Proof.Machine.execIntakeTrailer port w s
  | .intakeStop port why => Sys2Proof.Machine.execIntakeStop port why s
  | .intakeEnable port en => Sys2Proof.Machine.execIntakeEnable port en s
  | .ltrToleranceWrite port ns => Sys2Proof.Machine.execLtrToleranceWrite port ns s
  | .attest port => Sys2Proof.Machine.execAttest port s
  | .cert port => Sys2Proof.Machine.execCert port s
  | .svnCommit port => Sys2Proof.Machine.execSvnCommit port s
  | .signatureComplete => Sys2Proof.Machine.execSignatureComplete s
  | .epochRecord => Sys2Proof.Machine.execEpochRecord s
  | .auditSnapshot port => Sys2Proof.Machine.execAuditSnapshot port s
  | .journalCopy port data => Sys2Proof.Machine.execJournalCopy port data s
  | .pcSample d => Sys2Proof.Machine.execPcSample d s
  | .traceCopy port => Sys2Proof.Machine.execTraceCopy port s
  | .pcntGo port p => Sys2Proof.Machine.execPcntGo port p s
  | .gcntSelect port n v => Sys2Proof.Machine.execGcntSelect port n v s
  | .terraceEntry => Sys2Proof.Machine.execTerraceEntry s
  | .terraceShutdownDone => Sys2Proof.Machine.execTerraceShutdownDone s
  | .terraceExit why => Sys2Proof.Machine.execTerraceExit why s
  | .pwrWake port => Sys2Proof.Machine.execPwrWake port s
  | .powerOn vin slotId recovery => Sys2Proof.Machine.execPowerOn vin slotId recovery s
  | .powerDown vin => Sys2Proof.Machine.execPowerDown vin s
  | .overvoltageShutoff vin => Sys2Proof.Machine.execOvervoltageShutoff vin s
  | .moduleReset both => Sys2Proof.Machine.execModuleReset both s
  | .hostPortReset port linkDown => Sys2Proof.Machine.execHostPortReset port linkDown s
  | .boot f => Sys2Proof.Machine.execBoot f s
  | .thermalAlert die0 die1 hbmT => Sys2Proof.Machine.execThermalAlert die0 die1 hbmT s
  | .thermalThrottle die0 die1 hbmT => Sys2Proof.Machine.execThermalThrottle die0 die1 hbmT s
  | .thermalTrip die0 die1 hbmT => Sys2Proof.Machine.execThermalTrip die0 die1 hbmT s
  | .status => Sys2Proof.Machine.execStatus s
  | .tempDie => Sys2Proof.Machine.execTempDie s
  | .tempHbm => Sys2Proof.Machine.execTempHbm s
  | .vin => Sys2Proof.Machine.execVin s
  | .pin => Sys2Proof.Machine.execPin s
  | .slot => Sys2Proof.Machine.execSlot s
  | .modid => Sys2Proof.Machine.execModid s
  | .terrace => Sys2Proof.Machine.execTerrace s
  | .clearAlert => Sys2Proof.Machine.execClearAlert s
  | .registerWrite port bar off v => Sys2Proof.Machine.execRegisterWrite port bar off v s
  | .readClear port bar off => Sys2Proof.Machine.execReadClear port bar off s
  | .irqMessage page => Sys2Proof.Machine.execIrqMessage page s
  | .marginRecovery g k step => Sys2Proof.Machine.execMarginRecovery g k step s
  | .instructionRefillBeat d ev => Sys2Proof.Machine.execInstructionRefillBeat d ev s
  | .controllerRestartDone die => Sys2Proof.Machine.execControllerRestartDone die s
  | .serviceCellArrival die => Sys2Proof.Machine.execServiceCellArrival die s
  | .hostPortLinkUp port rate width => Sys2Proof.Machine.execHostPortLinkUp port rate width s
  | .moduleResetRelease perstA perstB slotId recovery => Sys2Proof.Machine.execModuleResetRelease perstA perstB slotId recovery s

end Sys2Proof.Machine
end

