-- ==== Sys2Proof/Machine/Lc.lean ====
section
/-! DEFINITION. One lc of the block (R40): what the image, K and the releases fix for it happens in it, with or without its command, and then
the lc passes. A command of this lc makes its part of it beforehand, with the faults that strike (notes/assumptions/69.md). -/
namespace Sys2Proof.Machine

/-- The state after a command that is made without being commanded; one that does not apply leaves it as it is. -/
def ran (o : Host.Outcome State Fault Refusal) (s : State) : State := match o with | .next t => t | _ => s

/-! ### Cells -/

/-- The stops that hold cells forward in this lc (R299). -/
def stopsLc (s : State) : State :=
  s.fab.stop.foldl (fun s x =>
    if x.2.ins.all fun i => i.2.isEmpty then s
    else routerForward (x.1 / 96) (x.1 % 12) (x.1 % 96 / 12) s) s

/-- The oldest cell at core p arrives, by its type (R290). -/
def cellLc (p : Nat) (s : State) : State :=
  match (coreAt s p).ch.inbox with
  | [] => s
  | (_, c) :: _ =>
    match cType c with
    | 4 => ran (execFrespArrival p s) s
    | 6 => ran (execOpenRequestArrival p s) s
    | 7 =>
      if [rAccept, rRefuse].contains (cPay c 6 1) then ran (execOpenReplyArrival p s) s
      else if cPay c 6 1 = rFenced then ran (execFencedAckArrival p s) s
      else if [rClosed, rMiss, rFord].contains (cPay c 6 1) then ran (execSenderReplyArrival p s) s
      else dropRecv p (popCell p s)
    | 8 => ran (execCreditArrival p s) s
    | 9 => ran (execCloseCellArrival p s) s
    | 10 =>
      if cPay c 7 1 = 0 then ran (execBarrierArrival p s) s
      else if cPay c 7 1 = 2 then ran (execDomainBarrierArrival p s) s
      else if [1, 3].contains (cPay c 7 1) then ran (execBarrierRelease p s) s
      else dropRecv p (popCell p s)
    | 11 | 12 | 13 | 15 => dropRecv p (popCell p s)
    | _ => ran (execCellArrival p s) s

/-- The cells at core p arrive. -/
def cellsLc (p : Nat) (s : State) : State := foldN (coreAt s p).ch.inbox.length (fun s _ => cellLc p s) s

/-! ### Dales -/

/-- The holds at which a dale waits (R89). -/
def holdsLc (s : State) : State :=
  (s.dales.filterMap fun d => d.2.hold.map (·.1)).foldl (fun s id => ran (execHoldRelease id s) s) s

/-- The groups whose lc it is enter the queues (R48). -/
def queuesLc (s : State) : State :=
  s.dales.foldl (fun s d => if d.2.flight.isEmpty then s else ran (execQueueEntry d.1 s) s) s

/-- The next instruction of dale d issues, one of the sequencer is executed (R47). -/
def issueNext (d : Nat) (s : State) : State :=
  match nextIssue s (daleAt s d) with
  | .ins i =>
    if iUnit i ≠ 0 then (issueOne d [] s).1
    else match iOp i with
      | 0x00 => ran (execSqnop d [] s) s
      | 0x01 => ran (execSqrep d [] s) s
      | 0x02 => ran (execSqhold d [] s) s
      | _ => ran (execSqend d [] s) s
  | _ => (issueOne d [] s).1

/-- Up to four words of dale d issue (R47). -/
def issueLc (d : Nat) (s : State) : State := foldN 4 (fun s _ => issueNext d s) s

/-! ### Units -/

/-- Unit u of core p starts the instruction at the head of its queue, if it can (R50). -/
def startUnitLc (p u : Nat) (s : State) : State :=
  match unitQ (coreAt s p) u with
  | [] => s
  | i :: _ =>
    match u, iOp i with
    | 1, 0x01 => ran (execFeload p [] s) s
    | 1, 0x02 => ran (execFestore p [] s) s
    | 1, 0x03 => ran (execFearm p s) s
    | 1, 0x04 => ran (execFerearm p s) s
    | 1, 0x05 => ran (execFeclose p s) s
    | 1, 0x08 => ran (execFefabrd p s) s
    | 1, 0x09 => ran (execFefabwr p [] s) s
    | 1, 0x0A => ran (execFeovrd p [] s) s
    | 1, 0x0B => ran (execFeovwr p [] s) s
    | 1, 0x0C => ran (execFebatch p [] s) s
    | 1, 0x0D => ran (execFeegr p [] s) s
    | 2, 0x01 => ran (execMxldw p [] s) s
    | 2, 0x02 => ran (execMxrun p [] s) s
    | 2, 0x03 => ran (execMxlds p [] s) s
    | 3, 0x01 => ran (execPuacc p [] s) s
    | 3, 0x02 => ran (execPuflush p [] s) s
    | 3, 0x03 => ran (execPucensus p s) s
    | 3, 0x04 => ran (execPuclr p s) s
    | 3, 0x05 => ran (execPuvec p [] s) s
    | 4, 0x01 => ran (execVxld p [] s) s
    | 4, 0x02 => ran (execVxst p [] s) s
    | 4, 0x03 => ran (execVxepl p [] s) s
    | 4, 0x04 => ran (execVxep p s) s
    | 4, 0x05 => ran (execVxcvt p s) s
    | 4, 0x06 => ran (execVxcmp p s) s
    | 4, 0x07 => ran (execVxexp p s) s
    | 4, 0x08 => ran (execVxband p s) s
    | 4, 0x09 => ran (execVxperm p s) s
    | 4, 0x0A => ran (execVxshuf p s) s
    | 4, 0x0B => ran (execVxpack p s) s
    | 4, 0x0C => ran (execVxunpk p s) s
    | 4, 0x0D => ran (execVxtree p s) s
    | 4, 0x0E => ran (execVxopt p s) s
    | 4, 0x0F => ran (execVxsracc p s) s
    | 4, 0x10 => ran (execVxrand p s) s
    | 4, 0x11 => ran (execVxmask p s) s
    | 5, 0x01 => ran (execChopen p s) s
    | 5, 0x02 => ran (execChclose p s) s
    | 5, 0x03 => ran (execChsend p [] s) s
    | 5, 0x04 => ran (execChsig p s) s
    | 5, 0x05 => ran (execChmcast p [] s) s
    | 5, 0x06 => ran (execChbar p s) s
    | 5, 0x07 => ran (execChrole p s) s
    | 5, 0x10 => ran (execTsread p none s) s
    | 5, 0x11 => ran (execEntropy p (List.replicate (iSteps i) true) s) s
    | 5, 0x12 => ran (execCntread p s) s
    | 5, 0x13 => ran (execHostpoll p true s) s
    | _, _ => s

/-- The threaded control instruction at hand is executed (R119). -/
def controlLc (p : Nat) (s : State) : State :=
  match (coreAt s p).th.issued with
  | none => s
  | some (_, i) =>
    match iOp i with
    | 0x01 => ran (execThli p s) s
    | 0x02 => ran (execThadd p s) s
    | 0x03 => ran (execThsub p s) s
    | 0x04 => ran (execThand p s) s
    | 0x05 => ran (execThor p s) s
    | 0x06 => ran (execThxor p s) s
    | 0x07 => ran (execThshl p s) s
    | 0x08 => ran (execThshr p s) s
    | 0x09 => ran (execThmul p s) s
    | 0x0A => ran (execThcmp p s) s
    | 0x0B => ran (execThbr p s) s
    | 0x0C => ran (execThjmp p s) s
    | 0x0D => ran (execThlds p [] s) s
    | 0x0E => ran (execThsts p s) s
    | 0x0F => ran (execThbase p s) s
    | _ => ran (execThexit p s) s

/-- A thread of core p issues (R63). -/
def threadLc (p : Nat) (s : State) : State :=
  if (coreAt s p).mode = .threaded then controlLc p (threadIssue p (controlLc p s)) else s

/-! ### Basins and sends -/

/-- Remote accesses at core p meet their fords (R214). -/
def fordsLc (p : Nat) (s : State) : State :=
  foldN (coreAt s p).fe.remote.length (fun s _ => remoteRead p (remoteWrite p s)) s

/-- The banks of core p serve what waits for their deposit slots of this lc (R202). -/
def slotsLc (p : Nat) (s : State) : State :=
  let b := (coreAt s p).bsn
  if b.trust.isEmpty && b.dep.isEmpty then s else foldN 16 (fun s k => depositSlot [] p k s) s

/-- The elastic sinks take what has landed on their flags (R246). -/
def sinksLc (p : Nat) (s : State) : State :=
  match s.task.img with
  | none => s
  | some im => (im.strms.filter fun d => decide (d.kind = 7)).foldl (fun s d => sinkDrain p d.cred s) s

/-- The cells in core p's send buffer that may leave do (R268). -/
def sendsLc (p : Nat) (s : State) : State := foldN (coreAt s p).ch.sbuf.length (fun s _ => sendBufferDepart p s) s

/-- Result rows whose lc it is reach the post unit (R112). -/
def rowsLc (p : Nat) (s : State) : State := foldN (coreAt s p).mx.fly.length (fun s _ => postArrival p s) s

/-- What comes to core p in an lc before its units work: rows, starts in ascending UNIT (R99), threads, drained sinks, remote accesses, the
deposit slots and the send buffer. -/
def coreBegin (p : Nat) (s : State) : State :=
  let s1 := rampDown p (foldN 5 (fun s u => startUnitLc p (u + 1) s) (rowsLc p s))
  sendsLc p (slotsLc p (fordsLc p (sinksLc p (threadLc p s1))))

/-! ### The lc -/

/-- What this lc still has to bring: cells, released holds, queue entries, the cores' starts, issue, and holds that are reached in it. -/
def lcBegin (s : State) : State :=
  let s1 := stopsLc s
  let s2 := queuesLc (holdsLc (s1.cores.foldl (fun s c => cellsLc c.1 s) s1))
  let s3 := s2.cores.foldl (fun s c => coreBegin c.1 s) s2
  holdsLc (s3.dales.foldl (fun s d => issueLc d.1 s) s3)

/-- What a port or the hardware has done in the lc is over (R13). -/
def hostLc (s : State) : State :=
  if s.host.hw.isEmpty && s.host.rcRead.isEmpty then s else { s with host := { s.host with hw := [], rcRead := [] } }

/-- One lc passes: what it still brings, the cores' work, the samples taken at its end (R426), the clock, and the words that can be read in the next lc (R28). -/
def endLc (s : State) : State :=
  let s1 := lcBegin s
  let s2 := holdLcs (s1.cores.foldl (fun s c => coreLc c.1 s) s1)
  let s3 := noteBodyEnd (bridgeLc (samplesLc s2))
  let s4 := regionLc s3
  colLc (hostLc (stretched (timePasses (lcQuarters s3 s4) s4)))

end Sys2Proof.Machine
end

