-- ==== Sys2Proof/Machine/Step.lean ====
section
/-! DEFINITION. One step of the block: the command at the front of the queue, or, on an empty queue, the end of one lc
(notes/assumptions/2.md). -/
namespace Sys2Proof.Machine

/-- The command at the front runs on the state with the queue's rest; an empty queue lets one lc pass. -/
def step (s : State) : Host.Outcome State Fault Refusal :=
  match s.pending with
  | [] => .next (Sys2Proof.Machine.endLc s)
  | i :: rest => Sys2Proof.Machine.exec i { s with pending := rest }

/-- The command that a table word spells, put at the front of the queue: the table spells none. -/
def State.withFetchWord (s : State) (nbits w : Nat) : State :=
  match Sys2Proof.decodeTableWord nbits w with
  | none => s
  | some i => { s with pending := i :: s.pending }

end Sys2Proof.Machine
end

