-- ==== Sys2Proof/Safety.lean ====
section
/-! DEFINITION. What counts as a safe run of the block, in the terms statements use: a run of commands that the block answers with a next
state each; and what a command leaves as it was, field by field. -/
namespace Sys2Proof.Machine

/-- Command `c` answers a next state of which `P` holds. -/
def Completes (c : Instr) (s : State) (P : State → Prop) : Prop := ∃ t, exec c s = .next t ∧ P t

/-- `P` holds of the next state, where command `c` answers one. -/
def After (c : Instr) (s : State) (P : State → Prop) : Prop := ∀ t, exec c s = .next t → P t

/-- A host write of register offset `a` by `port` takes effect: boot is done or the page is the service page, the port may write the offset,
and the page is not locked (R317, R409, R441). -/
def Served (s : State) (port : Port) (a : Nat) : Prop := bar0Open s a = true ∧ mayWrite s port a = true ∧ locked s a = false

/-- The states that steps reach from `s`. -/
inductive Reaches (s : State) : State → Prop where
  | here : Reaches s s
  | step {t u : State} : Reaches s t → Sys2Proof.Machine.step t = .next u → Reaches s u

/-- A state from which no step stops. -/
def Safe (s : State) : Prop := ∀ t, Reaches s t → ∃ u, Sys2Proof.Machine.step t = .next u

/-! ### What is left unchanged -/

/-- The fields of `State`. -/
inductive SFld where
  | pending | regs | evts | cores | dales | holds | clk | task | phase | hbm | cmt | host | fab | sec | trc | pwr | ctl | fresh | out
  deriving DecidableEq, Repr

/-- The fields of `Core`. -/
inductive CFld where
  | mode | modeNext | fenced | stale | lidx | k | task | modIdx | q | busy | started | came | sigs | job | obj | adds | takes | pubObj
  | pubEp | pubEpoch | pubFord | rst | fe | bsn | mx | pu | vx | ch | th | pc | vlog | vold | issue
  deriving DecidableEq, Repr

/-- Every field of a list is in another. -/
def SFld.sub (a b : List SFld) : Bool := a.all fun x => b.contains x
def CFld.sub (a b : List CFld) : Bool := a.all fun x => b.contains x

/-- A core agrees with another in every field outside `D`. -/
structure CUpd (D : List CFld) (c e : Core) : Prop where
  mode : D.contains .mode = false → e.mode = c.mode
  modeNext : D.contains .modeNext = false → e.modeNext = c.modeNext
  fenced : D.contains .fenced = false → e.fenced = c.fenced
  stale : D.contains .stale = false → e.stale = c.stale
  lidx : D.contains .lidx = false → e.lidx = c.lidx
  k : D.contains .k = false → e.k = c.k
  task : D.contains .task = false → e.task = c.task
  modIdx : D.contains .modIdx = false → e.modIdx = c.modIdx
  q : D.contains .q = false → e.q = c.q
  busy : D.contains .busy = false → e.busy = c.busy
  started : D.contains .started = false → e.started = c.started
  came : D.contains .came = false → e.came = c.came
  sigs : D.contains .sigs = false → e.sigs = c.sigs
  job : D.contains .job = false → e.job = c.job
  obj : D.contains .obj = false → e.obj = c.obj
  adds : D.contains .adds = false → e.adds = c.adds
  takes : D.contains .takes = false → e.takes = c.takes
  pubObj : D.contains .pubObj = false → e.pubObj = c.pubObj
  pubEp : D.contains .pubEp = false → e.pubEp = c.pubEp
  pubEpoch : D.contains .pubEpoch = false → e.pubEpoch = c.pubEpoch
  pubFord : D.contains .pubFord = false → e.pubFord = c.pubFord
  rst : D.contains .rst = false → e.rst = c.rst
  fe : D.contains .fe = false → e.fe = c.fe
  bsn : D.contains .bsn = false → e.bsn = c.bsn
  mx : D.contains .mx = false → e.mx = c.mx
  pu : D.contains .pu = false → e.pu = c.pu
  vx : D.contains .vx = false → e.vx = c.vx
  ch : D.contains .ch = false → e.ch = c.ch
  th : D.contains .th = false → e.th = c.th
  pc : D.contains .pc = false → e.pc = c.pc
  vlog : D.contains .vlog = false → e.vlog = c.vlog
  vold : D.contains .vold = false → e.vold = c.vold
  issue : D.contains .issue = false → e.issue = c.issue

/-- State `t` agrees with `s` outside the fields `F`; its cores agree outside the core fields `D`; with `o = some p` only core p differs. -/
structure Upd (F : List SFld) (D : List CFld) (o : Option Nat) (s t : State) : Prop where
  pending : F.contains .pending = false → t.pending = s.pending
  regs : F.contains .regs = false → t.regs = s.regs
  evts : F.contains .evts = false → t.evts = s.evts
  cores : F.contains .cores = false → t.cores = s.cores
  dales : F.contains .dales = false → t.dales = s.dales
  holds : F.contains .holds = false → t.holds = s.holds
  clk : F.contains .clk = false → t.clk = s.clk
  task : F.contains .task = false → t.task = s.task
  phase : F.contains .phase = false → t.phase = s.phase
  hbm : F.contains .hbm = false → t.hbm = s.hbm
  cmt : F.contains .cmt = false → t.cmt = s.cmt
  host : F.contains .host = false → t.host = s.host
  fab : F.contains .fab = false → t.fab = s.fab
  sec : F.contains .sec = false → t.sec = s.sec
  trc : F.contains .trc = false → t.trc = s.trc
  pwr : F.contains .pwr = false → t.pwr = s.pwr
  ctl : F.contains .ctl = false → t.ctl = s.ctl
  fresh : F.contains .fresh = false → t.fresh = s.fresh
  out : F.contains .out = false → t.out = s.out
  core : ∀ q, CUpd D (coreAt s q) (coreAt t q)
  other : ∀ p q, o = some p → q ≠ p → coreAt t q = coreAt s q

end Sys2Proof.Machine
end

