-- ==== Sys2Proof/Certificates/Slice0/Obligations.lean ====
section
/-! DEFINITION. The statements for the provers. -/
open Sys2Proof Sys2Proof.Machine


/-! ### The block and its queue -/
/-- For every command c, queue rest q and state s, the step of s with queue c :: q is exec c on s with queue q. The queue is the model's
own (notes/assumptions/1.md). (00_scope) -/
def Obligations.StepRunsFrontCommand : Prop :=
  ∀ (c : Instr) (q : List Instr) (s : State), step { s with pending := c :: q } = exec c { s with pending := q }

/-- On an empty queue a step ends the lc: the queue stays empty and the count of lc goes on by one; while ticks run the lc of the tick
goes on by one, and nominal periods by as many quarters as region 30 of die 0 takes to its next lc, 4 while no region differs from the
others; wall time goes on by that many quarters of the nominal period of the FOP in force. The tick number, the FOP, whether ticks run,
the power, security and controller states stand. That an lc ends on an empty queue is the model's choice (notes/assumptions/2.md).
Whatever the command, a step that answers a next state leaves the rest of the queue as it was. The queue is the model's own
(notes/assumptions/1.md). (R20,  R21,  R26,  R33,  00_scope) -/
def Obligations.QueueAndTime : Prop :=
  (∀ s : State, s.pending = [] → ∃ t, step s = .next t ∧ t.pending = [] ∧ t.clk.now = s.clk.now + 1
    ∧ t.clk.lc = (if s.clk.run then s.clk.lc + 1 else s.clk.lc)
    ∧ t.clk.npq = (if s.clk.run then s.clk.npq + lcQuarters s (regionLc s) else s.clk.npq)
    ∧ t.clk.wall = s.clk.wall + lcQuarters s (regionLc s) * fopQuarter s.clk.fop
    ∧ (s.clk.regions = [] → lcQuarters s (regionLc s) = 4)
    ∧ t.clk.num = s.clk.num ∧ t.clk.run = s.clk.run ∧ t.clk.fop = s.clk.fop
    ∧ t.sec = s.sec ∧ t.pwr = s.pwr ∧ t.ctl = s.ctl)
  ∧ (∀ s t : State, step s = .next t → t.pending = s.pending.tail)

/-- For every state, a command whose core, dale, die, port, region, col, ring or register offset exists answers a next state; no state
makes it stop. (R6,  R8,  R14) -/
def Obligations.WellFormedCommandsComplete : Prop :=
  ∀ (c : Instr) (s : State), c.wf = true → ∃ t, exec c s = .next t

/-- For every state, a command whose core, dale, die, port, region, col, ring or register offset does not exist is refused under the name
noSuch, and has no effect. (R6,  R8,  R14) -/
def Obligations.MissingObjectsRefused : Prop :=
  ∀ (c : Instr) (s : State), c.wf = false → ∃ what, exec c s = .refused (.noSuch what)


/-! ### Ticks, logical time and operating points -/
/-- In every state the zones follow R21 from the tick period and the zone settings, and with a period of 250 us and the default settings
they are those of R33's table at each of the eight operating points. A START that the owner writes while ticks stop, at a usable operating
point at which the loaded image is valid and outside the deeper terraces, is accepted and the module waits for its first boundary; it is
recorded in ERR_FIRST with cause 1, and starts nothing, at an operating point that is not usable or at which the image is not valid. A
write of TCK_NUM_START sets the number that the first boundary takes. (R21,  R33,  R20,  R23) -/
def Obligations.TickZonesAndStart : Prop :=
  ((∀ (s : State) (f : Nat),
    let n := fieldAt s (tckPage + 0x20) 0 17 * fopMHz f
    slotN s f = n ∧ slotZ s = fieldAt s (tckPage + 0x28) 16 16
      ∧ slotG s f = (n * fieldAt s (tckPage + 0x28) 0 7 + 999) / 1000 ∧ slotV s f = (n * fieldAt s (tckPage + 0x28) 7 7 + 999) / 1000
      ∧ bodyZone s f = n - slotG s f - slotZ s)
  ∧ ∀ s : State, s.regs = [] →
    let u := setReg (tckPage + 0x20) 250 s
    (List.range 8).map (fun f => (slotN u f, slotG u f, slotV u f, bodyZone u f, fopMHz f, fopRail f)) =
      [(375000, 11250, 3750, 359750, 1500, 850), (350000, 10500, 3500, 335500, 1400, 830), (325000, 9750, 3250, 311250, 1300, 810),
       (300000, 9000, 3000, 287000, 1200, 790), (275000, 8250, 2750, 262750, 1100, 770), (250000, 7500, 2500, 238500, 1000, 750),
       (218750, 6563, 2188, 208187, 875, 720), (187500, 5625, 1875, 177875, 750, 700)])
  ∧ (∀ (port : Port) (v : BitVec 48) (s : State),
    (Served s port (tckPage + 0x2C) → s.clk.run = false → s.clk.starting = false → s.pwr.startPend = false →
      (usable s s.clk.fop = true → taskValidAt s s.clk.fop = true → s.pwr.busy = false → s.pwr.terrace < 2 →
        ∃ t, exec (.tickStart port) s = .next t ∧ t.clk.starting = true ∧ t.clk.run = false ∧ t.clk.num = s.clk.num
          ∧ t.clk.numStart = s.clk.numStart ∧ Upd [.clk, .pwr, .regs, .host, .out] [] none s t)
      ∧ ((usable s s.clk.fop = false ∨ taskValidAt s s.clk.fop = false) →
        exec (.tickStart port) s = .next (refuseWrite port (tckPage + 0x2C) 1 s)))
    ∧ (Served s port (tckPage + 0x3C) →
      ∃ t, exec (.tickNumStartWrite port v) s = .next t ∧ t.clk = { s.clk with numStart := v.toNat } ∧ reg64 t (tckPage + 0x3C) = v.toNat
        ∧ (∀ a, a ≠ tckPage + 0x3C → a ≠ tckPage + 0x40 → regAt t a = regAt s a) ∧ Upd [.clk, .regs] [] none s t))

/-- While ticks run or start and no boundary is named, an edge of the primary source that falls within 64 nominal periods of the predicted
one, which lies N after the last boundary, less what a boundary of the module's own timer came late, or is the first after START, names
the boundary lc, 64 reference periods after the compensated edge; a good edge of the secondary source is kept for R18; any other edge
changes nothing. A tick symbol is an edge of its fabric port, its slot delay, the link's delay and the regeneration delay subtracted (lead
in lc: the model's reading of R27, notes/assumptions/25.md). When the window of the predicted edge has passed without a good primary edge,
the boundary is the one that the secondary source's edge names, if there is one and it has not passed, else the module's own timer makes
it at the predicted nominal period; after 8 boundaries or 2 ms in holdover, with no good edge in the slot, ticking is lost and stops at
the next boundary with interrupt bit 1 of the clock page; at the last tick number ticking stops at the next boundary. (R15,  R17,  R18,
R27,  R20) -/
def Obligations.EdgesNameBoundaries : Prop :=
  (∀ (src n tick delay gone lead : Nat) (s : State), (s.clk.run = true ∨ s.clk.starting = true) → s.clk.named = none →
    lead = cdiv ((512 + sext 6 (fieldAt s (tckPage + 0x24) 10 6) - (gone : Int)).toNat * fopMHz s.clk.fop) 12000 →
    (s.clk.starting = true ∨ (slotN s s.clk.fop : Int) - s.clk.slip ≤ npNow s + lead + 64 ∧ (npNow s + lead : Int) ≤ slotN s s.clk.fop - s.clk.slip + 64) →
    (okSource src = true → gone = 0 →
      (src = srcPri s → exec (.tickSourceEdge src) s =
        .next { s with clk := { s.clk with named := some (s.clk.now + lead), namedSec := false, namedTimer := false } })
      ∧ (src ≠ srcPri s → src = srcSecond s → exec (.tickSourceEdge src) s = .next { s with clk := { s.clk with secEdge := some (s.clk.now + lead) } })
      ∧ (src ≠ srcPri s → src ≠ srcSecond s → exec (.tickSourceEdge src) s = .next s))
    ∧ (okPort n = true → gone = delay + (lpAt s n).delay + 192 →
      (n = srcPri s → exec (.tickSymbolArrival n tick delay) s =
        .next { s with clk := { s.clk with named := some (s.clk.now + lead), namedSec := false, namedTimer := false } })
      ∧ (n ≠ srcPri s → n = srcSecond s → exec (.tickSymbolArrival n tick delay) s = .next { s with clk := { s.clk with secEdge := some (s.clk.now + lead) } })
      ∧ (n ≠ srcPri s → n ≠ srcSecond s → exec (.tickSymbolArrival n tick delay) s = .next s)))
  ∧ (∀ s : State,
    (s.clk.run = true → s.clk.named = none → (slotN s s.clk.fop : Int) - s.clk.slip + 64 < npNow s + leadLc s 0 →
      (∀ lc, s.clk.secEdge = some lc → srcSecond s ≠ 0x1E → exec .missedBoundary s = .next { s with clk := { s.clk with
        named := some (max s.clk.now lc), namedSec := true, namedTimer := false } })
      ∧ ((s.clk.secEdge = none ∨ srcSecond s = 0x1E) → exec .missedBoundary s = .next { s with clk := { s.clk with
        named := some (s.clk.now + ((slotN s s.clk.fop : Int) - s.clk.slip - npNow s).toNat), namedSec := false, namedTimer := true } }))
    ∧ (s.clk.holdover = true → s.clk.stopNext = false → (s.clk.named = none ∨ s.clk.namedTimer = true) →
      (s.clk.secEdge = none ∨ srcSecond s = 0x1E) → (8 ≤ s.clk.hoCnt ∨ 2000 * wallUs ≤ s.clk.wall - s.clk.hoWall) →
      exec .holdoverExpiry s = .next (irqRaise 2 (1 <<< 1) { s with clk := { s.clk with tickLost := true, stopNext := true } }))
    ∧ (s.clk.run = true → s.clk.num = 2 ^ 48 - 1 →
      exec .tickNumberExhausted s = .next { s with clk := { s.clk with stopNext := true } }))

/-- When the regions have reached the named boundary lc and ticks go on, the boundary opens the next slot: its number is one more, or
TCK_NUM_START at the first boundary after START; nominal periods count from 0; the named boundary is taken. An overrunning tick keeps its
lc count. Where ticks are to stop, they stop, and the number stands. (R20,  R27,  R37,  R38) -/
def Obligations.BoundaryOpensSlot : Prop :=
  ∀ (ptmA ptmB : Option W64) (s : State) (at_ : Nat), s.clk.named = some at_ → at_ ≤ s.clk.now → (s.clk.run = true ∨ s.clk.starting = true) →
    (s.clk.run = true → s.cmt.verdict = none ∧ s.cmt.inDoubt = false) →
    (s.clk.stopNext = false → s.phase.st ≠ 2 → s.cmt.resetPend = false →
      ∃ t, exec (.tickBoundary ptmA ptmB) s = .next t ∧ t.clk.run = true ∧ t.clk.named = none ∧ t.clk.npq = 0
        ∧ t.clk.num = (if s.clk.starting then s.clk.numStart else (s.clk.num + 1) % 2 ^ 48)
        ∧ t.clk.lc = (if s.cmt.persist ∧ s.cmt.ran then s.clk.lc else 0))
    ∧ (s.clk.run = true → s.clk.stopNext = true →
      ∃ t, exec (.tickBoundary ptmA ptmB) s = .next t ∧ t.clk.run = false ∧ t.clk.named = none ∧ t.clk.num = s.clk.num)

/-- A request writes TCK_FOP_CTL.FOP. One for a usable operating point at which the loaded images are valid, at least 4 ticks and 400 us
ahead, becomes the pending change with both idle loops unlocked, and the rails rise at once, each die's by its trim, where the target
needs more voltage; the operating point in force does not change. A request for an operating point that is not usable or not valid, or too
near, clears FOP_PEND, sets FOP_REFUSED, raises interrupt 4 of the clock page and is recorded in ERR_FIRST with cause 6 or 7 (that cause 6
also stands for a FOP that is not usable is the model's choice, notes/assumptions/65.md). The controller's request does the same, and
writes TCK_FOP_AT with the earliest tick that is far enough. While a change is pending, a die's idle loop locks to the target frequency,
which changes nothing else. (R33,  R34) -/
def Obligations.FopRequestTaken : Prop :=
  (∀ (port : Port) (fop at_ : Nat) (s : State), Served s port (tckPage + 0x30) → fop < 8 → at_ = reg64 s (tckPage + 0x34) % 2 ^ 48 →
    (usable s fop = true → fopValid s fop = true → s.clk.num + 4 ≤ at_ → 400 * wallUs ≤ wallTo s at_ →
      ∃ t, exec (.fopRequest (.host port) fop) s = .next t
        ∧ t.clk = { s.clk with fopPend := some (fop, at_), fopCtl := false, fopLate := false, pll := [false, false],
                               rail := if fopRail s.clk.fop < fopRail fop then (setRails fop s).clk.rail else s.clk.rail }
        ∧ fieldAt t (tckPage + 0x30) 0 3 = fop ∧ (∀ a, a ≠ tckPage + 0x30 → regAt t a = regAt s a) ∧ Upd [.clk, .regs] [] none s t)
    ∧ (∀ cause, ((usable s fop && fopValid s fop) = false ∧ cause = 6 ∨ (usable s fop && fopValid s fop) = true ∧ farEnough s at_ = false ∧ cause = 7) →
      let u := setField (tckPage + 0x30) 0 3 fop s
      exec (.fopRequest (.host port) fop) s = .next (refuseWrite port (tckPage + 0x30) cause (irqRaise 2 (1 <<< 4)
        (setBits (tckPage + 0x44) (1 <<< 6) { u with clk := { u.clk with fopPend := none } })))))
  ∧ (∀ (fop : Nat) (s : State), fop < 8 → usable s fop = true → fopValid s fop = true → 1 ≤ fieldAt s (tckPage + 0x20) 0 17 →
    ∃ t, exec (.fopRequest .controller fop) s = .next t
      ∧ t.clk.fopPend = some (fop, earliestFar s) ∧ t.clk.pll = [false, false] ∧ t.clk.fop = s.clk.fop
      ∧ fieldAt t (tckPage + 0x30) 0 3 = fop ∧ Upd [.clk, .regs] [] none s t)
  ∧ (∀ (die : Nat) (s : State) (p : Nat × Nat), die < 2 → s.clk.fopPend = some p →
    exec (.pllLock die) s = .next { s with clk := { s.clk with pll := s.clk.pll.set die true } })

/-- After a sentinel warning, 4 overruns within 1,024 ticks or an abandoned tick the controller schedules the next lower operating point,
if the image is valid there, and reports the condition where none is; the warnings are answered and the overruns counted afresh (that they
are is the model's choice, notes/assumptions/65.md). After 65,536 quiet ticks it schedules the next higher one, never above the image's
own. In T1 the service operating point held for the exit moves instead. (R34,  R36,  R39,  R399) -/
def Obligations.ServiceFopSteps : Prop :=
  ∀ s : State,
    let w := { clearWarned s with clk := { (clearWarned s).clk with overruns := [] } }
    ((s.clk.regions.any (fun r => r.2.warned) = true ∨ 4 ≤ s.clk.overruns.length ∨ bbit s.cmt.src 14 = true) →
      w.clk.regions.any (fun r => r.2.warned) = false
      ∧ (serviceFop s + 1 < 8 → usable s (serviceFop s + 1) = true → fopValid s (serviceFop s + 1) = true →
        (∀ f, s.clk.svcFop = some f → exec .fopStepDown s = .next { w with clk := { w.clk with svcFop := some (f + 1) } })
        ∧ (s.clk.svcFop = none → 1 ≤ fieldAt s (tckPage + 0x20) 0 17 →
          let u := setField (tckPage + 0x30) 0 3 (s.clk.fop + 1) (setReg64 (tckPage + 0x34) (earliestFar s) w)
          exec .fopStepDown s = .next { u with clk := { u.clk with
            fopPend := some (s.clk.fop + 1, earliestFar s), fopCtl := false, fopLate := false, pll := [false, false] } }))
      ∧ ((8 ≤ serviceFop s + 1 ∨ usable s (serviceFop s + 1) = false ∨ fopValid s (serviceFop s + 1) = false) →
        exec .fopStepDown s = .next (emit (.report 1) w)))
    ∧ (∀ f, serviceFop s = f + 1 → 65536 ≤ s.clk.quiet → (∀ im, s.task.img = some im → im.fop ≤ f) → usable s f = true → fopValid s f = true →
      s.clk.svcFop = none → 1 ≤ fieldAt s (tckPage + 0x20) 0 17 → f < 7 →
      ∃ t, exec .fopStepUp s = .next t ∧ t.clk = { s.clk with
        quiet := 0, fopPend := some (f, earliestFar s), fopCtl := false, fopLate := false, pll := [false, false], rail := (setRails f s).clk.rail }
        ∧ fieldAt t (tckPage + 0x30) 0 3 = f ∧ Upd [.clk, .regs] [] none s t)

/-- A sentinel's report changes that sentinel of its region alone, down with MARGIN_FALL and up with MARGIN_RECOVERY; a region's margin is
the lowest report of its sentinels. Steps 0, 1 and 2 lose 1, 0.5 and 0.25 of a nominal period, steps 3 to 7 none. Where a region's 1 ms
average falls below 3.5 a sentinel warning marks the region, sets SNT_WARN and the region's bit of TCK_SNT_MAP and ends the run of quiet
ticks; it warns once until the average is back. Every region begins its next lc after its own stretched period, what it was gated and what
it waits for its neighbours. A hold at a col gates the side that would pass the bound, and the col's register shows the lead, the largest
lead and one hold more; no lc count and no time changes by it. (R26,  R29,  R30,  R31,  R32) -/
def Obligations.MarginsAndHolds : Prop :=
  ((∀ (g k step : Nat) (s : State), g < 64 → k < 16 → step < 8 →
    let now := mget 7 (regionOf s g).sent k
    let t := sentReport g k step s
    (step < now → exec (.marginFall g k step) s = .next t) ∧ (now ≤ step → exec (.marginFall g k step) s = .next s)
    ∧ (now < step → exec (.marginRecovery g k step) s = .next t) ∧ (step ≤ now → exec (.marginRecovery g k step) s = .next s)
    ∧ mget 7 (regionOf t g).sent k = step ∧ (∀ j, j ≠ k → mget 7 (regionOf t g).sent j = mget 7 (regionOf s g).sent j)
    ∧ (regionOf t g).late = (regionOf s g).late ∧ (∀ h, h ≠ g → regionOf t h = regionOf s h) ∧ Upd [.clk] [] none s t)
  ∧ (∀ (g : Nat) (s : State), g < 64 →
    let r := regionOf s g
    (r.avgLow s.clk.wall = true → r.low = false → ∃ t, exec (.sentinelWarning g) s = .next t
      ∧ (regionOf t g).warned = true ∧ (regionOf t g).low = true ∧ (regionOf t g).sent = r.sent ∧ t.clk.quiet = 0
      ∧ fieldAt t (tckPage + 0x44) 7 1 = 1 ∧ fieldAt t (tckPage + 0x60 + 4 * (g / 32)) (g % 32) 1 = 1
      ∧ Upd [.clk, .regs, .host] [] none s t)
    ∧ (r.avgLow s.clk.wall = true → r.low = true → exec (.sentinelWarning g) s = .next s)
    ∧ (r.avgLow s.clk.wall = false → exec (.sentinelWarning g) s = .next (if r.low then updRegion g (fun r => { r with low := false }) s else s)))
  ∧ (List.range 8).map stretchOf = [4, 2, 1, 0, 0, 0, 0, 0])
  ∧ (∀ (g : Nat) (s : State), g < 64 → s.clk.regions ≠ [] →
    lateAt (regionLc s) g 0 = lateAt s g 0 + (stretchOf (regionOf s g).margin + (regionOf s g).gate + regionWait s g : Nat))
  ∧ (∀ (c : Nat) (s : State), c < 133 →
    let old : ColSt := mget {} s.clk.cols c
    let x := colSides c
    let a := colWait s c x.1 x.2
    let b := colWait s c x.2 x.1
    let lead := colLead s c
    (a = 0 → b = 0 → exec (.colHold c) s = .next s)
    ∧ ∀ g w, (a ≠ 0 ∧ g = x.1 ∧ w = a ∨ a = 0 ∧ b ≠ 0 ∧ g = x.2 ∧ w = b) → ∃ t, exec (.colHold c) s = .next t
      ∧ mget {} t.clk.cols c = ⟨lead, max old.maxLead lead.natAbs, min 65535 (old.holds + 1)⟩
      ∧ (∀ d, d ≠ c → mget {} t.clk.cols d = mget {} s.clk.cols d)
      ∧ (regionOf t g).gate = (regionOf s g).gate + w ∧ (∀ h, h ≠ g → regionOf t h = regionOf s h)
      ∧ t.clk.npq = s.clk.npq ∧ t.clk.wall = s.clk.wall ∧ t.clk.lc = s.clk.lc ∧ t.clk.now = s.clk.now ∧ Upd [.clk] [] none s t)


/-! ### Host ports: ownership, rings, intake -/
/-- The owner's OFFER is kept with its time; the other port's ACCEPT within 1 s passes ownership and raises bit 0 of both host-port pages;
an offer that is not accepted in time lapses. A TAKE succeeds with no owner, or when the owner's link has been down or its PERST# asserted
for 100 ms; any other TAKE by a port that does not own management only sets TAKE_REFUSED. (R318,  R341) -/
def Obligations.OwnershipPasses : Prop :=
  (∀ (port : Port) (s : State), Served s port (hpPage port + 0x24) →
    let passed := fun t : State => t.host.owner = some port ∧ t.host.offer = none ∧ bbit (regAt t 0x8010) 0 = true ∧ bbit (regAt t 0x9010) 0 = true
      ∧ (∀ q, hpAt t q = hpAt s q) ∧ (∀ a, a ≠ 0x8010 → a ≠ 0x9010 → regAt t a = regAt s a) ∧ Upd [.regs, .host] [] none s t
    (s.host.owner = some port → exec (.hostOwnOffer port) s = .next { s with host := { s.host with offer := some s.clk.wall } })
    ∧ (s.host.owner ≠ some port → exec (.hostOwnOffer port) s = .next s)
    ∧ (∀ at_, s.host.offer = some at_ → s.host.owner = some (portOther port) → s.clk.wall ≤ at_ + 1000000 * wallUs →
      ∃ t, exec (.hostOwnAccept port) s = .next t ∧ passed t)
    ∧ ((s.host.owner = none ∨ s.host.owner = some (portOther port) ∧ ∃ d, (hpAt s (portOther port)).downAt = some d ∧ d + 100000 * wallUs ≤ s.clk.wall) →
      ∃ t, exec (.hostOwnTake port) s = .next t ∧ passed t)
    ∧ (s.host.owner = some (portOther port) → (∀ d, (hpAt s (portOther port)).downAt = some d → s.clk.wall < d + 100000 * wallUs) →
      exec (.hostOwnTake port) s = .next (setBits 0x9024 (1 <<< 5) (setBits 0x8024 (1 <<< 5) s)))
    ∧ (s.host.owner = some port → exec (.hostOwnTake port) s = .next s))
  ∧ ∀ (s : State) (at_ : Nat), s.host.offer = some at_ →
    (at_ + 1000000 * wallUs ≤ s.clk.wall → exec .offerLapse s = .next { s with host := { s.host with offer := none } })
    ∧ (s.clk.wall < at_ + 1000000 * wallUs → exec .offerLapse s = .next s)

/-- A write of HOST_MAX is answered in AGREED with 1.0 where the host supports major 1 or more, else with 0; a change raises bit 1 of the
port's page, and the other port is as it was. That the one version this module supports is 1.0 is the model's choice
(notes/assumptions/26.md). A write of a port's LTR tolerance is kept, and in terrace T0 with nothing shutting down an LTR message with the
latency in force goes to each port that is up with LTR enabled; nothing else leaves. (R319,  R341,  R339) -/
def Obligations.PortSettingsAnswer : Prop :=
  (∀ (port : Port) (v : BitVec 16) (s : State), Served s port (hpPage port + 0x28) →
    ∃ t, exec (.hpHelloWrite port v) s = .next t
      ∧ hpAt t port = { hpAt s port with hostMax := v.toNat, agreed := if 0x0100 ≤ v.toNat then 0x0100 else 0 }
      ∧ hpAt t (portOther port) = hpAt s (portOther port)
      ∧ ((hpAt t port).agreed ≠ (hpAt s port).agreed → bbit (regAt t (hpPage port + 0x10)) 1 = true)
      ∧ (∀ a, a ≠ hpPage port + 0x10 → regAt t a = regAt s a) ∧ Upd [.regs, .host] [] none s t)
  ∧ (∀ (port : Port) (ns : Option Nat) (s : State), s.pwr.terrace = 0 → s.pwr.busy = false →
    ∃ t, exec (.ltrToleranceWrite port ns) s = .next t ∧ (hpAt t port).tol = ns ∧ (hpAt t (portOther port)).tol = (hpAt s (portOther port)).tol
      ∧ t.out = s.out ++ ([Port.a, Port.b].filter fun q => (hpAt s q).up && (hpAt t q).tol.isSome).map (fun q => Out.ltr q s.pwr.lat)
      ∧ Upd [.host, .out] [] none s t)

/-- A HEAD value that is a multiple of 16 in the span from the old HEAD to TAIL moves HEAD; any other leaves it and sets BAD_HEAD. An
enable starts an empty ring with its record sequence at 0 and keeps the records that wait; while AGREED is 0 it does nothing; a disable
keeps the ring's pointers. The other rings of the port are as they were. (R319,  R320) -/
def Obligations.RingPagesAnswerWrites : Prop :=
  ∀ (port : Port) (r : Nat) (v : W32) (s : State), r < 2048 →
    let x := ringAt s port r
    (v.toNat < 2 ^ 24 → ∃ t, exec (.ringHeadWrite port r v) s = .next t
      ∧ ringAt t port r = (if v.toNat % 16 = 0 ∧ v.toNat < x.size ∧ (v.toNat + x.size - x.head) % x.size ≤ x.used
          then { x with head := v.toNat } else { x with badHead := true })
      ∧ (∀ q, q ≠ r → ringAt t port q = ringAt s port q) ∧ Upd [.host] [] none s t)
    ∧ ((hpAt s port).agreed = 0 → v.getLsbD 0 = true → exec (.ringEnable port r v) s = .next s)
    ∧ (((hpAt s port).agreed ≠ 0 ∨ v.getLsbD 0 = false) → ∃ t, exec (.ringEnable port r v) s = .next t
      ∧ ringAt t port r = (if v.getLsbD 0 = true ∧ x.en = false
          then { x with en := true, vec := bfield v.toNat 1 11, head := 0, tail := 0, rseq := 0, stuck := false }
          else { x with en := v.getLsbD 0, vec := bfield v.toNat 1 11 })
      ∧ (∀ q, q ≠ r → ringAt t port q = ringAt s port q) ∧ Upd [.host] [] none s t)

/-- The first waiting record of an enabled ring, at most half the ring long, on a port that is up, goes to TAIL when it fits before the
end of the ring and in the free space; when it does not fit before the end, a pad record fills the end and the record goes to the ring's
base, once there is space for both; else it waits. TAIL, RSEQ and the queue of the ring follow, and the ring's vector goes out at the
first advance since a watershed. A record longer than half the ring sets the ring's too-big bit and waits. (R321,  R322,  R323) -/
def Obligations.RingRecordPlaced : Prop :=
  ∀ (port : Port) (r die : Nat) (b : List Byte) (rest : List (Nat × List Byte)) (s : State),
    let x := ringAt s port r
    let f := x.size - 16 - x.used
    let u := x.size - x.tail
    let msix := if x.moved then [] else [Out.msix port x.vec]
    r < 2048 → x.wait = (die, b) :: rest → x.en = true → x.stuck = false → (hpAt s port).up = true →
    (2 * b.length ≤ x.size → b.length ≤ u → b.length ≤ f →
      ∃ t, exec (.ringRecordWrite port r) s = .next t
        ∧ ringAt t port r = { x with wait := rest, tail := (x.tail + b.length) % x.size, rseq := x.rseq + 1, moved := true }
        ∧ t.out = s.out ++ [.hostWrite port (x.base + x.tail) (withRseq b x.rseq)] ++ msix
        ∧ (∀ q, q ≠ r → ringAt t port q = ringAt s port q) ∧ Upd [.host, .out] [] none s t)
    ∧ (2 * b.length ≤ x.size → u < b.length → u + b.length ≤ f →
      ∃ t, exec (.ringRecordWrite port r) s = .next t
        ∧ ringAt t port r = { x with wait := rest, tail := b.length, rseq := x.rseq + 2, moved := true }
        ∧ t.out = s.out ++ [.hostWrite port (x.base + x.tail) (padRec u x.rseq), .hostWrite port x.base (withRseq b (x.rseq + 1))] ++ msix
        ∧ (∀ q, q ≠ r → ringAt t port q = ringAt s port q) ∧ Upd [.host, .out] [] none s t)
    ∧ (2 * b.length ≤ x.size → (b.length ≤ u ∧ f < b.length ∨ u < b.length ∧ f < u + b.length) → exec (.ringRecordWrite port r) s = .next s)
    ∧ (x.size < 2 * b.length → exec (.ringRecordWrite port r) s = .next (hwSets (ringKey port r) 4 (updRing port r (fun y => { y with tooBig := true, stuck := true }) s)))

/-- While the intake takes words, the first word of a packet opens it and the words after it join it, up to the length its header names;
the fill rises by the read words they take. A header whose LEN is 0 or above 4,080, or whose reserved bits are not 0, makes the packet bad
and nothing of it is stored; a word that finds the bank full, or intake refused at the lag limit, is lost, the packet is bad and OVERRUN
is set. (R324,  R325,  R326,  R329) -/
def Obligations.IntakeStoresPacket : Prop :=
  ∀ (port : Port) (w : W64) (s : State),
    let h := hpAt s port
    let len := bfield w.toNat 0 13
    h.inEn = true → h.up = true → s.clk.run = true →
    (h.isOpen = false → (len = 0 ∨ 4080 < len ∨ bfield w.toNat 13 3 ≠ 0) →
      ∃ t, exec (.intakeWordWrite port w) s = .next t
        ∧ hpAt t port = { h with isOpen := true, bad := true, need := cdiv len 8, seen := 0, open_ := [] } ∧ Upd [.host] [] none s t)
    ∧ (h.isOpen = false → 1 ≤ len → len ≤ 4080 → bfield w.toNat 13 3 = 0 → h.refuse = false → h.fillWords < 65536 →
      ∃ t, exec (.intakeWordWrite port w) s = .next t
        ∧ hpAt t port = { h with isOpen := true, bad := false, need := cdiv len 8, seen := 0, open_ := [w], fillWords := h.fillWords + 1 }
        ∧ hpAt t (portOther port) = hpAt s (portOther port) ∧ Upd [.host, .regs, .trc] [] none s t)
    ∧ (h.isOpen = true → h.seen < h.need → h.bad = false → h.refuse = false →
        h.fillWords + (cdiv (8 * (h.open_.length + 1)) 64 - openWords h) ≤ 65536 →
      ∃ t, exec (.intakeWordWrite port w) s = .next t
        ∧ hpAt t port = { h with seen := h.seen + 1, open_ := h.open_ ++ [w],
                                 fillWords := h.fillWords + (cdiv (8 * (h.open_.length + 1)) 64 - openWords h) }
        ∧ hpAt t (portOther port) = hpAt s (portOther port) ∧ Upd [.host, .regs, .trc] [] none s t)
    ∧ (h.isOpen = true → h.seen < h.need → h.bad = false →
        (h.refuse = true ∨ 65536 < h.fillWords + (cdiv (8 * (h.open_.length + 1)) 64 - openWords h)) →
      ∃ t, exec (.intakeWordWrite port w) s = .next t
        ∧ hpAt t port = { h with seen := h.seen + 1, bad := true, ovrSlot := true } ∧ bbit (regAt t (intkPage port + 0x24)) 1 = true
        ∧ bbit (regAt t (intkPage port + 0x10)) 1 = true ∧ Upd [.host, .regs] [] none s t)

/-- At the trailer of a packet whose words have come, the packet joins the bank and INTK_PKTS counts it when its CRC agrees, ABORT is 0
and it is not bad; else its space returns, it vanishes and INTK_REWIND counts it; a failed CRC of a packet that is not bad sets CRC_BAD
and interrupt bit 2 of the page. (R326) -/
def Obligations.IntakeTrailerDecides : Prop :=
  ∀ (port : Port) (w : W64) (s : State),
    let h := hpAt s port
    let crcOk := decide (bfield w.toNat 0 32 = crc32c (packetBytes h))
    let gone := { h with isOpen := false, bad := false, fillWords := h.fillWords - openWords h, open_ := [], need := 0, seen := 0 }
    h.inEn = true → h.up = true → s.clk.run = true → h.isOpen = true → h.need ≤ h.seen →
    (h.bad = false → crcOk = true → w.getLsbD 32 = false →
      ∃ t, exec (.intakeTrailer port w) s = .next t
        ∧ hpAt t port = { h with bank := h.bank ++ [packetBytes h], isOpen := false, open_ := [], need := 0, seen := 0 }
        ∧ fieldAt t (intkPage port + 0x30) 0 32 = satAdd 32 (fieldAt s (intkPage port + 0x30) 0 32) 1
        ∧ Upd [.host, .regs, .trc] [] none s t)
    ∧ ((h.bad = true ∨ crcOk = false ∨ w.getLsbD 32 = true) →
      ∃ t, exec (.intakeTrailer port w) s = .next t ∧ hpAt t port = gone
        ∧ fieldAt t (intkPage port + 0x34) 0 32 = satAdd 32 (fieldAt s (intkPage port + 0x34) 0 32) 1
        ∧ (h.bad = false → crcOk = false → bbit (regAt t (intkPage port + 0x24)) 2 = true ∧ bbit (regAt t (intkPage port + 0x10)) 2 = true)
        ∧ Upd [.host, .regs] [] none s t)

/-- When a port's link goes down, its PERST# is asserted or INTK_CTL.ENABLE is written 0, the FIFO rewinds the open packet: it leaves, and
its space returns. It takes no further words, header, payload or trailer, while the link is down or the intake is disabled. Packets
already committed stay in their batch, and the other port is as it was. (R330) -/
def Obligations.IntakeStops : Prop :=
  (∀ (port : Port) (s : State),
    let h := hpAt s port
    let stops := fun (cmd : Instr) (P : State → Prop) => ∃ t, exec cmd s = .next t ∧ P t ∧ (hpAt t port).bank = h.bank ∧ (hpAt t port).isOpen = false
      ∧ (h.isOpen = false → (hpAt t port).fillWords = h.fillWords) ∧ (h.isOpen = true → (hpAt t port).fillWords = h.fillWords - openWords h ∧ (hpAt t port).open_ = [])
      ∧ (∀ w, exec (.intakeWordWrite port w) t = .next t ∧ exec (.intakeTrailer port w) t = .next t)
      ∧ hpAt t (portOther port) = hpAt s (portOther port) ∧ Upd [.host, .regs] [] none s t
    stops (.intakeStop port .linkDown) (fun t => (hpAt t port).up = false ∧ (hpAt t port).inEn = h.inEn)
    ∧ stops (.intakeStop port .perst) (fun t => (hpAt t port).up = false ∧ (hpAt t port).perst = true)
    ∧ stops (.intakeStop port .disable) (fun t => (hpAt t port).inEn = false)
    ∧ (Served s port (intkPage port + 0x20) → stops (.intakeEnable port false) (fun t => (hpAt t port).inEn = false)))
  ∧ ∀ (port : Port) (w : W64) (s : State), ((hpAt s port).up = false ∨ (hpAt s port).inEn = false) →
      exec (.intakeWordWrite port w) s = .next s ∧ exec (.intakeTrailer port w) s = .next s

/-- An intake enable takes writes from then on, and is ignored while AGREED is 0. A host-port reset rewinds the open packet and clears
AGREED, the link's configuration and the rings but for the records that wait; it keeps the packets committed, the other port and the
owner. When a link comes up, at one of the link's rates and widths (which one it trains to is the command's, notes/assumptions/28.md), the
committed records that wait join their rings in release order, each on its own port where that is up, else on the other port where its
declaration allows it, until one finds no port; that one and all behind it wait on. (R319,  R336,  R337,  R338,  R404) -/
def Obligations.PortsEnableResetAndComeUp : Prop :=
  (∀ (port : Port) (s : State),
    let h := hpAt s port
    (Served s port (intkPage port + 0x20) → h.agreed ≠ 0 →
      ∃ t, exec (.intakeEnable port true) s = .next t ∧ hpAt t port = { h with inEn := true } ∧ fieldAt t (intkPage port + 0x20) 0 1 = 1
        ∧ Upd [.host, .regs] [] none s t)
    ∧ (Served s port (intkPage port + 0x20) → h.agreed = 0 → exec (.intakeEnable port true) s = .next s)
    ∧ (∀ down, ∃ t, exec (.hostPortReset port down) s = .next t ∧ (hpAt t port).bank = h.bank ∧ (hpAt t port).isOpen = false ∧ (hpAt t port).up = false
        ∧ (hpAt t port).agreed = 0 ∧ (hpAt t port).tol = none ∧ (hpAt t port).halves = []
        ∧ (hpAt t port).rings = (h.rings.filter fun (r : Nat × Ring) => !r.2.wait.isEmpty).map (fun (r : Nat × Ring) => (r.1, ({ wait := r.2.wait } : Ring)))
        ∧ hpAt t (portOther port) = hpAt s (portOther port) ∧ t.host.owner = s.host.owner ∧ Upd [.host, .regs] [] none s t)
    ∧ (∀ rate width, okLink rate width = true → s.pwr.on = true → s.pwr.inReset = false → s.host.rel = [] → exec (.hostPortLinkUp port rate width) s = .next
        (updHp port (fun h => { h with up := true, rate := rate, width := width, perst := false, downAt := none }) s)))
  ∧ (∀ (port : Port) (rate width : Nat) (s : State), okLink rate width = true → s.pwr.on = true → s.pwr.inReset = false →
    let u := updHp port (fun h => { h with up := true, rate := rate, width := width, perst := false, downAt := none }) s
    ∃ t, exec (.hostPortLinkUp port rate width) s = .next t ∧ (∃ n, t.host.rel = s.host.rel.drop n
        ∧ (∀ x ∈ s.host.rel.take n, (relPort u x).isSome = true) ∧ (∀ x, t.host.rel.head? = some x → relPort u x = none)
        ∧ ∀ q r, (ringAt t q r).wait = (ringAt s q r).wait ++
            (((s.host.rel.take n).filter fun x => decide (relPort u x = some q ∧ x.ring = r)).map fun x => (x.die, x.bytes)))
      ∧ (hpAt t port).up = true ∧ Upd [.host] [] none s t)


/-! ### Power, resets, boot, terraces, thermal action and SMBus -/
/-- With the input in range, power-on leaves the module as at reset with the straps sampled, and out of range it only notes the input;
power-down and an input above 58 V leave nothing but flash and fuses; a module reset leaves the module as at reset but for flash, fuses,
its cause and a latched trip, and holds until a PERST# is deasserted, when the straps are sampled again. The loader keeps the identifier
of the task held last (R207). The queue, the free draws and what has left are the model's own and stay. (R404,  R406,  R207,  R408,  R459,
R460) -/
def Obligations.PowerAndResetClear : Prop :=
  ∀ (vin slotId : Nat) (recovery both perstA perstB : Bool) (s : State),
    let bare : State := { State.reset with pending := s.pending, fresh := s.fresh, out := s.out, sec := keptSec s.sec, task := { lastId := s.task.lastId } }
    let off : State := { bare with pwr := { State.reset.pwr with on := false, vin := vin, idleAt := none } }
    (keptSec s.sec).slot = s.sec.slot ∧ (keptSec s.sec).svnFused = s.sec.svnFused ∧ (keptSec s.sec).lims = s.sec.lims
    ∧ (keptSec s.sec).grade = s.sec.grade ∧ (keptSec s.sec).arrays = s.sec.arrays ∧ (keptSec s.sec).fuseRows = s.sec.fuseRows
    ∧ (keptSec s.sec).repairs = s.sec.repairs ∧ (keptSec s.sec).modid = s.sec.modidNext
    ∧ (s.pwr.on = false → 4800 ≤ vin → vin ≤ 5400 → exec (.powerOn vin slotId recovery) s =
        .next { bare with pwr := { State.reset.pwr with vin := vin, slotId := slotId % 64, recovery := recovery } })
    ∧ (s.pwr.on = false → (vin < 4800 ∨ 5400 < vin) → exec (.powerOn vin slotId recovery) s = .next { s with pwr := { s.pwr with vin := vin } })
    ∧ (s.pwr.on = true → exec (.powerOn vin slotId recovery) s = .next s)
    ∧ exec (.powerDown vin) s = .next off
    ∧ (5800 < vin → exec (.overvoltageShutoff vin) s = .next off)
    ∧ (vin ≤ 5800 → exec (.overvoltageShutoff vin) s = .next s)
    ∧ (s.pwr.on = true → exec (.moduleReset both) s = .next { bare with
        pwr := { State.reset.pwr with cause := if both then 3 else 2, trip := s.pwr.trip, vin := s.pwr.vin, slotId := s.pwr.slotId,
                                      recovery := s.pwr.recovery, inReset := true }
        host := { State.reset.host with pa := { State.reset.host.pa with perst := both || s.host.pa.perst },
                                        pb := { State.reset.host.pb with perst := both || s.host.pb.perst } } })
    ∧ (s.pwr.inReset = true → (perstA && perstB) = false → ∃ t, exec (.moduleResetRelease perstA perstB slotId recovery) s = .next t
        ∧ t.pwr = { s.pwr with inReset := false, slotId := slotId % 64, recovery := recovery }
        ∧ t.host.pa = { s.host.pa with perst := perstA } ∧ t.host.pb = { s.host.pb with perst := perstB } ∧ Upd [.pwr, .host] [] none s t)

/-- SVC_RST.CAUSE records the cause of the last reset of module reach or wider: after a module reset it is 2 for MOD_RESET_N and 3 for
both PERST#, and after a power-on 1; the release of the reset and the boot that follows leave it. The codes are those of the register
table. (R407) -/
def Obligations.ResetCauseIsKept : Prop :=
  (∀ (both : Bool) (s t : State), s.pwr.on = true → exec (.moduleReset both) s = .next t → t.pwr.cause = if both then 3 else 2)
  ∧ (∀ (vin slotId : Nat) (recovery : Bool) (s t : State), s.pwr.on = false → 4800 ≤ vin → vin ≤ 5400 →
      exec (.powerOn vin slotId recovery) s = .next t → t.pwr.cause = 1)
  ∧ (∀ (perstA perstB recovery : Bool) (slotId : Nat) (s t : State), exec (.moduleResetRelease perstA perstB slotId recovery) s = .next t →
      t.pwr.cause = s.pwr.cause)
  ∧ ∀ (f : BootFinds) (s t : State), exec (.boot f) s = .next t → t.pwr.cause = s.pwr.cause

/-- Boot tries the slot that ACTIVE names first and the other second, and goes on with the first that verifies and whose version is at
least the fused one: its bytes are measured, its version runs, the signature index comes from the larger reservation limit, cores that
fail self-test are fenced, and the module is READY at stage 9, degraded where a stack is not trained. With neither slot it stays in ROM at
stage 0xE, with the recovery strap at stage 0xF, and READY is not asserted; while the rails are off, a reset is held or a trip is latched
it does nothing. The verdict of a slot's signature is an input of the command (notes/assumptions/27.md). (R409,  R410,  R411,  R414,
R415,  R417) -/
def Obligations.BootRunsGoodFirmware : Prop :=
  ∀ (f : BootFinds) (s : State),
    ((s.pwr.on = false ∨ s.pwr.inReset = true ∨ s.pwr.trip = true ∨ s.pwr.stage ≠ 0) → exec (.boot f) s = .next s)
    ∧ (s.pwr.on = true → s.pwr.inReset = false → s.pwr.trip = false → s.pwr.stage = 0 →
      let good := fun k => f.slotOk.getD k false = true ∧ s.sec.svnFused ≤ leAt 4 4 (fwSlot s k)
      (s.pwr.recovery = true → exec (.boot f) s = .next { s with pwr := { s.pwr with stage := 0xF } })
      ∧ (s.pwr.recovery = false → ¬ good s.sec.active → ¬ good (1 - s.sec.active) → exec (.boot f) s = .next { s with pwr := { s.pwr with stage := 0xE } })
      ∧ ∀ k, s.pwr.recovery = false → (k = s.sec.active ∧ good k ∨ k = 1 - s.sec.active ∧ ¬ good s.sec.active ∧ good k) →
        ∃ t, exec (.boot f) s = .next t ∧ t.pwr.stage = 9 ∧ t.pwr.ready = true ∧ t.pwr.bootSlot = k
          ∧ t.pwr.degraded = decide (f.trained ≠ 0xFF) ∧ t.hbm.trained = f.trained.toNat
          ∧ t.sec.fwm = shake256 (fwSlot s k) ∧ t.sec.svnRun = leAt 4 4 (fwSlot s k) ∧ t.sec.svnFused = s.sec.svnFused ∧ s.sec.svnFused ≤ t.sec.svnRun
          ∧ (∀ n, (s.sec.lims.filterMap id).max? = some n → t.sec.next = n ∧ t.sec.dead = s.sec.dead)
          ∧ ((s.sec.lims.filterMap id).max? = none → t.sec.dead = true)
          ∧ (∀ p, p < 192 → (coreAt t p).fenced = ((coreAt s p).fenced || f.bistFail.contains p))
          ∧ t.clk = s.clk ∧ t.hbm.mem = s.hbm.mem ∧ t.task = s.task)

/-- A ready module that is not already shutting down begins the shut-down towards the deepest terrace that its conditions allow, and for
T1 the switch to the T1 operating point with the service operating point kept; at the end of the shut-down the terrace is reached,
interrupt bit 0 of the power page rises, and T3 has emptied basins, instruction memories and the trace. (R398,  R399,  R400,  R401,  R412)
-/
def Obligations.TerraceEntered : Prop :=
  ∀ (s : State) (n : Nat),
    (deepest s = n → s.pwr.terrace < n → s.pwr.busy = false → s.pwr.stage = 9 →
      ∃ t, exec .terraceEntry s = .next t ∧ t.pwr.target = n ∧ t.pwr.busy = true ∧ t.pwr.terrace = s.pwr.terrace
        ∧ t.pwr.lat = shutNs s n + exitNs s n
        ∧ (∀ f, n = 1 → t1Fop s = some f → t.clk = { s.clk with fopPend := some (f, 0), fopCtl := true, pll := [false, false], svcFop := some s.clk.fop })
        ∧ (n ≠ 1 → t.clk = s.clk) ∧ Upd [.pwr, .host, .out, .clk] [] none s t)
    ∧ ((s.pwr.busy = true ∨ s.pwr.stage ≠ 9 ∨ deepest s ≤ s.pwr.terrace) → exec .terraceEntry s = .next s)
    ∧ (s.pwr.target = n → s.pwr.busy = true → s.pwr.exiting = false → s.pwr.exitPend = false → (n = 1 → s.clk.fopPend = none) →
      ∃ t, exec .terraceShutdownDone s = .next t ∧ t.pwr.terrace = n ∧ t.pwr.busy = false ∧ bbit (regAt t 0x3010) 0 = true
        ∧ (n = 3 → t.trc.recs = [] ∧ t.trc.idx = [0, 0] ∧ t.trc.vis = [0, 0] ∧ bbit (regAt t 0x5024) 1 = true)
        ∧ (n ≠ 3 → t.cores = s.cores ∧ t.dales = s.dales ∧ t.trc = s.trc)
        ∧ (∀ p, n = 3 → (coreAt t p).bsn.mem = [] ∧ (coreAt t p).bsn.hnd = [] ∧ (daleAt t p).imem = []) ∧ t.clk = s.clk ∧ t.hbm = s.hbm)

/-- From T2 a START, a load, a SERVICE cell, WAKE or a broken tolerance returns the module to T0 at once; from T1 only WAKE or a broken
tolerance does, by a switch back to the service operating point at the next boundary; a trigger during a shut-down waits for its end.
(R339,  R398,  R402,  R403) -/
def Obligations.TerraceLeft : Prop :=
  ∀ (port : Port) (why : ExitTrigger) (s : State), s.pwr.exiting = false →
    (why ≠ .tolerance ∨ toleranceBroken s = true) →
    (s.pwr.busy = true → 2 ≤ s.pwr.target → exec (.terraceExit why) s = .next { s with pwr := { s.pwr with exitPend := true } })
    ∧ (s.pwr.busy = false → s.pwr.terrace = 2 → s.pwr.startPend = false → ∃ t, exec (.terraceExit why) s = .next t ∧ t.pwr.terrace = 0 ∧ t.pwr.busy = false
        ∧ bbit (regAt t 0x3010) 0 = true ∧ t.clk.run = s.clk.run ∧ t.cores = s.cores ∧ Upd [.pwr, .host, .out, .clk, .regs] [] none s t)
    ∧ (s.pwr.busy = false → s.pwr.terrace = 1 → (why = .start ∨ why = .load ∨ why = .serviceCell) → exec (.terraceExit why) s = .next s)
    ∧ (s.pwr.busy = false → s.pwr.terrace = 1 → s.clk.run = true → (why = .tolerance ∨ why = .wake) →
      exec (.terraceExit why) s = .next { s with
        pwr := { s.pwr with target := 0, busy := true, exiting := true }
        clk := { s.clk with fopPend := some (serviceFop s, 0), fopCtl := true, pll := [true, true] } })
    ∧ (s.pwr.busy = false → s.pwr.terrace = 0 → exec (.terraceExit why) s = .next s)
    ∧ (bar0Open s 0x3020 = true → mayWrite s port 0x3020 = true → exec (.pwrWake port) s = exec (.terraceExit .wake) s)

/-- With the sensors powered, their readings are kept; a junction at 95 C or a stack at 90 C asserts ALERT_N and the warning; at 100 C or
95 C the operating point steps down once and the module is throttled until a reading below that; at 110 C or 105 C the trip latches, ticks
stop at once, the module is lost and the core, HBM and SerDes rails lose what they hold. (R36,  R463,  R464) -/
def Obligations.ThermalAction : Prop :=
  ∀ (d0 d1 : Nat) (hs : List Nat) (s : State), s.pwr.on = true →
    let at_ := fun j k => decide (j ≤ d0) || decide (j ≤ d1) || (hs.take 8).any fun t => decide (k ≤ t)
    let felt : State := { s with pwr := { s.pwr with
      temps := [d0, d1], stackT := (List.range 8).map (fun k => hs.getD k 0), warm := at_ 95 90, alert := s.pwr.alert || at_ 95 90
      throttled := s.pwr.throttled && at_ 100 95, throttleAt := if at_ 100 95 then s.pwr.throttleAt else 0 } }
    exec (.thermalAlert d0 d1 hs) s = .next felt
    ∧ (at_ 100 95 = true → s.pwr.throttled = false →
        exec (.thermalThrottle d0 d1 hs) s = .next (lowerFop { felt with pwr := { felt.pwr with throttled := true, throttleAt := 1024 } }))
    ∧ (at_ 100 95 = true → s.pwr.throttled = true → exec (.thermalThrottle d0 d1 hs) s = .next felt)
    ∧ (at_ 100 95 = false → exec (.thermalThrottle d0 d1 hs) s = .next felt)
    ∧ (at_ 110 105 = true → ∃ t, exec (.thermalTrip d0 d1 hs) s = .next t ∧ t.pwr.trip = true ∧ t.pwr.lost = true ∧ t.clk.run = false
        ∧ t.clk.starting = false ∧ t.clk.rail = [0, 0] ∧ t.cores = [] ∧ t.dales = [] ∧ t.hbm.mem = [] ∧ t.host.pa.up = false ∧ t.host.pb.up = false
        ∧ t.sec = s.sec ∧ t.pending = s.pending)

/-- A powered module that is out of reset and past rail sequencing answers each SMBus command with the bytes of R465's table and changes
nothing else; CLEAR_ALERT releases ALERT_N when no cause remains. The reading of the power monitor is a free value
(notes/assumptions/6.md). (R465) -/
def Obligations.SmbusAnswers : Prop :=
  ∀ s : State, s.pwr.on = true → s.pwr.inReset = false → s.pwr.stage ≠ 0 →
    let said := fun (b : List Byte) => ({ s with pwr := { s.pwr with smb := b } } : State)
    exec .status s = .next (said (leBytes 2 (b2n s.pwr.ready + 2 * b2n s.pwr.warm + 4 * b2n s.pwr.throttled + 8 * b2n s.pwr.trip
      + 16 * b2n (decide (s.pwr.vin < 4800 ∨ 5400 < s.pwr.vin)) + 32 * b2n s.pwr.lost + 256 * (s.pwr.stage % 16))))
    ∧ exec .tempDie s = .next (said ((List.range 2).map fun d => BitVec.ofNat 8 (s.pwr.temps.getD d 0)))
    ∧ exec .tempHbm s = .next (said ((List.range 8).map fun k => BitVec.ofNat 8 (s.pwr.stackT.getD k 0)))
    ∧ exec .vin s = .next (said (leBytes 2 s.pwr.vin))
    ∧ exec .pin s = .next { said (leBytes 2 (Config.power s.fresh).toNat) with fresh := s.fresh + 1 }
    ∧ exec .slot s = .next (said (leBytes 1 s.pwr.slotId))
    ∧ exec .modid s = .next (said (leBytes 2 s.sec.modid))
    ∧ exec .terrace s = .next (said (leBytes 1 s.pwr.terrace))
    ∧ (s.pwr.warm = false → exec .clearAlert s = .next { s with pwr := { s.pwr with alert := false } })
    ∧ (s.pwr.warm = true → exec .clearAlert s = .next s)


/-! ### Identity, attestation, audit chain, journal copies -/
/-- While the leader is up and the key is not retired, the request that stands first is signed: the next index rises by one, the request
leaves the queue, the record joins ring AUD_CTL.RING of port AUD_CTL.PORT and interrupt bit 0 of the security page rises. An index at the
reservation limit is used only after the older copy of the limit holds the limit plus 4,096; where that would pass 2^40 - 4,096, or no
copy of the limit agrees, the key is retired, interrupt bit 2 rises and nothing is signed. EPOCH_RECORD is the same for an epoch record
that stands first, and does nothing else. The signature itself is a free value (notes/assumptions/6.md). (R416,  R417,  R421) -/
def Obligations.SignatureSpendsOneIndex : Prop :=
  ∀ (k : Nat) (b : List Byte) (rest : List (Nat × List Byte)) (s : State), s.sec.queue = (k, b) :: rest → s.sec.dead = false →
    s.ctl.up.getD s.ctl.leader false = true →
    let port := portOf (fieldAt s 0x1060 16 1 = 1)
    let r := fieldAt s 0x1060 5 11
    (k = 2 → exec .epochRecord s = exec .signatureComplete s) ∧ (k ≠ 2 → exec .epochRecord s = .next s)
    ∧ (∀ l, nextIndex s.sec.lims = some l → (s.sec.next < l ∨ l + 4096 ≤ 2 ^ 40 - 4096) →
      ∃ t, exec .signatureComplete s = .next t ∧ t.sec.next = s.sec.next + 1 ∧ t.sec.queue = rest ∧ t.sec.dead = false
        ∧ (s.sec.next < l → t.sec.lims = s.sec.lims)
        ∧ (l ≤ s.sec.next → t.sec.lims = s.sec.lims.set (if (s.sec.lims.getD 0 none).getD 0 ≤ (s.sec.lims.getD 1 none).getD 0 then 0 else 1) (some (l + 4096)))
        ∧ (∃ sig, sig.length = 9893 ∧ (ringAt t port r).wait = (ringAt s port r).wait ++
            [(2, ringRec 2 0 0 ((if k = 1 then statement b s else b) ++ sig))])
        ∧ bbit (regAt t 0x1010) 0 = true ∧ (∀ a, a ≠ 0x1010 → regAt t a = regAt s a) ∧ Upd [.sec, .regs, .host, .fresh] [] none s t)
    ∧ ((∀ l, nextIndex s.sec.lims = some l → l ≤ s.sec.next ∧ 2 ^ 40 - 4096 < l + 4096) →
      ∃ t, exec .signatureComplete s = .next t ∧ t.sec = { s.sec with dead := true } ∧ bbit (regAt t 0x1010) 2 = true
        ∧ (∀ a, a ≠ 0x1010 → regAt t a = regAt s a) ∧ Upd [.sec, .regs, .host] [] none s t)

/-- An epoch that closes puts its record into the one queue of signing requests behind the epoch records that stand first and ahead of
every attestation request; an attestation request joins the queue at its end with the nonce as written; while another attestation waits it
is refused, and SEC_STAT.ATT_BUSY, bit 1 of offset 0x1024, is set. (R418) -/
def Obligations.RequestsWaitInOneQueue : Prop :=
  (∀ s : State, (∀ x ∈ s.sec.queue, x.1 = 1 ∨ x.1 = 2) → ∃ a b, s.sec.queue = a ++ b ∧ (∀ x ∈ a, x.1 = 2) ∧ (∀ x, b.head? = some x → x.1 = 1)
      ∧ (closeEpoch s).sec.queue = a ++ (2, epochFields s.sec.enum s) :: b)
  ∧ ∀ (port : Port) (s : State), bar0Open s 0x1020 = true → mayWrite s port 0x1020 = true → s.sec.dead = false →
    ((∀ x ∈ s.sec.queue, x.1 ≠ 1) → exec (.attest port) s = .next { s with sec := { s.sec with queue := s.sec.queue ++ [(1, nonceOf s)] } })
    ∧ ((∃ x ∈ s.sec.queue, x.1 = 1) → ∃ t, exec (.attest port) s = .next t ∧ t.sec = s.sec ∧ bbit (regAt t 0x1024) 1 = true ∧ Upd [.regs, .host] [] none s t)

/-- A CERT request puts one service record of 512 bytes of content into ring AUD_CTL.RING of port AUD_CTL.PORT. The bytes of the
certificate, and their number, are the model's free value and choice (notes/assumptions/6.md). With ticks stopped and a task loaded whose
genesis link is made, AUDIT_SNAPSHOT extends the chain head by SHAKE256 over the head and the link: type 4, the six bytes of the tick that
the next boundary takes, and the digest of the committed regions. While ticks run it is refused. That the refusal's cause is 1 is the
model's choice (notes/assumptions/61.md). (R425,  R420) -/
def Obligations.SnapshotAndCertificate : Prop :=
  (∀ (port : Port) (s : State), bar0Open s 0x1020 = true → mayWrite s port 0x1020 = true →
    let q := portOf (fieldAt s 0x1060 16 1 = 1)
    let r := fieldAt s 0x1060 5 11
    ∃ t b, exec (.cert port) s = .next t ∧ b.length = 512 ∧ (ringAt t q r).wait = (ringAt s q r).wait ++ [(2, ringRec 2 0 0 b)]
      ∧ (∀ q' r', (q' ≠ q ∨ r' ≠ r) → ringAt t q' r' = ringAt s q' r') ∧ Upd [.host, .fresh] [] none s t)
  ∧ (∀ (port : Port) (s : State), bar0Open s 0x1060 = true → mayWrite s port 0x1060 = true →
    (s.clk.run = false → s.task.img.isSome = true → s.sec.genesis = false → exec (.auditSnapshot port) s = .next { s with sec := { s.sec with
        head := shake256 (s.sec.head ++ (leBytes 1 4 ++ leBytes 6 s.clk.numStart ++ snapshotDigest s))
        hslot := s.clk.numStart, elinks := s.sec.elinks + 1, efirst := if s.sec.elinks = 0 then s.clk.numStart else s.sec.efirst } })
    ∧ (s.clk.run = false → s.task.img = none → exec (.auditSnapshot port) s = .next s)
    ∧ (s.clk.run = true → exec (.auditSnapshot port) s = .next (refuseWrite port 0x1060 1 s)))

/-- Whatever the state and the command, a step leaves the fused security version as it was or raises it, and only SVN_COMMIT and a plain
write of its register change it; SVN_COMMIT raises it to the running version when the other slot holds a verified image at that version or
above, and is else refused. That the refusal's cause is 1 is the model's choice (notes/assumptions/61.md). (R414) -/
def Obligations.FusedVersionNeverFalls : Prop :=
  (∀ s t : State, Sys2Proof.Machine.step s = .next t → s.sec.svnFused ≤ t.sec.svnFused)
  ∧ (∀ (c : Instr) (s t : State), exec c s = .next t → t.sec.svnFused ≠ s.sec.svnFused → (∃ port, c = .svnCommit port) ∨ ∃ port bar a v, c = .registerWrite port bar a v)
  ∧ ∀ (port : Port) (s : State), Served s port 0x1020 →
    exec (.svnCommit port) s = .next (if otherSlotOk s then { s with sec := { s.sec with svnFused := max s.sec.svnFused s.sec.svnRun } }
      else refuseWrite port 0x1020 1 s)

/-- The drained bank of a die's port becomes the packets of the slot's open entry of that die, with the bank's overrun and refusal marks,
and the entry is full; the other port keeps its bank. AUD_JCTL.GO sends an entry's bytes to the address AUD_JADDR, sets AUD_JLEN to their
number, DONE and interrupt bit 1; without such an entry it sets GONE. In reproduction mode DIR 1 puts the supplied entry in the place of
the one of that die and slot; outside it, it is refused. That the refusal's cause is 1 is the model's choice (notes/assumptions/61.md).
(R331,  R423,  R424) -/
def Obligations.JournalTakesTheBatch : Prop :=
  (∀ (die : Nat) (s : State), die < 2 → s.clk.run = true → 0 < s.clk.num →
    let port := if die = 0 then Port.a else Port.b
    let h := hpAt s port
    let mine := fun e : JEnt => decide (e.die = die ∧ e.slot = s.clk.num - 1) && !e.full
    (s.cmt.jnl.any mine = true → ∃ t, exec (.journalDrain die) s = .next t
      ∧ t.cmt.jnl = s.cmt.jnl.map (fun e => if mine e then { e with pkts := e.pkts ++ h.drainB.map (fun b => (b, false)), overrun := h.drainOvr,
                                                                    refused := h.drainRef, full := true } else e)
      ∧ hpAt t port = { h with drainB := [], drainOvr := false, drainRef := false, lastBatch := s.clk.num - 1 }
      ∧ hpAt t (portOther port) = hpAt s (portOther port) ∧ Upd [.cmt, .host] [] none s t)
    ∧ (s.cmt.jnl.any mine = false → exec (.journalDrain die) s = .next s))
  ∧ ∀ (port : Port) (data : List Byte) (s : State), bar0Open s 0x1080 = true → mayWrite s port 0x1080 = true →
    let die := fieldAt s 0x1080 1 1
    let slot := reg64 s 0x1078 % 2 ^ 48
    (∀ e, fieldAt s 0x1080 2 1 = 0 → partAt s die slot = some e → ∃ t, exec (.journalCopy port data) s = .next t
      ∧ t.out = s.out ++ [.hostWrite port (reg64 s 0x1070) (entryBytes e)] ∧ regAt t 0x1084 = (entryBytes e).length % 2 ^ 32
      ∧ bbit (regAt t 0x1080) 3 = true ∧ bbit (regAt t 0x1010) 1 = true ∧ Upd [.out, .regs, .host] [] none s t)
    ∧ (fieldAt s 0x1080 2 1 = 0 → partAt s die slot = none → ∃ t, exec (.journalCopy port data) s = .next t
      ∧ bbit (regAt t 0x1080) 4 = true ∧ (∀ a, a ≠ 0x1080 → regAt t a = regAt s a) ∧ Upd [.regs, .host] [] none s t)
    ∧ (fieldAt s 0x1080 2 1 = 1 → s.task.repro = false → exec (.journalCopy port data) s = .next (refuseWrite port 0x1080 1 s))
    ∧ (fieldAt s 0x1080 2 1 = 1 → s.task.repro = true → ∃ t, exec (.journalCopy port data) s = .next t
      ∧ t.cmt.jnl = (s.cmt.jnl.filter fun e => decide (e.die ≠ die ∨ e.slot ≠ slot)) ++ (parseEntry die slot data).toList
      ∧ bbit (regAt t 0x1080) 3 = true ∧ bbit (regAt t 0x1010) 1 = true ∧ Upd [.cmt, .regs, .host] [] none s t)


/-! ### Observation -/
/-- While ticks run and the dale is named, the one sample of an lc that its interval names has the tick, lc, dale, PC, state, run, stall
codes and sequence number in the fields of the record. It is written at its index modulo 2^25 of its die's area and the index rises; in
stop mode the record at index 2^25 - 1 sets FULL and interrupt bit 1, and from index 2^25 on nothing is written, both are set and DROP
counts. At any other lc, in an lc whose sample is made, or when tracing is off, nothing happens. That a dale's first sample has sequence
number 0 is the model's choice (notes/assumptions/62.md). (R426,  R427,  R430) -/
def Obligations.PcSampleRecorded : Prop :=
  ∀ (d : Nat) (s : State), d < 12 →
    let on := s.clk.run = true ∧ fieldAt s 0x5020 0 1 = 1 ∧ bbit (fieldAt s 0x5020 7 12) d = true ∧ s.clk.lc % 2 ^ fieldAt s 0x5020 1 5 = 0
      ∧ (daleAt s d).sampledAt ≤ s.clk.now
    let i := s.trc.idx.getD (d / 6) 0
    let r := (sampleRec s d).toNat
    (¬ on → exec (.pcSample d) s = .next s)
    ∧ (bfield r 0 48 = s.clk.num % 2 ^ 48 ∧ bfield r 48 29 = s.clk.lc % 2 ^ 29 ∧ bfield r 77 4 = d ∧ bfield r 81 15 = (daleAt s d).pc % 2 ^ 15
      ∧ bfield r 96 2 = (daleAt s d).st % 4 ∧ bfield r 101 27 = 0 ∧ (∀ q, q < 16 → bfield r (128 + 4 * q) 4 = stallCode s (16 * d + q))
      ∧ bfield r 192 16 = (daleAt s d).samples % 2 ^ 16 ∧ bfield r 208 48 = 0)
    ∧ (on → (fieldAt s 0x5020 6 1 = 0 ∨ i < 2 ^ 25) → s.trc.idx.length = 2 → ∃ t, exec (.pcSample d) s = .next t
      ∧ mget 0 t.trc.recs (d / 6 * 2 ^ 25 + i % 2 ^ 25) = sampleRec s d ∧ t.trc.idx.getD (d / 6) 0 = i + 1
      ∧ (∀ k, k ≠ d / 6 * 2 ^ 25 + i % 2 ^ 25 → mget 0 t.trc.recs k = mget 0 s.trc.recs k)
      ∧ daleAt t d = { daleAt s d with samples := ((daleAt s d).samples + 1) % 2 ^ 16, sampledAt := s.clk.now + 1 }
      ∧ (fieldAt s 0x5020 6 1 = 1 → i + 1 = 2 ^ 25 → bbit (regAt t 0x5024) 0 = true ∧ bbit (regAt t 0x5010) 1 = true ∧ Upd [.trc, .dales, .regs, .host] [] none s t)
      ∧ ((fieldAt s 0x5020 6 1 = 0 ∨ i + 1 ≠ 2 ^ 25) → Upd [.trc, .dales] [] none s t))
    ∧ (on → fieldAt s 0x5020 6 1 = 1 → 2 ^ 25 ≤ i → ∃ t, exec (.pcSample d) s = .next t ∧ t.trc = s.trc ∧ bbit (regAt t 0x5024) 0 = true
      ∧ fieldAt t 0x5024 2 30 = satAdd 30 (fieldAt s 0x5024 2 30) 1 ∧ bbit (regAt t 0x5010) 1 = true ∧ Upd [.dales, .regs, .host] [] none s t)

/-- TRC_RCTL.GO sends the named records of the named die to TRC_RADDR and sets DONE and interrupt bit 0 while they are visible and still
there; else it sets GONE. CORE_PCNT_CTL.GO restarts the core's counters from 0, keeps their settled values with their CSEQ as the final
ones, raises CSEQ modulo 2^16 and takes the selections as written. A write of a global selection stores its 11 bits and clears its
counter; the reserved bits written are refused as cause 4 beside that. (R432,  R434,  R437) -/
def Obligations.TraceAndCountersAnswer : Prop :=
  (∀ (port : Port) (s : State), bar0Open s 0x5050 = true → mayWrite s port 0x5050 = true →
    let die := fieldAt s 0x5050 1 1
    let n := fieldAt s 0x5050 16 16 + 1
    let i := reg64 s 0x5048 % 2 ^ 40
    (i + n ≤ s.trc.vis.getD die 0 → s.trc.idx.getD die 0 ≤ i + 2 ^ 25 → ∃ t, exec (.traceCopy port) s = .next t
      ∧ t.out = s.out ++ [.hostWrite port (reg64 s 0x5040)
          ((List.range n).flatMap fun k => leBytes 32 (mget 0 s.trc.recs (die * 2 ^ 25 + (i + k) % 2 ^ 25)).toNat)]
      ∧ bbit (regAt t 0x5050) 2 = true ∧ bbit (regAt t 0x5010) 0 = true ∧ Upd [.out, .regs, .host] [] none s t)
    ∧ ((s.trc.vis.getD die 0 < i + n ∨ i + 2 ^ 25 < s.trc.idx.getD die 0) → ∃ t, exec (.traceCopy port) s = .next t
      ∧ bbit (regAt t 0x5050) 3 = true ∧ (∀ a, a ≠ 0x5050 → regAt t a = regAt s a) ∧ Upd [.regs, .host] [] none s t))
  ∧ (∀ (port : Port) (p : Nat) (s : State), p < 192 → bar0Open s (corePage p + 0xC0) = true → mayWrite s port (corePage p + 0xC0) = true → 0 < s.clk.now →
    ∃ t, exec (.pcntGo port p) s = .next t ∧ (coreAt t p).pc.val = [] ∧ (coreAt t p).pc.fin = (settleCounts (s.clk.now - 1) (coreAt s p).pc).val
      ∧ (coreAt t p).pc.finSeq = (coreAt s p).pc.cseq ∧ (coreAt t p).pc.cseq = ((coreAt s p).pc.cseq + 1) % 2 ^ 16 ∧ (coreAt t p).pc.start = s.clk.now
      ∧ (∀ n, n < 16 → mget 0 (coreAt t p).pc.sel n = fieldAt s (corePage p + 0xD0 + 4 * (n / 4)) (8 * (n % 4)) 6)
      ∧ Upd [.cores] [.pc] (some p) s t)
  ∧ ∀ (port : Port) (n : Nat) (v : W32) (s : State), n < 32 → Served s port (0x5100 + 4 * n) →
    ∃ t, exec (.gcntSelect port n v) s = .next t ∧ regAt t (0x5100 + 4 * n) = v.toNat % 2 ^ 11 ∧ t.trc = { s.trc with gval := mdel n s.trc.gval }
      ∧ (v.toNat < 2 ^ 11 → ∀ a, a ≠ 0x5100 + 4 * n → regAt t a = regAt s a)
      ∧ (2 ^ 11 ≤ v.toNat → fieldAt t 0x501C 0 32 = satAdd 32 (fieldAt s 0x501C 0 32) 1) ∧ Upd [.trc, .regs, .host] [] none s t


/-! ### Commit zone, votes, verdicts, watershed -/
/-- At N - Z a body that has ended enters the commit zone: every broadcast core of the task has its contexts and endpoints closed, a band
ledger that is not 0 is program fault 0x0E, with no context bound an object that is not 0 is program fault 0x1A and source AUDIT, a
failing watch slot is source STRICT and any program fault source PROGRAM. A body that has not ended overruns once, with source OVERRUN and
the tick's slot noted, and does not enter the zone; at the moved zone it is abandoned with sources OVERRUN and ABANDON, its dales ended
and its unit queues empty. Sources that come after the vote are the next run's; this statement is of runs that have not voted. (R24,  R37,
R39,  R188,  R245,  R262,  R264,  R349,  R372) -/
def Obligations.CommitZoneChecks : Prop :=
  ∀ (ev : List HwEvent) (s : State), s.clk.run = true → s.clk.zone = false → slotN s s.clk.fop - slotZ s ≤ npNow s → s.cmt.voted = false →
    ((s.cmt.ran = false ∨ s.cmt.zoned = true) → exec (.commitZoneOpen ev) s = .next { s with clk := { s.clk with zone := true } })
    ∧ (s.cmt.ran = true → s.cmt.zoned = false → (s.clk.bodyEnd.isSome = true ∨ imemStopped s = true) →
      ∃ t, exec (.commitZoneOpen ev) s = .next t ∧ t.clk = { s.clk with zone := true } ∧ t.cmt.zoned = true
        ∧ (∀ p, p < 192 → holdsIndex (coreAt s p) = true → (coreAt s p).mode = .broadcast →
          (∀ n, n < 16 → (ctxAt (coreAt t p) n).state = 0)
          ∧ (∀ x ∈ (coreAt t p).ch.ep, x.2.st = 0 ∨ 3 < x.2.st)
          ∧ ((coreAt s p).vx.band ≠ 0 → (0x0E, p) ∈ t.cmt.faults)
          ∧ ((∀ n, n < 16 → (ctxAt (coreAt s p) n).state = 0) → (∃ o, o < 56 ∧ objEnd (coreAt s p) o ≠ 0) →
              (0x1A, p) ∈ t.cmt.faults ∧ bbit t.cmt.src 8 = true))
        ∧ (t.cmt.failing ≠ 0 → bbit t.cmt.src 9 = true) ∧ (t.cmt.faults ≠ [] → bbit t.cmt.src 12 = true)
        ∧ (∀ x, x ∈ s.cmt.faults → x ∈ t.cmt.faults) ∧ Upd [.regs, .clk, .evts, .host, .cmt, .cores] [.ch, .bsn, .takes, .fe] none s t)
    ∧ (s.cmt.ran = true → s.cmt.zoned = false → s.clk.bodyEnd = none → imemStopped s = false → bbit s.cmt.src 13 = false → s.clk.overrun = false →
      ∃ t, exec (.commitZoneOpen ev) s = .next t ∧ t.clk.overrun = true ∧ t.clk.zone = false ∧ s.clk.num ∈ t.clk.overruns ∧ bbit t.cmt.src 13 = true
        ∧ (s.task.img.isSome = true → t.evts = s.evts ++ [.set 0x2010 (1 <<< 2), .add 0x2058 0 32 1] ∧ t.regs = s.regs) ∧ Upd [.clk, .evts, .cmt, .regs, .host] [] none s t)
    ∧ (s.cmt.ran = true → s.cmt.zoned = false → s.clk.bodyEnd = none → imemStopped s = false → bbit s.cmt.src 13 = false → s.clk.overrun = true →
      ∃ t, exec (.commitZoneOpen ev) s = .next t ∧ t.clk.zone = true ∧ t.cmt.zoned = true ∧ bbit t.cmt.src 13 = true ∧ bbit t.cmt.src 14 = true
        ∧ t.dales = s.dales.map (fun (d : Nat × Dale) => (d.1, { d.2 with st := 3, flight := [], hold := none, reps := [] }))
        ∧ ∀ p, (coreAt s p).mode = .broadcast → (coreAt t p).q = [])

/-- Each of the five commands completes in every state. A module votes once, from N - Z + 512 on, with its source word, NOTRUN when no
body ran, its run and its failing slots. A child's vote of this slot whose cell passes the end-to-end check joins once; any other is
dropped, and so is a verdict whose cell fails it. The combined vote has a source bit, a failing slot or NOTRUN when any of the votes has
it, and the largest run. With a child's vote missing at the cut-off, the root marks VOTE and records the first missing child unless one is
recorded. That a root without a vote of its own marks VOTE in its sources is the model's choice (notes/assumptions/63.md). A verdict
carries the combined sources, slots and run. It is OVERRUN exactly when OVERRUN is set and ABANDON clear; COMMIT exactly when no source is
set, every body ran, the domain is not held and no child is missing twice; counted exactly when one of sources 0 to 6 or ABANDON is set
and no row above applies, up to the third run of the tick, and from the fourth on HOLD with ESCAL; CORRECT exactly when STRICT is the one
source. An error of a replayable kind outranks a program fault. The root decides once per slot with its own vote and every child's in, or
past the cut-off; every other module takes the verdict of its slot once, before N - 32, and each keeps it and shows it. That a held
domain's resume is a DISCARD is the model's reading (notes/assumptions/63.md). (R292,  R373,  R374,  R376,  R379,  R375,  R388,  R389) -/
def Obligations.VotesAndVerdicts : Prop :=
  ((∀ (v : Vote) (s : State),
      (∃ t, exec .voteSend s = .next t ∧ Upd [.cmt, .fab] [] none s t) ∧ (∃ t, exec (.voteArrival v) s = .next t ∧ Upd [.cmt, .fab] [] none s t)
      ∧ (∃ t, exec .voteCutoff s = .next t ∧ Upd [.cmt, .regs] [] none s t) ∧ (∃ t, exec .verdictDecide s = .next t ∧ Upd [.cmt, .regs, .fab] [] none s t)
      ∧ ∃ t, exec (.verdictArrival v) s = .next t ∧ Upd [.cmt, .regs, .fab] [] none s t)
  ∧ (∀ (s : State) (v : Vote), combined s = some v → ∃ o, s.cmt.own = some o
      ∧ (∀ i, v.src.getLsbD i = (o.src.getLsbD i || s.cmt.votes.any fun x => x.src.getLsbD i))
      ∧ (∀ i, v.slots.getLsbD i = (o.slots.getLsbD i || s.cmt.votes.any fun x => x.slots.getLsbD i))
      ∧ v.notrun = (o.notrun || s.cmt.votes.any fun x => x.notrun)
      ∧ o.run ≤ v.run ∧ (∀ x ∈ s.cmt.votes, x.run ≤ v.run) ∧ (v.run = o.run ∨ ∃ x ∈ s.cmt.votes, v.run = x.run) ∧ v.slot = o.slot ∧ v.child = o.child)
  ∧ (∀ s : State, votes s = true → (s.clk.zone = true ∨ bbit s.cmt.src 13 = true) → slotN s s.clk.fop - slotZ s + 512 ≤ npNow s → s.cmt.voted = false →
      ∃ t, exec .voteSend s = .next t ∧ t.cmt = { s.cmt with voted := true, own := some (ownVote s) }
        ∧ (s.task.modIdx = 0 → t = { s with cmt := t.cmt }) ∧ Upd [.cmt, .fab] [] none s t)
  ∧ (∀ s : State, s.cmt.voted = true → exec .voteSend s = .next s)
  ∧ (∀ (v : Vote) (s : State), voteOk v false s = true → votes s = true → v.child ∈ childrenOf s → v.slot = s.clk.num → (∀ x ∈ s.cmt.votes, x.child ≠ v.child) →
      ∃ t, exec (.voteArrival v) s = .next t ∧ t.cmt = { s.cmt with votes := s.cmt.votes ++ [v] } ∧ Upd [.cmt, .fab] [] none s t)
  ∧ (∀ (v : Vote) (s : State), (voteOk v false s = false ∨ votes s = false ∨ v.child ∉ childrenOf s ∨ v.slot ≠ s.clk.num ∨ ∃ x ∈ s.cmt.votes, x.child = v.child) →
      ∃ t, exec (.voteArrival v) s = .next t ∧ Upd [.fab] [] none s t)
  ∧ ∀ (s : State) (c : Nat) (cs : List Nat), votes s = true → s.task.modIdx = 0 → decidedSlot s = false → missingKids s = c :: cs → s.cmt.missNow = [] →
      slotN s s.clk.fop - slotZ s + fieldAt s 0x4028 0 16 ≤ npNow s →
      ∃ t, exec .voteCutoff s = .next t ∧ t.cmt.missNow = c :: cs
        ∧ (∀ o, s.cmt.own = some o → ∃ o', t.cmt.own = some o' ∧ o'.src.getLsbD 11 = true)
        ∧ (s.cmt.voted = false → bbit t.cmt.src 11 = true)
        ∧ regAt t 0x4034 = (if bbit (regAt s 0x4034) 16 then regAt s 0x4034 else c % 2 ^ 16 + 2 ^ 16)
        ∧ (∀ a, a ≠ 0x4034 → regAt t a = regAt s a) ∧ Upd [.cmt, .regs] [] none s t)
  ∧ ((∀ (x : RuleCtx) (v : Vote),
    let d := ruleOf x v
    let n := v.src.toNat
    let overran := bbit n 13 && !bbit n 14
    let stop := x.held || x.again || v.notrun || bbit n 11 || bbit n 15 || bbit n 10
    let replay := decide (n % 128 ≠ 0) || bbit n 14
    d.src = v.src ∧ d.slots = v.slots ∧ d.run = v.run ∧ d.slot = v.slot ∧ d.notrun = v.notrun ∧ d.kind < 4
    ∧ (d.kind = 2 ↔ overran = true)
    ∧ (d.kind = 0 ↔ x.held = false ∧ x.again = false ∧ v.notrun = false ∧ n = 0)
    ∧ (d.counted = true ↔ overran = false ∧ stop = false ∧ replay = true ∧ v.run < 4)
    ∧ (d.escal = true ↔ overran = false ∧ stop = false ∧ replay = true ∧ 4 ≤ v.run)
    ∧ (d.correct = true ↔ x.held = false ∧ x.again = false ∧ v.notrun = false ∧ n = 2 ^ 9)
    ∧ (d.escal = true → d.kind = 3) ∧ (d.counted = true → d.kind = 1) ∧ (d.correct = true → d.kind = 1)
    ∧ (overran = false → x.held = true → d.kind = if x.resume then 1 else 3)
    ∧ (overran = false → x.held = false → x.again = true → d.kind = 3)
    ∧ (overran = false → x.held = false → x.again = false → (v.notrun = true ∨ bbit n 11 = true) → d.kind = 1)
    ∧ (overran = false → stop = false → replay = false → bbit n 7 = false → (bbit n 12 = true ∨ bbit n 8 = true) → d.kind = 3))
  ∧ (∀ (s : State) (v : Vote), votes s = true → s.task.modIdx = 0 → combined s = some v → decidedSlot s = false → (missingKids s = [] ∨ s.cmt.missNow ≠ []) →
      ∃ t, exec .verdictDecide s = .next t ∧ t.cmt.verdict = some (ruleOf (ruleCtx s) v) ∧ regAt t 0x4030 = v.src.toNat
        ∧ fieldAt t 0x402C 3 2 = (ruleOf (ruleCtx s) v).kind ∧ Upd [.regs, .cmt, .fab] [] none s t)
  ∧ (∀ (s : State) (v : Vote), voteOk v true s = true → votes s = true → s.task.modIdx ≠ 0 → v.slot = s.clk.num → decidedSlot s = false → npNow s + 32 < slotN s s.clk.fop →
      ∃ t, exec (.verdictArrival v) s = .next t ∧ t.cmt = { s.cmt with verdict := some v } ∧ regAt t 0x4030 = v.src.toNat
        ∧ fieldAt t 0x402C 3 2 = v.kind % 4 ∧ Upd [.regs, .cmt, .fab] [] none s t)
  ∧ (∀ (s : State) (v : Vote), voteOk v true s = true → votes s = true → s.task.modIdx ≠ 0 → s.cmt.inDoubt = true → v.slot = s.cmt.doubtSlot → v.slot ≠ s.clk.num → s.cmt.doubtV = none →
      ∃ t, exec (.verdictArrival v) s = .next t ∧ t.cmt = { s.cmt with doubtV := some v } ∧ Upd [.cmt, .fab] [] none s t)
  ∧ (∀ (s : State) (v : Vote), (voteOk v true s = false ∨ votes s = false ∨ s.task.modIdx = 0) → exec (.verdictArrival v) s = .next (takeVote v true s))
  ∧ (∀ s : State, (votes s = false ∨ s.task.modIdx ≠ 0 ∨ decidedSlot s = true ∨ combined s = none) → exec .verdictDecide s = .next s)
  ∧ ∀ s : State, (votes s = false ∨ s.task.modIdx ≠ 0 ∨ decidedSlot s = true ∨ missingKids s = []) → exec .voteCutoff s = .next s)

/-- At N - 32 a module that holds a COMMIT verdict of its run makes the tick final: the written flip pages become flips that the next
boundary makes, the next batch follows the batches processed, corrections return to 0, the run to 1, the tick's events are visible, its
egress records join the release in order, its overflow staging waits for the copy, no EXTERN request remains and the audit chain has one
link more. Before N - 32, or with another verdict, the command does nothing. (R350,  R377,  R390,  R447) -/
def Obligations.CommitMakesTheTickFinal : Prop :=
  ∀ (s : State) (v : Vote), s.cmt.verdict = some v →
    (votes s = true → slotN s s.clk.fop ≤ npNow s + 32 → v.kind = 0 → s.cmt.ran = true →
      ∃ t, exec .watershedCommit s = .next t ∧ t.cmt.verdict = none ∧ t.cmt.last = some v ∧ t.cmt.committed = true
        ∧ t.cmt.nextBatch = (s.cmt.batch + (if s.cmt.two then 2 else 1)) % 2 ^ 48 ∧ t.cmt.corr = [] ∧ t.cmt.run = 1 ∧ t.cmt.decided = false
        ∧ t.task = { s.task with restart := false } ∧ t.hbm.flips = s.hbm.wr ∧ t.hbm.wr = [] ∧ t.hbm.mem = s.hbm.mem ∧ t.evts = []
        ∧ t.host.egr = [] ∧ t.host.ovw = [] ∧ t.host.ext = [] ∧ t.host.copy = s.host.copy ++ s.host.ovw
        ∧ (s.host.pa.up = false → s.host.pb.up = false → t.host.rel = s.host.rel ++ (egrOrder s).filterMap (relOf s s.clk.num))
        ∧ t.sec.elinks = s.sec.elinks + 1 ∧ t.sec.hslot = s.clk.num ∧ (∀ p, (coreAt t p).vlog = [] ∧ (coreAt t p).pubObj = (coreAt s p).obj)
        ∧ t.trc.vis = s.trc.idx ∧ t.dales = s.dales ∧ t.clk = { s.clk with overrun := false })
    ∧ ((votes s = false ∨ npNow s + 32 < slotN s s.clk.fop ∨ v.kind ≠ 0) → exec .watershedCommit s = .next s)
    ∧ ((votes s = false ∨ npNow s + 32 < slotN s s.clk.fop ∨ v.kind = 0) → exec .watershedDiscard s = .next s)

/-- With a DISCARD or HOLD verdict the run's egress, overflow staging and EXTERN requests are dropped, its written bits are cleared, no
flip is recorded and the batch stays next; a counted verdict raises the run, and interrupt bit 0 of the commit page rises with DISCARD.
HOLD enters the held state, or the faulted state when program faults alone call for it. An OVERRUN verdict neither commits nor drops
anything, and the tick goes on. (R378,  R387,  R393,  R447) -/
def Obligations.DiscardDropsTheRun : Prop :=
  ∀ (s : State) (v : Vote), s.cmt.verdict = some v → votes s = true → slotN s s.clk.fop ≤ npNow s + 32 → s.cmt.ran = true → s.cmt.inDoubt = false →
    (v.kind = 1 → s.cmt.st ≠ 1 → ∃ t, exec .watershedDiscard s = .next t ∧ t.cmt.verdict = none ∧ t.cmt.last = some v ∧ t.cmt.committed = s.cmt.committed
      ∧ t.cmt.nextBatch = s.cmt.nextBatch ∧ t.cmt.run = (if v.counted then s.cmt.run + 1 else s.cmt.run) ∧ t.cmt.st = s.cmt.st
      ∧ t.host.egr = [] ∧ t.host.ovw = [] ∧ t.host.ext = [] ∧ t.host.rel = s.host.rel ∧ t.host.copy = s.host.copy ∧ t.hbm.wr = [] ∧ t.hbm.flips = s.hbm.flips
      ∧ t.evts = [] ∧ bbit (regAt t 0x4010) 0 = true ∧ (∀ p, (coreAt t p).vlog = (coreAt s p).vlog) ∧ t.out = s.out ∧ t.task = s.task)
    ∧ (v.kind = 3 → s.cmt.st ≠ 2 → ∃ t, exec .watershedDiscard s = .next t ∧ t.cmt.verdict = none ∧ t.cmt.nextBatch = s.cmt.nextBatch
      ∧ (programHold v = true → t.cmt.st = 2) ∧ (programHold v = false → t.cmt.st = 1 ∨ t.cmt.st = 3)
      ∧ t.host.egr = [] ∧ t.host.ovw = [] ∧ t.host.ext = [] ∧ t.hbm.wr = [] ∧ t.hbm.flips = s.hbm.flips)
    ∧ (v.kind = 2 → ∃ t, exec .watershedDiscard s = .next t ∧ t.cmt.verdict = none ∧ t.cmt.last = some v ∧ t.cmt.persist = true
      ∧ t.cmt.nextBatch = s.cmt.nextBatch ∧ t.cmt.run = s.cmt.run ∧ t.clk = { s.clk with overrun := true } ∧ Upd [.cmt, .clk] [] none s t)

/-- Each of IN_DOUBT, DOMAIN_RESUME and CORE_FENCE_RELOAD completes in every state. A module with no verdict at N - 32 of a run is in
doubt of this slot, with its staged effects kept; the verdict that is resent is applied to that slot at the next slot's N - 32, and the
doubt ends. DOMAIN_RESUME is kept at the root of a held domain and does nothing elsewhere. In a held domain a core is fenced and the task
is loaded again with the batches of the held tick, or the module is lost when the image no longer loads. (R379,  R389,  R391) -/
def Obligations.InDoubtModuleSettles : Prop :=
  (∀ s : State, votes s = true → slotN s s.clk.fop ≤ npNow s + 32 → decidedSlot s = false → s.cmt.inDoubt = false → s.cmt.ran = true →
    ∃ t, exec .inDoubt s = .next t ∧ t.cmt = { s.cmt with inDoubt := true, doubtSlot := s.clk.num } ∧ t.clk = { s.clk with zone := true }
      ∧ bbit (regAt t 0x4010) 3 = true ∧ t.host.egr = s.host.egr ∧ Upd [.regs, .host, .clk, .cmt] [] none s t)
  ∧ (∀ s : State, (votes s = false ∨ npNow s + 32 < slotN s s.clk.fop ∨ decidedSlot s = true ∨ s.cmt.ran = false) → exec .inDoubt s = .next s)
  ∧ (∀ (s : State) (v w : Vote), votes s = true → slotN s s.clk.fop ≤ npNow s + 32 → s.cmt.verdict = some v → v.kind = 1 → s.cmt.ran = false →
    s.cmt.inDoubt = true → s.cmt.doubtV = some w → w.kind = 0 → s.cmt.st = 0 →
    ∃ t, exec .watershedDiscard s = .next t ∧ t.cmt.inDoubt = false ∧ t.cmt.doubtV = none ∧ t.cmt.committed = true ∧ t.cmt.last = some v
      ∧ t.cmt.nextBatch = (s.cmt.batch + (if s.cmt.two then 2 else 1)) % 2 ^ 48 ∧ t.sec.hslot = s.cmt.doubtSlot ∧ t.host.egr = [])
  ∧ (∀ (port : Port) (p : Nat) (s : State), p < 192 → (∃ t, exec .inDoubt s = .next t ∧ Upd [.regs, .host, .clk, .cmt] [] none s t)
    ∧ (∃ t, exec (.domainResume port) s = .next t ∧ Upd [.cmt, .regs, .host] [] none s t)
    ∧ ∃ t, exec (.coreFenceReload p) s = .next t ∧ t.hbm = s.hbm ∧ t.clk = s.clk ∧ t.trc = s.trc ∧ t.evts = s.evts)
  ∧ (∀ (port : Port) (s : State), bar0Open s 0x4020 = true → mayWrite s port 0x4020 = true →
    (s.task.modIdx = 0 → (s.cmt.st = 1 ∨ s.cmt.st = 3) → exec (.domainResume port) s = .next { s with cmt := { s.cmt with resume := true } })
    ∧ ((s.task.modIdx ≠ 0 ∨ s.cmt.st ≠ 1 ∧ s.cmt.st ≠ 3) → exec (.domainResume port) s = .next s))
  ∧ ∀ (p : Nat) (s : State) (img : Image) (old : Loaded), p < 192 → s.task.src = some img → s.task.img = some old →
    ((s.cmt.st = 1 ∨ s.cmt.st = 3) → ∃ t, exec (.coreFenceReload p) s = .next t ∧ (coreAt t p).fenced = true ∧ t.cmt.batch = s.cmt.batch
      ∧ t.cmt.two = s.cmt.two ∧ t.cmt.corr = s.cmt.corr ∧ (t.cmt.st = 1 ∨ t.pwr.lost = true) ∧ t.hbm = s.hbm ∧ t.clk = s.clk)
    ∧ (s.cmt.st ≠ 1 → s.cmt.st ≠ 3 → exec (.coreFenceReload p) s = .next s)


/-! ### Dales, unit queues, holds -/
/-- A dale issues at most four words and one instruction per unit queue in one lc. An instruction of a unit that may issue joins the
broadcast group of this lc; a word that the ring does not hold stops the dale with program fault 0x01 of its first core. A group enters
the queues of the dale's broadcast cores from 20 lc after its issue on, while the cols are open: at the end of each instruction's queue,
or, where that held 32 as the lc began, it is dropped with program fault 0x02 of the core. A refill beat puts the next word of a streaming
dale into its ring, as HBM delivers it. That an instruction which starts in an lc still fills its place in that lc is the model's choice
(notes/assumptions/65.md). (R45,  R46,  R47,  R48,  R52) -/
def Obligations.IssueAndBroadcast : Prop :=
  (∀ (d : Nat) (ev : List HwEvent) (s t : State), exec (.instructionIssue d ev) s = .next t →
    (wordsNow s (daleAt s d) ≤ 4 → wordsNow t (daleAt t d) ≤ 4) ∧ t.clk = s.clk
    ∧ ((∀ f, (daleAt s d).flight.getLast? = some f → f.lc = s.clk.now → (f.ins.map iUnit).Nodup) →
        ∀ f, (daleAt t d).flight.getLast? = some f → f.lc = s.clk.now → (f.ins.map iUnit).Nodup))
  ∧ (∀ (d : Nat) (s : State), d < 12 →
    let x := daleAt s d
    let i := insAt x x.pc
    (canIssue s x = true → iUnit i ≠ 0 → wordsNow s x + insWords i ≤ 4 → unitTaken s.clk.now (iUnit i) x.flight = false → wordsHere x (insWords i) = true →
      ∃ t f, exec (.instructionIssue d []) s = .next t ∧ (daleAt t d).flight.getLast? = some f ∧ f.lc = s.clk.now ∧ i ∈ f.ins)
    ∧ (canIssue s x = true → (wordsNow s x < 4 ∧ wordsHere x 1 = false ∨ wordsNow s x + insWords i ≤ 4 ∧ wordsHere x (insWords i) = false) →
      ∃ t, exec (.instructionIssue d []) s = .next t ∧ daleAt t d = { x with stopped := 1 } ∧ (0x01, 16 * d) ∈ t.cmt.faults
        ∧ Upd [.dales, .cmt, .evts, .regs, .host] [] none s t)
    ∧ (canIssue s x = false → ∀ ev, exec (.instructionIssue d ev) s = .next s))
  ∧ (∀ (d : Nat) (f : Flight) (rest : List Flight) (s : State), d < 12 → (daleAt s d).flight = f :: rest →
    ((s.clk.now < f.lc + 20 ∨ colsOpen s = false) → exec (.queueEntry d) s = .next s)
    ∧ (f.lc + 20 ≤ s.clk.now → colsOpen s = true → (∀ i ∈ f.ins, 1 ≤ iUnit i ∧ iUnit i ≤ 5) → (f.ins.map iUnit).Nodup →
      ∃ t, exec (.queueEntry d) s = .next t ∧ daleAt t d = { daleAt s d with flight := rest }
        ∧ (∀ p, p / 16 = d → (coreAt s p).mode = .broadcast → (coreAt s p).rst = none → ∀ i ∈ f.ins,
            (lenBefore (coreAt s p) s.clk.now (iUnit i) < 32 → unitQ (coreAt t p) (iUnit i) = unitQ (coreAt s p) (iUnit i) ++ [i])
            ∧ (32 ≤ lenBefore (coreAt s p) s.clk.now (iUnit i) → unitQ (coreAt t p) (iUnit i) = unitQ (coreAt s p) (iUnit i) ∧ (0x02, p) ∈ t.cmt.faults))
        ∧ (∀ p, (p / 16 ≠ d ∨ (coreAt s p).mode ≠ .broadcast ∨ (coreAt s p).rst.isSome = true) → coreAt t p = coreAt s p)
        ∧ Upd [.dales, .cores, .cmt, .evts, .regs, .host] [.q, .came] none s t))
  ∧ ∀ (d : Nat) (s : State) (im : Loaded), d < 12 → s.task.img = some im → (daleAt s d).stream = true → (daleAt s d).filled < (daleAt s d).words →
    (∀ ev, ∃ t, exec (.instructionRefillBeat d ev) s = .next t ∧ (daleAt t d).filled = (daleAt s d).filled + 1
      ∧ Upd [.dales, .cmt, .evts, .regs, .host, .hbm] [] none s t)
    ∧ ∃ t, exec (.instructionRefillBeat d []) s = .next t ∧ (daleAt t d).filled = (daleAt s d).filled + 1
      ∧ imemAt (daleAt t d) (daleAt s d).filled = (im.streams.getD d []).getD (daleAt s d).filled 0
      ∧ (∀ n, n % 32768 ≠ (daleAt s d).filled % 32768 → imemAt (daleAt t d) n = imemAt (daleAt s d) n) ∧ Upd [.dales] [] none s t

/-- Where the dale may issue and the SQ instruction of a command stands next, SQNOP lets nothing issue for COUNT0 + 1 lc after its own,
SQREP opens a block of its offset's words from the next word that repeats COUNT0 times more, SQHOLD makes the dale wait at the hold that
its offset names and SQEND ends it; each takes its words out of the four of this lc. A hardware event that strikes the word uncorrectably
stops the dale with source ECC. A word that the ring does not hold stops the dale with program fault 0x01. Where the dale may not issue,
or another instruction stands there, the command does nothing. (R45,  R46,  R47,  R88,  R91,  R102,  R104) -/
def Obligations.SequencerInstructions : Prop :=
  ∀ (d : Nat) (s : State), d < 12 →
    let x := daleAt s d
    let i := insAt x x.pc
    let sq := [(Instr.sqnop d, 0x00), (.sqrep d, 0x01), (.sqhold d, 0x02), (.sqend d, 0x03)]
    let past : Dale := { x with pc := x.pc + insWords i, cnt := wordsNow s x + insWords i, cntLc := s.clk.now }
    (∀ c ∈ sq, ∀ ev, canIssue s x = false → exec (c.1 ev) s = .next s)
    ∧ (∀ c ∈ sq, ∀ ev, canIssue s x = true → wordsHere x (insWords i) = true → (iUnit i ≠ 0 ∨ iOp i ≠ c.2 ∨ 4 < wordsNow s x + insWords i) → exec (c.1 ev) s = .next s)
    ∧ (∀ c ∈ sq, ∀ w, canIssue s x = true → wordsHere x (insWords i) = true → iUnit i = 0 → iOp i = c.2 → wordsNow s x + insWords i ≤ 4 →
        x.pc ≤ w → w < x.pc + insWords i → s.cmt.voted = false →
        ∃ t, exec (c.1 [.imemUe d w]) s = .next t ∧ daleAt t d = { x with stopped := 2 } ∧ bbit t.cmt.src 2 = true ∧ Upd [.dales, .cmt, .evts, .regs, .host] [] none s t)
    ∧ (∀ c ∈ sq, ∀ ev, canIssue s x = true → wordsNow s x < 4 → wordsHere x 1 = false →
        ∃ t, exec (c.1 ev) s = .next t ∧ daleAt t d = { x with stopped := 1 } ∧ (0x01, 16 * d) ∈ t.cmt.faults ∧ Upd [.dales, .cmt, .evts, .regs, .host] [] none s t)
    ∧ (canIssue s x = true → wordsHere x (insWords i) = true → iUnit i = 0 → wordsNow s x + insWords i ≤ 4 → x.reps = [] →
      (iOp i = 0x00 → ∃ t, exec (.sqnop d []) s = .next t ∧ daleAt t d = { past with next := s.clk.now + iCount i 0 + 2 } ∧ Upd [.dales] [] none s t)
      ∧ (iOp i = 0x01 → ∃ t, exec (.sqrep d []) s = .next t
          ∧ daleAt t d = { past with reps := [⟨x.pc + insWords i, x.pc + insWords i + iOff i 0, iCount i 0⟩] } ∧ Upd [.dales] [] none s t)
      ∧ (iOp i = 0x02 → ∃ t, exec (.sqhold d []) s = .next t ∧ daleAt t d = { past with st := 2, hold := some (iOff i 0 % 64, s.clk.now) }
          ∧ Upd [.dales, .cores, .cmt, .evts, .regs, .host] [.mx] none s t)
      ∧ (iOp i = 0x03 → ∃ t, exec (.sqend d []) s = .next t ∧ daleAt t d = { past with st := 3 } ∧ Upd [.dales] [] none s t))

/-- Once every dale that takes part stands at the hold and its condition is met, its release lc is fixed at 32 lc after the later of the
last arrival and the condition; until then nothing changes. Once that lc has passed, all of these dales resume together from the lc after
it, each in a new segment, and the entry is gone; other dales are as they were. (R49,  R89,  R90,  R103) -/
def Obligations.HoldsReleaseTogether : Prop :=
  ∀ (id : Nat) (h : HoldD) (s : State), id < 64 → holdAt s id = some h →
    (∀ r, s.holds.find? (fun r => decide (r.id = id)) = some r →
      (s.clk.now ≤ r.rel → exec (.holdRelease id) s = .next s)
      ∧ (r.rel < s.clk.now → ∃ t, exec (.holdRelease id) s = .next t
        ∧ (∀ d, d < 12 → bbit h.dales d = true → daleAt t d = { daleAt s d with
            st := 1, hold := none, next := r.rel + 1, seg := s.clk.lc + r.rel + 1 - s.clk.now, segNo := (daleAt s d).segNo + 1 })
        ∧ (∀ d, (12 ≤ d ∨ bbit h.dales d = false) → daleAt t d = daleAt s d)
        ∧ (∀ p, bbit h.dales (p / 16) = true → p < 192 → (coreAt t p).mx.fresh = true)
        ∧ t.holds = s.holds.filter (fun r => decide (r.id ≠ id)) ∧ Upd [.dales, .holds, .cores] [.mx] none s t))
    ∧ (s.holds.find? (fun r => decide (r.id = id)) = none →
      ((∃ d, d < 12 ∧ bbit h.dales d = true ∧ ∀ x, (daleAt s d).hold = some x → x.1 ≠ id) → exec (.holdRelease id) s = .next s)
      ∧ (holdMet s h = false → exec (.holdRelease id) s = .next s)
      ∧ (holdMet s h = true → (∀ d, d < 12 → bbit h.dales d = true → ∃ at_, (daleAt s d).hold = some (id, at_) ∧ at_ ≤ s.clk.now) →
        ∃ t rel, exec (.holdRelease id) s = .next t ∧ t.holds = s.holds ++ [⟨id, rel⟩]
          ∧ (h.cond ≠ 0 → rel = s.clk.now + 32)
          ∧ (h.cond = 0 → ∀ d at_, d < 12 → bbit h.dales d = true → (daleAt s d).hold = some (id, at_) → at_ + 32 ≤ rel)
          ∧ rel ≤ s.clk.now + 32 ∧ t.dales = s.dales ∧ Upd [.holds, .cores] [.ch] none s t))


/-! ### Unit instructions: start, steps in their lc, fetch engine -/
/-- For every instruction of fixed timing, the command does nothing unless the instruction stands first in its unit's queue, its resource
is free and its waits are satisfied together, also when both name one object. It then starts on every core alike: it leaves the queue, the
other queues stay, both amounts are subtracted from their objects, its resource is held for its steps and its signals are planned at the
lc that its table row's step interval, read depth and result depth give. On a core that participates its steps join the work of the core,
the first in the lc in which it reads. The steps of a core's instruction at work are made one by one, each in its own lc; no step is made
before its lc, after the last, or on a context that has halted, and a thread's step that finds its bank taken is made again in the next lc
with nothing else of it done. (R50,  R57,  R81,  R82,  R99,  R100,  R203,  R204) -/
def Obligations.UnitInstructionStarts : Prop :=
  (∀ (p : Nat) (s : State), p < 192 →
    let ops : List (Instr × Nat × Nat × Nat × Option Nat × Option Nat × Option Nat) :=
      [(.fearm p, 1, 0x03, 1, none, some 8, none), (.ferearm p, 1, 0x04, 1, none, some 4, some 0), (.feclose p, 1, 0x05, 1, none, some 4, none),
       (.fefabrd p, 1, 0x08, 1, some 1, none, some 0), (.fefabwr p [], 1, 0x09, 3, some 4, none, some 0), (.feovrd p [], 1, 0x0A, 1, some 1, none, some 0),
       (.mxldw p [], 2, 0x01, 1, some 1, some 3, some 0), (.mxlds p [], 2, 0x03, 1, some 1, some 3, some 0),
       (.puflush p [], 3, 0x02, 1, some 1, some 20, some 0), (.pucensus p, 3, 0x03, 1, none, some 6, some 0),
       (.puclr p, 3, 0x04, 2, none, some 2, some 0), (.puvec p [], 3, 0x05, 1, some 2, some 12, some 0),
       (.vxld p [], 4, 0x01, 1, some 1, some 4, some 0), (.vxst p [], 4, 0x02, 1, some 1, some 4, some 0), (.vxepl p [], 4, 0x03, 1, some 1, some 10, some 0),
       (.vxcmp p, 4, 0x06, 1, some 2, some 10, some 1), (.vxexp p, 4, 0x07, 1, some 2, some 10, some 1), (.vxband p, 4, 0x08, 1, some 2, some 12, some 1),
       (.vxperm p, 4, 0x09, 1, some 2, some 6, some 1), (.vxshuf p, 4, 0x0A, 1, some 1, some 4, some 0), (.vxpack p, 4, 0x0B, 1, some 1, some 4, some 0),
       (.vxunpk p, 4, 0x0C, 1, some 1, some 4, some 0), (.vxtree p, 4, 0x0D, 1, some 2, some 6, some 1), (.vxopt p, 4, 0x0E, 4, some 3, some 24, some 2),
       (.vxsracc p, 4, 0x0F, 1, some 2, some 10, some 1), (.vxrand p, 4, 0x10, 1, none, some 12, some 0), (.vxmask p, 4, 0x11, 1, some 1, some 3, some 0),
       (.chopen p, 5, 0x01, 1, none, none, some 0), (.chclose p, 5, 0x02, 1, none, some 4, some 0), (.chsend p [], 5, 0x03, 1, some 2, none, some 1),
       (.chsig p, 5, 0x04, 1, none, none, some 0), (.chmcast p [], 5, 0x05, 1, some 2, none, some 1), (.chbar p, 5, 0x06, 1, none, none, some 0),
       (.chrole p, 5, 0x07, 1, none, some 2, none), (.tsread p none, 5, 0x10, 1, none, some 48, some 0), (.entropy p [], 5, 0x11, 16, none, some 64, some 0),
       (.cntread p, 5, 0x12, 1, none, some 12, some 0), (.hostpoll p false, 5, 0x13, 1, none, some 40, some 0)]
    ∀ x ∈ ops,
      let c := coreAt s p
      let u := x.2.1
      (startable s p u x.2.2.1 = none → exec x.1 s = .next s)
      ∧ ∀ i, startable s p u x.2.2.1 = some i →
        (unitQ c u).head? = some i ∧ iUnit i = u ∧ iOp i = x.2.2.1 ∧ resFree c s.clk.now i = true ∧ (∀ o, o < 56 → waitOn i o ≤ objAt c o)
        ∧ ∃ t, exec x.1 s = .next t ∧ unitQ (coreAt t p) u = (unitQ c u).tail ∧ (∀ v, v ≠ u → unitQ (coreAt t p) v = unitQ c v)
          ∧ (∀ o, o < 56 → objAt (coreAt t p) o = objAt c o - waitOn i o) ∧ (coreAt t p).issue = c.issue + 1
          ∧ (∃ more, (coreAt t p).sigs = c.sigs ++ insSigs i s.clk.now (fixedAt s.clk.now 0 x.2.2.2.1 x.2.2.2.2.1 x.2.2.2.2.2.1) ++ more)
          ∧ (∀ r ∈ resOf i, mget 0 (coreAt t p).busy r = s.clk.now + iSteps i * x.2.2.2.1)
          ∧ (∀ e, x.2.2.2.2.2.2 = some e → participates s p i = true → ∃ w, (coreAt t p).job.work = c.job.work ++ [w] ∧ w.ins = i ∧ w.ev = [] ∧ w.part = true
              ∧ w.s0 = s.clk.now ∧ w.k = 0 ∧ w.due = s.clk.now + e ∧ w.t = x.2.2.2.1 ∧ w.stop = none ∧ w.beats = [])
          ∧ ((x.2.2.2.2.2.2 = none ∨ participates s p i = false ∧ (u, x.2.2.1) ≠ (1, 0x04) ∧ (u, x.2.2.1) ≠ (4, 0x03)) → (coreAt t p).job.work = c.job.work)
          ∧ (coreAt t p).bsn = c.bsn ∧ (coreAt t p).vx.tile = c.vx.tile ∧ (coreAt t p).pu.acc = c.pu.acc
          ∧ (∀ q, q ≠ p → coreAt t q = coreAt s q) ∧ t.clk = s.clk ∧ t.hbm = s.hbm ∧ t.dales = s.dales ∧ t.task = s.task ∧ t.fab = s.fab)
  ∧ ∀ (p : Nat) (w : Work) (s : State), p < 192 → (coreAt s p).job.work = [w] → lateNow s p = [] → 1 ≤ iUnit w.ins → iUnit w.ins ≤ 5 →
    ((s.clk.now < w.due ∨ ctxHalted (coreAt s p) w = true) → w.ended = false →
      coreAt (coreWork p s) p = coreAt s p ∧ Upd [.cores] [.job] (some p) s (coreWork p s))
    ∧ (w.ended = true → (coreAt (coreWork p s) p).job.work = [] ∧ Upd [.cores] [.job] (some p) s (coreWork p s))
    ∧ (w.due ≤ s.clk.now → w.ended = false → ctxHalted (coreAt s p) w = false →
      let u := unitStep p w (clearMarks p s)
      let c := coreAt u.2 p
      (c.job.wait = true → coreAt (coreWork p s) p = { coreAt s p with job := { (coreAt s p).job with
          work := [{ w with due := s.clk.now + 1 }], wait := false, halt := none } } ∧ Upd [.cores] [.job] (some p) s (coreWork p s))
      ∧ (c.job.wait = false → c.job.halt = none → c.job.work = [w] → (∀ x ∈ c.job.late, s.clk.now < x.lc) →
          coreAt (coreWork p s) p = { c with job := { c.job with work := if (w.after u.1).ended then [] else [w.after u.1] } }
          ∧ Upd [.cores] [.job] (some p) u.2 (coreWork p s)))

/-- FEARM binds its context anew to the declaration that operand C names, with its bases from operands A and B, and plans the credits of
an inbound stream for its DONE; each step of FEREARM adds to the bases; FECLOSE unbinds and takes the inbound stream's credits back. One
step of FEFABRD takes a fabric tag and sends a read request with it and no credit; one of FEFABWR takes a tag and sends a basin row as
three cells for three credits; one of FEOVRD takes a memory tag and, where the port has host DMA tags for it and no staging copy is owed
there, sends the host reads of its translated granules, else it waits, while a miss of an unmapped granule gives the destination's rows
the poison pattern and marks XLAT. With no free tag the request is not made, program fault 0x17. Requests of a tick that is too young for
the fabric are program fault 0x22. (R106,  R107,  R242,  R244,  R247,  R248,  R249,  R251,  R252,  R268,  R294,  R295) -/
def Obligations.ContextsAndElasticRequests : Prop :=
  (∀ (p : Nat) (i : Ins) (s : State), p < 192 →
    let n := iUmod i % 16
    let c := coreAt s p
    (∀ d, startable s p 1 0x03 = some i → 1 ≤ iSteps i → strmAt s (immOf s p i 2 0) = some d → ∃ t, exec (.fearm p) s = .next t
      ∧ ctxAt (coreAt t p) n = { state := 1, decl := immOf s p i 2 0, baseA := offsetOf s p i 0 0, baseB := offsetOf s p i 1 0, thr := thrOf c 1 }
      ∧ (isInbound d = true → d.cred < 56 → ⟨s.clk.now + iSteps i + 7, d.cred, d.ringm1 + 1⟩ ∈ (coreAt t p).sigs)
      ∧ (∀ m, m ≠ n → ctxAt (coreAt t p) m = ctxAt c m) ∧ Upd [.cores] [.q, .obj, .started, .busy, .sigs, .issue, .job, .fe, .takes] (some p) s t)
    ∧ (startable s p 1 0x05 = some i → ∃ t, exec (.feclose p) s = .next t ∧ (ctxAt (coreAt t p) n).state = 0
      ∧ (∀ d, (ctxAt c n).state ≠ 0 → strmAt s (ctxAt c n).decl = some d → isInbound d = true → d.cred < 56 →
          (coreAt t p).takes = c.takes ++ [(d.cred, d.ringm1 + 1)])
      ∧ (∀ m, m ≠ n → ctxAt (coreAt t p) m = ctxAt c m) ∧ Upd [.cores] [.q, .obj, .started, .busy, .sigs, .issue, .job, .fe, .takes] (some p) s t))
  ∧ (∀ (p : Nat) (w : Work) (s : State), p < 192 → iUnit w.ins = 1 →
    let i := w.ins
    let k := w.k
    let c := coreAt s p
    let t := feStep p w s
    let coreIn := fun x : State => (mget [] (mget {} x.fab.stop (stopKey (stopOf p).1 (stopOf p).2.1 (stopOf p).2.2)).ins 0).map (·.cell)
    let rows := iUmod i / 16 % 32 + 1
    let h := (basinOperand s p i k false).1
    let off := (basinOperand s p i k false).2
    (iOp i = 0x04 → ctxAt (coreAt t p) (iUmod i % 16) = { ctxAt c (iUmod i % 16) with
        baseA := sext 48 (wrapN 48 ((ctxAt c (iUmod i % 16)).baseA + offsetOf s p i 0 k))
        baseB := sext 32 (wrapN 32 ((ctxAt c (iUmod i % 16)).baseB + offsetOf s p i 1 k)) } ∧ Upd [.cores] [.fe] (some p) s t)
    ∧ ((iOp i = 0x08 ∨ iOp i = 0x09) → tooEarlyAt s p w.s0 = true → (0x22, p) ∈ t.cmt.faults ∧ t.fab = s.fab ∧ coreAt t p = c)
    ∧ (∀ e d, iOp i = 0x08 → tooEarlyAt s p w.s0 = false → (offsetOf s p i 0 k).toNat = e → sendUse s p e 1 false = .ok d → elasticDest p h off (128 * rows) s = none →
      (∀ tag, freeTag c.fe.ftags 384 = some tag → hasBuffered c e = false →
        coreIn t = coreIn s ++ [chanCell s p e 3 1 0 (descPay 0 (immOf s p i 2 k) 0 tag (rows - 1)) (epAt c e).fseq]
        ∧ (mget ⟨0, 64, 0, 0, none⟩ (coreAt t p).fe.ftags tag).rows = rows
        ∧ epAt (coreAt t p) e = { epAt c e with fseq := ((epAt c e).fseq + 1) % 16384 })
      ∧ (freeTag c.fe.ftags 384 = none → c.mode = .broadcast → (0x17, p) ∈ t.cmt.faults ∧ t.fab = s.fab))
    ∧ (∀ e d tag, iOp i = 0x09 → tooEarlyAt s p w.s0 = false → (offsetOf s p i 1 k).toNat = e → sendUse s p e (iUmod i / 512 % 4) false = .ok d →
      freeTag c.fe.ftags 384 = some tag → hasBuffered c e = false → 3 ≤ (epAt c e).credits →
      let row := (exRead w.ev p (iSel i 0) (offsetOf s p i 0 k) 128 s).1
      let n := (epAt c e).fseq
      let cls := iUmod i / 512 % 4
      coreIn t = coreIn s ++ [chanCell s p e 2 cls 48 (leAt 0 48 row) n, chanCell s p e 2 cls 48 (leAt 48 48 row) ((n + 1) % 16384),
          chanCell s p e 2 cls 32 (descPay (leAt 96 32 row) (immOf s p i 2 k) 0 0 0) (((n + 1) % 16384 + 1) % 16384)]
        ∧ (epAt (coreAt t p) e).credits = (epAt c e).credits - 3 ∧ (mget ⟨0, 64, 0, 0, none⟩ (coreAt t p).fe.ftags tag).ep = e)
    ∧ (∀ ri r a, iOp i = 0x0A → elasticDest p h off (128 * rows) s = none → memOperand s p i k false (128 * rows) = some (ri, r, a) →
      let gs := granules (r.wbase * 65536 + a) (128 * rows)
      let spans := gs.map fun g => ((xlatUse w.ev s r.port g.1).toNat / 2 ^ 21 * 2 ^ 21 + g.2.1, g.2.2)
      let asked := fun (tag : Nat) (sent : Bool) (out : List Out) => mget 0 (coreAt t p).fe.mtags tag = rows ∧ t.out = s.out ++ out
        ∧ ((coreAt t p).fe.ov.map fun q => (q.tag, q.rows, q.hnd, q.sent)) = [(tag, rows, h, sent)]
      (∀ tag, freeTag c.fe.mtags 256 = some tag → (∀ g ∈ gs, bbit (xlatUse w.ev s r.port g.1).toNat 0 = true) → c.fe.ov = [] →
        ((∀ o ∈ s.host.copy, o.port ≠ r.port) → dmaHeld s r.port + (hostReads r.port spans p tag).length ≤ 4096 → asked tag true (hostReads r.port spans p tag))
        ∧ (((∃ o ∈ s.host.copy, o.port = r.port) ∨ 4096 < dmaHeld s r.port + (hostReads r.port spans p tag).length) → asked tag false []))
      ∧ (∀ tag, freeTag c.fe.mtags 256 = some tag → (∃ g ∈ gs, bbit (xlatUse w.ev s r.port g.1).toNat 0 = false) → c.mode = .broadcast → s.cmt.voted = false →
        bbit t.cmt.src 7 = true ∧ t.cmt.missSlots.isSome = true ∧ (coreAt t p).fe.mtags = c.fe.mtags ∧ t.out = s.out
        ∧ ∃ deps, (coreAt t p).bsn.dep ++ (coreAt t p).bsn.up = c.bsn.dep ++ c.bsn.up ++ deps ∧ deps.length = rows
            ∧ ∀ x ∈ deps, x.bytes = List.replicate 128 0xFF ∧ x.hnd = h)
      ∧ (freeTag c.fe.mtags 256 = none → c.mode = .broadcast → (0x17, p) ∈ t.cmt.faults ∧ t.out = s.out ∧ (coreAt t p).fe = c.fe)))

/-- A planned instruction starts with its steps in the lc of their beats, its context runs and its place in the plan goes on by its steps;
an egress record whose number another of the tick has is program fault 0x05. A step whose beat is at hand takes one credit of its stream
in the beat's lc and moves one row. FESTORE puts the 128 bytes read from its basin operand where the write half of its region lies and
leaves every other byte of HBM; FELOAD sends the row of the read half of its region, and FEBATCH its piece of the batch part, into the
write place of its handle, where it lands in a deposit slot of its bank; FEOVWR stages its row for the host window, and FEEGR appends its
row to the egress record of its number. Without its beat, on a closed context or where the beat is not of the lane it reaches, the step is
not made, program fault 0x13; without a credit in its own lc, program fault 0x15; nothing moves. (R99,  R105,  R107,  R202,  R208,  R233,
R239,  R242,  R244) -/
def Obligations.PlannedRowsMove : Prop :=
  (∀ (p : Nat) (s : State), p < 192 →
    let c := coreAt s p
    let ops := [(Instr.feload p [], 0x01), (.festore p [], 0x02), (.feovwr p [], 0x0B), (.febatch p [], 0x0C), (.feegr p [], 0x0D)]
    ∀ x ∈ ops, (startable s p 1 x.2 = none → exec x.1 s = .next s)
      ∧ ∀ i, startable s p 1 x.2 = some i →
        let n := iUmod i % 16
        let tm := planTiming p (planDepth s p i) i s
        ∃ t w, exec x.1 s = .next t ∧ (coreAt t p).job.work = c.job.work ++ [w] ∧ w.ins = i ∧ w.k = 0 ∧ w.part = participates s p i ∧ w.s0 = s.clk.now
          ∧ w.due = tm.b 0 ∧ w.beats = ((List.range (iSteps i)).map fun k => (tm.b k, (stepBeats s p n i).getD k none))
          ∧ ((ctxAt c n).state ≠ 0 → (ctxAt (coreAt t p) n).state = 2)
          ∧ mget 0 t.task.cursor (cursorKey s p n) = mget 0 s.task.cursor (cursorKey s p n) + iSteps i
          ∧ unitQ (coreAt t p) 1 = (unitQ c 1).tail ∧ (coreAt t p).bsn = c.bsn ∧ (coreAt t p).takes = c.takes ∧ t.hbm = s.hbm
          ∧ t.host.ovw = s.host.ovw ∧ t.host.egr = s.host.egr
          ∧ (x.2 = 0x0D → participates s p i = true → c.mode = .broadcast →
              (egressRuns s (immOf s p i 2 0 % 65536) = true ∨ ∃ e ∈ s.host.egr, e.seq = immOf s p i 2 0 % 65536) → (0x05, p) ∈ t.cmt.faults))
  ∧ (∀ (p : Nat) (w : Work) (s : State) (d : StreamD), p < 192 → iUnit w.ins = 1 → [0x01, 0x02, 0x0B, 0x0C, 0x0D].contains (iOp w.ins) = true →
    w.part = true → (coreAt s p).mode = .broadcast →
    let i := w.ins
    let k := w.k
    let c := coreAt s p
    let n := iUmod i % 16
    let t := feStep p w s
    let still := t.hbm = s.hbm ∧ (coreAt t p).bsn = c.bsn ∧ (coreAt t p).takes = c.takes ∧ (coreAt t p).job = c.job
        ∧ t.host.ovw = s.host.ovw ∧ t.host.egr = s.host.egr
    ((w.beats.head?).bind (·.2) = none → (0x13, p) ∈ t.cmt.faults ∧ still)
    ∧ ∀ b, (w.beats.head?).bind (·.2) = some b → strmAt s (ctxAt c n).decl = some d → d.cred < 56 →
      (((ctxAt c n).state = 0 ∨ laneFits s p i k b = false) → (0x13, p) ∈ t.cmt.faults ∧ still)
      ∧ ((ctxAt c n).state ≠ 0 → laneFits s p i k b = true → creditsOf c d.cred = 0 → (0x15, p) ∈ t.cmt.faults ∧ still)
      ∧ ((ctxAt c n).state ≠ 0 → laneFits s p i k b = true → creditsOf c d.cred ≠ 0 →
        let h := (basinOperand s p i k true).1
        let off := (basinOperand s p i k true).2
        let row := (exRead w.ev p h off 128 s).1
        let took := (coreAt t p).takes = c.takes ++ [(d.cred, 1)] ∧ (ctxAt (coreAt t p) n).idx = stepIdx i k
        let sent := fun (l : Nat) (bytes : List Byte) => (coreAt t p).job.late = c.job.late ++
          [⟨max s.clk.now (depLc s ((hndAt c h).bank (off.toNat / 128)) (s.clk.now + l - 1)), .dep h off bytes, w.ev⟩]
        (∀ ri r a, iOp i = 0x01 → memOperand s p i k true 128 = some (ri, r, a) → s.hbm.blank = [] → w.ev = [] →
          took ∧ t.hbm.mem = s.hbm.mem ∧ sent (if r.die = dieOf p then 190 else 222) (rdMem s.hbm.mem (r.die * 2 ^ 40 + regionByte s ri r false a) 128))
        ∧ (∀ ri r a, iOp i = 0x02 → memOperand s p i k true 128 = some (ri, r, a) → r.kind ≠ 2 → s.hbm.blank = [] →
          let lo := r.die * 2 ^ 40 + regionByte s ri r true a
          took ∧ rdMem t.hbm.mem lo 128 = row ∧ (∀ x, x < lo ∨ lo + 128 ≤ x → mget 0 t.hbm.mem x = mget 0 s.hbm.mem x) ∧ (coreAt t p).bsn.mem = c.bsn.mem)
        ∧ (∀ ri r a, iOp i = 0x0B → memOperand s p i k true 128 = some (ri, r, a) →
          let x := r.wbase * 65536 + a
          bbit (xlatUse w.ev s r.port (x / 2 ^ 21)).toNat 0 = true → bbit (xlatUse w.ev s r.port (x / 2 ^ 21)).toNat 1 = true →
          took ∧ t.hbm.mem = s.hbm.mem ∧ t.host.ovw = s.host.ovw
            ++ [⟨r.port, (xlatUse w.ev s r.port (x / 2 ^ 21)).toNat / 2 ^ 21 * 2 ^ 21 + x % 2 ^ 21, x / 2 ^ 21, row, true⟩])
        ∧ (iOp i = 0x0C → w.ev = [] → took ∧ t.hbm.mem = s.hbm.mem
            ∧ sent 190 (padTo 128 0 (slice (128 * k) 128 (tickPart s (dieOf p) (immOf s p i 2 0)))))
        ∧ (iOp i = 0x0D → took ∧ t.hbm.mem = s.hbm.mem ∧ t.host.egr = (stageEgress (dieOf p) (immOf s p i 2 0 % 65536) row s).host.egr)
        ∧ (∀ e, hndUse w.ev p h off 128 s = .ok e → off % 128 = 0 → isDepositSlot s s.clk.lc (e.bank (off.toNat / 128)) = false →
            c.bsn.blog.contains (e.bank (off.toNat / 128)) = false → w.ev = [] →
            row = rdMem c.bsn.mem (rowBase c.bsn (e.bank (off.toNat / 128)) (e.prow false (off.toNat / 128))) 128)))
  ∧ ∀ (p h l : Nat) (off : Int) (bytes : List Byte) (ev : List HwEvent) (e : Hnd) (s : State), p < 192 → hndUse ev p h off 128 s = .ok e → off % 128 = 0 →
    bytes.length = 128 →
    let n := off.toNat / 128
    let t := lateDep p s ⟨l, .dep h off bytes, ev⟩
    rdMem (coreAt t p).bsn.mem (rowBase (coreAt s p).bsn (e.bank n) (e.prow true n)) 128 = bytes ∧ t.hbm = s.hbm ∧ t.fab = s.fab ∧ t.clk = s.clk
      ∧ (∀ x, x < rowBase (coreAt s p).bsn (e.bank n) (e.prow true n) ∨ rowBase (coreAt s p).bsn (e.bank n) (e.prow true n) + 128 ≤ x →
          mget 0 (coreAt t p).bsn.mem x = mget 0 (coreAt s p).bsn.mem x)


/-! ### Matrix side, post unit, vector engine -/
/-- MXLDW names the shadow's format, makes its side data invalid and sends a weight row a step to it, MXLDS a side-data row a step, 2 lc
later. MXRUN waits the ramp term R110, swaps the tiles where its word says so, finds a tile of another pair (program fault 0x0B) or a KF4
tile without complete side data (0x06), and sends the chunk results of a row to the post unit 264 lc after its step, from the tile then
active; the wide formats take their two rows in two lc, and a core that does not participate sends an empty row at the same lc. A running
PUACC takes the row at hand and pushes its folded chunks, or waits for one; a row that finds the FIFO full is dropped with program fault
0x07. PUFLUSH takes and empties a row a step and, once its block is read, writes the folded, scaled and biased row 19 lc after its step,
PUVEC its source row 11 lc after; PUCENSUS writes the census 5 lc later, counts it and clears it; PUCLR empties the accumulator and the
census. The idle array ramps down from 64 lc after its last release. (R104,  R109,  R110,  R111,  R112,  R151,  R152,  R154,  R156,  R164,
R165,  R168) -/
def Obligations.MatrixAndPostSteps : Prop :=
  (∀ (p : Nat) (s : State), p < 192 →
    let c := coreAt s p
    let now := s.clk.now
    (startable s p 2 0x02 = none → exec (.mxrun p []) s = .next s) ∧ (startable s p 3 0x01 = none → exec (.puacc p []) s = .next s)
    ∧ (∀ i, startable s p 2 0x01 = some i → participates s p i = true → ∃ t, exec (.mxldw p []) s = .next t ∧ (coreAt t p).mx.shd.fmt = some (iUmod i % 32)
        ∧ (coreAt t p).mx.shd.side = [] ∧ (coreAt t p).mx.act = c.mx.act ∧ (coreAt t p).mx.load = (settleLoads now c.mx).load)
    ∧ (∀ i, startable s p 2 0x03 = some i → participates s p i = true → ∃ t, exec (.mxlds p []) s = .next t
        ∧ (coreAt t p).mx = { settleLoads now c.mx with shd := { (settleLoads now c.mx).shd with side := [] } })
    ∧ (∀ i, startable s p 2 0x02 = some i → 1 ≤ iSteps i →
        let m := settleLoads now c.mx
        let m1 := if participates s p i && bbit (iUmod i) 0 then swapTiles m else m
        let a := iUmod i / 2 % 32
        let good := match m1.act.fmt with | some f => pairOk f a | none => false
        ∃ t w, exec (.mxrun p []) s = .next t ∧ (coreAt t p).job.work = c.job.work ++ [w] ∧ w.ins = i ∧ w.part = participates s p i ∧ w.k = 0 ∧ w.t = 1
          ∧ w.due = now + rampW c.mx now ∧ (coreAt t p).mx.act = m1.act ∧ (coreAt t p).mx.shd = m1.shd ∧ (coreAt t p).mx.load = m.load
          ∧ (coreAt t p).mx.lastE = some (now + rampW c.mx now + iSteps i * (if isWide i then 2 else 1)) ∧ (coreAt t p).mx.down = none
          ∧ (participates s p i = true → c.mode = .broadcast → good = false → (0x0B, p) ∈ t.cmt.faults)
          ∧ (participates s p i = true → c.mode = .broadcast → good = true → m1.act.fmt = some 13 → sideComplete m1.act = false → (0x06, p) ∈ t.cmt.faults))
    ∧ (∀ i, startable s p 3 0x01 = some i → ∃ t, exec (.puacc p []) s = .next t ∧ (coreAt t p).pu = { c.pu with run := some { ins := i } })
    ∧ (∀ e, c.mx.lastE = some e → c.mx.down = none → c.mx.up ≠ none →
        (e + 64 ≤ now → ∃ t, exec (.arrayRampDown p) s = .next t ∧ coreAt t p = { c with mx := { c.mx with down := some (e + 64) } }
          ∧ rampState (coreAt t p).mx (e + 64) = 3 ∧ rampState (coreAt t p).mx (e + 96) = 0 ∧ Upd [.cores] [.mx] (some p) s t)
        ∧ (now < e + 64 → exec (.arrayRampDown p) s = .next s))
    ∧ (∀ r rest, c.mx.fly = r :: rest →
        (now < r.due → exec (.postInputArrival p) s = .next s)
        ∧ (r.due ≤ now → c.pu.fifo.length < 64 → ∃ t, exec (.postInputArrival p) s = .next t ∧ (coreAt t p).mx.fly = rest
          ∧ (coreAt t p).pu = { c.pu with fifo := c.pu.fifo ++ [r] } ∧ Upd [.cores] [.mx, .pu] (some p) s t)
        ∧ (r.due ≤ now → 64 ≤ c.pu.fifo.length → r.outs ≠ [] → c.mode = .broadcast → ∃ t, exec (.postInputArrival p) s = .next t
          ∧ (coreAt t p).mx.fly = rest ∧ (coreAt t p).pu = c.pu ∧ (0x07, p) ∈ t.cmt.faults))
    ∧ ((c.pu.run = none ∨ c.pu.fifo = []) → accLc p s = s)
    ∧ (∀ r row rest o, c.pu.run = some r → c.pu.fifo = row :: rest → row.int = bbit (iUmod r.ins) 0 → row.outs = [o] →
        let t := accLc p s
        let old := mget {} c.pu.acc (o.1 % 64)
        let vals := foldChunks row.int true o.2.2
        let n := (o.2.2.headD []).length
        let put := fun (x : AccElem × Int) =>
          (if row.int then (pushInt x.2 x.1).1 else (pushFloat x.2.toNat (immOf s p r.ins 1 r.done + o.2.1 * n) n.log2 x.1).1)
        (coreAt t p).pu.fifo = rest ∧ (coreAt t p).pu.run = (if r.done + 1 = iSteps r.ins then none else some { r with done := r.done + 1 })
        ∧ mget {} (coreAt t p).pu.acc (o.1 % 64) = { mode := some row.int, elems := (old.elems.zip vals).map put }
        ∧ (∀ q, q ≠ o.1 % 64 → mget {} (coreAt t p).pu.acc q = mget {} c.pu.acc q)))
  ∧ ∀ (p : Nat) (w : Work) (s : State), p < 192 →
    let i := w.ins
    let k := w.k
    let c := coreAt s p
    let now := s.clk.now
    (iUnit i = 2 →
      let t := (mxStep p w s).2
      let row := (exRead w.ev p (iSel i 0) (offsetOf s p i 0 k) 128 s).1
      let act := fun (off : Int) => (actRead w.ev p i off s).1
      let a := iUmod i / 2 % 32
      let int := decide (a = 15 ∨ a = 16 ∨ a = 17)
      (iOp i = 0x01 → iKind i 0 = 1 → isMX (iUmod i % 32) = false →
        (coreAt t p).mx = { c.mx with load := c.mx.load ++ [(now + 2, 0, k, leNat row)] } ∧ t.hbm = s.hbm)
      ∧ (iOp i = 0x03 → iKind i 0 = 1 → (coreAt t p).mx = { c.mx with load := c.mx.load ++ (if k ≤ 40 then [(now + 2, 2, k, leNat row)] else []) } ∧ t.hbm = s.hbm)
      ∧ (∀ f, iOp i = 0x02 → w.part = true → isWide i = false → iKind i 0 = 1 → c.mx.act.fmt = some f → pairOk f a = true →
        (coreAt t p).mx = { c.mx with fly := c.mx.fly ++ [⟨now + 264, int,
          [(k / partsOf f a, k % partsOf f a, rowChunks c.mx.act f a (k % partsOf f a) (leNat (act (offsetOf s p i 0 k))))]⟩] })
      ∧ (iOp i = 0x02 → w.part = true → isWide i = true → iKind i 0 = 1 →
        (k % 2 = 0 → (mxStep p w s).1.bytes = act (offsetOf s p i 0 (k / 2)) ∧ (coreAt t p).mx = c.mx)
        ∧ (∀ f, k % 2 = 1 → c.mx.act.fmt = some f → pairOk f a = true → (coreAt t p).mx = { c.mx with fly := c.mx.fly ++ [⟨now - 1 + 264, int,
            [(2 * (k / 2), 0, rowChunks c.mx.act f a 0 (leNat w.acc.bytes)),
             (2 * (k / 2) + 1, 0, rowChunks c.mx.act f a 0 (leNat (act (offsetOf s p i 0 (k / 2) + 128))))]⟩] }))
      ∧ (iOp i = 0x02 → w.part = false → isWide i = false → (coreAt t p).mx = { c.mx with fly := c.mx.fly ++ [⟨now + 264, false, []⟩] } ∧ (coreAt t p).bsn = c.bsn))
    ∧ (iUnit i = 3 →
      let r := puStep p w s
      let writes := fun (off : Int) (l : Nat) (codes : List Nat) =>
        (coreAt r.2 p).job.late = c.job.late ++ [⟨l, .tile 0 (iSel i 0) off (packRow 32 512 codes), []⟩]
      (iOp i = 0x02 → k < iSteps i → r.1.held = some (mget {} c.pu.acc (k % 64)) ∧ mget {} (coreAt r.2 p).pu.acc (k % 64) = {}
        ∧ (∀ q, q ≠ k % 64 → mget {} (coreAt r.2 p).pu.acc q = mget {} c.pu.acc q))
      ∧ (∀ row, iOp i = 0x02 → w.acc.held = some row →
        let int := bbit (iUmod i) 2
        (row.mode ≠ some (!int) → int = false → writes (offsetOf s p i 0 (k - 1)) (now + 18) ((List.range 128).map fun e =>
            scaled32 i (blockOf (readBlock p w 1 k s).1) e (foldEnts (row.elems.getD e {}))))
        ∧ (row.mode ≠ some (!int) → int = true → iUmod i % 4 = 0 → writes (offsetOf s p i 0 (k - 1)) (now + 18) (row.elems.map fun e => wrapN 32 (sat32 e.sum).1))
        ∧ (row.mode = some (!int) → c.mode = .broadcast → (0x0B, p) ∈ r.2.cmt.faults))
      ∧ (iOp i = 0x05 → 1 ≤ k → 0 ≤ offsetOf s p i 1 (k - 1) → offsetOf s p i 1 (k - 1) + 512 ≤ 65536 →
        writes (offsetOf s p i 0 (k - 1)) (now + 10) ((List.range 128).map fun e => scaled32 i (blockOf (readBlock p w 2 k s).1) e
            (leAt (4 * e) 4 (rdMem c.vx.tile (iSel i 1 * 65536 + (offsetOf s p i 1 (k - 1)).toNat) 512))))
      ∧ (iOp i = 0x03 → c.mode = .broadcast → (coreAt r.2 p).pu = { c.pu with cen := {}, seq := c.pu.seq + 1 }
        ∧ (coreAt r.2 p).job.late = c.job.late ++ [⟨now + 5, .basin 6 (iSel i 0) (offsetOf s p i 0 k) (cenBytes c.pu.cen c.pu.seq), []⟩]
        ∧ r.2.cmt.cen = s.cmt.cen ++ [(p, c.pu.seq % 65536, [c.pu.cen.zero, c.pu.cen.sat, c.pu.cen.nan, c.pu.cen.inf, c.pu.cen.elems])])
      ∧ (iOp i = 0x04 → (coreAt r.2 p).pu = { c.pu with acc := [], cen := {} } ∧ Upd [.cores] [.pu] (some p) s r.2))

/-- Inside its tiles, a step reads in its lc and its result is written at the lc that its table row gives: VXLD brings a basin row and
VXST takes a tile row to the basin; VXCMP packs the elements whose mask bit is 1 to the front and counts them; VXEXP gives each such lane
the next packed element, the others 0 or, with UMOD bit 0, leaves them, and with bit 1 subtracts the count from the band ledger; VXBAND
sets the mask of the lanes in the band, writes their values and indices and adds their number to the ledger; VXPERM and VXSHUF place
elements by index or pattern; VXPACK and VXUNPK change field widths; VXMASK combines, tests, copies or counts masks. The writes of an lc
change the bytes they name and no other; on a byte that two write ports meet the higher one's survives, the ALU's over the load path's
over the post unit's, with program fault 0x0C; a basin write takes its bank's free slot. (R171,  R172,  R173,  R185,  R186,  R187,  R188,
R189,  R190,  R191,  R192,  R203) -/
def Obligations.VectorMovesData : Prop :=
  (∀ (p : Nat) (w : Work) (s : State), p < 192 → iUnit w.ins = 4 →
    let i := w.ins
    let k := w.k
    let c := coreAt s p
    let now := s.clk.now
    let t := (vxStep p w s).2
    let fits := fun (j n : Nat) => 0 ≤ offsetOf s p i j k ∧ offsetOf s p i j k + (n : Int) ≤ 65536
    let src := fun (j n : Nat) => rdMem c.vx.tile (iSel i j * 65536 + (offsetOf s p i j k).toNat) n
    let writes := fun (l : List LateWr) => (coreAt t p).job.late = c.job.late ++ l ∧ (coreAt t p).vx.tile = c.vx.tile ∧ (coreAt t p).vx.mask = c.vx.mask
      ∧ t.hbm = s.hbm ∧ (coreAt t p).bsn.mem = c.bsn.mem
    let toDst := fun (l : Nat) (row : List Byte) => (⟨l, .tile 2 (iSel i 2) (offsetOf s p i 2 k) row, []⟩ : LateWr)
    let m1 := mRow s p i 1 k
    let bits := maskAt s p m1
    (iOp i = 0x01 →
      let row := (exRead w.ev p (iSel i 0) (offsetOf s p i 0 k) (128 * (iUmod i % 4 + 1)) s).1
      row.length = 128 * (iUmod i % 4 + 1) ∧ writes [⟨now + 3, if iSel i 1 = 5 ∨ iSel i 1 = 6 then .port (iSel i 1 - 5) row
        else .tile 1 (iSel i 1) (offsetOf s p i 1 k) row, []⟩])
    ∧ (iOp i = 0x02 → fits 0 (128 * (iUmod i % 4 + 1)) → writes [⟨now + 3, .basin 9 (iSel i 1) (offsetOf s p i 1 k) (src 0 (128 * (iUmod i % 4 + 1))), w.ev⟩])
    ∧ (iOp i = 0x06 → fits 0 512 → writes [toDst (now + 8) (wordBytes (padTo 128 0 ((lanesOf bits).map fun l => (words (src 0 512)).getD l 0))),
        ⟨now + 8, .cnt m1 (lanesOf bits).length, []⟩])
    ∧ (iOp i = 0x07 → fits 0 512 → (bbit (iUmod i) 1 = true → ones bits ≤ c.vx.band ∧ c.vx.band < 2 ^ 32) →
        let out := wordBytes ((List.range 128).map fun l => if bbit bits l then (words (src 0 512)).getD (ones (bits % 2 ^ l)) 0 else 0)
        writes [if bbit (iUmod i) 0 then ⟨now + 8, .lanes (iSel i 2) (offsetOf s p i 2 k) bits out, []⟩ else toDst (now + 8) out]
        ∧ (coreAt t p).vx.band = (if bbit (iUmod i) 1 then c.vx.band - ones bits else c.vx.band))
    ∧ (iOp i = 0x08 → fits 0 512 → fits 1 8 → c.vx.band + 128 < 2 ^ 32 →
        let xs := words (src 0 512)
        let ls := (List.range 128).filter fun l => inBand (v32 (xs.getD l 0)) (v32 (leAt 0 4 (src 1 8))) (v32 (leAt 4 4 (src 1 8)))
        (coreAt t p).vx.band = c.vx.band + ls.length ∧ writes [⟨now + 10, .mask ((iUmod i % 128 + k) % 128) (ls.foldl bset 0) ls.length, []⟩,
          toDst (now + 10) (wordBytes (padTo 128 0 (ls.map fun l => if (v32 (xs.getD l 0)).isNan then nan32 else xs.getD l 0))
            ++ wordBytes (padTo 128 0xFFFFFFFF (ls.map fun l => (128 * k + l) % 2 ^ 32)))])
    ∧ (iOp i = 0x09 → fits 0 (128 * permW i) → fits 1 512 →
        writes [toDst (now + 4) ((words (src 1 512)).flatMap fun x => if x < 128 then slice (permW i * x) (permW i) (src 0 (128 * permW i))
            else List.replicate (permW i) 0)])
    ∧ (iOp i = 0x0A → fits 0 (128 * permW i) →
        writes [toDst (now + 3) ((List.range 128).flatMap fun l => slice (permW i * shufSrc (immOf s p i 1 k) l) (permW i) (src 0 (128 * permW i)))])
    ∧ (iOp i = 0x0B → fits 0 (16 * wideW i) →
        writes [toDst (now + 3) (packRow (narrowW i) (16 * narrowW i) ((List.range 128).map fun e => elemAt (wideW i) (leNat (src 0 (16 * wideW i))) e))])
    ∧ (iOp i = 0x0C → fits 0 (16 * narrowW i) →
        writes [toDst (now + 3) (packRow (wideW i) (16 * wideW i) ((List.range 128).map fun e =>
            let x := elemAt (narrowW i) (leNat (src 0 (16 * narrowW i))) e
            if bbit (iUmod i) 6 then wrapN (wideW i) (sext (narrowW i) x) else x))])
    ∧ (iOp i = 0x11 → (iUmod i % 8 = 4 ∨ iUmod i % 8 = 5 → fits 0 512) →
        let a := maskAt s p (mRow s p i 0 k)
        let m := mRow s p i 2 k
        let lanes := fun (f : Nat → Bool) => ((List.range 128).filter fun e => f ((words (src 0 512)).getD e 0)).foldl bset 0
        let v := [a &&& bits, a ||| bits, a ^^^ bits, a &&& (2 ^ 128 - 1 - bits), lanes (fun x => !(v32 x).isZero), lanes (fun x => bbit x 31), a].getD (iUmod i % 8) 0
        writes [if iUmod i % 8 = 7 then ⟨now + 2, .cnt m (ones a), []⟩ else ⟨now + 2, .mask m v (ones v), []⟩]))
  ∧ (∀ (p : Nat) (s : State), p < 192 →
    let c := coreAt s p
    let t := lateTiles p s
    (lateNow s p = [] → t = s)
    ∧ (∀ l q k off row ev, lateNow s p = [⟨l, .tile q k off row, ev⟩] → q < 3 → 0 ≤ off → off + row.length ≤ 65536 →
      rdMem (coreAt t p).vx.tile (k * 65536 + off.toNat) row.length = row
      ∧ (∀ x, (x < k * 65536 + off.toNat ∨ k * 65536 + off.toNat + row.length ≤ x) → mget 0 (coreAt t p).vx.tile x = mget 0 c.vx.tile x)
      ∧ Upd [.cores] [.vx] (some p) s t)
    ∧ (∀ l k off bits row ev, lateNow s p = [⟨l, .lanes k off bits row, ev⟩] → 0 ≤ off → off + row.length ≤ 65536 →
      (∀ j, j < row.length → mget 0 (coreAt t p).vx.tile (k * 65536 + off.toNat + j)
          = if bbit bits (j / 4) then row.getD j 0 else mget 0 c.vx.tile (k * 65536 + off.toNat + j))
      ∧ Upd [.cores] [.vx] (some p) s t)
    ∧ (∀ l1 l2 q1 q2 k o1 o2 r1 r2 e1 e2, lateNow s p = [⟨l1, .tile q1 k o1 r1, e1⟩, ⟨l2, .tile q2 k o2 r2, e2⟩] → q1 < 3 → q2 < 3 → q1 < q2 →
      0 ≤ o1 → 0 ≤ o2 → o1 + r1.length ≤ 65536 → o2 + r2.length ≤ 65536 → o1 < o2 + r2.length → o2 < o1 + r1.length → r1 ≠ [] → r2 ≠ [] →
      rdMem (coreAt t p).vx.tile (k * 65536 + o2.toNat) r2.length = r2 ∧ (c.mode = .broadcast → (0x0C, p) ∈ t.cmt.faults))
    ∧ (∀ l m v n ev, lateNow s p = [⟨l, .mask m v n, ev⟩] → m < 128 → maskAt t p m = v % 2 ^ 128 ∧ mget 0 (coreAt t p).vx.mcnt m = n % 256
      ∧ ∀ j, j < 128 → j ≠ m → maskAt t p j = maskAt s p j ∧ mget 0 (coreAt t p).vx.mcnt j = mget 0 c.vx.mcnt j))
  ∧ ∀ (p l r h : Nat) (off : Int) (row : List Byte) (ev : List HwEvent) (e : Hnd) (s : State), p < 192 → hndUse ev p h off 128 s = .ok e → off % 128 = 0 →
    row.length = 128 →
    let b := e.bank (off.toNat / 128)
    let lo := rowBase (coreAt s p).bsn b (e.prow true (off.toNat / 128))
    let t := lateBasin p s ⟨l, .basin r h off row, ev⟩
    (isDepositSlot s s.clk.lc b = false → (coreAt s p).bsn.blog.contains b = false → rdMem (coreAt t p).bsn.mem lo 128 = row
      ∧ ∀ x, (x < lo ∨ lo + 128 ≤ x) → mget 0 (coreAt t p).bsn.mem x = mget 0 (coreAt s p).bsn.mem x)
    ∧ ((isDepositSlot s s.clk.lc b = true ∨ (coreAt s p).bsn.blog.contains b = true) → (coreAt t p).bsn.mem = (coreAt s p).bsn.mem
      ∧ ((coreAt s p).mode = .broadcast → (0x0F, p) ∈ t.cmt.faults)
      ∧ ((coreAt s p).mode = .threaded → (coreAt t p).job.late = (coreAt s p).job.late ++ [⟨s.clk.now + 1, .basin r h off row, ev⟩]))

/-- VXEPL fills its program slot at DONE with the rows it reads where they are a valid program or parameter block, and else makes it
invalid. VXEP holds the program of its slot from its start, with a step interval that its length gives, and runs it on each lane; on an
invalid slot it writes NaN with program fault 0x0D. VXCVT writes each converted element, and for an MX destination the scales too where
its word says so; VXTREE adds two rows with one rounding; VXSRACC adds with a stochastic rounding; VXRAND writes draws of its
distribution; VXOPT writes the master, and both moments, after one optimiser step. Each result is written at the lc that its table row
gives. (R113,  R146,  R175,  R177,  R178,  R181,  R182,  R193,  R194,  R196,  R197) -/
def Obligations.VectorArithmetic : Prop :=
  (∀ (p : Nat) (s : State), p < 192 →
    let c := coreAt s p
    let now := s.clk.now
    (startable s p 4 0x04 = none → exec (.vxep p) s = .next s) ∧ (startable s p 4 0x05 = none → exec (.vxcvt p) s = .next s)
    ∧ (∀ i, startable s p 4 0x04 = some i → 1 ≤ iSteps i → ∃ t, exec (.vxep p) s = .next t ∧ unitQ (coreAt t p) 4 = (unitQ c 4).tail
        ∧ (∀ r ∈ resOf i, mget 0 (coreAt t p).busy r = now + iSteps i * (epTiming p i s).1)
        ∧ (participates s p i = true → ∃ w, (coreAt t p).job.work = c.job.work ++ [w] ∧ w.ins = i ∧ w.k = 0 ∧ w.due = now + 1 ∧ w.t = (epTiming p i s).1
            ∧ w.acc.slot = slotOf s p (iUmod i % 4) false
            ∧ (slotOf s p (iUmod i % 4) false = none → c.mode = .broadcast → (0x0D, p) ∈ t.cmt.faults))
        ∧ (participates s p i = false → (coreAt t p).job.work = c.job.work) ∧ (coreAt t p).vx.tile = c.vx.tile)
    ∧ (∀ i, startable s p 4 0x05 = some i → 1 ≤ iSteps i → ∃ t, exec (.vxcvt p) s = .next t ∧ unitQ (coreAt t p) 4 = (unitQ c 4).tail
        ∧ (let tm := fixedAt now 0 (if cvSlow i then 2 else 1) (some 2) (some (if cvSlow i then 16 else 8))
           (coreAt t p).sigs = c.sigs ++ (if cvTwice i then mxColSigs i now tm else insSigs i now tm))
        ∧ (∀ r ∈ resOf i, mget 0 (coreAt t p).busy r = now + iSteps i * (if cvSlow i then 2 else 1))
        ∧ (participates s p i = true → ∃ w, (coreAt t p).job.work = c.job.work ++ [w] ∧ w.ins = i ∧ w.k = 0 ∧ w.due = now + 1 ∧ w.t = (if cvSlow i then 2 else 1))
        ∧ (participates s p i = false → (coreAt t p).job.work = c.job.work) ∧ (coreAt t p).vx.tile = c.vx.tile))
  ∧ ∀ (p : Nat) (w : Work) (s : State), p < 192 → iUnit w.ins = 4 →
    let i := w.ins
    let k := w.k
    let c := coreAt s p
    let now := s.clk.now
    let t := (vxStep p w s).2
    let at_ := fun (j n : Nat) (off : Int) => rdMem c.vx.tile (iSel i j * 65536 + off.toNat) n
    let inTile := fun (off : Int) (n : Nat) => 0 ≤ off ∧ off + (n : Int) ≤ 65536
    let fits := fun (j n : Nat) => inTile (offsetOf s p i j k) n
    let src := fun (j n : Nat) => at_ j n (offsetOf s p i j k)
    let isTile := fun (j : Nat) => iKind i j ≠ 0 ∧ iSel i j < 5 ∧ fits j 512
    let writes := fun (l : List LateWr) => (coreAt t p).job.late = c.job.late ++ l ∧ (coreAt t p).vx.tile = c.vx.tile ∧ t.hbm = s.hbm
      ∧ (coreAt t p).bsn.mem = c.bsn.mem
    let toDst := fun (l : Nat) (row : List Byte) => (⟨l, .tile 2 (iSel i 2) (offsetOf s p i 2 k) row, []⟩ : LateWr)
    (iOp i = 0x03 → w.part = true →
      let bytes := w.acc.bytes ++ (exRead w.ev p (iSel i 0) (offsetOf s p i 0 k) 128 s).1
      let n := iSteps i
      let ws := (List.range (4 * n)).map fun j => BitVec.ofNat 256 (leAt (32 * j) 32 bytes)
      let good := if bbit (iUmod i) 0 then decide (n = 1) else decide (n ≤ 8) && progOk ws
      (k + 1 < n → (vxStep p w s).1.bytes = bytes ∧ (coreAt t p).vx = c.vx)
      ∧ (n ≤ k + 1 → (coreAt t p).vx.slotDue = (settleSlots now c.vx).slotDue
          ++ [(now + 10, immOf s p i 1 0 % 4, if good then some ⟨bbit (iUmod i) 0, ws⟩ else none)]))
    ∧ (∀ v, iOp i = 0x04 → w.acc.slot = some v → isTile 0 → isTile 1 → (∀ x ∈ progOf v.words, mOpc x ≠ 0x30) →
        writes [toDst (now + (4 * w.t + 4)) (wordBytes ((List.range 128).map fun l =>
          ((progOf v.words).foldl (mStep ((words (src 0 512)).getD l 0) ((words (src 1 512)).getD l 0) l)
            { m := bbit (maskAt s p ((iUmod i / 4 % 128 + k) % 128)) l }).out))])
    ∧ (iOp i = 0x04 → w.acc.slot = none → writes [toDst (now + (4 * w.t + 4)) (wordBytes (List.replicate 128 nan32))])
    ∧ (iOp i = 0x05 → (∀ f, (f = cvSrc i ∨ f = cvDst i) → isMX f = false ∧ f ≠ 13 ∧ f ≠ 18) → fits 0 (16 * fmtBits (cvSrc i)) →
        writes [toDst (now + (if cvSlow i then 14 else 6)) (dstRow (cvDst i) ((List.range 128).map fun e =>
          cvtTo (cvDst i) (cvRtz s p i) (cvNonsat s p i) (elemVal (cvSrc i) (elemAt (fmtBits (cvSrc i)) (leNat (src 0 (16 * fmtBits (cvSrc i)))) e))))])
    ∧ (iOp i = 0x05 → isMX (cvSrc i) = false → cvSrc i ≠ 13 → cvSrc i ≠ 18 → isMX (cvDst i) = true → cvDst i ≠ 13 → cvTwice i = false →
        fits 0 (16 * fmtBits (cvSrc i)) →
        let v := (List.range 128).map fun e => elemVal (cvSrc i) (elemAt (fmtBits (cvSrc i)) (leNat (src 0 (16 * fmtBits (cvSrc i)))) e)
        let xs := (List.range 4).map fun b => mxScale (cvDst i) (slice (32 * b) 32 v)
        let l := now + (if cvSlow i then 14 else 6)
        writes (toDst l (dstRow (cvDst i) ((List.range 128).map fun e => mxElem (cvDst i) (xs.getD (e / 32) 0) (cvRtz s p i) (v.getD e .nan)))
          :: (if cvEmit s p i then [⟨l, .tile 2 (iSel i 2) (0xC000 + 4 * k : Nat) (xs.map (BitVec.ofNat 8)), []⟩] else [])))
    ∧ (iOp i = 0x0D → isTile 0 → isTile 1 →
        writes [toDst (now + 4) (wordBytes ((List.range 128).map fun l => rneAdd ((words (src 0 512)).getD l 0) ((words (src 1 512)).getD l 0)))])
    ∧ (iOp i = 0x0F → inTile (rawOff i 0 k) 512 → inTile (rawOff i 1 k) 512 →
        ∃ row, writes [⟨now + 8, .tile 2 (iSel i 0) (rawOff i 0 k) (wordBytes row), []⟩] ∧ row.length = 128
        ∧ ∀ l, l < 128 → row.getD l 0 = stoch32 (drawWords s p i 2 k l 0).1
            (match addV (v32 ((words (at_ 0 512 (rawOff i 0 k))).getD l 0)) (v32 ((words (at_ 1 512 (rawOff i 1 k))).getD l 0)) with
              | .fin n m e => if m = 0 then Val.fin false 0 0 else .fin n m e | x => x))
    ∧ (iOp i = 0x10 → writes [⟨now + 11, .tile 2 (iSel i 2) (rawOff i 2 k)
          (wordBytes ((List.range 128).map fun l => drawOf (wrapN 32 (rawOff i 1 k)) (drawWords s p i 0 k l 1))), []⟩])
    ∧ (∀ v, iOp i = 0x0E → w.acc.slot = some v → fits 0 1024 → fits 1 512 → fits 2 1024 →
        let prm := fun (off : Nat) => bfield (v.words.getD (off / 32) 0).toNat (8 * (off % 32)) 32
        let r := fun (l : Nat) => (optElem prm (bbit (iUmod i) 0) (leAt (8 * l) 6 (src 0 1024)) (leAt (4 * l) 4 (src 1 512))
            (leAt (4 * l) 4 (src 2 1024)) (leAt (512 + 4 * l) 4 (src 2 1024))).1
        writes [⟨now + 21, .tile 2 (iSel i 0) (offsetOf s p i 0 k) ((List.range 128).flatMap fun l => leBytes 8 (r l).1), []⟩,
          toDst (now + 21) (wordBytes ((List.range 128).map fun l => (r l).2.1) ++ wordBytes ((List.range 128).map fun l => (r l).2.2))])
    ∧ (iOp i = 0x0E → w.acc.slot = none →
        writes [⟨now + 21, .tile 2 (iSel i 0) (offsetOf s p i 0 k) ((List.replicate 128 fW48.cnan).flatMap (leBytes 8)), []⟩,
          toDst (now + 21) (wordBytes (List.replicate 256 nan32))])


/-! ### Channels, cells, barriers -/
/-- CHOPEN makes a receiver LISTEN, sends an open request to a sender's peer or group and refuses, with the completion, what has no
declaration, no peer or no member. CHCLOSE closes its endpoint, a sender behind a close cell, and keeps the source it answers for. CHSEND
and CHMCAST send 48 and 40 bytes with a credit, CHSIG a signal without: the cell leaves, or waits behind its channel or for its credit in
the send buffer of 64, or is dropped; an endpoint that is not open, or does not allow the class, drops it as program fault 0x1D, one whose
reader is gone or in another epoch quietly. CHBAR sends one arrival to the root, or from a leaf of the tree to the place above it; a
second is program fault 0x1F. A fabric step of an instruction that started before lc 8,192 does nothing but program fault 0x22. CHROLE
plans the epoch changes at its steps' DONE. TSREAD, ENTROPY, CNTREAD and HOSTPOLL keep the issue index and what their source answers at
the start; a step writes its value one lc before its DONE and logs it, in a replay the logged one, with a full log zeros, bit 127 set for
TSREAD and HOSTPOLL, and program fault 0x08. A buffered cell departs when it stands first in its channel and has its credit; a due signal
adds to its object. (R82,  R116,  R117,  R118,  R264,  R265,  R268,  R271,  R272,  R273,  R274,  R277) -/
def Obligations.ChannelUnitSteps : Prop :=
  (∀ (p : Nat) (w : Work) (s : State), p < 192 → iUnit w.ins = 5 →
    let i := w.ins
    let k := w.k
    let c := coreAt s p
    let now := s.clk.now
    let t := chStep p w s
    let coreIn := fun x : State => (mget [] (mget {} x.fab.stop (stopKey (stopOf p).1 (stopOf p).2.1 (stopOf p).2.2)).ins 0).map (·.cell)
    let still := fun x : State => coreIn x = coreIn s ∧ (coreAt x p).ch.sbuf = c.ch.sbuf
    let same := ∀ f, epAt (coreAt t p) f = epAt c f
    let sends := fun (e : Nat) (credit : Bool) (cell : FCell) =>
      if hasBuffered c e = false ∧ (credit = false ∨ 0 < (epAt c e).credits)
      then coreIn t = coreIn s ++ [cell] ∧ (coreAt t p).ch.sbuf = c.ch.sbuf
      else if c.ch.sbuf.length < 64 then coreIn t = coreIn s ∧ (coreAt t p).ch.sbuf = c.ch.sbuf ++ [⟨e, credit, cell⟩]
      else still t
    let moved := fun (e : Nat) =>
      (epAt (coreAt t p) e).fseq = ((epAt c e).fseq + 1) % 16384 ∧ (epAt (coreAt t p) e).st = (epAt c e).st
      ∧ ∀ f, f ≠ e → epAt (coreAt t p) f = epAt c f
    let refused := still t ∧ same ∧ (c.mode = .broadcast → (0x1D, p) ∈ t.cmt.faults)
    let src := fun (n : Nat) (P : List Byte → Prop) =>
      (iKind i 0 = 1 → P (exRead w.ev p (iSel i 0) (offsetOf s p i 0 k) n s).1)
      ∧ (iKind i 0 ≠ 1 → 0 ≤ offsetOf s p i 0 k → offsetOf s p i 0 k + (n : Int) ≤ 65536 →
          P (rdMem c.vx.tile (iSel i 0 * 65536 + (offsetOf s p i 0 k).toNat) n))
    ((iOp i = 0x01 ∨ iOp i = 0x03 ∨ iOp i = 0x04 ∨ iOp i = 0x05 ∨ iOp i = 0x06) → tooEarlyAt s p w.s0 = true →
      coreAt t p = c ∧ t.fab = s.fab ∧ (0x22, p) ∈ t.cmt.faults)
    ∧ (iOp i = 0x01 → tooEarlyAt s p w.s0 = false →
        let e := (offsetOf s p i 0 k).toNat
        let di := immOf s p i 1 k
        let obj := immOf s p i 2 k % 64
        let was := (epAt c e).source
        let done := (coreAt t p).adds = c.adds ++ (if obj < 56 then [(obj, 1)] else [])
        let opens := fun (x : Ep) => epAt (coreAt t p) e = x ∧ (∀ f, f ≠ e → epAt (coreAt t p) f = epAt c f)
          ∧ Upd [.cores, .fab] [.adds, .ch] (some p) s t
        (chanAt s di = none → opens { st := 4, reason := 2, decl := di, compl := obj, was := was } ∧ done ∧ coreIn t = coreIn s)
        ∧ ∀ d, chanAt s di = some d →
          (d.role = 1 → (epAt c e).parked = none →
            opens { st := 1, decl := di, compl := obj, was := was } ∧ (coreAt t p).adds = c.adds ∧ coreIn t = coreIn s)
          ∧ (d.role = 0 →
              let peer := peerOf s p d
              let lost := taskMods s ≤ peer.1 ∨ peer.1 = c.modIdx ∧ c.k ≤ peer.2.1 ∧ physOf s peer.2.1 = none
              (lost → opens { st := 4, reason := 3, decl := di, compl := obj, was := was } ∧ done ∧ coreIn t = coreIn s)
              ∧ (¬ lost → opens { st := 2, decl := di, compl := obj, was := was } ∧ (coreAt t p).adds = c.adds
                  ∧ coreIn t = coreIn s ++ [selfCell s p e (hwOf s peer.1) peer.2.1 peer.2.2 6 c.ch.epoch (openRest s p d)]))
          ∧ (d.role = 2 →
              (membersOf s d.group = [] →
                opens { st := 3, decl := di, compl := obj, credits := d.window } ∧ done ∧ coreIn t = coreIn s)
              ∧ (membersOf s d.group ≠ [] → opens { st := 2, decl := di, compl := obj, await := membersOf s d.group }
                  ∧ (coreAt t p).adds = c.adds ∧ coreIn t = coreIn s ++ [sealCell (srcId (ownMod s) p e) (mkMcHdr d.group 6 3 c.ch.epoch 0 0)
                    (srcId (ownMod s) p e + openRest s p d * 2 ^ 48 + maskOf (membersOf s d.group) * 2 ^ 320)])))
    ∧ (iOp i = 0x02 →
        let e := (offsetOf s p i 0 k).toNat
        (epAt (coreAt t p) e).st = 0 ∧ (epAt (coreAt t p) e).source = (epAt c e).source ∧ (∀ f, f ≠ e → epAt (coreAt t p) f = epAt c f)
        ∧ ((epAt c e).st ≠ 3 → still t)
        ∧ ∀ d, chanAt s (epAt c e).decl = some d → (epAt c e).st = 3 →
          (d.role = 1 → still t) ∧ (d.role = 0 → sends e false (chanCell s p e 9 (lowClass d) 0 0 (epAt c e).fseq))
          ∧ (d.role = 2 → sends e false (sealCell (srcId (ownMod s) p e) (mkMcHdr d.group 9 (lowClass d) (epAt c e).pepoch 0 (epAt c e).fseq)
              (fullMask s d * 2 ^ 320))))
    ∧ (iOp i = 0x03 → tooEarlyAt s p w.s0 = false →
        let e := (offsetOf s p i 1 k).toNat
        (∀ d, sendUse s p e (iUmod i % 4) false = .ok d → moved e
          ∧ src 48 (fun data => sends e true (chanCell s p e 0 (iUmod i % 4) 48 (leNat data) (epAt c e).fseq)))
        ∧ (sendUse s p e (iUmod i % 4) false = .quiet → still t ∧ same)
        ∧ ((sendUse s p e (iUmod i % 4) false = .unopen ∨ sendUse s p e (iUmod i % 4) false = .badClass) → refused))
    ∧ (iOp i = 0x04 → tooEarlyAt s p w.s0 = false →
        let e := (offsetOf s p i 0 k).toNat
        let cls := match chanAt s (epAt c e).decl with | some d => lowClass d | none => 0
        (∀ d, sendUse s p e cls false = .ok d → moved e
          ∧ sends e false (chanCell s p e 1 cls 2 (immOf s p i 1 k % 2 ^ 14) (epAt c e).fseq))
        ∧ (sendUse s p e cls false = .quiet → still t ∧ same)
        ∧ ((sendUse s p e cls false = .unopen ∨ sendUse s p e cls false = .badClass) → refused))
    ∧ (iOp i = 0x05 → tooEarlyAt s p w.s0 = false →
        let g := immOf s p i 1 k % 4096
        let e := groupEp s p g
        (∀ d, sendUse s p e (iUmod i % 4) true = .ok d → moved e
          ∧ (epAt (coreAt t p) e).mcred = (epAt c e).mcred ++ [((epAt c e).fseq, membersOf s d.group)]
          ∧ src 40 (fun data => sends e true (sealCell (srcId (ownMod s) p e) (mkMcHdr g 5 (iUmod i % 4) (epAt c e).pepoch 40 (epAt c e).fseq)
              (leNat data + fullMask s d * 2 ^ 320))))
        ∧ (sendUse s p e (iUmod i % 4) true = .quiet → still t ∧ same)
        ∧ ((sendUse s p e (iUmod i % 4) true = .unopen ∨ sendUse s p e (iUmod i % 4) true = .badClass) → refused))
    ∧ (iOp i = 0x06 → tooEarlyAt s p w.s0 = false →
        let b := immOf s p i 0 k % 256
        (∀ d, barAt s b = some d → inBarrier s d p = true → mget 0 c.ch.arrived b ≠ 1 → mget 0 (coreAt t p).ch.arrived b = 1 ∧
          (∀ r, d.sense = false → physOf s d.root = some r → coreIn t = coreIn s ++ [barCell s p (ownMod s) r b 0 (barBit c b) 1])
          ∧ (let l := barOrder s d
             let n := l.idxOf p
             d.sense = true → n ≠ 0 → mget (0, 0) c.ch.tree (2 * b + barBit c b) = (0, 0) → treeKids d.fanin l.length n = [] →
               coreIn t = coreIn s ++ [barCell s p (ownMod s) (l.getD (treeUp d.fanin n) 0) b 0 (barBit c b) 1]))
        ∧ ((barAt s b = none ∨ ∃ d, barAt s b = some d ∧ (inBarrier s d p = false ∨ mget 0 c.ch.arrived b = 1)) →
            still t ∧ (coreAt t p).ch.arrived = c.ch.arrived ∧ (c.mode = .broadcast → (0x1F, p) ∈ t.cmt.faults)))
    ∧ (∀ x ∈ ([(0x10, 47, 16), (0x11, 63, 32), (0x12, 11, 128), (0x13, 39, 16)] : List (Nat × Nat × Nat)), iOp i = x.1 →
        let a := answerAt w.acc.bytes 0
        let new := if x.1 = 0x10 then (match a with | some v => leBytes 8 v ++ leBytes 8 (s.clk.num % 2 ^ 48) | none => leBytes 16 (2 ^ 127))
          else if x.1 = 0x11 then (if (answerAt w.acc.bytes k).isSome then leBytes 32 (Config.entropy s.fresh).toNat else List.replicate 32 0)
          else if x.1 = 0x12 then pcntSample s p
          else if a.isSome then leBytes 16 (mget 0 (hpAt s (s.host.owner.getD .a)).mbox (immOf s p i 0 k % 256)).toNat else leBytes 16 (2 ^ 127)
        let got := match vOld c x.1 w.acc.idx with | some e => slice (x.2.2 * k) x.2.2 e.data | none => new
        let log := vAppend x.1 w.acc.idx got c.vlog
        let gives := fun (b : List Byte) (l : List VEnt) => (coreAt t p).vlog = l
          ∧ (coreAt t p).job.late = c.job.late ++ [⟨now + x.2.1, if iKind i 2 = 1 then .basin 10 (iSel i 2) (offsetOf s p i 2 k) b
              else .tile 1 (iSel i 2) (offsetOf s p i 2 k) b, []⟩]
          ∧ Upd [.cores, .cmt, .fresh] [.vlog, .job] (some p) s t
        new.length = x.2.2
        ∧ (c.mode = .threaded → gives new c.vlog)
        ∧ (c.mode ≠ .threaded → vTotal log ≤ 4096 → gives got log)
        ∧ (c.mode ≠ .threaded → 4096 < vTotal log → (0x08, p) ∈ t.cmt.faults
            ∧ gives (if x.1 = 0x10 ∨ x.1 = 0x13 then (List.replicate 16 (0 : Byte)).set 15 0x80 else List.replicate x.2.2 0) c.vlog)))
  ∧ ∀ (p : Nat) (s : State), p < 192 →
    let c := coreAt s p
    let now := s.clk.now
    let coreIn := fun x : State => (mget [] (mget {} x.fab.stop (stopKey (stopOf p).1 (stopOf p).2.1 (stopOf p).2.2)).ins 0).map (·.cell)
    (∀ i, startable s p 5 0x07 = some i → participates s p i = true → ∃ t, exec (.chrole p) s = .next t
        ∧ (coreAt t p).ch = { c.ch with roleAt := c.ch.roleAt ++ (List.range (iSteps i)).map fun k => now + k + 2 })
    ∧ (∀ (time : Option W64) (avail : List Bool) (here : Bool),
        let ops : List (Instr × Nat × List Byte) :=
          [(.tsread p time, 0x10, answer (time.map (·.toNat))), (.entropy p avail, 0x11, avail.flatMap fun b => answer (if b then some 0 else none)),
           (.cntread p, 0x12, []), (.hostpoll p here, 0x13, answer (if here then some 0 else none))]
        ∀ x ∈ ops, ∀ i, startable s p 5 x.2.1 = some i → participates s p i = true → ∃ t w, exec x.1 s = .next t
          ∧ (coreAt t p).job.work = c.job.work ++ [w] ∧ w.ins = i ∧ w.due = now ∧ w.acc = { bytes := x.2.2, idx := c.issue })
    ∧ (∀ v : W64, answerAt (answer (some v.toNat)) 0 = some v.toNat ∧ answerAt (answer none) 0 = none)
    ∧ (let ok := fun (j : Nat) (x : SCell) => (∀ y ∈ c.ch.sbuf.take j, y.ep ≠ x.ep) ∧ (x.credit = true → 0 < (epAt c x.ep).credits)
       (∀ j x, c.ch.sbuf[j]? = some x → ok j x → (∀ k y, k < j → c.ch.sbuf[k]? = some y → ¬ ok k y) → ∃ t, exec (.sendBufferDepart p) s = .next t
          ∧ coreIn t = coreIn s ++ [x.cell] ∧ (coreAt t p).ch.sbuf = c.ch.sbuf.eraseIdx j
          ∧ (epAt (coreAt t p) x.ep).credits = (epAt c x.ep).credits - (if x.credit then 1 else 0) ∧ Upd [.cores, .fab] [.ch, .pc] (some p) s t)
       ∧ ((∀ k y, c.ch.sbuf[k]? = some y → ¬ ok k y) → exec (.sendBufferDepart p) s = .next s))
    ∧ (∀ a g b, c.sigs = a ++ g :: b → (∀ x ∈ a, now < x.due) → g.due ≤ now → ∃ t, exec (.signalStage p) s = .next t
        ∧ coreAt t p = { c with sigs := a ++ b, adds := c.adds ++ (if g.obj < 56 then [(g.obj, g.amt)] else []) } ∧ Upd [.cores] [.adds, .sigs] (some p) s t)
    ∧ ((∀ x ∈ c.sigs, now < x.due) → exec (.signalStage p) s = .next s)

/-- A command for an arriving cell does nothing unless a cell of its type stands first. From the vote of a tick to lc 8,191 of the next
one such a cell is discarded and counted and does nothing else. A cell that would take a row of the full deposit buffer stays where it is.
Outside that window a cell whose ECRC disagrees with its source, or, at an endpoint bound in the tick, whose flow sequence is not the
expected one, is counted, makes the tick not clean and does nothing else. (R202,  R270,  R293,  R296,  R380) -/
def Obligations.CellsAreCheckedFirst : Prop :=
  ∀ (p : Nat) (s : State), p < 192 →
    let c := coreAt s p
    let code := fun (x : FCell) => cPay x 6 1
    let acts : List (Instr × (FCell → Prop)) :=
      [(.cellArrival p, fun x => cType x ∈ [0, 1, 2, 3, 5]), (.frespArrival p, fun x => cType x = 4), (.openRequestArrival p, fun x => cType x = 6),
       (.openReplyArrival p, fun x => cType x = 7 ∧ code x < 2), (.senderReplyArrival p, fun x => cType x = 7 ∧ 2 ≤ code x ∧ code x ≤ 4),
       (.fencedAckArrival p, fun x => cType x = 7 ∧ code x = 5), (.creditArrival p, fun x => cType x = 8), (.closeCellArrival p, fun x => cType x = 9),
       (.barrierArrival p, fun x => cType x = 10 ∧ cPay x 7 1 = 0), (.barrierRelease p, fun x => cType x = 10 ∧ (cPay x 7 1 = 1 ∨ cPay x 7 1 = 3)),
       (.domainBarrierArrival p, fun x => cType x = 10 ∧ cPay x 7 1 = 2), (.boundaryCellDiscard p, fun x => cType x ≤ 10)]
    let window := s.clk.run = true ∧ c.mode ≠ .threaded ∧ (s.clk.lc < 8192 ∨ s.clk.zone = true ∧ s.cmt.voted = true)
    let good := fun (e : Nat) (x : FCell) =>
      let bound := (epAt c e).bnd = true ∧ ∀ d, chanAt s (epAt c e).decl = some d → d.role ≠ 2
      if cType x ∈ [7, 8] ∧ bound ∧ (cType x = 7 → 2 ≤ code x ∧ code x ≤ 4) then
        cEcrc x = ecrcOf (srcId (epAt c e).peerMod (epAt c e).peerCore (epAt c e).peerEp) x.hdr x.pay
      else if cType x ∈ [6, 7, 8, 10, 11, 12] then cEcrc x = ecrcOf (cPay x 0 6) x.hdr x.pay
      else (epAt c e).bnd = false ∨ cEcrc x = ecrcOf (srcId (epAt c e).peerMod (epAt c e).peerCore (epAt c e).peerEp) x.hdr x.pay
        ∧ cFseq x = (if cType x = 4 then (epAt c e).rseq else (epAt c e).fseq)
    let noted := s.clk.run = true ∧ s.task.img.isSome = true
    ∀ a ∈ acts,
      (c.ch.inbox = [] → exec a.1 s = .next s)
      ∧ ∀ e x rest, c.ch.inbox = (e, x) :: rest →
        let held := a.1 ≠ .boundaryCellDiscard p ∧ cType x ∈ [2, 3, 4] ∧ 64 ≤ depRows c
        (¬ a.2 x → cType x ≠ 14 → exec a.1 s = .next s)
        ∧ (a.2 x → held → exec a.1 s = .next s)
        ∧ (a.2 x → ¬ held → window → ∃ t, exec a.1 s = .next t ∧ coreAt t p = { c with ch := { c.ch with inbox := rest } }
            ∧ (noted → t.evts = s.evts ++ [.add (corePage p + 0x94) 16 16 1]) ∧ Upd [.cores, .evts, .regs, .host] [.ch] (some p) s t)
        ∧ (a.2 x → ¬ window → a.1 = .boundaryCellDiscard p → exec a.1 s = .next s)
        ∧ (a.2 x → ¬ held → ¬ window → a.1 ≠ .boundaryCellDiscard p → ¬ good e x → ∃ t, exec a.1 s = .next t
            ∧ coreAt t p = { c with ch := { c.ch with inbox := rest } }
            ∧ (c.mode ≠ .threaded → (if s.cmt.voted then bbit t.cmt.srcNext 4 else bbit t.cmt.src 4) = true)
            ∧ (noted → Evt.add (corePage p + 0xB4) 16 16 1 ∈ t.evts) ∧ Upd [.cores, .evts, .regs, .host, .cmt] [.ch] (some p) s t)

/-- Outside the discard window and the commit zone, with a good end-to-end check: an open request is bound and accepted at a LISTEN
endpoint whose declaration agrees, refused with its reason where it does not, where another open endpoint has the same port or at an
endpoint in another state, or without a declaration, and parked once at a CLOSED one. At an OPENING endpoint the accept opens it with
WINDOW credits and the refusal names its reason, both with the completion; a multicast endpoint waits for its last member. A closed or
epoch-miss reply from the bound peer, or from a member of the group, ends the channel for the sender, drops what it has buffered, cells
behind its own close included, and is program fault 0x1B or 0x1C; a ford refusal returns its credit. A credit raises the credits of an
endpoint that is open, or closed with cells still to send, never above WINDOW; a multicast one once every member has returned it. A fenced
acknowledgement ends an open request as refused with reason 4 and returns a data cell's credit. Which bytes of these cells hold what is
the model's choice (notes/assumptions/15.md). (R265,  R266,  R267,  R269,  R271,  R305,  R307) -/
def Obligations.OpenRepliesAndCredits : Prop :=
  ∀ (p e : Nat) (x : FCell) (rest : List (Nat × FCell)) (s : State), p < 192 → (coreAt s p).ch.inbox = (e, x) :: rest →
    inWindow s p = false → s.clk.zone = false → e2eOk s p e x = true →
    let c := coreAt s p
    let k := epAt c e
    let src := (cPay x 0 2, cPay x 2 1, cPay x 3 2 % 1024)
    let coreIn := fun y : State => (mget [] (mget {} y.fab.stop (stopKey (stopOf p).1 (stopOf p).2.1 (stopOf p).2.2)).ins 0).map (·.cell)
    let reply := fun (code arg : Nat) => selfCell s p e src.1 src.2.1 src.2.2 7 0 (code + arg * 2 ^ 8 + 6 * 2 ^ 40 + 0 * 2 ^ 48 + 0 * 2 ^ 64)
    let done := fun (t : State) => (coreAt t p).adds = c.adds ++ (if k.compl < 56 then [(k.compl, 1)] else [])
    let ends := fun (cmd : Instr) (k' : Ep) (P : State → Prop) => ∃ t, exec cmd s = .next t ∧ epAt (coreAt t p) e = k' ∧ P t
      ∧ (coreAt t p).ch.inbox = rest ∧ ∀ f, f ≠ e → epAt (coreAt t p) f = epAt c f
    (cType x = 6 →
      let r : OpenReq := ⟨src.1, src.2.1, src.2.2, cPay x 6 1, cPay x 8 1, cPay x 9 1, cPay x 7 1, cPay x 10 1⟩
      let tells := fun (code arg : Nat) (t : State) => coreIn t = coreIn s ++ [reply code arg] ∧ (code = 1 → (coreAt t p).adds = c.adds)
      (k.st = 0 → k.parked = none → ends (.openRequestArrival p) { k with parked := some r } (fun t => coreIn t = coreIn s ∧ (coreAt t p).adds = c.adds))
      ∧ ((k.st = 0 ∧ k.parked ≠ none ∨ 2 ≤ k.st) → ends (.openRequestArrival p) k (tells 1 1))
      ∧ (k.st = 1 → chanAt s k.decl = none → ends (.openRequestArrival p) k (tells 1 2))
      ∧ ∀ d, k.st = 1 → chanAt s k.decl = some d →
        let agrees := peerOf s p d = (logOf s r.mod, r.lcore, r.ep) ∧ d.land = r.land ∧ d.classes = r.classes ∧ d.window = r.window
        let clash := d.land < 3 ∧ ∃ y ∈ c.ch.ep, y.1 ≠ e ∧ y.2.st = 3 ∧ ∃ d2, chanAt s y.2.decl = some d2 ∧ d2.role = 1 ∧ d2.land = d.land
        (¬ agrees → ends (.openRequestArrival p) k (tells 1 2)) ∧ (agrees → clash → ends (.openRequestArrival p) k (tells 1 5))
        ∧ (agrees → ¬ clash → ends (.openRequestArrival p)
            { k with st := 3, bnd := true, peerMod := r.mod, peerCore := r.core, peerEp := r.ep, pepoch := r.epoch, fseq := 0, rseq := 0, parked := none }
            (fun t => tells 0 c.ch.epoch t ∧ done t)))
    ∧ (cType x = 7 → ∀ d, chanAt s k.decl = some d →
      let quiet := fun (t : State) => (coreAt t p).adds = c.adds
      (cPay x 6 1 < 2 → k.st ≠ 2 → ends (.openReplyArrival p) k quiet)
      ∧ (cPay x 6 1 = 0 → k.st = 2 → d.role = 0 → ends (.openReplyArrival p)
          { k with st := 3, bnd := true, peerMod := src.1, peerCore := src.2.1, peerEp := src.2.2, pepoch := cPay x 7 1, credits := d.window, fseq := 0, rseq := 0 } done)
      ∧ (cPay x 6 1 = 1 → k.st = 2 → d.role = 0 → ends (.openReplyArrival p) { k with st := 4, reason := cPay x 7 1 } done)
      ∧ (∀ i, cPay x 6 1 = 0 → k.st = 2 → d.role = 2 → memberIdx s d.group src = some i → i ∈ k.await →
          let left := k.await.filter (· ≠ i)
          (left ≠ [] → ends (.openReplyArrival p) { k with pepoch := cPay x 7 1, await := left } quiet)
          ∧ (left = [] → k.reason = 0 → ends (.openReplyArrival p) { k with pepoch := cPay x 7 1, await := [], st := 3, credits := d.window } done)
          ∧ (left = [] → k.reason ≠ 0 → ends (.openReplyArrival p) { k with pepoch := cPay x 7 1, await := [], st := 4, credits := 0 } done))
      ∧ ((cPay x 6 1 = 2 ∨ cPay x 6 1 = 3) →
          let reader := if d.role = 2 then (memberIdx s d.group src).isSome = true else src = (k.peerMod, k.peerCore, k.peerEp)
          let sends := k.st = 3 ∨ k.st = 0 ∧ ∃ y ∈ c.ch.sbuf, y.ep = e
          (sends → reader → ends (.senderReplyArrival p)
            { k with st := if k.st = 0 then 0 else if cPay x 6 1 = 3 then 6 else 5, credits := d.window }
            (fun t => (coreAt t p).ch.sbuf = c.ch.sbuf.filter (fun y => decide (y.ep ≠ e))
              ∧ (c.mode = .broadcast → (if cPay x 6 1 = 3 then 0x1C else 0x1B, p) ∈ t.cmt.faults)))
          ∧ (¬ (sends ∧ reader) → ends (.senderReplyArrival p) k
              (fun t => (coreAt t p).ch.sbuf = c.ch.sbuf ∧ t.cmt = s.cmt)))
      ∧ (cPay x 6 1 = 4 → ends (.senderReplyArrival p) { k with credits := min (k.credits + 1) d.window }
          (fun t => (coreAt t p).fe.ftags = c.fe.ftags.filter (fun y => decide (y.2.ep ≠ e ∨ y.2.fseq ≠ some (cPay x 12 2)))))
      ∧ (cPay x 6 1 = 5 → (cPay x 11 1 = 0 ∨ cPay x 11 1 = 2) → ends (.fencedAckArrival p) { k with credits := min (k.credits + 1) d.window }
          (fun t => c.mode ≠ .threaded → (if s.cmt.voted then bbit t.cmt.srcNext 10 else bbit t.cmt.src 10) = true))
      ∧ (cPay x 6 1 = 5 → cPay x 11 1 = 6 → d.role = 0 → k.st = 2 → ends (.fencedAckArrival p) { k with st := 4, reason := 4 } done)
      ∧ (cPay x 6 1 = 5 → cPay x 11 1 = 3 → ends (.fencedAckArrival p) k (fun t => (coreAt t p).fe.ftags = mdel (cPay x 14 2) c.fe.ftags)))
    ∧ (cType x = 8 → ∀ d, chanAt s k.decl = some d →
      let sends := k.st = 3 ∨ k.st = 0 ∧ k.bnd = true
      (¬ sends → ends (.creditArrival p) k (fun t => t.cmt = s.cmt))
      ∧ (sends → d.role ≠ 2 → ends (.creditArrival p) { k with credits := min (k.credits + 1) d.window }
          (fun t => (coreAt t p).fe.ftags = c.fe.ftags.filter (fun y => decide (y.2.ep ≠ e ∨ y.2.fseq ≠ some (cPay x 8 2)))))
      ∧ (∀ i l, sends → d.role = 2 → memberIdx s d.group src = some i → k.mcred = [(cPay x 8 2, l)] → i ∈ l →
          (l.filter (· ≠ i) ≠ [] → ends (.creditArrival p) { k with mcred := [(cPay x 8 2, l.filter (· ≠ i))] } (fun t => t.cmt = s.cmt))
          ∧ (l.filter (· ≠ i) = [] → ends (.creditArrival p) { k with mcred := [], credits := min (k.credits + 1) d.window } (fun t => t.cmt = s.cmt))))

/-- Outside the discard window and the commit zone, with a good end-to-end check: a cell at an endpoint that is not open to it is answered
"closed" to the source that the endpoint is or was bound to in the tick, one of another role epoch "epoch miss", one of a class the
channel does not allow closes the channel and is answered "closed"; each is counted. A cell that passes lands by the declaration: its
valid bytes go to the vector port, a signal adds to its object, the cells of a remote write and a read request wait for the ford, and a
remote access where no ford is declared is a ford refusal. A close cell closes the endpoint. A remote access, and the answer to one, waits
while the deposit buffer has no room for its row. An FRESP cell joins its row, and the third queues the row's deposit, or, where its
destination may not be written, gives the row up; without an open channel the third cell frees its tag. An EXTERN cell at a core is
discarded. (R202,  R215,  R270,  R273,  R294,  R297,  R309) -/
def Obligations.CellsLand : Prop :=
  ∀ (p e : Nat) (x : FCell) (rest : List (Nat × FCell)) (s : State), p < 192 → (coreAt s p).ch.inbox = (e, x) :: rest → inWindow s p = false →
    let c := coreAt s p
    let k := epAt c e
    let coreIn := fun y : State => (mget [] (mget {} y.fab.stop (stopKey (stopOf p).1 (stopOf p).2.1 (stopOf p).2.2)).ins 0).map (·.cell)
    let reply := fun (code arg tag : Nat) => selfCell s p e k.peerMod k.peerCore k.peerEp 7 0
      (code + arg * 2 ^ 8 + cType x * 2 ^ 40 + cFseq x * 2 ^ 48 + tag * 2 ^ 64)
    let answered := fun (t : State) (code : Nat) => coreIn t = coreIn s ++ (match k.source with
      | some d => [selfCell s p e d.1 d.2.1 d.2.2 7 0 (code + 0 * 2 ^ 8 + cType x * 2 ^ 40 + cFseq x * 2 ^ 48 + 0xFFFF * 2 ^ 64)]
      | none => [])
    let last := cValid x = 32
    let data := (cBytes x).take (cValid x)
    (cType x = 14 → ∃ t, exec (.cellArrival p) s = .next t ∧ (coreAt t p).ch.inbox = rest ∧ Upd [.cores, .evts, .regs, .host] [.ch] (some p) s t)
    ∧ (s.clk.zone = false → e2eOk s p e x = true → cType x ≠ 4 → (cType x ∈ [2, 3] → depRows c < 64) → ∀ cmd ∈ [Instr.cellArrival p, Instr.closeCellArrival p],
      (if cmd = .cellArrival p then cType x ∈ [0, 1, 2, 3, 5] else cType x = 9) →
      let next := { k with fseq := (k.fseq + 1) % 16384 }
      let goes := fun (k' : Ep) (P : State → Prop) => ∃ t, exec cmd s = .next t ∧ epAt (coreAt t p) e = k' ∧ (coreAt t p).ch.inbox = rest ∧ P t
        ∧ (∀ f, f ≠ e → epAt (coreAt t p) f = epAt c f) ∧ Upd [.cores, .evts, .regs, .fab, .cmt, .host] [.fe, .pc, .adds, .ch, .vx] (some p) s t
      ((chanAt s k.decl = none ∨ k.st ≠ 3) → goes next (fun t => answered t 2))
      ∧ ∀ d, chanAt s k.decl = some d → k.st = 3 →
        (d.role ≠ 1 → goes next (fun t => answered t 2))
        ∧ (d.role = 1 → cEpoch x ≠ c.ch.epoch → goes next (fun t => answered t 3))
        ∧ (d.role = 1 → cEpoch x = c.ch.epoch → bbit d.classes (cClass x) = false → goes { next with st := 0 } (fun t => answered t 2))
        ∧ (d.role = 1 → cEpoch x = c.ch.epoch → bbit d.classes (cClass x) = true →
            let land := fun (P : State → Prop) => goes next (fun t => P t ∧ coreIn t = coreIn s)
            let have_ := match c.fe.groups.find? fun g => decide (g.ep = e) && !g.resp with | some g => g.bytes | none => []
            let others := c.fe.groups.filter fun g => decide (g.ep ≠ e) || g.resp
            (cType x = 9 → goes { next with st := 0 } (fun t => coreIn t = coreIn s))
            ∧ (d.land < 3 → cType x ∈ [0, 5] → land (fun t => (mget {} (coreAt t p).vx.port d.land).bytes = (mget {} c.vx.port d.land).bytes ++ data
                ∧ (mget {} (coreAt t p).vx.port d.land).cells = (mget {} c.vx.port d.land).cells ++ [{ left := data.length, ep := e, fseq := cFseq x, src := some k.peer }]))
            ∧ (d.land ≠ 3 → cType x = 1 → land (fun t => (coreAt t p).adds = c.adds
                ++ (if cPay x 0 2 % 64 < 56 then [(cPay x 0 2 % 64, cPay x 0 2 / 64 % 256)] else [])))
            ∧ (d.land = 4 → cType x ∈ [0, 5] → land (fun t => (coreAt t p).adds = c.adds ∧ (coreAt t p).vx = c.vx ∧ (coreAt t p).fe = c.fe))
            ∧ (d.land = 3 → cType x = 2 →
                (¬ last → land (fun t => (coreAt t p).fe = { c.fe with groups := others ++ [⟨e, have_ ++ data, false⟩] }))
                ∧ (last → land (fun t => (coreAt t p).fe = { c.fe with
                    groups := others, remote := c.fe.remote ++ [{ ep := e, cell := x, data := have_ ++ data, src := k.peer }] })))
            ∧ (d.land = 3 → cType x = 3 → land (fun t => (coreAt t p).fe =
                { c.fe with remote := c.fe.remote ++ [{ ep := e, cell := x, data := [], src := k.peer }] }))
            ∧ ((d.land ≠ 3 ∧ cType x ∈ [2, 3] ∨ d.land = 3 ∧ cType x ∈ [0, 1, 5]) → goes next (fun t =>
                coreIn t = coreIn s ++ [reply 4 d.ford (if cType x = 3 then cPay x 37 2 else 0xFFFF)]
                ∧ (c.mode = .broadcast → (0x10, p) ∈ t.cmt.faults)))))
    ∧ (s.clk.zone = false → e2eOk s p e x = true → cType x = 4 → depRows c < 64 →
      let tag := cPay x 37 2
      let have_ := match c.fe.groups.find? fun g => decide (g.ep = e) && g.resp with | some g => g.bytes | none => []
      let others := c.fe.groups.filter fun g => decide (g.ep ≠ e) || !g.resp
      let freed := if last then mdel tag c.fe.ftags else c.fe.ftags
      let goes := fun (P : State → Prop) => ∃ t, exec (.frespArrival p) s = .next t ∧ epAt (coreAt t p) e = { k with rseq := (k.rseq + 1) % 16384 }
        ∧ (coreAt t p).ch.inbox = rest ∧ P t ∧ Upd [.cores, .evts, .regs, .cmt, .host] [.fe, .pc, .bsn, .ch] (some p) s t
      let gone := fun (t : State) => (coreAt t p).fe = { c.fe with ftags := freed } ∧ (coreAt t p).bsn = c.bsn
      ((chanAt s k.decl = none ∨ k.st ≠ 3) → goes gone)
      ∧ ∀ d, chanAt s k.decl = some d → k.st = 3 → (d.role ≠ 0 → goes gone) ∧ (d.role = 0 →
        (cEpoch x ≠ c.ch.epoch → goes (fun t => gone t ∧ (c.mode = .broadcast → (0x1C, p) ∈ t.cmt.faults)))
        ∧ (cEpoch x = c.ch.epoch → bbit d.classes (cClass x) = false → goes gone)
        ∧ (cEpoch x = c.ch.epoch → bbit d.classes (cClass x) = true →
            (¬ last → goes (fun t => (coreAt t p).fe = { c.fe with groups := others ++ [⟨e, have_ ++ data, true⟩] } ∧ (coreAt t p).bsn = c.bsn))
            ∧ (last → (∀ y ∈ c.fe.ftags, y.1 ≠ tag) → goes (fun t => (coreAt t p).fe = { c.fe with groups := others } ∧ (coreAt t p).bsn = c.bsn))
            ∧ (∀ f, last → c.fe.ftags.find? (fun y => decide (y.1 = tag)) = some (tag, f) →
                let off := f.off + 128 * cPay x 36 1
                let use_ := hndUse [] p f.hnd off 128 s
                (∀ h, use_ = .ok h →
                  let q : Dep := { cls := 3, bank := h.bank (off / 128), row := h.prow true (off / 128), bytes := padTo 128 0 (have_ ++ data),
                                   hnd := f.hnd, lrow := off / 128, ftag := some tag }
                  let all := c.bsn.dep ++ c.bsn.up ++ [q]
                  goes (fun t => (coreAt t p).fe = { c.fe with groups := others }
                    ∧ (coreAt t p).bsn = { c.bsn with dep := all.take (64 - others.length), up := all.drop (64 - others.length) }))
                ∧ ((use_ = .bounds ∨ use_ = .mismatch) → goes (fun t => (coreAt t p).bsn = c.bsn
                  ∧ (coreAt t p).fe = { c.fe with
                      groups := others, ftags := if f.rows ≤ 1 then mdel tag c.fe.ftags else mput tag { f with rows := f.rows - 1 } c.fe.ftags }
                  ∧ (use_ = .bounds → c.mode = .broadcast → (0x03, p) ∈ t.cmt.faults)))))))

/-- Outside the discard window and the commit zone, with a good end-to-end check: in central mode an arrival adds 1 to the barrier's flag
at its root; as the lc ends a flag that has reached the number of participants is lowered by it and the root sends every participant a
release, or, of a domain barrier, one arrival to the domain root, whose flag, at NMOD, releases every module. In sense-reversing mode an
arrival is counted at its place in the tree, with the participants it combines; the place that has its own and all those below it sends
one arrival up, and the root releases down the tree, of a domain barrier once the modules below it have arrived too. A release lets the
core arrive again, counts in its phase from the next lc on, and goes on down the tree. A remote write that its ford admits queues its
rows, with its credits behind the last; a remote read queues a read of each row, and through a handle that may not be used it is answered
with zeros and a fault; with 64 rows in the deposit buffer both wait; refused ones are answered, a write with the credits of its first two
cells. Which bytes a barrier cell holds and how the tree is laid out is the model's choice (notes/assumptions/15.md). (R89,  R202,  R206,
R214,  R215,  R269,  R277,  R278) -/
def Obligations.BarriersAndRemoteAccess : Prop :=
  ∀ (p : Nat) (s : State), p < 192 →
    let c := coreAt s p
    let coreIn := fun y : State => (mget [] (mget {} y.fab.stop (stopKey (stopOf p).1 (stopOf p).2.1 (stopOf p).2.2)).ins 0).map (·.cell)
    (∀ e x rest d, c.ch.inbox = (e, x) :: rest → inWindow s p = false → s.clk.zone = false → cType x = 10 → cEcrc x = ecrcOf (cPay x 0 6) x.hdr x.pay →
      barAt s (cPay x 6 1) = some d →
      let b := cPay x 6 1
      let ph := cPay x 8 1 % 2
      let m := s.task.modIdx
      let flag := if d.flag < 56 then [(d.flag, 1)] else []
      let all := (barCores s d).map fun q => barCell s p (ownMod s) q b 1 0 0
      let kids := (kidCores s d p).map fun q => barCell s p (ownMod s) q b 1 0 0
      let mods := fun (l : List Nat) => l.map fun k => barCell s p (hwOf s k) p b 3 0 0
      let upward := barCell s p (hwOf s (treeUp d.fanin m)) p b 2 0 0
      let below := treeKids d.fanin d.nmod m
      let goes := fun (cmd : Instr) (P : State → Prop) => ∃ t, exec cmd s = .next t ∧ (coreAt t p).ch.inbox = rest ∧ P t
        ∧ (∀ a, a ≠ b → mget 0 t.fab.barArr a = mget 0 s.fab.barArr a ∧ mget 0 t.fab.barPhase a = mget 0 s.fab.barPhase a)
        ∧ Upd [.cores, .evts, .regs, .fab, .cmt, .host] [.pc, .adds, .ch] (some p) s t
      let freed := fun (t : State) => (coreAt t p).ch.flips = c.ch.flips ++ [b] ∧ mget 0 (coreAt t p).ch.arrived b = 0 ∧ (coreAt t p).ch.phase = c.ch.phase
      (cPay x 7 1 = 0 → d.sense = false → goes (.barrierArrival p) (fun t => coreIn t = coreIn s ∧ (coreAt t p).adds = c.adds ++ flag
          ∧ mget 0 t.fab.barArr b = mget 0 s.fab.barArr b + 1 ∧ mget 0 t.fab.barPhase b = mget 0 s.fab.barPhase b))
      ∧ (cPay x 7 1 = 0 → d.sense = true →
          let l := barOrder s d
          let n := l.idxOf p
          let old := mget (0, 0) c.ch.tree (2 * b + ph)
          let full := mget 0 c.ch.arrived b = 1 ∧ barBit c b = ph ∧ old.1 + 1 = (treeKids d.fanin l.length n).length
          let flips := fun (t : State) => mget 0 t.fab.barPhase b = (mget 0 s.fab.barPhase b + 1) % 2
          (¬ full → goes (.barrierArrival p) (fun t => coreIn t = coreIn s ∧ (coreAt t p).adds = c.adds
            ∧ mget (0, 0) (coreAt t p).ch.tree (2 * b + ph) = (old.1 + 1, old.2 + cPay x 9 2) ∧ mget 0 t.fab.barPhase b = mget 0 s.fab.barPhase b))
          ∧ (full → n ≠ 0 → goes (.barrierArrival p) (fun t => (coreAt t p).adds = c.adds ∧ mget 0 t.fab.barPhase b = mget 0 s.fab.barPhase b
            ∧ coreIn t = coreIn s ++ [barCell s p (ownMod s) (l.getD (treeUp d.fanin n) 0) b 0 ph (old.2 + cPay x 9 2 + 1)]))
          ∧ (full → n = 0 → d.scope = false → goes (.barrierArrival p) (fun t => flips t ∧ freed t ∧ coreIn t = coreIn s ++ kids))
          ∧ (full → n = 0 → d.scope = true →
              (mget 0 s.fab.barDom b ≠ below.length → goes (.barrierArrival p) (fun t => flips t ∧ coreIn t = coreIn s ∧ mget 0 t.fab.barLoc b = 1))
              ∧ (mget 0 s.fab.barDom b = below.length → m ≠ 0 → goes (.barrierArrival p) (fun t => flips t ∧ coreIn t = coreIn s ++ [upward]))
              ∧ (mget 0 s.fab.barDom b = below.length → m = 0 → goes (.barrierArrival p) (fun t => flips t ∧ freed t
                  ∧ coreIn t = coreIn s ++ mods below ++ kids))))
      ∧ (cPay x 7 1 = 1 → goes (.barrierRelease p) (fun t => freed t ∧ coreIn t = coreIn s ++ (if d.sense then kids else [])))
      ∧ (cPay x 7 1 = 3 →
          (d.sense = false → goes (.barrierRelease p) (fun t => coreIn t = coreIn s ++ all ∧ (coreAt t p).ch.flips = c.ch.flips))
          ∧ (d.sense = true → goes (.barrierRelease p) (fun t => coreIn t = coreIn s ++ mods below ++ kids ∧ freed t)))
      ∧ (cPay x 7 1 = 2 →
          (d.sense = false → goes (.domainBarrierArrival p) (fun t => coreIn t = coreIn s
            ∧ mget 0 t.fab.barDom b = mget 0 s.fab.barDom b + 1 ∧ (coreAt t p).adds = c.adds ++ flag))
          ∧ (d.sense = true →
            let full := mget 0 s.fab.barLoc b = 1 ∧ mget 0 s.fab.barDom b + 1 = below.length
            (¬ full → goes (.domainBarrierArrival p) (fun t => coreIn t = coreIn s ∧ mget 0 t.fab.barDom b = mget 0 s.fab.barDom b + 1))
            ∧ (full → m ≠ 0 → goes (.domainBarrierArrival p) (fun t => coreIn t = coreIn s ++ [upward]))
            ∧ (full → m = 0 → goes (.domainBarrierArrival p) (fun t => freed t ∧ coreIn t = coreIn s ++ mods below ++ kids)))))
    ∧ (∀ d : BarD,
      let n := (barCores s d).length
      let dom := mget 0 s.fab.barDom d.bar
      let have_ := objAt c d.flag
      let here := d.sense = false ∧ physOf s d.root = some p
      let first := 0 < n ∧ n + dom ≤ have_
      let second := d.scope = true ∧ 0 < d.nmod ∧ d.nmod ≤ dom ∧ d.nmod ≤ have_
      let t := barRoot p s d
      let lowered := fun (k : Nat) => objAt (coreAt t p) d.flag = have_ - k ∧ ∀ o, o ≠ d.flag → objAt (coreAt t p) o = objAt c o
      ((¬ here ∨ ¬ first ∧ ¬ second) → t = s)
      ∧ (here → first → d.scope = false → lowered n ∧ mget 0 t.fab.barPhase d.bar = (mget 0 s.fab.barPhase d.bar + 1) % 2
          ∧ coreIn t = coreIn s ++ (barCores s d).map fun q => barCell s p (ownMod s) q d.bar 1 0 0)
      ∧ (here → first → d.scope = true → (dom < d.nmod ∨ d.nmod = 0) → lowered n ∧ coreIn t = coreIn s ++ [barCell s p (hwOf s 0) p d.bar 2 0 0])
      ∧ (here → ¬ first → second → lowered d.nmod ∧ mget 0 t.fab.barDom d.bar = 0
          ∧ coreIn t = coreIn s ++ (List.range d.nmod).map fun m => barCell s p (hwOf s m) p d.bar 3 0 0))
    ∧ (∀ b, c.ch.flips = [b] → (∀ im, s.task.img = some im → ∀ d ∈ im.bars, barRoot p s d = s) →
        (coreAt (barLc p s) p).ch = { c.ch with flips := [], phase := mset 0 b (mget 0 c.ch.phase b + 1) c.ch.phase } ∧ Upd [.cores] [.ch] (some p) s (barLc p s))
    ∧ ((∀ y ∈ c.fe.remote, cType y.cell ≠ 2) → exec (.remoteWrite p) s = .next s) ∧ ((∀ y ∈ c.fe.remote, cType y.cell ≠ 3) → exec (.remoteRead p) s = .next s)
    ∧ (∀ (h : Hnd) (hd off k : Nat) (r : Nat × Nat) (src : Nat × Nat × Nat), off % 128 = 0 → readDeps h hd off k r src =
        [{ cls := 2, bank := h.bank (off / 128), row := h.prow false (off / 128), off := 0, len := 128, part := 0, hnd := hd, lrow := off / 128
           resp := some (r.1, r.2, k), src := src }])
    ∧ ∀ a r b, c.fe.remote = a ++ r :: b → (∀ y ∈ a, cType y.cell ≠ cType r.cell) →
      let e := r.ep
      let x := r.cell
      let k := epFord s p e
      let f := fordOf (mget 0 c.bsn.ford k)
      let o := cPay x 32 4
      let credit := fun (n : Nat) => selfCell s p e r.src.1 r.src.2.1 r.src.2.2 8 0 (1 + n * 2 ^ 16)
      let refuse := fun (tag : Nat) => selfCell s p e r.src.1 r.src.2.1 r.src.2.2 7 0
        (4 + k * 2 ^ 8 + cType x * 2 ^ 40 + cFseq x * 2 ^ 48 + tag * 2 ^ 64)
      let seq := fun (j : Nat) => (cFseq x + 16382 + j) % 16384
      let open_ := fordOpen s p k = true ∧ f.has e = true
      let goes := fun (cmd : Instr) (P : State → Prop) => ∃ t, exec cmd s = .next t ∧ (coreAt t p).fe = { c.fe with remote := a ++ b } ∧ P t
        ∧ Upd [.cores, .evts, .regs, .fab, .cmt, .host] [.bsn, .fe] (some p) s t
      let queued := fun (l : List Dep) (t : State) => (coreAt t p).bsn = { c.bsn with
        dep := (c.bsn.dep ++ c.bsn.up ++ l).take (64 - c.fe.groups.length), up := (c.bsn.dep ++ c.bsn.up ++ l).drop (64 - c.fe.groups.length) }
      (cType x = 2 →
        let off := 32 * (f.lo + o)
        let pass := open_ ∧ f.wr = true ∧ o + 4 ≤ f.span
        let use_ := hndUse [] p f.hnd (off : Nat) 128 s
        (pass → 64 ≤ depRows c → exec (.remoteWrite p) s = .next s)
        ∧ (∀ h, pass → depRows c < 64 → use_ = .ok h →
            goes (.remoteWrite p) (fun t => coreIn t = coreIn s ∧ queued ((rowParts off 128).map fun y => ({
              cls := 3, bank := h.bank y.1, row := h.prow true y.1, off := y.2.1, bytes := slice (128 * y.1 + y.2.1 - off) y.2.2 r.data
              hnd := f.hnd, lrow := y.1, credEp := if y.1 = (off + 127) / 128 then some (e, cFseq x) else none, src := r.src } : Dep)) t))
        ∧ (pass → depRows c < 64 → (use_ = .bounds ∨ use_ = .mismatch) →
            goes (.remoteWrite p) (fun t => coreIn t = coreIn s ++ [credit (seq 0), credit (seq 1), credit (seq 2)] ∧ (coreAt t p).bsn = c.bsn
              ∧ (use_ = .bounds → c.mode = .broadcast → (0x03, p) ∈ t.cmt.faults)))
        ∧ (¬ pass → goes (.remoteWrite p) (fun t =>
            coreIn t = coreIn s ++ [refuse 0xFFFF, credit (seq 0), credit (seq 1)] ∧ (coreAt t p).bsn = c.bsn ∧ (c.mode = .broadcast → (0x10, p) ∈ t.cmt.faults))))
      ∧ (cType x = 3 →
        let rows := cPay x 39 1 % 32 + 1
        let first := 32 * (f.lo + o)
        let pass := open_ ∧ f.rd = true ∧ o + 4 * rows ≤ f.span
        let use_ := hndUse [] p f.hnd (first : Nat) (128 * rows) s
        (pass → 64 ≤ depRows c → exec (.remoteRead p) s = .next s)
        ∧ (∀ h, pass → depRows c < 64 → use_ = .ok h → goes (.remoteRead p) (fun t => coreIn t = coreIn s
            ∧ queued ((List.range rows).flatMap fun j => readDeps h f.hnd (first + 128 * j) j (e + 1024 * cEpoch x, cPay x 37 2) r.src) t))
        ∧ (pass → depRows c < 64 → use_ = .bounds → (epAt c e).rseq < 16384 → ∃ t, exec (.remoteRead p) s = .next t
            ∧ (coreAt t p).fe = { c.fe with remote := a ++ b } ∧ (coreAt t p).bsn = c.bsn
            ∧ coreIn t = coreIn s ++ (List.range (3 * rows)).map (fun n => sealCell (srcId (ownMod s) p e)
                (mkHdr r.src.1 r.src.2.1 r.src.2.2 4 1 (cEpoch x) (if n % 3 = 2 then 32 else 48) (((epAt c e).rseq + n) % 16384))
                (if n % 3 = 2 then descPay 0 0 (n / 3) (cPay x 37 2) 0 else 0))
            ∧ (c.mode = .broadcast → (0x03, p) ∈ t.cmt.faults) ∧ Upd [.cores, .evts, .regs, .fab, .cmt, .host] [.fe, .ch] (some p) s t)
        ∧ (¬ pass → goes (.remoteRead p) (fun t => coreIn t = coreIn s ++ [refuse (cPay x 37 2)]
            ∧ (coreAt t p).bsn = c.bsn ∧ (c.mode = .broadcast → (0x10, p) ∈ t.cmt.faults))))


/-! ### Threaded cores, core modes, service controllers -/
/-- On a threaded core the next ready thread after the one that issued last issues its next instruction, once an lc: a control instruction
is then at hand with its waits taken and its signals planned; an instruction of a unit whose queue had room as the lc began joins it with
the amounts of THBASE added to its operand offsets, which return to 0; a sequencer instruction keeps its thread back, repeats its block or
ends it. At the end of a repeated block the thread goes back to its start, or on. Where no thread is ready, nothing issues. Each control
instruction writes its result to its register, readable after its latency, or moves the thread's word, reads or writes eight bytes of the
basin when its bank is free and waits when it is not, adds to a base, or ends the thread; it changes no other thread. An instruction of
another opcode, or none, is left where it is. What a sequencer instruction does to a thread is the model's choice
(notes/assumptions/18.md). (R63,  R64,  R102,  R119,  R203,  R204) -/
def Obligations.ThreadsRun : Prop :=
  ∀ (p : Nat) (s : State), p < 192 →
    let c := coreAt s p
    let now := s.clk.now
    (c.mode = .threaded → c.th.issued = none → mget 0 c.started 6 ≠ now + 1 →
      let ready := fun (t : Nat) => let x := thAt c t; let i := storeIns c x.pc
        x.live = true ∧ (∀ l, x.stall = some l → l ≤ now) ∧ (∀ o, o < 56 → waitOn i o ≤ objAt c o)
        ∧ (iUnit i = 6 → ∀ r ∈ thReads i, x.ready.getD r 0 ≤ now) ∧ (1 ≤ iUnit i → iUnit i ≤ 5 → lenBefore c now (iUnit i) < 32)
      ((∀ t, t < 8 → ¬ ready t) → exec (.threadIssue p) s = .next s)
      ∧ ∀ k, k < 8 → (∀ j, j < k → ¬ ready ((c.th.last + 1 + j) % 8)) → ready ((c.th.last + 1 + k) % 8) →
        let t := (c.th.last + 1 + k) % 8
        let x := thAt c t
        let i := storeIns c x.pc
        let e := blockEnd (x.pc + insWords i) x.reps
        let moved := { x with pc := e.1 % 2048, reps := e.2, stall := none }
        let goes := fun (y : Thread) (P : Core → Prop) => ∃ u, exec (.threadIssue p) s = .next u ∧ thAt (coreAt u p) t = y ∧ P (coreAt u p)
          ∧ (coreAt u p).th.last = t ∧ mget 0 (coreAt u p).started 6 = now + 1 ∧ (∀ w, w ≠ t → thAt (coreAt u p) w = thAt c w)
          ∧ Upd [.cores] [.th, .sigs, .q, .obj, .started, .came, .job] (some p) s u
        let quiet := fun (d : Core) => d.th.issued = none ∧ d.q = c.q ∧ d.obj = c.obj ∧ d.sigs = c.sigs
        (iUnit i = 6 → goes moved (fun d => d.th.issued = some (t, i) ∧ d.sigs = c.sigs ++ thSigs now i ∧ d.q = c.q
          ∧ ∀ o, o < 56 → objAt d o = objAt c o - waitOn i o))
        ∧ (1 ≤ iUnit i → iUnit i ≤ 5 → goes { moved with base := [0, 0, 0] } (fun d => d.th.issued = none ∧ d.obj = c.obj ∧ d.sigs = c.sigs
          ∧ unitQ d (iUnit i) = unitQ c (iUnit i) ++ [basedIns x i] ∧ mget 0 d.came (iUnit i) = now + 1 ∧ ∀ v, v ≠ iUnit i → unitQ d v = unitQ c v))
        ∧ (iUnit i = 0 → iOp i = 0x00 → goes { moved with stall := some (now + iCount i 0 + 2) } quiet)
        ∧ (iUnit i = 0 → iOp i = 0x01 → goes { x with pc := (x.pc + insWords i) % 2048, stall := none
                                                      reps := ⟨x.pc + insWords i, x.pc + insWords i + iOff i 0, iCount i 0⟩ :: x.reps } quiet)
        ∧ (iUnit i = 0 → iOp i = 0x02 → goes moved quiet)
        ∧ (iUnit i = 0 → iOp i = 0x03 → goes { moved with live := false } quiet))
    ∧ ((c.mode ≠ .threaded ∨ c.th.issued.isSome = true ∨ mget 0 c.started 6 = now + 1) → exec (.threadIssue p) s = .next s)
    ∧ (∀ (pc : Nat) (r : Rep) (rest : List Rep), blockEnd pc [] = (pc, [])
        ∧ (pc < r.stop → blockEnd pc (r :: rest) = (pc, r :: rest)) ∧ (r.stop ≤ pc → r.left = 0 → blockEnd pc (r :: rest) = blockEnd pc rest)
        ∧ (r.stop ≤ pc → r.left ≠ 0 → blockEnd pc (r :: rest) = (r.start, { r with left := r.left - 1 } :: rest)))
    ∧ (let rows : List (Instr × Nat) := [(.thli p, 0x01), (.thadd p, 0x02), (.thsub p, 0x03), (.thand p, 0x04), (.thor p, 0x05), (.thxor p, 0x06),
         (.thshl p, 0x07), (.thshr p, 0x08), (.thmul p, 0x09), (.thcmp p, 0x0A), (.thbr p, 0x0B), (.thjmp p, 0x0C), (.thbase p, 0x0F), (.thexit p, 0x10)]
       ∀ r ∈ rows, (∀ t i, c.th.issued = some (t, i) → iOp i ≠ r.2) → exec r.1 s = .next s)
    ∧ (∀ r ∈ ([(.thlds p [], 0x0D), (.thsts p, 0x0E)] : List (Instr × Nat)), (∀ t i, c.th.issued = some (t, i) → iOp i ≠ r.2) →
        ∃ u, exec r.1 s = .next u ∧ coreAt u p = { c with job := { c.job with wait := false, halt := none } } ∧ Upd [.cores] [.job] (some p) s u)
    ∧ ∀ t i, c.th.issued = some (t, i) → t < c.th.thr.length → (thAt c t).regs.length = 32 → (thAt c t).ready.length = 32 → (thAt c t).base.length = 3 →
      let x := thAt c t
      let rd := iOff i 0 % 32
      let a := x.regs.getD (iOff i 0 / 32 % 32) 0
      let b := x.regs.getD (iOff i 0 / 1024 % 32) 0
      let goes := fun (cmd : Instr) (y : Thread) => ∃ u, exec cmd s = .next u ∧ thAt (coreAt u p) t = y ∧ (coreAt u p).th.issued = none
        ∧ (∀ w, w ≠ t → thAt (coreAt u p) w = thAt c w) ∧ (coreAt u p).th.store = c.th.store ∧ (coreAt u p).th.last = c.th.last
        ∧ Upd [.cores] [.th] (some p) s u
      let sets := fun (v : W64) (lat : Nat) => { x with regs := x.regs.set rd v, ready := x.ready.set rd (now + lat) }
      let w := iOff i 1 % 2048
      let jumps := { x with pc := w, reps := x.reps.dropWhile fun r => !decide (r.start ≤ w ∧ w < r.stop) }
      (∀ r ∈ ([(.thli p, 0x01, BitVec.ofInt 64 (sext 32 (iOff i 1)), 1), (.thadd p, 0x02, a + b, 1), (.thsub p, 0x03, a - b, 1), (.thand p, 0x04, a &&& b, 1),
          (.thor p, 0x05, a ||| b, 1), (.thxor p, 0x06, a ^^^ b, 1), (.thshl p, 0x07, a <<< (b.toNat % 64), 1),
          (.thshr p, 0x08, if iUmod i % 2 = 1 then a.sshiftRight (b.toNat % 64) else a >>> (b.toNat % 64), 1), (.thmul p, 0x09, a * b, 4),
          (.thcmp p, 0x0A, if (if iUmod i % 2 = 1 then a.slt b else a.ult b) = true then 1 else 0, 1)] : List (Instr × Nat × W64 × Nat)),
        iOp i = r.2.1 → goes r.1 (sets r.2.2.1 r.2.2.2))
      ∧ (iOp i = 0x0B → goes (.thbr p) (if a = 0 then x else jumps))
      ∧ (iOp i = 0x0C → goes (.thjmp p) jumps)
      ∧ (iOp i = 0x0F → iUmod i % 4 < 3 → goes (.thbase p) { x with base := x.base.set (iUmod i % 4) (x.base.getD (iUmod i % 4) 0 + a) })
      ∧ (iOp i = 0x10 → goes (.thexit p) { x with live := false })
      ∧ ∀ h, c.mode = .threaded → hndUse [] p (iSel i 2) (offsetOf s p i 2 0) 8 s = .ok h → offsetOf s p i 2 0 % 128 ≤ 120 →
        let off := (offsetOf s p i 2 0).toNat
        let bank := h.bank (off / 128)
        let free := isDepositSlot s s.clk.lc bank = false ∧ bank ∉ c.bsn.blog
        let lo := fun (wr : Bool) => rowBase c.bsn bank (h.prow wr (off / 128)) + off % 128
        (∀ r ∈ ([(.thlds p [], 0x0D), (.thsts p, 0x0E)] : List (Instr × Nat)), iOp i = r.2 → ¬ free →
          ∃ u, exec r.1 s = .next u ∧ (coreAt u p).th = c.th ∧ (coreAt u p).bsn = c.bsn ∧ Upd [.cores] [.job] (some p) s u)
        ∧ (iOp i = 0x0D → free → ∃ u, exec (.thlds p []) s = .next u
          ∧ thAt (coreAt u p) t = sets (BitVec.ofNat 64 (leNat (rdMem c.bsn.mem (lo false) 8))) 6 ∧ (coreAt u p).bsn.blog = c.bsn.blog ++ [bank]
          ∧ (coreAt u p).bsn.mem = c.bsn.mem ∧ (∀ w, w ≠ t → thAt (coreAt u p) w = thAt c w) ∧ (coreAt u p).th.issued = none ∧ u.cmt = s.cmt)
        ∧ (iOp i = 0x0E → free → ∃ u, exec (.thsts p) s = .next u ∧ (∀ w, thAt (coreAt u p) w = thAt c w)
          ∧ rdMem (coreAt u p).bsn.mem (lo true) 8 = leBytes 8 a.toNat ∧ (coreAt u p).bsn.blog = c.bsn.blog ++ [bank]
          ∧ (∀ z, (z < lo true ∨ lo true + 8 ≤ z) → mget 0 (coreAt u p).bsn.mem z = mget 0 c.bsn.mem z) ∧ (coreAt u p).th.issued = none)

/-- A mode change, a core reset, a load of threaded work and a mailbox request are steps of a controller and wait while it is down. A core
goes from HALT to THREADED at once when its work is loaded, and to BROADCAST at its next boundary when it holds a logical index and is not
fenced; from BROADCAST to THREADED at once while ticks stop, its threads starting when work is loaded, else only from a fenced core and at
its boundary; back when it is unfenced, holds an index of a load that came after, and is idle; any other change sets CORE_STAT.MODE_ERR
and leaves the mode. A core reset empties the queues and stops the threads at once; when no tag is outstanding, at the latest 100
microseconds on, it halts the core and clears its objects, tags, tiles, endpoints and threads, and keeps its basin, handle table, identity
and the sources that its endpoints answer for. THREADED_WORK_LOAD fills the store with an image that the firmware holds or lists, extends
the measurement register with its digest and starts the threads of a threaded core; another image changes neither. A halted stream of a
threaded core holds its state, fault and address, and the threads on it wait. A controller's kick keeps its own watchdog back; 10 ms
without one makes the other lead and this one restart, a second expiry within 1 s of a restart stops ticks; the restart ends when a slot
of its firmware verifies. A mailbox request takes its record from the ring and is answered in the reply ring; tables go to the fabric bank
that is not in force, a fence of another module or of its cores is marked for the switch, bytes of a committed region are written while
ticks stop, a rail takes a trim of at most 15 mV, a halted stream goes on or is given up, and a record joins the accesses that wait for a
deposit slot of a core's basin. A good SERVICE cell is taken and triggers an exit from T2 or T3. What the records hold is the model's
choice (notes/assumptions/17.md), as is where threads start (notes/assumptions/18.md). (R60,  R61,  R62,  R66,  R67,  R69,  R254,  R306,
R321,  R322,  R402,  R415) -/
def Obligations.ModesAndControllers : Prop :=
  (∀ (p : Nat) (m : CoreMode) (s : State), p < 192 →
    let c := coreAt s p
    let up := s.ctl.up.getD (p / 96) true
    let fresh : Thr := { c.th with thr := List.replicate 8 { live := true }, last := 7, issued := none }
    let idle := (∀ t ∈ c.th.thr, t.live = false) ∧ (∀ q ∈ c.q, q.2 = []) ∧ (∀ o, o < 56 → objAt c o = 0) ∧ c.fe.mtags = [] ∧ c.fe.ftags = []
    let atOnce := c.mode = .halt ∧ m = .threaded ∧ c.th.loaded = true ∨ c.mode = .broadcast ∧ m = .threaded ∧ s.clk.run = false
    let atBoundary := c.mode = .halt ∧ m = .broadcast ∧ c.lidx ≠ 0xFF ∧ c.fenced = false
      ∨ c.mode = .broadcast ∧ m = .threaded ∧ s.clk.run = true ∧ c.fenced = true
      ∨ c.mode = .threaded ∧ m = .broadcast ∧ c.fenced = false ∧ c.lidx ≠ 0xFF ∧ c.stale = false ∧ idle
    ∃ t, exec (.coreModeChange p m) s = .next t
      ∧ (up = false → t = { s with ctl := { s.ctl with steps := s.ctl.steps ++ [(p / 96, .mode p m)] } })
      ∧ (up = true → atOnce → coreAt t p = { c with mode := .threaded, modeNext := none, stale := true, th := if c.th.loaded then fresh else c.th }
          ∧ Upd [.cores] [.mode, .modeNext, .stale, .th] (some p) s t)
      ∧ (up = true → atBoundary → coreAt t p = { c with modeNext := some m } ∧ Upd [.cores] [.modeNext] (some p) s t)
      ∧ (up = true → ¬ atOnce → ¬ atBoundary → t.cores = s.cores ∧ Upd [.evts, .regs, .host] [] none s t
          ∧ (if s.clk.run = true ∧ s.task.img.isSome = true then Evt.set (corePage p + 0x2C) 2 ∈ t.evts else bbit (regAt t (corePage p + 0x2C)) 1 = true)))
  ∧ (∀ (p : Nat) (s : State), p < 192 →
      let c := coreAt s p
      let up := s.ctl.up.getD (p / 96) true
      let free := c.fe.mtags = [] ∧ c.fe.ftags = []
      let stopped := fun (e : Core) => e.q = [] ∧ e.sigs = [] ∧ e.adds = [] ∧ e.job = {} ∧ e.th.thr = List.replicate 8 {} ∧ e.th.issued = none
        ∧ e.bsn.mem = c.bsn.mem ∧ e.bsn.hnd = c.bsn.hnd ∧ e.bsn.spare = c.bsn.spare ∧ e.lidx = c.lidx ∧ e.fenced = c.fenced ∧ e.ch.epoch = c.ch.epoch
        ∧ e.th.store = c.th.store ∧ e.pc = c.pc
      let cleared := fun (e : Core) => stopped e ∧ e.mode = .halt ∧ e.modeNext = none ∧ e.rst = none ∧ e.obj = [] ∧ e.fe.mtags = [] ∧ e.fe.ftags = []
        ∧ e.fe.ctx = [] ∧ e.mx = {} ∧ e.pu.acc = [] ∧ e.pu.fifo = [] ∧ e.vx.tile = [] ∧ e.vx.mask = [] ∧ e.ch.sbuf = []
        ∧ ∀ f, epAt e f = { was := (epAt c f).source, fseq := (epAt c f).fseq, rseq := (epAt c f).rseq }
      let alone := fun (t : State) => (∀ q, q ≠ p → coreAt t q = coreAt s q) ∧ t.clk = s.clk ∧ t.hbm = s.hbm ∧ t.regs = s.regs ∧ t.dales = s.dales
      (∃ t, exec (.coreReset p) s = .next t ∧ alone t
        ∧ (up = false → t = { s with ctl := { s.ctl with steps := s.ctl.steps ++ [(p / 96, .reset p)] } })
        ∧ (up = true → free → cleared (coreAt t p))
        ∧ (up = true → ¬ free → stopped (coreAt t p) ∧ (coreAt t p).mode = c.mode ∧ (coreAt t p).fe = c.fe
            ∧ (coreAt t p).rst = some (c.rst.getD (s.clk.wall + 100 * wallUs))))
      ∧ (∀ w, c.rst = some w → alone (resetLc p s) ∧ (free ∨ w ≤ s.clk.wall → cleared (coreAt (resetLc p s) p))
          ∧ (¬ free → s.clk.wall < w → resetLc p s = s))
      ∧ (c.rst = none → resetLc p s = s))
  ∧ (∀ (p : Nat) (store : List W256) (s : State), p < 192 → store.length ≤ 2048 → ∃ t, exec (.threadedWorkLoad p store) s = .next t
      ∧ (s.ctl.up.getD (p / 96) true = false → t = { s with ctl := { s.ctl with steps := s.ctl.steps ++ [(p / 96, .load p store)] } })
      ∧ (s.ctl.up.getD (p / 96) true = true → Upd [.regs, .cores, .sec, .ctl, .out] [.th] (some p) s t ∧
          if storeListed s store = true then
            (∀ k, k < 2048 → mget 0 (coreAt t p).th.store k = store.getD k 0) ∧ (coreAt t p).th.loaded = true
            ∧ (coreAt t p).th.thr = (if (coreAt s p).mode = .threaded then List.replicate 8 { live := true } else (coreAt s p).th.thr)
            ∧ t.sec.mreg = shake256 (s.sec.mreg ++ leBytes 1 2 ++ shake256 (storeBytes store)) ∧ t.sec.events = s.sec.events + 1
          else (coreAt t p).th = (coreAt s p).th ∧ t.sec = s.sec))
  ∧ (∀ (p n : Nat) (cause : HaltCause) (addr : W64) (s : State), p < 192 → n < 16 →
      let c := coreAt s p
      let x := ctxAt c n
      let stops := c.mode = .threaded ∧ x.state ≠ 0 ∧ x.state ≠ 3
      ∃ t, exec (.threadedStreamHalt p n cause addr) s = .next t
        ∧ (stops → ctxAt (coreAt t p) n = { x with
              state := 3, prev := x.state, fault := match cause with | .xlatMiss => 1 | .hbmUe => 2 | .pcieError => 3, faddr := addr }
          ∧ (∀ k, k ≠ n → ctxAt (coreAt t p) k = ctxAt c k)
          ∧ (∀ w, w ∉ ctxThreads c n → thAt (coreAt t p) w = thAt c w)
          ∧ (∀ w ∈ ctxThreads c n, w < c.th.thr.length → thAt (coreAt t p) w = { thAt c w with stall := some (2 ^ 64) }) ∧ Upd [.cores] [.fe, .th] (some p) s t)
        ∧ (¬ stops → t = s))
  ∧ (∀ (d : Nat) (s : State), d < 2 →
      let up := s.ctl.up.getD d false
      let due := s.ctl.kick.getD d 0 + 10000 * wallUs ≤ s.clk.wall
      let soon := ∃ w, s.ctl.restart.getD d none = some w ∧ s.clk.wall ≤ w + 1000000 * wallUs
      let next := { s with ctl := { s.ctl with leader := 1 - d, up := s.ctl.up.set d false }, pwr := { s.pwr with cause := 4 } }
      (∃ t, exec (.watchdogKick d) s = .next t
        ∧ t = if up then { s with ctl := { s.ctl with kick := s.ctl.kick.set d s.clk.wall } } else s)
      ∧ (∃ t, exec (.watchdogExpiry d) s = .next t
        ∧ ((up = false ∨ ¬ due) → t = s) ∧ (up = true → due → ¬ soon → t = next)
        ∧ (up = true → due → soon → t = emit (.report 2) { next with clk := { next.clk with stopNext := true }, pwr := { next.pwr with lost := true } }))
      ∧ ∃ t, exec (.controllerRestartDone d) s = .next t
        ∧ (s.ctl.up.getD d true = true → t = s)
        ∧ (s.ctl.up.getD d true = false → (∀ x ∈ s.ctl.steps, x.1 ≠ d) →
            match [s.sec.active, 1 - s.sec.active].find? fun k => fwAccepts s (fwSlot s k) with
            | none => t = s
            | some k => t.ctl.up = s.ctl.up.set d true ∧ t.ctl.restart = s.ctl.restart.set d (some s.clk.wall) ∧ t.ctl.kick = s.ctl.kick.set d s.clk.wall
                ∧ t.sec.mreg = shake256 (s.sec.mreg ++ leBytes 1 1 ++ shake256 (fwSlot s k)) ∧ t.sec.events = s.sec.events + 1 ∧ Upd [.ctl, .sec] [] none s t))
  ∧ (∀ (port : Port) (s : State),
      let up := s.ctl.up.getD (portIdx port) true
      let a := takeRecord 256 port s
      let h := mbxWord s port reqHead % 4096
      let w := mbxWord s port (reqRing + h)
      let does := fun (r : MbRequest) (P : State → Prop) => ∃ t, exec (.serviceMailboxRequest port r) s = .next (svcReply port [0] t) ∧ P t
      let off := 1 - s.fab.sel
      Upd [.regs] [] none s a
      ∧ (h = mbxWord s port reqTail % 4096 → a = s)
      ∧ (h ≠ mbxWord s port reqTail % 4096 → bfield w 16 4 ≠ 0 → mbxWord a port reqHead = (h + 16 * bfield w 0 16) % 4096)
      ∧ (∀ (r : MbRequest), ∃ t, exec (.serviceMailboxRequest port r) s = .next t
          ∧ (up = false → t = { s with ctl := { s.ctl with steps := s.ctl.steps ++ [(portIdx port, .mailbox port r)] } }))
      ∧ (∀ (body : List Byte), (∀ x ∈ s.ctl.replies, x.1 ≠ port) → body.length ≤ 2032 →
          let tail := mbxWord s port replyTail % 4096
          let n := 16 * (1 + cdiv body.length 16)
          let rec_ := withRseq (svcRec body) (s.ctl.rseq.getD (portIdx port) 0)
          n ≤ 4096 - tail → n ≤ 4080 - (tail + 4096 - mbxWord s port replyHead % 4096) % 4096 →
          (svcReply port body s).out = s.out ++ [.mailbox port rec_] ∧ mbxWord (svcReply port body s) port replyTail = (tail + n) % 4096
          ∧ (∀ k, 4 * k < n → mbxWord (svcReply port body s) port (replyRing + tail + 4 * k) = leAt (4 * k) 4 rec_)
          ∧ Upd [.regs, .ctl, .out] [] none s (svcReply port body s))
      ∧ (up = true → s.pwr.recovery = true → ∀ b, exec (.serviceMailboxRequest port (.firmware b)) s = .next (
          if port = .b then s else if s.pwr.stage = 0xF ∧ fwAccepts s b = true
          then svcReply port [0] { a with sec := { s.sec with slot := mput (1 - s.sec.active) b s.sec.slot } } else svcReply port [1] a))
      ∧ (up = true → s.pwr.recovery = false →
        (∀ p store, p < 192 → exec (.serviceMailboxRequest port (.threadedWork p store)) s = .next (if storeListed s store
          then { a with ctl := { s.ctl with reqs := s.ctl.reqs ++ [(port, .threadedWork p store)] } } else svcReply port [1] a))
        ∧ (∀ v, does (.setModid v) (fun t => t = { a with sec := { s.sec with modidNext := v.toNat } }))
        ∧ (∀ dmod o, dmod < 65536 → (o < 24 ∨ o = 30 ∨ o = 31) → does (.route dmod o) (fun t =>
            mget 31 t.fab.route (off * 65536 + dmod) = o ∧ (∀ k, k ≠ off * 65536 + dmod → mget 31 t.fab.route k = mget 31 s.fab.route k) ∧ Upd [.fab] [] none a t))
        ∧ (∀ g o mask, g < 4096 → o ≤ 24 → does (.treeMask g o mask) (fun t =>
            mget 0 t.fab.tree (off * 2 ^ 17 + g * 32 + o) = mask.toNat ∧ Upd [.fab] [] none a t))
        ∧ (∀ g i dmod core ep, g < 4096 → i < 64 → dmod < 65535 → core < 192 → ep < 320 → does (.member g i dmod core ep) (fun t =>
            t.fab.sel = s.fab.sel ∧ memberAt { t with fab := { t.fab with sel := off } } g i = some (dmod, core, ep) ∧ Upd [.fab] [] none a t))
        ∧ (∀ dmod core on, dmod < 65535 → dmod ≠ s.sec.modid → (core < 192 ∨ core = 255) → does (.fence dmod core on) (fun t =>
            mget (!on) t.fab.fmarks (if core = 255 then 65536 * 192 + dmod else dmod * 192 + core) = on ∧ t.fab.fmod = s.fab.fmod ∧ t.fab.fcore = s.fab.fcore
            ∧ t.fab.fcoreNext = s.fab.fcoreNext ∧ Upd [.fab] [] none a t))
        ∧ (∀ tick, does (.switchAt tick) (fun t => t = { a with fab := { s.fab with switch := some tick } }))
        ∧ (∀ i o b r, regionAt s i = some r → s.clk.run = false → r.kind = 2 → o + b.length ≤ r.size → Memory.wf s.hbm.mem = true →
            let lo := r.die * 2 ^ 40 + r.base + o
            does (.region i o b) (fun t => (∀ j, j < b.length → mget 0 t.hbm.mem (lo + j) = b.getD j 0)
              ∧ (∀ z, (z < lo ∨ lo + b.length ≤ z) → mget 0 t.hbm.mem z = mget 0 s.hbm.mem z) ∧ Upd [.hbm] [] none a t))
        ∧ (∀ i o b, s.clk.run = true → exec (.serviceMailboxRequest port (.region i o b)) s = .next (svcReply port [1] a))
        ∧ exec (.serviceMailboxRequest port .readLog) s = .next (svcReply port (leBytes 4 s.sec.mlog.length ++ s.sec.mlog.flatMap fun x => leBytes 1 x.1 ++ x.2) a)
        ∧ (∀ p, p < 192 → does (.unfence p) (fun t => (coreAt t p).fenced = false
            ∧ t.fab.fcore = s.fab.fcore ∧ s.sec.modid * 192 + p ∉ t.fab.fcoreNext ∧ Upd [.cores, .fab] [.fenced] (some p) a t))
        ∧ (∀ die mv, die < 2 → mv.natAbs ≤ 15 → does (.railTrim die mv) (fun t => t.clk.trim = s.clk.trim.set die mv
            ∧ t.clk.rail = ([0, 1].map fun d => (max 700 (min 850 ((fopRail s.clk.fop : Int) + (s.clk.trim.set die mv).getD d 0))).toNat)
            ∧ Upd [.clk] [] none a t))
        ∧ (∀ p n go, p < 192 → n < 16 → (ctxAt (coreAt s p) n).state = 3 → (ctxAt (coreAt s p) n).fault ≠ 1 → does (.stream p n go) (fun t =>
            ctxAt (coreAt t p) n = (if go then { ctxAt (coreAt s p) n with state := (ctxAt (coreAt s p) n).prev, fault := 0 } else {})
            ∧ Upd [.cores] [.job, .takes, .fe, .th] (some p) a t))
        ∧ (∀ p bank row body, p < 192 → bank < 16 → row < 1024 → body.length ≤ 112 → does (.coreRecord p bank row body) (fun t =>
            (coreAt t p).bsn = { (coreAt s p).bsn with trust := (coreAt s p).bsn.trust ++ [{ cls := 1, bank := bank, row := row, bytes := padTo 128 0 (svcRec body) }] }
            ∧ Upd [.cores] [.bsn] (some p) a t))))
  ∧ ∀ (d : Nat) (s : State), d < 2 →
      let l := mget [] s.fab.svc d
      ∃ t, exec (.serviceCellArrival d) s = .next t
      ∧ ((∀ x ∈ l, cType x ≠ 12) → t = s)
      ∧ ∀ a x b, l = a ++ x :: b → (∀ y ∈ a, cType y ≠ 12) → cType x = 12 →
        (cEcrc x ≠ ecrcOf (cPay x 0 6) x.hdr x.pay → mget [] t.fab.svc d = a ++ b ∧ Upd [.fab] [] none s t)
        ∧ (cEcrc x = ecrcOf (cPay x 0 6) x.hdr x.pay → ∃ u, mget [] u.fab.svc d = a ++ b ∧ exec (.terraceExit .serviceCell) u = .next t ∧ Upd [.fab] [] none s u)


/-! ### Tasks and phases -/
/-- With no task and after boot a refused image leaves the module as it was and answers its code; an accepted one becomes the task under
the next identifier, gives the unfenced cores their logical indices, array cores first, each in ascending order, fences the others out,
fills the dales, writes handle bank 0 with agreeing complements and the task as owner, and extends the measurement register; of HBM only
the committed regions whose contents come with the load are written. A phase load fills the other handle bank and, with the contents that
come with it, committed regions that are not carried, and leaves the task as it is. PHASE_ARM arms a staged phase for PH_AT, the tick that
the tables of the fabric then name too (notes/assumptions/40.md), or sets its refusal where the tick is too near; a cancel stages it again
and takes that name back; a change of K or a newly fenced core of the task discards it with interrupt bit 9. At the boundary that opens
the bridge, and at a cold boundary once ticks have stopped, the handle banks switch, with PHASE carried over where both banks carry the
same places, and the tables of the fabric that name the tick. When the bridge has taken its lc, or at the cold boundary, the incoming
phase takes effect: its dales, fords, current bits and link; only a cold boundary with CONV 1 moves bytes of HBM, a page's half B to A. A
task reset waits for the boundary while ticks run, else shows the flag audit of the task's end and clears the task, its phase and every
core's part in it, and keeps HBM's bytes. (R4,  R9,  R94,  R207,  R210,  R225,  R262,  R360,  R363,  R365,  R366,  R405) -/
def Obligations.TasksAndPhasesLoad : Prop :=
  (∀ (img : Image) (mod : BitVec 16) (seed : W64) (data : List (Nat × List Byte)) (s : State),
    let b := img.bytes
    let filled := fun (rs : List RegionD) (t : State) =>
      (data = [] → t.hbm.mem = s.hbm.mem) ∧ ∀ i bytes r, data = [(i, bytes)] → rs[i]? = some r →
        (r.kind ≠ 2 → t.hbm.mem = s.hbm.mem) ∧ (r.kind = 2 → bytes.length ≤ r.size → Memory.wf s.hbm.mem = true →
          let lo := r.die * 2 ^ 40 + r.base
          (∀ j, j < bytes.length → mget 0 t.hbm.mem (lo + j) = bytes.getD j 0)
          ∧ ∀ a, (a < lo ∨ lo + bytes.length ≤ a) → mget 0 t.hbm.mem a = mget 0 s.hbm.mem a)
    ∃ t, exec (.imageLoad img mod seed data) s = .next t ∧
    let no := fun (c : Nat) => t = { s with out := s.out ++ [.loader c] }
    ((s.pwr.stage ≠ 9 ∨ s.task.img ≠ none) → t = s)
    ∧ (s.pwr.stage = 9 → s.task.img = none →
      (versionOk b = false → no 0x01) ∧ (versionOk b = true → structOk b = false → no 0x02)
      ∧ (versionOk b = true → structOk b = true → imgDigest b ≠ digestField b → no 0x03)
      ∧ (versionOk b = true → structOk b = true → imgDigest b = digestField b → (kOf s < leAt 0x28 1 b ∨ leAt 0x29 1 b < kOf s) → no 0x04)
      ∧ (∀ code st, checkImage s (leAt 0x2A 1 b) mod.toNat img = (code, st) → code ≠ 0 → no code)
      ∧ ∀ st, checkImage s (leAt 0x2A 1 b) mod.toNat img = (0, st) → s.pwr.terrace = 0 → s.pwr.busy = false →
        let rank := fun (arr : Bool) (p : Nat) => ((List.range p).filter fun q => !(coreAt s q).fenced && (hasArray s q == arr)).length
        ∃ im, t.task.img = some im ∧ im = keptImage img st (placeAll [] (regionsOf b))
          ∧ t.task.id = s.task.lastId % 255 + 1 ∧ t.task.k = kOf s ∧ t.task.modIdx = mod.toNat ∧ t.task.seed = seed ∧ t.phase = {} ∧ t.holds = []
          ∧ t.out = s.out ++ [.loader 0] ∧ filled im.regions t ∧ t.clk = s.clk ∧ t.sec.genesis = true ∧ t.sec.events = s.sec.events + 1
          ∧ (∀ p, p < 192 → (coreAt s p).fenced = false → (coreAt t p).lidx = (if hasArray s p then rank true p else kOf s + rank false p)
              ∧ (coreAt t p).task = t.task.id ∧ (coreAt t p).bsn.hsel = 0 ∧ (coreAt t p).obj = [] ∧ (coreAt t p).stale = false
              ∧ ((coreAt s p).mode = .halt → (coreAt t p).modeNext = some .broadcast)
              ∧ ∀ i, i < 64 → hndBad (coreAt t p) i = false ∧ hndWord (coreAt t p) i = (ownedHnds im t.task.id).getD i 0)
          ∧ (∀ p, p < 192 → (coreAt s p).fenced = true → (coreAt t p).lidx = 0xFF ∧ (coreAt t p).bsn = (coreAt s p).bsn)
          ∧ (∀ d n, d < 12 → n < (im.streams.getD d []).length → (n < 32768 ∨ im.refill.getD d false = false) →
              mget 0 (daleAt t d).imem n = (im.streams.getD d []).getD n 0)))
  ∧ (∀ (img : Image) (carry : List W32) (sw : Nat) (data : List (Nat × List Byte)) (s : State),
    let filled := fun (rs : List RegionD) (t : State) =>
      (data = [] → t.hbm.mem = s.hbm.mem) ∧ ∀ i bytes r, data = [(i, bytes)] → rs[i]? = some r →
        ((r.kind ≠ 2 ∨ ∃ w ∈ carry, cyIn w = i) → t.hbm.mem = s.hbm.mem)
        ∧ (r.kind = 2 → (∀ w ∈ carry, cyIn w ≠ i) → bytes.length ≤ r.size → Memory.wf s.hbm.mem = true →
          let lo := r.die * 2 ^ 40 + r.base
          (∀ j, j < bytes.length → mget 0 t.hbm.mem (lo + j) = bytes.getD j 0)
          ∧ ∀ a, (a < lo ∨ lo + bytes.length ≤ a) → mget 0 t.hbm.mem a = mget 0 s.hbm.mem a)
    ∃ t, exec (.phaseLoad img carry sw data) s = .next t ∧
    ((s.pwr.stage ≠ 9 ∨ s.task.img = none) → t = s)
    ∧ ∀ old code st, s.pwr.stage = 9 → s.task.img = some old → checkImage s s.clk.fop s.task.modIdx img = (code, st) →
      let why := firstCode (phaseCodes s old img carry code)
      (why ≠ 0 → t = { s with out := s.out ++ [.loader why] })
      ∧ (why = 0 → s.pwr.terrace = 0 → s.pwr.busy = false → ∃ im, t.phase = { st := 1, img := some im, src := some img, carry := carry, tick := sw % 2 ^ 48, seq := s.phase.seq }
          ∧ im = keptImage img st (placePhase old.regions (regionsOf img.bytes) carry) ∧ t.out = s.out ++ [.loader 0] ∧ t.task = s.task
          ∧ filled im.regions t ∧ t.hbm = { s.hbm with mem := t.hbm.mem }
          ∧ (∀ p, p < 192 → (coreAt t p).bsn.hsel = (coreAt s p).bsn.hsel ∧ (coreAt t p).bsn.mem = (coreAt s p).bsn.mem)
          ∧ (∀ p i, p < 192 → i < 64 → holdsIndex (coreAt s p) = true → (coreAt s p).bsn.hsel < 2 → hndWord (coreAt t p) i = hndWord (coreAt s p) i
              ∧ mget 0 (coreAt t p).bsn.hnd ((1 - (coreAt s p).bsn.hsel) * 64 + i) = (ownedHnds im s.task.id).getD i 0)
          ∧ Upd [.cores, .phase, .hbm, .out, .pwr] [.bsn] none s t))
  ∧ (∀ (port : Port) (cold : Bool) (s : State),
    let at_ := reg64 s 0x4344 % 2 ^ 48
    let s0 := setReg 0x4340 (1 + 2 * b2n cold) s
    let may := s.phase.st = 1 ∧ (cold = true ∨ ∀ w ∈ s.phase.carry, cyConv w = 0)
    (∃ t, exec (.phaseArm port cold) s = .next t ∧ (Served s port 0x4340 →
      ((s.phase.img = none ∨ ¬ may) → t = s0)
      ∧ ∀ im, s.phase.img = some im → may →
        (farEnough s at_ = false → t = setBits 0x434C (1 <<< 4) s0)
        ∧ (farEnough s at_ = true → t.phase = { s.phase with st := 2, tick := at_, cold := cold } ∧ t.fab = { s.fab with switch := some at_ }
          ∧ t.sec.mreg = shake256 (s.sec.mreg ++ leBytes 1 4 ++ shake256 (im.digest ++ carryDigest s.phase.carry))
          ∧ (∀ p, p < 192 → (coreAt t p).bsn.hswitch = if holdsIndex (coreAt s p) then some at_ else (coreAt s p).bsn.hswitch)
          ∧ Upd [.cores, .phase, .fab, .sec, .regs] [.bsn] none s t)))
    ∧ ∃ t, exec (.phaseCancel port) s = .next t ∧ (Served s port 0x4340 →
      (s.phase.st ≠ 2 → t = setReg 0x4340 0 s)
      ∧ (s.phase.st = 2 → t.phase = { s.phase with st := 1, cold := false }
        ∧ t.fab = { s.fab with switch := if s.fab.switch = some s.phase.tick then none else s.fab.switch }
        ∧ (∀ p, p < 192 → holdsIndex (coreAt s p) = true → (coreAt t p).bsn.hswitch = none) ∧ Upd [.cores, .phase, .fab, .regs] [.bsn] none s t)))
  ∧ (∀ s : State,
    let lost := kOf s ≠ s.task.k ∨ ∃ c ∈ s.cores, c.2.fenced = true ∧ c.2.lidx ≠ 0xFF
    ∃ t, exec .phaseAbort s = .next t
    ∧ (lost → (s.phase.st = 1 ∨ s.phase.st = 2) → t.phase = { seq := s.phase.seq }
        ∧ t.fab = { s.fab with switch := if s.phase.st = 2 ∧ s.fab.switch = some s.phase.tick then none else s.fab.switch }
        ∧ bbit (regAt t 0x4010) 9 = true ∧ bbit (regAt t 0x434C) 3 = true ∧ Upd [.cores, .phase, .fab, .regs, .host, .pwr] [.bsn] none s t)
    ∧ ((¬ lost ∨ s.phase.st ≠ 1 ∧ s.phase.st ≠ 2) → t = s))
  ∧ (∀ s : State,
    let turned := fun (t : State) =>
      (s.fab.switch = some s.phase.tick → t.fab.sel = 1 - s.fab.sel ∧ t.fab.switch = none
        ∧ (s.fab.fmarks = [] → t.fab.fmod = s.fab.fmod ∧ t.fab.fcore = s.fab.fcoreNext ∧ t.fab.fport = s.fab.fportNext))
      ∧ (s.fab.switch ≠ some s.phase.tick → t.fab = s.fab)
      ∧ (∀ p, p < 192 → holdsIndex (coreAt s p) = true → (coreAt t p).bsn.hsel = 1 - (coreAt s p).bsn.hsel ∧ (coreAt t p).bsn.mem = (coreAt s p).bsn.mem
          ∧ ∀ i, i < 64 → hndBad (coreAt t p) i = false ∧
            let a := hndAt (coreAt s p) i
            let b := hndOf (mget 0 (coreAt s p).bsn.hnd ((1 - (coreAt s p).bsn.hsel) * 64 + i))
            hndAt (coreAt t p) i = { b with phase := decide (a.valid = true ∧ b.valid = true ∧ a.kind = 1 ∧ b.kind = 1 ∧ a.row = b.row ∧ a.rowB = b.rowB
              ∧ a.bank0 = b.bank0 ∧ a.width = b.width ∧ a.len = b.len ∧ a.phase = true) })
    let switched := fun (im : Loaded) (t : State) =>
      t.task.img = some im ∧ t.phase = { seq := (s.phase.seq + 1) % 65536, cold := s.phase.cold }
      ∧ t.sec.head = shake256 (s.sec.head ++ (leBytes 1 2 ++ leBytes 6 s.phase.slot0 ++ (padTo 32 0 im.digest ++ carryDigest s.phase.carry)))
      ∧ bbit (regAt t 0x4010) 8 = true ∧ t.hbm.wr = [] ∧ t.hbm.cur = carriedCur s.phase.carry s.hbm.cur
      ∧ (∀ d n, d < 12 → n < (im.streams.getD d []).length → (n < 32768 ∨ im.refill.getD d false = false) →
          mget 0 (daleAt t d).imem n = (im.streams.getD d []).getD n 0)
      ∧ (∀ p, p < 192 → holdsIndex (coreAt s p) = true → (coreAt t p).bsn.ford = fordMap im)
    ((s.phase.st = 2 ∨ s.phase.st = 3) → turned (bridgeBanks s) ∧ Upd [.cores, .fab] [.bsn] none s (bridgeBanks s))
    ∧ (∃ t, exec .phaseBridge s = .next t ∧
      let bridged := s.phase.st = 3 ∧ s.phase.cold = false ∧ s.phase.left = 0
      (∀ im, bridged → s.phase.img = some im → switched im t ∧ t.hbm.mem = s.hbm.mem ∧ t.fab = s.fab
        ∧ ∀ p, p < 192 → (coreAt t p).bsn.hsel = (coreAt s p).bsn.hsel ∧ (coreAt t p).bsn.mem = (coreAt s p).bsn.mem)
      ∧ (¬ bridged → t = s))
    ∧ ∃ t, exec .coldBoundary s = .next t ∧
      let halted := s.phase.st = 3 ∧ s.phase.cold = true ∧ s.clk.run = false
      (∀ im old, halted → s.phase.img = some im → s.task.img = some old → switched im t ∧ turned t
        ∧ ((∀ w ∈ s.phase.carry, cyConv w ≠ 1) → t.hbm.mem = s.hbm.mem)
        ∧ ∀ w r n, s.phase.carry = [w] → cyConv w = 1 → old.regions[cyOut w]? = some r → s.hbm.cur = [(cyOut w * 2 ^ 21 + n, true)] → n < 2 ^ 21 → s.hbm.blank = [] →
          Memory.wf s.hbm.mem = true → (r.base + (n + 1) * 65536 ≤ r.baseB ∨ r.baseB + (n + 1) * 65536 ≤ r.base + n * 65536) →
          let hi := r.die * 2 ^ 40 + (r.baseB + n * 65536)
          let lo := r.die * 2 ^ 40 + (r.base + n * 65536)
          (∀ j, j < 65536 → mget 0 t.hbm.mem (lo + j) = mget 0 s.hbm.mem (hi + j))
          ∧ ∀ a, (a < lo ∨ lo + 65536 ≤ a) → mget 0 t.hbm.mem a = mget 0 s.hbm.mem a)
      ∧ (¬ halted → t = s))
  ∧ ∀ (port : Port) (s : State), ∃ t, exec (.taskReset port) s = .next t ∧ (Served s port 0x0068 → s.pwr.terrace = 0 → s.pwr.busy = false →
    (s.clk.run = true → t.cmt = { s.cmt with resetPend := true } ∧ Upd [.cmt, .regs] [] none s t)
    ∧ (s.clk.run = false → t.task = { lastId := s.task.lastId } ∧ t.phase = {} ∧ t.holds = []
        ∧ t.cmt.st = 0 ∧ t.cmt.inDoubt = false ∧ t.cmt.jnl = s.cmt.jnl ∧ t.hbm.mem = s.hbm.mem ∧ t.hbm.cur = [] ∧ t.clk = s.clk
        ∧ (∀ p, p < 192 → (coreAt t p).lidx = 0xFF ∧ (coreAt t p).fenced = (coreAt s p).fenced
            ∧ (holdsIndex (coreAt s p) = true → fieldAt t (corePage p + 0x98) 0 32 = auditMask (coreAt s p) % 2 ^ 32)
            ∧ (((coreAt s p).lidx ≠ 0xFF ∨ (coreAt s p).task ≠ 0) → (coreAt t p).mode = .halt ∧ (coreAt t p).bsn.ford = []
                ∧ ∀ i, i < 64 → (hndOf (mget 0 (coreAt t p).bsn.hnd i)).valid = false ∧ (hndOf (mget 0 (coreAt t p).bsn.hnd (64 + i))).valid = false))))


/-! ### Basins, HBM and the overflow window -/
/-- In a free deposit slot of a bank a trusted access that waits for it, else the waiting access of the most trusted class, oldest first,
is served, and a row from upstream takes the room: a row is written, with its tags freed and its credits returned, its bytes discarded
while a core reset waits, or a ford read's row leaves in three FRESP cells, once both its parts are read where it lies in two rows. A
scrub writes back in such a slot. A marked row is mapped to a spare from the next watershed, one marked for correctable errors with its
bytes copied once the body has ended, with its complement in flash, and with no spare left the tick is not clean; a repair waits for its
controller. An elastic sink takes what its flag holds and runs on. A refresh is noted; an HBM scrub counts what it finds, at its unit in
the stack. The rows of an overflow read join the deposit buffer in order as they come; an error completes the tag, a broadcast core
deposits the poison pattern in the rows that have not come and its tick is not clean, a threaded core's stream halts at the request. A
resume answers for its port and runs the streams that a miss of the port has halted again; a miss not resumed in time stops the task with
fault 0x18. A translation entry holds from the next boundary and may not take away what a copy needs. The staging copy writes the port's
committed rows to host memory, and the reads that waited go out while the port has host DMA tags. (R202,  R217,  R219,  R230,  R234,
R246,  R248,  R250,  R251,  R252,  R253,  R254) -/
def Obligations.BasinAndOverflowUpkeep : Prop :=
  (∀ (p bank : Nat) (ev : List HwEvent) (s : State), p < 192 → bank < 16 →
    let c := coreAt s p
    let free := (s.task.img = none ∨ isDepositSlot s s.clk.lc bank = true) ∧ bank ∉ c.bsn.blog ∧ scheduledHere s p bank = false
    let coreIn := fun y : State => (mget [] (mget {} y.fab.stop (stopKey (stopOf p).1 (stopOf p).2.1 (stopOf p).2.2)).ins 0).map (·.cell)
    let idle := fun (l : List Dep) => ∀ x ∈ l, x.bank ≠ bank ∨ x.cls = 0 ∨ 3 < x.cls
    ((¬ free ∨ idle (c.bsn.trust ++ c.bsn.dep)) → exec (.depositSlotAccess p bank ev) s = .next s)
    ∧ (∀ row word, row < 1024 → word < 4 →
        (free → ∃ t, exec (.basinScrubWriteback p bank row word) s = .next t
          ∧ (coreAt t p).bsn = { c.bsn with blog := c.bsn.blog ++ [bank] } ∧ Upd [.cores] [.bsn] (some p) s t)
        ∧ (¬ free → exec (.basinScrubWriteback p bank row word) s = .next s))
    ∧ ∀ (tr : Bool) (j : Nat) (d : Dep),
      let list := if tr then c.bsn.trust else c.bsn.dep
      free → list[j]? = some d → d.bank = bank → 1 ≤ d.cls → d.cls ≤ 3 → (tr = false → idle c.bsn.trust) →
      (∀ k y, list[k]? = some y → y.bank = bank → y.cls = 0 ∨ d.cls < y.cls ∨ d.cls = y.cls ∧ j ≤ k) →
      let left := (if tr then c.bsn.dep else c.bsn.dep.eraseIdx j, if tr then c.bsn.trust.eraseIdx j else c.bsn.trust)
      let room := if tr then left.1.length else 64 - c.fe.groups.length
      let waits := fun (f : Dep → Dep) (t : State) => (coreAt t p).bsn.trust = left.2
        ∧ (coreAt t p).bsn.dep = ((left.1 ++ c.bsn.up).map f).take room ∧ (coreAt t p).bsn.up = ((left.1 ++ c.bsn.up).map f).drop room
      let goes := fun (f : Dep → Dep) (P : State → Prop) => ∃ t, exec (.depositSlotAccess p bank ev) s = .next t ∧ waits f t
        ∧ (coreAt t p).bsn.blog = c.bsn.blog ++ [bank] ∧ P t ∧ Upd [.cores, .evts, .regs, .fab, .cmt, .host] [.ch, .fe, .bsn] (some p) s t
      let wrote := fun (t : State) (lo : Nat) => rdMem (coreAt t p).bsn.mem lo d.bytes.length = d.bytes
        ∧ ∀ a, (a < lo ∨ lo + d.bytes.length ≤ a) → mget 0 (coreAt t p).bsn.mem a = mget 0 c.bsn.mem a
      let e := hndAt c d.hnd
      let credit := fun (x n : Nat) => selfCell s p x d.src.1 d.src.2.1 d.src.2.2 8 0 (1 + n * 2 ^ 16)
      (d.resp = none → goes id (fun t =>
          (d.cls ≠ 3 ∨ c.rst = none → wrote t ((if d.hnd = 64 then rowBase c.bsn d.bank d.row else rowBase c.bsn (e.bank d.lrow) (e.prow true d.lrow)) + d.off)
            ∧ (d.hnd ≠ 64 → e.kind = 2 → d.lrow = e.slotLast d.lrow → d.off + d.bytes.length = 128 →
              mget 0 (coreAt t p).bsn.fill (d.hnd * 16384 + d.lrow / e.slot) = (mget 0 c.bsn.fill (d.hnd * 16384 + d.lrow / e.slot) + 1) % 256))
          ∧ (d.cls = 3 → c.rst ≠ none → (coreAt t p).bsn.mem = c.bsn.mem)
          ∧ (∀ m, d.mtag = some m → (coreAt t p).fe.mtags = mdel m c.fe.mtags) ∧ (d.mtag = none → (coreAt t p).fe.mtags = c.fe.mtags)
          ∧ (d.ftag = none → (coreAt t p).fe.ftags = c.fe.ftags)
          ∧ coreIn t = coreIn s ++ (match d.credEp with
              | some x => [credit x.1 ((x.2 + 16382) % 16384), credit x.1 ((x.2 + 16383) % 16384), credit x.1 ((x.2 + 16384) % 16384)]
              | none => [])))
      ∧ (∀ ee tag row, d.resp = some (ee, tag, row) →
          let got := (readPart ev p d.bank d.row d.off d.len s).1
          let x := epAt c (ee % 1024)
          let data := if d.part = 1 then got ++ d.bytes else d.bytes ++ got
          let cell := fun (k valid pay : Nat) => sealCell (srcId (ownMod s) p (ee % 1024))
            (mkHdr d.src.1 d.src.2.1 d.src.2.2 4 1 (ee / 1024) valid ((x.rseq + k) % 16384)) pay
          ((∀ y ∈ left.1 ++ c.bsn.up, isTwin d y = false) → goes id (fun t => (coreAt t p).bsn.mem = c.bsn.mem ∧ (x.rseq < 16384 →
            coreIn t = coreIn s ++ [cell 0 48 (leAt 0 48 data), cell 1 48 (leAt 48 48 data), cell 2 32 (descPay (leAt 96 32 data) 0 row tag 0)])))
          ∧ ((∃ y ∈ left.1 ++ c.bsn.up, isTwin d y = true) → goes (fun y => if isTwin d y then { y with bytes := got } else y)
              (fun t => (coreAt t p).bsn.mem = c.bsn.mem ∧ coreIn t = coreIn s))))
  ∧ (∀ (p bank row : Nat) (s : State), p < 192 → bank < 16 → row < 1024 →
    let b := (coreAt s p).bsn
    let k := bank * 1024 + row
    let up := s.ctl.up.getD (p / 96) true
    let entry := repairEntry p bank row
    ∃ t, exec (.fieldRepair p bank row) s = .next t
    ∧ (up = false → t = { s with ctl := { s.ctl with steps := s.ctl.steps ++ [(p / 96, .repair p bank row)] } })
    ∧ (up = true → b.marked.find? (fun x => decide (x.1 = k)) = none → t = s)
    ∧ ∀ k' lost, up = true → b.marked.find? (fun x => decide (x.1 = k)) = some (k', lost) →
      let wait := lost = false ∧ s.clk.run = true ∧ (s.clk.zone = false ∨ s.clk.bodyEnd = none)
      (wait → t = s)
      ∧ (¬ wait → freeSpares b bank = [] → t.cores = s.cores ∧ t.sec = s.sec
        ∧ ((coreAt s p).mode ≠ .threaded → (if s.cmt.voted then bbit t.cmt.srcNext 15 else bbit t.cmt.src 15) = true))
      ∧ (∀ sp rest, ¬ wait → freeSpares b bank = sp :: rest →
        (coreAt t p).bsn = { b with mem := if lost then b.mem else wrMem b.mem ((bank * 1040 + 1024 + sp) * 128) (rdMem b.mem (rowBase b bank row) 128)
                                    spareNext := mput k sp b.spareNext, marked := mdel k b.marked, suspect := mdel k b.suspect }
        ∧ t.sec = { s.sec with repairs := s.sec.repairs ++ [(entry sp, ~~~ entry sp)] } ∧ t.cmt.fences.length = s.cmt.fences.length + 1
        ∧ Upd [.cores, .sec, .cmt] [.bsn] (some p) s t))
  ∧ (∀ (p flag : Nat) (s : State), p < 192 → flag < 48 →
    let c := coreAt s p
    let n := objAt c flag - sumFor flag c.takes
    ((sinkOf s flag = none ∨ n = 0) → exec (.elasticSinkDrain p flag) s = .next s)
    ∧ ∀ h, sinkOf s flag = some h → n ≠ 0 →
      let e := hndAt c h
      let pos := mget 0 c.bsn.sink h
      ∃ t, exec (.elasticSinkDrain p flag) s = .next t ∧ (coreAt t p).takes = c.takes ++ [(flag, n)]
        ∧ mget 0 (coreAt t p).bsn.sink h = (pos + n) % e.len ∧ (coreAt t p).bsn.mem = c.bsn.mem
        ∧ (n = 1 → mget 0 (coreAt t p).bsn.drain (h * 16384 + pos % e.len / e.slot) = (if pos % e.len = e.slotLast (pos % e.len)
            then (mget 0 c.bsn.drain (h * 16384 + pos % e.len / e.slot) + 1) % 256 else mget 0 c.bsn.drain (h * 16384 + pos % e.len / e.slot)))
        ∧ Upd [.cores] [.bsn, .takes] (some p) s t)
  ∧ (∀ (stack lane : Nat) (s : State), stack < 8 → lane < 32 →
      exec (.hbmRefresh stack lane) s = .next { s with hbm := { s.hbm with refresh := mput (stack * 32 + lane) s.clk.now s.hbm.refresh } })
  ∧ (∀ (die unit : Nat) (ev : List HwEvent) (s : State), die < 2 →
      let at_ := unitPlace s die unit
      let a := hbmPage at_.1 + 0x28
      let noted := s.clk.run = true ∧ s.task.img.isSome = true
      ∃ t, exec (.hbmScrub die unit ev) s = .next t ∧ t.hbm = { s.hbm with scrub := s.hbm.scrub.filter (· ≠ die * 2 ^ 40 + unit) }
        ∧ Upd [.hbm, .evts, .regs, .host] [] none s t
        ∧ (noted → .hbmUe die unit ∈ ev → ∃ l, t.evts = s.evts ++ l ∧ Evt.add a 16 8 1 ∈ l ∧ Evt.first (a + 4) 31 0 31 (at_.2.2 % 2 ^ 31) ∈ l)
        ∧ (noted → .hbmUe die unit ∉ ev → t.evts = s.evts ++ (if HwEvent.hbmCe die unit ∈ ev then [Evt.add a 0 16 1] else []))
        ∧ (¬ noted → t.evts = s.evts ∧ (.hbmUe die unit ∈ ev → fieldAt t a 16 8 = satAdd 8 (fieldAt s a 16 8) 1)))
  ∧ (∀ (p tag row : Nat) (bytes : List Byte) (s : State), p < 192 →
    let c := coreAt s p
    let left := c.fe.ov.filter fun q => decide (q.tag ≠ tag)
    let asks := fun (q : OvReq) (t : State) => ∀ r, r < 192 → ∀ y ∈ (coreAt t r).fe.ov, y.port = q.port → y.sent = true
    let joins := fun (q : OvReq) (rows : List (List Byte)) (fin : Bool) (t : State) =>
      let all := c.bsn.dep ++ c.bsn.up ++ (List.range rows.length).map fun j =>
        let n := (q.off + 128 * q.done) / 128 + j
        ({ cls := 3, bank := (hndAt c q.hnd).bank n, row := (hndAt c q.hnd).prow true n, bytes := rows.getD j [], hnd := q.hnd, lrow := n
           mtag := if j + 1 = rows.length ∧ fin then some tag else none } : Dep)
      (coreAt t p).bsn = { c.bsn with dep := all.take (64 - c.fe.groups.length), up := all.drop (64 - c.fe.groups.length) }
    ((∀ q ∈ c.fe.ov, q.tag = tag → q.sent = false) → exec (.overflowCompletion p tag row bytes) s = .next s ∧ exec (.pcieCompletionError p tag) s = .next s)
    ∧ ∀ a q b, c.fe.ov = a ++ q :: b → (∀ y ∈ a, y.tag ≠ tag) → q.tag = tag → q.sent = true →
      let n := bytes.length / 128
      let good := 0 < n ∧ bytes.length % 128 = 0 ∧ q.done ≤ row ∧ row + n ≤ q.rows
      let rows := (List.range n).map fun j => slice (128 * j) 128 bytes
      (¬ good → exec (.overflowCompletion p tag row bytes) s = .next s)
      ∧ (good → row ≠ q.done → (∀ x ∈ q.came, x.1 ≠ q.done) → ∃ t, exec (.overflowCompletion p tag row bytes) s = .next t
          ∧ (coreAt t p).bsn.dep ++ (coreAt t p).bsn.up = c.bsn.dep ++ c.bsn.up ∧ (coreAt t p).fe.mtags = c.fe.mtags
          ∧ (∃ q', q' ∈ (coreAt t p).fe.ov ∧ q'.tag = tag ∧ q'.done = q.done ∧ ∀ j, j < n → mget [] q'.came (row + j) = slice (128 * j) 128 bytes)
          ∧ Upd [.cores] [.fe, .bsn] (some p) s t)
      ∧ (good → row = q.done → q.came = [] → row + n < q.rows → ∃ t, exec (.overflowCompletion p tag row bytes) s = .next t ∧ joins q rows false t
          ∧ (coreAt t p).fe = { c.fe with ov := c.fe.ov.map fun y => if y.tag = tag then { q with done := q.done + n } else y } ∧ Upd [.cores] [.fe, .bsn] (some p) s t)
      ∧ (good → row = q.done → q.came = [] → row + n = q.rows → ∃ t, exec (.overflowCompletion p tag row bytes) s = .next t ∧ joins q rows true t
          ∧ (asks q s → (coreAt t p).fe = { c.fe with ov := left } ∧ Upd [.cores] [.fe, .bsn] (some p) s t))
      ∧ ∃ t, exec (.pcieCompletionError p tag) s = .next t ∧ (asks q s →
          (c.mode ≠ .threaded → joins q (List.replicate (q.rows - q.done) (List.replicate 128 0xFF)) true t ∧ (coreAt t p).fe = { c.fe with ov := left }
            ∧ (if s.cmt.voted then bbit t.cmt.srcNext 4 else bbit t.cmt.src 4) = true ∧ Upd [.cores, .cmt] [.fe, .bsn] (some p) s t)
          ∧ (c.mode = .threaded → (coreAt t p).bsn = c.bsn ∧ (coreAt t p).fe.ov = left ∧ (coreAt t p).fe.mtags = mdel tag c.fe.mtags
            ∧ (∀ w, q.work = some w → (coreAt t p).job.work = c.job.work ++ [w]
                ∧ ((ctxAt c (iUmod w.ins % 16)).state ≠ 3 → ctxAt (coreAt t p) (iUmod w.ins % 16) = { ctxAt c (iUmod w.ins % 16) with
                    state := 3, prev := (ctxAt c (iUmod w.ins % 16)).state, fault := 3, faddr := BitVec.ofNat 64 (q.spans.headD (0, 0)).1 }))
            ∧ Upd [.cores] [.fe, .job, .th] (some p) s t)))
  ∧ (∀ (port : Port) (s : State), bar0Open s (hpPage port + 0x110) = true → mayWrite s port (hpPage port + 0x110) = true →
      (∀ p, p < 192 → ((coreAt s p).fe.ctx.map (·.1)).Nodup) →
      let left := s.cmt.missPorts.filter fun q => decide (q ≠ port)
      let ports := fun (p n : Nat) => ((coreAt s p).job.work.filter fun w => decide (iUnit w.ins = 1 ∧ iUmod w.ins % 16 = n)).filterMap fun w =>
        (operandOf w.ins 2).bind fun j => (regionAt s (iSel w.ins j)).map (·.port)
      ∃ t, exec (.overflowResume port) s = .next t
        ∧ t.cmt = (if s.cmt.missSlots.isSome ∧ port ∈ s.cmt.missPorts then { s.cmt with missPorts := left, resumed := left.isEmpty } else s.cmt)
        ∧ (∀ p, p < 192 → (coreAt s p).mode ≠ .threaded → coreAt t p = coreAt s p)
        ∧ (∀ p n, p < 192 → (coreAt s p).mode = .threaded → ctxAt (coreAt t p) n =
            (if (ctxAt (coreAt s p) n).state = 3 ∧ (ctxAt (coreAt s p) n).fault = 1 ∧ (ports p n = [] ∨ port ∈ ports p n)
             then { ctxAt (coreAt s p) n with state := (ctxAt (coreAt s p) n).prev, fault := 0 } else ctxAt (coreAt s p) n)) ∧ Upd [.cores, .cmt] [.fe, .th] none s t)
  ∧ (∀ s : State,
      (∀ n, s.cmt.missSlots = some n → missTmo s ≤ n → s.cmt.resumed = false → ∃ t, exec .overflowTimeout s = .next t
        ∧ t.cmt = { s.cmt with missSlots := none, missPorts := [], st := 2 } ∧ bbit (regAt t 0x4010) 2 = true
        ∧ (bbit (regAt s 0x4058) 16 = false → regAt t 0x4058 = 0x18 + missCore s * 2 ^ 8 + 2 ^ 16) ∧ Upd [.cmt, .regs, .host] [] none s t)
      ∧ ((s.cmt.missSlots = none ∨ s.cmt.resumed = true ∨ ∃ n, s.cmt.missSlots = some n ∧ n < missTmo s) → exec .overflowTimeout s = .next s)
      ∧ (∀ q, s.cmt.missPorts = [q] → missTmo s = fieldAt s (hpPage q + 0x110) 16 16))
  ∧ (∀ (port : Port) (entry : W64) (s : State), Served s port (hpPage port + 0x104) →
      let g := fieldAt s (hpPage port + 0x100) 0 23
      let e := entry.toNat
      let old := (xlatAt s port g).toNat
      let takes := (∃ o ∈ s.host.copy, o.port = port ∧ o.gran = g ∧ o.ok = true) ∧ (bbit old 0 = true ∧ bbit e 0 = false ∨ bbit old 1 = true ∧ bbit e 1 = false)
      (takes → exec (.ovfXentWrite port entry) s = .next (refuseWrite port (hpPage port + 0x104) 8 s))
      ∧ (¬ takes → ∃ t, exec (.ovfXentWrite port entry) s = .next t
        ∧ hpAt t port = { hpAt s port with xlatNext := mput g (BitVec.ofNat 64 (e / 2 ^ 21 * 2 ^ 21 + e % 4)) (hpAt s port).xlatNext }
        ∧ hpAt t (portOther port) = hpAt s (portOther port) ∧ Upd [.regs, .host] [] none s t))
  ∧ ∀ (port : Port) (s : State),
      ((hpAt s port).up = false → exec (.overflowStagingCopy port) s = .next s)
      ∧ ((hpAt s port).up = true → ∃ t, exec (.overflowStagingCopy port) s = .next t ∧ t.host.copy = s.host.copy.filter (fun o => decide (o.port ≠ port))
        ∧ ((∀ p, p < 192 → ∀ q ∈ (coreAt s p).fe.ov, q.port = port → q.sent = true) → t.cores = s.cores
            ∧ t.out = s.out ++ copyWrites port ((s.host.copy.filter fun o => decide (o.port = port)).filter (·.ok)) [])
        ∧ (∀ p q, p < 192 → (coreAt s p).fe.ov = [q] → q.port = port → q.sent = false →
            (∀ r, r < 192 → r ≠ p → ∀ y ∈ (coreAt s r).fe.ov, y.port = port → y.sent = true) →
            let reads := hostReads port q.spans p q.tag
            let fits := dmaHeld s port + reads.length ≤ 4096
            (coreAt t p).fe.ov = [if fits then { q with sent := true, dma := reads.length } else q]
            ∧ t.out = s.out ++ copyWrites port ((s.host.copy.filter fun o => decide (o.port = port)).filter (·.ok)) [] ++ (if fits then reads else []))
        ∧ Upd [.cores, .host, .out] [.fe] none s t)


/-! ### Fabric links and routers -/
/-- An enabled port trains, its capability cell leaves, and with the version agreed at the rate it needs the port goes UP with fresh
sequences and the credits of R302; at the other rate it trains again, and with no common major it mismatches. A failed training takes it
DOWN and forgets the agreed version. A port in MISMATCH leaves it by a retrain alone. Retraining or disabling an UP port waits until its
replay buffer is empty. An acknowledgement frees the entries up to its sequence and adds the credits it returns; a NAK returns credits
too, and it or a timeout sends the buffered cells again from its sequence. A received cell with an uncorrectable code word, a bad link CRC
or another sequence is discarded with one NAK of the expected sequence; a good one advances the sequence and takes the col to the port's
edge stop, on the half that it came on; a LINKCTL cell is checked by its link CRC alone. A port that goes down discards its replay buffer
and makes the tick not clean; three failed retrains within 10 s fence it. The places of credits and capability bytes and the col's latency
to the edge stop are the model's readings (notes/assumptions/24.md, 67.md). (R283,  R284,  R285,  R286,  R287,  R288,  R292,  R306,  R403)
-/
def Obligations.LinksTrainAndRetry : Prop :=
  ∀ (n : Nat) (s : State), n < 24 →
    let l := lpAt s n
    let on := fieldAt s (lnkPage n + 0x20) 0 1 = 1
    let goes := fun (cmd : Instr) (l' : LPort) (P : State → Prop) => ∃ t, exec cmd s = .next t ∧ lpAt t n = l' ∧ P t
      ∧ (∀ m, m ≠ n → lpAt t m = lpAt s m) ∧ Upd [.fab, .evts, .regs, .host, .out, .cmt, .trc] [] none s t
    let same := fun (t : State) => t.out = s.out ∧ t.cmt = s.cmt
    let ctl := fun (seq ack pay : Nat) => Out.cell n (linkTrailer seq ack ⟨mkHdr 0 0 0 13 3 0 48 0, BitVec.ofNat 384 pay, 0⟩)
    let up := fun (x : LPort) => { x with st := 2, replay := [], tx := 0, rx := 0, nak := false, owed := 0, tries := 0, trySeq := 0, lostUp := false
                                          fails := [], cred := [1024, 1024, 1024, 1024, 1920, 1920, 128, 128]
                                          gotTot := List.replicate 8 0, gave := List.replicate 8 0 }
    let fits := fun (x : LPort) => x.major = 3 ↔ x.slow = false
    let train := fun (x : LPort) => { x with st := 1, trained := false, major := 0, minor := 0, leaving := false, retrainAfter := false, replay := [] }
    let paidBy := fun (credits : List Nat) => { l with
        cred := (List.range 8).map fun k => l.cred.getD k 0 + (credits.getD k 0 + 65536 - l.gotTot.getD k 0) % 65536
        gotTot := (List.range 8).map fun k => credits.getD k 0 % 65536 }
    let marked := fun (t : State) (bit : Nat) => (if s.cmt.voted then bbit t.cmt.srcNext bit else bbit t.cmt.src bit) = true
    (∀ slow delay,
      ((1 < l.st ∨ ¬ on ∨ s.pwr.stage < 9) → exec (.linkTraining n slow delay) s = .next s)
      ∧ (l.st ≤ 1 → on → 9 ≤ s.pwr.stage →
          let l1 := { l with st := 1, slow := slow, delay := delay % 2 ^ 24, trained := true }
          goes (.linkTraining n slow delay) (if l1.major = 0 then l1 else if (l1.major = 3) = (slow = false) then up l1 else { l1 with trained := false })
            (fun t => t.out = s.out ++ [ctl 0 0 (ownCap s n)])))
    ∧ (∀ pay : BitVec 384,
      let b := pay.toNat
      let l1 := { l with peer := bfield b 64 16, sk3 := decide (bfield b 88 8 = 3) }
      let major := if bfield b 24 8 ≠ 0xFF then 3 else 2
      ((l.st ≠ 1 ∨ bfield b 376 8 ≠ 1) → exec (.capabilityCellArrival n pay) s = .next s)
      ∧ (l.st = 1 → bfield b 376 8 = 1 → bfield b 24 8 = 0xFF → bfield b 16 8 = 0xFF → goes (.capabilityCellArrival n pay) { l1 with st := 3 }
          (fun t => same t ∧ (s.clk.run = true → s.task.img.isSome = true → Evt.set (lnkPage n + 0x10) 4 ∈ t.evts)))
      ∧ (l.st = 1 → bfield b 376 8 = 1 → (bfield b 24 8 ≠ 0xFF ∨ bfield b 16 8 ≠ 0xFF) →
          let l2 := { l1 with major := major, minor := 0 }
          goes (.capabilityCellArrival n pay) (if l.trained = false then l2 else if fits l2 then up l2 else { l2 with trained := false }) same))
    ∧ (let failed := if l.lostUp then ((l.fails ++ [s.clk.wall]).reverse.take 3).reverse else []
       (l.st = 1 → goes (.trainingTimeout n) { l with st := 0, trained := false, major := 0, minor := 0, fails := failed } same)
       ∧ (l.st = 0 → l.lostUp = true → on → goes (.trainingTimeout n) { l with fails := failed } same)
       ∧ ((1 < l.st ∨ l.st = 0 ∧ (l.lostUp = false ∨ ¬ on)) → exec (.trainingTimeout n) s = .next s))
    ∧ (∀ cause, ((l.st ≠ 2 ∨ cause = .resends ∧ l.tries < 16) → exec (.portDown n cause) s = .next s)
      ∧ (l.st = 2 → (cause = .resends → 16 ≤ l.tries) → goes (.portDown n cause)
          { l with st := 0, trained := false, major := 0, minor := 0, replay := [], leaving := false, lostUp := true, fails := [], tries := 0 } (fun t => marked t 5 ∧ t.out = s.out)))
    ∧ (∀ a b c r, l.fails = a :: b :: c :: r → s.clk.wall ≤ a + 10000000 * wallUs → l.st ≠ 4 → goes (.portFence n) { l with st := 4, trained := false, replay := [] }
        (fun t => marked t 15 ∧ t.fab.fportNext = s.fab.fportNext ++ [n] ∧ t.cmt.fences = s.cmt.fences ++ [BitVec.ofNat 64 (2 + n * 16)]))
    ∧ ((l.fails.length < 3 ∨ l.st = 4) → exec (.portFence n) s = .next s)
    ∧ (∀ port, bar0Open s (lnkPage n + 0x20) = true → mayWrite s port (lnkPage n + 0x20) = true →
      ((¬ on ∨ l.st = 4) → exec (.linkRetrain port n) s = .next s)
      ∧ (on → l.st = 2 → l.replay ≠ [] → goes (.linkRetrain port n) { l with leaving := true, retrainAfter := true } same)
      ∧ (on → (l.st = 2 ∧ l.replay = [] ∨ l.st ≠ 2 ∧ l.st ≠ 4) → goes (.linkRetrain port n) (train l) same))
    ∧ (∀ port en, Served s port (lnkPage n + 0x20) →
      let set_ := fun (t : State) => fieldAt t (lnkPage n + 0x20) 0 1 = (if en then 1 else 0) ∧ same t
      ((l.st = 3 ∨ l.st = 4) → goes (.linkEnable port n en) l set_)
      ∧ (en = true → l.st ≠ 3 → l.st ≠ 4 → l.leaving = true → goes (.linkEnable port n en) { l with retrainAfter := true } set_)
      ∧ (en = true → l.st ≠ 3 → l.st ≠ 4 → l.leaving = false → goes (.linkEnable port n en) (if l.st = 0 then train l else l) set_)
      ∧ (en = false → l.st = 2 → l.replay ≠ [] → goes (.linkEnable port n en) { l with leaving := true, retrainAfter := false } set_)
      ∧ (en = false → l.st = 2 → l.replay = [] → goes (.linkEnable port n en) { l with st := 0, trained := false, major := 0, minor := 0, leaving := false, retrainAfter := false } set_)
      ∧ (en = false → l.st < 2 → goes (.linkEnable port n en) { l with st := 0, trained := false, major := 0, minor := 0 } set_))
    ∧ (∀ seq (credits : List Nat),
      let paid := paidBy credits
      (l.st ≠ 2 → exec (.linkctlAck n seq credits) s = .next s)
      ∧ (l.st = 2 → (∀ x ∈ l.replay, x.1 ≠ seq % 8192) → (l.leaving = false ∨ l.replay ≠ []) → goes (.linkctlAck n seq credits) paid same)
      ∧ ∀ a c b, l.st = 2 → l.replay = a ++ (seq % 8192, c) :: b → (∀ x ∈ a, x.1 ≠ seq % 8192) →
        ((l.leaving = false ∨ b ≠ []) → goes (.linkctlAck n seq credits) { paid with replay := b, tries := 0 } same)
        ∧ (l.leaving = true → b = [] → l.retrainAfter = true → goes (.linkctlAck n seq credits) (train { paid with tries := 0 }) same)
        ∧ (l.leaving = true → b = [] → l.retrainAfter = false → goes (.linkctlAck n seq credits)
            { paid with replay := [], tries := 0, st := 0, trained := false, major := 0, minor := 0, leaving := false } same))
    ∧ (∀ seq (credits : List Nat),
      let again := fun (cmd : Instr) (l0 : LPort) (q : Nat) (l2 : List (Nat × FCell)) =>
        goes cmd { l0 with tries := if l.trySeq = q then l.tries + 1 else 1, trySeq := q } (fun t => t.cmt = s.cmt ∧ t.out = s.out ++ l2.map fun x => Out.cell n x.2)
      (l.st ≠ 2 → exec (.linkctlNak n seq credits) s = .next s)
      ∧ (l.st = 2 → (∀ x ∈ l.replay, x.1 ≠ seq % 8192) → goes (.linkctlNak n seq credits) (paidBy credits) same)
      ∧ (∀ a c b, l.st = 2 → l.replay = a ++ (seq % 8192, c) :: b → (∀ x ∈ a, x.1 ≠ seq % 8192) →
          again (.linkctlNak n seq credits) (paidBy credits) (seq % 8192) ((seq % 8192, c) :: b))
      ∧ (∀ x r, l.st = 2 → l.replay = x :: r → again (.ackTimeout n) l x.1 (x :: r))
      ∧ ((l.st ≠ 2 ∨ l.replay = []) → exec (.ackTimeout n) s = .next s))
    ∧ (l.st = 2 → goes (.ackSend n) { l with owed := 0 } (fun t => t.out = s.out ++ [ctl (l.rx + 8191) 1 (creditPay l.gave)]))
    ∧ (l.st ≠ 2 → exec (.ackSend n) s = .next s)
    ∧ ∀ (c : FCell) (half : Nat) (uncorr : Bool) (syms : Nat), half < 8 →
      let crcOk := bfield c.trl.toNat 0 16 = lcrcOf c
      let seqOk := bfield c.trl.toNat 19 13 = l.rx
      let pl := portPlace n
      let cmd := Instr.linkCellReceive n c half uncorr syms
      (l.st ≠ 2 → exec cmd s = .next s)
      ∧ (l.st = 2 → uncorr = false → crcOk → cType c = 13 → goes cmd l (fun t => same t ∧ t.fab.col = s.fab.col ∧ t.fab.stop = s.fab.stop))
      ∧ (l.st = 2 → (uncorr = true ∨ ¬ crcOk ∨ cType c ≠ 13 ∧ ¬ seqOk) → goes cmd { l with nak := true }
          (fun t => t.fab.col = s.fab.col ∧ t.fab.stop = s.fab.stop ∧ t.out = s.out ++ (if l.nak then [] else [ctl l.rx 2 (creditPay l.gave)])))
      ∧ (l.st = 2 → uncorr = false → crcOk → seqOk → cType c ≠ 13 → goes cmd { l with rx := (l.rx + 1) % 8192, nak := false, owed := l.owed + 1 }
          (fun t => same t ∧ t.fab.stop = s.fab.stop ∧ t.fab.col = s.fab.col ++ (if cType c = 15 then [] else
            [⟨s.clk.now + 8, .stop (stopKey pl.1 pl.2.1 pl.2.2.1) pl.2.2.2,
              { cell := c, from_ := some n, src := 256 + n, vc := half / 2, hi := decide (half % 2 = 1) }⟩])))

/-- A stop works once in an lc, and a cell leaves it 2 lc after it came at the earliest. A stop that holds one such cell moves it: to the
core it is for, into the col to its fabric port or its controller, or to the next stop towards its target with room for its half, directly
within a region and else through the col or the saddle. Nothing enters a col in the last 32 periods before the boundary. A word in a col
is read at its lc, or right after that window. At its port a cell is sent with the link trailer and kept for replay where the port is UP,
discarded with the tick not clean where it is not, and absorbed at protocol 2.x unless it is a SERVICE or EXTERN cell or came in on such a
port (notes/assumptions/52.md). A cell for a fenced or unroutable destination is absorbed, and a program's cell from this module is
answered by a fenced acknowledgement at its core, a multicast cell by one for each member it would have reached; an open request to an
index that the load lacks is refused. An external transfer waits for the watershed while ticks run, else its cells enter the col to the
controller's stop; an external record from the module named joins the batch of the slot on its die. A saddle lane in use raises the count
of spares, up to 8, with an interrupt. The latencies of cols are the model's readings (notes/assumptions/67.md), and so is the record's
expected source (notes/assumptions/68.md). (R25,  R28,  R291,  R298,  R299,  R300,  R304,  R306,  R307,  R309,  R310,  R450) -/
def Obligations.RoutersForwardCells : Prop :=
  (∀ (die x y i : Nat) (r : RCell) (s : State), die < 2 → x < 12 → y < 8 → i < 5 →
    let st := mget {} s.fab.stop (stopKey die x y)
    let hasRoom := fun (nx : Nat × Nat) =>
      ((mget [] (mget {} s.fab.stop nx.1).ins nx.2).filter fun z => decide (halfIdx z.vc z.hi = halfIdx r.vc r.hi)).length
        + onWay s (.stop nx.1 nx.2) (halfIdx r.vc r.hi) < 32
    (st.at_ = s.clk.now + 1 → exec (.routerForward die x y) s = .next s)
    ∧ (st.at_ ≠ s.clk.now + 1 → st.ins = [(i, [r])] → isMcast r = false →
    let empty := fun (t : State) => (∀ j, mget [] (mget {} t.fab.stop (stopKey die x y)).ins j = []) ∧ (mget {} t.fab.stop (stopKey die x y)).at_ = s.clk.now + 1
    let goes := fun (P : State → Prop) => ∃ t, exec (.routerForward die x y) s = .next t ∧ empty t ∧ P t
      ∧ Upd [.cores, .evts, .regs, .host, .fab, .out, .cmt, .trc] [.ch] none s t
    let stays := ∃ t, exec (.routerForward die x y) s = .next t ∧ mget [] (mget {} t.fab.stop (stopKey die x y)).ins i = [r]
      ∧ t.fab.col = s.fab.col ∧ Upd [.fab] [] none s t
    let here := r.rdy ≤ s.clk.now
    let lives := (∀ m c, target s r ≠ .absorb m c) ∧ target s r ≠ .noIndex ∧ target s r ≠ .discard
    (s.clk.now < r.rdy → lives → stays)
    ∧ (∀ p e, target s r = .core p e → p < 192 → stopOf p = (die, x, y) → here → goes (fun t => (coreAt t p).ch.inbox = (coreAt s p).ch.inbox ++ [(e, r.cell)]
        ∧ (∀ q, q ≠ p → coreAt t q = coreAt s q) ∧ t.out = s.out ∧ t.fab.col = s.fab.col))
    ∧ (∀ d, target s r = .ctl d → d = die → x = 5 → y = 0 →
        (here → colsOpen s = true → goes (fun t => t.fab.col = s.fab.col ++ [⟨s.clk.now + 8, .ctl d, r⟩] ∧ t.cores = s.cores ∧ t.out = s.out))
        ∧ (colsOpen s = false → stays))
    ∧ (∀ n, target s r = .port n → ((portPlace n).1, (portPlace n).2.1, (portPlace n).2.2.1) = (die, x, y) →
        let l := lpAt s n
        let k := halfIdx r.vc (hiOut s n r)
        let takes := l.leaving = false ∧ (toPort s n k).1 < l.cred.getD k 0 ∧ l.replay.length + (toPort s n k).2 < 4096
        (here → colsOpen s = true → (l.st = 2 → takes) → goes (fun t => t.fab.col = s.fab.col ++ [⟨s.clk.now + 8, .port n, r⟩] ∧ t.cores = s.cores ∧ t.out = s.out))
        ∧ ((colsOpen s = false ∨ l.st = 2 ∧ ¬ takes) → stays))
    ∧ (∀ tgt, target s r = tgt → lives → atTgt die x y tgt = false →
        let o := outputTo die x y tgt
        let nx := nextStop die x y o
        let hop := hopLcs die x y o
        (∀ p e, tgt = .core p e → p < 192) → (∀ n, tgt = .port n → n < 24) → (∀ d, tgt = .ctl d → d < 2) →
        (here → hasRoom nx → hop = 0 → goes (fun t => t.out = s.out ∧ t.cores = s.cores ∧ t.fab.col = s.fab.col
            ∧ mget [] (mget {} t.fab.stop nx.1).ins nx.2 = mget [] (mget {} s.fab.stop nx.1).ins nx.2 ++ [{ r with from_ := none, rdy := s.clk.now + 2 }]))
        ∧ (here → hasRoom nx → hop ≠ 0 → colsOpen s = true → goes (fun t => t.out = s.out ∧ t.cores = s.cores
            ∧ t.fab.col = s.fab.col ++ [⟨s.clk.now + hop, .stop nx.1 nx.2, { r with from_ := none }⟩]))
        ∧ ((¬ hasRoom nx ∨ hop ≠ 0 ∧ colsOpen s = false) → stays))
    ∧ (∀ m c, target s r = .absorb m c → r.src < 192 → cDmod r.cell ≠ 0xFFFF → cType r.cell ∈ [0, 1, 2, 3, 5, 6, 9, 10] → goes (fun t => ∃ ack, t.out = s.out ∧
        (coreAt t r.src).ch.inbox = (coreAt s r.src).ch.inbox ++ [(r.sep, ack)] ∧ cType ack = 7 ∧ cPay ack 6 1 = 5 ∧ cPay ack 7 1 = c % 256
        ∧ cPay ack 8 2 = m % 65536 ∧ cPay ack 11 1 = cType r.cell))
    ∧ (∀ m c, target s r = .absorb m c → r.src < 192 → cDmod r.cell = 0xFFFF → cType r.cell ∈ [0, 1, 2, 3, 5, 6, 9, 10] → goes (fun t => ∃ acks : List FCell,
        t.out = s.out ∧ (coreAt t r.src).ch.inbox = (coreAt s r.src).ch.inbox ++ acks.map (fun a => (r.sep, a))
        ∧ acks.map (fun a => (cType a, cPay a 6 1, cPay a 8 2, cPay a 7 1)) = (List.range 64).filterMap fun i =>
            if bbit (cPay r.cell 40 8) i then (memberAt s (cGroup r.cell) i).map (fun x => (7, 5, x.1 % 65536, x.2.1 % 256)) else none))
    ∧ (target s r = .noIndex → r.src < 192 → goes (fun t => ∃ no, t.out = s.out ∧ (coreAt t r.src).ch.inbox = (coreAt s r.src).ch.inbox ++ [(r.sep, no)]
        ∧ cType no = 7 ∧ cPay no 6 1 = 1 ∧ cPay no 7 1 = 3))
    ∧ ((target s r = .discard ∨ (∃ m c, target s r = .absorb m c) ∧ cType r.cell ∉ [0, 1, 2, 3, 5, 6, 9, 10]) → goes (fun t => t.cores = s.cores ∧ t.out = s.out))))
  ∧ (∀ (w : ColWord) (rest : List ColWord) (s : State), s.fab.col = w :: rest →
      ((colsOpen s = false ∨ s.clk.now < w.due ∧ ∀ v ∈ rest, s.clk.now < v.due) → colLc s = s)
      ∧ (colsOpen s = true → w.due ≤ s.clk.now → (∀ v ∈ rest, s.clk.now < v.due) →
          (∀ key i, w.dst = .stop key i → (colLc s).fab.col = rest ∧ mget [] (mget {} (colLc s).fab.stop key).ins i
              = mget [] (mget {} s.fab.stop key).ins i ++ [{ w.cell with rdy := s.clk.now + 2 }])
          ∧ (∀ d, w.dst = .ctl d → (colLc s).fab.col = rest ∧ mget [] (colLc s).fab.svc d = mget [] s.fab.svc d ++ [w.cell.cell])
          ∧ ∀ n, w.dst = .port n → n < 24 →
            let l := lpAt s n
            let r := w.cell
            let t := colLc s
            let k := halfIdx r.vc (hiOut s n r)
            let c := linkTrailer l.tx 0 r.cell
            let carried := cType r.cell = 12 ∨ cType r.cell = 14 ∨ 256 ≤ r.src ∧ cClass r.cell ≠ 2 ∧ (lpAt s (r.src - 256)).major = 2
            (l.st = 2 → (l.major = 2 → carried) → t.fab.col = rest ∧ t.out = s.out ++ [.cell n c] ∧ t.cmt = s.cmt
              ∧ lpAt t n = { l with replay := l.replay ++ [(l.tx, c)], tx := (l.tx + 1) % 8192, cred := modAt k (· - 1) l.cred })
            ∧ (l.st = 2 → l.major = 2 → ¬ carried → t.out = s.out ∧ lpAt t n = l
              ∧ (r.src < 192 → cDmod r.cell ≠ 0xFFFF → cType r.cell ∈ [0, 1, 2, 3, 5, 6, 9, 10] → t.fab.col = rest ∧ ∃ ack,
                  (coreAt t r.src).ch.inbox = (coreAt s r.src).ch.inbox ++ [(r.sep, ack)] ∧ cType ack = 7 ∧ cPay ack 6 1 = 5))
            ∧ (l.st ≠ 2 → t.fab.col = rest ∧ t.out = s.out ∧ lpAt t n = l ∧ (if s.cmt.voted then bbit t.cmt.srcNext 5 else bbit t.cmt.src 5) = true)))
  ∧ (∀ (die region off rows dmod : Nat) (s : State), die < 2 →
      (s.clk.run = true → exec (.externTransfer die region off rows dmod) s = .next { s with host := { s.host with ext := s.host.ext ++ [(die, region, off, rows, dmod % 65536)] } })
      ∧ (s.clk.run = false → ∃ t, exec (.externTransfer die region off rows dmod) s = .next t
        ∧ t.fab.col = s.fab.col ++ ((externCells s die region off rows (dmod % 65536)).map fun c =>
            ⟨s.clk.now + 8, .stop (stopKey die 5 0) 2, { cell := c, src := 0xFE + die, vc := 0 }⟩) ∧ Upd [.fab] [] none s t
        ∧ ∀ d, regionAt s region = some d → (d.kind = 1 ∨ d.kind = 2) → off + 128 * rows ≤ d.size →
            ((externCells s die region off rows (dmod % 65536)).flatMap fun c => (cBytes c).take (cValid c))
              = (List.range (128 * rows)).map fun a => committedByte s region d (off + a)))
  ∧ (∀ (die src : Nat) (c : FCell) (s : State), die < 2 →
      let takes := cType c = 14 ∧ cValid c ≠ 0 ∧ externOk src c = true ∧ s.clk.run = true
      ∃ t, exec (.externArrival die src c) s = .next t ∧ mget [] t.fab.svc die = (mget [] s.fab.svc die).erase c ∧ Upd [.fab, .cmt] [] none s t
        ∧ (¬ takes → t.cmt = s.cmt)
        ∧ (takes → t.cmt = { s.cmt with jnl := s.cmt.jnl.map fun e =>
            if e.die = die ∧ e.slot = s.clk.num then { e with pkts := e.pkts ++ [((cBytes c).take (cValid c), true)] } else e }))
  ∧ ∀ s : State, (8 ≤ s.pwr.spares → exec .saddleSpareLane s = .next s)
      ∧ (s.pwr.spares < 8 → ∃ t, exec .saddleSpareLane s = .next t ∧ t.pwr = { s.pwr with spares := s.pwr.spares + 1 }
        ∧ bbit (regAt t (sdlPage + 0x10)) 0 = true ∧ Upd [.pwr, .regs, .host] [] none s t)


/-! ### Registers and interrupts -/
/-- After boot a write to a slot that holds no page does nothing; one by a port that may not write the offset is refused with cause 2;
port B's write of an offset that port A writes in the same lc is dropped and counted in HOST_COLLIDE. An unpaired register without a rule
of its own takes its RW fields and clears its W1C bits, but those that hardware sets in the same lc; reserved bits written 1 are recorded
as cause 4 beside that, a locked page keeps its RW fields and records cause 5, a value out of range changes nothing and records cause 9.
IRQ_EN owes a message where it enables a bit already set. TCK_PERIOD takes 10 to 100,000 us while ticks stop, else the write is refused. A
half of a pair waits; halves that disagree are both dropped with cause 3; an agreeing pair of PAGE_CTL sets the lock. A 32-bit write to
BAR4 is discarded with an error. A read returns the register, its twin the complement, clears the RC fields it returns, and of two ports'
reads of them in one lc port A's gets them; a read of CORE_PCNT_LO latches the high half. A page that owes a message sends it to the
owner's vector 0, at most one a microsecond for all pages. (R13,  R315,  R317,  R436,  R440,  R441,  R442,  R443,  R444,  R446) -/
def Obligations.RegistersAnswerHosts : Prop :=
  (∀ (port : Port) (a : Nat) (v : W32) (s : State), s.pwr.stage = 9 → a < 0x3E00000 → a % 4 = 0 →
    let w := v.toNat
    let cmd := Instr.registerWrite port 0 a v
    let b := a / 0x1000 * 0x1000
    let twice := port = .b ∧ s.host.wroteAt = s.clk.now ∧ a ∈ s.host.wrote
    (pageFam (a / 0x1000) = none → exec cmd s = .next s)
    ∧ ∀ f inst, pageFam (a / 0x1000) = some (f, inst) →
      let o := a % 0x1000
      let l := famFlds f o
      let reserved := w &&& resMask l
      let hw := mget 0 s.host.hw a
      let held := locked s a = true ∧ (∃ x ∈ l, x.acc = .rw ∨ x.acc = .pw) ∧ o ≠ 8
      let goes := fun (P : State → Prop) => ∃ t, exec cmd s = .next t ∧ P t
      let counted := fun (t : State) (cause : Nat) => fieldAt t (b + 0x1C) 0 32 = satAdd 32 (fieldAt s (b + 0x1C) 0 32) 1
        ∧ (bbit (regAt s (b + 0x18)) 31 = false → regAt t (b + 0x18) = o + cause * 2 ^ 12 + portIdx port * 2 ^ 16 + 2 ^ 31)
      (mayWrite s port a = false → exec cmd s = .next (refuseWrite port a 2 s))
      ∧ (mayWrite s port a = true → twice → goes (fun t => fieldAt t 0x70 0 16 = satAdd 16 (fieldAt s 0x70 0 16) 1
          ∧ (bbit (regAt s 0x70) 31 = false → regAt t 0x74 = a ∧ bbit (regAt t 0x70) 31 = true)
          ∧ (∀ x, x ≠ 0x70 → x ≠ 0x74 → regAt t x = regAt s x) ∧ Upd [.regs, .host] [] none s t))
      ∧ (mayWrite s port a = true → ¬ twice → o < 0x800 → l ≠ [] → (∀ x ∈ l, x.acc ≠ .pw) →
          (f = .core ∨ f = .dale ∨ f = .hbm ∨ f = .sdl ∨ o < 0x20) → o ≠ 0x14 → ¬ (f = .core ∧ o = 0xC0) →
          let bad := f = .core ∧ o = 0xA0 ∧ 319 < bfield w 0 9
          (bad → goes (fun t => counted t 9 ∧ (a ≠ b + 0x18 → a ≠ b + 0x1C → regAt t a = regAt s a) ∧ Upd [.regs, .host] [] none s t))
          ∧ (¬ bad → ¬ held → reserved = 0 → goes (fun t => regAt t a = putWord false l hw w (regAt s a) ∧ (∀ x, x ≠ a → regAt t x = regAt s x)
              ∧ Upd [.regs, .host] [] none s t))
          ∧ (¬ bad → ¬ held → reserved ≠ 0 → a ≠ b + 0x18 → a ≠ b + 0x1C → goes (fun t => regAt t a = putWord false l hw w (regAt s a) ∧ counted t 4
              ∧ Upd [.regs, .host] [] none s t))
          ∧ (¬ bad → held → reserved = 0 → a ≠ b + 0x18 → a ≠ b + 0x1C → goes (fun t => regAt t a = putWord true l hw w (regAt s a) ∧ counted t 5
              ∧ Upd [.regs, .host] [] none s t)))
      ∧ (mayWrite s port a = true → ¬ twice → o = 0x10 → goes (fun t => regAt t a = regAt s a &&& (2 ^ 32 - 1 - w ||| hw % 2 ^ 32) ∧ Upd [.regs, .host] [] none s t))
      ∧ (mayWrite s port a = true → ¬ twice → o = 0x14 → locked s a = false → goes (fun t => regAt t a = w ∧ (∀ x, x ≠ a → regAt t x = regAt s x)
          ∧ (w &&& (2 ^ 32 - 1 - regAt s a) &&& regAt s (b + 0x10) ≠ 0 → s.host.owner ≠ none → a / 0x1000 ∈ t.host.irqOwed)
          ∧ (w &&& (2 ^ 32 - 1 - regAt s a) &&& regAt s (b + 0x10) = 0 → t.host.irqOwed = s.host.irqOwed) ∧ Upd [.regs, .host] [] none s t))
      ∧ (mayWrite s port a = true → ¬ twice → o < 0x800 → (∃ x ∈ l, x.acc = .pw) →
          (halfAt s port (a + 0x800) = none → goes (fun t => halfAt t port a = some w ∧ t.regs = s.regs ∧ Upd [.host] [] none s t))
          ∧ (∀ u, halfAt s port (a + 0x800) = some u → (w ^^^ u) &&& pairMask l ≠ pairMask l → goes (fun t => halfAt t port a = none
              ∧ halfAt t port (a + 0x800) = none ∧ counted t 3 ∧ (∀ x, x ≠ b + 0x18 → x ≠ b + 0x1C → regAt t x = regAt s x) ∧ Upd [.regs, .host] [] none s t))
          ∧ (∀ u, o = 8 → halfAt s port (a + 0x800) = some u → bbit w 0 ≠ bbit u 0 → w < 2 → goes (fun t => fieldAt t a 0 1 = w
              ∧ halfAt t port a = none ∧ halfAt t port (a + 0x800) = none ∧ (∀ x, x ≠ a → regAt t x = regAt s x) ∧ Upd [.regs, .host] [] none s t)))
      ∧ (mayWrite s port a = true → ¬ twice → a = 0x2020 → locked s a = false → w < 2 ^ 17 →
          (s.clk.run = true → goes (fun t => regAt t a = regAt s a ∧ counted t 1 ∧ Upd [.regs, .host] [] none s t))
          ∧ (s.clk.run = false → (w < 10 ∨ 100000 < w) → goes (fun t => regAt t a = regAt s a ∧ counted t 9 ∧ Upd [.regs, .host] [] none s t))
          ∧ (s.clk.run = false → 10 ≤ w → w ≤ 100000 → goes (fun t => fieldAt t a 0 17 = w ∧ (∀ x, x ≠ a → regAt t x = regAt s x)
              ∧ Upd [.regs, .host] [] none s t))))
  ∧ (∀ (port : Port) (off : Nat) (v : W32) (s : State), off < 0x800000 → exec (.registerWrite port 4 off v) s = .next { s with out := s.out ++ [.aer port] })
  ∧ (∀ (port : Port) (n : Nat) (v : W32) (s : State), n < 256 → s.pwr.stage = 9 → ∃ t, exec (.registerWrite port 2 (0x800000 + 8 * n) v) s = .next t
      ∧ mget 0 (hpAt t port).mbox n = BitVec.ofNat 64 (bput (mget (0 : W64) (hpAt s port).mbox n).toNat 0 32 v.toNat)
      ∧ (∀ m, m ≠ n → mget 0 (hpAt t port).mbox m = mget 0 (hpAt s port).mbox m) ∧ hpAt t (portOther port) = hpAt s (portOther port) ∧ Upd [.host] [] none s t)
  ∧ (∀ (port : Port) (bar a : Nat) (s : State), a % 4 = 0 → (bar = 0 ∧ a < 0x4000000 ∨ bar = 2 ∧ a < 0x1000000 ∨ bar = 4 ∧ a < 0x800000) →
      let goes := fun (P : State → Nat → Prop) => ∃ t v, exec (.readClear port bar a) s = .next t ∧ (hpAt t port).rdata = some (a, BitVec.ofNat 32 v) ∧ P t v
        ∧ Upd [.regs, .cores, .host] [.pc] none s t
      let served := s.pwr.stage = 9 ∨ bar = 0 ∧ (0x3E00000 ≤ a ∧ s.pwr.stage = 0xF ∧ port = .a ∨ a < 0x1000 ∧ s.pwr.stage ≠ 0 ∧ (s.pwr.stage ≠ 0xF ∨ port = .a))
      let m := rcMask (bar0Flds a)
      let asked := fun (q : Port) => s.host.rcRead.find? fun x => decide (x.1 = q ∧ x.2.1 = a)
      let now := peek s port bar a
      (served → (bar = 0 → m ≠ 0 → asked (portOther port) = none) → goes (fun t v => v = now ∧ hpAt t (portOther port) = hpAt s (portOther port)
        ∧ (bar = 0 → regAt t a = regAt s a &&& (2 ^ 32 - 1 - m)) ∧ (∀ x, (bar = 0 → x ≠ a) → regAt t x = regAt s x)
        ∧ (bar = 0 → a < 0x3E00000 → a % 0x1000 < 0x800 → (∃ x ∈ bar0Flds a, x.acc = .pw) → peek s port 0 (a + 0x800) = 2 ^ 32 - 1 - v % 2 ^ 32)
        ∧ (bar = 0 → a = 0x2044 → bfield v 0 1 = b2n s.clk.run ∧ bfield v 3 1 = b2n s.clk.tickLost ∧ bfield v 8 3 = s.clk.fop % 8)
        ∧ (∀ p, p < 192 → bar = 0 → a = corePage p + 0xC8 → bfield (coreAt t p).pc.hi 0 16
              = bfield (mget 0 (coreAt s p).pc.pub (fieldAt s (corePage p + 0xC4) 0 4)) 32 16 ∧ (coreAt t p).pc.pub = (coreAt s p).pc.pub)))
      ∧ (∀ x, served → bar = 0 → m ≠ 0 → port = .a → asked .b = some x → goes (fun t v => v = (now &&& (2 ^ 32 - 1 - m)) ||| x.2.2 ∧ t.regs = s.regs
          ∧ ∀ y w, (hpAt s .b).rdata = some (y, w) → y / 4 * 4 = a → (hpAt t .b).rdata = some (y, w &&& BitVec.ofNat 32 (2 ^ 32 - 1 - m))))
      ∧ (served → bar = 0 → m ≠ 0 → port = .b → asked .a ≠ none → goes (fun t v => v = now &&& (2 ^ 32 - 1 - m) ∧ t.regs = s.regs ∧ hpAt t .a = hpAt s .a))
      ∧ (¬ served → goes (fun t v => v = 0 ∧ t.regs = s.regs ∧ t.cores = s.cores)))
  ∧ ∀ (page : Nat) (s : State), page < 512 →
      let free := ∀ w, s.host.irqWall = some w → w + wallUs ≤ s.clk.wall
      (∀ p, s.host.owner = some p → page ∈ s.host.irqOwed → free → exec (.irqMessage page) s = .next { s with
        host := { s.host with irqOwed := [], irqWall := some s.clk.wall }, out := s.out ++ [.msix p 0] })
      ∧ ((s.host.owner = none ∨ page ∉ s.host.irqOwed ∨ ¬ free) → exec (.irqMessage page) s = .next s)


/-! ### Memory and reset -/
/-- Whatever the command, a step from a state whose HBM bytes are in canonical form, addresses rising and no byte listed at the value an
unlisted address reads as, answers a state whose HBM bytes are in that form. The list is the model's own (notes/assumptions/3.md). (R234,
R238,  R239,  R366) -/
def Obligations.HbmMemoryCanonical : Prop :=
  ∀ s t : State, Sys2Proof.Machine.step s = .next t → Memory.wf s.hbm.mem = true → Memory.wf t.hbm.mem = true

/-- In the reset state the memories are in canonical form and list nothing, ticks stop, no task or phase is loaded, no port owns
management or is up, no page owes an interrupt, the queue is empty, every core is halted with no logical index and no open endpoint, the
commit state is RUNNING, and the register file reads as the tables' reset values: a tick period of 250 us, a guard of 30 and a reserve of
10 per mille, a commit zone of 4,000 lc, and TICK_IN as the primary source. What the manual gives no reset value for is the model's choice
(notes/assumptions/4.md). (R13,  R42,  R404) -/
def Obligations.ResetState : Prop :=
  let s := Sys2Proof.Machine.State.reset
  Memory.wf s.hbm.mem = true ∧ s.hbm.mem = [] ∧ s.pending = [] ∧ s.clk.run = false ∧ s.clk.starting = false ∧ s.clk.named = none
  ∧ s.task.img = none ∧ s.phase.st = 0 ∧ s.host.owner = none ∧ (hpAt s .a).up = false ∧ (hpAt s .b).up = false ∧ s.host.irqOwed = [] ∧ s.out = []
  ∧ s.cmt.st = 0 ∧ s.cmt.inDoubt = false ∧ s.regs = []
  ∧ (∀ p, (coreAt s p).mode = .halt ∧ (coreAt s p).lidx = 0xFF ∧ Memory.wf (coreAt s p).bsn.mem = true ∧ ∀ e, (epAt (coreAt s p) e).st = 0)
  ∧ fieldAt s 0x2020 0 17 = 250 ∧ fieldAt s 0x2028 0 7 = 30 ∧ fieldAt s 0x2028 7 7 = 10 ∧ fieldAt s 0x2028 16 16 = 4000 ∧ fieldAt s 0x2024 0 5 = 31
end

