-- ==== Sys2Proof/Laws/State.lean ====
section
/-! SUPPORT. Rules of the relation `Upd` between a state and a later one that differs from it in named fields only, and the named operations over the state's parts, one lemma per field. -/
namespace Sys2Proof.Machine
set_option linter.all false


/-! ### Rules of the relations -/

theorem SFld.not_of_sub {a b : List SFld} (h : SFld.sub a b = true) (x : SFld) (hx : b.contains x = false) : a.contains x = false := by
  cases ha : a.contains x with
  | false => rfl
  | true =>
    have := List.all_eq_true.mp h x (List.contains_iff_mem.mp ha)
    rw [this] at hx; cases hx

theorem SFld.sub_trans {a b c : List SFld} (h : SFld.sub a b = true) (g : SFld.sub b c = true) : SFld.sub a c = true :=
  List.all_eq_true.mpr fun x hx => List.all_eq_true.mp g x (List.contains_iff_mem.mp (List.all_eq_true.mp h x hx))

theorem CFld.sub_trans {a b c : List CFld} (h : CFld.sub a b = true) (g : CFld.sub b c = true) : CFld.sub a c = true :=
  List.all_eq_true.mpr fun x hx => List.all_eq_true.mp g x (List.contains_iff_mem.mp (List.all_eq_true.mp h x hx))

theorem CFld.sub_refl (a : List CFld) : CFld.sub a a = true :=
  List.all_eq_true.mpr fun _ h => List.contains_iff_mem.mpr h

theorem CFld.not_of_sub {a b : List CFld} (h : CFld.sub a b = true) (x : CFld) (hx : b.contains x = false) : a.contains x = false := by
  cases ha : a.contains x with
  | false => rfl
  | true =>
    have := List.all_eq_true.mp h x (List.contains_iff_mem.mp ha)
    rw [this] at hx; cases hx

theorem CUpd.refl (D : List CFld) (c : Core) : CUpd D c c := by constructor <;> intro _ <;> rfl

theorem CUpd.trans {D : List CFld} {a b c : Core} (h : CUpd D a b) (g : CUpd D b c) : CUpd D a c :=
  ⟨fun x => (g.mode x).trans (h.mode x), fun x => (g.modeNext x).trans (h.modeNext x), fun x => (g.fenced x).trans (h.fenced x),
   fun x => (g.stale x).trans (h.stale x), fun x => (g.lidx x).trans (h.lidx x), fun x => (g.k x).trans (h.k x),
   fun x => (g.task x).trans (h.task x), fun x => (g.modIdx x).trans (h.modIdx x), fun x => (g.q x).trans (h.q x),
   fun x => (g.busy x).trans (h.busy x), fun x => (g.started x).trans (h.started x), fun x => (g.came x).trans (h.came x),
   fun x => (g.sigs x).trans (h.sigs x), fun x => (g.job x).trans (h.job x), fun x => (g.obj x).trans (h.obj x),
   fun x => (g.adds x).trans (h.adds x), fun x => (g.takes x).trans (h.takes x), fun x => (g.pubObj x).trans (h.pubObj x),
   fun x => (g.pubEp x).trans (h.pubEp x), fun x => (g.pubEpoch x).trans (h.pubEpoch x), fun x => (g.pubFord x).trans (h.pubFord x),
   fun x => (g.rst x).trans (h.rst x), fun x => (g.fe x).trans (h.fe x), fun x => (g.bsn x).trans (h.bsn x),
   fun x => (g.mx x).trans (h.mx x), fun x => (g.pu x).trans (h.pu x), fun x => (g.vx x).trans (h.vx x), fun x => (g.ch x).trans (h.ch x),
   fun x => (g.th x).trans (h.th x), fun x => (g.pc x).trans (h.pc x), fun x => (g.vlog x).trans (h.vlog x),
   fun x => (g.vold x).trans (h.vold x), fun x => (g.issue x).trans (h.issue x)⟩

theorem CUpd.mono {D E : List CFld} {a b : Core} (h : CUpd D a b) (s : CFld.sub D E = true) : CUpd E a b :=
  ⟨fun x => h.mode (CFld.not_of_sub s _ x), fun x => h.modeNext (CFld.not_of_sub s _ x), fun x => h.fenced (CFld.not_of_sub s _ x),
   fun x => h.stale (CFld.not_of_sub s _ x), fun x => h.lidx (CFld.not_of_sub s _ x), fun x => h.k (CFld.not_of_sub s _ x),
   fun x => h.task (CFld.not_of_sub s _ x), fun x => h.modIdx (CFld.not_of_sub s _ x), fun x => h.q (CFld.not_of_sub s _ x),
   fun x => h.busy (CFld.not_of_sub s _ x), fun x => h.started (CFld.not_of_sub s _ x), fun x => h.came (CFld.not_of_sub s _ x),
   fun x => h.sigs (CFld.not_of_sub s _ x), fun x => h.job (CFld.not_of_sub s _ x), fun x => h.obj (CFld.not_of_sub s _ x),
   fun x => h.adds (CFld.not_of_sub s _ x), fun x => h.takes (CFld.not_of_sub s _ x), fun x => h.pubObj (CFld.not_of_sub s _ x),
   fun x => h.pubEp (CFld.not_of_sub s _ x), fun x => h.pubEpoch (CFld.not_of_sub s _ x), fun x => h.pubFord (CFld.not_of_sub s _ x),
   fun x => h.rst (CFld.not_of_sub s _ x), fun x => h.fe (CFld.not_of_sub s _ x), fun x => h.bsn (CFld.not_of_sub s _ x),
   fun x => h.mx (CFld.not_of_sub s _ x), fun x => h.pu (CFld.not_of_sub s _ x), fun x => h.vx (CFld.not_of_sub s _ x),
   fun x => h.ch (CFld.not_of_sub s _ x), fun x => h.th (CFld.not_of_sub s _ x), fun x => h.pc (CFld.not_of_sub s _ x),
   fun x => h.vlog (CFld.not_of_sub s _ x), fun x => h.vold (CFld.not_of_sub s _ x), fun x => h.issue (CFld.not_of_sub s _ x)⟩

/-- One more change of a core, whose footprint is within the one asked for. -/
theorem CUpd.step {D E : List CFld} {a b c : Core} (g : CUpd D b c) (hD : CFld.sub D E = true) (h : CUpd E a b) : CUpd E a c := h.trans (g.mono hD)

theorem CUpd.ite {D : List CFld} {a b c : Core} {x : Prop} [Decidable x] (h : x → CUpd D a b) (g : ¬ x → CUpd D a c) : CUpd D a (if x then b else c) := by
  split <;> rename_i z; exact h z; exact g z

theorem CUpd.foldl {α : Type} {D : List CFld} {g : Core → α → Core} (hg : ∀ c x, CUpd D c (g c x)) : ∀ (l : List α) (b : Core), CUpd D b (l.foldl g b)
  | [], b => CUpd.refl D b
  | x :: l, b => (hg b x).trans (CUpd.foldl hg l (g b x))

theorem CUpd.foldN {D : List CFld} {g : Core → Nat → Core} (n : Nat) (hg : ∀ c x, CUpd D c (g c x)) (b : Core) : CUpd D b (Machine.foldN n g b) :=
  CUpd.foldl hg _ b

theorem Upd.refl (F : List SFld) (D : List CFld) (o : Option Nat) (s : State) : Upd F D o s s :=
  ⟨fun _ => rfl, fun _ => rfl, fun _ => rfl, fun _ => rfl, fun _ => rfl, fun _ => rfl, fun _ => rfl, fun _ => rfl, fun _ => rfl,
   fun _ => rfl, fun _ => rfl, fun _ => rfl, fun _ => rfl, fun _ => rfl, fun _ => rfl, fun _ => rfl, fun _ => rfl, fun _ => rfl,
   fun _ => rfl, fun _ => CUpd.refl D _, fun _ _ _ _ => rfl⟩

theorem Upd.trans {F : List SFld} {D : List CFld} {o : Option Nat} {a b c : State} (h : Upd F D o a b) (g : Upd F D o b c) : Upd F D o a c :=
  ⟨fun x => (g.pending x).trans (h.pending x), fun x => (g.regs x).trans (h.regs x), fun x => (g.evts x).trans (h.evts x),
   fun x => (g.cores x).trans (h.cores x), fun x => (g.dales x).trans (h.dales x), fun x => (g.holds x).trans (h.holds x),
   fun x => (g.clk x).trans (h.clk x), fun x => (g.task x).trans (h.task x), fun x => (g.phase x).trans (h.phase x),
   fun x => (g.hbm x).trans (h.hbm x), fun x => (g.cmt x).trans (h.cmt x), fun x => (g.host x).trans (h.host x),
   fun x => (g.fab x).trans (h.fab x), fun x => (g.sec x).trans (h.sec x), fun x => (g.trc x).trans (h.trc x),
   fun x => (g.pwr x).trans (h.pwr x), fun x => (g.ctl x).trans (h.ctl x), fun x => (g.fresh x).trans (h.fresh x),
   fun x => (g.out x).trans (h.out x), fun q => (h.core q).trans (g.core q), fun p q e n => (g.other p q e n).trans (h.other p q e n)⟩

/-- A footprint may be stated wider. -/
theorem Upd.mono {F G : List SFld} {D E : List CFld} {o k : Option Nat} {a b : State} (h : Upd F D o a b) (hF : SFld.sub F G = true)
    (hD : CFld.sub D E = true) (ho : k = none ∨ k = o) : Upd G E k a b :=
  ⟨fun x => h.pending (SFld.not_of_sub hF _ x), fun x => h.regs (SFld.not_of_sub hF _ x), fun x => h.evts (SFld.not_of_sub hF _ x),
   fun x => h.cores (SFld.not_of_sub hF _ x), fun x => h.dales (SFld.not_of_sub hF _ x), fun x => h.holds (SFld.not_of_sub hF _ x),
   fun x => h.clk (SFld.not_of_sub hF _ x), fun x => h.task (SFld.not_of_sub hF _ x), fun x => h.phase (SFld.not_of_sub hF _ x),
   fun x => h.hbm (SFld.not_of_sub hF _ x), fun x => h.cmt (SFld.not_of_sub hF _ x), fun x => h.host (SFld.not_of_sub hF _ x),
   fun x => h.fab (SFld.not_of_sub hF _ x), fun x => h.sec (SFld.not_of_sub hF _ x), fun x => h.trc (SFld.not_of_sub hF _ x),
   fun x => h.pwr (SFld.not_of_sub hF _ x), fun x => h.ctl (SFld.not_of_sub hF _ x), fun x => h.fresh (SFld.not_of_sub hF _ x),
   fun x => h.out (SFld.not_of_sub hF _ x), fun q => (h.core q).mono hD,
   fun p q e n => by
      cases ho with
      | inl z => rw [z] at e; cases e
      | inr z => exact h.other p q (z ▸ e) n⟩

/-- One more operation, whose own footprint is within the one asked for. -/
theorem Upd.step {F G : List SFld} {D E : List CFld} {o k : Option Nat} {a b c : State} (g : Upd F D o b c) (hF : SFld.sub F G = true)
    (hD : CFld.sub D E = true) (ho : k = none ∨ k = o) (h : Upd G E k a b) : Upd G E k a c := h.trans (g.mono hF hD ho)

theorem Upd.step' {F G : List SFld} {D E : List CFld} {k : Option Nat} {a b c : State} (g : Upd F D k b c) (hF : SFld.sub F G = true)
    (hD : CFld.sub D E = true) (h : Upd G E k a b) : Upd G E k a c := h.trans (g.mono hF hD (.inr rfl))

theorem Upd.of_eq {F : List SFld} {D : List CFld} {o : Option Nat} {a b c : State} (e : c = b) (h : Upd F D o a b) : Upd F D o a c := e ▸ h
theorem Upd.of_fst {α : Type} {F : List SFld} {D : List CFld} {o : Option Nat} {a b : State} {x : State × α} {y : α} (e : x = (b, y))
    (h : Upd F D o a x.1) : Upd F D o a b := by subst e; exact h
theorem Upd.of_snd {α : Type} {F : List SFld} {D : List CFld} {o : Option Nat} {a b : State} {x : α × State} {y : α} (e : x = (y, b))
    (h : Upd F D o a x.2) : Upd F D o a b := by subst e; exact h

theorem Upd.of_snd2 {α β : Type} {F : List SFld} {D : List CFld} {o : Option Nat} {a b : State} {x : α × β × State} {y : α} {z : β}
    (e : x = (y, z, b)) (h : Upd F D o a x.2.2) : Upd F D o a b := by subst e; exact h

/-- Any fields but the cores are replaced. -/
theorem Upd.set {F : List SFld} {D : List CFld} {o : Option Nat} {a b : State}
    {x0 : List Instr} {x1 : SMap W32} {x2 : List Evt} {x4 : SMap Dale} {x5 : List HoldRt} {x6 : Clk} {x7 : Task} {x8 : Phase} {x9 : Hbm}
    {x10 : Cmt} {x11 : HostS} {x12 : Fab} {x13 : Sec} {x14 : Trc} {x15 : Pwr} {x16 : Ctl} {x17 : Nat} {x18 : List Out}
    (hpending : F.contains .pending = true ∨ x0 = b.pending) (hregs : F.contains .regs = true ∨ x1 = b.regs)
    (hevts : F.contains .evts = true ∨ x2 = b.evts) (hdales : F.contains .dales = true ∨ x4 = b.dales)
    (hholds : F.contains .holds = true ∨ x5 = b.holds) (hclk : F.contains .clk = true ∨ x6 = b.clk)
    (htask : F.contains .task = true ∨ x7 = b.task) (hphase : F.contains .phase = true ∨ x8 = b.phase)
    (hhbm : F.contains .hbm = true ∨ x9 = b.hbm) (hcmt : F.contains .cmt = true ∨ x10 = b.cmt)
    (hhost : F.contains .host = true ∨ x11 = b.host) (hfab : F.contains .fab = true ∨ x12 = b.fab)
    (hsec : F.contains .sec = true ∨ x13 = b.sec) (htrc : F.contains .trc = true ∨ x14 = b.trc)
    (hpwr : F.contains .pwr = true ∨ x15 = b.pwr) (hctl : F.contains .ctl = true ∨ x16 = b.ctl)
    (hfresh : F.contains .fresh = true ∨ x17 = b.fresh) (hout : F.contains .out = true ∨ x18 = b.out)
    (h : Upd F D o a b) : Upd F D o a (State.mk x0 x1 x2 b.cores x4 x5 x6 x7 x8 x9 x10 x11 x12 x13 x14 x15 x16 x17 x18) := by
  refine h.trans ⟨fun z => hpending.elim (fun y => by rw [y] at z; cases z) id, fun z => hregs.elim (fun y => by rw [y] at z; cases z) id,
   fun z => hevts.elim (fun y => by rw [y] at z; cases z) id, fun _ => rfl, fun z => hdales.elim (fun y => by rw [y] at z; cases z) id,
   fun z => hholds.elim (fun y => by rw [y] at z; cases z) id, fun z => hclk.elim (fun y => by rw [y] at z; cases z) id,
   fun z => htask.elim (fun y => by rw [y] at z; cases z) id, fun z => hphase.elim (fun y => by rw [y] at z; cases z) id,
   fun z => hhbm.elim (fun y => by rw [y] at z; cases z) id, fun z => hcmt.elim (fun y => by rw [y] at z; cases z) id,
   fun z => hhost.elim (fun y => by rw [y] at z; cases z) id, fun z => hfab.elim (fun y => by rw [y] at z; cases z) id,
   fun z => hsec.elim (fun y => by rw [y] at z; cases z) id, fun z => htrc.elim (fun y => by rw [y] at z; cases z) id,
   fun z => hpwr.elim (fun y => by rw [y] at z; cases z) id, fun z => hctl.elim (fun y => by rw [y] at z; cases z) id,
   fun z => hfresh.elim (fun y => by rw [y] at z; cases z) id, fun z => hout.elim (fun y => by rw [y] at z; cases z) id,
   fun q => CUpd.refl D _, fun _ _ _ _ => rfl⟩

theorem mget_map_upd {D : List CFld} {g : Nat × Core → Nat × Core} (hk : ∀ c, (g c).1 = c.1) (hg : ∀ c, CUpd D c.2 (g c).2) :
    ∀ (m : SMap Core) (q : Nat), CUpd D (mget {} m q) (mget {} (m.map g) q)
  | [], _ => CUpd.refl _ _
  | (k, v) :: t, q => by
    have h1 := hk (k, v)
    have h2 := hg (k, v)
    cases e : g (k, v) with
    | mk a b =>
      rw [e] at h1 h2
      subst h1
      simp only [List.map_cons, e, mget]
      split
      · exact h2
      · exact mget_map_upd hk hg t q

/-- Every core is changed alike, in some of its fields. -/
theorem Upd.setMap {F : List SFld} {D : List CFld} {a b : State}
    {x1 : SMap W32} {x2 : List Evt} {g : Nat × Core → Nat × Core} {x4 : SMap Dale} {x5 : List HoldRt} {x6 : Clk} {x7 : Task} {x8 : Phase} {x9 : Hbm}
    {x10 : Cmt} {x11 : HostS} {x12 : Fab} {x13 : Sec} {x14 : Trc} {x15 : Pwr} {x16 : Ctl} {x17 : Nat} {x18 : List Out}
    (hcores : F.contains .cores = true) (hk : ∀ c, (g c).1 = c.1) (hg : ∀ c, CUpd D c.2 (g c).2)
    (hregs : F.contains .regs = true ∨ x1 = b.regs) (hevts : F.contains .evts = true ∨ x2 = b.evts)
    (hdales : F.contains .dales = true ∨ x4 = b.dales) (hholds : F.contains .holds = true ∨ x5 = b.holds)
    (hclk : F.contains .clk = true ∨ x6 = b.clk) (htask : F.contains .task = true ∨ x7 = b.task)
    (hphase : F.contains .phase = true ∨ x8 = b.phase) (hhbm : F.contains .hbm = true ∨ x9 = b.hbm)
    (hcmt : F.contains .cmt = true ∨ x10 = b.cmt) (hhost : F.contains .host = true ∨ x11 = b.host)
    (hfab : F.contains .fab = true ∨ x12 = b.fab) (hsec : F.contains .sec = true ∨ x13 = b.sec)
    (htrc : F.contains .trc = true ∨ x14 = b.trc) (hpwr : F.contains .pwr = true ∨ x15 = b.pwr)
    (hctl : F.contains .ctl = true ∨ x16 = b.ctl) (hfresh : F.contains .fresh = true ∨ x17 = b.fresh)
    (hout : F.contains .out = true ∨ x18 = b.out)
    (h : Upd F D none a b) : Upd F D none a (State.mk b.pending x1 x2 (b.cores.map g) x4 x5 x6 x7 x8 x9 x10 x11 x12 x13 x14 x15 x16 x17 x18) := by
  refine h.trans ⟨fun _ => rfl, fun z => hregs.elim (fun y => by rw [y] at z; cases z) id, fun z => hevts.elim (fun y => by rw [y] at z; cases z) id,
   (fun z => by rw [hcores] at z; cases z), fun z => hdales.elim (fun y => by rw [y] at z; cases z) id,
   fun z => hholds.elim (fun y => by rw [y] at z; cases z) id, fun z => hclk.elim (fun y => by rw [y] at z; cases z) id,
   fun z => htask.elim (fun y => by rw [y] at z; cases z) id, fun z => hphase.elim (fun y => by rw [y] at z; cases z) id,
   fun z => hhbm.elim (fun y => by rw [y] at z; cases z) id, fun z => hcmt.elim (fun y => by rw [y] at z; cases z) id,
   fun z => hhost.elim (fun y => by rw [y] at z; cases z) id, fun z => hfab.elim (fun y => by rw [y] at z; cases z) id,
   fun z => hsec.elim (fun y => by rw [y] at z; cases z) id, fun z => htrc.elim (fun y => by rw [y] at z; cases z) id,
   fun z => hpwr.elim (fun y => by rw [y] at z; cases z) id, fun z => hctl.elim (fun y => by rw [y] at z; cases z) id,
   fun z => hfresh.elim (fun y => by rw [y] at z; cases z) id, fun z => hout.elim (fun y => by rw [y] at z; cases z) id,
   fun q => mget_map_upd hk hg _ q,
   fun _ _ e _ => by cases e⟩

/-- Cores too are replaced in any way. -/
theorem Upd.setAll {F : List SFld} {D : List CFld} {a b : State}
    {x1 : SMap W32} {x2 : List Evt} {x3 : SMap Core} {x4 : SMap Dale} {x5 : List HoldRt} {x6 : Clk} {x7 : Task} {x8 : Phase} {x9 : Hbm}
    {x10 : Cmt} {x11 : HostS} {x12 : Fab} {x13 : Sec} {x14 : Trc} {x15 : Pwr} {x16 : Ctl} {x17 : Nat} {x18 : List Out}
    (hcores : F.contains .cores = true) (hD : ∀ x : CFld, D.contains x = true)
    (hregs : F.contains .regs = true ∨ x1 = b.regs) (hevts : F.contains .evts = true ∨ x2 = b.evts)
    (hdales : F.contains .dales = true ∨ x4 = b.dales) (hholds : F.contains .holds = true ∨ x5 = b.holds)
    (hclk : F.contains .clk = true ∨ x6 = b.clk) (htask : F.contains .task = true ∨ x7 = b.task)
    (hphase : F.contains .phase = true ∨ x8 = b.phase) (hhbm : F.contains .hbm = true ∨ x9 = b.hbm)
    (hcmt : F.contains .cmt = true ∨ x10 = b.cmt) (hhost : F.contains .host = true ∨ x11 = b.host)
    (hfab : F.contains .fab = true ∨ x12 = b.fab) (hsec : F.contains .sec = true ∨ x13 = b.sec)
    (htrc : F.contains .trc = true ∨ x14 = b.trc) (hpwr : F.contains .pwr = true ∨ x15 = b.pwr)
    (hctl : F.contains .ctl = true ∨ x16 = b.ctl) (hfresh : F.contains .fresh = true ∨ x17 = b.fresh)
    (hout : F.contains .out = true ∨ x18 = b.out)
    (h : Upd F D none a b) : Upd F D none a (State.mk b.pending x1 x2 x3 x4 x5 x6 x7 x8 x9 x10 x11 x12 x13 x14 x15 x16 x17 x18) := by
  have no : ∀ {x : CFld}, D.contains x = false → False := fun {x} y => by rw [hD x] at y; cases y
  refine h.trans ⟨fun _ => rfl, fun z => hregs.elim (fun y => by rw [y] at z; cases z) id, fun z => hevts.elim (fun y => by rw [y] at z; cases z) id,
   (fun z => by rw [hcores] at z; cases z), fun z => hdales.elim (fun y => by rw [y] at z; cases z) id,
   fun z => hholds.elim (fun y => by rw [y] at z; cases z) id, fun z => hclk.elim (fun y => by rw [y] at z; cases z) id,
   fun z => htask.elim (fun y => by rw [y] at z; cases z) id, fun z => hphase.elim (fun y => by rw [y] at z; cases z) id,
   fun z => hhbm.elim (fun y => by rw [y] at z; cases z) id, fun z => hcmt.elim (fun y => by rw [y] at z; cases z) id,
   fun z => hhost.elim (fun y => by rw [y] at z; cases z) id, fun z => hfab.elim (fun y => by rw [y] at z; cases z) id,
   fun z => hsec.elim (fun y => by rw [y] at z; cases z) id, fun z => htrc.elim (fun y => by rw [y] at z; cases z) id,
   fun z => hpwr.elim (fun y => by rw [y] at z; cases z) id, fun z => hctl.elim (fun y => by rw [y] at z; cases z) id,
   fun z => hfresh.elim (fun y => by rw [y] at z; cases z) id, fun z => hout.elim (fun y => by rw [y] at z; cases z) id,
   fun q => by constructor <;> exact fun x => (no x).elim,
   fun _ _ e _ => by cases e⟩

/-- Any fields of a core are replaced. -/
theorem CUpd.set {D : List CFld} {c : Core}
    {y0 : CoreMode} {y1 : Option CoreMode} {y2 : Bool} {y3 : Bool} {y4 : Nat} {y5 : Nat} {y6 : Nat} {y7 : Nat} {y8 : SMap (List Ins)}
    {y9 : SMap Nat} {y10 : SMap Nat} {y11 : SMap Nat} {y12 : List Sig} {y13 : Jobs} {y14 : SMap Nat} {y15 : List (Nat × Nat)}
    {y16 : List (Nat × Nat)} {y17 : SMap Nat} {y18 : SMap Ep} {y19 : Nat} {y20 : List Nat} {y21 : Option Nat} {y22 : Fe} {y23 : Bsn}
    {y24 : Mx} {y25 : Pu} {y26 : Vx} {y27 : Ch} {y28 : Thr} {y29 : Pcnt} {y30 : List VEnt} {y31 : List VEnt} {y32 : Nat}
    (hmode : D.contains .mode = true ∨ y0 = c.mode) (hmodeNext : D.contains .modeNext = true ∨ y1 = c.modeNext)
    (hfenced : D.contains .fenced = true ∨ y2 = c.fenced) (hstale : D.contains .stale = true ∨ y3 = c.stale)
    (hlidx : D.contains .lidx = true ∨ y4 = c.lidx) (hk : D.contains .k = true ∨ y5 = c.k) (htask : D.contains .task = true ∨ y6 = c.task)
    (hmodIdx : D.contains .modIdx = true ∨ y7 = c.modIdx) (hq : D.contains .q = true ∨ y8 = c.q)
    (hbusy : D.contains .busy = true ∨ y9 = c.busy) (hstarted : D.contains .started = true ∨ y10 = c.started)
    (hcame : D.contains .came = true ∨ y11 = c.came) (hsigs : D.contains .sigs = true ∨ y12 = c.sigs)
    (hjob : D.contains .job = true ∨ y13 = c.job) (hobj : D.contains .obj = true ∨ y14 = c.obj)
    (hadds : D.contains .adds = true ∨ y15 = c.adds) (htakes : D.contains .takes = true ∨ y16 = c.takes)
    (hpubObj : D.contains .pubObj = true ∨ y17 = c.pubObj) (hpubEp : D.contains .pubEp = true ∨ y18 = c.pubEp)
    (hpubEpoch : D.contains .pubEpoch = true ∨ y19 = c.pubEpoch) (hpubFord : D.contains .pubFord = true ∨ y20 = c.pubFord)
    (hrst : D.contains .rst = true ∨ y21 = c.rst) (hfe : D.contains .fe = true ∨ y22 = c.fe) (hbsn : D.contains .bsn = true ∨ y23 = c.bsn)
    (hmx : D.contains .mx = true ∨ y24 = c.mx) (hpu : D.contains .pu = true ∨ y25 = c.pu) (hvx : D.contains .vx = true ∨ y26 = c.vx)
    (hch : D.contains .ch = true ∨ y27 = c.ch) (hth : D.contains .th = true ∨ y28 = c.th) (hpc : D.contains .pc = true ∨ y29 = c.pc)
    (hvlog : D.contains .vlog = true ∨ y30 = c.vlog) (hvold : D.contains .vold = true ∨ y31 = c.vold)
    (hissue : D.contains .issue = true ∨ y32 = c.issue)
    : CUpd D c (Core.mk y0 y1 y2 y3 y4 y5 y6 y7 y8 y9 y10 y11 y12 y13 y14 y15 y16 y17 y18 y19 y20 y21 y22 y23 y24 y25 y26 y27 y28 y29 y30 y31 y32) :=
  ⟨fun z => hmode.elim (fun y => by rw [y] at z; cases z) id, fun z => hmodeNext.elim (fun y => by rw [y] at z; cases z) id,
   fun z => hfenced.elim (fun y => by rw [y] at z; cases z) id, fun z => hstale.elim (fun y => by rw [y] at z; cases z) id,
   fun z => hlidx.elim (fun y => by rw [y] at z; cases z) id, fun z => hk.elim (fun y => by rw [y] at z; cases z) id,
   fun z => htask.elim (fun y => by rw [y] at z; cases z) id, fun z => hmodIdx.elim (fun y => by rw [y] at z; cases z) id,
   fun z => hq.elim (fun y => by rw [y] at z; cases z) id, fun z => hbusy.elim (fun y => by rw [y] at z; cases z) id,
   fun z => hstarted.elim (fun y => by rw [y] at z; cases z) id, fun z => hcame.elim (fun y => by rw [y] at z; cases z) id,
   fun z => hsigs.elim (fun y => by rw [y] at z; cases z) id, fun z => hjob.elim (fun y => by rw [y] at z; cases z) id,
   fun z => hobj.elim (fun y => by rw [y] at z; cases z) id, fun z => hadds.elim (fun y => by rw [y] at z; cases z) id,
   fun z => htakes.elim (fun y => by rw [y] at z; cases z) id, fun z => hpubObj.elim (fun y => by rw [y] at z; cases z) id,
   fun z => hpubEp.elim (fun y => by rw [y] at z; cases z) id, fun z => hpubEpoch.elim (fun y => by rw [y] at z; cases z) id,
   fun z => hpubFord.elim (fun y => by rw [y] at z; cases z) id, fun z => hrst.elim (fun y => by rw [y] at z; cases z) id,
   fun z => hfe.elim (fun y => by rw [y] at z; cases z) id, fun z => hbsn.elim (fun y => by rw [y] at z; cases z) id,
   fun z => hmx.elim (fun y => by rw [y] at z; cases z) id, fun z => hpu.elim (fun y => by rw [y] at z; cases z) id,
   fun z => hvx.elim (fun y => by rw [y] at z; cases z) id, fun z => hch.elim (fun y => by rw [y] at z; cases z) id,
   fun z => hth.elim (fun y => by rw [y] at z; cases z) id, fun z => hpc.elim (fun y => by rw [y] at z; cases z) id,
   fun z => hvlog.elim (fun y => by rw [y] at z; cases z) id, fun z => hvold.elim (fun y => by rw [y] at z; cases z) id,
   fun z => hissue.elim (fun y => by rw [y] at z; cases z) id⟩

theorem Upd.ite {F : List SFld} {D : List CFld} {o : Option Nat} {a b c : State} {x : Prop} [Decidable x] (h : x → Upd F D o a b)
    (g : ¬ x → Upd F D o a c) : Upd F D o a (if x then b else c) := by split <;> rename_i z; exact h z; exact g z

/-- A fold keeps what each of its steps keeps. -/
theorem Upd.foldl {α : Type} {F : List SFld} {D : List CFld} {o : Option Nat} {a : State} {g : State → α → State}
    (hg : ∀ t x, Upd F D o t (g t x)) : ∀ (l : List α) (b : State), Upd F D o a b → Upd F D o a (l.foldl g b)
  | [], _, h => h
  | x :: l, b, h => Upd.foldl hg l (g b x) (h.trans (hg b x))

theorem Upd.foldl_snd {α β : Type} {F : List SFld} {D : List CFld} {o : Option Nat} {a : State} {g : β × State → α → β × State}
    (hg : ∀ t x, Upd F D o t.2 (g t x).2) : ∀ (l : List α) (b : β × State), Upd F D o a b.2 → Upd F D o a (l.foldl g b).2
  | [], _, h => h
  | x :: l, b, h => Upd.foldl_snd hg l (g b x) (h.trans (hg b x))

theorem Upd.foldl_fst {α β : Type} {F : List SFld} {D : List CFld} {o : Option Nat} {a : State} {g : State × β → α → State × β}
    (hg : ∀ t x, Upd F D o t.1 (g t x).1) : ∀ (l : List α) (b : State × β), Upd F D o a b.1 → Upd F D o a (l.foldl g b).1
  | [], _, h => h
  | x :: l, b, h => Upd.foldl_fst hg l (g b x) (h.trans (hg b x))

theorem Upd.foldN_fst {β : Type} {F : List SFld} {D : List CFld} {o : Option Nat} {a : State} {g : State × β → Nat → State × β} (n : Nat)
    (hg : ∀ t x, Upd F D o t.1 (g t x).1) (b : State × β) (h : Upd F D o a b.1) : Upd F D o a (Machine.foldN n g b).1 := Upd.foldl_fst hg _ b h

theorem Upd.iterate {F : List SFld} {D : List CFld} {o : Option Nat} {a : State} {g : State → State} (hg : ∀ t, Upd F D o t (g t)) (b : State)
    (h : Upd F D o a b) : ∀ n : Nat, Upd F D o a (Nat.repeat g n b)
  | 0 => h
  | n + 1 => (Upd.iterate hg b h n).trans (hg _)

theorem Upd.foldN {F : List SFld} {D : List CFld} {o : Option Nat} {a : State} {g : State → Nat → State} (n : Nat)
    (hg : ∀ t x, Upd F D o t (g t x)) (b : State) (h : Upd F D o a b) : Upd F D o a (foldN n g b) := Upd.foldl hg _ b h

theorem Upd.foldN_snd {β : Type} {F : List SFld} {D : List CFld} {o : Option Nat} {a : State} {g : β × State → Nat → β × State} (n : Nat)
    (hg : ∀ t x, Upd F D o t.2 (g t x).2) (b : β × State) (h : Upd F D o a b.2) : Upd F D o a (Machine.foldN n g b).2 := Upd.foldl_snd hg _ b h

/-! ### Sparse maps -/

theorem mget_mdel_ne {α : Type} (d : α) {a b : Nat} (h : b ≠ a) : ∀ m : SMap α, mget d (mdel a m) b = mget d m b
  | [] => rfl
  | (k, v) :: t => by
    unfold mdel
    split
    · next e => subst e; rw [mget_mdel_ne d h t]; simp [mget, Ne.symm h]
    · unfold mget
      split
      · rfl
      · exact mget_mdel_ne d h t

theorem mget_mdel {α : Type} (d : α) (a : Nat) : ∀ m : SMap α, mget d (mdel a m) a = d
  | [] => rfl
  | (k, v) :: t => by
    unfold mdel
    split
    · exact mget_mdel d a t
    · next e => simp [mget, e, mget_mdel d a t]

theorem mget_mins_ne {α : Type} (d : α) {a b : Nat} (x : α) (h : b ≠ a) : ∀ m : SMap α, mget d (mins a x m) b = mget d m b
  | [] => by simp [mins, mget, Ne.symm h]
  | (k, v) :: t => by
    unfold mins
    split
    · simp [mget, Ne.symm h]
    · unfold mget
      split
      · rfl
      · exact mget_mins_ne d x h t

theorem mget_mins {α : Type} (d : α) (a : Nat) (x : α) : ∀ m : SMap α, mget d m a = d → mdel a m = m → mget d (mins a x m) a = x
  | [], _, _ => by simp [mins, mget]
  | (k, v) :: t, _, hm => by
    have hk : k ≠ a := by
      intro e
      have hl := congrArg List.length hm
      have : ∀ m : SMap α, (mdel a m).length ≤ m.length := by
        intro m
        induction m with
        | nil => simp [mdel]
        | cons y m ih => obtain ⟨i, j⟩ := y; unfold mdel; split <;> simp <;> omega
      have h2 := this t
      simp [mdel, e] at hl
      omega
    have ht : mdel a t = t := by simpa [mdel, hk] using hm
    unfold mins
    split
    · simp [mget]
    · simp only [mget, hk, if_false]
      exact mget_mins d a x t (by rw [← ht]; exact mget_mdel d a t) ht

theorem mdel_mdel {α : Type} (a : Nat) : ∀ m : SMap α, mdel a (mdel a m) = mdel a m
  | [] => rfl
  | (k, v) :: t => by
    by_cases e : k = a
    · simp [mdel, e, mdel_mdel a t]
    · simp [mdel, e, mdel_mdel a t]

/-- A value read after it is written. -/
@[simp] theorem mget_mput {α : Type} (d : α) (a : Nat) (x : α) (m : SMap α) : mget d (mput a x m) a = x :=
  mget_mins d a x _ (mget_mdel d a m) (mdel_mdel a m)

/-- A write leaves every other place alone. -/
theorem mget_mput_ne {α : Type} (d : α) {a b : Nat} (x : α) (m : SMap α) (h : b ≠ a) : mget d (mput a x m) b = mget d m b := by
  unfold mput; rw [mget_mins_ne d x h, mget_mdel_ne d h]

@[simp] theorem mget_mset {α : Type} [DecidableEq α] (d : α) (a : Nat) (x : α) (m : SMap α) : mget d (mset d a x m) a = x := by
  unfold mset
  split
  · next e => rw [e]; exact mget_mdel d a m
  · exact mget_mput d a x m

theorem mget_mset_ne {α : Type} [DecidableEq α] (d : α) {a b : Nat} (x : α) (m : SMap α) (h : b ≠ a) :
    mget d (mset d a x m) b = mget d m b := by
  unfold mset
  split
  · exact mget_mdel_ne d h m
  · exact mget_mput_ne d x m h

/-! ### Updates of one part -/

@[simp] theorem coreAt_setCore (p : Nat) (c : Core) (s : State) : coreAt (setCore p c s) p = c := by simp [coreAt, setCore]
theorem coreAt_setCore_ne {p q : Nat} (c : Core) (s : State) (h : q ≠ p) : coreAt (setCore p c s) q = coreAt s q := by
  simp [coreAt, setCore, mget_mput_ne _ _ _ h]
@[simp] theorem coreAt_updCore (p : Nat) (f : Core → Core) (s : State) : coreAt (updCore p f s) p = f (coreAt s p) := by simp [updCore]
theorem coreAt_updCore_ne {p q : Nat} (f : Core → Core) (s : State) (h : q ≠ p) : coreAt (updCore p f s) q = coreAt s q := by
  simp [updCore, coreAt_setCore_ne _ _ h]
@[simp] theorem daleAt_setDale (d : Nat) (x : Dale) (s : State) : daleAt (setDale d x s) d = x := by simp [daleAt, setDale]
theorem daleAt_setDale_ne {d e : Nat} (x : Dale) (s : State) (h : e ≠ d) : daleAt (setDale d x s) e = daleAt s e := by
  simp [daleAt, setDale, mget_mput_ne _ _ _ h]
@[simp] theorem daleAt_updDale (d : Nat) (f : Dale → Dale) (s : State) : daleAt (updDale d f s) d = f (daleAt s d) := by simp [updDale]
theorem daleAt_updDale_ne {d e : Nat} (f : Dale → Dale) (s : State) (h : e ≠ d) : daleAt (updDale d f s) e = daleAt s e := by
  simp [updDale, daleAt_setDale_ne _ _ h]
@[simp] theorem hpAt_setHp (port : Port) (h : HPort) (s : State) : hpAt (setHp port h s) port = h := by cases port <;> rfl
@[simp] theorem hpAt_setHp_other (port : Port) (h : HPort) (s : State) : hpAt (setHp port h s) (portOther port) = hpAt s (portOther port) := by
  cases port <;> rfl
@[simp] theorem lpAt_updLp (n : Nat) (f : LPort → LPort) (s : State) : lpAt (updLp n f s) n = f (lpAt s n) := by simp [lpAt, updLp]
theorem lpAt_updLp_ne {n m : Nat} (f : LPort → LPort) (s : State) (h : m ≠ n) : lpAt (updLp n f s) m = lpAt s m := by
  simp [lpAt, updLp, mget_mput_ne _ _ _ h]

@[simp] theorem setCore_pending (p : Nat) (c : Core) (s : State) : (setCore p c s).pending = s.pending := rfl
@[simp] theorem setCore_regs (p : Nat) (c : Core) (s : State) : (setCore p c s).regs = s.regs := rfl
@[simp] theorem setCore_evts (p : Nat) (c : Core) (s : State) : (setCore p c s).evts = s.evts := rfl
@[simp] theorem setCore_dales (p : Nat) (c : Core) (s : State) : (setCore p c s).dales = s.dales := rfl
@[simp] theorem setCore_holds (p : Nat) (c : Core) (s : State) : (setCore p c s).holds = s.holds := rfl
@[simp] theorem setCore_clk (p : Nat) (c : Core) (s : State) : (setCore p c s).clk = s.clk := rfl
@[simp] theorem setCore_task (p : Nat) (c : Core) (s : State) : (setCore p c s).task = s.task := rfl
@[simp] theorem setCore_phase (p : Nat) (c : Core) (s : State) : (setCore p c s).phase = s.phase := rfl
@[simp] theorem setCore_hbm (p : Nat) (c : Core) (s : State) : (setCore p c s).hbm = s.hbm := rfl
@[simp] theorem setCore_cmt (p : Nat) (c : Core) (s : State) : (setCore p c s).cmt = s.cmt := rfl
@[simp] theorem setCore_host (p : Nat) (c : Core) (s : State) : (setCore p c s).host = s.host := rfl
@[simp] theorem setCore_fab (p : Nat) (c : Core) (s : State) : (setCore p c s).fab = s.fab := rfl
@[simp] theorem setCore_sec (p : Nat) (c : Core) (s : State) : (setCore p c s).sec = s.sec := rfl
@[simp] theorem setCore_trc (p : Nat) (c : Core) (s : State) : (setCore p c s).trc = s.trc := rfl
@[simp] theorem setCore_pwr (p : Nat) (c : Core) (s : State) : (setCore p c s).pwr = s.pwr := rfl
@[simp] theorem setCore_ctl (p : Nat) (c : Core) (s : State) : (setCore p c s).ctl = s.ctl := rfl
@[simp] theorem setCore_fresh (p : Nat) (c : Core) (s : State) : (setCore p c s).fresh = s.fresh := rfl
@[simp] theorem setCore_out (p : Nat) (c : Core) (s : State) : (setCore p c s).out = s.out := rfl
@[simp] theorem updCore_pending (p : Nat) (f : Core → Core) (s : State) : (updCore p f s).pending = s.pending := rfl
@[simp] theorem updCore_regs (p : Nat) (f : Core → Core) (s : State) : (updCore p f s).regs = s.regs := rfl
@[simp] theorem updCore_evts (p : Nat) (f : Core → Core) (s : State) : (updCore p f s).evts = s.evts := rfl
@[simp] theorem updCore_dales (p : Nat) (f : Core → Core) (s : State) : (updCore p f s).dales = s.dales := rfl
@[simp] theorem updCore_holds (p : Nat) (f : Core → Core) (s : State) : (updCore p f s).holds = s.holds := rfl
@[simp] theorem updCore_clk (p : Nat) (f : Core → Core) (s : State) : (updCore p f s).clk = s.clk := rfl
@[simp] theorem updCore_task (p : Nat) (f : Core → Core) (s : State) : (updCore p f s).task = s.task := rfl
@[simp] theorem updCore_phase (p : Nat) (f : Core → Core) (s : State) : (updCore p f s).phase = s.phase := rfl
@[simp] theorem updCore_hbm (p : Nat) (f : Core → Core) (s : State) : (updCore p f s).hbm = s.hbm := rfl
@[simp] theorem updCore_cmt (p : Nat) (f : Core → Core) (s : State) : (updCore p f s).cmt = s.cmt := rfl
@[simp] theorem updCore_host (p : Nat) (f : Core → Core) (s : State) : (updCore p f s).host = s.host := rfl
@[simp] theorem updCore_fab (p : Nat) (f : Core → Core) (s : State) : (updCore p f s).fab = s.fab := rfl
@[simp] theorem updCore_sec (p : Nat) (f : Core → Core) (s : State) : (updCore p f s).sec = s.sec := rfl
@[simp] theorem updCore_trc (p : Nat) (f : Core → Core) (s : State) : (updCore p f s).trc = s.trc := rfl
@[simp] theorem updCore_pwr (p : Nat) (f : Core → Core) (s : State) : (updCore p f s).pwr = s.pwr := rfl
@[simp] theorem updCore_ctl (p : Nat) (f : Core → Core) (s : State) : (updCore p f s).ctl = s.ctl := rfl
@[simp] theorem updCore_fresh (p : Nat) (f : Core → Core) (s : State) : (updCore p f s).fresh = s.fresh := rfl
@[simp] theorem updCore_out (p : Nat) (f : Core → Core) (s : State) : (updCore p f s).out = s.out := rfl
@[simp] theorem setDale_pending (d : Nat) (x : Dale) (s : State) : (setDale d x s).pending = s.pending := rfl
@[simp] theorem setDale_regs (d : Nat) (x : Dale) (s : State) : (setDale d x s).regs = s.regs := rfl
@[simp] theorem setDale_evts (d : Nat) (x : Dale) (s : State) : (setDale d x s).evts = s.evts := rfl
@[simp] theorem setDale_cores (d : Nat) (x : Dale) (s : State) : (setDale d x s).cores = s.cores := rfl
@[simp] theorem setDale_holds (d : Nat) (x : Dale) (s : State) : (setDale d x s).holds = s.holds := rfl
@[simp] theorem setDale_clk (d : Nat) (x : Dale) (s : State) : (setDale d x s).clk = s.clk := rfl
@[simp] theorem setDale_task (d : Nat) (x : Dale) (s : State) : (setDale d x s).task = s.task := rfl
@[simp] theorem setDale_phase (d : Nat) (x : Dale) (s : State) : (setDale d x s).phase = s.phase := rfl
@[simp] theorem setDale_hbm (d : Nat) (x : Dale) (s : State) : (setDale d x s).hbm = s.hbm := rfl
@[simp] theorem setDale_cmt (d : Nat) (x : Dale) (s : State) : (setDale d x s).cmt = s.cmt := rfl
@[simp] theorem setDale_host (d : Nat) (x : Dale) (s : State) : (setDale d x s).host = s.host := rfl
@[simp] theorem setDale_fab (d : Nat) (x : Dale) (s : State) : (setDale d x s).fab = s.fab := rfl
@[simp] theorem setDale_sec (d : Nat) (x : Dale) (s : State) : (setDale d x s).sec = s.sec := rfl
@[simp] theorem setDale_trc (d : Nat) (x : Dale) (s : State) : (setDale d x s).trc = s.trc := rfl
@[simp] theorem setDale_pwr (d : Nat) (x : Dale) (s : State) : (setDale d x s).pwr = s.pwr := rfl
@[simp] theorem setDale_ctl (d : Nat) (x : Dale) (s : State) : (setDale d x s).ctl = s.ctl := rfl
@[simp] theorem setDale_fresh (d : Nat) (x : Dale) (s : State) : (setDale d x s).fresh = s.fresh := rfl
@[simp] theorem setDale_out (d : Nat) (x : Dale) (s : State) : (setDale d x s).out = s.out := rfl
@[simp] theorem updDale_pending (d : Nat) (f : Dale → Dale) (s : State) : (updDale d f s).pending = s.pending := rfl
@[simp] theorem updDale_regs (d : Nat) (f : Dale → Dale) (s : State) : (updDale d f s).regs = s.regs := rfl
@[simp] theorem updDale_evts (d : Nat) (f : Dale → Dale) (s : State) : (updDale d f s).evts = s.evts := rfl
@[simp] theorem updDale_cores (d : Nat) (f : Dale → Dale) (s : State) : (updDale d f s).cores = s.cores := rfl
@[simp] theorem updDale_holds (d : Nat) (f : Dale → Dale) (s : State) : (updDale d f s).holds = s.holds := rfl
@[simp] theorem updDale_clk (d : Nat) (f : Dale → Dale) (s : State) : (updDale d f s).clk = s.clk := rfl
@[simp] theorem updDale_task (d : Nat) (f : Dale → Dale) (s : State) : (updDale d f s).task = s.task := rfl
@[simp] theorem updDale_phase (d : Nat) (f : Dale → Dale) (s : State) : (updDale d f s).phase = s.phase := rfl
@[simp] theorem updDale_hbm (d : Nat) (f : Dale → Dale) (s : State) : (updDale d f s).hbm = s.hbm := rfl
@[simp] theorem updDale_cmt (d : Nat) (f : Dale → Dale) (s : State) : (updDale d f s).cmt = s.cmt := rfl
@[simp] theorem updDale_host (d : Nat) (f : Dale → Dale) (s : State) : (updDale d f s).host = s.host := rfl
@[simp] theorem updDale_fab (d : Nat) (f : Dale → Dale) (s : State) : (updDale d f s).fab = s.fab := rfl
@[simp] theorem updDale_sec (d : Nat) (f : Dale → Dale) (s : State) : (updDale d f s).sec = s.sec := rfl
@[simp] theorem updDale_trc (d : Nat) (f : Dale → Dale) (s : State) : (updDale d f s).trc = s.trc := rfl
@[simp] theorem updDale_pwr (d : Nat) (f : Dale → Dale) (s : State) : (updDale d f s).pwr = s.pwr := rfl
@[simp] theorem updDale_ctl (d : Nat) (f : Dale → Dale) (s : State) : (updDale d f s).ctl = s.ctl := rfl
@[simp] theorem updDale_fresh (d : Nat) (f : Dale → Dale) (s : State) : (updDale d f s).fresh = s.fresh := rfl
@[simp] theorem updDale_out (d : Nat) (f : Dale → Dale) (s : State) : (updDale d f s).out = s.out := rfl
@[simp] theorem updLp_pending (n : Nat) (f : LPort → LPort) (s : State) : (updLp n f s).pending = s.pending := rfl
@[simp] theorem updLp_regs (n : Nat) (f : LPort → LPort) (s : State) : (updLp n f s).regs = s.regs := rfl
@[simp] theorem updLp_evts (n : Nat) (f : LPort → LPort) (s : State) : (updLp n f s).evts = s.evts := rfl
@[simp] theorem updLp_cores (n : Nat) (f : LPort → LPort) (s : State) : (updLp n f s).cores = s.cores := rfl
@[simp] theorem updLp_dales (n : Nat) (f : LPort → LPort) (s : State) : (updLp n f s).dales = s.dales := rfl
@[simp] theorem updLp_holds (n : Nat) (f : LPort → LPort) (s : State) : (updLp n f s).holds = s.holds := rfl
@[simp] theorem updLp_clk (n : Nat) (f : LPort → LPort) (s : State) : (updLp n f s).clk = s.clk := rfl
@[simp] theorem updLp_task (n : Nat) (f : LPort → LPort) (s : State) : (updLp n f s).task = s.task := rfl
@[simp] theorem updLp_phase (n : Nat) (f : LPort → LPort) (s : State) : (updLp n f s).phase = s.phase := rfl
@[simp] theorem updLp_hbm (n : Nat) (f : LPort → LPort) (s : State) : (updLp n f s).hbm = s.hbm := rfl
@[simp] theorem updLp_cmt (n : Nat) (f : LPort → LPort) (s : State) : (updLp n f s).cmt = s.cmt := rfl
@[simp] theorem updLp_host (n : Nat) (f : LPort → LPort) (s : State) : (updLp n f s).host = s.host := rfl
@[simp] theorem updLp_sec (n : Nat) (f : LPort → LPort) (s : State) : (updLp n f s).sec = s.sec := rfl
@[simp] theorem updLp_trc (n : Nat) (f : LPort → LPort) (s : State) : (updLp n f s).trc = s.trc := rfl
@[simp] theorem updLp_pwr (n : Nat) (f : LPort → LPort) (s : State) : (updLp n f s).pwr = s.pwr := rfl
@[simp] theorem updLp_ctl (n : Nat) (f : LPort → LPort) (s : State) : (updLp n f s).ctl = s.ctl := rfl
@[simp] theorem updLp_fresh (n : Nat) (f : LPort → LPort) (s : State) : (updLp n f s).fresh = s.fresh := rfl
@[simp] theorem updLp_out (n : Nat) (f : LPort → LPort) (s : State) : (updLp n f s).out = s.out := rfl
@[simp] theorem setHp_pending (port : Port) (h : HPort) (s : State) : (setHp port h s).pending = s.pending := by cases port <;> rfl
@[simp] theorem setHp_regs (port : Port) (h : HPort) (s : State) : (setHp port h s).regs = s.regs := by cases port <;> rfl
@[simp] theorem setHp_evts (port : Port) (h : HPort) (s : State) : (setHp port h s).evts = s.evts := by cases port <;> rfl
@[simp] theorem setHp_cores (port : Port) (h : HPort) (s : State) : (setHp port h s).cores = s.cores := by cases port <;> rfl
@[simp] theorem setHp_dales (port : Port) (h : HPort) (s : State) : (setHp port h s).dales = s.dales := by cases port <;> rfl
@[simp] theorem setHp_holds (port : Port) (h : HPort) (s : State) : (setHp port h s).holds = s.holds := by cases port <;> rfl
@[simp] theorem setHp_clk (port : Port) (h : HPort) (s : State) : (setHp port h s).clk = s.clk := by cases port <;> rfl
@[simp] theorem setHp_task (port : Port) (h : HPort) (s : State) : (setHp port h s).task = s.task := by cases port <;> rfl
@[simp] theorem setHp_phase (port : Port) (h : HPort) (s : State) : (setHp port h s).phase = s.phase := by cases port <;> rfl
@[simp] theorem setHp_hbm (port : Port) (h : HPort) (s : State) : (setHp port h s).hbm = s.hbm := by cases port <;> rfl
@[simp] theorem setHp_cmt (port : Port) (h : HPort) (s : State) : (setHp port h s).cmt = s.cmt := by cases port <;> rfl
@[simp] theorem setHp_fab (port : Port) (h : HPort) (s : State) : (setHp port h s).fab = s.fab := by cases port <;> rfl
@[simp] theorem setHp_sec (port : Port) (h : HPort) (s : State) : (setHp port h s).sec = s.sec := by cases port <;> rfl
@[simp] theorem setHp_trc (port : Port) (h : HPort) (s : State) : (setHp port h s).trc = s.trc := by cases port <;> rfl
@[simp] theorem setHp_pwr (port : Port) (h : HPort) (s : State) : (setHp port h s).pwr = s.pwr := by cases port <;> rfl
@[simp] theorem setHp_ctl (port : Port) (h : HPort) (s : State) : (setHp port h s).ctl = s.ctl := by cases port <;> rfl
@[simp] theorem setHp_fresh (port : Port) (h : HPort) (s : State) : (setHp port h s).fresh = s.fresh := by cases port <;> rfl
@[simp] theorem setHp_out (port : Port) (h : HPort) (s : State) : (setHp port h s).out = s.out := by cases port <;> rfl
@[simp] theorem updHp_pending (port : Port) (f : HPort → HPort) (s : State) : (updHp port f s).pending = s.pending := by cases port <;> rfl
@[simp] theorem updHp_regs (port : Port) (f : HPort → HPort) (s : State) : (updHp port f s).regs = s.regs := by cases port <;> rfl
@[simp] theorem updHp_evts (port : Port) (f : HPort → HPort) (s : State) : (updHp port f s).evts = s.evts := by cases port <;> rfl
@[simp] theorem updHp_cores (port : Port) (f : HPort → HPort) (s : State) : (updHp port f s).cores = s.cores := by cases port <;> rfl
@[simp] theorem updHp_dales (port : Port) (f : HPort → HPort) (s : State) : (updHp port f s).dales = s.dales := by cases port <;> rfl
@[simp] theorem updHp_holds (port : Port) (f : HPort → HPort) (s : State) : (updHp port f s).holds = s.holds := by cases port <;> rfl
@[simp] theorem updHp_clk (port : Port) (f : HPort → HPort) (s : State) : (updHp port f s).clk = s.clk := by cases port <;> rfl
@[simp] theorem updHp_task (port : Port) (f : HPort → HPort) (s : State) : (updHp port f s).task = s.task := by cases port <;> rfl
@[simp] theorem updHp_phase (port : Port) (f : HPort → HPort) (s : State) : (updHp port f s).phase = s.phase := by cases port <;> rfl
@[simp] theorem updHp_hbm (port : Port) (f : HPort → HPort) (s : State) : (updHp port f s).hbm = s.hbm := by cases port <;> rfl
@[simp] theorem updHp_cmt (port : Port) (f : HPort → HPort) (s : State) : (updHp port f s).cmt = s.cmt := by cases port <;> rfl
@[simp] theorem updHp_fab (port : Port) (f : HPort → HPort) (s : State) : (updHp port f s).fab = s.fab := by cases port <;> rfl
@[simp] theorem updHp_sec (port : Port) (f : HPort → HPort) (s : State) : (updHp port f s).sec = s.sec := by cases port <;> rfl
@[simp] theorem updHp_trc (port : Port) (f : HPort → HPort) (s : State) : (updHp port f s).trc = s.trc := by cases port <;> rfl
@[simp] theorem updHp_pwr (port : Port) (f : HPort → HPort) (s : State) : (updHp port f s).pwr = s.pwr := by cases port <;> rfl
@[simp] theorem updHp_ctl (port : Port) (f : HPort → HPort) (s : State) : (updHp port f s).ctl = s.ctl := by cases port <;> rfl
@[simp] theorem updHp_fresh (port : Port) (f : HPort → HPort) (s : State) : (updHp port f s).fresh = s.fresh := by cases port <;> rfl
@[simp] theorem updHp_out (port : Port) (f : HPort → HPort) (s : State) : (updHp port f s).out = s.out := by cases port <;> rfl
@[simp] theorem setReg_pending (a v : Nat) (s : State) : (setReg a v s).pending = s.pending := rfl
@[simp] theorem setReg_evts (a v : Nat) (s : State) : (setReg a v s).evts = s.evts := rfl
@[simp] theorem setReg_cores (a v : Nat) (s : State) : (setReg a v s).cores = s.cores := rfl
@[simp] theorem setReg_dales (a v : Nat) (s : State) : (setReg a v s).dales = s.dales := rfl
@[simp] theorem setReg_holds (a v : Nat) (s : State) : (setReg a v s).holds = s.holds := rfl
@[simp] theorem setReg_clk (a v : Nat) (s : State) : (setReg a v s).clk = s.clk := rfl
@[simp] theorem setReg_task (a v : Nat) (s : State) : (setReg a v s).task = s.task := rfl
@[simp] theorem setReg_phase (a v : Nat) (s : State) : (setReg a v s).phase = s.phase := rfl
@[simp] theorem setReg_hbm (a v : Nat) (s : State) : (setReg a v s).hbm = s.hbm := rfl
@[simp] theorem setReg_cmt (a v : Nat) (s : State) : (setReg a v s).cmt = s.cmt := rfl
@[simp] theorem setReg_host (a v : Nat) (s : State) : (setReg a v s).host = s.host := rfl
@[simp] theorem setReg_fab (a v : Nat) (s : State) : (setReg a v s).fab = s.fab := rfl
@[simp] theorem setReg_sec (a v : Nat) (s : State) : (setReg a v s).sec = s.sec := rfl
@[simp] theorem setReg_trc (a v : Nat) (s : State) : (setReg a v s).trc = s.trc := rfl
@[simp] theorem setReg_pwr (a v : Nat) (s : State) : (setReg a v s).pwr = s.pwr := rfl
@[simp] theorem setReg_ctl (a v : Nat) (s : State) : (setReg a v s).ctl = s.ctl := rfl
@[simp] theorem setReg_fresh (a v : Nat) (s : State) : (setReg a v s).fresh = s.fresh := rfl
@[simp] theorem setReg_out (a v : Nat) (s : State) : (setReg a v s).out = s.out := rfl
@[simp] theorem setField_pending (a lo w v : Nat) (s : State) : (setField a lo w v s).pending = s.pending := rfl
@[simp] theorem setField_evts (a lo w v : Nat) (s : State) : (setField a lo w v s).evts = s.evts := rfl
@[simp] theorem setField_cores (a lo w v : Nat) (s : State) : (setField a lo w v s).cores = s.cores := rfl
@[simp] theorem setField_dales (a lo w v : Nat) (s : State) : (setField a lo w v s).dales = s.dales := rfl
@[simp] theorem setField_holds (a lo w v : Nat) (s : State) : (setField a lo w v s).holds = s.holds := rfl
@[simp] theorem setField_clk (a lo w v : Nat) (s : State) : (setField a lo w v s).clk = s.clk := rfl
@[simp] theorem setField_task (a lo w v : Nat) (s : State) : (setField a lo w v s).task = s.task := rfl
@[simp] theorem setField_phase (a lo w v : Nat) (s : State) : (setField a lo w v s).phase = s.phase := rfl
@[simp] theorem setField_hbm (a lo w v : Nat) (s : State) : (setField a lo w v s).hbm = s.hbm := rfl
@[simp] theorem setField_cmt (a lo w v : Nat) (s : State) : (setField a lo w v s).cmt = s.cmt := rfl
@[simp] theorem setField_host (a lo w v : Nat) (s : State) : (setField a lo w v s).host = s.host := rfl
@[simp] theorem setField_fab (a lo w v : Nat) (s : State) : (setField a lo w v s).fab = s.fab := rfl
@[simp] theorem setField_sec (a lo w v : Nat) (s : State) : (setField a lo w v s).sec = s.sec := rfl
@[simp] theorem setField_trc (a lo w v : Nat) (s : State) : (setField a lo w v s).trc = s.trc := rfl
@[simp] theorem setField_pwr (a lo w v : Nat) (s : State) : (setField a lo w v s).pwr = s.pwr := rfl
@[simp] theorem setField_ctl (a lo w v : Nat) (s : State) : (setField a lo w v s).ctl = s.ctl := rfl
@[simp] theorem setField_fresh (a lo w v : Nat) (s : State) : (setField a lo w v s).fresh = s.fresh := rfl
@[simp] theorem setField_out (a lo w v : Nat) (s : State) : (setField a lo w v s).out = s.out := rfl
@[simp] theorem emit_pending (o : Out) (s : State) : (emit o s).pending = s.pending := rfl
@[simp] theorem emit_regs (o : Out) (s : State) : (emit o s).regs = s.regs := rfl
@[simp] theorem emit_evts (o : Out) (s : State) : (emit o s).evts = s.evts := rfl
@[simp] theorem emit_cores (o : Out) (s : State) : (emit o s).cores = s.cores := rfl
@[simp] theorem emit_dales (o : Out) (s : State) : (emit o s).dales = s.dales := rfl
@[simp] theorem emit_holds (o : Out) (s : State) : (emit o s).holds = s.holds := rfl
@[simp] theorem emit_clk (o : Out) (s : State) : (emit o s).clk = s.clk := rfl
@[simp] theorem emit_task (o : Out) (s : State) : (emit o s).task = s.task := rfl
@[simp] theorem emit_phase (o : Out) (s : State) : (emit o s).phase = s.phase := rfl
@[simp] theorem emit_hbm (o : Out) (s : State) : (emit o s).hbm = s.hbm := rfl
@[simp] theorem emit_cmt (o : Out) (s : State) : (emit o s).cmt = s.cmt := rfl
@[simp] theorem emit_host (o : Out) (s : State) : (emit o s).host = s.host := rfl
@[simp] theorem emit_fab (o : Out) (s : State) : (emit o s).fab = s.fab := rfl
@[simp] theorem emit_sec (o : Out) (s : State) : (emit o s).sec = s.sec := rfl
@[simp] theorem emit_trc (o : Out) (s : State) : (emit o s).trc = s.trc := rfl
@[simp] theorem emit_pwr (o : Out) (s : State) : (emit o s).pwr = s.pwr := rfl
@[simp] theorem emit_ctl (o : Out) (s : State) : (emit o s).ctl = s.ctl := rfl
@[simp] theorem emit_fresh (o : Out) (s : State) : (emit o s).fresh = s.fresh := rfl
@[simp] theorem drawn_pending (s : State) : (drawn s).pending = s.pending := rfl
@[simp] theorem drawn_regs (s : State) : (drawn s).regs = s.regs := rfl
@[simp] theorem drawn_evts (s : State) : (drawn s).evts = s.evts := rfl
@[simp] theorem drawn_cores (s : State) : (drawn s).cores = s.cores := rfl
@[simp] theorem drawn_dales (s : State) : (drawn s).dales = s.dales := rfl
@[simp] theorem drawn_holds (s : State) : (drawn s).holds = s.holds := rfl
@[simp] theorem drawn_clk (s : State) : (drawn s).clk = s.clk := rfl
@[simp] theorem drawn_task (s : State) : (drawn s).task = s.task := rfl
@[simp] theorem drawn_phase (s : State) : (drawn s).phase = s.phase := rfl
@[simp] theorem drawn_hbm (s : State) : (drawn s).hbm = s.hbm := rfl
@[simp] theorem drawn_cmt (s : State) : (drawn s).cmt = s.cmt := rfl
@[simp] theorem drawn_host (s : State) : (drawn s).host = s.host := rfl
@[simp] theorem drawn_fab (s : State) : (drawn s).fab = s.fab := rfl
@[simp] theorem drawn_sec (s : State) : (drawn s).sec = s.sec := rfl
@[simp] theorem drawn_trc (s : State) : (drawn s).trc = s.trc := rfl
@[simp] theorem drawn_pwr (s : State) : (drawn s).pwr = s.pwr := rfl
@[simp] theorem drawn_ctl (s : State) : (drawn s).ctl = s.ctl := rfl
@[simp] theorem drawn_out (s : State) : (drawn s).out = s.out := rfl

theorem setCore_upd {D : List CFld} (p : Nat) (c : Core) (s : State) (h : CUpd D (coreAt s p) c) : Upd [.cores] D (some p) s (setCore p c s) :=
  ⟨   (fun _ => rfl), (fun _ => rfl), (fun _ => rfl), (fun x => by cases x), (fun _ => rfl), (fun _ => rfl), (fun _ => rfl), (fun _ => rfl),
   (fun _ => rfl), (fun _ => rfl), (fun _ => rfl), (fun _ => rfl), (fun _ => rfl), (fun _ => rfl), (fun _ => rfl), (fun _ => rfl),
   (fun _ => rfl), (fun _ => rfl), (fun _ => rfl),
   fun q => by
     by_cases e : q = p
     · subst e; simpa using h
     · rw [coreAt_setCore_ne _ _ e]; exact CUpd.refl D _,
   fun r q e n => by cases e; exact coreAt_setCore_ne _ _ n⟩

theorem updCore_upd {D : List CFld} (p : Nat) (f : Core → Core) (s : State) (h : CUpd D (coreAt s p) (f (coreAt s p))) :
    Upd [.cores] D (some p) s (updCore p f s) := setCore_upd p _ s h

theorem setDale_upd (d : Nat) (x : Dale) (k : Option Nat) (s : State) : Upd [.dales] [] k s (setDale d x s) :=
  Upd.set (F := [.dales]) (b := s) (.inr rfl) (.inr rfl) (.inr rfl) (.inl rfl) (.inr rfl) (.inr rfl) (.inr rfl) (.inr rfl) (.inr rfl) (.inr rfl) (.inr rfl) (.inr rfl) (.inr rfl) (.inr rfl) (.inr rfl) (.inr rfl) (.inr rfl) (.inr rfl) (Upd.refl _ _ _ s)

theorem updDale_upd (d : Nat) (f : Dale → Dale) (k : Option Nat) (s : State) : Upd [.dales] [] k s (updDale d f s) :=
  Upd.set (F := [.dales]) (b := s) (.inr rfl) (.inr rfl) (.inr rfl) (.inl rfl) (.inr rfl) (.inr rfl) (.inr rfl) (.inr rfl) (.inr rfl) (.inr rfl) (.inr rfl) (.inr rfl) (.inr rfl) (.inr rfl) (.inr rfl) (.inr rfl) (.inr rfl) (.inr rfl) (Upd.refl _ _ _ s)

theorem updLp_upd (n : Nat) (f : LPort → LPort) (k : Option Nat) (s : State) : Upd [.fab] [] k s (updLp n f s) :=
  Upd.set (F := [.fab]) (b := s) (.inr rfl) (.inr rfl) (.inr rfl) (.inr rfl) (.inr rfl) (.inr rfl) (.inr rfl) (.inr rfl) (.inr rfl) (.inr rfl) (.inr rfl) (.inl rfl) (.inr rfl) (.inr rfl) (.inr rfl) (.inr rfl) (.inr rfl) (.inr rfl) (Upd.refl _ _ _ s)

theorem setHp_upd (port : Port) (h : HPort) (k : Option Nat) (s : State) : Upd [.host] [] k s (setHp port h s) := by
  cases port <;> exact Upd.set (F := [.host]) (b := s) (.inr rfl) (.inr rfl) (.inr rfl) (.inr rfl) (.inr rfl) (.inr rfl) (.inr rfl) (.inr rfl) (.inr rfl) (.inr rfl) (.inl rfl) (.inr rfl) (.inr rfl) (.inr rfl) (.inr rfl) (.inr rfl) (.inr rfl) (.inr rfl) (Upd.refl _ _ _ s)

theorem updHp_upd (port : Port) (f : HPort → HPort) (k : Option Nat) (s : State) : Upd [.host] [] k s (updHp port f s) := by
  cases port <;> exact Upd.set (F := [.host]) (b := s) (.inr rfl) (.inr rfl) (.inr rfl) (.inr rfl) (.inr rfl) (.inr rfl) (.inr rfl) (.inr rfl) (.inr rfl) (.inr rfl) (.inl rfl) (.inr rfl) (.inr rfl) (.inr rfl) (.inr rfl) (.inr rfl) (.inr rfl) (.inr rfl) (Upd.refl _ _ _ s)

theorem setReg_upd (a v : Nat) (k : Option Nat) (s : State) : Upd [.regs] [] k s (setReg a v s) :=
  Upd.set (F := [.regs]) (b := s) (.inr rfl) (.inl rfl) (.inr rfl) (.inr rfl) (.inr rfl) (.inr rfl) (.inr rfl) (.inr rfl) (.inr rfl) (.inr rfl) (.inr rfl) (.inr rfl) (.inr rfl) (.inr rfl) (.inr rfl) (.inr rfl) (.inr rfl) (.inr rfl) (Upd.refl _ _ _ s)

theorem setField_upd (a lo w v : Nat) (k : Option Nat) (s : State) : Upd [.regs] [] k s (setField a lo w v s) :=
  Upd.set (F := [.regs]) (b := s) (.inr rfl) (.inl rfl) (.inr rfl) (.inr rfl) (.inr rfl) (.inr rfl) (.inr rfl) (.inr rfl) (.inr rfl) (.inr rfl) (.inr rfl) (.inr rfl) (.inr rfl) (.inr rfl) (.inr rfl) (.inr rfl) (.inr rfl) (.inr rfl) (Upd.refl _ _ _ s)

theorem emit_upd (o : Out) (k : Option Nat) (s : State) : Upd [.out] [] k s (emit o s) :=
  Upd.set (F := [.out]) (b := s) (.inr rfl) (.inr rfl) (.inr rfl) (.inr rfl) (.inr rfl) (.inr rfl) (.inr rfl) (.inr rfl) (.inr rfl) (.inr rfl) (.inr rfl) (.inr rfl) (.inr rfl) (.inr rfl) (.inr rfl) (.inr rfl) (.inr rfl) (.inl rfl) (Upd.refl _ _ _ s)

theorem drawn_upd (k : Option Nat) (s : State) : Upd [.fresh] [] k s (drawn s) :=
  Upd.set (F := [.fresh]) (b := s) (.inr rfl) (.inr rfl) (.inr rfl) (.inr rfl) (.inr rfl) (.inr rfl) (.inr rfl) (.inr rfl) (.inr rfl) (.inr rfl) (.inr rfl) (.inr rfl) (.inr rfl) (.inr rfl) (.inr rfl) (.inr rfl) (.inl rfl) (.inr rfl) (Upd.refl _ _ _ s)

/-- One core is changed. -/
theorem Upd.updCore {F : List SFld} {D : List CFld} {k : Option Nat} {a b : State} {p : Nat} {f : Core → Core}
    (hc : CUpd D (coreAt b p) (f (coreAt b p))) (hF : SFld.sub [.cores] F = true) (ho : k = none ∨ k = some p) (h : Upd F D k a b) :
    Upd F D k a (updCore p f b) := h.trans ((updCore_upd p f b hc).mono hF (CFld.sub_refl _) ho)
theorem Upd.setCore {F : List SFld} {D : List CFld} {k : Option Nat} {a b : State} {p : Nat} {c : Core}
    (hc : CUpd D (coreAt b p) c) (hF : SFld.sub [.cores] F = true) (ho : k = none ∨ k = some p) (h : Upd F D k a b) :
    Upd F D k a (setCore p c b) := h.trans ((setCore_upd p c b hc).mono hF (CFld.sub_refl _) ho)

/-! ### Operations that take an operation -/

theorem eachCore_upd {F : List SFld} {D : List CFld} {k : Option Nat} {a s : State} {f : Nat → State → State}
    (hf : ∀ p t, Upd F D k t (f p t)) (h : Upd F D k a s) : Upd F D k a (eachCore f s) := Upd.foldN _ (fun t p => hf p t) _ h

end Sys2Proof.Machine
end

