-- ==== Sys2Proof/Laws/Ops.lean ====
section
/-! SUPPORT. What each operation of Sys2Proof/Machine/Ops.lean can change: its footprint. -/
namespace Sys2Proof.Machine
set_option linter.all false

theorem guarded_upd {F : List SFld} {D : List CFld} {k : Option Nat} {s t : State} {ok : Bool} {w : String} {f : State → State}
    (hf : ∀ t, Upd F D k t (f t)) (h : guarded ok w f s = .next t) : Upd F D k s t := by
  unfold guarded at h
  split at h
  · cases h; exact hf s
  · cases h

theorem hwSets_upd (a : Nat) (mask : Nat) (s : State) {o_ : Option Nat} :
    Upd [.host] [] o_ s (hwSets a mask s) := by
  unfold hwSets
  repeat' first
    | with_reducible exact Upd.refl _ _ _ _ | exact rfl | exact .inl rfl | exact .inr rfl | with_reducible assumption
    | with_reducible apply Upd.ite | split | dsimp only | intro _ | with_reducible apply Upd.set

theorem setBits_upd (a : Nat) (mask : Nat) (s : State) {o_ : Option Nat} :
    Upd [.regs, .host] [] o_ s (setBits a mask s) := by
  unfold setBits
  repeat' first
    | with_reducible exact Upd.refl _ _ _ _ | exact rfl | exact .inl rfl | exact .inr rfl | with_reducible assumption
    | with_reducible apply Upd.ite | with_reducible apply Upd.step' (hwSets_upd ..) | with_reducible apply Upd.step' (setReg_upd ..) | split
    | dsimp only | intro _

theorem satField_upd (a : Nat) (lo : Nat) (w : Nat) (n : Nat) (s : State) {o_ : Option Nat} :
    Upd [.regs] [] o_ s (satField a lo w n s) := by
  unfold satField
  repeat' first
    | with_reducible exact Upd.refl _ _ _ _ | exact rfl | exact .inl rfl | exact .inr rfl | with_reducible assumption
    | with_reducible apply Upd.ite | with_reducible apply Upd.step' (setField_upd ..) | split | dsimp only | intro _

theorem setReg64_upd (a : Nat) (v : Nat) (s : State) {o_ : Option Nat} :
    Upd [.regs] [] o_ s (setReg64 a v s) := by
  unfold setReg64
  repeat' first
    | with_reducible exact Upd.refl _ _ _ _ | exact rfl | exact .inl rfl | exact .inr rfl | with_reducible assumption
    | with_reducible apply Upd.ite | with_reducible apply Upd.step' (setReg_upd ..) | split | dsimp only | intro _

theorem irqOwe_upd (page : Nat) (s : State) {o_ : Option Nat} :
    Upd [.host] [] o_ s (irqOwe page s) := by
  unfold irqOwe
  repeat' first
    | with_reducible exact Upd.refl _ _ _ _ | exact rfl | exact .inl rfl | exact .inr rfl | with_reducible assumption
    | with_reducible apply Upd.ite | split | dsimp only | intro _ | with_reducible apply Upd.set

theorem irqRaise_upd (page : Nat) (mask : Nat) (s : State) {o_ : Option Nat} :
    Upd [.regs, .host] [] o_ s (irqRaise page mask s) := by
  unfold irqRaise
  repeat' first
    | with_reducible exact Upd.refl _ _ _ _ | exact rfl | exact .inl rfl | exact .inr rfl | with_reducible assumption
    | with_reducible apply Upd.ite | with_reducible apply Upd.step' (setBits_upd ..) | with_reducible apply Upd.step' (irqOwe_upd ..) | split
    | dsimp only | intro _

theorem applyEvt_upd (s : State) (e : Evt) {o_ : Option Nat} : Upd [.regs, .host] [] o_ s (applyEvt s e) := by
  cases e with
  | set a mask => unfold applyEvt; dsimp only; split; exact irqRaise_upd ..; exact (setBits_upd ..).mono rfl rfl (.inr rfl)
  | add a lo w n => exact (satField_upd ..).mono rfl rfl (.inr rfl)
  | put a lo w v => exact (setField_upd ..).mono rfl rfl (.inr rfl)
  | first a bit lo w v =>
    unfold applyEvt; dsimp only; split
    · exact (Upd.refl _ _ _ _)
    · exact (setField_upd ..).mono rfl rfl (.inr rfl)

theorem publishEvts_upd (s : State) {o_ : Option Nat} :
    Upd [.regs, .evts, .host] [] o_ s (publishEvts s) := by
  unfold publishEvts
  repeat' first
    | with_reducible exact Upd.refl _ _ _ _ | exact rfl | exact .inl rfl | exact .inr rfl | with_reducible assumption
    | with_reducible apply Upd.ite | with_reducible apply Upd.step' (applyEvt_upd ..) | with_reducible apply Upd.foldl | split | dsimp only
    | intro _ | with_reducible apply Upd.set

theorem note_upd (e : Evt) (s : State) {o_ : Option Nat} :
    Upd [.regs, .evts, .host] [] o_ s (note e s) := by
  unfold note
  repeat' first
    | with_reducible exact Upd.refl _ _ _ _ | exact rfl | exact .inl rfl | exact .inr rfl | with_reducible assumption
    | with_reducible apply Upd.ite | with_reducible apply Upd.step' (applyEvt_upd ..) | split | dsimp only | intro _
    | with_reducible apply Upd.set

theorem noteStat_upd (base : Nat) (off : Nat) (bit : Nat) (irq : Nat) (s : State) {o_ : Option Nat} :
    Upd [.regs, .evts, .host] [] o_ s (noteStat base off bit irq s) := by
  unfold noteStat
  repeat' first
    | with_reducible exact Upd.refl _ _ _ _ | exact rfl | exact .inl rfl | exact .inr rfl | with_reducible assumption
    | with_reducible apply Upd.ite | with_reducible apply Upd.step' (note_upd ..) | split | dsimp only | intro _

theorem refuseWrite_upd (port : Port) (a : Nat) (cause : Nat) (s : State) {o_ : Option Nat} :
    Upd [.regs, .host] [] o_ s (refuseWrite port a cause s) := by
  unfold refuseWrite
  dsimp only
  split
  · exact (satField_upd ..).mono rfl rfl (.inr rfl)
  · exact (((satField_upd ..).trans (setReg_upd ..)).mono rfl rfl (.inr rfl)).trans ((hwSets_upd ..).mono rfl rfl (.inr rfl))

theorem woGate_upd {F : List SFld} {D : List CFld} {k : Option Nat} {b s : State} {port : Port} {a : Nat} {ok : Bool} {cause : Nat}
    {f : State → State} (hF : SFld.sub [.regs, .host] F = true) (hf : ∀ t, Upd F D k t (f t)) (h : Upd F D k b s) :
    Upd F D k b (woGate port a ok cause f s) := by
  unfold woGate
  split
  · exact h
  · split
    · exact (Upd.step' (refuseWrite_upd ..) hF rfl h)
    · split
      · exact h.trans (hf s)
      · exact (Upd.step' (refuseWrite_upd ..) hF rfl h)

theorem hostGate_upd {F : List SFld} {D : List CFld} {k : Option Nat} {b s : State} {port : Port} {a : Nat} {ok : Bool} {cause : Nat}
    {f : State → State} (hF : SFld.sub [.regs, .host] F = true) (hf : ∀ t, Upd F D k t (f t)) (h : Upd F D k b s) :
    Upd F D k b (hostGate port a ok cause f s) := by
  unfold hostGate
  split
  · exact (Upd.step' (refuseWrite_upd ..) hF rfl h)
  · exact woGate_upd hF hf h

theorem byCtl_upd {F : List SFld} {D : List CFld} {k : Option Nat} {b s : State} {die : Nat} {x : CtlStep} {f : State → State}
    (hF : SFld.sub [.ctl] F = true) (hf : ∀ t, Upd F D k t (f t)) (h : Upd F D k b s) : Upd F D k b (byCtl die x f s) := by
  unfold byCtl
  split
  · exact h.trans (hf s)
  · refine h.trans (Upd.mono (F := [.ctl]) (D := []) (o := k) ?_ hF rfl (.inr rfl))
    with_reducible apply Upd.set
    all_goals first | exact .inr rfl | exact .inl rfl | exact Upd.refl _ _ _ _

theorem markSrc_upd (bit : Nat) (s : State) {o_ : Option Nat} :
    Upd [.cmt] [] o_ s (markSrc bit s) := by
  unfold markSrc
  repeat' first
    | with_reducible exact Upd.refl _ _ _ _ | exact rfl | exact .inl rfl | exact .inr rfl | with_reducible assumption
    | with_reducible apply Upd.ite | split | dsimp only | intro _ | with_reducible apply Upd.set

theorem coreSrc_upd (p : Nat) (bit : Nat) (s : State) {o_ : Option Nat} :
    Upd [.cmt] [] o_ s (coreSrc p bit s) := by
  unfold coreSrc
  repeat' first
    | with_reducible exact Upd.refl _ _ _ _ | exact rfl | exact .inl rfl | exact .inr rfl | with_reducible assumption
    | with_reducible apply Upd.ite | with_reducible apply Upd.step' (markSrc_upd ..) | split | dsimp only | intro _

theorem progFault_upd (code : Nat) (p : Nat) (s : State) {o_ : Option Nat} :
    Upd [.cmt] [] o_ s (progFault code p s) := by
  unfold progFault
  repeat' first
    | with_reducible exact Upd.refl _ _ _ _ | exact rfl | exact .inl rfl | exact .inr rfl | with_reducible assumption
    | with_reducible apply Upd.ite | split | dsimp only | intro _ | with_reducible apply Upd.set

theorem chStat_upd (p : Nat) (bit : Nat) (s : State) {o_ : Option Nat} :
    Upd [.regs, .evts, .host] [] o_ s (chStat p bit s) := by
  unfold chStat
  repeat' first
    | with_reducible exact Upd.refl _ _ _ _ | exact rfl | exact .inl rfl | exact .inr rfl | with_reducible assumption
    | with_reducible apply Upd.ite | with_reducible apply Upd.step' (noteStat_upd ..) | split | dsimp only | intro _

theorem feStat_upd (p : Nat) (bit : Nat) (s : State) {o_ : Option Nat} :
    Upd [.regs, .evts, .host] [] o_ s (feStat p bit s) := by
  unfold feStat
  repeat' first
    | with_reducible exact Upd.refl _ _ _ _ | exact rfl | exact .inl rfl | exact .inr rfl | with_reducible assumption
    | with_reducible apply Upd.ite | with_reducible apply Upd.step' (noteStat_upd ..) | split | dsimp only | intro _

theorem bsnStat_upd (p : Nat) (bit : Nat) (s : State) {o_ : Option Nat} :
    Upd [.regs, .evts, .host] [] o_ s (bsnStat p bit s) := by
  unfold bsnStat
  repeat' first
    | with_reducible exact Upd.refl _ _ _ _ | exact rfl | exact .inl rfl | exact .inr rfl | with_reducible assumption
    | with_reducible apply Upd.ite | with_reducible apply Upd.step' (noteStat_upd ..) | split | dsimp only | intro _

theorem countAt_upd (p : Nat) (t : Nat) (code : Nat) (n : Nat) (s : State) :
    Upd [.cores] [.pc] (some p) s (countAt p t code n s) := by
  unfold countAt
  repeat' first
    | with_reducible exact Upd.refl _ _ _ _ | exact rfl | exact .inl rfl | exact .inr rfl | with_reducible assumption
    | with_reducible apply Upd.ite | with_reducible apply Upd.updCore | with_reducible exact CUpd.refl _ _ | with_reducible apply CUpd.ite
    | with_reducible apply CUpd.set | split | dsimp only | intro _

theorem gcount_upd (code : Nat) (inst : Nat) (n : Nat) (s : State) {o_ : Option Nat} :
    Upd [.trc] [] o_ s (gcount code inst n s) := by
  unfold gcount
  repeat' first
    | with_reducible exact Upd.refl _ _ _ _ | exact rfl | exact .inl rfl | exact .inr rfl | with_reducible assumption
    | with_reducible apply Upd.ite | with_reducible apply Upd.foldN | split | dsimp only | intro _ | with_reducible apply Upd.set

theorem slotConf_upd (p : Nat) (bank : Nat) (s : State) {o_ : Option Nat} :
    Upd [.regs, .evts, .cmt, .host] [] o_ s (slotConf p bank s) := by
  unfold slotConf
  repeat' first
    | with_reducible exact Upd.refl _ _ _ _ | exact rfl | exact .inl rfl | exact .inr rfl | with_reducible assumption
    | with_reducible apply Upd.ite | with_reducible apply Upd.step' (progFault_upd ..) | with_reducible apply Upd.step' (bsnStat_upd ..)
    | with_reducible apply Upd.step' (note_upd ..) | split | dsimp only | intro _

theorem takeSlot_upd (p : Nat) (bank : Nat) (s : State) :
    Upd [.regs, .evts, .cores, .cmt, .host] [.job, .bsn] (some p) s (takeSlot p bank s).2 := by
  unfold takeSlot
  repeat' first
    | with_reducible exact Upd.refl _ _ _ _ | exact rfl | exact .inl rfl | exact .inr rfl | with_reducible assumption
    | with_reducible apply Upd.ite | with_reducible apply Upd.step' (slotConf_upd ..) | with_reducible apply Upd.updCore
    | with_reducible exact CUpd.refl _ _ | with_reducible apply CUpd.ite | with_reducible apply CUpd.set | split | dsimp only | intro _

theorem basinCorrected_upd (p : Nat) (bank : Nat) (row : Nat) (s : State) :
    Upd [.regs, .evts, .cores, .host] [.bsn] (some p) s (basinCorrected p bank row s) := by
  unfold basinCorrected
  repeat' first
    | with_reducible exact Upd.refl _ _ _ _ | exact rfl | exact .inl rfl | exact .inr rfl | with_reducible assumption
    | with_reducible apply Upd.ite | with_reducible apply Upd.step' (note_upd ..) | with_reducible apply Upd.updCore
    | with_reducible exact CUpd.refl _ _ | with_reducible apply CUpd.set | split | dsimp only | intro _

theorem basinPoisoned_upd (p : Nat) (bank : Nat) (row : Nat) (s : State) :
    Upd [.regs, .evts, .cores, .cmt, .host] [.bsn] (some p) s (basinPoisoned p bank row s) := by
  unfold basinPoisoned
  repeat' first
    | with_reducible exact Upd.refl _ _ _ _ | exact rfl | exact .inl rfl | exact .inr rfl | with_reducible assumption
    | with_reducible apply Upd.ite | with_reducible apply Upd.step' (coreSrc_upd ..) | with_reducible apply Upd.step' (bsnStat_upd ..)
    | with_reducible apply Upd.step' (note_upd ..) | with_reducible apply Upd.updCore | with_reducible exact CUpd.refl _ _
    | with_reducible apply CUpd.ite | with_reducible apply CUpd.set | split | dsimp only | intro _

theorem rowErrors_upd (ev : List HwEvent) (p : Nat) (bank : Nat) (row : Nat) (s : State) :
    Upd [.regs, .evts, .cores, .cmt, .host] [.bsn] (some p) s (rowErrors ev p bank row s) := by
  unfold rowErrors
  repeat' first
    | with_reducible exact Upd.refl _ _ _ _ | exact rfl | exact .inl rfl | exact .inr rfl | with_reducible assumption
    | with_reducible apply Upd.ite | with_reducible apply Upd.step (basinCorrected_upd ..) | with_reducible apply Upd.step (basinPoisoned_upd ..)
    | with_reducible apply Upd.foldl | split | dsimp only | intro _

theorem hndMismatch_upd (p : Nat) (s : State) {o_ : Option Nat} :
    Upd [.regs, .evts, .cmt, .host] [] o_ s (hndMismatch p s) := by
  unfold hndMismatch
  repeat' first
    | with_reducible exact Upd.refl _ _ _ _ | exact rfl | exact .inl rfl | exact .inr rfl | with_reducible assumption
    | with_reducible apply Upd.ite | with_reducible apply Upd.step' (coreSrc_upd ..) | with_reducible apply Upd.step' (bsnStat_upd ..) | split
    | dsimp only | intro _

theorem readChecks_upd (p : Nat) (h : Nat) (e : Hnd) (n : Nat) (s : State) {o_ : Option Nat} :
    Upd [.regs, .evts, .cmt, .host] [] o_ s (readChecks p h e n s) := by
  unfold readChecks
  repeat' first
    | with_reducible exact Upd.refl _ _ _ _ | exact rfl | exact .inl rfl | exact .inr rfl | with_reducible assumption
    | with_reducible apply Upd.ite | with_reducible apply Upd.step' (coreSrc_upd ..) | with_reducible apply Upd.step' (bsnStat_upd ..)
    | with_reducible apply Upd.step' (progFault_upd ..) | split | dsimp only | intro _

theorem readPart_upd (ev : List HwEvent) (p : Nat) (bank : Nat) (row : Nat) (lo : Nat) (n : Nat) (s : State) :
    Upd [.regs, .evts, .cores, .cmt, .host] [.bsn] (some p) s (readPart ev p bank row lo n s).2 := by
  unfold readPart
  repeat' first
    | with_reducible exact Upd.refl _ _ _ _ | exact rfl | exact .inl rfl | exact .inr rfl | with_reducible assumption
    | with_reducible apply Upd.ite | with_reducible apply Upd.step (rowErrors_upd ..) | split | dsimp only | intro _

theorem exReadAt_upd (placed : Bool) (ev : List HwEvent) (p : Nat) (h : Nat) (off : Int) (n : Nat) (s : State) :
    Upd [.regs, .evts, .cores, .cmt, .host] [.job, .bsn] (some p) s (exReadAt placed ev p h off n s).2 := by
  unfold exReadAt
  repeat' first
    | with_reducible exact Upd.refl _ _ _ _ | exact rfl | exact .inl rfl | exact .inr rfl | with_reducible assumption
    | with_reducible apply Upd.ite | with_reducible apply Upd.step' (hndMismatch_upd ..) | with_reducible apply Upd.step' (progFault_upd ..)
    | with_reducible apply Upd.step (takeSlot_upd ..) | with_reducible apply Upd.step (readPart_upd ..)
    | with_reducible apply Upd.step' (readChecks_upd ..) | with_reducible apply Upd.foldl | with_reducible apply Upd.foldl_snd
    | with_reducible apply Upd.foldl_fst | with_reducible apply Upd.of_snd (by assumption) | split | dsimp only | intro _

theorem exRead_upd (ev : List HwEvent) (p : Nat) (h : Nat) (off : Int) (n : Nat) (s : State) :
    Upd [.regs, .evts, .cores, .cmt, .host] [.job, .bsn] (some p) s (exRead ev p h off n s).2 := by
  unfold exRead
  repeat' first
    | with_reducible exact Upd.refl _ _ _ _ | exact rfl | exact .inl rfl | exact .inr rfl | with_reducible assumption
    | with_reducible apply Upd.ite | with_reducible apply Upd.step (exReadAt_upd ..) | with_reducible apply Upd.of_snd (by assumption) | split
    | dsimp only | intro _

theorem exWrite_upd (ev : List HwEvent) (p : Nat) (h : Nat) (off : Int) (bytes : List Byte) (s : State) :
    Upd [.regs, .evts, .cores, .cmt, .host] [.job, .bsn] (some p) s (exWrite ev p h off bytes s) := by
  unfold exWrite
  repeat' first
    | with_reducible exact Upd.refl _ _ _ _ | exact rfl | exact .inl rfl | exact .inr rfl | with_reducible assumption
    | with_reducible apply Upd.ite | with_reducible apply Upd.step' (hndMismatch_upd ..) | with_reducible apply Upd.step' (progFault_upd ..)
    | with_reducible apply Upd.step (takeSlot_upd ..) | with_reducible apply Upd.updCore | with_reducible exact CUpd.refl _ _
    | with_reducible apply CUpd.foldN | with_reducible apply CUpd.set | with_reducible apply Upd.foldl | with_reducible apply Upd.foldl_snd
    | with_reducible apply Upd.foldl_fst | with_reducible apply Upd.of_snd (by assumption) | split | dsimp only | intro _

theorem depRow_upd (p : Nat) (h : Nat) (n : Nat) (lo : Nat) (bytes : List Byte) (s : State) :
    Upd [.regs, .evts, .cores, .cmt, .host] [.bsn] (some p) s (depRow p h n lo bytes s) := by
  unfold depRow
  repeat' first
    | with_reducible exact Upd.refl _ _ _ _ | exact rfl | exact .inl rfl | exact .inr rfl | with_reducible assumption
    | with_reducible apply Upd.ite | with_reducible apply Upd.step' (progFault_upd ..) | with_reducible apply Upd.step' (bsnStat_upd ..)
    | with_reducible apply Upd.updCore | with_reducible exact CUpd.refl _ _ | with_reducible apply CUpd.ite | with_reducible apply CUpd.set
    | split | dsimp only | intro _

theorem depAt_upd (ev : List HwEvent) (p : Nat) (h : Nat) (off : Int) (bytes : List Byte) (s : State) :
    Upd [.regs, .evts, .cores, .cmt, .host] [.bsn] (some p) s (depAt ev p h off bytes s) := by
  unfold depAt
  repeat' first
    | with_reducible exact Upd.refl _ _ _ _ | exact rfl | exact .inl rfl | exact .inr rfl | with_reducible assumption
    | with_reducible apply Upd.ite | with_reducible apply Upd.step' (hndMismatch_upd ..) | with_reducible apply Upd.step' (progFault_upd ..)
    | with_reducible apply Upd.step (depRow_upd ..) | with_reducible apply Upd.foldl | with_reducible apply Upd.foldl_snd
    | with_reducible apply Upd.foldl_fst | split | dsimp only | intro _

theorem hbmUeNote_upd (st : Nat) (su : Nat) (s : State) {o_ : Option Nat} :
    Upd [.regs, .evts, .host] [] o_ s (hbmUeNote st su s) := by
  unfold hbmUeNote
  repeat' first
    | with_reducible exact Upd.refl _ _ _ _ | exact rfl | exact .inl rfl | exact .inr rfl | with_reducible assumption
    | with_reducible apply Upd.ite | with_reducible apply Upd.step' (note_upd ..) | split | dsimp only | intro _

theorem hbmErrors_upd (ev : List HwEvent) (p : Nat) (die : Nat) (st : Nat) (su : Nat) (u : Nat) (n : Nat) (s : State) {o_ : Option Nat} :
    Upd [.regs, .evts, .hbm, .cmt, .host] [] o_ s (hbmErrors ev p die st su u n s) := by
  unfold hbmErrors
  repeat' first
    | with_reducible exact Upd.refl _ _ _ _ | exact rfl | exact .inl rfl | exact .inr rfl | with_reducible assumption
    | with_reducible apply Upd.ite | with_reducible apply Upd.step' (note_upd ..) | with_reducible apply Upd.step' (coreSrc_upd ..)
    | with_reducible apply Upd.step' (hbmUeNote_upd ..) | with_reducible apply Upd.foldl | split | dsimp only | intro _
    | with_reducible apply Upd.set

theorem regionRead_upd (ev : List HwEvent) (p : Nat) (i : Nat) (r : RegionD) (a : Nat) (s : State) {o_ : Option Nat} :
    Upd [.regs, .evts, .hbm, .cmt, .host] [] o_ s (regionRead ev p i r a s).2 := by
  unfold regionRead
  repeat' first
    | with_reducible exact Upd.refl _ _ _ _ | exact rfl | exact .inl rfl | exact .inr rfl | with_reducible assumption
    | with_reducible apply Upd.ite | with_reducible apply Upd.step' (hbmErrors_upd ..) | split | dsimp only | intro _

theorem reservedRead_upd (ev : List HwEvent) (p : Nat) (die : Nat) (u : Nat) (raw : List Byte) (s : State) {o_ : Option Nat} :
    Upd [.regs, .evts, .hbm, .cmt, .host] [] o_ s (reservedRead ev p die u raw s).2 := by
  unfold reservedRead
  repeat' first
    | with_reducible exact Upd.refl _ _ _ _ | exact rfl | exact .inl rfl | exact .inr rfl | with_reducible assumption
    | with_reducible apply Upd.ite | with_reducible apply Upd.step' (hbmErrors_upd ..) | split | dsimp only | intro _

theorem regionWrite_upd (p : Nat) (i : Nat) (r : RegionD) (a : Nat) (bytes : List Byte) (s : State) {o_ : Option Nat} :
    Upd [.hbm, .cmt] [] o_ s (regionWrite p i r a bytes s) := by
  unfold regionWrite
  repeat' first
    | with_reducible exact Upd.refl _ _ _ _ | exact rfl | exact .inl rfl | exact .inr rfl | with_reducible assumption
    | with_reducible apply Upd.ite | with_reducible apply Upd.step' (progFault_upd ..) | split | dsimp only | intro _
    | with_reducible apply Upd.set

theorem fillRegions_upd (rs : List RegionD) (sel : Nat → Bool) (data : List (Nat × List Byte)) (s : State) {o_ : Option Nat} :
    Upd [.hbm] [] o_ s (fillRegions rs sel data s) := by
  unfold fillRegions
  with_reducible apply Upd.set
  all_goals first | exact Upd.refl _ _ _ _ | exact .inl rfl | exact .inr rfl

theorem writeCommitted_upd (i : Nat) (r : RegionD) (off : Nat) (b : List Byte) (s : State) {o_ : Option Nat} :
    Upd [.hbm] [] o_ s (writeCommitted i r off b s) := by
  unfold writeCommitted
  with_reducible apply Upd.set
  all_goals first | exact Upd.refl _ _ _ _ | exact .inl rfl | exact .inr rfl

end Sys2Proof.Machine
end

