-- ==== Sys2Proof/Laws/Fop.lean ====
section
/-! SUPPORT. What each operation of Sys2Proof/Machine/Fop.lean can change: its footprint. -/
namespace Sys2Proof.Machine
set_option linter.all false

theorem edgeArrives_upd (src : Nat) (gone : Nat) (s : State) {o_ : Option Nat} :
    Upd [.clk] [] o_ s (edgeArrives src gone s) := by
  unfold edgeArrives
  repeat' first
    | with_reducible exact Upd.refl _ _ _ _ | exact rfl | exact .inl rfl | exact .inr rfl | with_reducible assumption
    | with_reducible apply Upd.ite | split | dsimp only | intro _ | with_reducible apply Upd.set

theorem execTickSourceEdge_upd (src : Nat) (s : State) {o_ : Option Nat} {t : State} (h : execTickSourceEdge src s = .next t) :
    Upd [.clk] [] o_ s t := by
  refine guarded_upd (fun s => ?_) h
  repeat' first
    | with_reducible exact Upd.refl _ _ _ _ | exact rfl | exact .inl rfl | exact .inr rfl | with_reducible assumption
    | with_reducible apply Upd.ite | with_reducible apply Upd.step' (edgeArrives_upd ..) | split | dsimp only | intro _

theorem execTickSymbolArrival_upd (n : Nat) (_tick : Nat) (delay : Nat) (s : State) {o_ : Option Nat} {t : State} (h : execTickSymbolArrival n _tick delay s = .next t) :
    Upd [.clk] [] o_ s t := by
  refine guarded_upd (fun s => ?_) h
  repeat' first
    | with_reducible exact Upd.refl _ _ _ _ | exact rfl | exact .inl rfl | exact .inr rfl | with_reducible assumption
    | with_reducible apply Upd.ite | with_reducible apply Upd.step' (edgeArrives_upd ..) | split | dsimp only | intro _

theorem execMissedBoundary_upd (s : State) {o_ : Option Nat} {t : State} (h : execMissedBoundary s = .next t) :
    Upd [.clk] [] o_ s t := by
  cases h
  repeat' first
    | with_reducible exact Upd.refl _ _ _ _ | exact rfl | exact .inl rfl | exact .inr rfl | with_reducible assumption
    | with_reducible apply Upd.ite | split | dsimp only | intro _ | with_reducible apply Upd.set

theorem execHoldoverExpiry_upd (s : State) {o_ : Option Nat} {t : State} (h : execHoldoverExpiry s = .next t) :
    Upd [.regs, .clk, .host] [] o_ s t := by
  cases h
  repeat' first
    | with_reducible exact Upd.refl _ _ _ _ | exact rfl | exact .inl rfl | exact .inr rfl | with_reducible assumption
    | with_reducible apply Upd.ite | with_reducible apply Upd.step' (irqRaise_upd ..) | split | dsimp only | intro _
    | with_reducible apply Upd.set

theorem execTickNumberExhausted_upd (s : State) {o_ : Option Nat} {t : State} (h : execTickNumberExhausted s = .next t) :
    Upd [.clk] [] o_ s t := by
  cases h
  repeat' first
    | with_reducible exact Upd.refl _ _ _ _ | exact rfl | exact .inl rfl | exact .inr rfl | with_reducible assumption
    | with_reducible apply Upd.ite | split | dsimp only | intro _ | with_reducible apply Upd.set

theorem execTickNumStartWrite_upd (port : Port) (v : BitVec 48) (s : State) {o_ : Option Nat} {t : State} (h : execTickNumStartWrite port v s = .next t) :
    Upd [.regs, .clk, .host] [] o_ s t := by
  cases h
  repeat' first
    | with_reducible exact Upd.refl _ _ _ _ | exact rfl | exact .inl rfl | exact .inr rfl | with_reducible assumption
    | with_reducible apply Upd.ite | with_reducible apply hostGate_upd | with_reducible apply Upd.step' (setReg64_upd ..) | split | dsimp only
    | intro _ | with_reducible apply Upd.set

theorem fopRefused_upd (port : Option Port) (cause : Nat) (s : State) {o_ : Option Nat} :
    Upd [.regs, .clk, .host] [] o_ s (fopRefused port cause s) := by
  unfold fopRefused
  repeat' first
    | with_reducible exact Upd.refl _ _ _ _ | exact rfl | exact .inl rfl | exact .inr rfl | with_reducible assumption
    | with_reducible apply Upd.ite | with_reducible apply Upd.step' (irqRaise_upd ..) | with_reducible apply Upd.step' (setBits_upd ..)
    | with_reducible apply Upd.step' (refuseWrite_upd ..) | split | dsimp only | intro _ | with_reducible apply Upd.set

theorem setRails_upd (f : Nat) (s : State) {o_ : Option Nat} :
    Upd [.clk] [] o_ s (setRails f s) := by
  unfold setRails
  repeat' first
    | with_reducible exact Upd.refl _ _ _ _ | exact rfl | exact .inl rfl | exact .inr rfl | with_reducible assumption
    | with_reducible apply Upd.ite | split | dsimp only | intro _ | with_reducible apply Upd.set

theorem fopRequested_upd (port : Option Port) (f : Nat) (at_ : Nat) (s : State) {o_ : Option Nat} :
    Upd [.regs, .clk, .host] [] o_ s (fopRequested port f at_ s) := by
  unfold fopRequested
  repeat' first
    | with_reducible exact Upd.refl _ _ _ _ | exact rfl | exact .inl rfl | exact .inr rfl | with_reducible assumption
    | with_reducible apply Upd.ite | with_reducible apply Upd.step' (setField_upd ..) | with_reducible apply Upd.step' (setReg64_upd ..)
    | with_reducible apply Upd.step' (fopRefused_upd ..) | with_reducible apply Upd.step' (setRails_upd ..) | split | dsimp only | intro _
    | with_reducible apply Upd.set

theorem execFopRequest_upd (who : Requester) (fop : Nat) (s : State) {o_ : Option Nat} {t : State} (h : execFopRequest who fop s = .next t) :
    Upd [.regs, .clk, .host] [] o_ s t := by
  refine guarded_upd (fun s => ?_) h
  repeat' first
    | with_reducible exact Upd.refl _ _ _ _ | exact rfl | exact .inl rfl | exact .inr rfl | with_reducible assumption
    | with_reducible apply Upd.ite | with_reducible apply hostGate_upd | with_reducible apply Upd.step' (fopRequested_upd ..) | split
    | dsimp only | intro _

theorem execPllLock_upd (die : Nat) (s : State) {o_ : Option Nat} {t : State} (h : execPllLock die s = .next t) :
    Upd [.clk] [] o_ s t := by
  refine guarded_upd (fun s => ?_) h
  repeat' first
    | with_reducible exact Upd.refl _ _ _ _ | exact rfl | exact .inl rfl | exact .inr rfl | with_reducible assumption
    | with_reducible apply Upd.ite | split | dsimp only | intro _ | with_reducible apply Upd.set

theorem moveService_upd (f : Nat) (s : State) {o_ : Option Nat} :
    Upd [.regs, .clk, .host] [] o_ s (moveService f s) := by
  unfold moveService
  repeat' first
    | with_reducible exact Upd.refl _ _ _ _ | exact rfl | exact .inl rfl | exact .inr rfl | with_reducible assumption
    | with_reducible apply Upd.ite | with_reducible apply Upd.step' (fopRequested_upd ..) | split | dsimp only | intro _
    | with_reducible apply Upd.set

theorem lowerFop_upd (s : State) {o_ : Option Nat} :
    Upd [.regs, .clk, .host, .out] [] o_ s (lowerFop s) := by
  unfold lowerFop
  repeat' first
    | with_reducible exact Upd.refl _ _ _ _ | exact rfl | exact .inl rfl | exact .inr rfl | with_reducible assumption
    | with_reducible apply Upd.ite | with_reducible apply Upd.step' (emit_upd ..) | with_reducible apply Upd.step' (moveService_upd ..) | split
    | dsimp only | intro _

theorem clearWarned_upd (s : State) {o_ : Option Nat} :
    Upd [.clk] [] o_ s (clearWarned s) := by
  unfold clearWarned
  repeat' first
    | with_reducible exact Upd.refl _ _ _ _ | exact rfl | exact .inl rfl | exact .inr rfl | with_reducible assumption
    | with_reducible apply Upd.ite | with_reducible apply Upd.foldl | with_reducible apply Upd.foldl_snd | with_reducible apply Upd.foldl_fst
    | split | dsimp only | intro _ | with_reducible apply Upd.set

theorem fopDown_upd (s : State) {o_ : Option Nat} :
    Upd [.regs, .clk, .host, .out] [] o_ s (fopDown s) := by
  unfold fopDown
  repeat' first
    | with_reducible exact Upd.refl _ _ _ _ | exact rfl | exact .inl rfl | exact .inr rfl | with_reducible assumption
    | with_reducible apply Upd.ite | with_reducible apply Upd.step' (clearWarned_upd ..) | with_reducible apply Upd.step' (lowerFop_upd ..)
    | split | dsimp only | intro _ | with_reducible apply Upd.set

theorem execFopStepDown_upd (s : State) {o_ : Option Nat} {t : State} (h : execFopStepDown s = .next t) :
    Upd [.regs, .clk, .host, .out] [] o_ s t := by
  cases h
  repeat' first
    | with_reducible exact Upd.refl _ _ _ _ | exact rfl | exact .inl rfl | exact .inr rfl | with_reducible assumption
    | with_reducible apply Upd.ite | with_reducible apply Upd.step' (fopDown_upd ..) | split | dsimp only | intro _

theorem fopUp_upd (s : State) {o_ : Option Nat} :
    Upd [.regs, .clk, .host] [] o_ s (fopUp s) := by
  unfold fopUp
  repeat' first
    | with_reducible exact Upd.refl _ _ _ _ | exact rfl | exact .inl rfl | exact .inr rfl | with_reducible assumption
    | with_reducible apply Upd.ite | with_reducible apply Upd.step' (moveService_upd ..) | split | dsimp only | intro _
    | with_reducible apply Upd.set

theorem execFopStepUp_upd (s : State) {o_ : Option Nat} {t : State} (h : execFopStepUp s = .next t) :
    Upd [.regs, .clk, .host] [] o_ s t := by
  cases h
  repeat' first
    | with_reducible exact Upd.refl _ _ _ _ | exact rfl | exact .inl rfl | exact .inr rfl | with_reducible assumption
    | with_reducible apply Upd.ite | with_reducible apply Upd.step' (fopUp_upd ..) | split | dsimp only | intro _

theorem fopSwitch_upd (s : State) {o_ : Option Nat} :
    Upd [.regs, .clk, .host] [] o_ s (fopSwitch s) := by
  unfold fopSwitch
  repeat' first
    | with_reducible exact Upd.refl _ _ _ _ | exact rfl | exact .inl rfl | exact .inr rfl | with_reducible assumption
    | with_reducible apply Upd.ite | with_reducible apply Upd.step' (irqRaise_upd ..) | with_reducible apply Upd.step' (setRails_upd ..) | split
    | dsimp only | intro _ | with_reducible apply Upd.set

theorem updRegion_upd (g : Nat) (f : Region → Region) (s : State) {o_ : Option Nat} :
    Upd [.clk] [] o_ s (updRegion g f s) := by
  unfold updRegion
  repeat' first
    | with_reducible exact Upd.refl _ _ _ _ | exact rfl | exact .inl rfl | exact .inr rfl | with_reducible assumption
    | with_reducible apply Upd.ite | split | dsimp only | intro _ | with_reducible apply Upd.set

theorem sentReport_upd (g : Nat) (k : Nat) (step : Nat) (s : State) {o_ : Option Nat} :
    Upd [.clk] [] o_ s (sentReport g k step s) := by
  unfold sentReport
  repeat' first
    | with_reducible exact Upd.refl _ _ _ _ | exact rfl | exact .inl rfl | exact .inr rfl | with_reducible assumption
    | with_reducible apply Upd.ite | with_reducible apply Upd.step' (updRegion_upd ..) | split | dsimp only | intro _

theorem execMarginFall_upd (g : Nat) (k : Nat) (step : Nat) (s : State) {o_ : Option Nat} {t : State} (h : execMarginFall g k step s = .next t) :
    Upd [.clk] [] o_ s t := by
  refine guarded_upd (fun s => ?_) h
  repeat' first
    | with_reducible exact Upd.refl _ _ _ _ | exact rfl | exact .inl rfl | exact .inr rfl | with_reducible assumption
    | with_reducible apply Upd.ite | with_reducible apply Upd.step' (sentReport_upd ..) | split | dsimp only | intro _

theorem execMarginRecovery_upd (g : Nat) (k : Nat) (step : Nat) (s : State) {o_ : Option Nat} {t : State} (h : execMarginRecovery g k step s = .next t) :
    Upd [.clk] [] o_ s t := by
  refine guarded_upd (fun s => ?_) h
  repeat' first
    | with_reducible exact Upd.refl _ _ _ _ | exact rfl | exact .inl rfl | exact .inr rfl | with_reducible assumption
    | with_reducible apply Upd.ite | with_reducible apply Upd.step' (sentReport_upd ..) | split | dsimp only | intro _

theorem sentCheck_upd (g : Nat) (s : State) {o_ : Option Nat} :
    Upd [.regs, .clk, .host] [] o_ s (sentCheck g s) := by
  unfold sentCheck
  repeat' first
    | with_reducible exact Upd.refl _ _ _ _ | exact rfl | exact .inl rfl | exact .inr rfl | with_reducible assumption
    | with_reducible apply Upd.ite | with_reducible apply Upd.step' (updRegion_upd ..) | with_reducible apply Upd.step' (irqRaise_upd ..)
    | with_reducible apply Upd.step' (setBits_upd ..) | split | dsimp only | intro _ | with_reducible apply Upd.set

theorem execSentinelWarning_upd (g : Nat) (s : State) {o_ : Option Nat} {t : State} (h : execSentinelWarning g s = .next t) :
    Upd [.regs, .clk, .host] [] o_ s t := by
  refine guarded_upd (fun s => ?_) h
  repeat' first
    | with_reducible exact Upd.refl _ _ _ _ | exact rfl | exact .inl rfl | exact .inr rfl | with_reducible assumption
    | with_reducible apply Upd.ite | with_reducible apply Upd.step' (sentCheck_upd ..) | split | dsimp only | intro _

theorem colNote_upd (c : Nat) (held : Nat) (s : State) {o_ : Option Nat} :
    Upd [.clk] [] o_ s (colNote c held s) := by
  unfold colNote
  repeat' first
    | with_reducible exact Upd.refl _ _ _ _ | exact rfl | exact .inl rfl | exact .inr rfl | with_reducible assumption
    | with_reducible apply Upd.ite | split | dsimp only | intro _ | with_reducible apply Upd.set

theorem colHeld_upd (c : Nat) (s : State) {o_ : Option Nat} :
    Upd [.clk] [] o_ s (colHeld c s) := by
  unfold colHeld
  repeat' first
    | with_reducible exact Upd.refl _ _ _ _ | exact rfl | exact .inl rfl | exact .inr rfl | with_reducible assumption
    | with_reducible apply Upd.ite | with_reducible apply Upd.step' (colNote_upd ..) | with_reducible apply Upd.step' (updRegion_upd ..) | split
    | dsimp only | intro _

theorem execColHold_upd (c : Nat) (s : State) {o_ : Option Nat} {t : State} (h : execColHold c s = .next t) :
    Upd [.clk] [] o_ s t := by
  refine guarded_upd (fun s => ?_) h
  repeat' first
    | with_reducible exact Upd.refl _ _ _ _ | exact rfl | exact .inl rfl | exact .inr rfl | with_reducible assumption
    | with_reducible apply Upd.ite | with_reducible apply Upd.step' (colHeld_upd ..) | split | dsimp only | intro _

theorem regionLc_upd (s : State) {o_ : Option Nat} :
    Upd [.regs, .clk, .host] [] o_ s (regionLc s) := by
  unfold regionLc
  repeat' first
    | with_reducible exact Upd.refl _ _ _ _ | exact rfl | exact .inl rfl | exact .inr rfl | with_reducible assumption
    | with_reducible apply Upd.ite | with_reducible apply Upd.step' (sentCheck_upd ..) | with_reducible apply Upd.step' (colNote_upd ..)
    | with_reducible apply Upd.foldl | with_reducible apply Upd.foldN | with_reducible apply Upd.foldl_snd | with_reducible apply Upd.foldl_fst
    | with_reducible apply Upd.foldN_snd | with_reducible apply Upd.foldN_fst | split | dsimp only | intro _ | with_reducible apply Upd.set

theorem rebase_upd (s : State) {o_ : Option Nat} :
    Upd [.clk] [] o_ s (rebase s) := by
  unfold rebase
  repeat' first
    | with_reducible exact Upd.refl _ _ _ _ | exact rfl | exact .inl rfl | exact .inr rfl | with_reducible assumption
    | with_reducible apply Upd.ite | with_reducible apply Upd.foldl | split | dsimp only | intro _ | with_reducible apply Upd.set

end Sys2Proof.Machine
end

