-- ==== Sys2Proof/Laws/Flags.lean ====
section
/-! SUPPORT. What each operation of Sys2Proof/Machine/Flags.lean can change: its footprint. -/
namespace Sys2Proof.Machine
set_option linter.all false

theorem addObj_upd (p : Nat) (o : Nat) (n : Nat) (s : State) :
    Upd [.cores] [.adds] (some p) s (addObj p o n s) := by
  unfold addObj
  repeat' first
    | with_reducible exact Upd.refl _ _ _ _ | exact rfl | exact .inl rfl | exact .inr rfl | with_reducible assumption
    | with_reducible apply Upd.ite | with_reducible apply Upd.updCore | with_reducible exact CUpd.refl _ _ | with_reducible apply CUpd.ite
    | with_reducible apply CUpd.set | split | dsimp only | intro _

theorem takeObj_upd (p : Nat) (o : Nat) (n : Nat) (s : State) :
    Upd [.cores] [.takes] (some p) s (takeObj p o n s) := by
  unfold takeObj
  repeat' first
    | with_reducible exact Upd.refl _ _ _ _ | exact rfl | exact .inl rfl | exact .inr rfl | with_reducible assumption
    | with_reducible apply Upd.ite | with_reducible apply Upd.updCore | with_reducible exact CUpd.refl _ _ | with_reducible apply CUpd.ite
    | with_reducible apply CUpd.set | split | dsimp only | intro _

theorem startWith_upd (p : Nat) (u : Nat) (i : Ins) (tm : Timing) (sigs : List Sig) (s : State) :
    Upd [.cores] [.q, .busy, .started, .sigs, .job, .obj, .issue] (some p) s (startWith p u i tm sigs s) := by
  unfold startWith
  repeat' first
    | with_reducible exact Upd.refl _ _ _ _ | exact rfl | exact .inl rfl | exact .inr rfl | with_reducible assumption
    | with_reducible apply Upd.ite | with_reducible apply Upd.updCore | with_reducible exact CUpd.refl _ _ | with_reducible apply CUpd.foldN
    | with_reducible apply CUpd.set | with_reducible apply Upd.foldl | split | dsimp only | intro _

theorem startUnit_upd (p : Nat) (u : Nat) (i : Ins) (tm : Timing) (s : State) :
    Upd [.cores] [.q, .busy, .started, .sigs, .job, .obj, .issue] (some p) s (startUnit p u i tm s) := by
  unfold startUnit
  repeat' first
    | with_reducible exact Upd.refl _ _ _ _ | exact rfl | exact .inl rfl | exact .inr rfl | with_reducible assumption
    | with_reducible apply Upd.ite | with_reducible apply Upd.step (startWith_upd ..) | split | dsimp only | intro _

theorem addWork_upd (p : Nat) (w : Work) (s : State) :
    Upd [.cores] [.job] (some p) s (addWork p w s) := by
  unfold addWork
  repeat' first
    | with_reducible exact Upd.refl _ _ _ _ | exact rfl | exact .inl rfl | exact .inr rfl | with_reducible assumption
    | with_reducible apply Upd.ite | with_reducible apply Upd.updCore | with_reducible exact CUpd.refl _ _ | with_reducible apply CUpd.set
    | split | dsimp only | intro _

theorem addLate_upd (p : Nat) (t : Nat) (ev : List HwEvent) (w : VWr) (s : State) :
    Upd [.cores] [.job] (some p) s (addLate p t ev w s) := by
  unfold addLate
  repeat' first
    | with_reducible exact Upd.refl _ _ _ _ | exact rfl | exact .inl rfl | exact .inr rfl | with_reducible assumption
    | with_reducible apply Upd.ite | with_reducible apply Upd.updCore | with_reducible exact CUpd.refl _ _ | with_reducible apply CUpd.set
    | split | dsimp only | intro _

theorem unitRun_upd {F : List SFld} {D : List CFld} {k : Option Nat} {b s : State} {p : Nat} {u op : Nat} {tim : Ins → State → Timing}
    {eff : Ins → Timing → State → State} (hF : SFld.sub [.cores] F = true) (hD : CFld.sub [.q, .busy, .started, .sigs, .job, .obj, .issue] D = true)
    (ho : k = none ∨ k = some p) (he : ∀ i tm t, Upd F D k t (eff i tm t)) (h : Upd F D k b s) :
    Upd F D k b (unitRun p u op tim eff s) := by
  unfold unitRun
  split
  · exact h
  · dsimp only
    split
    · exact (Upd.step (startUnit_upd ..) hF hD ho h).trans (he _ _ _)
    · exact Upd.step (startUnit_upd ..) hF hD ho h

theorem stepRun_upd {F : List SFld} {D : List CFld} {k : Option Nat} {b s : State} {p u op e : Nat} {ev : List HwEvent}
    {tim : Ins → State → Timing} {pre : Ins → State → State} {acc : Ins → State → Gath} (hF : SFld.sub [.cores] F = true)
    (hD : CFld.sub [.q, .busy, .started, .sigs, .job, .obj, .issue] D = true) (ho : k = none ∨ k = some p) (he : ∀ i t, Upd F D k t (pre i t))
    (h : Upd F D k b s) : Upd F D k b (stepRun p u op e ev tim pre s acc) := by
  unfold stepRun
  refine unitRun_upd hF hD ho (fun i tm t => ?_) h
  exact Upd.step (addWork_upd ..) hF (CFld.sub_trans rfl hD) ho (he _ _)

theorem fireSig_upd (p : Nat) (g : Sig) (s : State) :
    Upd [.cores] [.adds] (some p) s (fireSig p g s) := by
  unfold fireSig
  repeat' first
    | with_reducible exact Upd.refl _ _ _ _ | exact rfl | exact .inl rfl | exact .inr rfl | with_reducible assumption
    | with_reducible apply Upd.ite | with_reducible apply Upd.step (addObj_upd ..) | split | dsimp only | intro _

theorem fireDue_upd (p : Nat) (s : State) :
    Upd [.cores] [.sigs, .adds] (some p) s (fireDue p s) := by
  unfold fireDue
  repeat' first
    | with_reducible exact Upd.refl _ _ _ _ | exact rfl | exact .inl rfl | exact .inr rfl | with_reducible assumption
    | with_reducible apply Upd.ite | with_reducible apply Upd.step (fireSig_upd ..) | with_reducible apply Upd.updCore
    | with_reducible exact CUpd.refl _ _ | with_reducible apply CUpd.foldN | with_reducible apply CUpd.set | with_reducible apply Upd.foldl
    | split | dsimp only | intro _ | with_reducible apply Upd.setCore

theorem endObjs_upd (p : Nat) (s : State) :
    Upd [.regs, .evts, .cores, .cmt, .host] [.obj, .adds, .takes] (some p) s (endObjs p s) := by
  unfold endObjs
  repeat' first
    | with_reducible exact Upd.refl _ _ _ _ | exact rfl | exact .inl rfl | exact .inr rfl | with_reducible assumption
    | with_reducible apply Upd.ite | with_reducible apply Upd.step' (progFault_upd ..) | with_reducible apply Upd.step' (chStat_upd ..)
    | with_reducible apply Upd.updCore | with_reducible exact CUpd.refl _ _ | with_reducible apply CUpd.ite | with_reducible apply CUpd.foldN
    | with_reducible apply CUpd.set | with_reducible apply Upd.foldl | with_reducible apply Upd.foldl_snd | with_reducible apply Upd.foldl_fst
    | split | dsimp only | intro _ | with_reducible apply Upd.setCore

end Sys2Proof.Machine
end

