-- ==== Sys2Proof/Laws/Cells.lean ====
section
/-! SUPPORT. What each operation of Sys2Proof/Machine/Cells.lean can change: its footprint. -/
namespace Sys2Proof.Machine
set_option linter.all false

theorem updEp_upd (p : Nat) (e : Nat) (f : Ep → Ep) (s : State) :
    Upd [.cores] [.ch] (some p) s (updEp p e f s) := by
  unfold updEp
  repeat' first
    | with_reducible exact Upd.refl _ _ _ _ | exact rfl | exact .inl rfl | exact .inr rfl | with_reducible assumption
    | with_reducible apply Upd.ite | with_reducible apply Upd.updCore | with_reducible exact CUpd.refl _ _ | with_reducible apply CUpd.set
    | split | dsimp only | intro _

theorem enterStop_upd (key : Nat) (input : Nat) (r : RCell) (s : State) {o_ : Option Nat} :
    Upd [.fab] [] o_ s (enterStop key input r s) := by
  unfold enterStop
  repeat' first
    | with_reducible exact Upd.refl _ _ _ _ | exact rfl | exact .inl rfl | exact .inr rfl | with_reducible assumption
    | with_reducible apply Upd.ite | split | dsimp only | intro _ | with_reducible apply Upd.set

theorem intoCol_upd (l : Nat) (dst : ColTo) (r : RCell) (s : State) {o_ : Option Nat} :
    Upd [.fab] [] o_ s (intoCol l dst r s) := by
  unfold intoCol
  repeat' first
    | with_reducible exact Upd.refl _ _ _ _ | exact rfl | exact .inl rfl | exact .inr rfl | with_reducible assumption
    | with_reducible apply Upd.ite | split | dsimp only | intro _ | with_reducible apply Upd.set

theorem leaveCore_upd (p : Nat) (ep : Nat) (vc : Nat) (cell : FCell) (s : State) {o_ : Option Nat} :
    Upd [.fab] [] o_ s (leaveCore p ep vc cell s) := by
  unfold leaveCore
  repeat' first
    | with_reducible exact Upd.refl _ _ _ _ | exact rfl | exact .inl rfl | exact .inr rfl | with_reducible assumption
    | with_reducible apply Upd.ite | with_reducible apply Upd.step' (enterStop_upd ..) | split | dsimp only | intro _

theorem creditTo_upd (p : Nat) (ep : Nat) (fseq : Nat) (dst : Nat × Nat × Nat) (s : State) {o_ : Option Nat} :
    Upd [.fab] [] o_ s (creditTo p ep fseq dst s) := by
  unfold creditTo
  repeat' first
    | with_reducible exact Upd.refl _ _ _ _ | exact rfl | exact .inl rfl | exact .inr rfl | with_reducible assumption
    | with_reducible apply Upd.ite | with_reducible apply Upd.step' (leaveCore_upd ..) | split | dsimp only | intro _

theorem replyTo_upd (p : Nat) (ep : Nat) (dst : Nat × Nat × Nat) (code : Nat) (arg : Nat) (ty : Nat) (fseq : Nat) (tag : Nat) (s : State) {o_ : Option Nat} :
    Upd [.fab] [] o_ s (replyTo p ep dst code arg ty fseq tag s) := by
  unfold replyTo
  repeat' first
    | with_reducible exact Upd.refl _ _ _ _ | exact rfl | exact .inl rfl | exact .inr rfl | with_reducible assumption
    | with_reducible apply Upd.ite | with_reducible apply Upd.step' (leaveCore_upd ..) | split | dsimp only | intro _

theorem dropSend_upd (p : Nat) (s : State) {o_ : Option Nat} :
    Upd [.regs, .evts, .host] [] o_ s (dropSend p s) := by
  unfold dropSend
  repeat' first
    | with_reducible exact Upd.refl _ _ _ _ | exact rfl | exact .inl rfl | exact .inr rfl | with_reducible assumption
    | with_reducible apply Upd.ite | with_reducible apply Upd.step' (note_upd ..) | split | dsimp only | intro _

theorem dropRecv_upd (p : Nat) (s : State) {o_ : Option Nat} :
    Upd [.regs, .evts, .host] [] o_ s (dropRecv p s) := by
  unfold dropRecv
  repeat' first
    | with_reducible exact Upd.refl _ _ _ _ | exact rfl | exact .inl rfl | exact .inr rfl | with_reducible assumption
    | with_reducible apply Upd.ite | with_reducible apply Upd.step' (note_upd ..) | split | dsimp only | intro _

theorem sendRefused_upd (p : Nat) (u : SendUse) (s : State) {o_ : Option Nat} :
    Upd [.regs, .evts, .cmt, .host] [] o_ s (sendRefused p u s) := by
  unfold sendRefused
  repeat' first
    | with_reducible exact Upd.refl _ _ _ _ | exact rfl | exact .inl rfl | exact .inr rfl | with_reducible assumption
    | with_reducible apply Upd.ite | with_reducible apply Upd.step' (dropSend_upd ..) | with_reducible apply Upd.step' (progFault_upd ..)
    | with_reducible apply Upd.step' (chStat_upd ..) | split | dsimp only | intro _

theorem sendCell_upd (p : Nat) (e : Nat) (vc : Nat) (credit : Bool) (cell : FCell) (s : State) :
    Upd [.regs, .evts, .cores, .cmt, .host, .fab] [.ch, .pc] (some p) s (sendCell p e vc credit cell s) := by
  unfold sendCell
  repeat' first
    | with_reducible exact Upd.refl _ _ _ _ | exact rfl | exact .inl rfl | exact .inr rfl | with_reducible assumption
    | with_reducible apply Upd.ite | with_reducible apply Upd.step (updEp_upd ..) | with_reducible apply Upd.step (countAt_upd ..)
    | with_reducible apply Upd.step' (leaveCore_upd ..) | with_reducible apply Upd.step' (coreSrc_upd ..)
    | with_reducible apply Upd.step' (chStat_upd ..) | with_reducible apply Upd.step' (dropSend_upd ..) | with_reducible apply Upd.updCore
    | with_reducible exact CUpd.refl _ _ | with_reducible apply CUpd.ite | with_reducible apply CUpd.set | split | dsimp only | intro _

theorem sendFlow_upd (p : Nat) (e : Nat) (vc : Nat) (credit : Bool) (mk : Nat → FCell) (s : State) :
    Upd [.regs, .evts, .cores, .cmt, .host, .fab] [.ch, .pc] (some p) s (sendFlow p e vc credit mk s) := by
  unfold sendFlow
  repeat' first
    | with_reducible exact Upd.refl _ _ _ _ | exact rfl | exact .inl rfl | exact .inr rfl | with_reducible assumption
    | with_reducible apply Upd.ite | with_reducible apply Upd.step (sendCell_upd ..) | with_reducible apply Upd.step (updEp_upd ..) | split
    | dsimp only | intro _

theorem fabricStep_upd {F : List SFld} {D : List CFld} {k : Option Nat} {b s : State} {p t : Nat} {f : State → State}
    (hF : SFld.sub [.cmt] F = true) (hf : ∀ t, Upd F D k t (f t)) (h : Upd F D k b s) : Upd F D k b (fabricStep p t f s) := by
  unfold fabricStep
  split
  · exact Upd.step' (progFault_upd ..) hF rfl h
  · exact h.trans (hf s)

end Sys2Proof.Machine
end

