-- ==== Sys2Proof/Laws/Tiles.lean ====
section
/-! SUPPORT. What each operation of Sys2Proof/Machine/Tiles.lean can change: its footprint. -/
namespace Sys2Proof.Machine
set_option linter.all false

theorem vxFlt_upd (p : Nat) (bit : Nat) (s : State) {o_ : Option Nat} :
    Upd [.regs, .evts, .host] [] o_ s (vxFlt p bit s) := by
  unfold vxFlt
  repeat' first
    | with_reducible exact Upd.refl _ _ _ _ | exact rfl | exact .inl rfl | exact .inr rfl | with_reducible assumption
    | with_reducible apply Upd.ite | with_reducible apply Upd.step' (noteStat_upd ..) | split | dsimp only | intro _

theorem tileRead_upd (p : Nat) (tile : Nat) (off : Int) (n : Nat) (s : State) {o_ : Option Nat} :
    Upd [.cmt] [] o_ s (tileRead p tile off n s).2 := by
  unfold tileRead
  repeat' first
    | with_reducible exact Upd.refl _ _ _ _ | exact rfl | exact .inl rfl | exact .inr rfl | with_reducible assumption
    | with_reducible apply Upd.ite | with_reducible apply Upd.step' (progFault_upd ..) | split | dsimp only | intro _

theorem setMask_upd (p : Nat) (m : Nat) (v : Nat) (cnt : Nat) (s : State) :
    Upd [.cores] [.vx] (some p) s (setMask p m v cnt s) := by
  unfold setMask
  repeat' first
    | with_reducible exact Upd.refl _ _ _ _ | exact rfl | exact .inl rfl | exact .inr rfl | with_reducible assumption
    | with_reducible apply Upd.ite | with_reducible apply Upd.updCore | with_reducible exact CUpd.refl _ _ | with_reducible apply CUpd.set
    | split | dsimp only | intro _

theorem tileWrites_upd (p : Nat) (ws : List VWr) (s : State) :
    Upd [.regs, .evts, .cores, .cmt, .host] [.vx] (some p) s (tileWrites p ws s) := by
  unfold tileWrites
  repeat' first
    | with_reducible exact Upd.refl _ _ _ _ | exact rfl | exact .inl rfl | exact .inr rfl | with_reducible assumption
    | with_reducible apply Upd.ite | with_reducible apply Upd.step' (progFault_upd ..) | with_reducible apply Upd.step' (vxFlt_upd ..)
    | with_reducible apply Upd.updCore | with_reducible exact CUpd.refl _ _ | with_reducible apply CUpd.ite | with_reducible apply CUpd.foldN
    | with_reducible apply CUpd.set | with_reducible apply Upd.foldl | split | dsimp only | intro _

theorem sideWrite_upd (p : Nat) (s : State) (w : VWr) : Upd [.cores] [.vx] (some p) s (sideWrite p s w) := by
  cases w <;> unfold sideWrite
  all_goals repeat' first
    | with_reducible exact Upd.refl _ _ _ _ | exact rfl | exact .inl rfl | exact .inr rfl | with_reducible apply Upd.step (setMask_upd ..)
    | with_reducible apply Upd.updCore | with_reducible exact CUpd.refl _ _ | with_reducible apply CUpd.set | dsimp only

theorem cellCredit_upd (p : Nat) (s : State) (c : PCell) {o_ : Option Nat} :
    Upd [.fab] [] o_ s (cellCredit p s c) := by
  unfold cellCredit
  repeat' first
    | with_reducible exact Upd.refl _ _ _ _ | exact rfl | exact .inl rfl | exact .inr rfl | with_reducible assumption
    | with_reducible apply Upd.ite | with_reducible apply Upd.step' (creditTo_upd ..) | split | dsimp only | intro _

theorem takePort_upd (p : Nat) (q : Nat) (n : Nat) (s : State) :
    Upd [.cores, .fab] [.vx] (some p) s (takePort p q n s).2 := by
  unfold takePort
  repeat' first
    | with_reducible exact Upd.refl _ _ _ _ | exact rfl | exact .inl rfl | exact .inr rfl | with_reducible assumption
    | with_reducible apply Upd.ite | with_reducible apply Upd.step' (cellCredit_upd ..) | with_reducible apply Upd.updCore
    | with_reducible exact CUpd.refl _ _ | with_reducible apply CUpd.foldN | with_reducible apply CUpd.set | with_reducible apply Upd.foldl
    | with_reducible apply Upd.foldl_snd | with_reducible apply Upd.foldl_fst | split | dsimp only | intro _

theorem portLate_upd (p : Nat) (s : State) {o_ : Option Nat} :
    Upd [.regs, .evts, .cmt, .host] [] o_ s (portLate p s) := by
  unfold portLate
  repeat' first
    | with_reducible exact Upd.refl _ _ _ _ | exact rfl | exact .inl rfl | exact .inr rfl | with_reducible assumption
    | with_reducible apply Upd.ite | with_reducible apply Upd.step' (coreSrc_upd ..) | with_reducible apply Upd.step' (vxFlt_upd ..) | split
    | dsimp only | intro _

end Sys2Proof.Machine
end

