-- ==== Sys2Proof/Laws/Fetch.lean ====
section
/-! SUPPORT. What each operation of Sys2Proof/Machine/Fetch.lean can change: its footprint. -/
namespace Sys2Proof.Machine
set_option linter.all false

theorem updCtx_upd (p : Nat) (n : Nat) (f : Ctx → Ctx) (s : State) :
    Upd [.cores] [.fe] (some p) s (updCtx p n f s) := by
  unfold updCtx
  repeat' first
    | with_reducible exact Upd.refl _ _ _ _ | exact rfl | exact .inl rfl | exact .inr rfl | with_reducible assumption
    | with_reducible apply Upd.ite | with_reducible apply Upd.updCore | with_reducible exact CUpd.refl _ _ | with_reducible apply CUpd.set
    | split | dsimp only | intro _

theorem closeCtx_upd (p : Nat) (n : Nat) (s : State) :
    Upd [.cores] [.takes, .fe] (some p) s (closeCtx p n s) := by
  unfold closeCtx
  repeat' first
    | with_reducible exact Upd.refl _ _ _ _ | exact rfl | exact .inl rfl | exact .inr rfl | with_reducible assumption
    | with_reducible apply Upd.ite | with_reducible apply Upd.step (takeObj_upd ..) | with_reducible apply Upd.step (updCtx_upd ..) | split
    | dsimp only | intro _

theorem planMis_upd (p : Nat) (s : State) {o_ : Option Nat} :
    Upd [.regs, .evts, .cmt, .host] [] o_ s (planMis p s) := by
  unfold planMis
  repeat' first
    | with_reducible exact Upd.refl _ _ _ _ | exact rfl | exact .inl rfl | exact .inr rfl | with_reducible assumption
    | with_reducible apply Upd.ite | with_reducible apply Upd.step' (progFault_upd ..) | with_reducible apply Upd.step' (feStat_upd ..) | split
    | dsimp only | intro _

theorem xlatMiss_upd (p : Nat) (port : Port) (g : Nat) (s : State) {o_ : Option Nat} :
    Upd [.regs, .evts, .cmt, .host] [] o_ s (xlatMiss p port g s) := by
  unfold xlatMiss
  repeat' first
    | with_reducible exact Upd.refl _ _ _ _ | exact rfl | exact .inl rfl | exact .inr rfl | with_reducible assumption
    | with_reducible apply Upd.ite | with_reducible apply Upd.step' (coreSrc_upd ..) | with_reducible apply Upd.step' (feStat_upd ..)
    | with_reducible apply Upd.step' (irqRaise_upd ..) | with_reducible apply Upd.step' (setReg_upd ..) | split | dsimp only | intro _
    | with_reducible apply Upd.set

theorem stageEgress_upd (die : Nat) (seq : Nat) (row : List Byte) (s : State) {o_ : Option Nat} :
    Upd [.host] [] o_ s (stageEgress die seq row s) := by
  unfold stageEgress
  repeat' first
    | with_reducible exact Upd.refl _ _ _ _ | exact rfl | exact .inl rfl | exact .inr rfl | with_reducible assumption
    | with_reducible apply Upd.ite | split | dsimp only | intro _ | with_reducible apply Upd.set

theorem sendDep_upd (ev : List HwEvent) (p : Nat) (h : Nat) (off : Int) (d : Nat) (row : List Byte) (s : State) :
    Upd [.cores] [.job] (some p) s (sendDep ev p h off d row s) := by
  unfold sendDep
  repeat' first
    | with_reducible exact Upd.refl _ _ _ _ | exact rfl | exact .inl rfl | exact .inr rfl | with_reducible assumption
    | with_reducible apply Upd.ite | with_reducible apply Upd.step (addLate_upd ..) | split | dsimp only | intro _

theorem haltHere_upd (p : Nat) (code : Nat) (addr : Nat) (s : State) :
    Upd [.cores] [.job] (some p) s (haltHere p code addr s) := by
  unfold haltHere
  repeat' first
    | with_reducible exact Upd.refl _ _ _ _ | exact rfl | exact .inl rfl | exact .inr rfl | with_reducible assumption
    | with_reducible apply Upd.ite | with_reducible apply Upd.updCore | with_reducible exact CUpd.refl _ _ | with_reducible apply CUpd.set
    | split | dsimp only | intro _

theorem makeBeat_upd (ev : List HwEvent) (p : Nat) (i : Ins) (k : Nat) (s : State) :
    Upd [.regs, .evts, .cores, .hbm, .cmt, .host, .trc] [.job, .bsn, .pc] (some p) s (makeBeat ev p i k s) := by
  unfold makeBeat
  repeat' first
    | with_reducible exact Upd.refl _ _ _ _ | exact rfl | exact .inl rfl | exact .inr rfl | with_reducible assumption
    | with_reducible apply Upd.ite | with_reducible apply Upd.step (countAt_upd ..) | with_reducible apply Upd.step (sendDep_upd ..)
    | with_reducible apply Upd.step' (progFault_upd ..) | with_reducible apply Upd.step' (regionRead_upd ..)
    | with_reducible apply Upd.step' (gcount_upd ..) | with_reducible apply Upd.step (haltHere_upd ..)
    | with_reducible apply Upd.step (exRead_upd ..) | with_reducible apply Upd.step' (regionWrite_upd ..)
    | with_reducible apply Upd.step' (xlatMiss_upd ..) | with_reducible apply Upd.step' (reservedRead_upd ..)
    | with_reducible apply Upd.step' (stageEgress_upd ..) | with_reducible apply Upd.of_snd (by assumption) | split | dsimp only | intro _
    | with_reducible apply Upd.set

theorem creditBeat_upd (ev : List HwEvent) (p : Nat) (part : Bool) (i : Ins) (k : Nat) (s : State) :
    Upd [.regs, .evts, .cores, .hbm, .cmt, .host, .trc] [.job, .takes, .bsn, .pc] (some p) s (creditBeat ev p part i k s) := by
  unfold creditBeat
  repeat' first
    | with_reducible exact Upd.refl _ _ _ _ | exact rfl | exact .inl rfl | exact .inr rfl | with_reducible assumption
    | with_reducible apply Upd.ite | with_reducible apply Upd.step' (progFault_upd ..) | with_reducible apply Upd.step' (feStat_upd ..)
    | with_reducible apply Upd.step (takeObj_upd ..) | with_reducible apply Upd.step (makeBeat_upd ..) | split | dsimp only | intro _

theorem planStep_upd (p : Nat) (w : Work) (s : State) :
    Upd [.regs, .evts, .cores, .hbm, .cmt, .host, .trc] [.job, .takes, .fe, .bsn, .pc] (some p) s (planStep p w s) := by
  unfold planStep
  repeat' first
    | with_reducible exact Upd.refl _ _ _ _ | exact rfl | exact .inl rfl | exact .inr rfl | with_reducible assumption
    | with_reducible apply Upd.ite | with_reducible apply Upd.step (updCtx_upd ..) | with_reducible apply Upd.step (makeBeat_upd ..)
    | with_reducible apply Upd.step' (planMis_upd ..) | with_reducible apply Upd.step (creditBeat_upd ..) | split | dsimp only | intro _

theorem planRun_upd {F : List SFld} {D : List CFld} {k : Option Nat} {b s : State} {p : Nat} {ev : List HwEvent} {op : Nat}
    {pre : Ins → State → State} (hF : SFld.sub [.cores, .task] F = true)
    (hD : CFld.sub [.q, .busy, .started, .sigs, .job, .obj, .fe, .issue] D = true)
    (ho : k = none ∨ k = some p) (he : ∀ i t, Upd F D k t (pre i t)) (h : Upd F D k b s) : Upd F D k b (planRun ev p op pre s) := by
  unfold planRun
  split
  · exact h
  · dsimp only
    refine Upd.step (addWork_upd ..) (SFld.sub_trans rfl hF) (CFld.sub_trans rfl hD) ho ?_
    have h2 : ∀ (t : State) (T : Task), Upd F D k b t → Upd F D k b { t with task := T } := fun t T g => by
      refine Upd.step (F := [.task]) (D := []) (o := k) ?_ (SFld.sub_trans rfl hF) rfl (.inr rfl) g
      apply Upd.set
      all_goals first | exact .inl rfl | exact .inr rfl | exact Upd.refl _ _ _ _
    have h1 := fun f i tm => Upd.step (updCtx_upd p (iUmod i % 16) f (startUnit p 1 i tm s)) (SFld.sub_trans rfl hF) (CFld.sub_trans rfl hD) ho
      (Upd.step (startUnit_upd p 1 i tm s) (SFld.sub_trans rfl hF) (CFld.sub_trans rfl hD) ho h)
    split
    · exact (h2 _ _ (h1 _ _ _)).trans (he _ _)
    · exact h2 _ _ (h1 _ _ _)

theorem execFeload_upd (p : Nat) (ev : List HwEvent) (s : State) {t : State} (h : execFeload p ev s = .next t) :
    Upd [.cores, .task] [.q, .busy, .started, .sigs, .job, .obj, .fe, .issue] (some p) s t := by
  refine guarded_upd (fun s => ?_) h
  repeat' first
    | with_reducible exact Upd.refl _ _ _ _ | exact rfl | exact .inl rfl | exact .inr rfl | with_reducible assumption
    | with_reducible apply Upd.ite | with_reducible apply planRun_upd | split | dsimp only | intro _

theorem execFestore_upd (p : Nat) (ev : List HwEvent) (s : State) {t : State} (h : execFestore p ev s = .next t) :
    Upd [.cores, .task] [.q, .busy, .started, .sigs, .job, .obj, .fe, .issue] (some p) s t := by
  refine guarded_upd (fun s => ?_) h
  repeat' first
    | with_reducible exact Upd.refl _ _ _ _ | exact rfl | exact .inl rfl | exact .inr rfl | with_reducible assumption
    | with_reducible apply Upd.ite | with_reducible apply planRun_upd | split | dsimp only | intro _

theorem execFeovwr_upd (p : Nat) (ev : List HwEvent) (s : State) {t : State} (h : execFeovwr p ev s = .next t) :
    Upd [.cores, .task] [.q, .busy, .started, .sigs, .job, .obj, .fe, .issue] (some p) s t := by
  refine guarded_upd (fun s => ?_) h
  repeat' first
    | with_reducible exact Upd.refl _ _ _ _ | exact rfl | exact .inl rfl | exact .inr rfl | with_reducible assumption
    | with_reducible apply Upd.ite | with_reducible apply planRun_upd | split | dsimp only | intro _

theorem execFebatch_upd (p : Nat) (ev : List HwEvent) (s : State) {t : State} (h : execFebatch p ev s = .next t) :
    Upd [.cores, .task] [.q, .busy, .started, .sigs, .job, .obj, .fe, .issue] (some p) s t := by
  refine guarded_upd (fun s => ?_) h
  repeat' first
    | with_reducible exact Upd.refl _ _ _ _ | exact rfl | exact .inl rfl | exact .inr rfl | with_reducible assumption
    | with_reducible apply Upd.ite | with_reducible apply planRun_upd | split | dsimp only | intro _

theorem egressCheck_upd (p : Nat) (i : Ins) (s : State) {o_ : Option Nat} :
    Upd [.cmt] [] o_ s (egressCheck p i s) := by
  unfold egressCheck
  repeat' first
    | with_reducible exact Upd.refl _ _ _ _ | exact rfl | exact .inl rfl | exact .inr rfl | with_reducible assumption
    | with_reducible apply Upd.ite | with_reducible apply Upd.step' (progFault_upd ..) | split | dsimp only | intro _

theorem execFeegr_upd (p : Nat) (ev : List HwEvent) (s : State) {t : State} (h : execFeegr p ev s = .next t) :
    Upd [.cores, .task, .cmt] [.q, .busy, .started, .sigs, .job, .obj, .fe, .issue] (some p) s t := by
  refine guarded_upd (fun s => ?_) h
  repeat' first
    | with_reducible exact Upd.refl _ _ _ _ | exact rfl | exact .inl rfl | exact .inr rfl | with_reducible assumption
    | with_reducible apply Upd.ite | with_reducible apply planRun_upd | with_reducible apply Upd.step' (egressCheck_upd ..) | split | dsimp only
    | intro _

theorem armCtx_upd (p : Nat) (i : Ins) (tm : Timing) (s : State) :
    Upd [.cores, .cmt] [.sigs, .takes, .fe] (some p) s (armCtx p i tm s) := by
  unfold armCtx
  repeat' first
    | with_reducible exact Upd.refl _ _ _ _ | exact rfl | exact .inl rfl | exact .inr rfl | with_reducible assumption
    | with_reducible apply Upd.ite | with_reducible apply Upd.step (closeCtx_upd ..) | with_reducible apply Upd.step' (progFault_upd ..)
    | with_reducible apply Upd.step (updCtx_upd ..) | with_reducible apply Upd.updCore | with_reducible exact CUpd.refl _ _
    | with_reducible apply CUpd.ite | with_reducible apply CUpd.set | split | dsimp only | intro _

theorem ctxRun_upd {F : List SFld} {D : List CFld} {k : Option Nat} {b s : State} {p : Nat} {op d : Nat} {eff : Ins → Timing → State → State}
    (hF : SFld.sub [.cores] F = true) (hD : CFld.sub [.q, .busy, .started, .sigs, .job, .obj, .fe, .issue] D = true)
    (ho : k = none ∨ k = some p) (he : ∀ i tm t, Upd F D k t (eff i tm t)) (h : Upd F D k b s) :
    Upd F D k b (ctxRun p op d eff s) := by
  unfold ctxRun
  split
  · exact h
  · exact Upd.step (updCtx_upd ..) hF (CFld.sub_trans rfl hD) ho ((Upd.step (startUnit_upd ..) hF (CFld.sub_trans rfl hD) ho h).trans (he _ _ _))

theorem execFearm_upd (p : Nat) (s : State) {t : State} (h : execFearm p s = .next t) :
    Upd [.cores, .cmt] [.q, .busy, .started, .sigs, .job, .obj, .takes, .fe, .issue] (some p) s t := by
  refine guarded_upd (fun s => ?_) h
  repeat' first
    | with_reducible exact Upd.refl _ _ _ _ | exact rfl | exact .inl rfl | exact .inr rfl | with_reducible assumption
    | with_reducible apply Upd.ite | with_reducible apply ctxRun_upd | with_reducible apply Upd.step (armCtx_upd ..) | split | dsimp only
    | intro _

theorem rearmCtx_upd (p : Nat) (i : Ins) (k : Nat) (s : State) :
    Upd [.cores] [.fe] (some p) s (rearmCtx p i k s) := by
  unfold rearmCtx
  repeat' first
    | with_reducible exact Upd.refl _ _ _ _ | exact rfl | exact .inl rfl | exact .inr rfl | with_reducible assumption
    | with_reducible apply Upd.ite | with_reducible apply Upd.step (updCtx_upd ..) | split | dsimp only | intro _

theorem execFerearm_upd (p : Nat) (s : State) {t : State} (h : execFerearm p s = .next t) :
    Upd [.cores] [.q, .busy, .started, .sigs, .job, .obj, .fe, .issue] (some p) s t := by
  refine guarded_upd (fun s => ?_) h
  repeat' first
    | with_reducible exact Upd.refl _ _ _ _ | exact rfl | exact .inl rfl | exact .inr rfl | with_reducible assumption
    | with_reducible apply Upd.ite | with_reducible apply ctxRun_upd | with_reducible apply Upd.step (addWork_upd ..) | split | dsimp only
    | intro _

theorem execFeclose_upd (p : Nat) (s : State) {t : State} (h : execFeclose p s = .next t) :
    Upd [.cores] [.q, .busy, .started, .sigs, .job, .obj, .takes, .fe, .issue] (some p) s t := by
  refine guarded_upd (fun s => ?_) h
  repeat' first
    | with_reducible exact Upd.refl _ _ _ _ | exact rfl | exact .inl rfl | exact .inr rfl | with_reducible assumption
    | with_reducible apply Upd.ite | with_reducible apply ctxRun_upd | with_reducible apply Upd.step (closeCtx_upd ..) | split | dsimp only
    | intro _

theorem tagExhausted_upd (p : Nat) (s : State) {o_ : Option Nat} :
    Upd [.regs, .evts, .cmt, .host] [] o_ s (tagExhausted p s) := by
  unfold tagExhausted
  repeat' first
    | with_reducible exact Upd.refl _ _ _ _ | exact rfl | exact .inl rfl | exact .inr rfl | with_reducible assumption
    | with_reducible apply Upd.ite | with_reducible apply Upd.step' (progFault_upd ..) | with_reducible apply Upd.step' (feStat_upd ..) | split
    | dsimp only | intro _

theorem addDeps_upd (p : Nat) (l : List Dep) (s : State) :
    Upd [.cores] [.bsn] (some p) s (addDeps p l s) := by
  unfold addDeps
  repeat' first
    | with_reducible exact Upd.refl _ _ _ _ | exact rfl | exact .inl rfl | exact .inr rfl | with_reducible assumption
    | with_reducible apply Upd.ite | with_reducible apply Upd.updCore | with_reducible exact CUpd.refl _ _ | with_reducible apply CUpd.set
    | split | dsimp only | intro _

theorem queueRows_upd (p : Nat) (h : Nat) (off : Nat) (rows : List (List Byte)) (mtag : Option Nat) (ftag : Option Nat) (s : State) :
    Upd [.cores] [.bsn] (some p) s (queueRows p h off rows mtag ftag s) := by
  unfold queueRows
  repeat' first
    | with_reducible exact Upd.refl _ _ _ _ | exact rfl | exact .inl rfl | exact .inr rfl | with_reducible assumption
    | with_reducible apply Upd.ite | with_reducible apply Upd.step (addDeps_upd ..) | split | dsimp only | intro _

theorem elasticDest_upd (p : Nat) (h : Nat) (off : Int) (bytes : Nat) (s : State) {o_ : Option Nat} {t : State}
    (e : elasticDest p h off bytes s = some t) : Upd [.regs, .evts, .cmt, .host] [] o_ s t := by
  unfold elasticDest at e
  split at e <;> cases e
  · exact (hndMismatch_upd ..).mono rfl rfl (.inr rfl)
  · exact (progFault_upd ..).mono rfl rfl (.inr rfl)

theorem fabReadStep_upd (p : Nat) (i : Ins) (k : Nat) (s : State) :
    Upd [.regs, .evts, .cores, .cmt, .host, .fab] [.fe, .ch, .pc] (some p) s (fabReadStep p i k s) := by
  unfold fabReadStep
  repeat' first
    | with_reducible exact Upd.refl _ _ _ _ | exact rfl | exact .inl rfl | exact .inr rfl | with_reducible assumption
    | with_reducible apply Upd.ite | with_reducible apply Upd.step' (elasticDest_upd _ _ _ _ _ ‹elasticDest _ _ _ _ _ = some _›)
    | with_reducible apply Upd.step' (tagExhausted_upd ..) | with_reducible apply Upd.step (countAt_upd ..)
    | with_reducible apply Upd.step (sendFlow_upd ..) | with_reducible apply Upd.step' (sendRefused_upd ..) | with_reducible apply Upd.updCore
    | with_reducible exact CUpd.refl _ _ | with_reducible apply CUpd.set | split | dsimp only | intro _

theorem execFefabrd_upd (p : Nat) (s : State) {t : State} (h : execFefabrd p s = .next t) :
    Upd [.cores] [.q, .busy, .started, .sigs, .job, .obj, .issue] (some p) s t := by
  refine guarded_upd (fun s => ?_) h
  repeat' first
    | with_reducible exact Upd.refl _ _ _ _ | exact rfl | exact .inl rfl | exact .inr rfl | with_reducible assumption
    | with_reducible apply Upd.ite | with_reducible apply stepRun_upd | split | dsimp only | intro _

theorem fabWriteStep_upd (ev : List HwEvent) (p : Nat) (i : Ins) (k : Nat) (s : State) :
    Upd [.regs, .evts, .cores, .cmt, .host, .fab] [.job, .fe, .bsn, .ch, .pc] (some p) s (fabWriteStep ev p i k s) := by
  unfold fabWriteStep
  repeat' first
    | with_reducible exact Upd.refl _ _ _ _ | exact rfl | exact .inl rfl | exact .inr rfl | with_reducible assumption
    | with_reducible apply Upd.ite | with_reducible apply Upd.step' (tagExhausted_upd ..) | with_reducible apply Upd.step (exRead_upd ..)
    | with_reducible apply Upd.step (countAt_upd ..) | with_reducible apply Upd.step (sendFlow_upd ..)
    | with_reducible apply Upd.step' (sendRefused_upd ..) | with_reducible apply Upd.step' (dropSend_upd ..) | with_reducible apply Upd.updCore
    | with_reducible exact CUpd.refl _ _ | with_reducible apply CUpd.set | with_reducible apply Upd.of_snd (by assumption) | split | dsimp only
    | intro _

theorem execFefabwr_upd (p : Nat) (ev : List HwEvent) (s : State) {t : State} (h : execFefabwr p ev s = .next t) :
    Upd [.cores] [.q, .busy, .started, .sigs, .job, .obj, .issue] (some p) s t := by
  refine guarded_upd (fun s => ?_) h
  repeat' first
    | with_reducible exact Upd.refl _ _ _ _ | exact rfl | exact .inl rfl | exact .inr rfl | with_reducible assumption
    | with_reducible apply Upd.ite | with_reducible apply stepRun_upd | split | dsimp only | intro _

theorem sendOvRead_upd (p : Nat) (q : OvReq) (prev : Option OvReq) (s : State) :
    Upd [.cores, .out] [.fe] (some p) s (sendOvRead p q prev s) := by
  unfold sendOvRead
  repeat' first
    | with_reducible exact Upd.refl _ _ _ _ | exact rfl | exact .inl rfl | exact .inr rfl | with_reducible assumption
    | with_reducible apply Upd.ite | with_reducible apply Upd.updCore | with_reducible exact CUpd.refl _ _ | with_reducible apply CUpd.ite
    | with_reducible apply CUpd.set | split | dsimp only | intro _ | with_reducible apply Upd.set

theorem askOv_upd (p : Nat) (q : OvReq) (s : State) :
    Upd [.cores, .out] [.fe, .pc] (some p) s (askOv p q s) := by
  unfold askOv
  repeat' first
    | with_reducible exact Upd.refl _ _ _ _ | exact rfl | exact .inl rfl | exact .inr rfl | with_reducible assumption
    | with_reducible apply Upd.ite | with_reducible apply Upd.step (countAt_upd ..) | with_reducible apply Upd.step (sendOvRead_upd ..)
    | with_reducible apply Upd.updCore | with_reducible exact CUpd.refl _ _ | with_reducible apply CUpd.ite | with_reducible apply CUpd.set
    | split | dsimp only | intro _

theorem missOv_upd (p : Nat) (port : Port) (g : Nat) (rows : Nat) (h : Nat) (off : Int) (win : Nat) (s : State) :
    Upd [.regs, .evts, .cores, .cmt, .host] [.job, .bsn, .pc] (some p) s (missOv p port g rows h off win s) := by
  unfold missOv
  repeat' first
    | with_reducible exact Upd.refl _ _ _ _ | exact rfl | exact .inl rfl | exact .inr rfl | with_reducible assumption
    | with_reducible apply Upd.ite | with_reducible apply Upd.step' (xlatMiss_upd ..) | with_reducible apply Upd.step (haltHere_upd ..)
    | with_reducible apply Upd.step (queueRows_upd ..) | with_reducible apply Upd.step (countAt_upd ..) | split | dsimp only | intro _

theorem tagOv_upd (p : Nat) (w : Work) (r : RegionD) (win : Nat) (h : Nat) (off : Int) (tag : Nat) (gs : List (Nat × Nat × Nat)) (s : State) :
    Upd [.regs, .evts, .cores, .cmt, .host, .out] [.job, .fe, .bsn, .pc] (some p) s (tagOv p w r win h off tag gs s) := by
  unfold tagOv
  repeat' first
    | with_reducible exact Upd.refl _ _ _ _ | exact rfl | exact .inl rfl | exact .inr rfl | with_reducible assumption
    | with_reducible apply Upd.ite | with_reducible apply Upd.step (missOv_upd ..) | with_reducible apply Upd.step (askOv_upd ..) | split
    | dsimp only | intro _

theorem ovReadStep_upd (p : Nat) (w : Work) (s : State) :
    Upd [.regs, .evts, .cores, .cmt, .host, .out] [.job, .fe, .bsn, .pc] (some p) s (ovReadStep p w s) := by
  unfold ovReadStep
  repeat' first
    | with_reducible exact Upd.refl _ _ _ _ | exact rfl | exact .inl rfl | exact .inr rfl | with_reducible assumption
    | with_reducible apply Upd.ite | with_reducible apply Upd.step' (elasticDest_upd _ _ _ _ _ ‹elasticDest _ _ _ _ _ = some _›)
    | with_reducible apply Upd.step (queueRows_upd ..) | with_reducible apply Upd.step' (progFault_upd ..)
    | with_reducible apply Upd.step' (tagExhausted_upd ..) | with_reducible apply Upd.step (tagOv_upd ..) | split | dsimp only | intro _

theorem execFeovrd_upd (p : Nat) (ev : List HwEvent) (s : State) {t : State} (h : execFeovrd p ev s = .next t) :
    Upd [.cores] [.q, .busy, .started, .sigs, .job, .obj, .issue] (some p) s t := by
  refine guarded_upd (fun s => ?_) h
  repeat' first
    | with_reducible exact Upd.refl _ _ _ _ | exact rfl | exact .inl rfl | exact .inr rfl | with_reducible assumption
    | with_reducible apply Upd.ite | with_reducible apply stepRun_upd | split | dsimp only | intro _

theorem feStep_upd (p : Nat) (w : Work) (s : State) :
    Upd [.regs, .evts, .cores, .hbm, .cmt, .host, .fab, .trc, .out] [.job, .takes, .fe, .bsn, .ch, .pc] (some p) s (feStep p w s) := by
  unfold feStep
  repeat' first
    | with_reducible exact Upd.refl _ _ _ _ | exact rfl | exact .inl rfl | exact .inr rfl | with_reducible assumption
    | with_reducible apply Upd.ite | with_reducible apply Upd.step (rearmCtx_upd ..) | with_reducible apply fabricStep_upd
    | with_reducible apply Upd.step (fabReadStep_upd ..) | with_reducible apply Upd.step (fabWriteStep_upd ..)
    | with_reducible apply Upd.step (ovReadStep_upd ..) | with_reducible apply Upd.step (planStep_upd ..) | split | dsimp only | intro _

end Sys2Proof.Machine
end

