-- ==== Sys2Proof/Laws/Channel.lean ====
section
/-! SUPPORT. What each operation of Sys2Proof/Machine/Channel.lean can change: its footprint. -/
namespace Sys2Proof.Machine
set_option linter.all false

theorem bindCheck_upd (p : Nat) (e : Nat) (r : OpenReq) (s : State) :
    Upd [.cores, .fab] [.adds, .ch] (some p) s (bindCheck p e r s) := by
  unfold bindCheck
  repeat' first
    | with_reducible exact Upd.refl _ _ _ _ | exact rfl | exact .inl rfl | exact .inr rfl | with_reducible assumption
    | with_reducible apply Upd.ite | with_reducible apply Upd.step' (replyTo_upd ..) | with_reducible apply Upd.step (updEp_upd ..)
    | with_reducible apply Upd.step (addObj_upd ..) | split | dsimp only | intro _

theorem openStep_upd (p : Nat) (e : Nat) (di : Nat) (obj : Nat) (s : State) :
    Upd [.cores, .fab] [.adds, .ch] (some p) s (openStep p e di obj s) := by
  unfold openStep
  repeat' first
    | with_reducible exact Upd.refl _ _ _ _ | exact rfl | exact .inl rfl | exact .inr rfl | with_reducible assumption
    | with_reducible apply Upd.ite | with_reducible apply Upd.step (updEp_upd ..) | with_reducible apply Upd.step (addObj_upd ..)
    | with_reducible apply Upd.step (bindCheck_upd ..) | with_reducible apply Upd.step' (leaveCore_upd ..) | split | dsimp only | intro _

theorem execChopen_upd (p : Nat) (s : State) {t : State} (h : execChopen p s = .next t) :
    Upd [.cores] [.q, .busy, .started, .sigs, .job, .obj, .issue] (some p) s t := by
  refine guarded_upd (fun s => ?_) h
  repeat' first
    | with_reducible exact Upd.refl _ _ _ _ | exact rfl | exact .inl rfl | exact .inr rfl | with_reducible assumption
    | with_reducible apply Upd.ite | with_reducible apply stepRun_upd | split | dsimp only | intro _

theorem closeStep_upd (p : Nat) (e : Nat) (s : State) :
    Upd [.regs, .evts, .cores, .cmt, .host, .fab] [.ch, .pc] (some p) s (closeStep p e s) := by
  unfold closeStep
  repeat' first
    | with_reducible exact Upd.refl _ _ _ _ | exact rfl | exact .inl rfl | exact .inr rfl | with_reducible assumption
    | with_reducible apply Upd.ite | with_reducible apply Upd.step (updEp_upd ..) | with_reducible apply Upd.step (sendFlow_upd ..) | split
    | dsimp only | intro _

theorem execChclose_upd (p : Nat) (s : State) {t : State} (h : execChclose p s = .next t) :
    Upd [.cores] [.q, .busy, .started, .sigs, .job, .obj, .issue] (some p) s t := by
  refine guarded_upd (fun s => ?_) h
  repeat' first
    | with_reducible exact Upd.refl _ _ _ _ | exact rfl | exact .inl rfl | exact .inr rfl | with_reducible assumption
    | with_reducible apply Upd.ite | with_reducible apply stepRun_upd | split | dsimp only | intro _

theorem sendSource_upd (ev : List HwEvent) (p : Nat) (i : Ins) (n : Nat) (k : Nat) (s : State) :
    Upd [.regs, .evts, .cores, .cmt, .host] [.job, .bsn] (some p) s (sendSource ev p i n k s).2 := by
  unfold sendSource
  repeat' first
    | with_reducible exact Upd.refl _ _ _ _ | exact rfl | exact .inl rfl | exact .inr rfl | with_reducible assumption
    | with_reducible apply Upd.ite | with_reducible apply Upd.step (exRead_upd ..) | with_reducible apply Upd.step' (tileRead_upd ..)
    | with_reducible apply Upd.of_snd (by assumption) | split | dsimp only | intro _

theorem sendStep_upd (ev : List HwEvent) (p : Nat) (i : Ins) (k : Nat) (s : State) :
    Upd [.regs, .evts, .cores, .cmt, .host, .fab] [.job, .bsn, .ch, .pc] (some p) s (sendStep ev p i k s) := by
  unfold sendStep
  repeat' first
    | with_reducible exact Upd.refl _ _ _ _ | exact rfl | exact .inl rfl | exact .inr rfl | with_reducible assumption
    | with_reducible apply Upd.ite | with_reducible apply Upd.step (sendSource_upd ..) | with_reducible apply Upd.step (sendFlow_upd ..)
    | with_reducible apply Upd.step' (sendRefused_upd ..) | with_reducible apply Upd.of_snd (by assumption) | split | dsimp only | intro _

theorem execChsend_upd (p : Nat) (ev : List HwEvent) (s : State) {t : State} (h : execChsend p ev s = .next t) :
    Upd [.cores] [.q, .busy, .started, .sigs, .job, .obj, .issue] (some p) s t := by
  refine guarded_upd (fun s => ?_) h
  repeat' first
    | with_reducible exact Upd.refl _ _ _ _ | exact rfl | exact .inl rfl | exact .inr rfl | with_reducible assumption
    | with_reducible apply Upd.ite | with_reducible apply stepRun_upd | split | dsimp only | intro _

theorem sigStep_upd (p : Nat) (i : Ins) (k : Nat) (s : State) :
    Upd [.regs, .evts, .cores, .cmt, .host, .fab] [.ch, .pc] (some p) s (sigStep p i k s) := by
  unfold sigStep
  repeat' first
    | with_reducible exact Upd.refl _ _ _ _ | exact rfl | exact .inl rfl | exact .inr rfl | with_reducible assumption
    | with_reducible apply Upd.ite | with_reducible apply Upd.step (sendFlow_upd ..) | with_reducible apply Upd.step' (sendRefused_upd ..)
    | split | dsimp only | intro _

theorem execChsig_upd (p : Nat) (s : State) {t : State} (h : execChsig p s = .next t) :
    Upd [.cores] [.q, .busy, .started, .sigs, .job, .obj, .issue] (some p) s t := by
  refine guarded_upd (fun s => ?_) h
  repeat' first
    | with_reducible exact Upd.refl _ _ _ _ | exact rfl | exact .inl rfl | exact .inr rfl | with_reducible assumption
    | with_reducible apply Upd.ite | with_reducible apply stepRun_upd | split | dsimp only | intro _

theorem mcastStep_upd (ev : List HwEvent) (p : Nat) (i : Ins) (k : Nat) (s : State) :
    Upd [.regs, .evts, .cores, .cmt, .host, .fab] [.job, .bsn, .ch, .pc] (some p) s (mcastStep ev p i k s) := by
  unfold mcastStep
  repeat' first
    | with_reducible exact Upd.refl _ _ _ _ | exact rfl | exact .inl rfl | exact .inr rfl | with_reducible assumption
    | with_reducible apply Upd.ite | with_reducible apply Upd.step (sendSource_upd ..) | with_reducible apply Upd.step (updEp_upd ..)
    | with_reducible apply Upd.step (sendFlow_upd ..) | with_reducible apply Upd.step' (sendRefused_upd ..)
    | with_reducible apply Upd.of_snd (by assumption) | split | dsimp only | intro _

theorem execChmcast_upd (p : Nat) (ev : List HwEvent) (s : State) {t : State} (h : execChmcast p ev s = .next t) :
    Upd [.cores] [.q, .busy, .started, .sigs, .job, .obj, .issue] (some p) s t := by
  refine guarded_upd (fun s => ?_) h
  repeat' first
    | with_reducible exact Upd.refl _ _ _ _ | exact rfl | exact .inl rfl | exact .inr rfl | with_reducible assumption
    | with_reducible apply Upd.ite | with_reducible apply stepRun_upd | split | dsimp only | intro _

theorem sendBufferDepart_upd (p : Nat) (s : State) :
    Upd [.cores, .fab] [.ch, .pc] (some p) s (sendBufferDepart p s) := by
  unfold sendBufferDepart
  repeat' first
    | with_reducible exact Upd.refl _ _ _ _ | exact rfl | exact .inl rfl | exact .inr rfl | with_reducible assumption
    | with_reducible apply Upd.ite | with_reducible apply Upd.step (updEp_upd ..) | with_reducible apply Upd.step (countAt_upd ..)
    | with_reducible apply Upd.step' (leaveCore_upd ..) | with_reducible apply Upd.updCore | with_reducible exact CUpd.refl _ _
    | with_reducible apply CUpd.ite | with_reducible apply CUpd.set | split | dsimp only | intro _

theorem execSendBufferDepart_upd (p : Nat) (s : State) {t : State} (h : execSendBufferDepart p s = .next t) :
    Upd [.cores, .fab] [.ch, .pc] (some p) s t := by
  refine guarded_upd (fun s => ?_) h
  repeat' first
    | with_reducible exact Upd.refl _ _ _ _ | exact rfl | exact .inl rfl | exact .inr rfl | with_reducible assumption
    | with_reducible apply Upd.ite | with_reducible apply Upd.step (sendBufferDepart_upd ..) | split | dsimp only | intro _

theorem barFault_upd (p : Nat) (s : State) {o_ : Option Nat} :
    Upd [.regs, .evts, .cmt, .host] [] o_ s (barFault p s) := by
  unfold barFault
  repeat' first
    | with_reducible exact Upd.refl _ _ _ _ | exact rfl | exact .inl rfl | exact .inr rfl | with_reducible assumption
    | with_reducible apply Upd.ite | with_reducible apply Upd.step' (progFault_upd ..) | with_reducible apply Upd.step' (chStat_upd ..) | split
    | dsimp only | intro _

theorem releaseAll_upd (p : Nat) (b : Nat) (d : BarD) (s : State) {o_ : Option Nat} :
    Upd [.fab] [] o_ s (releaseAll p b d s) := by
  unfold releaseAll
  repeat' first
    | with_reducible exact Upd.refl _ _ _ _ | exact rfl | exact .inl rfl | exact .inr rfl | with_reducible assumption
    | with_reducible apply Upd.ite | with_reducible apply Upd.step' (leaveCore_upd ..) | with_reducible apply Upd.foldl | split | dsimp only
    | intro _

theorem releaseHere_upd (q : Nat) (b : Nat) (d : BarD) (s : State) :
    Upd [.cores, .fab] [.ch] (some q) s (releaseHere q b d s) := by
  unfold releaseHere
  repeat' first
    | with_reducible exact Upd.refl _ _ _ _ | exact rfl | exact .inl rfl | exact .inr rfl | with_reducible assumption
    | with_reducible apply Upd.ite | with_reducible apply Upd.step' (leaveCore_upd ..) | with_reducible apply Upd.updCore
    | with_reducible exact CUpd.refl _ _ | with_reducible apply CUpd.ite | with_reducible apply CUpd.foldN | with_reducible apply CUpd.set
    | with_reducible apply Upd.foldl | split | dsimp only | intro _

theorem releaseModule_upd (p : Nat) (b : Nat) (d : BarD) (s : State) :
    Upd [.cores, .fab] [.ch] (some p) s (releaseModule p b d s) := by
  unfold releaseModule
  repeat' first
    | with_reducible exact Upd.refl _ _ _ _ | exact rfl | exact .inl rfl | exact .inr rfl | with_reducible assumption
    | with_reducible apply Upd.ite | with_reducible apply Upd.step (releaseHere_upd ..) | with_reducible apply Upd.step' (releaseAll_upd ..)
    | split | dsimp only | intro _

theorem toModule_upd (p : Nat) (b : Nat) (kind : Nat) (m : Nat) (s : State) {o_ : Option Nat} :
    Upd [.fab] [] o_ s (toModule p b kind m s) := by
  unfold toModule
  repeat' first
    | with_reducible exact Upd.refl _ _ _ _ | exact rfl | exact .inl rfl | exact .inr rfl | with_reducible assumption
    | with_reducible apply Upd.ite | with_reducible apply Upd.step' (leaveCore_upd ..) | split | dsimp only | intro _

theorem domCheck_upd (p : Nat) (b : Nat) (d : BarD) (s : State) :
    Upd [.cores, .fab] [.ch] (some p) s (domCheck p b d s) := by
  unfold domCheck
  repeat' first
    | with_reducible exact Upd.refl _ _ _ _ | exact rfl | exact .inl rfl | exact .inr rfl | with_reducible assumption
    | with_reducible apply Upd.ite | with_reducible apply Upd.step (releaseModule_upd ..) | with_reducible apply Upd.step' (toModule_upd ..)
    | with_reducible apply Upd.foldl | split | dsimp only | intro _ | with_reducible apply Upd.set

theorem localDone_upd (p : Nat) (b : Nat) (d : BarD) (s : State) :
    Upd [.cores, .fab] [.ch] (some p) s (localDone p b d s) := by
  unfold localDone
  repeat' first
    | with_reducible exact Upd.refl _ _ _ _ | exact rfl | exact .inl rfl | exact .inr rfl | with_reducible assumption
    | with_reducible apply Upd.ite | with_reducible apply Upd.step (domCheck_upd ..) | with_reducible apply Upd.step' (toModule_upd ..)
    | with_reducible apply Upd.step (releaseModule_upd ..) | split | dsimp only | intro _ | with_reducible apply Upd.set

theorem treeCheck_upd (q : Nat) (b : Nat) (ph : Nat) (d : BarD) (s : State) :
    Upd [.cores, .fab] [.ch] (some q) s (treeCheck q b ph d s) := by
  unfold treeCheck
  repeat' first
    | with_reducible exact Upd.refl _ _ _ _ | exact rfl | exact .inl rfl | exact .inr rfl | with_reducible assumption
    | with_reducible apply Upd.ite | with_reducible apply Upd.step (localDone_upd ..) | with_reducible apply Upd.step' (leaveCore_upd ..)
    | with_reducible apply Upd.updCore | with_reducible exact CUpd.refl _ _ | with_reducible apply CUpd.ite | with_reducible apply CUpd.set
    | split | dsimp only | intro _ | with_reducible apply Upd.set

theorem barStep_upd (p : Nat) (b : Nat) (s : State) :
    Upd [.regs, .evts, .cores, .cmt, .host, .fab] [.ch, .pc] (some p) s (barStep p b s) := by
  unfold barStep
  repeat' first
    | with_reducible exact Upd.refl _ _ _ _ | exact rfl | exact .inl rfl | exact .inr rfl | with_reducible assumption
    | with_reducible apply Upd.ite | with_reducible apply Upd.step' (barFault_upd ..) | with_reducible apply Upd.step (countAt_upd ..)
    | with_reducible apply Upd.step (treeCheck_upd ..) | with_reducible apply Upd.step' (leaveCore_upd ..) | with_reducible apply Upd.updCore
    | with_reducible exact CUpd.refl _ _ | with_reducible apply CUpd.ite | with_reducible apply CUpd.set | split | dsimp only | intro _

theorem execChbar_upd (p : Nat) (s : State) {t : State} (h : execChbar p s = .next t) :
    Upd [.cores] [.q, .busy, .started, .sigs, .job, .obj, .issue] (some p) s t := by
  refine guarded_upd (fun s => ?_) h
  repeat' first
    | with_reducible exact Upd.refl _ _ _ _ | exact rfl | exact .inl rfl | exact .inr rfl | with_reducible assumption
    | with_reducible apply Upd.ite | with_reducible apply stepRun_upd | split | dsimp only | intro _

theorem execChrole_upd (p : Nat) (s : State) {t : State} (h : execChrole p s = .next t) :
    Upd [.cores] [.q, .busy, .started, .sigs, .job, .obj, .ch, .issue] (some p) s t := by
  refine guarded_upd (fun s => ?_) h
  repeat' first
    | with_reducible exact Upd.refl _ _ _ _ | exact rfl | exact .inl rfl | exact .inr rfl | with_reducible assumption
    | with_reducible apply Upd.ite | with_reducible apply unitRun_upd | with_reducible apply Upd.updCore | with_reducible exact CUpd.refl _ _
    | with_reducible apply CUpd.set | split | dsimp only | intro _

theorem roleChange_upd (p : Nat) (s : State) :
    Upd [.regs, .evts, .cores, .cmt, .host] [.ch] (some p) s (roleChange p s) := by
  unfold roleChange
  repeat' first
    | with_reducible exact Upd.refl _ _ _ _ | exact rfl | exact .inl rfl | exact .inr rfl | with_reducible assumption
    | with_reducible apply Upd.ite | with_reducible apply Upd.step' (progFault_upd ..) | with_reducible apply Upd.step' (chStat_upd ..)
    | with_reducible apply Upd.updCore | with_reducible exact CUpd.refl _ _ | with_reducible apply CUpd.ite | with_reducible apply CUpd.set
    | split | dsimp only | intro _ | with_reducible apply Upd.setCore

theorem roleDue_upd (p : Nat) (s : State) :
    Upd [.regs, .evts, .cores, .cmt, .host] [.ch] (some p) s (roleDue p s) := by
  unfold roleDue
  repeat' first
    | with_reducible exact Upd.refl _ _ _ _ | exact rfl | exact .inl rfl | exact .inr rfl | with_reducible assumption
    | with_reducible apply Upd.ite | with_reducible apply Upd.step (roleChange_upd ..) | with_reducible apply Upd.updCore
    | with_reducible exact CUpd.refl _ _ | with_reducible apply CUpd.ite | with_reducible apply CUpd.foldN | with_reducible apply CUpd.set
    | with_reducible apply Upd.foldl | split | dsimp only | intro _

theorem vResult_upd (p : Nat) (op : Nat) (idx : Nat) (k : Nat) (new : List Byte) (s : State) :
    Upd [.cores, .cmt] [.vlog] (some p) s (vResult p op idx k new s).2 := by
  unfold vResult
  repeat' first
    | with_reducible exact Upd.refl _ _ _ _ | exact rfl | exact .inl rfl | exact .inr rfl | with_reducible assumption
    | with_reducible apply Upd.ite | with_reducible apply Upd.step' (progFault_upd ..) | with_reducible apply Upd.updCore
    | with_reducible exact CUpd.refl _ _ | with_reducible apply CUpd.ite | with_reducible apply CUpd.set | split | dsimp only | intro _

theorem vWrite_upd (p : Nat) (i : Ins) (k : Nat) (bytes : List Byte) (s : State) :
    Upd [.cores] [.job] (some p) s (vWrite p i k bytes s) := by
  unfold vWrite
  repeat' first
    | with_reducible exact Upd.refl _ _ _ _ | exact rfl | exact .inl rfl | exact .inr rfl | with_reducible assumption
    | with_reducible apply Upd.ite | with_reducible apply Upd.step (addLate_upd ..) | split | dsimp only | intro _

theorem vRun_upd (p : Nat) (op : Nat) (t : Nat) (answers : List Byte) (s : State) :
    Upd [.cores] [.q, .busy, .started, .sigs, .job, .obj, .issue] (some p) s (vRun p op t answers s) := by
  unfold vRun
  repeat' first
    | with_reducible exact Upd.refl _ _ _ _ | exact rfl | exact .inl rfl | exact .inr rfl | with_reducible assumption
    | with_reducible apply Upd.ite | with_reducible apply unitRun_upd | with_reducible apply Upd.step (addWork_upd ..) | split | dsimp only
    | intro _

theorem execTsread_upd (p : Nat) (time : Option W64) (s : State) {t : State} (h : execTsread p time s = .next t) :
    Upd [.cores] [.q, .busy, .started, .sigs, .job, .obj, .issue] (some p) s t := by
  refine guarded_upd (fun s => ?_) h
  repeat' first
    | with_reducible exact Upd.refl _ _ _ _ | exact rfl | exact .inl rfl | exact .inr rfl | with_reducible assumption
    | with_reducible apply Upd.ite | with_reducible apply Upd.step (vRun_upd ..) | split | dsimp only | intro _

theorem execEntropy_upd (p : Nat) (avail : List Bool) (s : State) {t : State} (h : execEntropy p avail s = .next t) :
    Upd [.cores] [.q, .busy, .started, .sigs, .job, .obj, .issue] (some p) s t := by
  refine guarded_upd (fun s => ?_) h
  repeat' first
    | with_reducible exact Upd.refl _ _ _ _ | exact rfl | exact .inl rfl | exact .inr rfl | with_reducible assumption
    | with_reducible apply Upd.ite | with_reducible apply Upd.step (vRun_upd ..) | split | dsimp only | intro _

theorem execCntread_upd (p : Nat) (s : State) {t : State} (h : execCntread p s = .next t) :
    Upd [.cores] [.q, .busy, .started, .sigs, .job, .obj, .issue] (some p) s t := by
  refine guarded_upd (fun s => ?_) h
  repeat' first
    | with_reducible exact Upd.refl _ _ _ _ | exact rfl | exact .inl rfl | exact .inr rfl | with_reducible assumption
    | with_reducible apply Upd.ite | with_reducible apply Upd.step (vRun_upd ..) | split | dsimp only | intro _

theorem execHostpoll_upd (p : Nat) (avail : Bool) (s : State) {t : State} (h : execHostpoll p avail s = .next t) :
    Upd [.cores] [.q, .busy, .started, .sigs, .job, .obj, .issue] (some p) s t := by
  refine guarded_upd (fun s => ?_) h
  repeat' first
    | with_reducible exact Upd.refl _ _ _ _ | exact rfl | exact .inl rfl | exact .inr rfl | with_reducible assumption
    | with_reducible apply Upd.ite | with_reducible apply Upd.step (vRun_upd ..) | split | dsimp only | intro _

theorem vValue_upd (p : Nat) (w : Work) (s : State) {o_ : Option Nat} :
    Upd [.fresh] [] o_ s (vValue p w s).2 := by
  unfold vValue
  repeat' first
    | with_reducible exact Upd.refl _ _ _ _ | exact rfl | exact .inl rfl | exact .inr rfl | with_reducible assumption
    | with_reducible apply Upd.ite | with_reducible apply Upd.step' (drawn_upd ..) | split | dsimp only | intro _

theorem vStep_upd (p : Nat) (w : Work) (s : State) :
    Upd [.cores, .cmt, .fresh] [.job, .vlog] (some p) s (vStep p w s) := by
  unfold vStep
  repeat' first
    | with_reducible exact Upd.refl _ _ _ _ | exact rfl | exact .inl rfl | exact .inr rfl | with_reducible assumption
    | with_reducible apply Upd.ite | with_reducible apply Upd.step' (vValue_upd ..) | with_reducible apply Upd.step (vResult_upd ..)
    | with_reducible apply Upd.step (vWrite_upd ..) | with_reducible apply Upd.of_snd (by assumption) | split | dsimp only | intro _

theorem chStep_upd (p : Nat) (w : Work) (s : State) :
    Upd [.regs, .evts, .cores, .cmt, .host, .fab, .fresh] [.job, .adds, .bsn, .ch, .pc, .vlog] (some p) s (chStep p w s) := by
  unfold chStep
  repeat' first
    | with_reducible exact Upd.refl _ _ _ _ | exact rfl | exact .inl rfl | exact .inr rfl | with_reducible assumption
    | with_reducible apply Upd.ite | with_reducible apply fabricStep_upd | with_reducible apply Upd.step (openStep_upd ..)
    | with_reducible apply Upd.step (closeStep_upd ..) | with_reducible apply Upd.step (sendStep_upd ..)
    | with_reducible apply Upd.step (sigStep_upd ..) | with_reducible apply Upd.step (mcastStep_upd ..)
    | with_reducible apply Upd.step (barStep_upd ..) | with_reducible apply Upd.step (vStep_upd ..) | split | dsimp only | intro _

end Sys2Proof.Machine
end

