-- ==== Sys2Proof/Laws/Arrive.lean ====
section
/-! SUPPORT. What each operation of Sys2Proof/Machine/Arrive.lean can change: its footprint. -/
namespace Sys2Proof.Machine
set_option linter.all false

theorem popCell_upd (p : Nat) (s : State) :
    Upd [.cores] [.ch] (some p) s (popCell p s) := by
  unfold popCell
  repeat' first
    | with_reducible exact Upd.refl _ _ _ _ | exact rfl | exact .inl rfl | exact .inr rfl | with_reducible assumption
    | with_reducible apply Upd.ite | with_reducible apply Upd.updCore | with_reducible exact CUpd.refl _ _ | with_reducible apply CUpd.set
    | split | dsimp only | intro _

theorem e2eFail_upd (p : Nat) (s : State) {o_ : Option Nat} :
    Upd [.regs, .evts, .cmt, .host] [] o_ s (e2eFail p s) := by
  unfold e2eFail
  repeat' first
    | with_reducible exact Upd.refl _ _ _ _ | exact rfl | exact .inl rfl | exact .inr rfl | with_reducible assumption
    | with_reducible apply Upd.ite | with_reducible apply Upd.step' (coreSrc_upd ..) | with_reducible apply Upd.step' (noteStat_upd ..)
    | with_reducible apply Upd.step' (note_upd ..) | split | dsimp only | intro _

theorem nextSeq_upd (p : Nat) (e : Nat) (c : FCell) (s : State) :
    Upd [.cores] [.ch] (some p) s (nextSeq p e c s) := by
  unfold nextSeq
  repeat' first
    | with_reducible exact Upd.refl _ _ _ _ | exact rfl | exact .inl rfl | exact .inr rfl | with_reducible assumption
    | with_reducible apply Upd.ite | with_reducible apply Upd.step (updEp_upd ..) | split | dsimp only | intro _

theorem replyBound_upd (p : Nat) (e : Nat) (code : Nat) (c : FCell) (s : State) {o_ : Option Nat} :
    Upd [.fab] [] o_ s (replyBound p e code c s) := by
  unfold replyBound
  repeat' first
    | with_reducible exact Upd.refl _ _ _ _ | exact rfl | exact .inl rfl | exact .inr rfl | with_reducible assumption
    | with_reducible apply Upd.ite | with_reducible apply Upd.step' (replyTo_upd ..) | split | dsimp only | intro _

theorem fordRefuse_upd (p : Nat) (e : Nat) (ford : Nat) (c : FCell) (src : Nat × Nat × Nat) (tag : Nat) (s : State) {o_ : Option Nat} :
    Upd [.regs, .evts, .cmt, .host, .fab] [] o_ s (fordRefuse p e ford c src tag s) := by
  unfold fordRefuse
  repeat' first
    | with_reducible exact Upd.refl _ _ _ _ | exact rfl | exact .inl rfl | exact .inr rfl | with_reducible assumption
    | with_reducible apply Upd.ite | with_reducible apply Upd.step' (note_upd ..) | with_reducible apply Upd.step' (progFault_upd ..)
    | with_reducible apply Upd.step' (replyTo_upd ..) | split | dsimp only | intro _

theorem addRemote_upd (p : Nat) (e : Nat) (c : FCell) (data : List Byte) (s : State) :
    Upd [.cores] [.fe] (some p) s (addRemote p e c data s) := by
  unfold addRemote
  repeat' first
    | with_reducible exact Upd.refl _ _ _ _ | exact rfl | exact .inl rfl | exact .inr rfl | with_reducible assumption
    | with_reducible apply Upd.ite | with_reducible apply Upd.updCore | with_reducible exact CUpd.refl _ _ | with_reducible apply CUpd.set
    | split | dsimp only | intro _

/-- The state that a check of an arriving cell answers with. -/
def Arr.st : Arr → State
  | .gone s => s
  | .unbound s => s
  | .epoch s => s
  | .cls s => s
  | .ok _ s => s

theorem arrCheck_st (p e role : Nat) (c : FCell) (s : State) : Upd [.regs, .evts, .cores, .cmt, .host] [.ch, .pc] (some p) s (arrCheck p e role c s).st := by
  unfold arrCheck
  dsimp only
  have h1 : Upd [.regs, .evts, .cores, .cmt, .host] [.ch, .pc] (some p) s (nextSeq p e c s) := Upd.step (nextSeq_upd ..) rfl rfl (.inr rfl) (Upd.refl _ _ _ _)
  repeat' split
  all_goals dsimp only [Arr.st]
  all_goals first
    | exact (dropRecv_upd ..).mono rfl rfl (.inr rfl)
    | exact (e2eFail_upd ..).mono rfl rfl (.inr rfl)
    | exact h1.trans ((dropRecv_upd ..).mono rfl rfl (.inr rfl))
    | exact h1.trans ((countAt_upd ..).mono rfl rfl (.inr rfl))
    | exact (h1.trans ((dropRecv_upd ..).mono rfl rfl (.inr rfl))).trans ((coreSrc_upd ..).mono rfl rfl (.inr rfl))

theorem arrCheck_gone {p e role : Nat} {c : FCell} {s t : State} (h : arrCheck p e role c s = .gone t) : Upd [.regs, .evts, .cores, .cmt, .host] [.ch, .pc] (some p) s t := by
  have g := arrCheck_st p e role c s
  rwa [h] at g

theorem arrCheck_unbound {p e role : Nat} {c : FCell} {s t : State} (h : arrCheck p e role c s = .unbound t) : Upd [.regs, .evts, .cores, .cmt, .host] [.ch, .pc] (some p) s t := by
  have g := arrCheck_st p e role c s
  rwa [h] at g

theorem arrCheck_epoch {p e role : Nat} {c : FCell} {s t : State} (h : arrCheck p e role c s = .epoch t) : Upd [.regs, .evts, .cores, .cmt, .host] [.ch, .pc] (some p) s t := by
  have g := arrCheck_st p e role c s
  rwa [h] at g

theorem arrCheck_cls {p e role : Nat} {c : FCell} {s t : State} (h : arrCheck p e role c s = .cls t) : Upd [.regs, .evts, .cores, .cmt, .host] [.ch, .pc] (some p) s t := by
  have g := arrCheck_st p e role c s
  rwa [h] at g

theorem arrCheck_ok {p e role : Nat} {c : FCell} {s t : State} {d : ChanD} (h : arrCheck p e role c s = .ok d t) : Upd [.regs, .evts, .cores, .cmt, .host] [.ch, .pc] (some p) s t := by
  have g := arrCheck_st p e role c s
  rwa [h] at g

theorem landCell_upd (p : Nat) (e : Nat) (d : ChanD) (c : FCell) (s : State) :
    Upd [.regs, .evts, .cores, .cmt, .host, .fab] [.adds, .fe, .vx] (some p) s (landCell p e d c s) := by
  unfold landCell
  repeat' first
    | with_reducible exact Upd.refl _ _ _ _ | exact rfl | exact .inl rfl | exact .inr rfl | with_reducible assumption
    | with_reducible apply Upd.ite | with_reducible apply Upd.step (addRemote_upd ..) | with_reducible apply Upd.step' (fordRefuse_upd ..)
    | with_reducible apply Upd.step (addObj_upd ..) | with_reducible apply Upd.step' (dropRecv_upd ..) | with_reducible apply Upd.updCore
    | with_reducible exact CUpd.refl _ _ | with_reducible apply CUpd.ite | with_reducible apply CUpd.set | split | dsimp only | intro _

theorem cellArrival_upd (p : Nat) (s : State) :
    Upd [.regs, .evts, .cores, .cmt, .host, .fab] [.adds, .fe, .vx, .ch, .pc] (some p) s (cellArrival p s) := by
  unfold cellArrival
  repeat' first
    | with_reducible exact Upd.refl _ _ _ _ | exact rfl | exact .inl rfl | exact .inr rfl | with_reducible assumption
    | with_reducible apply Upd.ite | with_reducible apply Upd.step' (dropRecv_upd ..) | with_reducible apply Upd.step (popCell_upd ..)
    | with_reducible apply Upd.step (arrCheck_gone ‹arrCheck _ _ _ _ _ = _›)
    | with_reducible apply Upd.step (arrCheck_unbound ‹arrCheck _ _ _ _ _ = _›)
    | with_reducible apply Upd.step (arrCheck_epoch ‹arrCheck _ _ _ _ _ = _›)
    | with_reducible apply Upd.step (arrCheck_cls ‹arrCheck _ _ _ _ _ = _›)
    | with_reducible apply Upd.step (arrCheck_ok ‹arrCheck _ _ _ _ _ = _›) | with_reducible apply Upd.step' (replyBound_upd ..)
    | with_reducible apply Upd.step (updEp_upd ..) | with_reducible apply Upd.step (landCell_upd ..) | split | dsimp only | intro _

theorem execCellArrival_upd (p : Nat) (s : State) {t : State} (h : execCellArrival p s = .next t) :
    Upd [.regs, .evts, .cores, .cmt, .host, .fab] [.adds, .fe, .vx, .ch, .pc] (some p) s t := by
  refine guarded_upd (fun s => ?_) h
  repeat' first
    | with_reducible exact Upd.refl _ _ _ _ | exact rfl | exact .inl rfl | exact .inr rfl | with_reducible assumption
    | with_reducible apply Upd.ite | with_reducible apply Upd.step (cellArrival_upd ..) | split | dsimp only | intro _

theorem boundaryDiscard_upd (p : Nat) (s : State) :
    Upd [.regs, .evts, .cores, .host] [.ch] (some p) s (boundaryDiscard p s) := by
  unfold boundaryDiscard
  repeat' first
    | with_reducible exact Upd.refl _ _ _ _ | exact rfl | exact .inl rfl | exact .inr rfl | with_reducible assumption
    | with_reducible apply Upd.ite | with_reducible apply Upd.step' (dropRecv_upd ..) | with_reducible apply Upd.step (popCell_upd ..) | split
    | dsimp only | intro _

theorem execBoundaryCellDiscard_upd (p : Nat) (s : State) {t : State} (h : execBoundaryCellDiscard p s = .next t) :
    Upd [.regs, .evts, .cores, .host] [.ch] (some p) s t := by
  refine guarded_upd (fun s => ?_) h
  repeat' first
    | with_reducible exact Upd.refl _ _ _ _ | exact rfl | exact .inl rfl | exact .inr rfl | with_reducible assumption
    | with_reducible apply Upd.ite | with_reducible apply Upd.step (boundaryDiscard_upd ..) | split | dsimp only | intro _

theorem ctlCheck_upd (p : Nat) (e : Nat) (c : FCell) (s : State) {o_ : Option Nat} :
    Upd [.regs, .evts, .cmt, .host] [] o_ s (ctlCheck p e c s).2 := by
  unfold ctlCheck
  repeat' first
    | with_reducible exact Upd.refl _ _ _ _ | exact rfl | exact .inl rfl | exact .inr rfl | with_reducible assumption
    | with_reducible apply Upd.ite | with_reducible apply Upd.step' (dropRecv_upd ..) | with_reducible apply Upd.step' (e2eFail_upd ..)
    | with_reducible apply Upd.step' (coreSrc_upd ..) | split | dsimp only | intro _

theorem ctlCheck_some {p e : Nat} {c : FCell} {s t : State} (h : (ctlCheck p e c s).1 = some t) : t = s := by
  unfold ctlCheck at h
  repeat' split at h
  all_goals cases h
  rfl

theorem ctlCheck_pass_upd {p e : Nat} {c : FCell} {s t u : State} {o_ : Option Nat} (h : ctlCheck p e c s = (some t, u)) :
    Upd [] [] o_ s t := ctlCheck_some (congrArg Prod.fst h) ▸ Upd.refl _ _ _ _

theorem openArrival_upd (p : Nat) (s : State) :
    Upd [.regs, .evts, .cores, .cmt, .host, .fab] [.adds, .ch] (some p) s (openArrival p s) := by
  unfold openArrival
  repeat' first
    | with_reducible exact Upd.refl _ _ _ _ | exact rfl | exact .inl rfl | exact .inr rfl | with_reducible assumption
    | with_reducible apply Upd.ite | with_reducible apply Upd.step' (ctlCheck_pass_upd ‹ctlCheck _ _ _ _ = (some _, _)›)
    | with_reducible apply Upd.step (ctlCheck_upd ..) | with_reducible apply Upd.step (popCell_upd ..)
    | with_reducible apply Upd.step (bindCheck_upd ..) | with_reducible apply Upd.step (updEp_upd ..)
    | with_reducible apply Upd.step' (replyTo_upd ..) | with_reducible apply Upd.of_snd (by assumption) | split | dsimp only | intro _

theorem execOpenRequestArrival_upd (p : Nat) (s : State) {t : State} (h : execOpenRequestArrival p s = .next t) :
    Upd [.regs, .evts, .cores, .cmt, .host, .fab] [.adds, .ch] (some p) s t := by
  refine guarded_upd (fun s => ?_) h
  repeat' first
    | with_reducible exact Upd.refl _ _ _ _ | exact rfl | exact .inl rfl | exact .inr rfl | with_reducible assumption
    | with_reducible apply Upd.ite | with_reducible apply Upd.step (openArrival_upd ..) | split | dsimp only | intro _

theorem memberAnswered_upd (p : Nat) (e : Nat) (i : Nat) (refusal : Option Nat) (s : State) :
    Upd [.cores] [.adds, .ch] (some p) s (memberAnswered p e i refusal s) := by
  unfold memberAnswered
  repeat' first
    | with_reducible exact Upd.refl _ _ _ _ | exact rfl | exact .inl rfl | exact .inr rfl | with_reducible assumption
    | with_reducible apply Upd.ite | with_reducible apply Upd.step (addObj_upd ..) | with_reducible apply Upd.step (updEp_upd ..) | split
    | dsimp only | intro _

theorem openReply_upd (p : Nat) (e : Nat) (c : FCell) (s : State) :
    Upd [.cores] [.adds, .ch] (some p) s (openReply p e c s) := by
  unfold openReply
  repeat' first
    | with_reducible exact Upd.refl _ _ _ _ | exact rfl | exact .inl rfl | exact .inr rfl | with_reducible assumption
    | with_reducible apply Upd.ite | with_reducible apply Upd.step (updEp_upd ..) | with_reducible apply Upd.step (memberAnswered_upd ..)
    | with_reducible apply Upd.step (addObj_upd ..) | split | dsimp only | intro _

theorem onReply_upd {F : List SFld} {D : List CFld} {k : Option Nat} {b s : State} {p : Nat} {codes : List Nat} {f : Nat → FCell → State → State}
    (hF : SFld.sub [.regs, .evts, .cores, .cmt, .host] F = true) (hD : CFld.sub [.ch] D = true)
    (ho : k = none ∨ k = some p) (he : ∀ i j t, Upd F D k t (f i j t)) (h : Upd F D k b s) : Upd F D k b (onReply p codes f s) := by
  have hc : ∀ e c, Upd F D k b (ctlCheck p e c (popCell p s)).2 := fun e c =>
    Upd.step (ctlCheck_upd (o_ := k) ..) (SFld.sub_trans rfl hF) (CFld.sub_trans rfl hD) (.inr rfl)
      (Upd.step (popCell_upd ..) (SFld.sub_trans rfl hF) (CFld.sub_trans rfl hD) ho h)
  have hs : ∀ e c t, (ctlCheck p e c (popCell p s)).1 = some t → Upd F D k b t := fun e c t z =>
    ctlCheck_some z ▸ Upd.step (popCell_upd ..) (SFld.sub_trans rfl hF) (CFld.sub_trans rfl hD) ho h
  unfold onReply
  split
  · exact h
  · split
    · exact h
    · split
      · next z => exact Upd.of_snd z (hc _ _)
      · next z => exact (hs _ _ _ (congrArg Prod.fst z)).trans (he _ _ _)

theorem execOpenReplyArrival_upd (p : Nat) (s : State) {t : State} (h : execOpenReplyArrival p s = .next t) :
    Upd [.regs, .evts, .cores, .cmt, .host] [.adds, .ch] (some p) s t := by
  refine guarded_upd (fun s => ?_) h
  repeat' first
    | with_reducible exact Upd.refl _ _ _ _ | exact rfl | exact .inl rfl | exact .inr rfl | with_reducible assumption
    | with_reducible apply Upd.ite | with_reducible apply onReply_upd | with_reducible apply Upd.step (openReply_upd ..) | split | dsimp only
    | intro _

theorem addCredit_upd (p : Nat) (e : Nat) (s : State) :
    Upd [.cores] [.ch] (some p) s (addCredit p e s) := by
  unfold addCredit
  repeat' first
    | with_reducible exact Upd.refl _ _ _ _ | exact rfl | exact .inl rfl | exact .inr rfl | with_reducible assumption
    | with_reducible apply Upd.ite | with_reducible apply Upd.step (updEp_upd ..) | split | dsimp only | intro _

theorem freeWriteTag_upd (p : Nat) (e : Nat) (fseq : Nat) (s : State) :
    Upd [.cores] [.fe] (some p) s (freeWriteTag p e fseq s) := by
  unfold freeWriteTag
  repeat' first
    | with_reducible exact Upd.refl _ _ _ _ | exact rfl | exact .inl rfl | exact .inr rfl | with_reducible assumption
    | with_reducible apply Upd.ite | with_reducible apply Upd.updCore | with_reducible exact CUpd.refl _ _ | with_reducible apply CUpd.set
    | split | dsimp only | intro _

theorem readerGone_upd (p : Nat) (e : Nat) (c : FCell) (miss : Bool) (s : State) :
    Upd [.regs, .evts, .cores, .cmt, .host] [.ch] (some p) s (readerGone p e c miss s) := by
  unfold readerGone
  repeat' first
    | with_reducible exact Upd.refl _ _ _ _ | exact rfl | exact .inl rfl | exact .inr rfl | with_reducible assumption
    | with_reducible apply Upd.ite | with_reducible apply Upd.step (updEp_upd ..) | with_reducible apply Upd.step' (dropSend_upd ..)
    | with_reducible apply Upd.step' (progFault_upd ..) | with_reducible apply Upd.step' (chStat_upd ..) | with_reducible apply Upd.updCore
    | with_reducible exact CUpd.refl _ _ | with_reducible apply CUpd.ite | with_reducible apply CUpd.foldN | with_reducible apply CUpd.set
    | with_reducible apply Upd.foldN | split | dsimp only | intro _

theorem senderReply_upd (p : Nat) (e : Nat) (c : FCell) (s : State) :
    Upd [.regs, .evts, .cores, .cmt, .host] [.fe, .ch] (some p) s (senderReply p e c s) := by
  unfold senderReply
  repeat' first
    | with_reducible exact Upd.refl _ _ _ _ | exact rfl | exact .inl rfl | exact .inr rfl | with_reducible assumption
    | with_reducible apply Upd.ite | with_reducible apply Upd.step (freeWriteTag_upd ..) | with_reducible apply Upd.step' (chStat_upd ..)
    | with_reducible apply Upd.step (addCredit_upd ..) | with_reducible apply Upd.step (readerGone_upd ..) | split | dsimp only | intro _

theorem execSenderReplyArrival_upd (p : Nat) (s : State) {t : State} (h : execSenderReplyArrival p s = .next t) :
    Upd [.regs, .evts, .cores, .cmt, .host] [.fe, .ch] (some p) s t := by
  refine guarded_upd (fun s => ?_) h
  repeat' first
    | with_reducible exact Upd.refl _ _ _ _ | exact rfl | exact .inl rfl | exact .inr rfl | with_reducible assumption
    | with_reducible apply Upd.ite | with_reducible apply onReply_upd | with_reducible apply Upd.step (senderReply_upd ..) | split | dsimp only
    | intro _

theorem creditBack_upd (p : Nat) (e : Nat) (fseq : Nat) (src : Nat × Nat × Nat) (s : State) :
    Upd [.cores] [.fe, .ch] (some p) s (creditBack p e fseq src s) := by
  unfold creditBack
  repeat' first
    | with_reducible exact Upd.refl _ _ _ _ | exact rfl | exact .inl rfl | exact .inr rfl | with_reducible assumption
    | with_reducible apply Upd.ite | with_reducible apply Upd.step (updEp_upd ..) | with_reducible apply Upd.step (addCredit_upd ..)
    | with_reducible apply Upd.step (freeWriteTag_upd ..) | split | dsimp only | intro _

theorem creditArrival_upd (p : Nat) (s : State) :
    Upd [.regs, .evts, .cores, .cmt, .host] [.fe, .ch] (some p) s (creditArrival p s) := by
  unfold creditArrival
  repeat' first
    | with_reducible exact Upd.refl _ _ _ _ | exact rfl | exact .inl rfl | exact .inr rfl | with_reducible assumption
    | with_reducible apply Upd.ite | with_reducible apply Upd.step' (ctlCheck_pass_upd ‹ctlCheck _ _ _ _ = (some _, _)›)
    | with_reducible apply Upd.step (ctlCheck_upd ..) | with_reducible apply Upd.step (popCell_upd ..)
    | with_reducible apply Upd.step (creditBack_upd ..) | with_reducible apply Upd.of_snd (by assumption) | split | dsimp only | intro _

theorem execCreditArrival_upd (p : Nat) (s : State) {t : State} (h : execCreditArrival p s = .next t) :
    Upd [.regs, .evts, .cores, .cmt, .host] [.fe, .ch] (some p) s t := by
  refine guarded_upd (fun s => ?_) h
  repeat' first
    | with_reducible exact Upd.refl _ _ _ _ | exact rfl | exact .inl rfl | exact .inr rfl | with_reducible assumption
    | with_reducible apply Upd.ite | with_reducible apply Upd.step (creditArrival_upd ..) | split | dsimp only | intro _

theorem closeArrival_upd (p : Nat) (s : State) :
    Upd [.regs, .evts, .cores, .cmt, .host, .fab] [.ch, .pc] (some p) s (closeArrival p s) := by
  unfold closeArrival
  repeat' first
    | with_reducible exact Upd.refl _ _ _ _ | exact rfl | exact .inl rfl | exact .inr rfl | with_reducible assumption
    | with_reducible apply Upd.ite | with_reducible apply Upd.step (arrCheck_gone ‹arrCheck _ _ _ _ _ = _›)
    | with_reducible apply Upd.step (arrCheck_unbound ‹arrCheck _ _ _ _ _ = _›)
    | with_reducible apply Upd.step (arrCheck_epoch ‹arrCheck _ _ _ _ _ = _›)
    | with_reducible apply Upd.step (arrCheck_cls ‹arrCheck _ _ _ _ _ = _›)
    | with_reducible apply Upd.step (arrCheck_ok ‹arrCheck _ _ _ _ _ = _›) | with_reducible apply Upd.step (popCell_upd ..)
    | with_reducible apply Upd.step' (replyBound_upd ..) | with_reducible apply Upd.step (updEp_upd ..) | split | dsimp only | intro _

theorem execCloseCellArrival_upd (p : Nat) (s : State) {t : State} (h : execCloseCellArrival p s = .next t) :
    Upd [.regs, .evts, .cores, .cmt, .host, .fab] [.ch, .pc] (some p) s t := by
  refine guarded_upd (fun s => ?_) h
  repeat' first
    | with_reducible exact Upd.refl _ _ _ _ | exact rfl | exact .inl rfl | exact .inr rfl | with_reducible assumption
    | with_reducible apply Upd.ite | with_reducible apply Upd.step (closeArrival_upd ..) | split | dsimp only | intro _

theorem freeFabTag_upd (p : Nat) (t : Nat) (s : State) :
    Upd [.cores] [.fe] (some p) s (freeFabTag p t s) := by
  unfold freeFabTag
  repeat' first
    | with_reducible exact Upd.refl _ _ _ _ | exact rfl | exact .inl rfl | exact .inr rfl | with_reducible assumption
    | with_reducible apply Upd.ite | with_reducible apply Upd.updCore | with_reducible exact CUpd.refl _ _ | with_reducible apply CUpd.set
    | split | dsimp only | intro _

theorem landResp_upd (p : Nat) (e : Nat) (c : FCell) (s : State) :
    Upd [.regs, .evts, .cores, .cmt, .host] [.fe, .bsn] (some p) s (landResp p e c s) := by
  unfold landResp
  repeat' first
    | with_reducible exact Upd.refl _ _ _ _ | exact rfl | exact .inl rfl | exact .inr rfl | with_reducible assumption
    | with_reducible apply Upd.ite | with_reducible apply Upd.step' (elasticDest_upd _ _ _ _ _ ‹elasticDest _ _ _ _ _ = some _›)
    | with_reducible apply Upd.step (freeFabTag_upd ..) | with_reducible apply Upd.step (queueRows_upd ..) | with_reducible apply Upd.updCore
    | with_reducible exact CUpd.refl _ _ | with_reducible apply CUpd.ite | with_reducible apply CUpd.set | split | dsimp only | intro _

theorem respGone_upd (p : Nat) (c : FCell) (s : State) :
    Upd [.cores] [.fe] (some p) s (respGone p c s) := by
  unfold respGone
  repeat' first
    | with_reducible exact Upd.refl _ _ _ _ | exact rfl | exact .inl rfl | exact .inr rfl | with_reducible assumption
    | with_reducible apply Upd.ite | with_reducible apply Upd.step (freeFabTag_upd ..) | split | dsimp only | intro _

theorem frespArrival_upd (p : Nat) (s : State) :
    Upd [.regs, .evts, .cores, .cmt, .host] [.fe, .bsn, .ch, .pc] (some p) s (frespArrival p s) := by
  unfold frespArrival
  repeat' first
    | with_reducible exact Upd.refl _ _ _ _ | exact rfl | exact .inl rfl | exact .inr rfl | with_reducible assumption
    | with_reducible apply Upd.ite | with_reducible apply Upd.step (arrCheck_gone ‹arrCheck _ _ _ _ _ = _›)
    | with_reducible apply Upd.step (arrCheck_unbound ‹arrCheck _ _ _ _ _ = _›)
    | with_reducible apply Upd.step (arrCheck_epoch ‹arrCheck _ _ _ _ _ = _›)
    | with_reducible apply Upd.step (arrCheck_cls ‹arrCheck _ _ _ _ _ = _›)
    | with_reducible apply Upd.step (arrCheck_ok ‹arrCheck _ _ _ _ _ = _›) | with_reducible apply Upd.step (popCell_upd ..)
    | with_reducible apply Upd.step (respGone_upd ..) | with_reducible apply Upd.step' (progFault_upd ..)
    | with_reducible apply Upd.step (landResp_upd ..) | split | dsimp only | intro _

theorem execFrespArrival_upd (p : Nat) (s : State) {t : State} (h : execFrespArrival p s = .next t) :
    Upd [.regs, .evts, .cores, .cmt, .host] [.fe, .bsn, .ch, .pc] (some p) s t := by
  refine guarded_upd (fun s => ?_) h
  repeat' first
    | with_reducible exact Upd.refl _ _ _ _ | exact rfl | exact .inl rfl | exact .inr rfl | with_reducible assumption
    | with_reducible apply Upd.ite | with_reducible apply Upd.step (frespArrival_upd ..) | split | dsimp only | intro _

theorem barArrived_upd (p : Nat) (b : Nat) (phase : Nat) (count : Nat) (d : BarD) (s : State) :
    Upd [.cores, .fab] [.adds, .ch] (some p) s (barArrived p b phase count d s) := by
  unfold barArrived
  repeat' first
    | with_reducible exact Upd.refl _ _ _ _ | exact rfl | exact .inl rfl | exact .inr rfl | with_reducible assumption
    | with_reducible apply Upd.ite | with_reducible apply Upd.step (treeCheck_upd ..) | with_reducible apply Upd.step (addObj_upd ..)
    | with_reducible apply Upd.updCore | with_reducible exact CUpd.refl _ _ | with_reducible apply CUpd.ite | with_reducible apply CUpd.set
    | split | dsimp only | intro _ | with_reducible apply Upd.set

theorem onBarrier_upd {F : List SFld} {D : List CFld} {k : Option Nat} {b s : State} {p : Nat} {kinds : List Nat} {f : Nat → BarD → FCell → State → State}
    (hF : SFld.sub [.regs, .evts, .cores, .cmt, .host] F = true) (hD : CFld.sub [.ch, .pc] D = true)
    (ho : k = none ∨ k = some p) (he : ∀ i d j t, Upd F D k t (f i d j t)) (h : Upd F D k b s) : Upd F D k b (onBarrier p kinds f s) := by
  have hc : ∀ e c, Upd F D k b (ctlCheck p e c (popCell p s)).2 := fun e c =>
    Upd.step (ctlCheck_upd (o_ := k) ..) (SFld.sub_trans rfl hF) (CFld.sub_trans rfl hD) (.inr rfl)
      (Upd.step (popCell_upd ..) (SFld.sub_trans rfl hF) (CFld.sub_trans rfl hD) ho h)
  have hs : ∀ e c t, (ctlCheck p e c (popCell p s)).1 = some t → Upd F D k b t := fun e c t z =>
    ctlCheck_some z ▸ Upd.step (popCell_upd ..) (SFld.sub_trans rfl hF) (CFld.sub_trans rfl hD) ho h
  unfold onBarrier
  split
  · exact h
  · split
    · exact h
    · split
      · next z => exact Upd.of_snd z (hc _ _)
      · next z =>
        have q := hs _ _ _ (congrArg Prod.fst z)
        split
        · exact q
        · exact (Upd.step (countAt_upd ..) (SFld.sub_trans rfl hF) (CFld.sub_trans rfl hD) ho q).trans (he _ _ _ _)

theorem execBarrierArrival_upd (p : Nat) (s : State) {t : State} (h : execBarrierArrival p s = .next t) :
    Upd [.regs, .evts, .cores, .cmt, .host, .fab] [.adds, .ch, .pc] (some p) s t := by
  refine guarded_upd (fun s => ?_) h
  repeat' first
    | with_reducible exact Upd.refl _ _ _ _ | exact rfl | exact .inl rfl | exact .inr rfl | with_reducible assumption
    | with_reducible apply Upd.ite | with_reducible apply onBarrier_upd | with_reducible apply Upd.step (barArrived_upd ..) | split | dsimp only
    | intro _

theorem barReleased_upd (p : Nat) (b : Nat) (d : BarD) (c : FCell) (s : State) :
    Upd [.cores, .fab] [.ch] (some p) s (barReleased p b d c s) := by
  unfold barReleased
  repeat' first
    | with_reducible exact Upd.refl _ _ _ _ | exact rfl | exact .inl rfl | exact .inr rfl | with_reducible assumption
    | with_reducible apply Upd.ite | with_reducible apply Upd.step (releaseModule_upd ..) | with_reducible apply Upd.step' (toModule_upd ..)
    | with_reducible apply Upd.step (releaseHere_upd ..) | with_reducible apply Upd.foldl | split | dsimp only | intro _

theorem execBarrierRelease_upd (p : Nat) (s : State) {t : State} (h : execBarrierRelease p s = .next t) :
    Upd [.regs, .evts, .cores, .cmt, .host, .fab] [.ch, .pc] (some p) s t := by
  refine guarded_upd (fun s => ?_) h
  repeat' first
    | with_reducible exact Upd.refl _ _ _ _ | exact rfl | exact .inl rfl | exact .inr rfl | with_reducible assumption
    | with_reducible apply Upd.ite | with_reducible apply onBarrier_upd | with_reducible apply Upd.step (barReleased_upd ..) | split | dsimp only
    | intro _

theorem domArrived_upd (p : Nat) (b : Nat) (d : BarD) (_c : FCell) (s : State) :
    Upd [.cores, .fab] [.adds, .ch] (some p) s (domArrived p b d _c s) := by
  unfold domArrived
  repeat' first
    | with_reducible exact Upd.refl _ _ _ _ | exact rfl | exact .inl rfl | exact .inr rfl | with_reducible assumption
    | with_reducible apply Upd.ite | with_reducible apply Upd.step (domCheck_upd ..) | with_reducible apply Upd.step (addObj_upd ..) | split
    | dsimp only | intro _ | with_reducible apply Upd.set

theorem execDomainBarrierArrival_upd (p : Nat) (s : State) {t : State} (h : execDomainBarrierArrival p s = .next t) :
    Upd [.regs, .evts, .cores, .cmt, .host, .fab] [.adds, .ch, .pc] (some p) s t := by
  refine guarded_upd (fun s => ?_) h
  repeat' first
    | with_reducible exact Upd.refl _ _ _ _ | exact rfl | exact .inl rfl | exact .inr rfl | with_reducible assumption
    | with_reducible apply Upd.ite | with_reducible apply onBarrier_upd | with_reducible apply Upd.step (domArrived_upd ..) | split | dsimp only
    | intro _

theorem takeCount_upd (p : Nat) (o : Nat) (n : Nat) (s : State) :
    Upd [.cores] [.obj] (some p) s (takeCount p o n s) := by
  unfold takeCount
  repeat' first
    | with_reducible exact Upd.refl _ _ _ _ | exact rfl | exact .inl rfl | exact .inr rfl | with_reducible assumption
    | with_reducible apply Upd.ite | with_reducible apply Upd.updCore | with_reducible exact CUpd.refl _ _ | with_reducible apply CUpd.set
    | split | dsimp only | intro _

theorem barRoot_upd (p : Nat) (s : State) (d : BarD) :
    Upd [.cores, .fab] [.obj, .ch] (some p) s (barRoot p s d) := by
  unfold barRoot
  repeat' first
    | with_reducible exact Upd.refl _ _ _ _ | exact rfl | exact .inl rfl | exact .inr rfl | with_reducible assumption
    | with_reducible apply Upd.ite | with_reducible apply Upd.step (localDone_upd ..) | with_reducible apply Upd.step (takeCount_upd ..)
    | with_reducible apply Upd.step' (toModule_upd ..) | with_reducible apply Upd.foldN | split | dsimp only | intro _
    | with_reducible apply Upd.set

theorem barLc_upd (p : Nat) (s : State) :
    Upd [.cores, .fab] [.obj, .ch] (some p) s (barLc p s) := by
  unfold barLc
  repeat' first
    | with_reducible exact Upd.refl _ _ _ _ | exact rfl | exact .inl rfl | exact .inr rfl | with_reducible assumption
    | with_reducible apply Upd.ite | with_reducible apply Upd.step (barRoot_upd ..) | with_reducible apply Upd.updCore
    | with_reducible exact CUpd.refl _ _ | with_reducible apply CUpd.ite | with_reducible apply CUpd.foldN | with_reducible apply CUpd.set
    | with_reducible apply Upd.foldl | split | dsimp only | intro _

theorem fencedAck_upd (p : Nat) (e : Nat) (c : FCell) (s : State) :
    Upd [.regs, .evts, .cores, .cmt, .host] [.adds, .fe, .ch] (some p) s (fencedAck p e c s) := by
  unfold fencedAck
  repeat' first
    | with_reducible exact Upd.refl _ _ _ _ | exact rfl | exact .inl rfl | exact .inr rfl | with_reducible assumption
    | with_reducible apply Upd.ite | with_reducible apply Upd.step' (coreSrc_upd ..) | with_reducible apply Upd.step' (noteStat_upd ..)
    | with_reducible apply Upd.step' (note_upd ..) | with_reducible apply Upd.step (memberAnswered_upd ..)
    | with_reducible apply Upd.step (addObj_upd ..) | with_reducible apply Upd.step (updEp_upd ..)
    | with_reducible apply Upd.step (freeWriteTag_upd ..) | with_reducible apply Upd.step (addCredit_upd ..)
    | with_reducible apply Upd.step (creditBack_upd ..) | with_reducible apply Upd.step (freeFabTag_upd ..) | split | dsimp only | intro _

theorem execFencedAckArrival_upd (p : Nat) (s : State) {t : State} (h : execFencedAckArrival p s = .next t) :
    Upd [.regs, .evts, .cores, .cmt, .host] [.adds, .fe, .ch] (some p) s t := by
  refine guarded_upd (fun s => ?_) h
  repeat' first
    | with_reducible exact Upd.refl _ _ _ _ | exact rfl | exact .inl rfl | exact .inr rfl | with_reducible assumption
    | with_reducible apply Upd.ite | with_reducible apply onReply_upd | with_reducible apply Upd.step (fencedAck_upd ..) | split | dsimp only
    | intro _

end Sys2Proof.Machine
end

