-- ==== Sys2Proof/Laws/Matrix.lean ====
section
/-! SUPPORT. What each operation of Sys2Proof/Machine/Matrix.lean can change: its footprint. -/
namespace Sys2Proof.Machine
set_option linter.all false

theorem mxFlt_upd (p : Nat) (bit : Nat) (s : State) {o_ : Option Nat} :
    Upd [.regs, .evts, .host] [] o_ s (mxFlt p bit s) := by
  unfold mxFlt
  repeat' first
    | with_reducible exact Upd.refl _ _ _ _ | exact rfl | exact .inl rfl | exact .inr rfl | with_reducible assumption
    | with_reducible apply Upd.ite | with_reducible apply Upd.step' (noteStat_upd ..) | split | dsimp only | intro _

theorem sideRead_upd (p : Nat) (n : Nat) (s : State) :
    Upd [.regs, .evts, .cores, .cmt, .host, .fab] [.vx] (some p) s (sideRead p n s).2 := by
  unfold sideRead
  repeat' first
    | with_reducible exact Upd.refl _ _ _ _ | exact rfl | exact .inl rfl | exact .inr rfl | with_reducible assumption
    | with_reducible apply Upd.ite | with_reducible apply Upd.step (takePort_upd ..) | with_reducible apply Upd.step' (portLate_upd ..)
    | with_reducible apply Upd.of_snd (by assumption) | split | dsimp only | intro _

theorem mxRead_upd (ev : List HwEvent) (p : Nat) (i : Ins) (off : Int) (n : Nat) (s : State) :
    Upd [.regs, .evts, .cores, .cmt, .host, .fab] [.job, .bsn, .vx] (some p) s (mxRead ev p i off n s).2 := by
  unfold mxRead
  repeat' first
    | with_reducible exact Upd.refl _ _ _ _ | exact rfl | exact .inl rfl | exact .inr rfl | with_reducible assumption
    | with_reducible apply Upd.ite | with_reducible apply Upd.step (exRead_upd ..) | with_reducible apply Upd.step (sideRead_upd ..)
    | with_reducible apply Upd.of_snd (by assumption) | split | dsimp only | intro _

theorem actRead_upd (ev : List HwEvent) (p : Nat) (i : Ins) (off : Int) (s : State) :
    Upd [.regs, .evts, .cores, .cmt, .host, .fab] [.job, .bsn, .vx] (some p) s (actRead ev p i off s).2 := by
  unfold actRead
  repeat' first
    | with_reducible exact Upd.refl _ _ _ _ | exact rfl | exact .inl rfl | exact .inr rfl | with_reducible assumption
    | with_reducible apply Upd.ite | with_reducible apply Upd.step (exReadAt_upd ..) | with_reducible apply Upd.step (sideRead_upd ..)
    | with_reducible apply Upd.of_snd (by assumption) | split | dsimp only | intro _

theorem cenAt_upd (p : Nat) (t : Nat) (f : Census → Census) (s : State) :
    Upd [.cores] [.pu, .pc] (some p) s (cenAt p t f s) := by
  unfold cenAt
  repeat' first
    | with_reducible exact Upd.refl _ _ _ _ | exact rfl | exact .inl rfl | exact .inr rfl | with_reducible assumption
    | with_reducible apply Upd.ite | with_reducible apply Upd.step (countAt_upd ..) | with_reducible apply Upd.updCore
    | with_reducible exact CUpd.refl _ _ | with_reducible apply CUpd.ite | with_reducible apply CUpd.set | split | dsimp only | intro _

theorem ldwStep_upd (ev : List HwEvent) (p : Nat) (i : Ins) (j : Nat) (s : State) :
    Upd [.regs, .evts, .cores, .cmt, .host, .fab] [.job, .bsn, .mx, .pu, .vx, .pc] (some p) s (ldwStep ev p i j s) := by
  unfold ldwStep
  repeat' first
    | with_reducible exact Upd.refl _ _ _ _ | exact rfl | exact .inl rfl | exact .inr rfl | with_reducible assumption
    | with_reducible apply Upd.ite | with_reducible apply Upd.step (mxRead_upd ..) | with_reducible apply Upd.step (takePort_upd ..)
    | with_reducible apply Upd.step' (progFault_upd ..) | with_reducible apply Upd.step' (mxFlt_upd ..)
    | with_reducible apply Upd.step (cenAt_upd ..) | with_reducible apply Upd.updCore | with_reducible exact CUpd.refl _ _
    | with_reducible apply CUpd.ite | with_reducible apply CUpd.set | with_reducible apply Upd.of_snd (by assumption) | split | dsimp only
    | intro _

theorem ldwStart_upd (p : Nat) (i : Ins) (s : State) :
    Upd [.cores] [.mx] (some p) s (ldwStart p i s) := by
  unfold ldwStart
  repeat' first
    | with_reducible exact Upd.refl _ _ _ _ | exact rfl | exact .inl rfl | exact .inr rfl | with_reducible assumption
    | with_reducible apply Upd.ite | with_reducible apply Upd.updCore | with_reducible exact CUpd.refl _ _ | with_reducible apply CUpd.set
    | split | dsimp only | intro _

theorem execMxldw_upd (p : Nat) (ev : List HwEvent) (s : State) {t : State} (h : execMxldw p ev s = .next t) :
    Upd [.cores] [.q, .busy, .started, .sigs, .job, .obj, .mx, .issue] (some p) s t := by
  refine guarded_upd (fun s => ?_) h
  repeat' first
    | with_reducible exact Upd.refl _ _ _ _ | exact rfl | exact .inl rfl | exact .inr rfl | with_reducible assumption
    | with_reducible apply Upd.ite | with_reducible apply stepRun_upd | with_reducible apply Upd.step (ldwStart_upd ..) | split | dsimp only
    | intro _

theorem ldsStep_upd (ev : List HwEvent) (p : Nat) (i : Ins) (j : Nat) (s : State) :
    Upd [.regs, .evts, .cores, .cmt, .host, .fab] [.job, .bsn, .mx, .vx] (some p) s (ldsStep ev p i j s) := by
  unfold ldsStep
  repeat' first
    | with_reducible exact Upd.refl _ _ _ _ | exact rfl | exact .inl rfl | exact .inr rfl | with_reducible assumption
    | with_reducible apply Upd.ite | with_reducible apply Upd.step (mxRead_upd ..) | with_reducible apply Upd.updCore
    | with_reducible exact CUpd.refl _ _ | with_reducible apply CUpd.ite | with_reducible apply CUpd.set
    | with_reducible apply Upd.of_snd (by assumption) | split | dsimp only | intro _

theorem ldsStart_upd (p : Nat) (_i : Ins) (s : State) :
    Upd [.cores] [.mx] (some p) s (ldsStart p _i s) := by
  unfold ldsStart
  repeat' first
    | with_reducible exact Upd.refl _ _ _ _ | exact rfl | exact .inl rfl | exact .inr rfl | with_reducible assumption
    | with_reducible apply Upd.ite | with_reducible apply Upd.updCore | with_reducible exact CUpd.refl _ _ | with_reducible apply CUpd.set
    | split | dsimp only | intro _

theorem execMxlds_upd (p : Nat) (ev : List HwEvent) (s : State) {t : State} (h : execMxlds p ev s = .next t) :
    Upd [.cores] [.q, .busy, .started, .sigs, .job, .obj, .mx, .issue] (some p) s t := by
  refine guarded_upd (fun s => ?_) h
  repeat' first
    | with_reducible exact Upd.refl _ _ _ _ | exact rfl | exact .inl rfl | exact .inr rfl | with_reducible assumption
    | with_reducible apply Upd.ite | with_reducible apply stepRun_upd | with_reducible apply Upd.step (ldsStart_upd ..) | split | dsimp only
    | intro _

/-- A product and what the checker adds for it agree mod 4095 (R158). -/
theorem resTerm_mod (x : Int × Int) : resTerm x % 4095 = x.1 * x.2 % 4095 := by
  unfold resTerm
  conv => rhs; rw [← Int.sign_mul_natAbs (x.1 * x.2), Int.natAbs_mul]
  rw [Int.mul_emod, Int.mul_emod (x.1 * x.2).sign]
  congr 2
  have h : x.1.natAbs % 4095 * (x.2.natAbs % 4095) % 4095 % 4095 = x.1.natAbs * x.2.natAbs % 4095 := by rw [Nat.mod_mod, ← Nat.mul_mod]
  have e : ∀ n : Nat, (n : Int) % 4095 = ((n % 4095 : Nat) : Int) := fun n => by omega
  rw [e, e, h]

/-- The residue that the checker adds up is that of the accumulator, A mod 4095 (R158, R159). -/
theorem rho_eq (l : List (Int × Int)) : rho l = accA l % 4095 := by
  unfold rho accA
  have h : ∀ (l : List (Int × Int)) (r a : Int), r % 4095 = a % 4095 →
      (l.foldl (fun r x => r + resTerm x) r) % 4095 = (l.foldl (fun a x => a + x.1 * x.2) a) % 4095 := by
    intro l
    induction l with
    | nil => exact fun _ _ h => h
    | cons x l ih => exact fun r a h => ih _ _ (by rw [Int.add_emod, h, resTerm_mod, ← Int.add_emod])
  exact h l 0 0 rfl

theorem residueHit_upd (p : Nat) (col : Nat) (s : State) {o_ : Option Nat} :
    Upd [.regs, .evts, .cmt, .host] [] o_ s (residueHit p col s) := by
  unfold residueHit
  repeat' first
    | with_reducible exact Upd.refl _ _ _ _ | exact rfl | exact .inl rfl | exact .inr rfl | with_reducible assumption
    | with_reducible apply Upd.ite | with_reducible apply Upd.step' (coreSrc_upd ..) | with_reducible apply Upd.step' (note_upd ..) | split
    | dsimp only | intro _

theorem residues_upd (ev : List HwEvent) (p : Nat) (k : Nat) (w : Nat) (a : Nat) (part : Nat) (row : List Byte) (s : State) {o_ : Option Nat} :
    Upd [.regs, .evts, .cmt, .host] [] o_ s (residues ev p k w a part row s) := by
  unfold residues
  repeat' first
    | with_reducible exact Upd.refl _ _ _ _ | exact rfl | exact .inl rfl | exact .inr rfl | with_reducible assumption
    | with_reducible apply Upd.ite | with_reducible apply Upd.step' (residueHit_upd ..) | with_reducible apply Upd.foldl | split | dsimp only
    | intro _

theorem runResult_upd (ev : List HwEvent) (p : Nat) (i : Ins) (b : Nat) (k : Nat) (r0 : List Byte) (r1 : List Byte) (s : State) :
    Upd [.regs, .evts, .cores, .cmt, .host] [.mx, .pc] (some p) s (runResult ev p i b k r0 r1 s) := by
  unfold runResult
  repeat' first
    | with_reducible exact Upd.refl _ _ _ _ | exact rfl | exact .inl rfl | exact .inr rfl | with_reducible assumption
    | with_reducible apply Upd.ite | with_reducible apply Upd.step' (residues_upd ..) | with_reducible apply Upd.step (countAt_upd ..)
    | with_reducible apply Upd.updCore | with_reducible exact CUpd.refl _ _ | with_reducible apply CUpd.ite | with_reducible apply CUpd.set
    | split | dsimp only | intro _

theorem runStep_upd (p : Nat) (w : Work) (s : State) :
    Upd [.regs, .evts, .cores, .cmt, .host, .fab] [.job, .bsn, .mx, .vx, .pc] (some p) s (runStep p w s).2 := by
  unfold runStep
  repeat' first
    | with_reducible exact Upd.refl _ _ _ _ | exact rfl | exact .inl rfl | exact .inr rfl | with_reducible assumption
    | with_reducible apply Upd.ite | with_reducible apply Upd.step (actRead_upd ..) | with_reducible apply Upd.step (runResult_upd ..)
    | with_reducible apply Upd.updCore | with_reducible exact CUpd.refl _ _ | with_reducible apply CUpd.ite | with_reducible apply CUpd.set
    | with_reducible apply Upd.of_snd (by assumption) | split | dsimp only | intro _

theorem runBegin_upd (p : Nat) (i : Ins) (tm : Timing) (w : Nat) (part : Bool) (s : State) :
    Upd [.cores] [.mx] (some p) s (runBegin p i tm w part s) := by
  unfold runBegin
  repeat' first
    | with_reducible exact Upd.refl _ _ _ _ | exact rfl | exact .inl rfl | exact .inr rfl | with_reducible assumption
    | with_reducible apply Upd.ite | with_reducible apply Upd.updCore | with_reducible exact CUpd.refl _ _ | with_reducible apply CUpd.ite
    | with_reducible apply CUpd.set | split | dsimp only | intro _

theorem runChecks_upd (p : Nat) (i : Ins) (s : State) {o_ : Option Nat} :
    Upd [.regs, .evts, .cmt, .host] [] o_ s (runChecks p i s) := by
  unfold runChecks
  repeat' first
    | with_reducible exact Upd.refl _ _ _ _ | exact rfl | exact .inl rfl | exact .inr rfl | with_reducible assumption
    | with_reducible apply Upd.ite | with_reducible apply Upd.step' (progFault_upd ..) | with_reducible apply Upd.step' (mxFlt_upd ..) | split
    | dsimp only | intro _

theorem mxRun_upd (ev : List HwEvent) (p : Nat) (s : State) :
    Upd [.regs, .evts, .cores, .cmt, .host] [.q, .busy, .started, .sigs, .job, .obj, .mx, .issue] (some p) s (mxRun ev p s) := by
  unfold mxRun
  repeat' first
    | with_reducible exact Upd.refl _ _ _ _ | exact rfl | exact .inl rfl | exact .inr rfl | with_reducible assumption
    | with_reducible apply Upd.ite | with_reducible apply Upd.step (runBegin_upd ..) | with_reducible apply Upd.step (startUnit_upd ..)
    | with_reducible apply Upd.step' (runChecks_upd ..) | with_reducible apply Upd.step (addWork_upd ..) | split | dsimp only | intro _

theorem execMxrun_upd (p : Nat) (ev : List HwEvent) (s : State) {t : State} (h : execMxrun p ev s = .next t) :
    Upd [.regs, .evts, .cores, .cmt, .host] [.q, .busy, .started, .sigs, .job, .obj, .mx, .issue] (some p) s t := by
  refine guarded_upd (fun s => ?_) h
  repeat' first
    | with_reducible exact Upd.refl _ _ _ _ | exact rfl | exact .inl rfl | exact .inr rfl | with_reducible assumption
    | with_reducible apply Upd.ite | with_reducible apply Upd.step (mxRun_upd ..) | split | dsimp only | intro _

theorem rampDown_upd (p : Nat) (s : State) :
    Upd [.cores] [.mx] (some p) s (rampDown p s) := by
  unfold rampDown
  repeat' first
    | with_reducible exact Upd.refl _ _ _ _ | exact rfl | exact .inl rfl | exact .inr rfl | with_reducible assumption
    | with_reducible apply Upd.ite | with_reducible apply Upd.updCore | with_reducible exact CUpd.refl _ _ | with_reducible apply CUpd.ite
    | with_reducible apply CUpd.set | split | dsimp only | intro _

theorem execArrayRampDown_upd (p : Nat) (s : State) {t : State} (h : execArrayRampDown p s = .next t) :
    Upd [.cores] [.mx] (some p) s t := by
  refine guarded_upd (fun s => ?_) h
  repeat' first
    | with_reducible exact Upd.refl _ _ _ _ | exact rfl | exact .inl rfl | exact .inr rfl | with_reducible assumption
    | with_reducible apply Upd.ite | with_reducible apply Upd.step (rampDown_upd ..) | split | dsimp only | intro _

theorem holdRamp_upd (p : Nat) (s : State) :
    Upd [.regs, .evts, .cores, .cmt, .host] [.mx] (some p) s (holdRamp p s) := by
  unfold holdRamp
  repeat' first
    | with_reducible exact Upd.refl _ _ _ _ | exact rfl | exact .inl rfl | exact .inr rfl | with_reducible assumption
    | with_reducible apply Upd.ite | with_reducible apply Upd.step' (progFault_upd ..) | with_reducible apply Upd.step' (mxFlt_upd ..)
    | with_reducible apply Upd.updCore | with_reducible exact CUpd.refl _ _ | with_reducible apply CUpd.ite | with_reducible apply CUpd.set
    | split | dsimp only | intro _

theorem mxStep_upd (p : Nat) (w : Work) (s : State) :
    Upd [.regs, .evts, .cores, .cmt, .host, .fab] [.job, .bsn, .mx, .pu, .vx, .pc] (some p) s (mxStep p w s).2 := by
  unfold mxStep
  repeat' first
    | with_reducible exact Upd.refl _ _ _ _ | exact rfl | exact .inl rfl | exact .inr rfl | with_reducible assumption
    | with_reducible apply Upd.ite | with_reducible apply Upd.step (ldwStep_upd ..) | with_reducible apply Upd.step (ldsStep_upd ..)
    | with_reducible apply Upd.step (runStep_upd ..) | with_reducible apply Upd.of_snd (by assumption) | split | dsimp only | intro _

end Sys2Proof.Machine
end

