-- ==== Sys2Proof/Laws/Post.lean ====
section
/-! SUPPORT. What each operation of Sys2Proof/Machine/Post.lean can change: its footprint. -/
namespace Sys2Proof.Machine
set_option linter.all false

theorem dupHits_upd (ev : List HwEvent) (p : Nat) (s : State) {o_ : Option Nat} :
    Upd [.regs, .evts, .cmt, .host] [] o_ s (dupHits ev p s) := by
  unfold dupHits
  repeat' first
    | with_reducible exact Upd.refl _ _ _ _ | exact rfl | exact .inl rfl | exact .inr rfl | with_reducible assumption
    | with_reducible apply Upd.ite | with_reducible apply Upd.step' (coreSrc_upd ..) | with_reducible apply Upd.step' (note_upd ..)
    | with_reducible apply Upd.foldl | split | dsimp only | intro _

theorem settleCen_upd (p : Nat) (t : Nat) (s : State) :
    Upd [.cores] [.pu] (some p) s (settleCen p t s) := by
  unfold settleCen
  repeat' first
    | with_reducible exact Upd.refl _ _ _ _ | exact rfl | exact .inl rfl | exact .inr rfl | with_reducible assumption
    | with_reducible apply Upd.ite | with_reducible apply Upd.updCore | with_reducible exact CUpd.refl _ _ | with_reducible apply CUpd.ite
    | with_reducible apply CUpd.foldN | with_reducible apply CUpd.set | with_reducible apply Upd.foldl | with_reducible apply Upd.foldl_snd
    | with_reducible apply Upd.foldl_fst | split | dsimp only | intro _

theorem landPush_upd (p : Nat) (x : PushRow) (s : State) :
    Upd [.regs, .evts, .cores, .cmt, .host] [.pu, .pc] (some p) s (landPush p x s) := by
  unfold landPush
  repeat' first
    | with_reducible exact Upd.refl _ _ _ _ | exact rfl | exact .inl rfl | exact .inr rfl | with_reducible assumption
    | with_reducible apply Upd.ite | with_reducible apply Upd.step (cenAt_upd ..) | with_reducible apply Upd.step' (progFault_upd ..)
    | with_reducible apply Upd.step' (mxFlt_upd ..) | with_reducible apply Upd.updCore | with_reducible exact CUpd.refl _ _
    | with_reducible apply CUpd.ite | with_reducible apply CUpd.set | split | dsimp only | intro _

theorem accStep_upd (p : Nat) (i : Ins) (k : Nat) (r : RRow) (s : State) :
    Upd [.regs, .evts, .cores, .cmt, .host] [.pu, .pc] (some p) s (accStep p i k r s) := by
  unfold accStep
  repeat' first
    | with_reducible exact Upd.refl _ _ _ _ | exact rfl | exact .inl rfl | exact .inr rfl | with_reducible assumption
    | with_reducible apply Upd.ite | with_reducible apply Upd.step' (progFault_upd ..) | with_reducible apply Upd.step' (mxFlt_upd ..)
    | with_reducible apply Upd.step (landPush_upd ..) | with_reducible apply Upd.step (countAt_upd ..) | with_reducible apply Upd.foldl
    | with_reducible apply Upd.foldl_snd | with_reducible apply Upd.foldl_fst | split | dsimp only | intro _

theorem accLc_upd (p : Nat) (s : State) :
    Upd [.regs, .evts, .cores, .cmt, .host] [.busy, .sigs, .pu, .pc] (some p) s (accLc p s) := by
  unfold accLc
  repeat' first
    | with_reducible exact Upd.refl _ _ _ _ | exact rfl | exact .inl rfl | exact .inr rfl | with_reducible assumption
    | with_reducible apply Upd.ite | with_reducible apply Upd.step (accStep_upd ..) | with_reducible apply Upd.updCore
    | with_reducible exact CUpd.refl _ _ | with_reducible apply CUpd.ite | with_reducible apply CUpd.set | split | dsimp only | intro _

theorem puacc_upd (ev : List HwEvent) (p : Nat) (s : State) :
    Upd [.regs, .evts, .cores, .cmt, .host] [.q, .busy, .started, .sigs, .job, .obj, .pu, .issue] (some p) s (puacc ev p s) := by
  unfold puacc
  repeat' first
    | with_reducible exact Upd.refl _ _ _ _ | exact rfl | exact .inl rfl | exact .inr rfl | with_reducible assumption
    | with_reducible apply Upd.ite | with_reducible apply Upd.step (startUnit_upd ..) | with_reducible apply Upd.step' (dupHits_upd ..)
    | with_reducible apply Upd.updCore | with_reducible exact CUpd.refl _ _ | with_reducible apply CUpd.set | split | dsimp only | intro _

theorem execPuacc_upd (p : Nat) (ev : List HwEvent) (s : State) {t : State} (h : execPuacc p ev s = .next t) :
    Upd [.regs, .evts, .cores, .cmt, .host] [.q, .busy, .started, .sigs, .job, .obj, .pu, .issue] (some p) s t := by
  refine guarded_upd (fun s => ?_) h
  repeat' first
    | with_reducible exact Upd.refl _ _ _ _ | exact rfl | exact .inl rfl | exact .inr rfl | with_reducible assumption
    | with_reducible apply Upd.ite | with_reducible apply Upd.step (puacc_upd ..) | split | dsimp only | intro _

theorem postArrival_upd (p : Nat) (s : State) :
    Upd [.regs, .evts, .cores, .cmt, .host] [.mx, .pu] (some p) s (postArrival p s) := by
  unfold postArrival
  repeat' first
    | with_reducible exact Upd.refl _ _ _ _ | exact rfl | exact .inl rfl | exact .inr rfl | with_reducible assumption
    | with_reducible apply Upd.ite | with_reducible apply Upd.step' (progFault_upd ..) | with_reducible apply Upd.step' (mxFlt_upd ..)
    | with_reducible apply Upd.updCore | with_reducible exact CUpd.refl _ _ | with_reducible apply CUpd.ite | with_reducible apply CUpd.set
    | split | dsimp only | intro _

theorem execPostInputArrival_upd (p : Nat) (s : State) {t : State} (h : execPostInputArrival p s = .next t) :
    Upd [.regs, .evts, .cores, .cmt, .host] [.mx, .pu] (some p) s t := by
  refine guarded_upd (fun s => ?_) h
  repeat' first
    | with_reducible exact Upd.refl _ _ _ _ | exact rfl | exact .inl rfl | exact .inr rfl | with_reducible assumption
    | with_reducible apply Upd.ite | with_reducible apply Upd.step (postArrival_upd ..) | split | dsimp only | intro _

theorem putOut_upd (p : Nat) (i : Ins) (int : Bool) (t : Nat) (k : Nat) (codes : List Nat) (s : State) :
    Upd [.cores] [.job, .pu, .pc] (some p) s (putOut p i int t k codes s) := by
  unfold putOut
  repeat' first
    | with_reducible exact Upd.refl _ _ _ _ | exact rfl | exact .inl rfl | exact .inr rfl | with_reducible assumption
    | with_reducible apply Upd.ite | with_reducible apply Upd.step (addLate_upd ..) | with_reducible apply Upd.step (cenAt_upd ..)
    | with_reducible apply Upd.foldl | split | dsimp only | intro _

theorem readBlock_upd (p : Nat) (w : Work) (j : Nat) (v : Nat) (s : State) :
    Upd [.regs, .evts, .cores, .cmt, .host] [.job, .bsn] (some p) s (readBlock p w j v s).2 := by
  unfold readBlock
  repeat' first
    | with_reducible exact Upd.refl _ _ _ _ | exact rfl | exact .inl rfl | exact .inr rfl | with_reducible assumption
    | with_reducible apply Upd.ite | with_reducible apply Upd.step (exRead_upd ..) | with_reducible apply Upd.foldl
    | with_reducible apply Upd.foldl_snd | with_reducible apply Upd.foldl_fst | with_reducible apply Upd.of_snd (by assumption) | split
    | dsimp only | intro _

theorem flushTake_upd (p : Nat) (k : Nat) (s : State) :
    Upd [.cores] [.pu] (some p) s (flushTake p k s).2 := by
  unfold flushTake
  repeat' first
    | with_reducible exact Upd.refl _ _ _ _ | exact rfl | exact .inl rfl | exact .inr rfl | with_reducible assumption
    | with_reducible apply Upd.ite | with_reducible apply Upd.updCore | with_reducible exact CUpd.refl _ _ | with_reducible apply CUpd.set
    | split | dsimp only | intro _

theorem flushOut_upd (p : Nat) (i : Ins) (blk : List Byte) (t : Nat) (k : Nat) (row : AccRow) (s : State) :
    Upd [.regs, .evts, .cores, .cmt, .host] [.job, .pu, .pc] (some p) s (flushOut p i blk t k row s) := by
  unfold flushOut
  repeat' first
    | with_reducible exact Upd.refl _ _ _ _ | exact rfl | exact .inl rfl | exact .inr rfl | with_reducible assumption
    | with_reducible apply Upd.ite | with_reducible apply Upd.step (putOut_upd ..) | with_reducible apply Upd.step' (progFault_upd ..)
    | with_reducible apply Upd.step' (mxFlt_upd ..) | with_reducible apply Upd.step (cenAt_upd ..) | split | dsimp only | intro _

theorem flushStep_upd (p : Nat) (w : Work) (s : State) :
    Upd [.regs, .evts, .cores, .cmt, .host] [.job, .bsn, .pu, .pc] (some p) s (flushStep p w s).2 := by
  unfold flushStep
  repeat' first
    | with_reducible exact Upd.refl _ _ _ _ | exact rfl | exact .inl rfl | exact .inr rfl | with_reducible assumption
    | with_reducible apply Upd.ite | with_reducible apply Upd.step (readBlock_upd ..) | with_reducible apply Upd.step (flushOut_upd ..)
    | with_reducible apply Upd.step (flushTake_upd ..) | with_reducible apply Upd.of_snd (by assumption) | split | dsimp only | intro _

theorem execPuflush_upd (p : Nat) (ev : List HwEvent) (s : State) {t : State} (h : execPuflush p ev s = .next t) :
    Upd [.regs, .evts, .cores, .cmt, .host] [.q, .busy, .started, .sigs, .job, .obj, .issue] (some p) s t := by
  refine guarded_upd (fun s => ?_) h
  repeat' first
    | with_reducible exact Upd.refl _ _ _ _ | exact rfl | exact .inl rfl | exact .inr rfl | with_reducible assumption
    | with_reducible apply Upd.ite | with_reducible apply stepRun_upd | with_reducible apply Upd.step' (dupHits_upd ..) | split | dsimp only
    | intro _

theorem vecStep_upd (p : Nat) (w : Work) (s : State) :
    Upd [.regs, .evts, .cores, .cmt, .host] [.job, .bsn, .pu, .pc] (some p) s (vecStep p w s).2 := by
  unfold vecStep
  repeat' first
    | with_reducible exact Upd.refl _ _ _ _ | exact rfl | exact .inl rfl | exact .inr rfl | with_reducible assumption
    | with_reducible apply Upd.ite | with_reducible apply Upd.step (readBlock_upd ..) | with_reducible apply Upd.step' (tileRead_upd ..)
    | with_reducible apply Upd.step (putOut_upd ..) | with_reducible apply Upd.of_snd (by assumption) | split | dsimp only | intro _

theorem execPuvec_upd (p : Nat) (ev : List HwEvent) (s : State) {t : State} (h : execPuvec p ev s = .next t) :
    Upd [.regs, .evts, .cores, .cmt, .host] [.q, .busy, .started, .sigs, .job, .obj, .issue] (some p) s t := by
  refine guarded_upd (fun s => ?_) h
  repeat' first
    | with_reducible exact Upd.refl _ _ _ _ | exact rfl | exact .inl rfl | exact .inr rfl | with_reducible assumption
    | with_reducible apply Upd.ite | with_reducible apply stepRun_upd | with_reducible apply Upd.step' (dupHits_upd ..) | split | dsimp only
    | intro _

theorem censusStep_upd (p : Nat) (i : Ins) (k : Nat) (s : State) :
    Upd [.cores, .cmt] [.job, .pu] (some p) s (censusStep p i k s) := by
  unfold censusStep
  repeat' first
    | with_reducible exact Upd.refl _ _ _ _ | exact rfl | exact .inl rfl | exact .inr rfl | with_reducible assumption
    | with_reducible apply Upd.ite | with_reducible apply Upd.step (addLate_upd ..) | with_reducible apply Upd.updCore
    | with_reducible exact CUpd.refl _ _ | with_reducible apply CUpd.ite | with_reducible apply CUpd.set | split | dsimp only | intro _
    | with_reducible apply Upd.set

theorem execPucensus_upd (p : Nat) (s : State) {t : State} (h : execPucensus p s = .next t) :
    Upd [.cores] [.q, .busy, .started, .sigs, .job, .obj, .issue] (some p) s t := by
  refine guarded_upd (fun s => ?_) h
  repeat' first
    | with_reducible exact Upd.refl _ _ _ _ | exact rfl | exact .inl rfl | exact .inr rfl | with_reducible assumption
    | with_reducible apply Upd.ite | with_reducible apply stepRun_upd | split | dsimp only | intro _

theorem clearStep_upd (p : Nat) (s : State) :
    Upd [.cores] [.pu] (some p) s (clearStep p s) := by
  unfold clearStep
  repeat' first
    | with_reducible exact Upd.refl _ _ _ _ | exact rfl | exact .inl rfl | exact .inr rfl | with_reducible assumption
    | with_reducible apply Upd.ite | with_reducible apply Upd.updCore | with_reducible exact CUpd.refl _ _ | with_reducible apply CUpd.set
    | split | dsimp only | intro _

theorem execPuclr_upd (p : Nat) (s : State) {t : State} (h : execPuclr p s = .next t) :
    Upd [.cores] [.q, .busy, .started, .sigs, .job, .obj, .issue] (some p) s t := by
  refine guarded_upd (fun s => ?_) h
  repeat' first
    | with_reducible exact Upd.refl _ _ _ _ | exact rfl | exact .inl rfl | exact .inr rfl | with_reducible assumption
    | with_reducible apply Upd.ite | with_reducible apply stepRun_upd | split | dsimp only | intro _

theorem puStep_upd (p : Nat) (w : Work) (s : State) :
    Upd [.regs, .evts, .cores, .cmt, .host] [.job, .bsn, .pu, .pc] (some p) s (puStep p w s).2 := by
  unfold puStep
  repeat' first
    | with_reducible exact Upd.refl _ _ _ _ | exact rfl | exact .inl rfl | exact .inr rfl | with_reducible assumption
    | with_reducible apply Upd.ite | with_reducible apply Upd.step (flushStep_upd ..) | with_reducible apply Upd.step (vecStep_upd ..)
    | with_reducible apply Upd.step (censusStep_upd ..) | with_reducible apply Upd.step (clearStep_upd ..)
    | with_reducible apply Upd.of_snd (by assumption) | split | dsimp only | intro _

end Sys2Proof.Machine
end

