-- ==== Sys2Proof/Laws/Vector.lean ====
section
/-! SUPPORT. What each operation of Sys2Proof/Machine/Vector.lean can change: its footprint. -/
namespace Sys2Proof.Machine
set_option linter.all false

theorem aluRun_upd (p : Nat) (op : Nat) (t : Nat) (r : Nat) (d : Nat) (s : State) :
    Upd [.cores] [.q, .busy, .started, .sigs, .job, .obj, .issue] (some p) s (aluRun p op t r d s) := by
  unfold aluRun
  repeat' first
    | with_reducible exact Upd.refl _ _ _ _ | exact rfl | exact .inl rfl | exact .inr rfl | with_reducible assumption
    | with_reducible apply Upd.ite | with_reducible apply stepRun_upd | split | dsimp only | intro _

theorem tileRow_upd (p : Nat) (i : Ins) (j : Nat) (k : Nat) (n : Nat) (s : State) {o_ : Option Nat} :
    Upd [.cmt] [] o_ s (tileRow p i j k n s).2 := by
  unfold tileRow
  repeat' first
    | with_reducible exact Upd.refl _ _ _ _ | exact rfl | exact .inl rfl | exact .inr rfl | with_reducible assumption
    | with_reducible apply Upd.ite | with_reducible apply Upd.step' (tileRead_upd ..) | with_reducible apply Upd.of_snd (by assumption) | split
    | dsimp only | intro _

theorem rowOf_upd (p : Nat) (i : Ins) (j : Nat) (k : Nat) (s : State) :
    Upd [.regs, .evts, .cores, .cmt, .host, .fab] [.vx] (some p) s (rowOf p i j k s).2 := by
  unfold rowOf
  repeat' first
    | with_reducible exact Upd.refl _ _ _ _ | exact rfl | exact .inl rfl | exact .inr rfl | with_reducible assumption
    | with_reducible apply Upd.ite | with_reducible apply Upd.step (takePort_upd ..) | with_reducible apply Upd.step' (portLate_upd ..)
    | with_reducible apply Upd.step' (tileRow_upd ..) | with_reducible apply Upd.of_snd (by assumption) | split | dsimp only | intro _

theorem vldStep_upd (ev : List HwEvent) (p : Nat) (i : Ins) (k : Nat) (s : State) :
    Upd [.regs, .evts, .cores, .cmt, .host] [.job, .bsn] (some p) s (vldStep ev p i k s) := by
  unfold vldStep
  repeat' first
    | with_reducible exact Upd.refl _ _ _ _ | exact rfl | exact .inl rfl | exact .inr rfl | with_reducible assumption
    | with_reducible apply Upd.ite | with_reducible apply Upd.step (exRead_upd ..) | with_reducible apply Upd.step (addLate_upd ..)
    | with_reducible apply Upd.of_snd (by assumption) | split | dsimp only | intro _

theorem execVxld_upd (p : Nat) (ev : List HwEvent) (s : State) {t : State} (h : execVxld p ev s = .next t) :
    Upd [.cores] [.q, .busy, .started, .sigs, .job, .obj, .issue] (some p) s t := by
  refine guarded_upd (fun s => ?_) h
  repeat' first
    | with_reducible exact Upd.refl _ _ _ _ | exact rfl | exact .inl rfl | exact .inr rfl | with_reducible assumption
    | with_reducible apply Upd.ite | with_reducible apply stepRun_upd | split | dsimp only | intro _

theorem vstStep_upd (ev : List HwEvent) (p : Nat) (i : Ins) (k : Nat) (s : State) :
    Upd [.cores, .cmt] [.job] (some p) s (vstStep ev p i k s) := by
  unfold vstStep
  repeat' first
    | with_reducible exact Upd.refl _ _ _ _ | exact rfl | exact .inl rfl | exact .inr rfl | with_reducible assumption
    | with_reducible apply Upd.ite | with_reducible apply Upd.step' (tileRead_upd ..) | with_reducible apply Upd.step (addLate_upd ..)
    | with_reducible apply Upd.of_snd (by assumption) | split | dsimp only | intro _

theorem execVxst_upd (p : Nat) (ev : List HwEvent) (s : State) {t : State} (h : execVxst p ev s = .next t) :
    Upd [.cores] [.q, .busy, .started, .sigs, .job, .obj, .issue] (some p) s t := by
  refine guarded_upd (fun s => ?_) h
  repeat' first
    | with_reducible exact Upd.refl _ _ _ _ | exact rfl | exact .inl rfl | exact .inr rfl | with_reducible assumption
    | with_reducible apply Upd.ite | with_reducible apply stepRun_upd | split | dsimp only | intro _

theorem eplStep_upd (p : Nat) (w : Work) (s : State) :
    Upd [.regs, .evts, .cores, .cmt, .host] [.job, .bsn, .vx] (some p) s (eplStep p w s).2 := by
  unfold eplStep
  repeat' first
    | with_reducible exact Upd.refl _ _ _ _ | exact rfl | exact .inl rfl | exact .inr rfl | with_reducible assumption
    | with_reducible apply Upd.ite | with_reducible apply Upd.step (exRead_upd ..) | with_reducible apply Upd.updCore
    | with_reducible exact CUpd.refl _ _ | with_reducible apply CUpd.ite | with_reducible apply CUpd.set
    | with_reducible apply Upd.of_snd (by assumption) | split | dsimp only | intro _

theorem everyRun_upd (p : Nat) (u : Nat) (op : Nat) (ev : List HwEvent) (tim : Ins → State → Timing) (s : State) :
    Upd [.cores] [.q, .busy, .started, .sigs, .job, .obj, .issue] (some p) s (everyRun p u op ev tim s) := by
  unfold everyRun
  repeat' first
    | with_reducible exact Upd.refl _ _ _ _ | exact rfl | exact .inl rfl | exact .inr rfl | with_reducible assumption
    | with_reducible apply Upd.ite | with_reducible apply Upd.step (addWork_upd ..) | with_reducible apply Upd.step (startUnit_upd ..) | split
    | dsimp only | intro _

theorem execVxepl_upd (p : Nat) (ev : List HwEvent) (s : State) {t : State} (h : execVxepl p ev s = .next t) :
    Upd [.cores] [.q, .busy, .started, .sigs, .job, .obj, .issue] (some p) s t := by
  refine guarded_upd (fun s => ?_) h
  repeat' first
    | with_reducible exact Upd.refl _ _ _ _ | exact rfl | exact .inl rfl | exact .inr rfl | with_reducible assumption
    | with_reducible apply Upd.ite | with_reducible apply Upd.step (everyRun_upd ..) | split | dsimp only | intro _

theorem epStep_upd (p : Nat) (i : Ins) (prog : List W256) (t : Nat) (k : Nat) (s : State) :
    Upd [.regs, .evts, .cores, .cmt, .host, .fab] [.pu, .vx, .pc] (some p) s (epStep p i prog t k s).2 := by
  unfold epStep
  repeat' first
    | with_reducible exact Upd.refl _ _ _ _ | exact rfl | exact .inl rfl | exact .inr rfl | with_reducible assumption
    | with_reducible apply Upd.ite | with_reducible apply Upd.step (rowOf_upd ..) | with_reducible apply Upd.step (cenAt_upd ..)
    | with_reducible apply Upd.foldl | with_reducible apply Upd.foldl_snd | with_reducible apply Upd.foldl_fst
    | with_reducible apply Upd.of_snd (by assumption) | split | dsimp only | intro _

theorem epInvalid_upd (p : Nat) (s : State) {o_ : Option Nat} :
    Upd [.regs, .evts, .cmt, .host] [] o_ s (epInvalid p s) := by
  unfold epInvalid
  repeat' first
    | with_reducible exact Upd.refl _ _ _ _ | exact rfl | exact .inl rfl | exact .inr rfl | with_reducible assumption
    | with_reducible apply Upd.ite | with_reducible apply Upd.step' (progFault_upd ..) | with_reducible apply Upd.step' (vxFlt_upd ..) | split
    | dsimp only | intro _

theorem execVxep_upd (p : Nat) (s : State) {t : State} (h : execVxep p s = .next t) :
    Upd [.regs, .evts, .cores, .cmt, .host] [.q, .busy, .started, .sigs, .job, .obj, .issue] (some p) s t := by
  refine guarded_upd (fun s => ?_) h
  repeat' first
    | with_reducible exact Upd.refl _ _ _ _ | exact rfl | exact .inl rfl | exact .inr rfl | with_reducible assumption
    | with_reducible apply Upd.ite | with_reducible apply stepRun_upd | with_reducible apply Upd.step' (epInvalid_upd ..) | split | dsimp only
    | intro _

theorem epAct_upd (p : Nat) (i : Ins) (slot : Option VSlot) (t : Nat) (k : Nat) (s : State) :
    Upd [.regs, .evts, .cores, .cmt, .host, .fab] [.pu, .vx, .pc] (some p) s (epAct p i slot t k s).2 := by
  unfold epAct
  repeat' first
    | with_reducible exact Upd.refl _ _ _ _ | exact rfl | exact .inl rfl | exact .inr rfl | with_reducible assumption
    | with_reducible apply Upd.ite | with_reducible apply Upd.step (epStep_upd ..) | with_reducible apply Upd.of_snd (by assumption) | split
    | dsimp only | intro _

theorem cvtCens_upd (p : Nat) (t : Nat) (l : List Cvt) (s : State) :
    Upd [.cores] [.pu, .pc] (some p) s (cvtCens p t l s) := by
  unfold cvtCens
  repeat' first
    | with_reducible exact Upd.refl _ _ _ _ | exact rfl | exact .inl rfl | exact .inr rfl | with_reducible assumption
    | with_reducible apply Upd.ite | with_reducible apply Upd.step (cenAt_upd ..) | split | dsimp only | intro _

theorem srcCodes_upd (p : Nat) (i : Ins) (fmt : Nat) (k : Nat) (s : State) {o_ : Option Nat} :
    Upd [.cmt] [] o_ s (srcCodes p i fmt k s).2 := by
  unfold srcCodes
  repeat' first
    | with_reducible exact Upd.refl _ _ _ _ | exact rfl | exact .inl rfl | exact .inr rfl | with_reducible assumption
    | with_reducible apply Upd.ite | with_reducible apply Upd.step' (tileRow_upd ..) | with_reducible apply Upd.of_snd (by assumption) | split
    | dsimp only | intro _

theorem srcVals_upd (p : Nat) (i : Ins) (k : Nat) (s : State) {o_ : Option Nat} :
    Upd [.cmt] [] o_ s (srcVals p i k s).2 := by
  unfold srcVals
  repeat' first
    | with_reducible exact Upd.refl _ _ _ _ | exact rfl | exact .inl rfl | exact .inr rfl | with_reducible assumption
    | with_reducible apply Upd.ite | with_reducible apply Upd.step' (srcCodes_upd ..) | with_reducible apply Upd.of_snd (by assumption) | split
    | dsimp only | intro _

theorem cvtPlain_upd (p : Nat) (i : Ins) (t : Nat) (k : Nat) (s : State) :
    Upd [.cores, .cmt] [.pu, .pc] (some p) s (cvtPlain p i t k s).2 := by
  unfold cvtPlain
  repeat' first
    | with_reducible exact Upd.refl _ _ _ _ | exact rfl | exact .inl rfl | exact .inr rfl | with_reducible assumption
    | with_reducible apply Upd.ite | with_reducible apply Upd.step' (srcVals_upd ..) | with_reducible apply Upd.step (cvtCens_upd ..)
    | with_reducible apply Upd.of_snd (by assumption) | split | dsimp only | intro _

theorem cvtMxRow_upd (p : Nat) (i : Ins) (t : Nat) (k : Nat) (s : State) :
    Upd [.cores, .cmt] [.pu, .pc] (some p) s (cvtMxRow p i t k s).2 := by
  unfold cvtMxRow
  repeat' first
    | with_reducible exact Upd.refl _ _ _ _ | exact rfl | exact .inl rfl | exact .inr rfl | with_reducible assumption
    | with_reducible apply Upd.ite | with_reducible apply Upd.step' (srcVals_upd ..) | with_reducible apply Upd.step (cvtCens_upd ..)
    | with_reducible apply Upd.of_snd (by assumption) | split | dsimp only | intro _

theorem cvtMxCol_upd (p : Nat) (i : Ins) (t : Nat) (k : Nat) (rows : List (List Val)) (s : State) :
    Upd [.cores, .cmt] [.pu, .pc] (some p) s (cvtMxCol p i t k rows s).2.2 := by
  unfold cvtMxCol
  repeat' first
    | with_reducible exact Upd.refl _ _ _ _ | exact rfl | exact .inl rfl | exact .inr rfl | with_reducible assumption
    | with_reducible apply Upd.ite | with_reducible apply Upd.step' (srcVals_upd ..) | with_reducible apply Upd.step (cvtCens_upd ..)
    | with_reducible apply Upd.of_snd (by assumption) | split | dsimp only | intro _

theorem cvtFromT5_upd (p : Nat) (i : Ins) (t : Nat) (k : Nat) (row : List Byte) (s : State) :
    Upd [.cores, .cmt] [.pu, .pc] (some p) s (cvtFromT5 p i t k row s).2.2 := by
  unfold cvtFromT5
  repeat' first
    | with_reducible exact Upd.refl _ _ _ _ | exact rfl | exact .inl rfl | exact .inr rfl | with_reducible assumption
    | with_reducible apply Upd.ite | with_reducible apply Upd.step' (tileRow_upd ..) | with_reducible apply Upd.step (cenAt_upd ..)
    | with_reducible apply Upd.step (cvtCens_upd ..) | with_reducible apply Upd.of_snd (by assumption) | split | dsimp only | intro _

theorem cvtToT5_upd (p : Nat) (i : Ins) (t : Nat) (k : Nat) (acc : List Int) (s : State) :
    Upd [.cores, .cmt] [.pu, .pc] (some p) s (cvtToT5 p i t k acc s).2.2 := by
  unfold cvtToT5
  repeat' first
    | with_reducible exact Upd.refl _ _ _ _ | exact rfl | exact .inl rfl | exact .inr rfl | with_reducible assumption
    | with_reducible apply Upd.ite | with_reducible apply Upd.step' (srcVals_upd ..) | with_reducible apply Upd.step (cvtCens_upd ..)
    | with_reducible apply Upd.of_snd (by assumption) | split | dsimp only | intro _

theorem kf4Row_upd (p : Nat) (i : Ins) (k : Nat) (s : State) {o_ : Option Nat} :
    Upd [.cmt] [] o_ s (kf4Row p i k s).2 := by
  unfold kf4Row
  repeat' first
    | with_reducible exact Upd.refl _ _ _ _ | exact rfl | exact .inl rfl | exact .inr rfl | with_reducible assumption
    | with_reducible apply Upd.ite | with_reducible apply Upd.step' (tileRead_upd ..) | with_reducible apply Upd.of_snd (by assumption) | split
    | dsimp only | intro _

theorem cvtToKf4_upd (p : Nat) (i : Ins) (t : Nat) (k : Nat) (a : Gath) (s : State) :
    Upd [.cores, .cmt] [.pu, .pc] (some p) s (cvtToKf4 p i t k a s).2.2 := by
  unfold cvtToKf4
  repeat' first
    | with_reducible exact Upd.refl _ _ _ _ | exact rfl | exact .inl rfl | exact .inr rfl | with_reducible assumption
    | with_reducible apply Upd.ite | with_reducible apply Upd.step' (kf4Row_upd ..) | with_reducible apply Upd.step (cvtCens_upd ..)
    | with_reducible apply Upd.step (cenAt_upd ..) | with_reducible apply Upd.foldl | with_reducible apply Upd.foldl_snd
    | with_reducible apply Upd.foldl_fst | with_reducible apply Upd.of_snd (by assumption) | split | dsimp only | intro _

theorem cvtFromKf4_upd (p : Nat) (i : Ins) (t : Nat) (k : Nat) (side : List Byte) (s : State) :
    Upd [.cores, .cmt] [.pu, .pc] (some p) s (cvtFromKf4 p i t k side s).2.2 := by
  unfold cvtFromKf4
  repeat' first
    | with_reducible exact Upd.refl _ _ _ _ | exact rfl | exact .inl rfl | exact .inr rfl | with_reducible assumption
    | with_reducible apply Upd.ite | with_reducible apply Upd.step' (tileRead_upd ..) | with_reducible apply Upd.step (cvtCens_upd ..)
    | with_reducible apply Upd.of_snd (by assumption) | split | dsimp only | intro _

theorem vcvt_upd (p : Nat) (s : State) :
    Upd [.cores] [.q, .busy, .started, .sigs, .job, .obj, .issue] (some p) s (vcvt p s) := by
  unfold vcvt
  repeat' first
    | with_reducible exact Upd.refl _ _ _ _ | exact rfl | exact .inl rfl | exact .inr rfl | with_reducible assumption
    | with_reducible apply Upd.ite | with_reducible apply Upd.step (startWith_upd ..) | with_reducible apply Upd.step (addWork_upd ..) | split
    | dsimp only | intro _

theorem cvtAct_upd (p : Nat) (i : Ins) (t : Nat) (k : Nat) (g : Gath) (s : State) :
    Upd [.cores, .cmt] [.pu, .pc] (some p) s (cvtAct p i t k g s).2.2 := by
  unfold cvtAct
  repeat' first
    | with_reducible exact Upd.refl _ _ _ _ | exact rfl | exact .inl rfl | exact .inr rfl | with_reducible assumption
    | with_reducible apply Upd.ite | with_reducible apply Upd.step (cvtToKf4_upd ..) | with_reducible apply Upd.step (cvtFromKf4_upd ..)
    | with_reducible apply Upd.step (cvtMxCol_upd ..) | with_reducible apply Upd.step (cvtMxRow_upd ..)
    | with_reducible apply Upd.step (cvtFromT5_upd ..) | with_reducible apply Upd.step (cvtToT5_upd ..)
    | with_reducible apply Upd.step (cvtPlain_upd ..) | with_reducible apply Upd.of_snd (by assumption)
    | with_reducible apply Upd.of_snd2 (by assumption) | split | dsimp only | intro _

theorem execVxcvt_upd (p : Nat) (s : State) {t : State} (h : execVxcvt p s = .next t) :
    Upd [.cores] [.q, .busy, .started, .sigs, .job, .obj, .issue] (some p) s t := by
  refine guarded_upd (fun s => ?_) h
  repeat' first
    | with_reducible exact Upd.refl _ _ _ _ | exact rfl | exact .inl rfl | exact .inr rfl | with_reducible assumption
    | with_reducible apply Upd.ite | with_reducible apply Upd.step (vcvt_upd ..) | split | dsimp only | intro _

theorem cmpStep_upd (p : Nat) (i : Ins) (k : Nat) (s : State) {o_ : Option Nat} :
    Upd [.cmt] [] o_ s (cmpStep p i k s).2 := by
  unfold cmpStep
  repeat' first
    | with_reducible exact Upd.refl _ _ _ _ | exact rfl | exact .inl rfl | exact .inr rfl | with_reducible assumption
    | with_reducible apply Upd.ite | with_reducible apply Upd.step' (tileRow_upd ..) | with_reducible apply Upd.of_snd (by assumption) | split
    | dsimp only | intro _

theorem execVxcmp_upd (p : Nat) (s : State) {t : State} (h : execVxcmp p s = .next t) :
    Upd [.cores] [.q, .busy, .started, .sigs, .job, .obj, .issue] (some p) s t := by
  refine guarded_upd (fun s => ?_) h
  repeat' first
    | with_reducible exact Upd.refl _ _ _ _ | exact rfl | exact .inl rfl | exact .inr rfl | with_reducible assumption
    | with_reducible apply Upd.ite | with_reducible apply Upd.step (aluRun_upd ..) | split | dsimp only | intro _

theorem bandAdd_upd (p : Nat) (n : Int) (s : State) :
    Upd [.regs, .evts, .cores, .cmt, .host] [.vx] (some p) s (bandAdd p n s) := by
  unfold bandAdd
  repeat' first
    | with_reducible exact Upd.refl _ _ _ _ | exact rfl | exact .inl rfl | exact .inr rfl | with_reducible assumption
    | with_reducible apply Upd.ite | with_reducible apply Upd.step' (progFault_upd ..) | with_reducible apply Upd.step' (vxFlt_upd ..)
    | with_reducible apply Upd.updCore | with_reducible exact CUpd.refl _ _ | with_reducible apply CUpd.ite | with_reducible apply CUpd.set
    | split | dsimp only | intro _

theorem expStep_upd (p : Nat) (i : Ins) (k : Nat) (s : State) :
    Upd [.regs, .evts, .cores, .cmt, .host] [.vx] (some p) s (expStep p i k s).2 := by
  unfold expStep
  repeat' first
    | with_reducible exact Upd.refl _ _ _ _ | exact rfl | exact .inl rfl | exact .inr rfl | with_reducible assumption
    | with_reducible apply Upd.ite | with_reducible apply Upd.step' (tileRow_upd ..) | with_reducible apply Upd.step (bandAdd_upd ..)
    | with_reducible apply Upd.of_snd (by assumption) | split | dsimp only | intro _

theorem execVxexp_upd (p : Nat) (s : State) {t : State} (h : execVxexp p s = .next t) :
    Upd [.cores] [.q, .busy, .started, .sigs, .job, .obj, .issue] (some p) s t := by
  refine guarded_upd (fun s => ?_) h
  repeat' first
    | with_reducible exact Upd.refl _ _ _ _ | exact rfl | exact .inl rfl | exact .inr rfl | with_reducible assumption
    | with_reducible apply Upd.ite | with_reducible apply Upd.step (aluRun_upd ..) | split | dsimp only | intro _

theorem bandStep_upd (p : Nat) (i : Ins) (k : Nat) (s : State) :
    Upd [.regs, .evts, .cores, .cmt, .host] [.vx] (some p) s (bandStep p i k s).2 := by
  unfold bandStep
  repeat' first
    | with_reducible exact Upd.refl _ _ _ _ | exact rfl | exact .inl rfl | exact .inr rfl | with_reducible assumption
    | with_reducible apply Upd.ite | with_reducible apply Upd.step' (tileRow_upd ..) | with_reducible apply Upd.step' (tileRead_upd ..)
    | with_reducible apply Upd.step (bandAdd_upd ..) | with_reducible apply Upd.foldl | with_reducible apply Upd.foldl_snd
    | with_reducible apply Upd.foldl_fst | with_reducible apply Upd.of_snd (by assumption) | split | dsimp only | intro _

theorem execVxband_upd (p : Nat) (s : State) {t : State} (h : execVxband p s = .next t) :
    Upd [.cores] [.q, .busy, .started, .sigs, .job, .obj, .issue] (some p) s t := by
  refine guarded_upd (fun s => ?_) h
  repeat' first
    | with_reducible exact Upd.refl _ _ _ _ | exact rfl | exact .inl rfl | exact .inr rfl | with_reducible assumption
    | with_reducible apply Upd.ite | with_reducible apply Upd.step (aluRun_upd ..) | split | dsimp only | intro _

theorem permStep_upd (p : Nat) (i : Ins) (k : Nat) (s : State) {o_ : Option Nat} :
    Upd [.cmt] [] o_ s (permStep p i k s).2 := by
  unfold permStep
  repeat' first
    | with_reducible exact Upd.refl _ _ _ _ | exact rfl | exact .inl rfl | exact .inr rfl | with_reducible assumption
    | with_reducible apply Upd.ite | with_reducible apply Upd.step' (tileRow_upd ..) | with_reducible apply Upd.of_snd (by assumption) | split
    | dsimp only | intro _

theorem execVxperm_upd (p : Nat) (s : State) {t : State} (h : execVxperm p s = .next t) :
    Upd [.cores] [.q, .busy, .started, .sigs, .job, .obj, .issue] (some p) s t := by
  refine guarded_upd (fun s => ?_) h
  repeat' first
    | with_reducible exact Upd.refl _ _ _ _ | exact rfl | exact .inl rfl | exact .inr rfl | with_reducible assumption
    | with_reducible apply Upd.ite | with_reducible apply Upd.step (aluRun_upd ..) | split | dsimp only | intro _

theorem shufStep_upd (p : Nat) (i : Ins) (k : Nat) (s : State) {o_ : Option Nat} :
    Upd [.cmt] [] o_ s (shufStep p i k s).2 := by
  unfold shufStep
  repeat' first
    | with_reducible exact Upd.refl _ _ _ _ | exact rfl | exact .inl rfl | exact .inr rfl | with_reducible assumption
    | with_reducible apply Upd.ite | with_reducible apply Upd.step' (tileRow_upd ..) | with_reducible apply Upd.of_snd (by assumption) | split
    | dsimp only | intro _

theorem execVxshuf_upd (p : Nat) (s : State) {t : State} (h : execVxshuf p s = .next t) :
    Upd [.cores] [.q, .busy, .started, .sigs, .job, .obj, .issue] (some p) s t := by
  refine guarded_upd (fun s => ?_) h
  repeat' first
    | with_reducible exact Upd.refl _ _ _ _ | exact rfl | exact .inl rfl | exact .inr rfl | with_reducible assumption
    | with_reducible apply Upd.ite | with_reducible apply Upd.step (aluRun_upd ..) | split | dsimp only | intro _

theorem fields_upd (p : Nat) (i : Ins) (w : Nat) (k : Nat) (s : State) {o_ : Option Nat} :
    Upd [.cmt] [] o_ s (fields p i w k s).2 := by
  unfold fields
  repeat' first
    | with_reducible exact Upd.refl _ _ _ _ | exact rfl | exact .inl rfl | exact .inr rfl | with_reducible assumption
    | with_reducible apply Upd.ite | with_reducible apply Upd.step' (tileRow_upd ..) | with_reducible apply Upd.of_snd (by assumption) | split
    | dsimp only | intro _

theorem packStep_upd (p : Nat) (i : Ins) (k : Nat) (s : State) {o_ : Option Nat} :
    Upd [.cmt] [] o_ s (packStep p i k s).2 := by
  unfold packStep
  repeat' first
    | with_reducible exact Upd.refl _ _ _ _ | exact rfl | exact .inl rfl | exact .inr rfl | with_reducible assumption
    | with_reducible apply Upd.ite | with_reducible apply Upd.step' (fields_upd ..) | with_reducible apply Upd.of_snd (by assumption) | split
    | dsimp only | intro _

theorem execVxpack_upd (p : Nat) (s : State) {t : State} (h : execVxpack p s = .next t) :
    Upd [.cores] [.q, .busy, .started, .sigs, .job, .obj, .issue] (some p) s t := by
  refine guarded_upd (fun s => ?_) h
  repeat' first
    | with_reducible exact Upd.refl _ _ _ _ | exact rfl | exact .inl rfl | exact .inr rfl | with_reducible assumption
    | with_reducible apply Upd.ite | with_reducible apply Upd.step (aluRun_upd ..) | split | dsimp only | intro _

theorem unpackStep_upd (p : Nat) (i : Ins) (k : Nat) (s : State) {o_ : Option Nat} :
    Upd [.cmt] [] o_ s (unpackStep p i k s).2 := by
  unfold unpackStep
  repeat' first
    | with_reducible exact Upd.refl _ _ _ _ | exact rfl | exact .inl rfl | exact .inr rfl | with_reducible assumption
    | with_reducible apply Upd.ite | with_reducible apply Upd.step' (fields_upd ..) | with_reducible apply Upd.of_snd (by assumption) | split
    | dsimp only | intro _

theorem execVxunpk_upd (p : Nat) (s : State) {t : State} (h : execVxunpk p s = .next t) :
    Upd [.cores] [.q, .busy, .started, .sigs, .job, .obj, .issue] (some p) s t := by
  refine guarded_upd (fun s => ?_) h
  repeat' first
    | with_reducible exact Upd.refl _ _ _ _ | exact rfl | exact .inl rfl | exact .inr rfl | with_reducible assumption
    | with_reducible apply Upd.ite | with_reducible apply Upd.step (aluRun_upd ..) | split | dsimp only | intro _

theorem maskStep_upd (p : Nat) (i : Ins) (k : Nat) (s : State) {o_ : Option Nat} :
    Upd [.cmt] [] o_ s (maskStep p i k s).2 := by
  unfold maskStep
  repeat' first
    | with_reducible exact Upd.refl _ _ _ _ | exact rfl | exact .inl rfl | exact .inr rfl | with_reducible assumption
    | with_reducible apply Upd.ite | with_reducible apply Upd.step' (tileRow_upd ..) | with_reducible apply Upd.foldl
    | with_reducible apply Upd.foldl_snd | with_reducible apply Upd.foldl_fst | with_reducible apply Upd.of_snd (by assumption) | split
    | dsimp only | intro _

theorem execVxmask_upd (p : Nat) (s : State) {t : State} (h : execVxmask p s = .next t) :
    Upd [.cores] [.q, .busy, .started, .sigs, .job, .obj, .issue] (some p) s t := by
  refine guarded_upd (fun s => ?_) h
  repeat' first
    | with_reducible exact Upd.refl _ _ _ _ | exact rfl | exact .inl rfl | exact .inr rfl | with_reducible assumption
    | with_reducible apply Upd.ite | with_reducible apply Upd.step (aluRun_upd ..) | split | dsimp only | intro _

theorem treeStep_upd (p : Nat) (i : Ins) (k : Nat) (s : State) :
    Upd [.regs, .evts, .cores, .cmt, .host, .fab] [.vx] (some p) s (treeStep p i k s).2 := by
  unfold treeStep
  repeat' first
    | with_reducible exact Upd.refl _ _ _ _ | exact rfl | exact .inl rfl | exact .inr rfl | with_reducible assumption
    | with_reducible apply Upd.ite | with_reducible apply Upd.step (rowOf_upd ..) | with_reducible apply Upd.of_snd (by assumption) | split
    | dsimp only | intro _

theorem execVxtree_upd (p : Nat) (s : State) {t : State} (h : execVxtree p s = .next t) :
    Upd [.cores] [.q, .busy, .started, .sigs, .job, .obj, .issue] (some p) s t := by
  refine guarded_upd (fun s => ?_) h
  repeat' first
    | with_reducible exact Upd.refl _ _ _ _ | exact rfl | exact .inl rfl | exact .inr rfl | with_reducible assumption
    | with_reducible apply Upd.ite | with_reducible apply Upd.step (aluRun_upd ..) | split | dsimp only | intro _

theorem sraccStep_upd (p : Nat) (i : Ins) (t : Nat) (k : Nat) (s : State) :
    Upd [.cores, .cmt] [.pu, .pc] (some p) s (sraccStep p i t k s).2 := by
  unfold sraccStep
  repeat' first
    | with_reducible exact Upd.refl _ _ _ _ | exact rfl | exact .inl rfl | exact .inr rfl | with_reducible assumption
    | with_reducible apply Upd.ite | with_reducible apply Upd.step' (tileRead_upd ..) | with_reducible apply Upd.step (cenAt_upd ..)
    | with_reducible apply Upd.of_snd (by assumption) | split | dsimp only | intro _

theorem execVxsracc_upd (p : Nat) (s : State) {t : State} (h : execVxsracc p s = .next t) :
    Upd [.cores] [.q, .busy, .started, .sigs, .job, .obj, .issue] (some p) s t := by
  refine guarded_upd (fun s => ?_) h
  repeat' first
    | with_reducible exact Upd.refl _ _ _ _ | exact rfl | exact .inl rfl | exact .inr rfl | with_reducible assumption
    | with_reducible apply Upd.ite | with_reducible apply Upd.step (aluRun_upd ..) | split | dsimp only | intro _

theorem execVxrand_upd (p : Nat) (s : State) {t : State} (h : execVxrand p s = .next t) :
    Upd [.cores] [.q, .busy, .started, .sigs, .job, .obj, .issue] (some p) s t := by
  refine guarded_upd (fun s => ?_) h
  repeat' first
    | with_reducible exact Upd.refl _ _ _ _ | exact rfl | exact .inl rfl | exact .inr rfl | with_reducible assumption
    | with_reducible apply Upd.ite | with_reducible apply stepRun_upd | split | dsimp only | intro _

theorem optStep_upd (p : Nat) (i : Ins) (prm : Option (Nat → Nat)) (t : Nat) (k : Nat) (s : State) :
    Upd [.cores, .cmt] [.pu, .pc] (some p) s (optStep p i prm t k s).2 := by
  unfold optStep
  repeat' first
    | with_reducible exact Upd.refl _ _ _ _ | exact rfl | exact .inl rfl | exact .inr rfl | with_reducible assumption
    | with_reducible apply Upd.ite | with_reducible apply Upd.step' (tileRow_upd ..) | with_reducible apply Upd.step (cenAt_upd ..)
    | with_reducible apply Upd.of_snd (by assumption) | split | dsimp only | intro _

theorem execVxopt_upd (p : Nat) (s : State) {t : State} (h : execVxopt p s = .next t) :
    Upd [.regs, .evts, .cores, .cmt, .host] [.q, .busy, .started, .sigs, .job, .obj, .issue] (some p) s t := by
  refine guarded_upd (fun s => ?_) h
  repeat' first
    | with_reducible exact Upd.refl _ _ _ _ | exact rfl | exact .inl rfl | exact .inr rfl | with_reducible assumption
    | with_reducible apply Upd.ite | with_reducible apply stepRun_upd | with_reducible apply Upd.step' (epInvalid_upd ..) | split | dsimp only
    | intro _

theorem aluAct_upd (p : Nat) (w : Work) (t : Nat) (s : State) :
    Upd [.regs, .evts, .cores, .cmt, .host, .fab] [.pu, .vx, .pc] (some p) s (aluAct p w t s).2.2 := by
  unfold aluAct
  repeat' first
    | with_reducible exact Upd.refl _ _ _ _ | exact rfl | exact .inl rfl | exact .inr rfl | with_reducible assumption
    | with_reducible apply Upd.ite | with_reducible apply Upd.step (epAct_upd ..) | with_reducible apply Upd.step (cvtAct_upd ..)
    | with_reducible apply Upd.step' (cmpStep_upd ..) | with_reducible apply Upd.step (expStep_upd ..)
    | with_reducible apply Upd.step (bandStep_upd ..) | with_reducible apply Upd.step' (permStep_upd ..)
    | with_reducible apply Upd.step' (shufStep_upd ..) | with_reducible apply Upd.step' (packStep_upd ..)
    | with_reducible apply Upd.step' (unpackStep_upd ..) | with_reducible apply Upd.step (treeStep_upd ..)
    | with_reducible apply Upd.step (optStep_upd ..) | with_reducible apply Upd.step (sraccStep_upd ..)
    | with_reducible apply Upd.step' (maskStep_upd ..) | with_reducible apply Upd.of_snd (by assumption)
    | with_reducible apply Upd.of_snd2 (by assumption) | split | dsimp only | intro _

theorem vxStep_upd (p : Nat) (w : Work) (s : State) :
    Upd [.regs, .evts, .cores, .cmt, .host, .fab] [.job, .bsn, .pu, .vx, .pc] (some p) s (vxStep p w s).2 := by
  unfold vxStep
  repeat' first
    | with_reducible exact Upd.refl _ _ _ _ | exact rfl | exact .inl rfl | exact .inr rfl | with_reducible assumption
    | with_reducible apply Upd.ite | with_reducible apply Upd.step (vldStep_upd ..) | with_reducible apply Upd.step (vstStep_upd ..)
    | with_reducible apply Upd.step (eplStep_upd ..) | with_reducible apply Upd.step (aluAct_upd ..)
    | with_reducible apply Upd.step (countAt_upd ..) | with_reducible apply Upd.step (addLate_upd ..) | with_reducible apply Upd.foldl
    | with_reducible apply Upd.foldl_snd | with_reducible apply Upd.foldl_fst | with_reducible apply Upd.of_snd (by assumption)
    | with_reducible apply Upd.of_snd2 (by assumption) | split | dsimp only | intro _

end Sys2Proof.Machine
end

