-- ==== Sys2Proof/Laws/Work.lean ====
section
/-! SUPPORT. What each operation of Sys2Proof/Machine/Work.lean can change: its footprint. -/
namespace Sys2Proof.Machine
set_option linter.all false

theorem unitStep_upd (p : Nat) (w : Work) (s : State) :
    Upd [.regs, .evts, .cores, .hbm, .cmt, .host, .fab, .trc, .fresh, .out] [.job, .adds, .takes, .fe, .bsn, .mx, .pu, .vx, .ch, .pc, .vlog] (some p) s (unitStep p w s).2 := by
  unfold unitStep
  repeat' first
    | with_reducible exact Upd.refl _ _ _ _ | exact rfl | exact .inl rfl | exact .inr rfl | with_reducible assumption
    | with_reducible apply Upd.ite | with_reducible apply Upd.step (feStep_upd ..) | with_reducible apply Upd.step (mxStep_upd ..)
    | with_reducible apply Upd.step (puStep_upd ..) | with_reducible apply Upd.step (vxStep_upd ..)
    | with_reducible apply Upd.step (chStep_upd ..) | with_reducible apply Upd.of_snd (by assumption) | split | dsimp only | intro _

theorem setWork_upd (p : Nat) (j : Nat) (w : Work) (s : State) :
    Upd [.cores] [.job] (some p) s (setWork p j w s) := by
  unfold setWork
  repeat' first
    | with_reducible exact Upd.refl _ _ _ _ | exact rfl | exact .inl rfl | exact .inr rfl | with_reducible assumption
    | with_reducible apply Upd.ite | with_reducible apply Upd.updCore | with_reducible exact CUpd.refl _ _ | with_reducible apply CUpd.set
    | split | dsimp only | intro _

theorem clearMarks_upd (p : Nat) (s : State) :
    Upd [.cores] [.job] (some p) s (clearMarks p s) := by
  unfold clearMarks
  repeat' first
    | with_reducible exact Upd.refl _ _ _ _ | exact rfl | exact .inl rfl | exact .inr rfl | with_reducible assumption
    | with_reducible apply Upd.ite | with_reducible apply Upd.updCore | with_reducible exact CUpd.refl _ _ | with_reducible apply CUpd.set
    | split | dsimp only | intro _

theorem stallThread_upd (p : Nat) (t : Nat) (s : State) :
    Upd [.cores] [.th] (some p) s (stallThread p t s) := by
  unfold stallThread
  repeat' first
    | with_reducible exact Upd.refl _ _ _ _ | exact rfl | exact .inl rfl | exact .inr rfl | with_reducible assumption
    | with_reducible apply Upd.ite | with_reducible apply Upd.updCore | with_reducible exact CUpd.refl _ _ | with_reducible apply CUpd.set
    | split | dsimp only | intro _

theorem haltCtx_upd (p : Nat) (n : Nat) (code : Nat) (addr : W64) (s : State) :
    Upd [.cores] [.fe] (some p) s (haltCtx p n code addr s) := by
  unfold haltCtx
  repeat' first
    | with_reducible exact Upd.refl _ _ _ _ | exact rfl | exact .inl rfl | exact .inr rfl | with_reducible assumption
    | with_reducible apply Upd.ite | with_reducible apply Upd.step (updCtx_upd ..) | split | dsimp only | intro _

theorem workStep_upd (p : Nat) (j : Nat) (w : Work) (s : State) :
    Upd [.regs, .evts, .cores, .hbm, .cmt, .host, .fab, .trc, .fresh, .out] [.job, .adds, .takes, .fe, .bsn, .mx, .pu, .vx, .ch, .th, .pc, .vlog] (some p) s (workStep p j w s) := by
  unfold workStep
  repeat' first
    | with_reducible exact Upd.refl _ _ _ _ | exact rfl | exact .inl rfl | exact .inr rfl | with_reducible assumption
    | with_reducible apply Upd.ite | with_reducible apply Upd.step (clearMarks_upd ..) | with_reducible apply Upd.step (unitStep_upd ..)
    | with_reducible apply Upd.step (setWork_upd ..) | with_reducible apply Upd.step (stallThread_upd ..)
    | with_reducible apply Upd.step (haltCtx_upd ..) | with_reducible apply Upd.of_snd (by assumption) | split | dsimp only | intro _

theorem lateBasin_upd (p : Nat) (s : State) (x : LateWr) :
    Upd [.regs, .evts, .cores, .cmt, .host] [.job, .bsn] (some p) s (lateBasin p s x) := by
  unfold lateBasin
  repeat' first
    | with_reducible exact Upd.refl _ _ _ _ | exact rfl | exact .inl rfl | exact .inr rfl | with_reducible assumption
    | with_reducible apply Upd.ite | with_reducible apply Upd.step (clearMarks_upd ..) | with_reducible apply Upd.step (exWrite_upd ..)
    | with_reducible apply Upd.step (addLate_upd ..) | split | dsimp only | intro _

theorem lateDep_upd (p : Nat) (s : State) (x : LateWr) :
    Upd [.regs, .evts, .cores, .cmt, .host] [.bsn] (some p) s (lateDep p s x) := by
  unfold lateDep
  repeat' first
    | with_reducible exact Upd.refl _ _ _ _ | exact rfl | exact .inl rfl | exact .inr rfl | with_reducible assumption
    | with_reducible apply Upd.ite | with_reducible apply Upd.step (depAt_upd ..) | with_reducible apply Upd.updCore
    | with_reducible exact CUpd.refl _ _ | with_reducible apply CUpd.set | split | dsimp only | intro _

theorem rankLc_upd (p : Nat) (s : State) (r : Nat) :
    Upd [.regs, .evts, .cores, .hbm, .cmt, .host, .fab, .trc, .fresh, .out] [.job, .adds, .takes, .fe, .bsn, .mx, .pu, .vx, .ch, .th, .pc, .vlog] (some p) s (rankLc p s r) := by
  unfold rankLc
  repeat' first
    | with_reducible exact Upd.refl _ _ _ _ | exact rfl | exact .inl rfl | exact .inr rfl | with_reducible assumption
    | with_reducible apply Upd.ite | with_reducible apply Upd.step (workStep_upd ..) | with_reducible apply Upd.step (lateBasin_upd ..)
    | with_reducible apply Upd.foldl | with_reducible apply Upd.foldN | split | dsimp only | intro _

theorem lateTiles_upd (p : Nat) (s : State) :
    Upd [.regs, .evts, .cores, .cmt, .host] [.vx] (some p) s (lateTiles p s) := by
  unfold lateTiles
  repeat' first
    | with_reducible exact Upd.refl _ _ _ _ | exact rfl | exact .inl rfl | exact .inr rfl | with_reducible assumption
    | with_reducible apply Upd.ite | with_reducible apply Upd.step (sideWrite_upd ..) | with_reducible apply Upd.step (tileWrites_upd ..)
    | with_reducible apply Upd.foldl | split | dsimp only | intro _

theorem coreWork_upd (p : Nat) (s : State) :
    Upd [.regs, .evts, .cores, .hbm, .cmt, .host, .fab, .trc, .fresh, .out] [.job, .adds, .takes, .fe, .bsn, .mx, .pu, .vx, .ch, .th, .pc, .vlog] (some p) s (coreWork p s) := by
  unfold coreWork
  repeat' first
    | with_reducible exact Upd.refl _ _ _ _ | exact rfl | exact .inl rfl | exact .inr rfl | with_reducible assumption
    | with_reducible apply Upd.ite | with_reducible apply Upd.step (lateDep_upd ..) | with_reducible apply Upd.step (lateTiles_upd ..)
    | with_reducible apply Upd.step (rankLc_upd ..) | with_reducible apply Upd.updCore | with_reducible exact CUpd.refl _ _
    | with_reducible apply CUpd.foldN | with_reducible apply CUpd.set | with_reducible apply Upd.foldl | split | dsimp only | intro _

end Sys2Proof.Machine
end

