-- ==== Sys2Proof/Laws/Basin.lean ====
section
/-! SUPPORT. What each operation of Sys2Proof/Machine/Basin.lean can change: its footprint. -/
namespace Sys2Proof.Machine
set_option linter.all false

theorem fordLc_upd (p : Nat) (s : State) :
    Upd [.cores] [.bsn] (some p) s (fordLc p s) := by
  unfold fordLc
  repeat' first
    | with_reducible exact Upd.refl _ _ _ _ | exact rfl | exact .inl rfl | exact .inr rfl | with_reducible assumption
    | with_reducible apply Upd.ite | with_reducible apply Upd.updCore | with_reducible exact CUpd.refl _ _ | with_reducible apply CUpd.ite
    | with_reducible apply CUpd.set | split | dsimp only | intro _

theorem setRemote_upd (p : Nat) (l : List Remote) (s : State) :
    Upd [.cores] [.fe] (some p) s (setRemote p l s) := by
  unfold setRemote
  repeat' first
    | with_reducible exact Upd.refl _ _ _ _ | exact rfl | exact .inl rfl | exact .inr rfl | with_reducible assumption
    | with_reducible apply Upd.ite | with_reducible apply Upd.updCore | with_reducible exact CUpd.refl _ _ | with_reducible apply CUpd.set
    | split | dsimp only | intro _

theorem writeCredits_upd (p : Nat) (e : Nat) (third : Nat) (n : Nat) (src : Nat × Nat × Nat) (s : State) {o_ : Option Nat} :
    Upd [.fab] [] o_ s (writeCredits p e third n src s) := by
  unfold writeCredits
  repeat' first
    | with_reducible exact Upd.refl _ _ _ _ | exact rfl | exact .inl rfl | exact .inr rfl | with_reducible assumption
    | with_reducible apply Upd.ite | with_reducible apply Upd.step' (creditTo_upd ..) | with_reducible apply Upd.foldN | split | dsimp only
    | intro _

theorem remoteWrite_upd (p : Nat) (s : State) :
    Upd [.regs, .evts, .cores, .cmt, .host, .fab] [.fe, .bsn] (some p) s (remoteWrite p s) := by
  unfold remoteWrite
  repeat' first
    | with_reducible exact Upd.refl _ _ _ _ | exact rfl | exact .inl rfl | exact .inr rfl | with_reducible assumption
    | with_reducible apply Upd.ite | with_reducible apply Upd.step' (elasticDest_upd _ _ _ _ _ ‹elasticDest _ _ _ _ _ = some _›)
    | with_reducible apply Upd.step (setRemote_upd ..) | with_reducible apply Upd.step' (writeCredits_upd ..)
    | with_reducible apply Upd.step (addDeps_upd ..) | with_reducible apply Upd.step' (fordRefuse_upd ..) | split | dsimp only | intro _

theorem execRemoteWrite_upd (p : Nat) (s : State) {t : State} (h : execRemoteWrite p s = .next t) :
    Upd [.regs, .evts, .cores, .cmt, .host, .fab] [.fe, .bsn] (some p) s t := by
  refine guarded_upd (fun s => ?_) h
  repeat' first
    | with_reducible exact Upd.refl _ _ _ _ | exact rfl | exact .inl rfl | exact .inr rfl | with_reducible assumption
    | with_reducible apply Upd.ite | with_reducible apply Upd.step (remoteWrite_upd ..) | split | dsimp only | intro _

theorem sendResp_upd (p : Nat) (e : Nat) (epoch : Nat) (tag : Nat) (row : Nat) (src : Nat × Nat × Nat) (data : List Byte) (s : State) :
    Upd [.cores, .fab] [.ch] (some p) s (sendResp p e epoch tag row src data s) := by
  unfold sendResp
  repeat' first
    | with_reducible exact Upd.refl _ _ _ _ | exact rfl | exact .inl rfl | exact .inr rfl | with_reducible assumption
    | with_reducible apply Upd.ite | with_reducible apply Upd.step' (leaveCore_upd ..) | with_reducible apply Upd.step (updEp_upd ..) | split
    | dsimp only | intro _

theorem remoteRead_upd (p : Nat) (s : State) :
    Upd [.regs, .evts, .cores, .cmt, .host, .fab] [.fe, .bsn, .ch] (some p) s (remoteRead p s) := by
  unfold remoteRead
  repeat' first
    | with_reducible exact Upd.refl _ _ _ _ | exact rfl | exact .inl rfl | exact .inr rfl | with_reducible assumption
    | with_reducible apply Upd.ite | with_reducible apply Upd.step' (elasticDest_upd _ _ _ _ _ ‹elasticDest _ _ _ _ _ = some _›)
    | with_reducible apply Upd.step (setRemote_upd ..) | with_reducible apply Upd.step (sendResp_upd ..)
    | with_reducible apply Upd.step (addDeps_upd ..) | with_reducible apply Upd.step' (fordRefuse_upd ..) | with_reducible apply Upd.foldN
    | split | dsimp only | intro _

theorem execRemoteRead_upd (p : Nat) (s : State) {t : State} (h : execRemoteRead p s = .next t) :
    Upd [.regs, .evts, .cores, .cmt, .host, .fab] [.fe, .bsn, .ch] (some p) s t := by
  refine guarded_upd (fun s => ?_) h
  repeat' first
    | with_reducible exact Upd.refl _ _ _ _ | exact rfl | exact .inl rfl | exact .inr rfl | with_reducible assumption
    | with_reducible apply Upd.ite | with_reducible apply Upd.step (remoteRead_upd ..) | split | dsimp only | intro _

theorem useDepSlot_upd (p : Nat) (bank : Nat) (s : State) :
    Upd [.cores] [.bsn] (some p) s (useDepSlot p bank s) := by
  unfold useDepSlot
  repeat' first
    | with_reducible exact Upd.refl _ _ _ _ | exact rfl | exact .inl rfl | exact .inr rfl | with_reducible assumption
    | with_reducible apply Upd.ite | with_reducible apply Upd.updCore | with_reducible exact CUpd.refl _ _ | with_reducible apply CUpd.set
    | split | dsimp only | intro _

theorem serveRead_upd (ev : List HwEvent) (p : Nat) (d : Dep) (ee : Nat) (tag : Nat) (row : Nat) (s : State) :
    Upd [.regs, .evts, .cores, .cmt, .host, .fab] [.bsn, .ch] (some p) s (serveRead ev p d ee tag row s) := by
  unfold serveRead
  repeat' first
    | with_reducible exact Upd.refl _ _ _ _ | exact rfl | exact .inl rfl | exact .inr rfl | with_reducible assumption
    | with_reducible apply Upd.ite | with_reducible apply Upd.step (readPart_upd ..) | with_reducible apply Upd.step (sendResp_upd ..)
    | with_reducible apply Upd.updCore | with_reducible exact CUpd.refl _ _ | with_reducible apply CUpd.ite | with_reducible apply CUpd.set
    | with_reducible apply Upd.of_snd (by assumption) | split | dsimp only | intro _

theorem depTags_upd (p : Nat) (d : Dep) (s : State) :
    Upd [.cores] [.fe] (some p) s (depTags p d s) := by
  unfold depTags
  repeat' first
    | with_reducible exact Upd.refl _ _ _ _ | exact rfl | exact .inl rfl | exact .inr rfl | with_reducible assumption
    | with_reducible apply Upd.ite | with_reducible apply Upd.updCore | with_reducible exact CUpd.refl _ _ | with_reducible apply CUpd.ite
    | with_reducible apply CUpd.set | split | dsimp only | intro _

theorem depCredits_upd (p : Nat) (d : Dep) (s : State) {o_ : Option Nat} :
    Upd [.fab] [] o_ s (depCredits p d s) := by
  unfold depCredits
  repeat' first
    | with_reducible exact Upd.refl _ _ _ _ | exact rfl | exact .inl rfl | exact .inr rfl | with_reducible assumption
    | with_reducible apply Upd.ite | with_reducible apply Upd.step' (writeCredits_upd ..) | split | dsimp only | intro _

theorem serveDep_upd (ev : List HwEvent) (p : Nat) (d : Dep) (s : State) :
    Upd [.regs, .evts, .cores, .cmt, .host, .fab] [.fe, .bsn, .ch] (some p) s (serveDep ev p d s) := by
  unfold serveDep
  repeat' first
    | with_reducible exact Upd.refl _ _ _ _ | exact rfl | exact .inl rfl | exact .inr rfl | with_reducible assumption
    | with_reducible apply Upd.ite | with_reducible apply Upd.step (serveRead_upd ..) | with_reducible apply Upd.step (depRow_upd ..)
    | with_reducible apply Upd.step' (depCredits_upd ..) | with_reducible apply Upd.step (depTags_upd ..) | with_reducible apply Upd.updCore
    | with_reducible exact CUpd.refl _ _ | with_reducible apply CUpd.ite | with_reducible apply CUpd.set | split | dsimp only | intro _

theorem depositSlot_upd (ev : List HwEvent) (p : Nat) (bank : Nat) (s : State) :
    Upd [.regs, .evts, .cores, .cmt, .host, .fab] [.fe, .bsn, .ch] (some p) s (depositSlot ev p bank s) := by
  unfold depositSlot
  repeat' first
    | with_reducible exact Upd.refl _ _ _ _ | exact rfl | exact .inl rfl | exact .inr rfl | with_reducible assumption
    | with_reducible apply Upd.ite | with_reducible apply Upd.step (serveDep_upd ..) | with_reducible apply Upd.step (useDepSlot_upd ..)
    | with_reducible apply Upd.step (addDeps_upd ..) | with_reducible apply Upd.updCore | with_reducible exact CUpd.refl _ _
    | with_reducible apply CUpd.ite | with_reducible apply CUpd.set | split | dsimp only | intro _

theorem execDepositSlotAccess_upd (p : Nat) (bank : Nat) (ev : List HwEvent) (s : State) {t : State} (h : execDepositSlotAccess p bank ev s = .next t) :
    Upd [.regs, .evts, .cores, .cmt, .host, .fab] [.fe, .bsn, .ch] (some p) s t := by
  refine guarded_upd (fun s => ?_) h
  repeat' first
    | with_reducible exact Upd.refl _ _ _ _ | exact rfl | exact .inl rfl | exact .inr rfl | with_reducible assumption
    | with_reducible apply Upd.ite | with_reducible apply Upd.step (depositSlot_upd ..) | split | dsimp only | intro _

theorem execBasinScrubWriteback_upd (p : Nat) (bank : Nat) (row : Nat) (word : Nat) (s : State) {t : State} (h : execBasinScrubWriteback p bank row word s = .next t) :
    Upd [.cores] [.bsn] (some p) s t := by
  refine guarded_upd (fun s => ?_) h
  repeat' first
    | with_reducible exact Upd.refl _ _ _ _ | exact rfl | exact .inl rfl | exact .inr rfl | with_reducible assumption
    | with_reducible apply Upd.ite | with_reducible apply Upd.step (useDepSlot_upd ..) | split | dsimp only | intro _

theorem fieldRepair_upd (p : Nat) (bank : Nat) (row : Nat) (s : State) :
    Upd [.regs, .evts, .cores, .cmt, .host, .sec] [.bsn] (some p) s (fieldRepair p bank row s) := by
  unfold fieldRepair
  repeat' first
    | with_reducible exact Upd.refl _ _ _ _ | exact rfl | exact .inl rfl | exact .inr rfl | with_reducible assumption
    | with_reducible apply Upd.ite | with_reducible apply Upd.step' (coreSrc_upd ..) | with_reducible apply Upd.step' (bsnStat_upd ..)
    | with_reducible apply Upd.updCore | with_reducible exact CUpd.refl _ _ | with_reducible apply CUpd.ite | with_reducible apply CUpd.set
    | split | dsimp only | intro _ | with_reducible apply Upd.set

theorem execFieldRepair_upd (p : Nat) (bank : Nat) (row : Nat) (s : State) {t : State} (h : execFieldRepair p bank row s = .next t) :
    Upd [.regs, .evts, .cores, .cmt, .host, .sec, .ctl] [.bsn] (some p) s t := by
  refine guarded_upd (fun s => ?_) h
  repeat' first
    | with_reducible exact Upd.refl _ _ _ _ | exact rfl | exact .inl rfl | exact .inr rfl | with_reducible assumption
    | with_reducible apply Upd.ite | with_reducible apply byCtl_upd | with_reducible apply Upd.step (fieldRepair_upd ..) | split | dsimp only
    | intro _

theorem applyRepairs_upd (p : Nat) (s : State) :
    Upd [.cores] [.bsn] (some p) s (applyRepairs p s) := by
  unfold applyRepairs
  repeat' first
    | with_reducible exact Upd.refl _ _ _ _ | exact rfl | exact .inl rfl | exact .inr rfl | with_reducible assumption
    | with_reducible apply Upd.ite | with_reducible apply Upd.updCore | with_reducible exact CUpd.refl _ _ | with_reducible apply CUpd.ite
    | with_reducible apply CUpd.foldN | with_reducible apply CUpd.set | with_reducible apply Upd.foldl | with_reducible apply Upd.foldl_snd
    | with_reducible apply Upd.foldl_fst | split | dsimp only | intro _

theorem sinkDrain_upd (p : Nat) (flag : Nat) (s : State) :
    Upd [.cores] [.takes, .bsn] (some p) s (sinkDrain p flag s) := by
  unfold sinkDrain
  repeat' first
    | with_reducible exact Upd.refl _ _ _ _ | exact rfl | exact .inl rfl | exact .inr rfl | with_reducible assumption
    | with_reducible apply Upd.ite | with_reducible apply Upd.step (takeObj_upd ..) | with_reducible apply Upd.updCore
    | with_reducible exact CUpd.refl _ _ | with_reducible apply CUpd.ite | with_reducible apply CUpd.set | split | dsimp only | intro _

theorem execElasticSinkDrain_upd (p : Nat) (flag : Nat) (s : State) {t : State} (h : execElasticSinkDrain p flag s = .next t) :
    Upd [.cores] [.takes, .bsn] (some p) s t := by
  refine guarded_upd (fun s => ?_) h
  repeat' first
    | with_reducible exact Upd.refl _ _ _ _ | exact rfl | exact .inl rfl | exact .inr rfl | with_reducible assumption
    | with_reducible apply Upd.ite | with_reducible apply Upd.step (sinkDrain_upd ..) | split | dsimp only | intro _

end Sys2Proof.Machine
end

