-- ==== Sys2Proof/Laws/Stream.lean ====
section
/-! SUPPORT. What each operation of Sys2Proof/Machine/Stream.lean can change: its footprint. -/
namespace Sys2Proof.Machine
set_option linter.all false

theorem taskFault_upd (code : Nat) (p : Nat) (s : State) {o_ : Option Nat} :
    Upd [.regs, .cmt, .host] [] o_ s (taskFault code p s) := by
  unfold taskFault
  repeat' first
    | with_reducible exact Upd.refl _ _ _ _ | exact rfl | exact .inl rfl | exact .inr rfl | with_reducible assumption
    | with_reducible apply Upd.ite | with_reducible apply Upd.step' (setReg64_upd ..) | with_reducible apply Upd.step' (setReg_upd ..)
    | with_reducible apply Upd.step' (irqRaise_upd ..) | split | dsimp only | intro _ | with_reducible apply Upd.set

theorem execHbmRefresh_upd (stack : Nat) (lane : Nat) (s : State) {o_ : Option Nat} {t : State} (h : execHbmRefresh stack lane s = .next t) :
    Upd [.hbm] [] o_ s t := by
  refine guarded_upd (fun s => ?_) h
  repeat' first
    | with_reducible exact Upd.refl _ _ _ _ | exact rfl | exact .inl rfl | exact .inr rfl | with_reducible assumption
    | with_reducible apply Upd.ite | split | dsimp only | intro _ | with_reducible apply Upd.set

theorem hbmScrub_upd (die : Nat) (unit : Nat) (ev : List HwEvent) (s : State) {o_ : Option Nat} :
    Upd [.regs, .evts, .hbm, .host] [] o_ s (hbmScrub die unit ev s) := by
  unfold hbmScrub
  repeat' first
    | with_reducible exact Upd.refl _ _ _ _ | exact rfl | exact .inl rfl | exact .inr rfl | with_reducible assumption
    | with_reducible apply Upd.ite | with_reducible apply Upd.step' (hbmUeNote_upd ..) | with_reducible apply Upd.step' (note_upd ..) | split
    | dsimp only | intro _ | with_reducible apply Upd.set

theorem execHbmScrub_upd (die : Nat) (unit : Nat) (ev : List HwEvent) (s : State) {o_ : Option Nat} {t : State} (h : execHbmScrub die unit ev s = .next t) :
    Upd [.regs, .evts, .hbm, .host] [] o_ s t := by
  refine guarded_upd (fun s => ?_) h
  repeat' first
    | with_reducible exact Upd.refl _ _ _ _ | exact rfl | exact .inl rfl | exact .inr rfl | with_reducible assumption
    | with_reducible apply Upd.ite | with_reducible apply Upd.step' (hbmScrub_upd ..) | split | dsimp only | intro _

theorem dropOv_upd (p : Nat) (tag : Nat) (s : State) :
    Upd [.cores] [.fe] (some p) s (dropOv p tag s) := by
  unfold dropOv
  repeat' first
    | with_reducible exact Upd.refl _ _ _ _ | exact rfl | exact .inl rfl | exact .inr rfl | with_reducible assumption
    | with_reducible apply Upd.ite | with_reducible apply Upd.updCore | with_reducible exact CUpd.refl _ _ | with_reducible apply CUpd.set
    | split | dsimp only | intro _

theorem putOv_upd (p : Nat) (q : OvReq) (s : State) :
    Upd [.cores] [.fe] (some p) s (putOv p q s) := by
  unfold putOv
  repeat' first
    | with_reducible exact Upd.refl _ _ _ _ | exact rfl | exact .inl rfl | exact .inr rfl | with_reducible assumption
    | with_reducible apply Upd.ite | with_reducible apply Upd.updCore | with_reducible exact CUpd.refl _ _ | with_reducible apply CUpd.ite
    | with_reducible apply CUpd.set | split | dsimp only | intro _

theorem sendWaiting_upd (port : Port) (s : State) :
    Upd [.cores, .out] [.fe] none s (sendWaiting port s) := by
  unfold sendWaiting
  repeat' first
    | with_reducible exact Upd.refl _ _ _ _ | exact rfl | exact .inl rfl | exact .inr rfl | with_reducible assumption
    | with_reducible apply Upd.ite | with_reducible apply eachCore_upd | with_reducible apply Upd.step (sendOvRead_upd ..)
    | with_reducible apply Upd.foldl | split | dsimp only | intro _

theorem ovComplete_upd (p : Nat) (tag : Nat) (row : Nat) (bytes : List Byte) (s : State) :
    Upd [.cores, .out] [.fe, .bsn] none s (ovComplete p tag row bytes s) := by
  unfold ovComplete
  repeat' first
    | with_reducible exact Upd.refl _ _ _ _ | exact rfl | exact .inl rfl | exact .inr rfl | with_reducible assumption
    | with_reducible apply Upd.ite | with_reducible apply Upd.step (queueRows_upd ..) | with_reducible apply Upd.step (putOv_upd ..)
    | with_reducible apply Upd.step (sendWaiting_upd ..) | with_reducible apply Upd.step (dropOv_upd ..) | with_reducible apply Upd.foldl
    | with_reducible apply Upd.foldl_snd | with_reducible apply Upd.foldl_fst | split | dsimp only | intro _

theorem execOverflowCompletion_upd (p : Nat) (tag : Nat) (row : Nat) (bytes : List Byte) (s : State) {t : State} (h : execOverflowCompletion p tag row bytes s = .next t) :
    Upd [.cores, .out] [.fe, .bsn] none s t := by
  refine guarded_upd (fun s => ?_) h
  repeat' first
    | with_reducible exact Upd.refl _ _ _ _ | exact rfl | exact .inl rfl | exact .inr rfl | with_reducible assumption
    | with_reducible apply Upd.ite | with_reducible apply Upd.step (ovComplete_upd ..) | split | dsimp only | intro _

theorem ovError_upd (p : Nat) (tag : Nat) (s : State) :
    Upd [.cores, .cmt, .out] [.job, .fe, .bsn, .th] none s (ovError p tag s) := by
  unfold ovError
  repeat' first
    | with_reducible exact Upd.refl _ _ _ _ | exact rfl | exact .inl rfl | exact .inr rfl | with_reducible assumption
    | with_reducible apply Upd.ite | with_reducible apply Upd.step (sendWaiting_upd ..) | with_reducible apply Upd.step (dropOv_upd ..)
    | with_reducible apply Upd.step (stallThread_upd ..) | with_reducible apply Upd.step (haltCtx_upd ..)
    | with_reducible apply Upd.step (addWork_upd ..) | with_reducible apply Upd.step' (coreSrc_upd ..)
    | with_reducible apply Upd.step (queueRows_upd ..) | with_reducible apply Upd.updCore | with_reducible exact CUpd.refl _ _
    | with_reducible apply CUpd.ite | with_reducible apply CUpd.set | split | dsimp only | intro _

theorem execPcieCompletionError_upd (p : Nat) (tag : Nat) (s : State) {t : State} (h : execPcieCompletionError p tag s = .next t) :
    Upd [.cores, .cmt, .out] [.job, .fe, .bsn, .th] none s t := by
  refine guarded_upd (fun s => ?_) h
  repeat' first
    | with_reducible exact Upd.refl _ _ _ _ | exact rfl | exact .inl rfl | exact .inr rfl | with_reducible assumption
    | with_reducible apply Upd.ite | with_reducible apply Upd.step (ovError_upd ..) | split | dsimp only | intro _

theorem wakeThreads_upd (n : Nat) (c : Core) : CUpd [.th] c (wakeThreads n c) := by
  unfold wakeThreads
  repeat' first
    | with_reducible exact CUpd.refl _ _ | exact rfl | exact .inl rfl | exact .inr rfl | with_reducible assumption
    | with_reducible apply CUpd.foldl | split | dsimp only | intro _ | with_reducible apply CUpd.set

theorem resumeCtx_upd (p : Nat) (n : Nat) (s : State) :
    Upd [.cores] [.fe, .th] (some p) s (resumeCtx p n s) := by
  unfold resumeCtx
  repeat' first
    | with_reducible exact Upd.refl _ _ _ _ | exact rfl | exact .inl rfl | exact .inr rfl | with_reducible assumption
    | with_reducible apply Upd.ite | with_reducible apply Upd.step (updCtx_upd ..) | with_reducible apply Upd.updCore
    | with_reducible exact CUpd.refl _ _ | with_reducible apply CUpd.step (wakeThreads_upd ..) | with_reducible apply CUpd.ite
    | with_reducible apply CUpd.set | split | dsimp only | intro _

theorem discardCtx_upd (p : Nat) (n : Nat) (s : State) :
    Upd [.cores] [.job, .takes, .fe, .th] (some p) s (discardCtx p n s) := by
  unfold discardCtx
  repeat' first
    | with_reducible exact Upd.refl _ _ _ _ | exact rfl | exact .inl rfl | exact .inr rfl | with_reducible assumption
    | with_reducible apply Upd.ite | with_reducible apply Upd.step (closeCtx_upd ..) | with_reducible apply Upd.updCore
    | with_reducible exact CUpd.refl _ _ | with_reducible apply CUpd.step (wakeThreads_upd ..) | with_reducible apply CUpd.ite
    | with_reducible apply CUpd.set | split | dsimp only | intro _

theorem resumeStreams_upd (port : Port) (s : State) :
    Upd [.cores] [.fe, .th] none s (resumeStreams port s) := by
  unfold resumeStreams
  repeat' first
    | with_reducible exact Upd.refl _ _ _ _ | exact rfl | exact .inl rfl | exact .inr rfl | with_reducible assumption
    | with_reducible apply Upd.ite | with_reducible apply eachCore_upd | with_reducible apply Upd.step (resumeCtx_upd ..)
    | with_reducible apply Upd.foldl | with_reducible apply Upd.foldl_snd | with_reducible apply Upd.foldl_fst | split | dsimp only | intro _

theorem ovResume_upd (port : Port) (s : State) :
    Upd [.cores, .cmt] [.fe, .th] none s (ovResume port s) := by
  unfold ovResume
  repeat' first
    | with_reducible exact Upd.refl _ _ _ _ | exact rfl | exact .inl rfl | exact .inr rfl | with_reducible assumption
    | with_reducible apply Upd.ite | with_reducible apply Upd.step (resumeStreams_upd ..) | split | dsimp only | intro _
    | with_reducible apply Upd.set

theorem execOverflowResume_upd (port : Port) (s : State) {t : State} (h : execOverflowResume port s = .next t) :
    Upd [.regs, .cores, .cmt, .host] [.fe, .th] none s t := by
  cases h
  repeat' first
    | with_reducible exact Upd.refl _ _ _ _ | exact rfl | exact .inl rfl | exact .inr rfl | with_reducible assumption
    | with_reducible apply Upd.ite | with_reducible apply woGate_upd | with_reducible apply Upd.step (ovResume_upd ..) | split | dsimp only
    | intro _

theorem execOverflowTimeout_upd (s : State) {o_ : Option Nat} {t : State} (h : execOverflowTimeout s = .next t) :
    Upd [.regs, .cmt, .host] [] o_ s t := by
  cases h
  repeat' first
    | with_reducible exact Upd.refl _ _ _ _ | exact rfl | exact .inl rfl | exact .inr rfl | with_reducible assumption
    | with_reducible apply Upd.ite | with_reducible apply Upd.step' (taskFault_upd ..) | split | dsimp only | intro _
    | with_reducible apply Upd.set

theorem streamHalt_upd (p : Nat) (ctx : Nat) (cause : HaltCause) (addr : W64) (s : State) :
    Upd [.regs, .evts, .cores, .cmt, .host] [.fe, .th] (some p) s (streamHalt p ctx cause addr s) := by
  unfold streamHalt
  repeat' first
    | with_reducible exact Upd.refl _ _ _ _ | exact rfl | exact .inl rfl | exact .inr rfl | with_reducible assumption
    | with_reducible apply Upd.ite | with_reducible apply Upd.step' (xlatMiss_upd ..) | with_reducible apply Upd.step (stallThread_upd ..)
    | with_reducible apply Upd.step (haltCtx_upd ..) | with_reducible apply Upd.foldl | split | dsimp only | intro _

theorem execThreadedStreamHalt_upd (p : Nat) (ctx : Nat) (cause : HaltCause) (addr : W64) (s : State) {t : State} (h : execThreadedStreamHalt p ctx cause addr s = .next t) :
    Upd [.regs, .evts, .cores, .cmt, .host] [.fe, .th] (some p) s t := by
  refine guarded_upd (fun s => ?_) h
  repeat' first
    | with_reducible exact Upd.refl _ _ _ _ | exact rfl | exact .inl rfl | exact .inr rfl | with_reducible assumption
    | with_reducible apply Upd.ite | with_reducible apply Upd.step (streamHalt_upd ..) | split | dsimp only | intro _

theorem xentWrite_upd (port : Port) (entry : W64) (s : State) {o_ : Option Nat} :
    Upd [.regs, .host] [] o_ s (xentWrite port entry s) := by
  unfold xentWrite
  repeat' first
    | with_reducible exact Upd.refl _ _ _ _ | exact rfl | exact .inl rfl | exact .inr rfl | with_reducible assumption
    | with_reducible apply Upd.ite | with_reducible apply hostGate_upd | with_reducible apply Upd.step' (updHp_upd ..)
    | with_reducible apply Upd.step' (setReg64_upd ..) | split | dsimp only | intro _

theorem execOvfXentWrite_upd (port : Port) (entry : W64) (s : State) {o_ : Option Nat} {t : State} (h : execOvfXentWrite port entry s = .next t) :
    Upd [.regs, .host] [] o_ s t := by
  cases h
  repeat' first
    | with_reducible exact Upd.refl _ _ _ _ | exact rfl | exact .inl rfl | exact .inr rfl | with_reducible assumption
    | with_reducible apply Upd.ite | with_reducible apply Upd.step' (xentWrite_upd ..) | split | dsimp only | intro _

theorem stagingCopy_upd (port : Port) (s : State) :
    Upd [.cores, .host, .out] [.fe] none s (stagingCopy port s) := by
  unfold stagingCopy
  repeat' first
    | with_reducible exact Upd.refl _ _ _ _ | exact rfl | exact .inl rfl | exact .inr rfl | with_reducible assumption
    | with_reducible apply Upd.ite | with_reducible apply Upd.step (sendWaiting_upd ..) | split | dsimp only | intro _
    | with_reducible apply Upd.set

theorem execOverflowStagingCopy_upd (port : Port) (s : State) {t : State} (h : execOverflowStagingCopy port s = .next t) :
    Upd [.cores, .host, .out] [.fe] none s t := by
  cases h
  repeat' first
    | with_reducible exact Upd.refl _ _ _ _ | exact rfl | exact .inl rfl | exact .inr rfl | with_reducible assumption
    | with_reducible apply Upd.ite | with_reducible apply Upd.step (stagingCopy_upd ..) | split | dsimp only | intro _

end Sys2Proof.Machine
end

