-- ==== Sys2Proof/Laws/Dale.lean ====
section
/-! SUPPORT. What each operation of Sys2Proof/Machine/Dale.lean can change: its footprint. -/
namespace Sys2Proof.Machine
set_option linter.all false

theorem daleFault_upd (code : Nat) (d : Nat) (s : State) {o_ : Option Nat} :
    Upd [.cmt] [] o_ s (daleFault code d s) := by
  unfold daleFault
  repeat' first
    | with_reducible exact Upd.refl _ _ _ _ | exact rfl | exact .inl rfl | exact .inr rfl | with_reducible assumption
    | with_reducible apply Upd.ite | split | dsimp only | intro _ | with_reducible apply Upd.set

theorem underrun_upd (d : Nat) (s : State) {o_ : Option Nat} :
    Upd [.regs, .evts, .dales, .cmt, .host] [] o_ s (underrun d s) := by
  unfold underrun
  repeat' first
    | with_reducible exact Upd.refl _ _ _ _ | exact rfl | exact .inl rfl | exact .inr rfl | with_reducible assumption
    | with_reducible apply Upd.ite | with_reducible apply Upd.step' (daleFault_upd ..) | with_reducible apply Upd.step' (noteStat_upd ..)
    | with_reducible apply Upd.step' (updDale_upd ..) | split | dsimp only | intro _

theorem imemBad_upd (d : Nat) (s : State) {o_ : Option Nat} :
    Upd [.regs, .evts, .dales, .cmt, .host] [] o_ s (imemBad d s) := by
  unfold imemBad
  repeat' first
    | with_reducible exact Upd.refl _ _ _ _ | exact rfl | exact .inl rfl | exact .inr rfl | with_reducible assumption
    | with_reducible apply Upd.ite | with_reducible apply Upd.step' (markSrc_upd ..) | with_reducible apply Upd.step' (noteStat_upd ..)
    | with_reducible apply Upd.step' (updDale_upd ..) | split | dsimp only | intro _

theorem imemRead_upd (ev : List HwEvent) (d : Nat) (x : Dale) (i : Ins) (s : State) {o_ : Option Nat} :
    Upd [.regs, .evts, .dales, .cmt, .host] [] o_ s (imemRead ev d x i s).1 := by
  unfold imemRead
  repeat' first
    | with_reducible exact Upd.refl _ _ _ _ | exact rfl | exact .inl rfl | exact .inr rfl | with_reducible assumption
    | with_reducible apply Upd.ite | with_reducible apply Upd.step' (note_upd ..) | with_reducible apply Upd.step' (imemBad_upd ..) | split
    | dsimp only | intro _

theorem issueOne_upd (d : Nat) (ev : List HwEvent) (s : State) {o_ : Option Nat} :
    Upd [.regs, .evts, .dales, .cmt, .host] [] o_ s (issueOne d ev s).1 := by
  unfold issueOne
  repeat' first
    | with_reducible exact Upd.refl _ _ _ _ | exact rfl | exact .inl rfl | exact .inr rfl | with_reducible assumption
    | with_reducible apply Upd.ite | with_reducible apply Upd.step' (underrun_upd ..) | with_reducible apply Upd.step' (imemRead_upd ..)
    | with_reducible apply Upd.step' (setDale_upd ..) | with_reducible apply Upd.of_fst (by assumption) | split | dsimp only | intro _

theorem issueUpTo_upd (d : Nat) (ev : List HwEvent) {o_ : Option Nat} : ∀ (n : Nat) (s : State),
    Upd [.regs, .evts, .dales, .cmt, .host] [] o_ s (issueUpTo d ev n s)
  | 0, s => Upd.refl _ _ _ _
  | n + 1, s => by
    unfold issueUpTo
    split
    · next z => exact (Upd.of_fst z (issueOne_upd ..)).trans (issueUpTo_upd d ev n _)
    · next z => exact Upd.of_fst z (issueOne_upd ..)

theorem execInstructionIssue_upd (d : Nat) (ev : List HwEvent) (s : State) {o_ : Option Nat} {t : State} (h : execInstructionIssue d ev s = .next t) :
    Upd [.regs, .evts, .dales, .cmt, .host] [] o_ s t := by
  refine guarded_upd (fun s => ?_) h
  repeat' first
    | with_reducible exact Upd.refl _ _ _ _ | exact rfl | exact .inl rfl | exact .inr rfl | with_reducible assumption
    | with_reducible apply Upd.ite | with_reducible apply Upd.step' (issueUpTo_upd ..) | split | dsimp only | intro _

theorem queueOverflow_upd (p : Nat) (u : Nat) (s : State) {o_ : Option Nat} :
    Upd [.regs, .evts, .cmt, .host] [] o_ s (queueOverflow p u s) := by
  unfold queueOverflow
  repeat' first
    | with_reducible exact Upd.refl _ _ _ _ | exact rfl | exact .inl rfl | exact .inr rfl | with_reducible assumption
    | with_reducible apply Upd.ite | with_reducible apply Upd.step' (progFault_upd ..) | with_reducible apply Upd.step' (note_upd ..) | split
    | dsimp only | intro _

theorem enqueue_upd (p : Nat) (i : Ins) (s : State) :
    Upd [.regs, .evts, .cores, .cmt, .host] [.q, .came] (some p) s (enqueue p i s) := by
  unfold enqueue
  repeat' first
    | with_reducible exact Upd.refl _ _ _ _ | exact rfl | exact .inl rfl | exact .inr rfl | with_reducible assumption
    | with_reducible apply Upd.ite | with_reducible apply Upd.step' (queueOverflow_upd ..) | with_reducible apply Upd.updCore
    | with_reducible exact CUpd.refl _ _ | with_reducible apply CUpd.ite | with_reducible apply CUpd.set | split | dsimp only | intro _
    | with_reducible apply Upd.setCore

theorem queueEntry_upd (d : Nat) (s : State) :
    Upd [.regs, .evts, .cores, .dales, .cmt, .host] [.q, .came] none s (queueEntry d s) := by
  unfold queueEntry
  repeat' first
    | with_reducible exact Upd.refl _ _ _ _ | exact rfl | exact .inl rfl | exact .inr rfl | with_reducible assumption
    | with_reducible apply Upd.ite | with_reducible apply Upd.step' (updDale_upd ..) | with_reducible apply Upd.step (enqueue_upd ..)
    | with_reducible apply Upd.foldl | split | dsimp only | intro _

theorem execQueueEntry_upd (d : Nat) (s : State) {t : State} (h : execQueueEntry d s = .next t) :
    Upd [.regs, .evts, .cores, .dales, .cmt, .host] [.q, .came] none s t := by
  refine guarded_upd (fun s => ?_) h
  repeat' first
    | with_reducible exact Upd.refl _ _ _ _ | exact rfl | exact .inl rfl | exact .inr rfl | with_reducible assumption
    | with_reducible apply Upd.ite | with_reducible apply Upd.step (queueEntry_upd ..) | split | dsimp only | intro _

theorem signalStage_upd (p : Nat) (s : State) :
    Upd [.cores] [.sigs, .adds] (some p) s (signalStage p s) := by
  unfold signalStage
  repeat' first
    | with_reducible exact Upd.refl _ _ _ _ | exact rfl | exact .inl rfl | exact .inr rfl | with_reducible assumption
    | with_reducible apply Upd.ite | with_reducible apply Upd.step (fireSig_upd ..) | with_reducible apply Upd.updCore
    | with_reducible exact CUpd.refl _ _ | with_reducible apply CUpd.set | split | dsimp only | intro _ | with_reducible apply Upd.setCore

theorem execSignalStage_upd (p : Nat) (s : State) {t : State} (h : execSignalStage p s = .next t) :
    Upd [.cores] [.sigs, .adds] (some p) s t := by
  refine guarded_upd (fun s => ?_) h
  repeat' first
    | with_reducible exact Upd.refl _ _ _ _ | exact rfl | exact .inl rfl | exact .inr rfl | with_reducible assumption
    | with_reducible apply Upd.ite | with_reducible apply Upd.step (signalStage_upd ..) | split | dsimp only | intro _

theorem sqRun_upd {F : List SFld} {D : List CFld} {k : Option Nat} {b s : State} {d op : Nat} {ev : List HwEvent} {f : Ins → State → State}
    (hF : SFld.sub [.regs, .evts, .dales, .cmt, .host] F = true) (hD : CFld.sub [] D = true) (he : ∀ i t, Upd F D k t (f i t)) (h : Upd F D k b s) :
    Upd F D k b (sqRun d op ev f s) := by
  unfold sqRun
  dsimp only
  split
  · exact h
  · exact Upd.step' (underrun_upd ..) (SFld.sub_trans rfl hF) (CFld.sub_trans rfl hD) h
  · have g := fun x i => Upd.step' (imemRead_upd ev d x i s (o_ := k)) (SFld.sub_trans rfl hF) (CFld.sub_trans rfl hD) h
    split
    · exact h
    · split
      · next z => exact Upd.of_fst z (g _ _)
      · next z => exact (Upd.of_fst z (g _ _)).trans (he _ _)

theorem execSqnop_upd (d : Nat) (ev : List HwEvent) (s : State) {o_ : Option Nat} {t : State} (h : execSqnop d ev s = .next t) :
    Upd [.regs, .evts, .dales, .cmt, .host] [] o_ s t := by
  refine guarded_upd (fun s => ?_) h
  repeat' first
    | with_reducible exact Upd.refl _ _ _ _ | exact rfl | exact .inl rfl | exact .inr rfl | with_reducible assumption
    | with_reducible apply Upd.ite | with_reducible apply sqRun_upd | with_reducible apply Upd.step' (updDale_upd ..) | split | dsimp only
    | intro _

theorem execSqrep_upd (d : Nat) (ev : List HwEvent) (s : State) {o_ : Option Nat} {t : State} (h : execSqrep d ev s = .next t) :
    Upd [.regs, .evts, .dales, .cmt, .host] [] o_ s t := by
  refine guarded_upd (fun s => ?_) h
  repeat' first
    | with_reducible exact Upd.refl _ _ _ _ | exact rfl | exact .inl rfl | exact .inr rfl | with_reducible assumption
    | with_reducible apply Upd.ite | with_reducible apply sqRun_upd | with_reducible apply Upd.step' (updDale_upd ..) | split | dsimp only
    | intro _

theorem execSqhold_upd (d : Nat) (ev : List HwEvent) (s : State) {t : State} (h : execSqhold d ev s = .next t) :
    Upd [.regs, .evts, .cores, .dales, .cmt, .host] [.mx] none s t := by
  refine guarded_upd (fun s => ?_) h
  repeat' first
    | with_reducible exact Upd.refl _ _ _ _ | exact rfl | exact .inl rfl | exact .inr rfl | with_reducible assumption
    | with_reducible apply Upd.ite | with_reducible apply sqRun_upd | with_reducible apply Upd.step' (updDale_upd ..)
    | with_reducible apply Upd.step (holdRamp_upd ..) | with_reducible apply Upd.foldl | split | dsimp only | intro _

theorem execSqend_upd (d : Nat) (ev : List HwEvent) (s : State) {o_ : Option Nat} {t : State} (h : execSqend d ev s = .next t) :
    Upd [.regs, .evts, .dales, .cmt, .host] [] o_ s t := by
  refine guarded_upd (fun s => ?_) h
  repeat' first
    | with_reducible exact Upd.refl _ _ _ _ | exact rfl | exact .inl rfl | exact .inr rfl | with_reducible assumption
    | with_reducible apply Upd.ite | with_reducible apply sqRun_upd | with_reducible apply Upd.step' (updDale_upd ..) | split | dsimp only
    | intro _

theorem useRelease_upd (h : HoldD) (s : State) :
    Upd [.cores] [.ch] none s (useRelease h s) := by
  unfold useRelease
  repeat' first
    | with_reducible exact Upd.refl _ _ _ _ | exact rfl | exact .inl rfl | exact .inr rfl | with_reducible assumption
    | with_reducible apply Upd.ite | with_reducible apply Upd.updCore | with_reducible exact CUpd.refl _ _ | with_reducible apply CUpd.ite
    | with_reducible apply CUpd.foldN | with_reducible apply CUpd.set | with_reducible apply Upd.foldl | split | dsimp only | intro _

theorem freshRuns_upd (d : Nat) (s : State) :
    Upd [.cores] [.mx] none s (freshRuns d s) := by
  unfold freshRuns
  repeat' first
    | with_reducible exact Upd.refl _ _ _ _ | exact rfl | exact .inl rfl | exact .inr rfl | with_reducible assumption
    | with_reducible apply Upd.ite | with_reducible apply Upd.updCore | with_reducible exact CUpd.refl _ _ | with_reducible apply CUpd.foldN
    | with_reducible apply CUpd.set | with_reducible apply Upd.foldl | split | dsimp only | intro _ | with_reducible apply Upd.set

theorem resumeDales_upd (id : Nat) (rel : Nat) (h : HoldD) (s : State) :
    Upd [.cores, .dales, .holds] [.mx] none s (resumeDales id rel h s) := by
  unfold resumeDales
  repeat' first
    | with_reducible exact Upd.refl _ _ _ _ | exact rfl | exact .inl rfl | exact .inr rfl | with_reducible assumption
    | with_reducible apply Upd.ite | with_reducible apply Upd.step (freshRuns_upd ..) | with_reducible apply Upd.step' (updDale_upd ..)
    | with_reducible apply Upd.foldl | split | dsimp only | intro _ | with_reducible apply Upd.set

theorem holdRelease_upd (id : Nat) (s : State) :
    Upd [.cores, .dales, .holds] [.mx, .ch] none s (holdRelease id s) := by
  unfold holdRelease
  repeat' first
    | with_reducible exact Upd.refl _ _ _ _ | exact rfl | exact .inl rfl | exact .inr rfl | with_reducible assumption
    | with_reducible apply Upd.ite | with_reducible apply Upd.step (resumeDales_upd ..) | with_reducible apply Upd.step (useRelease_upd ..)
    | split | dsimp only | intro _ | with_reducible apply Upd.set

theorem execHoldRelease_upd (id : Nat) (s : State) {t : State} (h : execHoldRelease id s = .next t) :
    Upd [.cores, .dales, .holds] [.mx, .ch] none s t := by
  refine guarded_upd (fun s => ?_) h
  repeat' first
    | with_reducible exact Upd.refl _ _ _ _ | exact rfl | exact .inl rfl | exact .inr rfl | with_reducible assumption
    | with_reducible apply Upd.ite | with_reducible apply Upd.step (holdRelease_upd ..) | split | dsimp only | intro _

theorem refillBeat_upd (d : Nat) (ev : List HwEvent) (s : State) {o_ : Option Nat} :
    Upd [.regs, .evts, .dales, .hbm, .cmt, .host] [] o_ s (refillBeat d ev s) := by
  unfold refillBeat
  repeat' first
    | with_reducible exact Upd.refl _ _ _ _ | exact rfl | exact .inl rfl | exact .inr rfl | with_reducible assumption
    | with_reducible apply Upd.ite | with_reducible apply Upd.step' (reservedRead_upd ..) | with_reducible apply Upd.step' (setDale_upd ..)
    | with_reducible apply Upd.of_snd (by assumption) | split | dsimp only | intro _

theorem execInstructionRefillBeat_upd (d : Nat) (ev : List HwEvent) (s : State) {o_ : Option Nat} {t : State} (h : execInstructionRefillBeat d ev s = .next t) :
    Upd [.regs, .evts, .dales, .hbm, .cmt, .host] [] o_ s t := by
  refine guarded_upd (fun s => ?_) h
  repeat' first
    | with_reducible exact Upd.refl _ _ _ _ | exact rfl | exact .inl rfl | exact .inr rfl | with_reducible assumption
    | with_reducible apply Upd.ite | with_reducible apply Upd.step' (refillBeat_upd ..) | split | dsimp only | intro _

end Sys2Proof.Machine
end

