-- ==== Sys2Proof/Laws/Measure.lean ====
section
/-! SUPPORT. What each operation of Sys2Proof/Machine/Measure.lean can change: its footprint. -/
namespace Sys2Proof.Machine
set_option linter.all false

theorem measure_upd (ty : Nat) (d : List Byte) (s : State) {o_ : Option Nat} :
    Upd [.sec] [] o_ s (measure ty d s) := by
  unfold measure
  repeat' first
    | with_reducible exact Upd.refl _ _ _ _ | exact rfl | exact .inl rfl | exact .inr rfl | with_reducible assumption
    | with_reducible apply Upd.ite | split | dsimp only | intro _ | with_reducible apply Upd.set

theorem setMbxWord_upd (port : Port) (a : Nat) (v : Nat) (s : State) {o_ : Option Nat} :
    Upd [.regs] [] o_ s (setMbxWord port a v s) := by
  unfold setMbxWord
  repeat' first
    | with_reducible exact Upd.refl _ _ _ _ | exact rfl | exact .inl rfl | exact .inr rfl | with_reducible assumption
    | with_reducible apply Upd.ite | split | dsimp only | intro _ | with_reducible apply Upd.set

theorem putReply_upd (port : Port) (a : Nat) (b : List Byte) (s : State) {o_ : Option Nat} :
    Upd [.regs] [] o_ s (putReply port a b s) := by
  unfold putReply
  repeat' first
    | with_reducible exact Upd.refl _ _ _ _ | exact rfl | exact .inl rfl | exact .inr rfl | with_reducible assumption
    | with_reducible apply Upd.ite | with_reducible apply Upd.step' (setMbxWord_upd ..) | with_reducible apply Upd.foldN | split | dsimp only
    | intro _

theorem setRseq_upd (port : Port) (n : Nat) (s : State) {o_ : Option Nat} :
    Upd [.ctl] [] o_ s (setRseq port n s) := by
  unfold setRseq
  repeat' first
    | with_reducible exact Upd.refl _ _ _ _ | exact rfl | exact .inl rfl | exact .inr rfl | with_reducible assumption
    | with_reducible apply Upd.ite | split | dsimp only | intro _ | with_reducible apply Upd.set

theorem placeReply_upd (port : Port) (b : List Byte) (s : State) {o_ : Option Nat} {t : State} (h : placeReply port b s = some t) :
    Upd [.regs, .ctl, .out] [] o_ s t := by
  unfold placeReply at h
  dsimp only at h
  repeat' split at h
  all_goals cases h
  all_goals repeat' first
    | with_reducible exact Upd.refl _ _ _ _ | exact rfl | with_reducible apply Upd.step' (setMbxWord_upd ..)
    | with_reducible apply Upd.step' (emit_upd ..) | with_reducible apply Upd.step' (setRseq_upd ..) | with_reducible apply Upd.step' (putReply_upd ..)

theorem placeReplies_upd (port : Port) {o_ : Option Nat} : ∀ (l : List (List Byte)) (s : State),
    Upd [.regs, .ctl, .out] [] o_ s (placeReplies port l s).2
  | [], s => Upd.refl _ _ _ _
  | b :: rest, s => by
    unfold placeReplies
    split
    · next z => exact (placeReply_upd _ _ _ z).trans (placeReplies_upd port rest _)
    · exact Upd.refl _ _ _ _

theorem sendReplies_upd (port : Port) (s : State) {o_ : Option Nat} :
    Upd [.regs, .ctl, .out] [] o_ s (sendReplies port s) := by
  unfold sendReplies
  repeat' first
    | with_reducible exact Upd.refl _ _ _ _ | exact rfl | exact .inl rfl | exact .inr rfl | with_reducible assumption
    | with_reducible apply Upd.ite | with_reducible apply Upd.step' (placeReplies_upd ..) | with_reducible apply Upd.of_snd (by assumption)
    | split | dsimp only | intro _ | with_reducible apply Upd.set

theorem svcReply_upd (port : Port) (body : List Byte) (s : State) {o_ : Option Nat} :
    Upd [.regs, .ctl, .out] [] o_ s (svcReply port body s) := by
  unfold svcReply
  repeat' first
    | with_reducible exact Upd.refl _ _ _ _ | exact rfl | exact .inl rfl | exact .inr rfl | with_reducible assumption
    | with_reducible apply Upd.ite | with_reducible apply Upd.step' (sendReplies_upd ..) | split | dsimp only | intro _
    | with_reducible apply Upd.set

theorem takeRecord_upd {o_ : Option Nat} : ∀ (n : Nat) (port : Port) (s : State), Upd [.regs] [] o_ s (takeRecord n port s)
  | 0, _, s => Upd.refl _ _ _ _
  | n + 1, port, s => by
    unfold takeRecord
    dsimp only
    split
    · exact Upd.refl _ _ _ _
    · split
      · exact ((setMbxWord_upd ..).trans (takeRecord_upd n _ _)).mono rfl rfl (.inr rfl)
      · exact (setMbxWord_upd ..).mono rfl rfl (.inr rfl)

end Sys2Proof.Machine
end

