-- ==== Sys2Proof/Laws/Thread.lean ====
section
/-! SUPPORT. What each operation of Sys2Proof/Machine/Thread.lean can change: its footprint. -/
namespace Sys2Proof.Machine
set_option linter.all false

theorem updTh_upd (p : Nat) (t : Nat) (f : Thread → Thread) (s : State) :
    Upd [.cores] [.th] (some p) s (updTh p t f s) := by
  unfold updTh
  repeat' first
    | with_reducible exact Upd.refl _ _ _ _ | exact rfl | exact .inl rfl | exact .inr rfl | with_reducible assumption
    | with_reducible apply Upd.ite | with_reducible apply Upd.updCore | with_reducible exact CUpd.refl _ _ | with_reducible apply CUpd.set
    | split | dsimp only | intro _

theorem threadIssues_upd (p : Nat) (t : Nat) (s : State) :
    Upd [.cores] [.q, .started, .came, .sigs, .job, .obj, .th] (some p) s (threadIssues p t s) := by
  unfold threadIssues
  repeat' first
    | with_reducible exact Upd.refl _ _ _ _ | exact rfl | exact .inl rfl | exact .inr rfl | with_reducible assumption
    | with_reducible apply Upd.ite | with_reducible apply Upd.step (updTh_upd ..) | with_reducible apply Upd.updCore
    | with_reducible exact CUpd.refl _ _ | with_reducible apply CUpd.ite | with_reducible apply CUpd.set | split | dsimp only | intro _

theorem threadIssue_upd (p : Nat) (s : State) :
    Upd [.cores] [.q, .started, .came, .sigs, .job, .obj, .th] (some p) s (threadIssue p s) := by
  unfold threadIssue
  repeat' first
    | with_reducible exact Upd.refl _ _ _ _ | exact rfl | exact .inl rfl | exact .inr rfl | with_reducible assumption
    | with_reducible apply Upd.ite | with_reducible apply Upd.step (threadIssues_upd ..) | split | dsimp only | intro _

theorem execThreadIssue_upd (p : Nat) (s : State) {t : State} (h : execThreadIssue p s = .next t) :
    Upd [.cores] [.q, .started, .came, .sigs, .job, .obj, .th] (some p) s t := by
  refine guarded_upd (fun s => ?_) h
  repeat' first
    | with_reducible exact Upd.refl _ _ _ _ | exact rfl | exact .inl rfl | exact .inr rfl | with_reducible assumption
    | with_reducible apply Upd.ite | with_reducible apply Upd.step (threadIssue_upd ..) | split | dsimp only | intro _

theorem thRun_upd {F : List SFld} {D : List CFld} {k : Option Nat} {b s : State} {p : Nat} {op : Nat} {f : Nat → Ins → State → State}
    (hF : SFld.sub [.cores] F = true) (hD : CFld.sub [.th] D = true)
    (ho : k = none ∨ k = some p) (he : ∀ i j t, Upd F D k t (f i j t)) (h : Upd F D k b s) : Upd F D k b (thRun p op f s) := by
  unfold thRun
  split
  · exact h
  · split
    · exact h
    · refine Upd.trans (Upd.step (F := [.cores]) (D := [.th]) (o := some p) ?_ hF hD ho h) (he _ _ _)
      apply Upd.updCore
      all_goals first | exact rfl | exact .inr rfl | exact Upd.refl _ _ _ _ | skip
      apply CUpd.set
      all_goals first | exact .inl rfl | exact .inr rfl

theorem setThReg_upd (p : Nat) (t : Nat) (r : Nat) (lat : Nat) (v : W64) (s : State) :
    Upd [.cores] [.th] (some p) s (setThReg p t r lat v s) := by
  unfold setThReg
  repeat' first
    | with_reducible exact Upd.refl _ _ _ _ | exact rfl | exact .inl rfl | exact .inr rfl | with_reducible assumption
    | with_reducible apply Upd.ite | with_reducible apply Upd.step (updTh_upd ..) | split | dsimp only | intro _

theorem thAlu_upd (p : Nat) (op : Nat) (f : Ins → W64 → W64 → W64) (s : State) :
    Upd [.cores] [.th] (some p) s (thAlu p op f s) := by
  unfold thAlu
  repeat' first
    | with_reducible exact Upd.refl _ _ _ _ | exact rfl | exact .inl rfl | exact .inr rfl | with_reducible assumption
    | with_reducible apply Upd.ite | with_reducible apply thRun_upd | with_reducible apply Upd.step (setThReg_upd ..) | split | dsimp only
    | intro _

theorem execThli_upd (p : Nat) (s : State) {t : State} (h : execThli p s = .next t) :
    Upd [.cores] [.th] (some p) s t := by
  refine guarded_upd (fun s => ?_) h
  repeat' first
    | with_reducible exact Upd.refl _ _ _ _ | exact rfl | exact .inl rfl | exact .inr rfl | with_reducible assumption
    | with_reducible apply Upd.ite | with_reducible apply Upd.step (thAlu_upd ..) | split | dsimp only | intro _

theorem execThadd_upd (p : Nat) (s : State) {t : State} (h : execThadd p s = .next t) :
    Upd [.cores] [.th] (some p) s t := by
  refine guarded_upd (fun s => ?_) h
  repeat' first
    | with_reducible exact Upd.refl _ _ _ _ | exact rfl | exact .inl rfl | exact .inr rfl | with_reducible assumption
    | with_reducible apply Upd.ite | with_reducible apply Upd.step (thAlu_upd ..) | split | dsimp only | intro _

theorem execThsub_upd (p : Nat) (s : State) {t : State} (h : execThsub p s = .next t) :
    Upd [.cores] [.th] (some p) s t := by
  refine guarded_upd (fun s => ?_) h
  repeat' first
    | with_reducible exact Upd.refl _ _ _ _ | exact rfl | exact .inl rfl | exact .inr rfl | with_reducible assumption
    | with_reducible apply Upd.ite | with_reducible apply Upd.step (thAlu_upd ..) | split | dsimp only | intro _

theorem execThand_upd (p : Nat) (s : State) {t : State} (h : execThand p s = .next t) :
    Upd [.cores] [.th] (some p) s t := by
  refine guarded_upd (fun s => ?_) h
  repeat' first
    | with_reducible exact Upd.refl _ _ _ _ | exact rfl | exact .inl rfl | exact .inr rfl | with_reducible assumption
    | with_reducible apply Upd.ite | with_reducible apply Upd.step (thAlu_upd ..) | split | dsimp only | intro _

theorem execThor_upd (p : Nat) (s : State) {t : State} (h : execThor p s = .next t) :
    Upd [.cores] [.th] (some p) s t := by
  refine guarded_upd (fun s => ?_) h
  repeat' first
    | with_reducible exact Upd.refl _ _ _ _ | exact rfl | exact .inl rfl | exact .inr rfl | with_reducible assumption
    | with_reducible apply Upd.ite | with_reducible apply Upd.step (thAlu_upd ..) | split | dsimp only | intro _

theorem execThxor_upd (p : Nat) (s : State) {t : State} (h : execThxor p s = .next t) :
    Upd [.cores] [.th] (some p) s t := by
  refine guarded_upd (fun s => ?_) h
  repeat' first
    | with_reducible exact Upd.refl _ _ _ _ | exact rfl | exact .inl rfl | exact .inr rfl | with_reducible assumption
    | with_reducible apply Upd.ite | with_reducible apply Upd.step (thAlu_upd ..) | split | dsimp only | intro _

theorem execThshl_upd (p : Nat) (s : State) {t : State} (h : execThshl p s = .next t) :
    Upd [.cores] [.th] (some p) s t := by
  refine guarded_upd (fun s => ?_) h
  repeat' first
    | with_reducible exact Upd.refl _ _ _ _ | exact rfl | exact .inl rfl | exact .inr rfl | with_reducible assumption
    | with_reducible apply Upd.ite | with_reducible apply Upd.step (thAlu_upd ..) | split | dsimp only | intro _

theorem execThshr_upd (p : Nat) (s : State) {t : State} (h : execThshr p s = .next t) :
    Upd [.cores] [.th] (some p) s t := by
  refine guarded_upd (fun s => ?_) h
  repeat' first
    | with_reducible exact Upd.refl _ _ _ _ | exact rfl | exact .inl rfl | exact .inr rfl | with_reducible assumption
    | with_reducible apply Upd.ite | with_reducible apply Upd.step (thAlu_upd ..) | split | dsimp only | intro _

theorem execThmul_upd (p : Nat) (s : State) {t : State} (h : execThmul p s = .next t) :
    Upd [.cores] [.th] (some p) s t := by
  refine guarded_upd (fun s => ?_) h
  repeat' first
    | with_reducible exact Upd.refl _ _ _ _ | exact rfl | exact .inl rfl | exact .inr rfl | with_reducible assumption
    | with_reducible apply Upd.ite | with_reducible apply Upd.step (thAlu_upd ..) | split | dsimp only | intro _

theorem execThcmp_upd (p : Nat) (s : State) {t : State} (h : execThcmp p s = .next t) :
    Upd [.cores] [.th] (some p) s t := by
  refine guarded_upd (fun s => ?_) h
  repeat' first
    | with_reducible exact Upd.refl _ _ _ _ | exact rfl | exact .inl rfl | exact .inr rfl | with_reducible assumption
    | with_reducible apply Upd.ite | with_reducible apply Upd.step (thAlu_upd ..) | split | dsimp only | intro _

theorem thJump_upd (p : Nat) (t : Nat) (i : Ins) (s : State) :
    Upd [.cores] [.th] (some p) s (thJump p t i s) := by
  unfold thJump
  repeat' first
    | with_reducible exact Upd.refl _ _ _ _ | exact rfl | exact .inl rfl | exact .inr rfl | with_reducible assumption
    | with_reducible apply Upd.ite | with_reducible apply Upd.step (updTh_upd ..) | split | dsimp only | intro _

theorem execThbr_upd (p : Nat) (s : State) {t : State} (h : execThbr p s = .next t) :
    Upd [.cores] [.th] (some p) s t := by
  refine guarded_upd (fun s => ?_) h
  repeat' first
    | with_reducible exact Upd.refl _ _ _ _ | exact rfl | exact .inl rfl | exact .inr rfl | with_reducible assumption
    | with_reducible apply Upd.ite | with_reducible apply thRun_upd | with_reducible apply Upd.step (thJump_upd ..) | split | dsimp only
    | intro _

theorem execThjmp_upd (p : Nat) (s : State) {t : State} (h : execThjmp p s = .next t) :
    Upd [.cores] [.th] (some p) s t := by
  refine guarded_upd (fun s => ?_) h
  repeat' first
    | with_reducible exact Upd.refl _ _ _ _ | exact rfl | exact .inl rfl | exact .inr rfl | with_reducible assumption
    | with_reducible apply Upd.ite | with_reducible apply thRun_upd | with_reducible apply Upd.step (thJump_upd ..) | split | dsimp only
    | intro _

theorem thAccess_upd {F : List SFld} {D : List CFld} {k : Option Nat} {b s : State} {p op : Nat} {f : Nat → Ins → State → State}
    (hF : SFld.sub [.cores] F = true) (hD : CFld.sub [.job, .th] D = true) (ho : k = none ∨ k = some p) (he : ∀ t i u, Upd F D k u (f t i u))
    (h : Upd F D k b s) : Upd F D k b (thAccess p op f s) := by
  have h1 : Upd F D k b (clearMarks p s) := Upd.step (clearMarks_upd ..) hF (CFld.sub_trans rfl hD) ho h
  unfold thAccess
  dsimp only
  split
  · exact h1
  · exact thRun_upd hF (CFld.sub_trans rfl hD) ho he h1

theorem execThlds_upd (p : Nat) (ev : List HwEvent) (s : State) {t : State} (h : execThlds p ev s = .next t) :
    Upd [.regs, .evts, .cores, .cmt, .host] [.job, .bsn, .th] (some p) s t := by
  refine guarded_upd (fun s => ?_) h
  repeat' first
    | with_reducible exact Upd.refl _ _ _ _ | exact rfl | exact .inl rfl | exact .inr rfl | with_reducible assumption
    | with_reducible apply Upd.ite | with_reducible apply thAccess_upd | with_reducible apply Upd.step (exRead_upd ..)
    | with_reducible apply Upd.step (setThReg_upd ..) | with_reducible apply Upd.of_snd (by assumption) | split | dsimp only | intro _

theorem execThsts_upd (p : Nat) (s : State) {t : State} (h : execThsts p s = .next t) :
    Upd [.regs, .evts, .cores, .cmt, .host] [.job, .bsn, .th] (some p) s t := by
  refine guarded_upd (fun s => ?_) h
  repeat' first
    | with_reducible exact Upd.refl _ _ _ _ | exact rfl | exact .inl rfl | exact .inr rfl | with_reducible assumption
    | with_reducible apply Upd.ite | with_reducible apply thAccess_upd | with_reducible apply Upd.step (exWrite_upd ..) | split | dsimp only
    | intro _

theorem execThbase_upd (p : Nat) (s : State) {t : State} (h : execThbase p s = .next t) :
    Upd [.cores] [.th] (some p) s t := by
  refine guarded_upd (fun s => ?_) h
  repeat' first
    | with_reducible exact Upd.refl _ _ _ _ | exact rfl | exact .inl rfl | exact .inr rfl | with_reducible assumption
    | with_reducible apply Upd.ite | with_reducible apply thRun_upd | with_reducible apply Upd.step (updTh_upd ..) | split | dsimp only | intro _

theorem execThexit_upd (p : Nat) (s : State) {t : State} (h : execThexit p s = .next t) :
    Upd [.cores] [.th] (some p) s t := by
  refine guarded_upd (fun s => ?_) h
  repeat' first
    | with_reducible exact Upd.refl _ _ _ _ | exact rfl | exact .inl rfl | exact .inr rfl | with_reducible assumption
    | with_reducible apply Upd.ite | with_reducible apply thRun_upd | with_reducible apply Upd.step (updTh_upd ..) | split | dsimp only | intro _

theorem intoThreaded_upd (c : Core) : CUpd [.mode, .modeNext, .stale, .th] c (intoThreaded c) := by
  unfold intoThreaded
  repeat' first
    | with_reducible exact CUpd.refl _ _ | exact rfl | exact .inl rfl | exact .inr rfl | with_reducible assumption | split | dsimp only | intro _
    | with_reducible apply CUpd.set

theorem modeChange_upd (p : Nat) (m : CoreMode) (s : State) :
    Upd [.regs, .evts, .cores, .host] [.mode, .modeNext, .stale, .th] (some p) s (modeChange p m s) := by
  unfold modeChange
  repeat' first
    | with_reducible exact Upd.refl _ _ _ _ | exact rfl | exact .inl rfl | exact .inr rfl | with_reducible assumption
    | with_reducible apply Upd.ite | with_reducible apply Upd.step' (noteStat_upd ..) | with_reducible apply Upd.updCore
    | with_reducible exact CUpd.refl _ _ | with_reducible apply CUpd.step (intoThreaded_upd ..) | with_reducible apply CUpd.ite
    | with_reducible apply CUpd.set | split | dsimp only | intro _ | with_reducible apply Upd.setCore

theorem execCoreModeChange_upd (p : Nat) (m : CoreMode) (s : State) {t : State} (h : execCoreModeChange p m s = .next t) :
    Upd [.regs, .evts, .cores, .host, .ctl] [.mode, .modeNext, .stale, .th] (some p) s t := by
  refine guarded_upd (fun s => ?_) h
  repeat' first
    | with_reducible exact Upd.refl _ _ _ _ | exact rfl | exact .inl rfl | exact .inr rfl | with_reducible assumption
    | with_reducible apply Upd.ite | with_reducible apply byCtl_upd | with_reducible apply Upd.step (modeChange_upd ..) | split | dsimp only
    | intro _

theorem haltCore_upd (c : Core) : CUpd [.q, .busy, .started, .came, .sigs, .job, .adds, .takes, .bsn, .th] c (haltCore c) := by
  unfold haltCore
  repeat' first
    | with_reducible exact CUpd.refl _ _ | exact rfl | exact .inl rfl | exact .inr rfl | with_reducible assumption | split | dsimp only | intro _
    | with_reducible apply CUpd.set

theorem resetCore_upd (c : Core) : CUpd [.mode, .modeNext, .q, .busy, .started, .came, .sigs, .job, .obj, .adds, .takes, .rst, .fe, .bsn, .mx, .pu, .vx, .ch, .th] c (resetCore c) := by
  unfold resetCore
  repeat' first
    | with_reducible exact CUpd.refl _ _ | exact rfl | exact .inl rfl | exact .inr rfl | with_reducible assumption
    | with_reducible apply CUpd.step (haltCore_upd ..) | split | dsimp only | intro _ | with_reducible apply CUpd.set

theorem coreReset_upd (p : Nat) (s : State) :
    Upd [.cores] [.mode, .modeNext, .q, .busy, .started, .came, .sigs, .job, .obj, .adds, .takes, .rst, .fe, .bsn, .mx, .pu, .vx, .ch, .th] (some p) s (coreReset p s) := by
  unfold coreReset
  repeat' first
    | with_reducible exact Upd.refl _ _ _ _ | exact rfl | exact .inl rfl | exact .inr rfl | with_reducible assumption
    | with_reducible apply Upd.ite | with_reducible apply Upd.updCore | with_reducible exact CUpd.refl _ _
    | with_reducible apply CUpd.step (resetCore_upd ..) | with_reducible apply CUpd.step (haltCore_upd ..) | with_reducible apply CUpd.ite
    | with_reducible apply CUpd.set | split | dsimp only | intro _ | with_reducible apply Upd.setCore

theorem resetLc_upd (p : Nat) (s : State) :
    Upd [.cores] [.mode, .modeNext, .q, .busy, .started, .came, .sigs, .job, .obj, .adds, .takes, .rst, .fe, .bsn, .mx, .pu, .vx, .ch, .th] (some p) s (resetLc p s) := by
  unfold resetLc
  repeat' first
    | with_reducible exact Upd.refl _ _ _ _ | exact rfl | exact .inl rfl | exact .inr rfl | with_reducible assumption
    | with_reducible apply Upd.ite | with_reducible apply Upd.updCore | with_reducible exact CUpd.refl _ _
    | with_reducible apply CUpd.step (resetCore_upd ..) | with_reducible apply CUpd.ite | with_reducible apply CUpd.set | split | dsimp only
    | intro _ | with_reducible apply Upd.setCore

theorem execCoreReset_upd (p : Nat) (s : State) {t : State} (h : execCoreReset p s = .next t) :
    Upd [.cores, .ctl] [.mode, .modeNext, .q, .busy, .started, .came, .sigs, .job, .obj, .adds, .takes, .rst, .fe, .bsn, .mx, .pu, .vx, .ch, .th] (some p) s t := by
  refine guarded_upd (fun s => ?_) h
  repeat' first
    | with_reducible exact Upd.refl _ _ _ _ | exact rfl | exact .inl rfl | exact .inr rfl | with_reducible assumption
    | with_reducible apply Upd.ite | with_reducible apply byCtl_upd | with_reducible apply Upd.step (coreReset_upd ..) | split | dsimp only
    | intro _

theorem answerWork_upd (p : Nat) (store : List W256) (code : Byte) (s : State) {o_ : Option Nat} :
    Upd [.regs, .ctl, .out] [] o_ s (answerWork p store code s) := by
  unfold answerWork
  repeat' first
    | with_reducible exact Upd.refl _ _ _ _ | exact rfl | exact .inl rfl | exact .inr rfl | with_reducible assumption
    | with_reducible apply Upd.ite | with_reducible apply Upd.step' (svcReply_upd ..) | split | dsimp only | intro _
    | with_reducible apply Upd.set

theorem loadStore_upd (p : Nat) (store : List W256) (s : State) :
    Upd [.cores] [.th] (some p) s (loadStore p store s) := by
  unfold loadStore
  repeat' first
    | with_reducible exact Upd.refl _ _ _ _ | exact rfl | exact .inl rfl | exact .inr rfl | with_reducible assumption
    | with_reducible apply Upd.ite | with_reducible apply Upd.updCore | with_reducible exact CUpd.refl _ _ | with_reducible apply CUpd.ite
    | with_reducible apply CUpd.foldN | with_reducible apply CUpd.set | with_reducible apply Upd.foldl | split | dsimp only | intro _

theorem workLoad_upd (p : Nat) (store : List W256) (s : State) :
    Upd [.regs, .cores, .sec, .ctl, .out] [.th] (some p) s (workLoad p store s) := by
  unfold workLoad
  repeat' first
    | with_reducible exact Upd.refl _ _ _ _ | exact rfl | exact .inl rfl | exact .inr rfl | with_reducible assumption
    | with_reducible apply Upd.ite | with_reducible apply Upd.step' (answerWork_upd ..) | with_reducible apply Upd.step' (measure_upd ..)
    | with_reducible apply Upd.step (loadStore_upd ..) | split | dsimp only | intro _

theorem execThreadedWorkLoad_upd (p : Nat) (store : List W256) (s : State) {t : State} (h : execThreadedWorkLoad p store s = .next t) :
    Upd [.regs, .cores, .sec, .ctl, .out] [.th] (some p) s t := by
  refine guarded_upd (fun s => ?_) h
  repeat' first
    | with_reducible exact Upd.refl _ _ _ _ | exact rfl | exact .inl rfl | exact .inr rfl | with_reducible assumption
    | with_reducible apply Upd.ite | with_reducible apply byCtl_upd | with_reducible apply Upd.step (workLoad_upd ..) | split | dsimp only
    | intro _

theorem execWatchdogKick_upd (die : Nat) (s : State) {o_ : Option Nat} {t : State} (h : execWatchdogKick die s = .next t) :
    Upd [.ctl] [] o_ s t := by
  refine guarded_upd (fun s => ?_) h
  repeat' first
    | with_reducible exact Upd.refl _ _ _ _ | exact rfl | exact .inl rfl | exact .inr rfl | with_reducible assumption
    | with_reducible apply Upd.ite | split | dsimp only | intro _ | with_reducible apply Upd.set

theorem watchdogExpiry_upd (die : Nat) (s : State) {o_ : Option Nat} :
    Upd [.clk, .pwr, .ctl, .out] [] o_ s (watchdogExpiry die s) := by
  unfold watchdogExpiry
  repeat' first
    | with_reducible exact Upd.refl _ _ _ _ | exact rfl | exact .inl rfl | exact .inr rfl | with_reducible assumption
    | with_reducible apply Upd.ite | with_reducible apply Upd.step' (emit_upd ..) | split | dsimp only | intro _ | with_reducible apply Upd.set

theorem execWatchdogExpiry_upd (die : Nat) (s : State) {o_ : Option Nat} {t : State} (h : execWatchdogExpiry die s = .next t) :
    Upd [.clk, .pwr, .ctl, .out] [] o_ s t := by
  refine guarded_upd (fun s => ?_) h
  repeat' first
    | with_reducible exact Upd.refl _ _ _ _ | exact rfl | exact .inl rfl | exact .inr rfl | with_reducible assumption
    | with_reducible apply Upd.ite | with_reducible apply Upd.step' (watchdogExpiry_upd ..) | split | dsimp only | intro _

theorem unfenceCore_upd (p : Nat) (s : State) :
    Upd [.cores, .fab] [.fenced] (some p) s (unfenceCore p s) := by
  unfold unfenceCore
  repeat' first
    | with_reducible exact Upd.refl _ _ _ _ | exact rfl | exact .inl rfl | exact .inr rfl | with_reducible assumption
    | with_reducible apply Upd.ite | with_reducible apply Upd.updCore | with_reducible exact CUpd.refl _ _ | with_reducible apply CUpd.set
    | split | dsimp only | intro _ | with_reducible apply Upd.set

theorem mailboxAct_upd (port : Port) (r : MbRequest) (s : State) :
    Upd [.regs, .cores, .clk, .hbm, .fab, .sec, .ctl, .out] [.fenced, .job, .takes, .fe, .bsn, .th] none s (mailboxAct port r s) := by
  unfold mailboxAct
  repeat' first
    | with_reducible exact Upd.refl _ _ _ _ | exact rfl | exact .inl rfl | exact .inr rfl | with_reducible assumption
    | with_reducible apply Upd.ite | with_reducible apply Upd.step' (svcReply_upd ..) | with_reducible apply Upd.step' (writeCommitted_upd ..)
    | with_reducible apply Upd.step (unfenceCore_upd ..) | with_reducible apply Upd.step' (setRails_upd ..)
    | with_reducible apply Upd.step (resumeCtx_upd ..) | with_reducible apply Upd.step (discardCtx_upd ..) | with_reducible apply Upd.updCore
    | with_reducible exact CUpd.refl _ _ | with_reducible apply CUpd.ite | with_reducible apply CUpd.set | split | dsimp only | intro _
    | with_reducible apply Upd.set

theorem mailboxRequest_upd (port : Port) (r : MbRequest) (s : State) :
    Upd [.regs, .cores, .clk, .hbm, .fab, .sec, .ctl, .out] [.fenced, .job, .takes, .fe, .bsn, .th] none s (mailboxRequest port r s) := by
  unfold mailboxRequest
  repeat' first
    | with_reducible exact Upd.refl _ _ _ _ | exact rfl | exact .inl rfl | exact .inr rfl | with_reducible assumption
    | with_reducible apply Upd.ite | with_reducible apply Upd.step' (takeRecord_upd ..) | with_reducible apply Upd.step (mailboxAct_upd ..)
    | split | dsimp only | intro _

theorem execServiceMailboxRequest_upd (port : Port) (r : MbRequest) (s : State) {t : State} (h : execServiceMailboxRequest port r s = .next t) :
    Upd [.regs, .cores, .clk, .hbm, .fab, .sec, .ctl, .out] [.fenced, .job, .takes, .fe, .bsn, .th] none s t := by
  cases h
  repeat' first
    | with_reducible exact Upd.refl _ _ _ _ | exact rfl | exact .inl rfl | exact .inr rfl | with_reducible assumption
    | with_reducible apply Upd.ite | with_reducible apply byCtl_upd | with_reducible apply Upd.step (mailboxRequest_upd ..) | split | dsimp only
    | intro _

theorem ctlRun_upd (x : CtlStep) (s : State) :
    Upd [.regs, .evts, .cores, .clk, .hbm, .cmt, .host, .fab, .sec, .ctl, .out] [.mode, .modeNext, .fenced, .stale, .q, .busy, .started, .came, .sigs, .job, .obj, .adds, .takes, .rst, .fe, .bsn, .mx, .pu, .vx, .ch, .th] none s (ctlRun x s) := by
  unfold ctlRun
  repeat' first
    | with_reducible exact Upd.refl _ _ _ _ | exact rfl | exact .inl rfl | exact .inr rfl | with_reducible assumption
    | with_reducible apply Upd.ite | with_reducible apply Upd.step (modeChange_upd ..) | with_reducible apply Upd.step (coreReset_upd ..)
    | with_reducible apply Upd.step (workLoad_upd ..) | with_reducible apply Upd.step (mailboxRequest_upd ..)
    | with_reducible apply Upd.step (fieldRepair_upd ..) | split | dsimp only | intro _

theorem restartDone_upd (die : Nat) (s : State) :
    Upd [.regs, .evts, .cores, .clk, .hbm, .cmt, .host, .fab, .sec, .ctl, .out] [.mode, .modeNext, .fenced, .stale, .q, .busy, .started, .came, .sigs, .job, .obj, .adds, .takes, .rst, .fe, .bsn, .mx, .pu, .vx, .ch, .th] none s (restartDone die s) := by
  unfold restartDone
  repeat' first
    | with_reducible exact Upd.refl _ _ _ _ | exact rfl | exact .inl rfl | exact .inr rfl | with_reducible assumption
    | with_reducible apply Upd.ite | with_reducible apply Upd.step' (measure_upd ..) | with_reducible apply Upd.step (ctlRun_upd ..)
    | with_reducible apply Upd.foldl | with_reducible apply Upd.foldl_snd | with_reducible apply Upd.foldl_fst | split | dsimp only | intro _
    | with_reducible apply Upd.set

theorem execControllerRestartDone_upd (die : Nat) (s : State) {t : State} (h : execControllerRestartDone die s = .next t) :
    Upd [.regs, .evts, .cores, .clk, .hbm, .cmt, .host, .fab, .sec, .ctl, .out] [.mode, .modeNext, .fenced, .stale, .q, .busy, .started, .came, .sigs, .job, .obj, .adds, .takes, .rst, .fe, .bsn, .mx, .pu, .vx, .ch, .th] none s t := by
  refine guarded_upd (fun s => ?_) h
  repeat' first
    | with_reducible exact Upd.refl _ _ _ _ | exact rfl | exact .inl rfl | exact .inr rfl | with_reducible assumption
    | with_reducible apply Upd.ite | with_reducible apply Upd.step (restartDone_upd ..) | split | dsimp only | intro _

end Sys2Proof.Machine
end

