-- ==== Sys2Proof/Laws/Tick.lean ====
section
/-! SUPPORT. What each operation of Sys2Proof/Machine/Tick.lean can change: its footprint. -/
namespace Sys2Proof.Machine
set_option linter.all false

theorem lcEvents_upd (s : State) (p : Nat) :
    Upd [.cores] [.pc] (some p) s (lcEvents s p) := by
  unfold lcEvents
  repeat' first
    | with_reducible exact Upd.refl _ _ _ _ | exact rfl | exact .inl rfl | exact .inr rfl | with_reducible assumption
    | with_reducible apply Upd.ite | with_reducible apply Upd.step (countAt_upd ..) | split | dsimp only | intro _

theorem closeLc_upd (p : Nat) (s : State) :
    Upd [.cores] [.bsn, .pc] (some p) s (closeLc p s) := by
  unfold closeLc
  repeat' first
    | with_reducible exact Upd.refl _ _ _ _ | exact rfl | exact .inl rfl | exact .inr rfl | with_reducible assumption
    | with_reducible apply Upd.ite | with_reducible apply Upd.updCore | with_reducible exact CUpd.refl _ _ | with_reducible apply CUpd.set
    | split | dsimp only | intro _

theorem coreLc_upd (p : Nat) (s : State) :
    Upd [.regs, .evts, .cores, .hbm, .cmt, .host, .fab, .trc, .fresh, .out] [.mode, .modeNext, .q, .busy, .started, .came, .sigs, .job, .obj, .adds, .takes, .rst, .fe, .bsn, .mx, .pu, .vx, .ch, .th, .pc, .vlog] (some p) s (coreLc p s) := by
  unfold coreLc
  repeat' first
    | with_reducible exact Upd.refl _ _ _ _ | exact rfl | exact .inl rfl | exact .inr rfl | with_reducible assumption
    | with_reducible apply Upd.ite | with_reducible apply Upd.step (settleCen_upd ..) | with_reducible apply Upd.step (accLc_upd ..)
    | with_reducible apply Upd.step (coreWork_upd ..) | with_reducible apply Upd.step (fireDue_upd ..)
    | with_reducible apply Upd.step (roleDue_upd ..) | with_reducible apply Upd.step (resetLc_upd ..)
    | with_reducible apply Upd.step (endObjs_upd ..) | with_reducible apply Upd.step (barLc_upd ..)
    | with_reducible apply Upd.step (fordLc_upd ..) | with_reducible apply Upd.step (closeLc_upd ..)
    | with_reducible apply Upd.step (lcEvents_upd ..) | split | dsimp only | intro _

theorem bridgeLc_upd (s : State) {o_ : Option Nat} :
    Upd [.phase] [] o_ s (bridgeLc s) := by
  unfold bridgeLc
  repeat' first
    | with_reducible exact Upd.refl _ _ _ _ | exact rfl | exact .inl rfl | exact .inr rfl | with_reducible assumption
    | with_reducible apply Upd.ite | split | dsimp only | intro _ | with_reducible apply Upd.set

theorem stretched_upd (s : State) {o_ : Option Nat} :
    Upd [.trc] [] o_ s (stretched s) := by
  unfold stretched
  repeat' first
    | with_reducible exact Upd.refl _ _ _ _ | exact rfl | exact .inl rfl | exact .inr rfl | with_reducible assumption
    | with_reducible apply Upd.ite | with_reducible apply Upd.step' (gcount_upd ..) | with_reducible apply Upd.foldl
    | with_reducible apply Upd.foldl_snd | with_reducible apply Upd.foldl_fst | split | dsimp only | intro _

theorem holdLcs_upd (s : State) {o_ : Option Nat} :
    Upd [.dales] [] o_ s (holdLcs s) := by
  unfold holdLcs
  repeat' first
    | with_reducible exact Upd.refl _ _ _ _ | exact rfl | exact .inl rfl | exact .inr rfl | with_reducible assumption
    | with_reducible apply Upd.ite | split | dsimp only | intro _ | with_reducible apply Upd.set

theorem noteBodyEnd_upd (s : State) {o_ : Option Nat} :
    Upd [.clk] [] o_ s (noteBodyEnd s) := by
  unfold noteBodyEnd
  repeat' first
    | with_reducible exact Upd.refl _ _ _ _ | exact rfl | exact .inl rfl | exact .inr rfl | with_reducible assumption
    | with_reducible apply Upd.ite | split | dsimp only | intro _ | with_reducible apply Upd.set

theorem timePasses_upd (q : Nat) (s : State) {o_ : Option Nat} :
    Upd [.clk] [] o_ s (timePasses q s) := by
  unfold timePasses
  repeat' first
    | with_reducible exact Upd.refl _ _ _ _ | exact rfl | exact .inl rfl | exact .inr rfl | with_reducible assumption
    | with_reducible apply Upd.ite | split | dsimp only | intro _ | with_reducible apply Upd.set

end Sys2Proof.Machine
end

