-- ==== Sys2Proof/Laws/Host.lean ====
section
/-! SUPPORT. What each operation of Sys2Proof/Machine/Host.lean can change: its footprint. -/
namespace Sys2Proof.Machine
set_option linter.all false

theorem irqBoth_upd (bit : Nat) (s : State) {o_ : Option Nat} :
    Upd [.regs, .host] [] o_ s (irqBoth bit s) := by
  unfold irqBoth
  repeat' first
    | with_reducible exact Upd.refl _ _ _ _ | exact rfl | exact .inl rfl | exact .inr rfl | with_reducible assumption
    | with_reducible apply Upd.ite | with_reducible apply Upd.step' (irqRaise_upd ..) | split | dsimp only | intro _

theorem passTo_upd (port : Port) (s : State) {o_ : Option Nat} :
    Upd [.regs, .host] [] o_ s (passTo port s) := by
  unfold passTo
  repeat' first
    | with_reducible exact Upd.refl _ _ _ _ | exact rfl | exact .inl rfl | exact .inr rfl | with_reducible assumption
    | with_reducible apply Upd.ite | with_reducible apply Upd.step' (irqBoth_upd ..) | split | dsimp only | intro _
    | with_reducible apply Upd.set

theorem execHostOwnOffer_upd (port : Port) (s : State) {o_ : Option Nat} {t : State} (h : execHostOwnOffer port s = .next t) :
    Upd [.regs, .host] [] o_ s t := by
  cases h
  repeat' first
    | with_reducible exact Upd.refl _ _ _ _ | exact rfl | exact .inl rfl | exact .inr rfl | with_reducible assumption
    | with_reducible apply Upd.ite | with_reducible apply hostGate_upd | split | dsimp only | intro _ | with_reducible apply Upd.set

theorem execHostOwnAccept_upd (port : Port) (s : State) {o_ : Option Nat} {t : State} (h : execHostOwnAccept port s = .next t) :
    Upd [.regs, .host] [] o_ s t := by
  cases h
  repeat' first
    | with_reducible exact Upd.refl _ _ _ _ | exact rfl | exact .inl rfl | exact .inr rfl | with_reducible assumption
    | with_reducible apply Upd.ite | with_reducible apply hostGate_upd | with_reducible apply Upd.step' (passTo_upd ..) | split | dsimp only
    | intro _

theorem execOfferLapse_upd (s : State) {o_ : Option Nat} {t : State} (h : execOfferLapse s = .next t) :
    Upd [.host] [] o_ s t := by
  cases h
  repeat' first
    | with_reducible exact Upd.refl _ _ _ _ | exact rfl | exact .inl rfl | exact .inr rfl | with_reducible assumption
    | with_reducible apply Upd.ite | split | dsimp only | intro _ | with_reducible apply Upd.set

theorem execHostOwnTake_upd (port : Port) (s : State) {o_ : Option Nat} {t : State} (h : execHostOwnTake port s = .next t) :
    Upd [.regs, .host] [] o_ s t := by
  cases h
  repeat' first
    | with_reducible exact Upd.refl _ _ _ _ | exact rfl | exact .inl rfl | exact .inr rfl | with_reducible assumption
    | with_reducible apply Upd.ite | with_reducible apply hostGate_upd | with_reducible apply Upd.step' (passTo_upd ..)
    | with_reducible apply Upd.step' (setBits_upd ..) | split | dsimp only | intro _

theorem setAgreed_upd (port : Port) (v : Nat) (s : State) {o_ : Option Nat} :
    Upd [.regs, .host] [] o_ s (setAgreed port v s) := by
  unfold setAgreed
  repeat' first
    | with_reducible exact Upd.refl _ _ _ _ | exact rfl | exact .inl rfl | exact .inr rfl | with_reducible assumption
    | with_reducible apply Upd.ite | with_reducible apply Upd.step' (irqRaise_upd ..) | with_reducible apply Upd.step' (updHp_upd ..) | split
    | dsimp only | intro _

theorem execHpHelloWrite_upd (port : Port) (v : BitVec 16) (s : State) {o_ : Option Nat} {t : State} (h : execHpHelloWrite port v s = .next t) :
    Upd [.regs, .host] [] o_ s t := by
  cases h
  repeat' first
    | with_reducible exact Upd.refl _ _ _ _ | exact rfl | exact .inl rfl | exact .inr rfl | with_reducible assumption
    | with_reducible apply Upd.ite | with_reducible apply hostGate_upd | with_reducible apply Upd.step' (setAgreed_upd ..)
    | with_reducible apply Upd.step' (updHp_upd ..) | split | dsimp only | intro _

theorem updRing_upd (port : Port) (r : Nat) (f : Ring → Ring) (s : State) {o_ : Option Nat} :
    Upd [.host] [] o_ s (updRing port r f s) := by
  unfold updRing
  repeat' first
    | with_reducible exact Upd.refl _ _ _ _ | exact rfl | exact .inl rfl | exact .inr rfl | with_reducible assumption
    | with_reducible apply Upd.ite | with_reducible apply Upd.step' (updHp_upd ..) | split | dsimp only | intro _

theorem pushRing_upd (port : Port) (r : Nat) (die : Nat) (bytes : List Byte) (s : State) {o_ : Option Nat} :
    Upd [.host] [] o_ s (pushRing port r die bytes s) := by
  unfold pushRing
  repeat' first
    | with_reducible exact Upd.refl _ _ _ _ | exact rfl | exact .inl rfl | exact .inr rfl | with_reducible assumption
    | with_reducible apply Upd.ite | with_reducible apply Upd.step' (updRing_upd ..) | split | dsimp only | intro _

theorem headWrite_upd (port : Port) (r : Nat) (v : W32) (s : State) {o_ : Option Nat} :
    Upd [.regs, .host] [] o_ s (headWrite port r v s) := by
  unfold headWrite
  repeat' first
    | with_reducible exact Upd.refl _ _ _ _ | exact rfl | exact .inl rfl | exact .inr rfl | with_reducible assumption
    | with_reducible apply Upd.ite | with_reducible apply Upd.step' (refuseWrite_upd ..) | with_reducible apply Upd.step' (updRing_upd ..)
    | with_reducible apply Upd.step' (hwSets_upd ..) | split | dsimp only | intro _

theorem execRingHeadWrite_upd (port : Port) (r : Nat) (v : W32) (s : State) {o_ : Option Nat} {t : State} (h : execRingHeadWrite port r v s = .next t) :
    Upd [.regs, .host] [] o_ s t := by
  refine guarded_upd (fun s => ?_) h
  repeat' first
    | with_reducible exact Upd.refl _ _ _ _ | exact rfl | exact .inl rfl | exact .inr rfl | with_reducible assumption
    | with_reducible apply Upd.ite | with_reducible apply Upd.step' (headWrite_upd ..) | split | dsimp only | intro _

theorem ringEnable_upd (port : Port) (r : Nat) (v : W32) (s : State) {o_ : Option Nat} :
    Upd [.host] [] o_ s (ringEnable port r v s) := by
  unfold ringEnable
  repeat' first
    | with_reducible exact Upd.refl _ _ _ _ | exact rfl | exact .inl rfl | exact .inr rfl | with_reducible assumption
    | with_reducible apply Upd.ite | with_reducible apply Upd.step' (updRing_upd ..) | split | dsimp only | intro _

theorem execRingEnable_upd (port : Port) (r : Nat) (v : W32) (s : State) {o_ : Option Nat} {t : State} (h : execRingEnable port r v s = .next t) :
    Upd [.host] [] o_ s t := by
  refine guarded_upd (fun s => ?_) h
  repeat' first
    | with_reducible exact Upd.refl _ _ _ _ | exact rfl | exact .inl rfl | exact .inr rfl | with_reducible assumption
    | with_reducible apply Upd.ite | with_reducible apply Upd.step' (ringEnable_upd ..) | split | dsimp only | intro _

theorem ringMsix_upd (port : Port) (x : Ring) (s : State) {o_ : Option Nat} :
    Upd [.out] [] o_ s (ringMsix port x s) := by
  unfold ringMsix
  repeat' first
    | with_reducible exact Upd.refl _ _ _ _ | exact rfl | exact .inl rfl | exact .inr rfl | with_reducible assumption
    | with_reducible apply Upd.ite | with_reducible apply Upd.step' (emit_upd ..) | split | dsimp only | intro _

theorem recordWrite_upd (port : Port) (r : Nat) (s : State) {o_ : Option Nat} :
    Upd [.host, .out] [] o_ s (recordWrite port r s) := by
  unfold recordWrite
  repeat' first
    | with_reducible exact Upd.refl _ _ _ _ | exact rfl | exact .inl rfl | exact .inr rfl | with_reducible assumption
    | with_reducible apply Upd.ite | with_reducible apply Upd.step' (hwSets_upd ..) | with_reducible apply Upd.step' (updRing_upd ..)
    | with_reducible apply Upd.step' (ringMsix_upd ..) | with_reducible apply Upd.step' (emit_upd ..) | split | dsimp only | intro _

theorem execRingRecordWrite_upd (port : Port) (r : Nat) (s : State) {o_ : Option Nat} {t : State} (h : execRingRecordWrite port r s = .next t) :
    Upd [.host, .out] [] o_ s t := by
  refine guarded_upd (fun s => ?_) h
  repeat' first
    | with_reducible exact Upd.refl _ _ _ _ | exact rfl | exact .inl rfl | exact .inr rfl | with_reducible assumption
    | with_reducible apply Upd.ite | with_reducible apply Upd.step' (recordWrite_upd ..) | split | dsimp only | intro _

theorem releaseEgress_upd {o_ : Option Nat} : ∀ (l : List RelRec) (s : State), Upd [.host] [] o_ s (releaseEgress l s)
  | [], s => by
    unfold releaseEgress
    apply Upd.set
    all_goals first | exact .inl rfl | exact .inr rfl | exact Upd.refl _ _ _ _
  | x :: l, s => by
    unfold releaseEgress
    split
    · exact (pushRing_upd ..).trans (releaseEgress_upd l _)
    · apply Upd.set
      all_goals first | exact .inl rfl | exact .inr rfl | exact Upd.refl _ _ _ _

theorem intkStat_upd (port : Port) (bit : Nat) (irq : Nat) (s : State) {o_ : Option Nat} :
    Upd [.regs, .host] [] o_ s (intkStat port bit irq s) := by
  unfold intkStat
  repeat' first
    | with_reducible exact Upd.refl _ _ _ _ | exact rfl | exact .inl rfl | exact .inr rfl | with_reducible assumption
    | with_reducible apply Upd.ite | with_reducible apply Upd.step' (irqRaise_upd ..) | with_reducible apply Upd.step' (setBits_upd ..) | split
    | dsimp only | intro _

theorem threshold_upd (port : Port) (old : Nat) (new : Nat) (s : State) {o_ : Option Nat} :
    Upd [.regs, .host] [] o_ s (threshold port old new s) := by
  unfold threshold
  repeat' first
    | with_reducible exact Upd.refl _ _ _ _ | exact rfl | exact .inl rfl | exact .inr rfl | with_reducible assumption
    | with_reducible apply Upd.ite | with_reducible apply Upd.step' (irqRaise_upd ..) | split | dsimp only | intro _

theorem storeWord_upd (port : Port) (w : W64) (s : State) {o_ : Option Nat} :
    Upd [.regs, .host, .trc] [] o_ s (storeWord port w s) := by
  unfold storeWord
  repeat' first
    | with_reducible exact Upd.refl _ _ _ _ | exact rfl | exact .inl rfl | exact .inr rfl | with_reducible assumption
    | with_reducible apply Upd.ite | with_reducible apply Upd.step' (intkStat_upd ..) | with_reducible apply Upd.step' (updHp_upd ..)
    | with_reducible apply Upd.step' (gcount_upd ..) | with_reducible apply Upd.step' (threshold_upd ..) | split | dsimp only | intro _

theorem intakeWord_upd (port : Port) (w : W64) (s : State) {o_ : Option Nat} :
    Upd [.regs, .host, .trc] [] o_ s (intakeWord port w s) := by
  unfold intakeWord
  repeat' first
    | with_reducible exact Upd.refl _ _ _ _ | exact rfl | exact .inl rfl | exact .inr rfl | with_reducible assumption
    | with_reducible apply Upd.ite | with_reducible apply Upd.step' (storeWord_upd ..) | with_reducible apply Upd.step' (updHp_upd ..) | split
    | dsimp only | intro _

theorem execIntakeWordWrite_upd (port : Port) (w : W64) (s : State) {o_ : Option Nat} {t : State} (h : execIntakeWordWrite port w s = .next t) :
    Upd [.regs, .host, .trc] [] o_ s t := by
  cases h
  repeat' first
    | with_reducible exact Upd.refl _ _ _ _ | exact rfl | exact .inl rfl | exact .inr rfl | with_reducible assumption
    | with_reducible apply Upd.ite | with_reducible apply Upd.step' (intakeWord_upd ..) | split | dsimp only | intro _

theorem rewind_upd (port : Port) (s : State) {o_ : Option Nat} :
    Upd [.regs, .host] [] o_ s (rewind port s) := by
  unfold rewind
  repeat' first
    | with_reducible exact Upd.refl _ _ _ _ | exact rfl | exact .inl rfl | exact .inr rfl | with_reducible assumption
    | with_reducible apply Upd.ite | with_reducible apply Upd.step' (satField_upd ..) | with_reducible apply Upd.step' (updHp_upd ..) | split
    | dsimp only | intro _

theorem intakeTrailer_upd (port : Port) (w : W64) (s : State) {o_ : Option Nat} :
    Upd [.regs, .host, .trc] [] o_ s (intakeTrailer port w s) := by
  unfold intakeTrailer
  repeat' first
    | with_reducible exact Upd.refl _ _ _ _ | exact rfl | exact .inl rfl | exact .inr rfl | with_reducible assumption
    | with_reducible apply Upd.ite | with_reducible apply Upd.step' (rewind_upd ..) | with_reducible apply Upd.step' (gcount_upd ..)
    | with_reducible apply Upd.step' (satField_upd ..) | with_reducible apply Upd.step' (updHp_upd ..)
    | with_reducible apply Upd.step' (intkStat_upd ..) | split | dsimp only | intro _

theorem execIntakeTrailer_upd (port : Port) (w : W64) (s : State) {o_ : Option Nat} {t : State} (h : execIntakeTrailer port w s = .next t) :
    Upd [.regs, .host, .trc] [] o_ s t := by
  cases h
  repeat' first
    | with_reducible exact Upd.refl _ _ _ _ | exact rfl | exact .inl rfl | exact .inr rfl | with_reducible assumption
    | with_reducible apply Upd.ite | with_reducible apply Upd.step' (intakeTrailer_upd ..) | split | dsimp only | intro _

theorem portGone_upd (port : Port) (perst : Bool) (s : State) {o_ : Option Nat} :
    Upd [.host] [] o_ s (portGone port perst s) := by
  unfold portGone
  repeat' first
    | with_reducible exact Upd.refl _ _ _ _ | exact rfl | exact .inl rfl | exact .inr rfl | with_reducible assumption
    | with_reducible apply Upd.ite | with_reducible apply Upd.step' (updHp_upd ..) | split | dsimp only | intro _

theorem intakeEnable_upd (port : Port) (en : Bool) (s : State) {o_ : Option Nat} :
    Upd [.regs, .host] [] o_ s (intakeEnable port en s) := by
  unfold intakeEnable
  repeat' first
    | with_reducible exact Upd.refl _ _ _ _ | exact rfl | exact .inl rfl | exact .inr rfl | with_reducible assumption
    | with_reducible apply Upd.ite | with_reducible apply Upd.step' (setField_upd ..) | with_reducible apply Upd.step' (updHp_upd ..)
    | with_reducible apply Upd.step' (rewind_upd ..) | split | dsimp only | intro _

theorem intakeStop_upd (port : Port) (why : StopCause) (s : State) {o_ : Option Nat} :
    Upd [.regs, .host] [] o_ s (intakeStop port why s) := by
  unfold intakeStop
  repeat' first
    | with_reducible exact Upd.refl _ _ _ _ | exact rfl | exact .inl rfl | exact .inr rfl | with_reducible assumption
    | with_reducible apply Upd.ite | with_reducible apply Upd.step' (rewind_upd ..) | with_reducible apply Upd.step' (portGone_upd ..)
    | with_reducible apply Upd.step' (intakeEnable_upd ..) | split | dsimp only | intro _

theorem execIntakeStop_upd (port : Port) (why : StopCause) (s : State) {o_ : Option Nat} {t : State} (h : execIntakeStop port why s = .next t) :
    Upd [.regs, .host] [] o_ s t := by
  cases h
  repeat' first
    | with_reducible exact Upd.refl _ _ _ _ | exact rfl | exact .inl rfl | exact .inr rfl | with_reducible assumption
    | with_reducible apply Upd.ite | with_reducible apply Upd.step' (intakeStop_upd ..) | split | dsimp only | intro _

theorem execIntakeEnable_upd (port : Port) (en : Bool) (s : State) {o_ : Option Nat} {t : State} (h : execIntakeEnable port en s = .next t) :
    Upd [.regs, .host] [] o_ s t := by
  cases h
  repeat' first
    | with_reducible exact Upd.refl _ _ _ _ | exact rfl | exact .inl rfl | exact .inr rfl | with_reducible assumption
    | with_reducible apply Upd.ite | with_reducible apply hostGate_upd | with_reducible apply Upd.step' (intakeEnable_upd ..) | split
    | dsimp only | intro _

theorem sendLtr_upd (ns : Nat) (s : State) {o_ : Option Nat} :
    Upd [.host, .pwr, .out] [] o_ s (sendLtr ns s) := by
  unfold sendLtr
  repeat' first
    | with_reducible exact Upd.refl _ _ _ _ | exact rfl | exact .inl rfl | exact .inr rfl | with_reducible assumption
    | with_reducible apply Upd.ite | with_reducible apply Upd.step' (emit_upd ..) | with_reducible apply Upd.step' (updHp_upd ..)
    | with_reducible apply Upd.foldl | split | dsimp only | intro _ | with_reducible apply Upd.set

theorem linkUp_upd (port : Port) (rate : Nat) (width : Nat) (s : State) {o_ : Option Nat} :
    Upd [.host] [] o_ s (linkUp port rate width s) := by
  unfold linkUp
  repeat' first
    | with_reducible exact Upd.refl _ _ _ _ | exact rfl | exact .inl rfl | exact .inr rfl | with_reducible assumption
    | with_reducible apply Upd.ite | with_reducible apply Upd.step' (updHp_upd ..) | with_reducible apply Upd.step' (releaseEgress_upd ..)
    | split | dsimp only | intro _

theorem execHostPortLinkUp_upd (port : Port) (rate : Nat) (width : Nat) (s : State) {o_ : Option Nat} {t : State} (h : execHostPortLinkUp port rate width s = .next t) :
    Upd [.host] [] o_ s t := by
  refine guarded_upd (fun s => ?_) h
  repeat' first
    | with_reducible exact Upd.refl _ _ _ _ | exact rfl | exact .inl rfl | exact .inr rfl | with_reducible assumption
    | with_reducible apply Upd.ite | with_reducible apply Upd.step' (linkUp_upd ..) | split | dsimp only | intro _

theorem hostPortReset_upd (port : Port) (linkDown : Bool) (s : State) {o_ : Option Nat} :
    Upd [.regs, .host] [] o_ s (hostPortReset port linkDown s) := by
  unfold hostPortReset
  repeat' first
    | with_reducible exact Upd.refl _ _ _ _ | exact rfl | exact .inl rfl | exact .inr rfl | with_reducible assumption
    | with_reducible apply Upd.ite | with_reducible apply Upd.step' (setAgreed_upd ..) | with_reducible apply Upd.step' (updHp_upd ..)
    | with_reducible apply Upd.step' (rewind_upd ..) | with_reducible apply Upd.step' (portGone_upd ..) | split | dsimp only | intro _

theorem execHostPortReset_upd (port : Port) (linkDown : Bool) (s : State) {o_ : Option Nat} {t : State} (h : execHostPortReset port linkDown s = .next t) :
    Upd [.regs, .host] [] o_ s t := by
  cases h
  repeat' first
    | with_reducible exact Upd.refl _ _ _ _ | exact rfl | exact .inl rfl | exact .inr rfl | with_reducible assumption
    | with_reducible apply Upd.ite | with_reducible apply Upd.step' (hostPortReset_upd ..) | split | dsimp only | intro _

end Sys2Proof.Machine
end

