-- ==== Sys2Proof/Laws/Loader.lean ====
section
/-! SUPPORT. What each operation of Sys2Proof/Machine/Loader.lean can change: its footprint. -/
namespace Sys2Proof.Machine
set_option linter.all false

theorem loadDales_upd (im : Loaded) (s : State) {o_ : Option Nat} :
    Upd [.dales] [] o_ s (loadDales im s) := by
  unfold loadDales
  repeat' first
    | with_reducible exact Upd.refl _ _ _ _ | exact rfl | exact .inl rfl | exact .inr rfl | with_reducible assumption
    | with_reducible apply Upd.ite | with_reducible apply Upd.step' (updDale_upd ..) | with_reducible apply Upd.foldN | split | dsimp only
    | intro _

theorem loadedCore_upd (im : Loaded) (id : Nat) (k : Nat) (mod : Nat) (l : LCore) (c : Core) : CUpd [.modeNext, .stale, .lidx, .k, .task, .modIdx, .obj, .adds, .takes, .bsn, .mx, .vx, .vlog, .vold] c (loadedCore im id k mod l c) := by
  unfold loadedCore
  repeat' first
    | with_reducible exact CUpd.refl _ _ | exact rfl | exact .inl rfl | exact .inr rfl | with_reducible assumption | split | dsimp only | intro _
    | with_reducible apply CUpd.set

theorem loadCoresWith_upd (im : Loaded) (id : Nat) (mod : Nat) (s : State) :
    Upd [.cores] [.modeNext, .stale, .lidx, .k, .task, .modIdx, .obj, .adds, .takes, .bsn, .mx, .vx, .vlog, .vold] none s (loadCoresWith im id mod s) := by
  unfold loadCoresWith
  repeat' first
    | with_reducible exact Upd.refl _ _ _ _ | exact rfl | exact .inl rfl | exact .inr rfl | with_reducible assumption
    | with_reducible apply Upd.ite | with_reducible apply eachCore_upd | with_reducible apply Upd.updCore | with_reducible exact CUpd.refl _ _
    | with_reducible apply CUpd.step (loadedCore_upd ..) | with_reducible apply CUpd.set | split | dsimp only | intro _

theorem measureLoad_upd (im : Loaded) (k : Nat) (s : State) {o_ : Option Nat} :
    Upd [.sec] [] o_ s (measureLoad im k s) := by
  unfold measureLoad
  repeat' first
    | with_reducible exact Upd.refl _ _ _ _ | exact rfl | exact .inl rfl | exact .inr rfl | with_reducible assumption
    | with_reducible apply Upd.ite | with_reducible apply Upd.step' (measure_upd ..) | split | dsimp only | intro _

theorem writeTask_upd (im : Loaded) (img : Image) (id : Nat) (mod : Nat) (seed : W64) (s : State) :
    Upd [.cores, .dales, .holds, .task, .cmt, .sec] [.modeNext, .stale, .lidx, .k, .task, .modIdx, .obj, .adds, .takes, .bsn, .mx, .vx, .vlog, .vold] none s (writeTask im img id mod seed s) := by
  unfold writeTask
  repeat' first
    | with_reducible exact Upd.refl _ _ _ _ | exact rfl | exact .inl rfl | exact .inr rfl | with_reducible assumption
    | with_reducible apply Upd.ite | with_reducible apply Upd.step' (loadDales_upd ..) | with_reducible apply Upd.step (loadCoresWith_upd ..)
    | with_reducible apply Upd.step' (measureLoad_upd ..) | split | dsimp only | intro _ | with_reducible apply Upd.set

theorem loadTask_upd (img : Image) (st : List (List W256)) (mod : Nat) (seed : W64) (s : State) :
    Upd [.cores, .dales, .holds, .task, .phase, .hbm, .cmt, .sec, .pwr, .out] [.modeNext, .stale, .lidx, .k, .task, .modIdx, .obj, .adds, .takes, .bsn, .mx, .vx, .vlog, .vold] none s (loadTask img st mod seed s) := by
  unfold loadTask
  repeat' first
    | with_reducible exact Upd.refl _ _ _ _ | exact rfl | exact .inl rfl | exact .inr rfl | with_reducible assumption
    | with_reducible apply Upd.ite | with_reducible apply Upd.step (writeTask_upd ..) | with_reducible apply Upd.step' (emit_upd ..) | split
    | dsimp only | intro _ | with_reducible apply Upd.set

end Sys2Proof.Machine
end

