-- ==== Sys2Proof/Laws/Power.lean ====
section
/-! SUPPORT. What each operation of Sys2Proof/Machine/Power.lean can change: its footprint. -/
namespace Sys2Proof.Machine
set_option linter.all false

theorem idleCheck_upd (s : State) {o_ : Option Nat} :
    Upd [.pwr] [] o_ s (idleCheck s) := by
  unfold idleCheck
  repeat' first
    | with_reducible exact Upd.refl _ _ _ _ | exact rfl | exact .inl rfl | exact .inr rfl | with_reducible assumption
    | with_reducible apply Upd.ite | split | dsimp only | intro _ | with_reducible apply Upd.set

theorem terraceEntry_upd (s : State) {o_ : Option Nat} :
    Upd [.clk, .host, .pwr, .out] [] o_ s (terraceEntry s) := by
  unfold terraceEntry
  repeat' first
    | with_reducible exact Upd.refl _ _ _ _ | exact rfl | exact .inl rfl | exact .inr rfl | with_reducible assumption
    | with_reducible apply Upd.ite | with_reducible apply Upd.step' (sendLtr_upd ..) | split | dsimp only | intro _
    | with_reducible apply Upd.set

theorem execTerraceEntry_upd (s : State) {o_ : Option Nat} {t : State} (h : execTerraceEntry s = .next t) :
    Upd [.clk, .host, .pwr, .out] [] o_ s t := by
  cases h
  repeat' first
    | with_reducible exact Upd.refl _ _ _ _ | exact rfl | exact .inl rfl | exact .inr rfl | with_reducible assumption
    | with_reducible apply Upd.ite | with_reducible apply Upd.step' (terraceEntry_upd ..) | split | dsimp only | intro _

theorem coreDark_upd (c : Core) : CUpd [.bsn] c (coreDark c) := by
  unfold coreDark
  repeat' first
    | with_reducible exact CUpd.refl _ _ | exact rfl | exact .inl rfl | exact .inr rfl | with_reducible assumption | split | dsimp only | intro _
    | with_reducible apply CUpd.set

theorem enterT3_upd (s : State) :
    Upd [.regs, .cores, .dales, .host, .trc, .pwr] [.bsn] none s (enterT3 s) := by
  unfold enterT3
  repeat' first
    | with_reducible exact Upd.refl _ _ _ _ | exact rfl | exact .inl rfl | exact .inr rfl | with_reducible assumption
    | with_reducible apply Upd.ite | with_reducible apply Upd.step' (irqRaise_upd ..) | with_reducible apply Upd.step' (setBits_upd ..)
    | with_reducible apply Upd.setMap | with_reducible exact CUpd.refl _ _ | with_reducible apply CUpd.step (coreDark_upd ..)
    | with_reducible apply CUpd.set | split | dsimp only | intro _ | with_reducible apply Upd.set

theorem coreAtRest_upd (c : Core) : CUpd [.q, .busy, .started, .came, .sigs, .job, .obj, .adds, .takes, .fe, .bsn, .mx, .pu, .vx, .ch] c (coreAtRest c) := by
  unfold coreAtRest
  repeat' first
    | with_reducible exact CUpd.refl _ _ | exact rfl | exact .inl rfl | exact .inr rfl | with_reducible assumption | split | dsimp only | intro _
    | with_reducible apply CUpd.set

theorem leaveT3_upd (s : State) :
    Upd [.cores, .dales, .pwr] [.q, .busy, .started, .came, .sigs, .job, .obj, .adds, .takes, .fe, .bsn, .mx, .pu, .vx, .ch] none s (leaveT3 s) := by
  unfold leaveT3
  repeat' first
    | with_reducible exact Upd.refl _ _ _ _ | exact rfl | exact .inl rfl | exact .inr rfl | with_reducible assumption
    | with_reducible apply Upd.ite | with_reducible apply eachCore_upd | with_reducible apply Upd.step' (loadDales_upd ..)
    | with_reducible apply Upd.updCore | with_reducible exact CUpd.refl _ _ | with_reducible apply CUpd.step (coreAtRest_upd ..)
    | with_reducible apply CUpd.set | split | dsimp only | intro _ | with_reducible apply Upd.set

theorem setTerrace_upd (t : Nat) (s : State) {o_ : Option Nat} :
    Upd [.regs, .host, .pwr, .out] [] o_ s (setTerrace t s) := by
  unfold setTerrace
  repeat' first
    | with_reducible exact Upd.refl _ _ _ _ | exact rfl | exact .inl rfl | exact .inr rfl | with_reducible assumption
    | with_reducible apply Upd.ite | with_reducible apply Upd.step' (irqRaise_upd ..) | with_reducible apply Upd.step' (sendLtr_upd ..) | split
    | dsimp only | intro _ | with_reducible apply Upd.set

theorem startNow_upd (s : State) {o_ : Option Nat} :
    Upd [.clk, .pwr] [] o_ s (startNow s) := by
  unfold startNow
  repeat' first
    | with_reducible exact Upd.refl _ _ _ _ | exact rfl | exact .inl rfl | exact .inr rfl | with_reducible assumption
    | with_reducible apply Upd.ite | with_reducible apply Upd.step' (idleCheck_upd ..) | split | dsimp only | intro _
    | with_reducible apply Upd.set

theorem t1Done_upd (s : State) {o_ : Option Nat} :
    Upd [.regs, .clk, .host, .pwr, .out] [] o_ s (t1Done s) := by
  unfold t1Done
  repeat' first
    | with_reducible exact Upd.refl _ _ _ _ | exact rfl | exact .inl rfl | exact .inr rfl | with_reducible assumption
    | with_reducible apply Upd.ite | with_reducible apply Upd.step' (setTerrace_upd ..) | split | dsimp only | intro _
    | with_reducible apply Upd.set

theorem exitNow_upd (s : State) :
    Upd [.regs, .cores, .dales, .clk, .host, .pwr, .out] [.q, .busy, .started, .came, .sigs, .job, .obj, .adds, .takes, .fe, .bsn, .mx, .pu, .vx, .ch] none s (exitNow s) := by
  unfold exitNow
  repeat' first
    | with_reducible exact Upd.refl _ _ _ _ | exact rfl | exact .inl rfl | exact .inr rfl | with_reducible assumption
    | with_reducible apply Upd.ite | with_reducible apply Upd.step' (t1Done_upd ..) | with_reducible apply Upd.step (leaveT3_upd ..)
    | with_reducible apply Upd.step' (setTerrace_upd ..) | with_reducible apply Upd.step' (startNow_upd ..) | split | dsimp only | intro _
    | with_reducible apply Upd.set

theorem trigger_upd (why : ExitTrigger) (s : State) :
    Upd [.regs, .cores, .dales, .clk, .host, .pwr, .out] [.q, .busy, .started, .came, .sigs, .job, .obj, .adds, .takes, .fe, .bsn, .mx, .pu, .vx, .ch] none s (trigger why s) := by
  unfold trigger
  repeat' first
    | with_reducible exact Upd.refl _ _ _ _ | exact rfl | exact .inl rfl | exact .inr rfl | with_reducible assumption
    | with_reducible apply Upd.ite | with_reducible apply Upd.step (exitNow_upd ..) | split | dsimp only | intro _ | with_reducible apply Upd.set

theorem terraceExit_upd (why : ExitTrigger) (s : State) :
    Upd [.regs, .cores, .dales, .clk, .host, .pwr, .out] [.q, .busy, .started, .came, .sigs, .job, .obj, .adds, .takes, .fe, .bsn, .mx, .pu, .vx, .ch] none s (terraceExit why s) := by
  unfold terraceExit
  repeat' first
    | with_reducible exact Upd.refl _ _ _ _ | exact rfl | exact .inl rfl | exact .inr rfl | with_reducible assumption
    | with_reducible apply Upd.ite | with_reducible apply Upd.step (trigger_upd ..) | split | dsimp only | intro _

theorem execTerraceExit_upd (why : ExitTrigger) (s : State) {t : State} (h : execTerraceExit why s = .next t) :
    Upd [.regs, .cores, .dales, .clk, .host, .pwr, .out] [.q, .busy, .started, .came, .sigs, .job, .obj, .adds, .takes, .fe, .bsn, .mx, .pu, .vx, .ch] none s t := by
  cases h
  repeat' first
    | with_reducible exact Upd.refl _ _ _ _ | exact rfl | exact .inl rfl | exact .inr rfl | with_reducible assumption
    | with_reducible apply Upd.ite | with_reducible apply Upd.step (terraceExit_upd ..) | split | dsimp only | intro _

theorem execPwrWake_upd (port : Port) (s : State) {t : State} (h : execPwrWake port s = .next t) :
    Upd [.regs, .cores, .dales, .clk, .host, .pwr, .out] [.q, .busy, .started, .came, .sigs, .job, .obj, .adds, .takes, .fe, .bsn, .mx, .pu, .vx, .ch] none s t := by
  cases h
  repeat' first
    | with_reducible exact Upd.refl _ _ _ _ | exact rfl | exact .inl rfl | exact .inr rfl | with_reducible assumption
    | with_reducible apply Upd.ite | with_reducible apply woGate_upd | with_reducible apply Upd.step (trigger_upd ..) | split | dsimp only
    | intro _

theorem ltrWrite_upd (port : Port) (ns : Option Nat) (s : State) :
    Upd [.regs, .cores, .dales, .clk, .host, .pwr, .out] [.q, .busy, .started, .came, .sigs, .job, .obj, .adds, .takes, .fe, .bsn, .mx, .pu, .vx, .ch] none s (ltrWrite port ns s) := by
  unfold ltrWrite
  repeat' first
    | with_reducible exact Upd.refl _ _ _ _ | exact rfl | exact .inl rfl | exact .inr rfl | with_reducible assumption
    | with_reducible apply Upd.ite | with_reducible apply Upd.step (terraceExit_upd ..) | with_reducible apply Upd.step' (sendLtr_upd ..)
    | with_reducible apply Upd.step' (updHp_upd ..) | split | dsimp only | intro _

theorem execLtrToleranceWrite_upd (port : Port) (ns : Option Nat) (s : State) {t : State} (h : execLtrToleranceWrite port ns s = .next t) :
    Upd [.regs, .cores, .dales, .clk, .host, .pwr, .out] [.q, .busy, .started, .came, .sigs, .job, .obj, .adds, .takes, .fe, .bsn, .mx, .pu, .vx, .ch] none s t := by
  cases h
  repeat' first
    | with_reducible exact Upd.refl _ _ _ _ | exact rfl | exact .inl rfl | exact .inr rfl | with_reducible assumption
    | with_reducible apply Upd.ite | with_reducible apply Upd.step (ltrWrite_upd ..) | split | dsimp only | intro _

theorem shutdownDone_upd (s : State) :
    Upd [.regs, .cores, .dales, .clk, .host, .trc, .pwr, .out] [.q, .busy, .started, .came, .sigs, .job, .obj, .adds, .takes, .fe, .bsn, .mx, .pu, .vx, .ch] none s (shutdownDone s) := by
  unfold shutdownDone
  repeat' first
    | with_reducible exact Upd.refl _ _ _ _ | exact rfl | exact .inl rfl | exact .inr rfl | with_reducible assumption
    | with_reducible apply Upd.ite | with_reducible apply Upd.step' (setTerrace_upd ..) | with_reducible apply Upd.step (enterT3_upd ..)
    | with_reducible apply Upd.step (exitNow_upd ..) | split | dsimp only | intro _ | with_reducible apply Upd.set

theorem execTerraceShutdownDone_upd (s : State) {t : State} (h : execTerraceShutdownDone s = .next t) :
    Upd [.regs, .cores, .dales, .clk, .host, .trc, .pwr, .out] [.q, .busy, .started, .came, .sigs, .job, .obj, .adds, .takes, .fe, .bsn, .mx, .pu, .vx, .ch] none s t := by
  cases h
  repeat' first
    | with_reducible exact Upd.refl _ _ _ _ | exact rfl | exact .inl rfl | exact .inr rfl | with_reducible assumption
    | with_reducible apply Upd.ite | with_reducible apply Upd.step (shutdownDone_upd ..) | split | dsimp only | intro _

theorem tickStart_upd (port : Port) (s : State) :
    Upd [.regs, .cores, .dales, .clk, .host, .pwr, .out] [.q, .busy, .started, .came, .sigs, .job, .obj, .adds, .takes, .fe, .bsn, .mx, .pu, .vx, .ch] none s (tickStart port s) := by
  unfold tickStart
  repeat' first
    | with_reducible exact Upd.refl _ _ _ _ | exact rfl | exact .inl rfl | exact .inr rfl | with_reducible assumption
    | with_reducible apply Upd.ite | with_reducible apply Upd.step' (refuseWrite_upd ..) | with_reducible apply Upd.step' (setReg_upd ..)
    | with_reducible apply Upd.step (trigger_upd ..) | with_reducible apply Upd.step' (startNow_upd ..) | split | dsimp only | intro _
    | with_reducible apply Upd.set

theorem execTickStart_upd (port : Port) (s : State) {t : State} (h : execTickStart port s = .next t) :
    Upd [.regs, .cores, .dales, .clk, .host, .pwr, .out] [.q, .busy, .started, .came, .sigs, .job, .obj, .adds, .takes, .fe, .bsn, .mx, .pu, .vx, .ch] none s t := by
  cases h
  repeat' first
    | with_reducible exact Upd.refl _ _ _ _ | exact rfl | exact .inl rfl | exact .inr rfl | with_reducible assumption
    | with_reducible apply Upd.ite | with_reducible apply hostGate_upd | with_reducible apply Upd.step (tickStart_upd ..) | split | dsimp only
    | intro _

theorem wiped_upd (s : State) :
    Upd [.regs, .evts, .cores, .dales, .holds, .clk, .task, .phase, .hbm, .cmt, .host, .fab, .sec, .trc, .pwr, .ctl]
      [.mode, .modeNext, .fenced, .stale, .lidx, .k, .task, .modIdx, .q, .busy, .started, .came, .sigs, .job, .obj, .adds,
       .takes, .pubObj, .pubEp, .pubEpoch, .pubFord, .rst, .fe, .bsn, .mx, .pu, .vx, .ch, .th, .pc, .vlog, .vold, .issue] none s (wiped s) := by
  unfold wiped
  apply Upd.setAll
  all_goals first | exact .inl rfl | exact .inr rfl | exact Upd.refl _ _ _ _ | exact rfl | (intro x; cases x <;> rfl)

theorem powerOn_upd (vin : Nat) (slotId : Nat) (recovery : Bool) (s : State) :
    Upd [.regs, .evts, .cores, .dales, .holds, .clk, .task, .phase, .hbm, .cmt, .host, .fab, .sec, .trc, .pwr, .ctl]
      [.mode, .modeNext, .fenced, .stale, .lidx, .k, .task, .modIdx, .q, .busy, .started, .came, .sigs, .job, .obj, .adds,
       .takes, .pubObj, .pubEp, .pubEpoch, .pubFord, .rst, .fe, .bsn, .mx, .pu, .vx, .ch, .th, .pc, .vlog, .vold, .issue] none s (powerOn vin slotId recovery s) := by
  unfold powerOn
  have h := wiped_upd s
  split
  · exact Upd.refl _ _ _ _
  · split
    · with_reducible apply Upd.set
      all_goals first | exact .inl rfl | exact .inr rfl | exact Upd.refl _ _ _ _
    · generalize wiped s = w at h
      with_reducible apply Upd.set
      all_goals first | exact .inl rfl | exact .inr rfl | exact h

theorem execPowerOn_upd (vin : Nat) (slotId : Nat) (recovery : Bool) (s : State) {t : State} (h : execPowerOn vin slotId recovery s = .next t) :
    Upd [.regs, .evts, .cores, .dales, .holds, .clk, .task, .phase, .hbm, .cmt, .host, .fab, .sec, .trc, .pwr, .ctl] [.mode, .modeNext, .fenced, .stale, .lidx, .k, .task, .modIdx, .q, .busy, .started, .came, .sigs, .job, .obj, .adds, .takes, .pubObj, .pubEp, .pubEpoch, .pubFord, .rst, .fe, .bsn, .mx, .pu, .vx, .ch, .th, .pc, .vlog, .vold, .issue] none s t := by
  cases h
  repeat' first
    | with_reducible exact Upd.refl _ _ _ _ | exact rfl | exact .inl rfl | exact .inr rfl | with_reducible assumption
    | with_reducible apply Upd.ite | with_reducible apply Upd.step (powerOn_upd ..) | split | dsimp only | intro _

theorem powerOff_upd (vin : Nat) (s : State) :
    Upd [.regs, .evts, .cores, .dales, .holds, .clk, .task, .phase, .hbm, .cmt, .host, .fab, .sec, .trc, .pwr, .ctl]
      [.mode, .modeNext, .fenced, .stale, .lidx, .k, .task, .modIdx, .q, .busy, .started, .came, .sigs, .job, .obj, .adds,
       .takes, .pubObj, .pubEp, .pubEpoch, .pubFord, .rst, .fe, .bsn, .mx, .pu, .vx, .ch, .th, .pc, .vlog, .vold, .issue] none s (powerOff vin s) := by
  unfold powerOff
  have h := wiped_upd s
  generalize wiped s = w at h
  with_reducible apply Upd.set
  all_goals first | exact .inl rfl | exact .inr rfl | exact h

theorem execPowerDown_upd (vin : Nat) (s : State) {t : State} (h : execPowerDown vin s = .next t) :
    Upd [.regs, .evts, .cores, .dales, .holds, .clk, .task, .phase, .hbm, .cmt, .host, .fab, .sec, .trc, .pwr, .ctl] [.mode, .modeNext, .fenced, .stale, .lidx, .k, .task, .modIdx, .q, .busy, .started, .came, .sigs, .job, .obj, .adds, .takes, .pubObj, .pubEp, .pubEpoch, .pubFord, .rst, .fe, .bsn, .mx, .pu, .vx, .ch, .th, .pc, .vlog, .vold, .issue] none s t := by
  cases h
  repeat' first
    | with_reducible exact Upd.refl _ _ _ _ | exact rfl | exact .inl rfl | exact .inr rfl | with_reducible assumption
    | with_reducible apply Upd.ite | with_reducible apply Upd.step (powerOff_upd ..) | split | dsimp only | intro _

theorem execOvervoltageShutoff_upd (vin : Nat) (s : State) {t : State} (h : execOvervoltageShutoff vin s = .next t) :
    Upd [.regs, .evts, .cores, .dales, .holds, .clk, .task, .phase, .hbm, .cmt, .host, .fab, .sec, .trc, .pwr, .ctl] [.mode, .modeNext, .fenced, .stale, .lidx, .k, .task, .modIdx, .q, .busy, .started, .came, .sigs, .job, .obj, .adds, .takes, .pubObj, .pubEp, .pubEpoch, .pubFord, .rst, .fe, .bsn, .mx, .pu, .vx, .ch, .th, .pc, .vlog, .vold, .issue] none s t := by
  cases h
  repeat' first
    | with_reducible exact Upd.refl _ _ _ _ | exact rfl | exact .inl rfl | exact .inr rfl | with_reducible assumption
    | with_reducible apply Upd.ite | with_reducible apply Upd.step (powerOff_upd ..) | split | dsimp only | intro _

theorem moduleReset_upd (both : Bool) (s : State) :
    Upd [.regs, .evts, .cores, .dales, .holds, .clk, .task, .phase, .hbm, .cmt, .host, .fab, .sec, .trc, .pwr, .ctl]
      [.mode, .modeNext, .fenced, .stale, .lidx, .k, .task, .modIdx, .q, .busy, .started, .came, .sigs, .job, .obj, .adds,
       .takes, .pubObj, .pubEp, .pubEpoch, .pubFord, .rst, .fe, .bsn, .mx, .pu, .vx, .ch, .th, .pc, .vlog, .vold, .issue] none s (moduleReset both s) := by
  unfold moduleReset
  have h := wiped_upd s
  split
  · exact Upd.refl _ _ _ _
  · generalize wiped s = w at h
    with_reducible apply Upd.set
    all_goals first | exact .inl rfl | exact .inr rfl | exact h

theorem execModuleReset_upd (both : Bool) (s : State) {t : State} (h : execModuleReset both s = .next t) :
    Upd [.regs, .evts, .cores, .dales, .holds, .clk, .task, .phase, .hbm, .cmt, .host, .fab, .sec, .trc, .pwr, .ctl] [.mode, .modeNext, .fenced, .stale, .lidx, .k, .task, .modIdx, .q, .busy, .started, .came, .sigs, .job, .obj, .adds, .takes, .pubObj, .pubEp, .pubEpoch, .pubFord, .rst, .fe, .bsn, .mx, .pu, .vx, .ch, .th, .pc, .vlog, .vold, .issue] none s t := by
  cases h
  repeat' first
    | with_reducible exact Upd.refl _ _ _ _ | exact rfl | exact .inl rfl | exact .inr rfl | with_reducible assumption
    | with_reducible apply Upd.ite | with_reducible apply Upd.step (moduleReset_upd ..) | split | dsimp only | intro _

theorem resetRelease_upd (perstA : Bool) (perstB : Bool) (slotId : Nat) (recovery : Bool) (s : State) {o_ : Option Nat} :
    Upd [.host, .pwr] [] o_ s (resetRelease perstA perstB slotId recovery s) := by
  unfold resetRelease
  repeat' first
    | with_reducible exact Upd.refl _ _ _ _ | exact rfl | exact .inl rfl | exact .inr rfl | with_reducible assumption
    | with_reducible apply Upd.ite | with_reducible apply Upd.step' (updHp_upd ..) | split | dsimp only | intro _ | with_reducible apply Upd.set

theorem execModuleResetRelease_upd (perstA : Bool) (perstB : Bool) (slotId : Nat) (recovery : Bool) (s : State) {o_ : Option Nat} {t : State} (h : execModuleResetRelease perstA perstB slotId recovery s = .next t) :
    Upd [.host, .pwr] [] o_ s t := by
  cases h
  repeat' first
    | with_reducible exact Upd.refl _ _ _ _ | exact rfl | exact .inl rfl | exact .inr rfl | with_reducible assumption
    | with_reducible apply Upd.ite | with_reducible apply Upd.step' (resetRelease_upd ..) | split | dsimp only | intro _

theorem retireKey_upd (s : State) {o_ : Option Nat} :
    Upd [.regs, .host, .sec] [] o_ s (retireKey s) := by
  unfold retireKey
  repeat' first
    | with_reducible exact Upd.refl _ _ _ _ | exact rfl | exact .inl rfl | exact .inr rfl | with_reducible assumption
    | with_reducible apply Upd.ite | with_reducible apply Upd.step' (irqRaise_upd ..) | split | dsimp only | intro _
    | with_reducible apply Upd.set

theorem bootFirmware_upd (k : Nat) (s : State) {o_ : Option Nat} :
    Upd [.regs, .host, .sec, .pwr] [] o_ s (bootFirmware k s) := by
  unfold bootFirmware
  repeat' first
    | with_reducible exact Upd.refl _ _ _ _ | exact rfl | exact .inl rfl | exact .inr rfl | with_reducible assumption
    | with_reducible apply Upd.ite | with_reducible apply Upd.step' (measure_upd ..) | with_reducible apply Upd.step' (retireKey_upd ..) | split
    | dsimp only | intro _ | with_reducible apply Upd.set

theorem mapRow_upd (p : Nat) (k : Nat) (sp : Nat) (s : State) :
    Upd [.cores] [.bsn] (some p) s (mapRow p k sp s) := by
  unfold mapRow
  repeat' first
    | with_reducible exact Upd.refl _ _ _ _ | exact rfl | exact .inl rfl | exact .inr rfl | with_reducible assumption
    | with_reducible apply Upd.ite | with_reducible apply Upd.updCore | with_reducible exact CUpd.refl _ _ | with_reducible apply CUpd.set
    | split | dsimp only | intro _

theorem bootRows_upd (s : State) :
    Upd [.cores] [.bsn] none s (bootRows s) := by
  unfold bootRows
  repeat' first
    | with_reducible exact Upd.refl _ _ _ _ | exact rfl | exact .inl rfl | exact .inr rfl | with_reducible assumption
    | with_reducible apply Upd.ite | with_reducible apply Upd.step (mapRow_upd ..) | with_reducible apply Upd.foldl
    | with_reducible apply Upd.foldl_snd | with_reducible apply Upd.foldl_fst | split | dsimp only | intro _

theorem bootBist_upd (l : List Nat) (s : State) :
    Upd [.cores, .fab, .pwr] [.fenced] none s (bootBist l s) := by
  unfold bootBist
  repeat' first
    | with_reducible exact Upd.refl _ _ _ _ | exact rfl | exact .inl rfl | exact .inr rfl | with_reducible assumption
    | with_reducible apply Upd.ite | with_reducible apply Upd.updCore | with_reducible exact CUpd.refl _ _ | with_reducible apply CUpd.foldN
    | with_reducible apply CUpd.set | with_reducible apply Upd.foldl | split | dsimp only | intro _ | with_reducible apply Upd.set

theorem bootPorts_upd (s : State) {o_ : Option Nat} :
    Upd [.fab] [] o_ s (bootPorts s) := by
  unfold bootPorts
  repeat' first
    | with_reducible exact Upd.refl _ _ _ _ | exact rfl | exact .inl rfl | exact .inr rfl | with_reducible assumption
    | with_reducible apply Upd.ite | with_reducible apply Upd.step' (updLp_upd ..) | with_reducible apply Upd.foldN | split | dsimp only
    | intro _

theorem boot_upd (f : BootFinds) (s : State) :
    Upd [.regs, .cores, .hbm, .host, .fab, .sec, .pwr] [.fenced, .bsn] none s (boot f s) := by
  unfold boot
  repeat' first
    | with_reducible exact Upd.refl _ _ _ _ | exact rfl | exact .inl rfl | exact .inr rfl | with_reducible assumption
    | with_reducible apply Upd.ite | with_reducible apply Upd.step (bootRows_upd ..) | with_reducible apply Upd.step' (bootFirmware_upd ..)
    | with_reducible apply Upd.step' (bootPorts_upd ..) | with_reducible apply Upd.step (bootBist_upd ..) | split | dsimp only | intro _
    | with_reducible apply Upd.set

theorem execBoot_upd (f : BootFinds) (s : State) {t : State} (h : execBoot f s = .next t) :
    Upd [.regs, .cores, .hbm, .host, .fab, .sec, .pwr] [.fenced, .bsn] none s t := by
  cases h
  repeat' first
    | with_reducible exact Upd.refl _ _ _ _ | exact rfl | exact .inl rfl | exact .inr rfl | with_reducible assumption
    | with_reducible apply Upd.ite | with_reducible apply Upd.step (boot_upd ..) | split | dsimp only | intro _

theorem setTemps_upd (die0 : Nat) (die1 : Nat) (hbmT : List Nat) (s : State) {o_ : Option Nat} :
    Upd [.pwr] [] o_ s (setTemps die0 die1 hbmT s) := by
  unfold setTemps
  repeat' first
    | with_reducible exact Upd.refl _ _ _ _ | exact rfl | exact .inl rfl | exact .inr rfl | with_reducible assumption
    | with_reducible apply Upd.ite | split | dsimp only | intro _ | with_reducible apply Upd.set

theorem thermalAlert_upd (die0 : Nat) (die1 : Nat) (hbmT : List Nat) (s : State) {o_ : Option Nat} :
    Upd [.pwr] [] o_ s (thermalAlert die0 die1 hbmT s) := by
  unfold thermalAlert
  repeat' first
    | with_reducible exact Upd.refl _ _ _ _ | exact rfl | exact .inl rfl | exact .inr rfl | with_reducible assumption
    | with_reducible apply Upd.ite | with_reducible apply Upd.step' (setTemps_upd ..) | split | dsimp only | intro _
    | with_reducible apply Upd.set

theorem thermalThrottle_upd (die0 : Nat) (die1 : Nat) (hbmT : List Nat) (s : State) {o_ : Option Nat} :
    Upd [.regs, .clk, .host, .pwr, .out] [] o_ s (thermalThrottle die0 die1 hbmT s) := by
  unfold thermalThrottle
  repeat' first
    | with_reducible exact Upd.refl _ _ _ _ | exact rfl | exact .inl rfl | exact .inr rfl | with_reducible assumption
    | with_reducible apply Upd.ite | with_reducible apply Upd.step' (thermalAlert_upd ..) | with_reducible apply Upd.step' (lowerFop_upd ..)
    | split | dsimp only | intro _ | with_reducible apply Upd.set

theorem throttleTick_upd (s : State) {o_ : Option Nat} :
    Upd [.regs, .clk, .host, .pwr, .out] [] o_ s (throttleTick s) := by
  unfold throttleTick
  repeat' first
    | with_reducible exact Upd.refl _ _ _ _ | exact rfl | exact .inl rfl | exact .inr rfl | with_reducible assumption
    | with_reducible apply Upd.ite | with_reducible apply Upd.step' (lowerFop_upd ..) | split | dsimp only | intro _
    | with_reducible apply Upd.set

theorem trip_upd (s : State) :
    Upd [.cores, .dales, .holds, .clk, .hbm, .host, .fab, .pwr] [.mode, .modeNext, .fenced, .stale, .lidx, .k, .task, .modIdx, .q, .busy, .started, .came, .sigs, .job, .obj, .adds, .takes, .pubObj, .pubEp, .pubEpoch, .pubFord, .rst, .fe, .bsn, .mx, .pu, .vx, .ch, .th, .pc, .vlog, .vold, .issue] none s (trip s) := by
  unfold trip
  repeat' first
    | with_reducible exact Upd.refl _ _ _ _ | exact rfl | exact .inl rfl | exact .inr rfl | with_reducible assumption
    | with_reducible apply Upd.ite | with_reducible apply Upd.setAll | (intro x; cases x <;> rfl) | split | dsimp only | intro _
    | with_reducible apply Upd.set

theorem thermalTrip_upd (die0 : Nat) (die1 : Nat) (hbmT : List Nat) (s : State) :
    Upd [.regs, .cores, .dales, .holds, .clk, .hbm, .host, .fab, .pwr, .out] [.mode, .modeNext, .fenced, .stale, .lidx, .k, .task, .modIdx, .q, .busy, .started, .came, .sigs, .job, .obj, .adds, .takes, .pubObj, .pubEp, .pubEpoch, .pubFord, .rst, .fe, .bsn, .mx, .pu, .vx, .ch, .th, .pc, .vlog, .vold, .issue] none s (thermalTrip die0 die1 hbmT s) := by
  unfold thermalTrip
  repeat' first
    | with_reducible exact Upd.refl _ _ _ _ | exact rfl | exact .inl rfl | exact .inr rfl | with_reducible assumption
    | with_reducible apply Upd.ite | with_reducible apply Upd.step' (thermalThrottle_upd ..) | with_reducible apply Upd.step (trip_upd ..)
    | split | dsimp only | intro _

theorem sensed_upd {F : List SFld} {D : List CFld} {k : Option Nat} {b s : State} {f : State → State}
    (he : ∀ t, Upd F D k t (f t)) (h : Upd F D k b s) : Upd F D k b (sensed f s) := by
  unfold sensed
  split
  · exact h.trans (he _)
  · exact h

theorem execThermalAlert_upd (die0 : Nat) (die1 : Nat) (hbmT : List Nat) (s : State) {o_ : Option Nat} {t : State} (h : execThermalAlert die0 die1 hbmT s = .next t) :
    Upd [.pwr] [] o_ s t := by
  cases h
  repeat' first
    | with_reducible exact Upd.refl _ _ _ _ | exact rfl | exact .inl rfl | exact .inr rfl | with_reducible assumption
    | with_reducible apply Upd.ite | with_reducible apply sensed_upd | with_reducible apply Upd.step' (thermalAlert_upd ..) | split | dsimp only
    | intro _

theorem execThermalThrottle_upd (die0 : Nat) (die1 : Nat) (hbmT : List Nat) (s : State) {o_ : Option Nat} {t : State} (h : execThermalThrottle die0 die1 hbmT s = .next t) :
    Upd [.regs, .clk, .host, .pwr, .out] [] o_ s t := by
  cases h
  repeat' first
    | with_reducible exact Upd.refl _ _ _ _ | exact rfl | exact .inl rfl | exact .inr rfl | with_reducible assumption
    | with_reducible apply Upd.ite | with_reducible apply sensed_upd | with_reducible apply Upd.step' (thermalThrottle_upd ..) | split
    | dsimp only | intro _

theorem execThermalTrip_upd (die0 : Nat) (die1 : Nat) (hbmT : List Nat) (s : State) {t : State} (h : execThermalTrip die0 die1 hbmT s = .next t) :
    Upd [.regs, .cores, .dales, .holds, .clk, .hbm, .host, .fab, .pwr, .out] [.mode, .modeNext, .fenced, .stale, .lidx, .k, .task, .modIdx, .q, .busy, .started, .came, .sigs, .job, .obj, .adds, .takes, .pubObj, .pubEp, .pubEpoch, .pubFord, .rst, .fe, .bsn, .mx, .pu, .vx, .ch, .th, .pc, .vlog, .vold, .issue] none s t := by
  cases h
  repeat' first
    | with_reducible exact Upd.refl _ _ _ _ | exact rfl | exact .inl rfl | exact .inr rfl | with_reducible assumption
    | with_reducible apply Upd.ite | with_reducible apply sensed_upd | with_reducible apply Upd.step (thermalTrip_upd ..) | split | dsimp only
    | intro _

end Sys2Proof.Machine
end

