-- ==== Sys2Proof/Laws/Secure.lean ====
section
/-! SUPPORT. What each operation of Sys2Proof/Machine/Secure.lean can change: its footprint. -/
namespace Sys2Proof.Machine
set_option linter.all false

theorem auditRing_upd (b : List Byte) (s : State) {o_ : Option Nat} :
    Upd [.host] [] o_ s (auditRing b s) := by
  unfold auditRing
  repeat' first
    | with_reducible exact Upd.refl _ _ _ _ | exact rfl | exact .inl rfl | exact .inr rfl | with_reducible assumption
    | with_reducible apply Upd.ite | with_reducible apply Upd.step' (pushRing_upd ..) | split | dsimp only | intro _

theorem addLink_upd (slot : Nat) (link : List Byte) (s : State) {o_ : Option Nat} :
    Upd [.sec] [] o_ s (addLink slot link s) := by
  unfold addLink
  repeat' first
    | with_reducible exact Upd.refl _ _ _ _ | exact rfl | exact .inl rfl | exact .inr rfl | with_reducible assumption
    | with_reducible apply Upd.ite | split | dsimp only | intro _ | with_reducible apply Upd.set

theorem genesisLink_upd (slot : Nat) (s : State) {o_ : Option Nat} :
    Upd [.sec] [] o_ s (genesisLink slot s) := by
  unfold genesisLink
  repeat' first
    | with_reducible exact Upd.refl _ _ _ _ | exact rfl | exact .inl rfl | exact .inr rfl | with_reducible assumption
    | with_reducible apply Upd.ite | with_reducible apply Upd.step' (addLink_upd ..) | split | dsimp only | intro _
    | with_reducible apply Upd.set

theorem closeEpoch_upd (s : State) {o_ : Option Nat} :
    Upd [.sec] [] o_ s (closeEpoch s) := by
  unfold closeEpoch
  repeat' first
    | with_reducible exact Upd.refl _ _ _ _ | exact rfl | exact .inl rfl | exact .inr rfl | with_reducible assumption
    | with_reducible apply Upd.ite | split | dsimp only | intro _ | with_reducible apply Upd.set

theorem epochBoundary_upd (s : State) {o_ : Option Nat} :
    Upd [.sec] [] o_ s (epochBoundary s) := by
  unfold epochBoundary
  repeat' first
    | with_reducible exact Upd.refl _ _ _ _ | exact rfl | exact .inl rfl | exact .inr rfl | with_reducible assumption
    | with_reducible apply Upd.ite | with_reducible apply Upd.step' (closeEpoch_upd ..) | split | dsimp only | intro _
    | with_reducible apply Upd.set

theorem finalRecord_upd (s : State) {o_ : Option Nat} :
    Upd [.sec] [] o_ s (finalRecord s) := by
  unfold finalRecord
  repeat' first
    | with_reducible exact Upd.refl _ _ _ _ | exact rfl | exact .inl rfl | exact .inr rfl | with_reducible assumption
    | with_reducible apply Upd.ite | with_reducible apply Upd.step' (closeEpoch_upd ..) | split | dsimp only | intro _

theorem refixK_upd (s : State) {o_ : Option Nat} :
    Upd [.sec] [] o_ s (refixK s) := by
  unfold refixK
  repeat' first
    | with_reducible exact Upd.refl _ _ _ _ | exact rfl | exact .inl rfl | exact .inr rfl | with_reducible assumption
    | with_reducible apply Upd.ite | with_reducible apply Upd.step' (finalRecord_upd ..) | split | dsimp only | intro _
    | with_reducible apply Upd.set

theorem reserveIndex_upd (s : State) {o_ : Option Nat} {t_ : State} (h_ : reserveIndex s = some t_) : Upd [.sec] [] o_ s t_ := by
  unfold reserveIndex at h_
  split at h_
  · exact absurd h_ nofun
  · split at h_
    · exact Option.some.inj h_ ▸ Upd.refl _ _ _ _
    · split at h_
      · exact absurd h_ nofun
      · dsimp only at h_
        rw [← Option.some.inj h_]
        apply Upd.set
        all_goals first | exact .inl rfl | exact .inr rfl | exact Upd.refl _ _ _ _

theorem signHead_upd (s : State) {o_ : Option Nat} :
    Upd [.regs, .host, .sec, .fresh] [] o_ s (signHead s) := by
  unfold signHead
  repeat' first
    | with_reducible exact Upd.refl _ _ _ _ | exact rfl | exact .inl rfl | exact .inr rfl | with_reducible assumption
    | with_reducible apply Upd.ite | with_reducible apply Upd.step' (reserveIndex_upd _ ‹reserveIndex _ = some _›)
    | with_reducible apply Upd.step' (retireKey_upd ..) | with_reducible apply Upd.step' (irqRaise_upd ..)
    | with_reducible apply Upd.step' (auditRing_upd ..) | with_reducible apply Upd.step' (drawn_upd ..) | split | dsimp only | intro _
    | with_reducible apply Upd.set

theorem execSignatureComplete_upd (s : State) {o_ : Option Nat} {t : State} (h : execSignatureComplete s = .next t) :
    Upd [.regs, .host, .sec, .fresh] [] o_ s t := by
  cases h
  repeat' first
    | with_reducible exact Upd.refl _ _ _ _ | exact rfl | exact .inl rfl | exact .inr rfl | with_reducible assumption
    | with_reducible apply Upd.ite | with_reducible apply Upd.step' (signHead_upd ..) | split | dsimp only | intro _

theorem epochRecord_upd (s : State) {o_ : Option Nat} :
    Upd [.regs, .host, .sec, .fresh] [] o_ s (epochRecord s) := by
  unfold epochRecord
  repeat' first
    | with_reducible exact Upd.refl _ _ _ _ | exact rfl | exact .inl rfl | exact .inr rfl | with_reducible assumption
    | with_reducible apply Upd.ite | with_reducible apply Upd.step' (signHead_upd ..) | split | dsimp only | intro _

theorem execEpochRecord_upd (s : State) {o_ : Option Nat} {t : State} (h : execEpochRecord s = .next t) :
    Upd [.regs, .host, .sec, .fresh] [] o_ s t := by
  cases h
  repeat' first
    | with_reducible exact Upd.refl _ _ _ _ | exact rfl | exact .inl rfl | exact .inr rfl | with_reducible assumption
    | with_reducible apply Upd.ite | with_reducible apply Upd.step' (epochRecord_upd ..) | split | dsimp only | intro _

theorem attest_upd (s : State) {o_ : Option Nat} :
    Upd [.regs, .host, .sec] [] o_ s (attest s) := by
  unfold attest
  repeat' first
    | with_reducible exact Upd.refl _ _ _ _ | exact rfl | exact .inl rfl | exact .inr rfl | with_reducible assumption
    | with_reducible apply Upd.ite | with_reducible apply Upd.step' (setBits_upd ..) | split | dsimp only | intro _
    | with_reducible apply Upd.set

theorem execAttest_upd (port : Port) (s : State) {o_ : Option Nat} {t : State} (h : execAttest port s = .next t) :
    Upd [.regs, .host, .sec] [] o_ s t := by
  cases h
  repeat' first
    | with_reducible exact Upd.refl _ _ _ _ | exact rfl | exact .inl rfl | exact .inr rfl | with_reducible assumption
    | with_reducible apply Upd.ite | with_reducible apply woGate_upd | with_reducible apply Upd.step' (attest_upd ..) | split | dsimp only
    | intro _

theorem cert_upd (s : State) {o_ : Option Nat} :
    Upd [.host, .fresh] [] o_ s (cert s) := by
  unfold cert
  repeat' first
    | with_reducible exact Upd.refl _ _ _ _ | exact rfl | exact .inl rfl | exact .inr rfl | with_reducible assumption
    | with_reducible apply Upd.ite | with_reducible apply Upd.step' (drawn_upd ..) | with_reducible apply Upd.step' (auditRing_upd ..) | split
    | dsimp only | intro _

theorem execCert_upd (port : Port) (s : State) {o_ : Option Nat} {t : State} (h : execCert port s = .next t) :
    Upd [.regs, .host, .fresh] [] o_ s t := by
  cases h
  repeat' first
    | with_reducible exact Upd.refl _ _ _ _ | exact rfl | exact .inl rfl | exact .inr rfl | with_reducible assumption
    | with_reducible apply Upd.ite | with_reducible apply woGate_upd | with_reducible apply Upd.step' (cert_upd ..) | split | dsimp only
    | intro _

theorem svnCommit_upd (port : Port) (s : State) {o_ : Option Nat} :
    Upd [.regs, .host, .sec] [] o_ s (svnCommit port s) := by
  unfold svnCommit
  repeat' first
    | with_reducible exact Upd.refl _ _ _ _ | exact rfl | exact .inl rfl | exact .inr rfl | with_reducible assumption
    | with_reducible apply Upd.ite | with_reducible apply Upd.step' (refuseWrite_upd ..) | split | dsimp only | intro _
    | with_reducible apply Upd.set

theorem execSvnCommit_upd (port : Port) (s : State) {o_ : Option Nat} {t : State} (h : execSvnCommit port s = .next t) :
    Upd [.regs, .host, .sec] [] o_ s t := by
  cases h
  repeat' first
    | with_reducible exact Upd.refl _ _ _ _ | exact rfl | exact .inl rfl | exact .inr rfl | with_reducible assumption
    | with_reducible apply Upd.ite | with_reducible apply hostGate_upd | with_reducible apply Upd.step' (svnCommit_upd ..) | split | dsimp only
    | intro _

theorem snapshot_upd (s : State) {o_ : Option Nat} :
    Upd [.sec] [] o_ s (snapshot s) := by
  unfold snapshot
  repeat' first
    | with_reducible exact Upd.refl _ _ _ _ | exact rfl | exact .inl rfl | exact .inr rfl | with_reducible assumption
    | with_reducible apply Upd.ite | with_reducible apply Upd.step' (addLink_upd ..) | with_reducible apply Upd.step' (genesisLink_upd ..)
    | split | dsimp only | intro _

theorem execAuditSnapshot_upd (port : Port) (s : State) {o_ : Option Nat} {t : State} (h : execAuditSnapshot port s = .next t) :
    Upd [.regs, .host, .sec] [] o_ s t := by
  cases h
  repeat' first
    | with_reducible exact Upd.refl _ _ _ _ | exact rfl | exact .inl rfl | exact .inr rfl | with_reducible assumption
    | with_reducible apply Upd.ite | with_reducible apply woGate_upd | with_reducible apply Upd.step' (snapshot_upd ..) | split | dsimp only
    | intro _

end Sys2Proof.Machine
end

