-- ==== Sys2Proof/Laws/Journal.lean ====
section
/-! SUPPORT. What each operation of Sys2Proof/Machine/Journal.lean can change: its footprint. -/
namespace Sys2Proof.Machine
set_option linter.all false

theorem updRecs_upd (slot : Nat) (f : JEnt → JEnt) (s : State) {o_ : Option Nat} :
    Upd [.cmt] [] o_ s (updRecs slot f s) := by
  unfold updRecs
  repeat' first
    | with_reducible exact Upd.refl _ _ _ _ | exact rfl | exact .inl rfl | exact .inr rfl | with_reducible assumption
    | with_reducible apply Upd.ite | split | dsimp only | intro _ | with_reducible apply Upd.set

theorem freeEntries_upd (s : State) {o_ : Option Nat} :
    Upd [.cmt] [] o_ s (freeEntries s) := by
  unfold freeEntries
  repeat' first
    | with_reducible exact Upd.refl _ _ _ _ | exact rfl | exact .inl rfl | exact .inr rfl | with_reducible assumption
    | with_reducible apply Upd.ite | split | dsimp only | intro _ | with_reducible apply Upd.set

theorem drainBank_upd (die : Nat) (s : State) {o_ : Option Nat} :
    Upd [.cmt, .host] [] o_ s (drainBank die s) := by
  unfold drainBank
  repeat' first
    | with_reducible exact Upd.refl _ _ _ _ | exact rfl | exact .inl rfl | exact .inr rfl | with_reducible assumption
    | with_reducible apply Upd.ite | with_reducible apply Upd.step' (updHp_upd ..) | split | dsimp only | intro _ | with_reducible apply Upd.set

theorem execJournalDrain_upd (die : Nat) (s : State) {o_ : Option Nat} {t : State} (h : execJournalDrain die s = .next t) :
    Upd [.cmt, .host] [] o_ s t := by
  refine guarded_upd (fun s => ?_) h
  repeat' first
    | with_reducible exact Upd.refl _ _ _ _ | exact rfl | exact .inl rfl | exact .inr rfl | with_reducible assumption
    | with_reducible apply Upd.ite | with_reducible apply Upd.step' (drainBank_upd ..) | split | dsimp only | intro _

theorem copyDone_upd (n : Nat) (s : State) {o_ : Option Nat} :
    Upd [.regs, .host] [] o_ s (copyDone n s) := by
  unfold copyDone
  repeat' first
    | with_reducible exact Upd.refl _ _ _ _ | exact rfl | exact .inl rfl | exact .inr rfl | with_reducible assumption
    | with_reducible apply Upd.ite | with_reducible apply Upd.step' (irqRaise_upd ..) | with_reducible apply Upd.step' (setBits_upd ..)
    | with_reducible apply Upd.step' (setReg_upd ..) | split | dsimp only | intro _

theorem journalCopy_upd (port : Port) (data : List Byte) (s : State) {o_ : Option Nat} :
    Upd [.regs, .cmt, .host, .out] [] o_ s (journalCopy port data s) := by
  unfold journalCopy
  repeat' first
    | with_reducible exact Upd.refl _ _ _ _ | exact rfl | exact .inl rfl | exact .inr rfl | with_reducible assumption
    | with_reducible apply Upd.ite | with_reducible apply Upd.step' (copyDone_upd ..) | with_reducible apply Upd.step' (emit_upd ..)
    | with_reducible apply Upd.step' (setBits_upd ..) | with_reducible apply Upd.step' (refuseWrite_upd ..) | split | dsimp only | intro _
    | with_reducible apply Upd.set

theorem execJournalCopy_upd (port : Port) (data : List Byte) (s : State) {o_ : Option Nat} {t : State} (h : execJournalCopy port data s = .next t) :
    Upd [.regs, .cmt, .host, .out] [] o_ s t := by
  cases h
  repeat' first
    | with_reducible exact Upd.refl _ _ _ _ | exact rfl | exact .inl rfl | exact .inr rfl | with_reducible assumption
    | with_reducible apply Upd.ite | with_reducible apply woGate_upd | with_reducible apply Upd.step' (journalCopy_upd ..) | split | dsimp only
    | intro _

end Sys2Proof.Machine
end

