-- ==== Sys2Proof/Laws/Phase.lean ====
section
/-! SUPPORT. What each operation of Sys2Proof/Machine/Phase.lean can change: its footprint. -/
namespace Sys2Proof.Machine
set_option linter.all false

theorem imageLoad_upd (img : Image) (mod : BitVec 16) (seed : W64) (data : List (Nat × List Byte)) (s : State) :
    Upd [.regs, .cores, .dales, .holds, .clk, .task, .phase, .hbm, .cmt, .host, .sec, .pwr, .out] [.modeNext, .stale, .lidx, .k, .task, .modIdx, .q, .busy, .started, .came, .sigs, .job, .obj, .adds, .takes, .fe, .bsn, .mx, .pu, .vx, .ch, .vlog, .vold] none s (imageLoad img mod seed data s) := by
  unfold imageLoad
  repeat' first
    | with_reducible exact Upd.refl _ _ _ _ | exact rfl | exact .inl rfl | exact .inr rfl | with_reducible assumption
    | with_reducible apply Upd.ite | with_reducible apply Upd.step' (emit_upd ..) | with_reducible apply Upd.step' (fillRegions_upd ..)
    | with_reducible apply Upd.step (loadTask_upd ..) | with_reducible apply Upd.step (trigger_upd ..) | split | dsimp only | intro _

theorem execImageLoad_upd (img : Image) (mod : BitVec 16) (seed : W64) (data : List (Nat × List Byte)) (s : State) {t : State} (h : execImageLoad img mod seed data s = .next t) :
    Upd [.regs, .cores, .dales, .holds, .clk, .task, .phase, .hbm, .cmt, .host, .sec, .pwr, .out] [.modeNext, .stale, .lidx, .k, .task, .modIdx, .q, .busy, .started, .came, .sigs, .job, .obj, .adds, .takes, .fe, .bsn, .mx, .pu, .vx, .ch, .vlog, .vold] none s t := by
  cases h
  repeat' first
    | with_reducible exact Upd.refl _ _ _ _ | exact rfl | exact .inl rfl | exact .inr rfl | with_reducible assumption
    | with_reducible apply Upd.ite | with_reducible apply Upd.step (imageLoad_upd ..) | split | dsimp only | intro _

theorem stageBanks_upd (im : Loaded) (s : State) :
    Upd [.cores] [.bsn] none s (stageBanks im s) := by
  unfold stageBanks
  repeat' first
    | with_reducible exact Upd.refl _ _ _ _ | exact rfl | exact .inl rfl | exact .inr rfl | with_reducible assumption
    | with_reducible apply Upd.ite | with_reducible apply eachCore_upd | with_reducible apply Upd.updCore | with_reducible exact CUpd.refl _ _
    | with_reducible apply CUpd.ite | with_reducible apply CUpd.set | split | dsimp only | intro _

theorem phaseLoad_upd (img : Image) (carry : List W32) (sw : Nat) (data : List (Nat × List Byte)) (s : State) :
    Upd [.regs, .cores, .dales, .clk, .phase, .hbm, .host, .pwr, .out] [.q, .busy, .started, .came, .sigs, .job, .obj, .adds, .takes, .fe, .bsn, .mx, .pu, .vx, .ch] none s (phaseLoad img carry sw data s) := by
  unfold phaseLoad
  repeat' first
    | with_reducible exact Upd.refl _ _ _ _ | exact rfl | exact .inl rfl | exact .inr rfl | with_reducible assumption
    | with_reducible apply Upd.ite | with_reducible apply Upd.step' (emit_upd ..) | with_reducible apply Upd.step' (fillRegions_upd ..)
    | with_reducible apply Upd.step (stageBanks_upd ..) | with_reducible apply Upd.step (trigger_upd ..)
    | with_reducible apply Upd.step' (idleCheck_upd ..) | split | dsimp only | intro _ | with_reducible apply Upd.set

theorem execPhaseLoad_upd (img : Image) (carry : List W32) (sw : Nat) (data : List (Nat × List Byte)) (s : State) {t : State} (h : execPhaseLoad img carry sw data s = .next t) :
    Upd [.regs, .cores, .dales, .clk, .phase, .hbm, .host, .pwr, .out] [.q, .busy, .started, .came, .sigs, .job, .obj, .adds, .takes, .fe, .bsn, .mx, .pu, .vx, .ch] none s t := by
  cases h
  repeat' first
    | with_reducible exact Upd.refl _ _ _ _ | exact rfl | exact .inl rfl | exact .inr rfl | with_reducible assumption
    | with_reducible apply Upd.ite | with_reducible apply Upd.step (phaseLoad_upd ..) | split | dsimp only | intro _

theorem nameSwitch_upd (t : Option Nat) (s : State) :
    Upd [.cores] [.bsn] none s (nameSwitch t s) := by
  unfold nameSwitch
  repeat' first
    | with_reducible exact Upd.refl _ _ _ _ | exact rfl | exact .inl rfl | exact .inr rfl | with_reducible assumption
    | with_reducible apply Upd.ite | with_reducible apply eachCore_upd | with_reducible apply Upd.updCore | with_reducible exact CUpd.refl _ _
    | with_reducible apply CUpd.ite | with_reducible apply CUpd.set | split | dsimp only | intro _

theorem tablesDrop_upd (s : State) {o_ : Option Nat} :
    Upd [.fab] [] o_ s (tablesDrop s) := by
  unfold tablesDrop
  repeat' first
    | with_reducible exact Upd.refl _ _ _ _ | exact rfl | exact .inl rfl | exact .inr rfl | with_reducible assumption
    | with_reducible apply Upd.ite | split | dsimp only | intro _ | with_reducible apply Upd.set

theorem phaseArm_upd (cold : Bool) (s : State) :
    Upd [.regs, .cores, .phase, .host, .fab, .sec] [.bsn] none s (phaseArm cold s) := by
  unfold phaseArm
  repeat' first
    | with_reducible exact Upd.refl _ _ _ _ | exact rfl | exact .inl rfl | exact .inr rfl | with_reducible assumption
    | with_reducible apply Upd.ite | with_reducible apply Upd.step' (setReg_upd ..) | with_reducible apply Upd.step' (setBits_upd ..)
    | with_reducible apply Upd.step' (measure_upd ..) | with_reducible apply Upd.step (nameSwitch_upd ..) | split | dsimp only | intro _
    | with_reducible apply Upd.set

theorem execPhaseArm_upd (port : Port) (cold : Bool) (s : State) {t : State} (h : execPhaseArm port cold s = .next t) :
    Upd [.regs, .cores, .phase, .host, .fab, .sec] [.bsn] none s t := by
  cases h
  repeat' first
    | with_reducible exact Upd.refl _ _ _ _ | exact rfl | exact .inl rfl | exact .inr rfl | with_reducible assumption
    | with_reducible apply Upd.ite | with_reducible apply hostGate_upd | with_reducible apply Upd.step (phaseArm_upd ..) | split | dsimp only
    | intro _

theorem phaseCancel_upd (s : State) :
    Upd [.regs, .cores, .phase, .fab] [.bsn] none s (phaseCancel s) := by
  unfold phaseCancel
  repeat' first
    | with_reducible exact Upd.refl _ _ _ _ | exact rfl | exact .inl rfl | exact .inr rfl | with_reducible assumption
    | with_reducible apply Upd.ite | with_reducible apply Upd.step' (setReg_upd ..) | with_reducible apply Upd.step' (tablesDrop_upd ..)
    | with_reducible apply Upd.step (nameSwitch_upd ..) | split | dsimp only | intro _ | with_reducible apply Upd.set

theorem execPhaseCancel_upd (port : Port) (s : State) {t : State} (h : execPhaseCancel port s = .next t) :
    Upd [.regs, .cores, .phase, .host, .fab] [.bsn] none s t := by
  cases h
  repeat' first
    | with_reducible exact Upd.refl _ _ _ _ | exact rfl | exact .inl rfl | exact .inr rfl | with_reducible assumption
    | with_reducible apply Upd.ite | with_reducible apply hostGate_upd | with_reducible apply Upd.step (phaseCancel_upd ..) | split | dsimp only
    | intro _

theorem abortPhase_upd (s : State) :
    Upd [.regs, .cores, .phase, .host, .fab, .pwr] [.bsn] none s (abortPhase s) := by
  unfold abortPhase
  repeat' first
    | with_reducible exact Upd.refl _ _ _ _ | exact rfl | exact .inl rfl | exact .inr rfl | with_reducible assumption
    | with_reducible apply Upd.ite | with_reducible apply Upd.step' (irqRaise_upd ..) | with_reducible apply Upd.step' (setBits_upd ..)
    | with_reducible apply Upd.step' (idleCheck_upd ..) | with_reducible apply Upd.step (nameSwitch_upd ..)
    | with_reducible apply Upd.step' (tablesDrop_upd ..) | split | dsimp only | intro _ | with_reducible apply Upd.set

theorem execPhaseAbort_upd (s : State) {t : State} (h : execPhaseAbort s = .next t) :
    Upd [.regs, .cores, .phase, .host, .fab, .pwr] [.bsn] none s t := by
  cases h
  repeat' first
    | with_reducible exact Upd.refl _ _ _ _ | exact rfl | exact .inl rfl | exact .inr rfl | with_reducible assumption
    | with_reducible apply Upd.ite | with_reducible apply Upd.step (abortPhase_upd ..) | split | dsimp only | intro _

theorem switchBank_upd (c : Core) : CUpd [.bsn] c (switchBank c) := by
  unfold switchBank
  apply CUpd.set
  all_goals first | exact .inl rfl | exact .inr rfl

theorem convPages_upd (s : State) (o : Nat) (r : RegionD) {o_ : Option Nat} :
    Upd [.hbm] [] o_ s (convPages s o r) := by
  unfold convPages
  repeat' first
    | with_reducible exact Upd.refl _ _ _ _ | exact rfl | exact .inl rfl | exact .inr rfl | with_reducible assumption
    | with_reducible apply Upd.ite | with_reducible apply Upd.foldl | with_reducible apply Upd.foldl_snd | with_reducible apply Upd.foldl_fst
    | split | dsimp only | intro _ | with_reducible apply Upd.set

theorem convAll_upd (old : List RegionD) (l : List W32) (s : State) {o_ : Option Nat} :
    Upd [.hbm] [] o_ s (convAll old l s) := by
  unfold convAll
  repeat' first
    | with_reducible exact Upd.refl _ _ _ _ | exact rfl | exact .inl rfl | exact .inr rfl | with_reducible assumption
    | with_reducible apply Upd.ite | with_reducible apply Upd.step' (convPages_upd ..) | with_reducible apply Upd.foldl | split | dsimp only
    | intro _

theorem bridgeBanks_upd (s : State) : Upd [.cores, .fab] [.bsn] none s (bridgeBanks s) := by
  have h : Upd [.cores] [.bsn] none s (eachCore (fun p s => if holdsIndex (coreAt s p) then updCore p switchBank s else s) s) := by
    apply eachCore_upd
    · intro p t
      split
      · exact Upd.updCore (switchBank_upd _) rfl (.inl rfl) (Upd.refl _ _ _ _)
      · exact Upd.refl _ _ _ _
    · exact Upd.refl _ _ _ _
  unfold bridgeBanks
  generalize eachCore _ s = s1 at h ⊢
  apply Upd.set
  all_goals first | exact h.mono rfl rfl (.inl rfl) | exact .inl rfl | exact .inr rfl

theorem finishPhase_upd (s : State) :
    Upd [.regs, .cores, .dales, .task, .phase, .hbm, .cmt, .host, .sec] [.bsn] none s (finishPhase s) := by
  unfold finishPhase
  split
  · exact Upd.refl _ _ _ _
  · next im _ =>
    have h1 : Upd [.cores] [.bsn] none s (eachCore (fun p s => if holdsIndex (coreAt s p) then
        updCore p (fun c => { c with bsn := { c.bsn with ford := fordMap im } }) s else s) s) := by
      apply eachCore_upd
      · intro p t
        split
        · refine Upd.updCore ?_ rfl (.inl rfl) (Upd.refl _ _ _ _)
          apply CUpd.set
          all_goals first | exact .inl rfl | exact .inr rfl
        · exact Upd.refl _ _ _ _
      · exact Upd.refl _ _ _ _
    dsimp only
    generalize eachCore _ s = s1 at h1 ⊢
    refine Upd.step' (irqRaise_upd ..) rfl rfl (Upd.step' (setBits_upd ..) rfl rfl (Upd.step' (addLink_upd ..) rfl rfl
      (Upd.step' (updRecs_upd ..) rfl rfl (Upd.step' (loadDales_upd ..) rfl rfl ?_))))
    apply Upd.set
    all_goals first | exact h1.mono rfl rfl (.inl rfl) | exact .inl rfl | exact .inr rfl

theorem execPhaseBridge_upd (s : State) {t : State} (h : execPhaseBridge s = .next t) :
    Upd [.regs, .cores, .dales, .task, .phase, .hbm, .cmt, .host, .sec] [.bsn] none s t := by
  cases h
  repeat' first
    | with_reducible exact Upd.refl _ _ _ _ | exact rfl | exact .inl rfl | exact .inr rfl | with_reducible assumption
    | with_reducible apply Upd.ite | with_reducible apply Upd.step (finishPhase_upd ..) | split | dsimp only | intro _

theorem coldBoundary_upd (s : State) :
    Upd [.regs, .cores, .dales, .task, .phase, .hbm, .cmt, .host, .fab, .sec] [.bsn] none s (coldBoundary s) := by
  unfold coldBoundary
  repeat' first
    | with_reducible exact Upd.refl _ _ _ _ | exact rfl | exact .inl rfl | exact .inr rfl | with_reducible assumption
    | with_reducible apply Upd.ite | with_reducible apply Upd.step (finishPhase_upd ..) | with_reducible apply Upd.step (bridgeBanks_upd ..)
    | with_reducible apply Upd.step' (convAll_upd ..) | split | dsimp only | intro _

theorem execColdBoundary_upd (s : State) {t : State} (h : execColdBoundary s = .next t) :
    Upd [.regs, .cores, .dales, .task, .phase, .hbm, .cmt, .host, .fab, .sec] [.bsn] none s t := by
  cases h
  repeat' first
    | with_reducible exact Upd.refl _ _ _ _ | exact rfl | exact .inl rfl | exact .inr rfl | with_reducible assumption
    | with_reducible apply Upd.ite | with_reducible apply Upd.step (coldBoundary_upd ..) | split | dsimp only | intro _

theorem coreUnload_upd (c : Core) : CUpd [.mode, .modeNext, .lidx, .k, .task, .q, .busy, .started, .came, .sigs, .job, .obj, .adds, .takes, .rst, .fe, .bsn, .mx, .pu, .vx, .ch, .th, .vlog, .vold] c (coreUnload c) := by
  unfold coreUnload
  repeat' first
    | with_reducible exact CUpd.refl _ _ | exact rfl | exact .inl rfl | exact .inr rfl | with_reducible assumption
    | with_reducible apply CUpd.step (resetCore_upd ..) | with_reducible apply CUpd.foldN | split | dsimp only | intro _
    | with_reducible apply CUpd.set

theorem flagAudit_upd (p : Nat) (s : State) {o_ : Option Nat} :
    Upd [.regs, .evts, .cmt, .host] [] o_ s (flagAudit p s) := by
  unfold flagAudit
  repeat' first
    | with_reducible exact Upd.refl _ _ _ _ | exact rfl | exact .inl rfl | exact .inr rfl | with_reducible assumption
    | with_reducible apply Upd.ite | with_reducible apply Upd.step' (note_upd ..) | with_reducible apply Upd.step' (progFault_upd ..)
    | with_reducible apply Upd.step' (coreSrc_upd ..) | with_reducible apply Upd.step' (chStat_upd ..) | split | dsimp only | intro _

theorem endAudit_upd (p : Nat) (s : State) {o_ : Option Nat} :
    Upd [.regs, .evts, .cmt, .host] [] o_ s (endAudit p s) := by
  unfold endAudit
  repeat' first
    | with_reducible exact Upd.refl _ _ _ _ | exact rfl | exact .inl rfl | exact .inr rfl | with_reducible assumption
    | with_reducible apply Upd.ite | with_reducible apply Upd.step' (flagAudit_upd ..) | split | dsimp only | intro _

theorem doTaskReset_upd (s : State) :
    Upd [.regs, .evts, .cores, .dales, .holds, .task, .phase, .hbm, .cmt, .host, .sec, .pwr] [.mode, .modeNext, .lidx, .k, .task, .q, .busy, .started, .came, .sigs, .job, .obj, .adds, .takes, .rst, .fe, .bsn, .mx, .pu, .vx, .ch, .th, .vlog, .vold] none s (doTaskReset s) := by
  unfold doTaskReset
  repeat' first
    | with_reducible exact Upd.refl _ _ _ _ | exact rfl | exact .inl rfl | exact .inr rfl | with_reducible assumption
    | with_reducible apply Upd.ite | with_reducible apply Upd.step' (finalRecord_upd ..) | with_reducible apply Upd.step' (publishEvts_upd ..)
    | with_reducible apply eachCore_upd | with_reducible apply Upd.step' (endAudit_upd ..) | with_reducible apply Upd.step' (idleCheck_upd ..)
    | with_reducible apply Upd.updCore | with_reducible exact CUpd.refl _ _ | with_reducible apply CUpd.step (coreUnload_upd ..)
    | with_reducible apply CUpd.ite | with_reducible apply CUpd.set | split | dsimp only | intro _ | with_reducible apply Upd.set

theorem resetExit_upd (s : State) :
    Upd [.regs, .cores, .dales, .clk, .host, .trc, .pwr, .out] [.q, .busy, .started, .came, .sigs, .job, .obj, .adds, .takes, .fe, .bsn, .mx, .pu, .vx, .ch] none s (resetExit s) := by
  unfold resetExit
  repeat' first
    | with_reducible exact Upd.refl _ _ _ _ | exact rfl | exact .inl rfl | exact .inr rfl | with_reducible assumption
    | with_reducible apply Upd.ite | with_reducible apply Upd.step (shutdownDone_upd ..) | with_reducible apply Upd.step (exitNow_upd ..) | split
    | dsimp only | intro _ | with_reducible apply Upd.set

theorem taskReset_upd (s : State) :
    Upd [.regs, .evts, .cores, .dales, .holds, .clk, .task, .phase, .hbm, .cmt, .host, .sec, .trc, .pwr, .out] [.mode, .modeNext, .lidx, .k, .task, .q, .busy, .started, .came, .sigs, .job, .obj, .adds, .takes, .rst, .fe, .bsn, .mx, .pu, .vx, .ch, .th, .vlog, .vold] none s (taskReset s) := by
  unfold taskReset
  repeat' first
    | with_reducible exact Upd.refl _ _ _ _ | exact rfl | exact .inl rfl | exact .inr rfl | with_reducible assumption
    | with_reducible apply Upd.ite | with_reducible apply Upd.step' (setField_upd ..) | with_reducible apply Upd.step (resetExit_upd ..)
    | with_reducible apply Upd.step (doTaskReset_upd ..) | split | dsimp only | intro _ | with_reducible apply Upd.set

theorem execTaskReset_upd (port : Port) (s : State) {t : State} (h : execTaskReset port s = .next t) :
    Upd [.regs, .evts, .cores, .dales, .holds, .clk, .task, .phase, .hbm, .cmt, .host, .sec, .trc, .pwr, .out] [.mode, .modeNext, .lidx, .k, .task, .q, .busy, .started, .came, .sigs, .job, .obj, .adds, .takes, .rst, .fe, .bsn, .mx, .pu, .vx, .ch, .th, .vlog, .vold] none s t := by
  cases h
  repeat' first
    | with_reducible exact Upd.refl _ _ _ _ | exact rfl | exact .inl rfl | exact .inr rfl | with_reducible assumption
    | with_reducible apply Upd.ite | with_reducible apply hostGate_upd | with_reducible apply Upd.step (taskReset_upd ..) | split | dsimp only
    | intro _

end Sys2Proof.Machine
end

