-- ==== Sys2Proof/Laws/Link.lean ====
section
/-! SUPPORT. What each operation of Sys2Proof/Machine/Link.lean can change: its footprint. -/
namespace Sys2Proof.Machine
set_option linter.all false

theorem emitCtl_upd (n : Nat) (seq : Nat) (ack : Nat) (pay : Nat) (s : State) {o_ : Option Nat} :
    Upd [.out] [] o_ s (emitCtl n seq ack pay s) := by
  unfold emitCtl
  repeat' first
    | with_reducible exact Upd.refl _ _ _ _ | exact rfl | exact .inl rfl | exact .inr rfl | with_reducible assumption
    | with_reducible apply Upd.ite | with_reducible apply Upd.step' (emit_upd ..) | split | dsimp only | intro _

theorem lnkIrq_upd (n : Nat) (bit : Nat) (s : State) {o_ : Option Nat} :
    Upd [.regs, .evts, .host] [] o_ s (lnkIrq n bit s) := by
  unfold lnkIrq
  repeat' first
    | with_reducible exact Upd.refl _ _ _ _ | exact rfl | exact .inl rfl | exact .inr rfl | with_reducible assumption
    | with_reducible apply Upd.ite | with_reducible apply Upd.step' (note_upd ..) | split | dsimp only | intro _

theorem lnkCount_upd (n : Nat) (off : Nat) (lo : Nat) (w : Nat) (k : Nat) (s : State) {o_ : Option Nat} :
    Upd [.regs, .evts, .host] [] o_ s (lnkCount n off lo w k s) := by
  unfold lnkCount
  repeat' first
    | with_reducible exact Upd.refl _ _ _ _ | exact rfl | exact .inl rfl | exact .inr rfl | with_reducible assumption
    | with_reducible apply Upd.ite | with_reducible apply Upd.step' (note_upd ..) | split | dsimp only | intro _

theorem lnkDisc_upd (n : Nat) (s : State) {o_ : Option Nat} :
    Upd [.regs, .evts, .host] [] o_ s (lnkDisc n s) := by
  unfold lnkDisc
  repeat' first
    | with_reducible exact Upd.refl _ _ _ _ | exact rfl | exact .inl rfl | exact .inr rfl | with_reducible assumption
    | with_reducible apply Upd.ite | with_reducible apply Upd.step' (lnkCount_upd ..) | split | dsimp only | intro _

theorem startTraining_upd (n : Nat) (s : State) {o_ : Option Nat} :
    Upd [.fab] [] o_ s (startTraining n s) := by
  unfold startTraining
  repeat' first
    | with_reducible exact Upd.refl _ _ _ _ | exact rfl | exact .inl rfl | exact .inr rfl | with_reducible assumption
    | with_reducible apply Upd.ite | with_reducible apply Upd.step' (updLp_upd ..) | split | dsimp only | intro _

theorem goUp_upd (n : Nat) (s : State) {o_ : Option Nat} :
    Upd [.regs, .evts, .host, .fab] [] o_ s (goUp n s) := by
  unfold goUp
  repeat' first
    | with_reducible exact Upd.refl _ _ _ _ | exact rfl | exact .inl rfl | exact .inr rfl | with_reducible assumption
    | with_reducible apply Upd.ite | with_reducible apply Upd.step' (lnkIrq_upd ..) | with_reducible apply Upd.step' (updLp_upd ..) | split
    | dsimp only | intro _

theorem agreeRate_upd (n : Nat) (s : State) {o_ : Option Nat} :
    Upd [.regs, .evts, .host, .fab] [] o_ s (agreeRate n s) := by
  unfold agreeRate
  repeat' first
    | with_reducible exact Upd.refl _ _ _ _ | exact rfl | exact .inl rfl | exact .inr rfl | with_reducible assumption
    | with_reducible apply Upd.ite | with_reducible apply Upd.step' (goUp_upd ..) | with_reducible apply Upd.step' (updLp_upd ..) | split
    | dsimp only | intro _

theorem linkTraining_upd (n : Nat) (slow : Bool) (delay : Nat) (s : State) {o_ : Option Nat} :
    Upd [.regs, .evts, .host, .fab, .out] [] o_ s (linkTraining n slow delay s) := by
  unfold linkTraining
  repeat' first
    | with_reducible exact Upd.refl _ _ _ _ | exact rfl | exact .inl rfl | exact .inr rfl | with_reducible assumption
    | with_reducible apply Upd.ite | with_reducible apply Upd.step' (agreeRate_upd ..) | with_reducible apply Upd.step' (emitCtl_upd ..)
    | with_reducible apply Upd.step' (updLp_upd ..) | split | dsimp only | intro _

theorem execLinkTraining_upd (n : Nat) (slow : Bool) (delay : Nat) (s : State) {o_ : Option Nat} {t : State} (h : execLinkTraining n slow delay s = .next t) :
    Upd [.regs, .evts, .host, .fab, .out] [] o_ s t := by
  refine guarded_upd (fun s => ?_) h
  repeat' first
    | with_reducible exact Upd.refl _ _ _ _ | exact rfl | exact .inl rfl | exact .inr rfl | with_reducible assumption
    | with_reducible apply Upd.ite | with_reducible apply Upd.step' (linkTraining_upd ..) | split | dsimp only | intro _

theorem capability_upd (n : Nat) (pay : BitVec 384) (s : State) {o_ : Option Nat} :
    Upd [.regs, .evts, .host, .fab] [] o_ s (capability n pay s) := by
  unfold capability
  repeat' first
    | with_reducible exact Upd.refl _ _ _ _ | exact rfl | exact .inl rfl | exact .inr rfl | with_reducible assumption
    | with_reducible apply Upd.ite | with_reducible apply Upd.step' (updLp_upd ..) | with_reducible apply Upd.step' (lnkIrq_upd ..)
    | with_reducible apply Upd.step' (agreeRate_upd ..) | split | dsimp only | intro _

theorem execCapabilityCellArrival_upd (n : Nat) (pay : BitVec 384) (s : State) {o_ : Option Nat} {t : State} (h : execCapabilityCellArrival n pay s = .next t) :
    Upd [.regs, .evts, .host, .fab] [] o_ s t := by
  refine guarded_upd (fun s => ?_) h
  repeat' first
    | with_reducible exact Upd.refl _ _ _ _ | exact rfl | exact .inl rfl | exact .inr rfl | with_reducible assumption
    | with_reducible apply Upd.ite | with_reducible apply Upd.step' (capability_upd ..) | split | dsimp only | intro _

theorem trainingTimeout_upd (n : Nat) (s : State) {o_ : Option Nat} :
    Upd [.regs, .evts, .host, .fab] [] o_ s (trainingTimeout n s) := by
  unfold trainingTimeout
  repeat' first
    | with_reducible exact Upd.refl _ _ _ _ | exact rfl | exact .inl rfl | exact .inr rfl | with_reducible assumption
    | with_reducible apply Upd.ite | with_reducible apply Upd.step' (lnkIrq_upd ..) | with_reducible apply Upd.step' (lnkCount_upd ..)
    | with_reducible apply Upd.step' (updLp_upd ..) | split | dsimp only | intro _

theorem execTrainingTimeout_upd (n : Nat) (s : State) {o_ : Option Nat} {t : State} (h : execTrainingTimeout n s = .next t) :
    Upd [.regs, .evts, .host, .fab] [] o_ s t := by
  refine guarded_upd (fun s => ?_) h
  repeat' first
    | with_reducible exact Upd.refl _ _ _ _ | exact rfl | exact .inl rfl | exact .inr rfl | with_reducible assumption
    | with_reducible apply Upd.ite | with_reducible apply Upd.step' (trainingTimeout_upd ..) | split | dsimp only | intro _

theorem leaveDone_upd (n : Nat) (s : State) {o_ : Option Nat} :
    Upd [.regs, .evts, .host, .fab] [] o_ s (leaveDone n s) := by
  unfold leaveDone
  repeat' first
    | with_reducible exact Upd.refl _ _ _ _ | exact rfl | exact .inl rfl | exact .inr rfl | with_reducible assumption
    | with_reducible apply Upd.ite | with_reducible apply Upd.step' (startTraining_upd ..) | with_reducible apply Upd.step' (lnkIrq_upd ..)
    | with_reducible apply Upd.step' (lnkCount_upd ..) | with_reducible apply Upd.step' (updLp_upd ..) | split | dsimp only | intro _

theorem linkRetrain_upd (n : Nat) (s : State) {o_ : Option Nat} :
    Upd [.regs, .evts, .host, .fab] [] o_ s (linkRetrain n s) := by
  unfold linkRetrain
  repeat' first
    | with_reducible exact Upd.refl _ _ _ _ | exact rfl | exact .inl rfl | exact .inr rfl | with_reducible assumption
    | with_reducible apply Upd.ite | with_reducible apply Upd.step' (leaveDone_upd ..) | with_reducible apply Upd.step' (updLp_upd ..)
    | with_reducible apply Upd.step' (startTraining_upd ..) | split | dsimp only | intro _

theorem execLinkRetrain_upd (port : Port) (n : Nat) (s : State) {o_ : Option Nat} {t : State} (h : execLinkRetrain port n s = .next t) :
    Upd [.regs, .evts, .host, .fab] [] o_ s t := by
  refine guarded_upd (fun s => ?_) h
  repeat' first
    | with_reducible exact Upd.refl _ _ _ _ | exact rfl | exact .inl rfl | exact .inr rfl | with_reducible assumption
    | with_reducible apply Upd.ite | with_reducible apply woGate_upd | with_reducible apply Upd.step' (linkRetrain_upd ..) | split | dsimp only
    | intro _

theorem linkEnable_upd (n : Nat) (en : Bool) (s : State) {o_ : Option Nat} :
    Upd [.regs, .evts, .host, .fab] [] o_ s (linkEnable n en s) := by
  unfold linkEnable
  repeat' first
    | with_reducible exact Upd.refl _ _ _ _ | exact rfl | exact .inl rfl | exact .inr rfl | with_reducible assumption
    | with_reducible apply Upd.ite | with_reducible apply Upd.step' (setField_upd ..) | with_reducible apply Upd.step' (updLp_upd ..)
    | with_reducible apply Upd.step' (startTraining_upd ..) | with_reducible apply Upd.step' (leaveDone_upd ..) | split | dsimp only | intro _

theorem execLinkEnable_upd (port : Port) (n : Nat) (en : Bool) (s : State) {o_ : Option Nat} {t : State} (h : execLinkEnable port n en s = .next t) :
    Upd [.regs, .evts, .host, .fab] [] o_ s t := by
  refine guarded_upd (fun s => ?_) h
  repeat' first
    | with_reducible exact Upd.refl _ _ _ _ | exact rfl | exact .inl rfl | exact .inr rfl | with_reducible assumption
    | with_reducible apply Upd.ite | with_reducible apply hostGate_upd | with_reducible apply Upd.step' (linkEnable_upd ..) | split | dsimp only
    | intro _

theorem linkAck_upd (n : Nat) (seq : Nat) (credits : List Nat) (s : State) {o_ : Option Nat} :
    Upd [.regs, .evts, .host, .fab] [] o_ s (linkAck n seq credits s) := by
  unfold linkAck
  repeat' first
    | with_reducible exact Upd.refl _ _ _ _ | exact rfl | exact .inl rfl | exact .inr rfl | with_reducible assumption
    | with_reducible apply Upd.ite | with_reducible apply Upd.step' (leaveDone_upd ..) | with_reducible apply Upd.step' (updLp_upd ..) | split
    | dsimp only | intro _

theorem execLinkctlAck_upd (n : Nat) (seq : Nat) (credits : List Nat) (s : State) {o_ : Option Nat} {t : State} (h : execLinkctlAck n seq credits s = .next t) :
    Upd [.regs, .evts, .host, .fab] [] o_ s t := by
  refine guarded_upd (fun s => ?_) h
  repeat' first
    | with_reducible exact Upd.refl _ _ _ _ | exact rfl | exact .inl rfl | exact .inr rfl | with_reducible assumption
    | with_reducible apply Upd.ite | with_reducible apply Upd.step' (linkAck_upd ..) | split | dsimp only | intro _

theorem resendFrom_upd (n : Nat) (seq : Nat) (s : State) {o_ : Option Nat} :
    Upd [.regs, .evts, .host, .fab, .trc, .out] [] o_ s (resendFrom n seq s) := by
  unfold resendFrom
  repeat' first
    | with_reducible exact Upd.refl _ _ _ _ | exact rfl | exact .inl rfl | exact .inr rfl | with_reducible assumption
    | with_reducible apply Upd.ite | with_reducible apply Upd.step' (emit_upd ..) | with_reducible apply Upd.step' (gcount_upd ..)
    | with_reducible apply Upd.step' (lnkCount_upd ..) | with_reducible apply Upd.step' (updLp_upd ..) | with_reducible apply Upd.foldl
    | with_reducible apply Upd.foldl_snd | with_reducible apply Upd.foldl_fst | split | dsimp only | intro _

theorem linkNak_upd (n : Nat) (seq : Nat) (credits : List Nat) (s : State) {o_ : Option Nat} :
    Upd [.regs, .evts, .host, .fab, .trc, .out] [] o_ s (linkNak n seq credits s) := by
  unfold linkNak
  repeat' first
    | with_reducible exact Upd.refl _ _ _ _ | exact rfl | exact .inl rfl | exact .inr rfl | with_reducible assumption
    | with_reducible apply Upd.ite | with_reducible apply Upd.step' (resendFrom_upd ..) | with_reducible apply Upd.step' (updLp_upd ..) | split
    | dsimp only | intro _

theorem execLinkctlNak_upd (n : Nat) (seq : Nat) (credits : List Nat) (s : State) {o_ : Option Nat} {t : State} (h : execLinkctlNak n seq credits s = .next t) :
    Upd [.regs, .evts, .host, .fab, .trc, .out] [] o_ s t := by
  refine guarded_upd (fun s => ?_) h
  repeat' first
    | with_reducible exact Upd.refl _ _ _ _ | exact rfl | exact .inl rfl | exact .inr rfl | with_reducible assumption
    | with_reducible apply Upd.ite | with_reducible apply Upd.step' (linkNak_upd ..) | split | dsimp only | intro _

theorem execAckTimeout_upd (n : Nat) (s : State) {o_ : Option Nat} {t : State} (h : execAckTimeout n s = .next t) :
    Upd [.regs, .evts, .host, .fab, .trc, .out] [] o_ s t := by
  refine guarded_upd (fun s => ?_) h
  repeat' first
    | with_reducible exact Upd.refl _ _ _ _ | exact rfl | exact .inl rfl | exact .inr rfl | with_reducible assumption
    | with_reducible apply Upd.ite | with_reducible apply Upd.step' (resendFrom_upd ..) | split | dsimp only | intro _

theorem ackSend_upd (n : Nat) (s : State) {o_ : Option Nat} :
    Upd [.fab, .out] [] o_ s (ackSend n s) := by
  unfold ackSend
  repeat' first
    | with_reducible exact Upd.refl _ _ _ _ | exact rfl | exact .inl rfl | exact .inr rfl | with_reducible assumption
    | with_reducible apply Upd.ite | with_reducible apply Upd.step' (emitCtl_upd ..) | with_reducible apply Upd.step' (updLp_upd ..) | split
    | dsimp only | intro _

theorem execAckSend_upd (n : Nat) (s : State) {o_ : Option Nat} {t : State} (h : execAckSend n s = .next t) :
    Upd [.fab, .out] [] o_ s t := by
  refine guarded_upd (fun s => ?_) h
  repeat' first
    | with_reducible exact Upd.refl _ _ _ _ | exact rfl | exact .inl rfl | exact .inr rfl | with_reducible assumption
    | with_reducible apply Upd.ite | with_reducible apply Upd.step' (ackSend_upd ..) | split | dsimp only | intro _

theorem badCell_upd (n : Nat) (s : State) {o_ : Option Nat} :
    Upd [.fab, .out] [] o_ s (badCell n s) := by
  unfold badCell
  repeat' first
    | with_reducible exact Upd.refl _ _ _ _ | exact rfl | exact .inl rfl | exact .inr rfl | with_reducible assumption
    | with_reducible apply Upd.ite | with_reducible apply Upd.step' (emitCtl_upd ..) | with_reducible apply Upd.step' (updLp_upd ..) | split
    | dsimp only | intro _

theorem linkReceive_upd (n : Nat) (c : FCell) (half : Nat) (uncorr : Bool) (syms : Nat) (s : State) {o_ : Option Nat} :
    Upd [.regs, .evts, .host, .fab, .trc, .out] [] o_ s (linkReceive n c half uncorr syms s) := by
  unfold linkReceive
  repeat' first
    | with_reducible exact Upd.refl _ _ _ _ | exact rfl | exact .inl rfl | exact .inr rfl | with_reducible assumption
    | with_reducible apply Upd.ite | with_reducible apply Upd.step' (gcount_upd ..) | with_reducible apply Upd.step' (lnkCount_upd ..)
    | with_reducible apply Upd.step' (badCell_upd ..) | with_reducible apply Upd.step' (updLp_upd ..)
    | with_reducible apply Upd.step' (lnkDisc_upd ..) | with_reducible apply Upd.step' (intoCol_upd ..) | split | dsimp only | intro _

theorem execLinkCellReceive_upd (n : Nat) (c : FCell) (half : Nat) (uncorr : Bool) (syms : Nat) (s : State) {o_ : Option Nat} {t : State} (h : execLinkCellReceive n c half uncorr syms s = .next t) :
    Upd [.regs, .evts, .host, .fab, .trc, .out] [] o_ s t := by
  refine guarded_upd (fun s => ?_) h
  repeat' first
    | with_reducible exact Upd.refl _ _ _ _ | exact rfl | exact .inl rfl | exact .inr rfl | with_reducible assumption
    | with_reducible apply Upd.ite | with_reducible apply Upd.step' (linkReceive_upd ..) | split | dsimp only | intro _

theorem portDown_upd (n : Nat) (cause : DownCause) (s : State) {o_ : Option Nat} :
    Upd [.regs, .evts, .cmt, .host, .fab] [] o_ s (portDown n cause s) := by
  unfold portDown
  repeat' first
    | with_reducible exact Upd.refl _ _ _ _ | exact rfl | exact .inl rfl | exact .inr rfl | with_reducible assumption
    | with_reducible apply Upd.ite | with_reducible apply Upd.step' (markSrc_upd ..) | with_reducible apply Upd.step' (lnkIrq_upd ..)
    | with_reducible apply Upd.step' (lnkCount_upd ..) | with_reducible apply Upd.step' (updLp_upd ..) | split | dsimp only | intro _

theorem execPortDown_upd (n : Nat) (cause : DownCause) (s : State) {o_ : Option Nat} {t : State} (h : execPortDown n cause s = .next t) :
    Upd [.regs, .evts, .cmt, .host, .fab] [] o_ s t := by
  refine guarded_upd (fun s => ?_) h
  repeat' first
    | with_reducible exact Upd.refl _ _ _ _ | exact rfl | exact .inl rfl | exact .inr rfl | with_reducible assumption
    | with_reducible apply Upd.ite | with_reducible apply Upd.step' (portDown_upd ..) | split | dsimp only | intro _

theorem fencePort_upd (n : Nat) (s : State) {o_ : Option Nat} :
    Upd [.regs, .evts, .cmt, .host, .fab] [] o_ s (fencePort n s) := by
  unfold fencePort
  repeat' first
    | with_reducible exact Upd.refl _ _ _ _ | exact rfl | exact .inl rfl | exact .inr rfl | with_reducible assumption
    | with_reducible apply Upd.ite | with_reducible apply Upd.step' (updLp_upd ..) | with_reducible apply Upd.step' (markSrc_upd ..)
    | with_reducible apply Upd.step' (lnkIrq_upd ..) | split | dsimp only | intro _ | with_reducible apply Upd.set

theorem portFence_upd (n : Nat) (s : State) {o_ : Option Nat} :
    Upd [.regs, .evts, .cmt, .host, .fab] [] o_ s (portFence n s) := by
  unfold portFence
  repeat' first
    | with_reducible exact Upd.refl _ _ _ _ | exact rfl | exact .inl rfl | exact .inr rfl | with_reducible assumption
    | with_reducible apply Upd.ite | with_reducible apply Upd.step' (fencePort_upd ..) | split | dsimp only | intro _

theorem execPortFence_upd (n : Nat) (s : State) {o_ : Option Nat} {t : State} (h : execPortFence n s = .next t) :
    Upd [.regs, .evts, .cmt, .host, .fab] [] o_ s t := by
  refine guarded_upd (fun s => ?_) h
  repeat' first
    | with_reducible exact Upd.refl _ _ _ _ | exact rfl | exact .inl rfl | exact .inr rfl | with_reducible assumption
    | with_reducible apply Upd.ite | with_reducible apply Upd.step' (portFence_upd ..) | split | dsimp only | intro _

theorem giveBack_upd (r : RCell) (s : State) {o_ : Option Nat} :
    Upd [.fab] [] o_ s (giveBack r s) := by
  unfold giveBack
  repeat' first
    | with_reducible exact Upd.refl _ _ _ _ | exact rfl | exact .inl rfl | exact .inr rfl | with_reducible assumption
    | with_reducible apply Upd.ite | with_reducible apply Upd.step' (updLp_upd ..) | split | dsimp only | intro _

theorem ctlSend_upd (die : Nat) (vc : Nat) (c : FCell) (s : State) {o_ : Option Nat} :
    Upd [.fab] [] o_ s (ctlSend die vc c s) := by
  unfold ctlSend
  repeat' first
    | with_reducible exact Upd.refl _ _ _ _ | exact rfl | exact .inl rfl | exact .inr rfl | with_reducible assumption
    | with_reducible apply Upd.ite | with_reducible apply Upd.step' (intoCol_upd ..) | split | dsimp only | intro _

theorem routerReply_upd (die : Nat) (r : RCell) (rest : Nat) (s : State) :
    Upd [.cores, .fab] [.ch] none s (routerReply die r rest s) := by
  unfold routerReply
  repeat' first
    | with_reducible exact Upd.refl _ _ _ _ | exact rfl | exact .inl rfl | exact .inr rfl | with_reducible assumption
    | with_reducible apply Upd.ite | with_reducible apply Upd.step' (ctlSend_upd ..) | with_reducible apply Upd.updCore
    | with_reducible exact CUpd.refl _ _ | with_reducible apply CUpd.ite | with_reducible apply CUpd.set | split | dsimp only | intro _

theorem fencedReply_upd (die : Nat) (r : RCell) (mod : Nat) (core : Nat) (s : State) :
    Upd [.cores, .fab] [.ch] none s (fencedReply die r mod core s) := by
  unfold fencedReply
  repeat' first
    | with_reducible exact Upd.refl _ _ _ _ | exact rfl | exact .inl rfl | exact .inr rfl | with_reducible assumption
    | with_reducible apply Upd.ite | with_reducible apply Upd.step (routerReply_upd ..) | split | dsimp only | intro _

theorem noIndexReply_upd (die : Nat) (r : RCell) (s : State) :
    Upd [.cores, .fab] [.ch] none s (noIndexReply die r s) := by
  unfold noIndexReply
  repeat' first
    | with_reducible exact Upd.refl _ _ _ _ | exact rfl | exact .inl rfl | exact .inr rfl | with_reducible assumption
    | with_reducible apply Upd.ite | with_reducible apply Upd.step (routerReply_upd ..) | split | dsimp only | intro _

theorem absorbed_upd (die : Nat) (r : RCell) (mod : Nat) (core : Nat) (s : State) :
    Upd [.cores, .fab] [.ch] none s (absorbed die r mod core s) := by
  unfold absorbed
  repeat' first
    | with_reducible exact Upd.refl _ _ _ _ | exact rfl | exact .inl rfl | exact .inr rfl | with_reducible assumption
    | with_reducible apply Upd.ite | with_reducible apply Upd.step (fencedReply_upd ..) | with_reducible apply Upd.foldl
    | with_reducible apply Upd.foldl_snd | with_reducible apply Upd.foldl_fst | split | dsimp only | intro _

theorem replicate_upd (die : Nat) (key : Nat) (s : State) :
    Upd [.cores, .fab] [.ch] none s (replicate die key s) := by
  unfold replicate
  repeat' first
    | with_reducible exact Upd.refl _ _ _ _ | exact rfl | exact .inl rfl | exact .inr rfl | with_reducible assumption
    | with_reducible apply Upd.ite | with_reducible apply Upd.step (fencedReply_upd ..) | with_reducible apply Upd.step' (giveBack_upd ..)
    | with_reducible apply Upd.foldl | with_reducible apply Upd.foldl_snd | with_reducible apply Upd.foldl_fst | split | dsimp only | intro _
    | with_reducible apply Upd.set

theorem absorbAll_upd (die : Nat) (key : Nat) (s : State) :
    Upd [.cores, .fab] [.ch] none s (absorbAll die key s) := by
  unfold absorbAll
  repeat' first
    | with_reducible exact Upd.refl _ _ _ _ | exact rfl | exact .inl rfl | exact .inr rfl | with_reducible assumption
    | with_reducible apply Upd.ite | with_reducible apply Upd.step' (giveBack_upd ..) | with_reducible apply Upd.step (absorbed_upd ..)
    | with_reducible apply Upd.step (noIndexReply_upd ..) | with_reducible apply Upd.foldl | with_reducible apply Upd.foldl_snd
    | with_reducible apply Upd.foldl_fst | split | dsimp only | intro _ | with_reducible apply Upd.set

theorem outPort_upd (n : Nat) (r : RCell) (s : State) :
    Upd [.regs, .evts, .cores, .cmt, .host, .fab, .trc, .out] [.ch] none s (outPort n r s) := by
  unfold outPort
  repeat' first
    | with_reducible exact Upd.refl _ _ _ _ | exact rfl | exact .inl rfl | exact .inr rfl | with_reducible assumption
    | with_reducible apply Upd.ite | with_reducible apply Upd.step' (markSrc_upd ..) | with_reducible apply Upd.step' (lnkDisc_upd ..)
    | with_reducible apply Upd.step (absorbed_upd ..) | with_reducible apply Upd.step' (gcount_upd ..)
    | with_reducible apply Upd.step' (emit_upd ..) | with_reducible apply Upd.step' (updLp_upd ..) | split | dsimp only | intro _

theorem sendOn_upd (die : Nat) (x : Nat) (y : Nat) (o : Nat) (r : RCell) (s : State) :
    Upd [.cores, .fab] [.ch] none s (sendOn die x y o r s) := by
  unfold sendOn
  repeat' first
    | with_reducible exact Upd.refl _ _ _ _ | exact rfl | exact .inl rfl | exact .inr rfl | with_reducible assumption
    | with_reducible apply Upd.ite | with_reducible apply Upd.step' (giveBack_upd ..) | with_reducible apply Upd.step' (intoCol_upd ..)
    | with_reducible apply Upd.step' (enterStop_upd ..) | with_reducible apply Upd.updCore | with_reducible exact CUpd.refl _ _
    | with_reducible apply CUpd.ite | with_reducible apply CUpd.set | split | dsimp only | intro _

theorem colRead_upd (s : State) (w : ColWord) :
    Upd [.regs, .evts, .cores, .cmt, .host, .fab, .trc, .out] [.ch] none s (colRead s w) := by
  unfold colRead
  repeat' first
    | with_reducible exact Upd.refl _ _ _ _ | exact rfl | exact .inl rfl | exact .inr rfl | with_reducible assumption
    | with_reducible apply Upd.ite | with_reducible apply Upd.step' (enterStop_upd ..) | with_reducible apply Upd.step (outPort_upd ..) | split
    | dsimp only | intro _ | with_reducible apply Upd.set

theorem colLc_upd (s : State) :
    Upd [.regs, .evts, .cores, .cmt, .host, .fab, .trc, .out] [.ch] none s (colLc s) := by
  unfold colLc
  repeat' first
    | with_reducible exact Upd.refl _ _ _ _ | exact rfl | exact .inl rfl | exact .inr rfl | with_reducible assumption
    | with_reducible apply Upd.ite | with_reducible apply Upd.step (colRead_upd ..) | with_reducible apply Upd.foldl | split | dsimp only
    | intro _ | with_reducible apply Upd.set

theorem moveOne_upd (die : Nat) (x : Nat) (y : Nat) (o : Nat) (i : Nat) (s : State) :
    Upd [.cores, .fab] [.ch] none s (moveOne die x y o i s) := by
  unfold moveOne
  repeat' first
    | with_reducible exact Upd.refl _ _ _ _ | exact rfl | exact .inl rfl | exact .inr rfl | with_reducible assumption
    | with_reducible apply Upd.ite | with_reducible apply Upd.step (sendOn_upd ..) | split | dsimp only | intro _ | with_reducible apply Upd.set

theorem serveOutput_upd (die : Nat) (x : Nat) (y : Nat) (s : State) (o : Nat) : Upd [.cores, .fab] [.ch] none s (serveOutput die x y s o) := by
  unfold serveOutput
  dsimp only
  split
  · apply Upd.set
    all_goals first | exact .inl rfl | exact .inr rfl | exact Upd.refl _ _ _ _
  · next w _ _ =>
    have h1 := Upd.iterate (fun t => moveOne_upd die x y o w t) s (Upd.refl _ _ _ _) 4
    generalize Nat.repeat _ 4 s = s1 at h1 ⊢
    apply Upd.set
    all_goals first | exact h1 | exact .inl rfl | exact .inr rfl

theorem stopServed_upd (key : Nat) (s : State) {o_ : Option Nat} :
    Upd [.fab] [] o_ s (stopServed key s) := by
  unfold stopServed
  repeat' first
    | with_reducible exact Upd.refl _ _ _ _ | exact rfl | exact .inl rfl | exact .inr rfl | with_reducible assumption
    | with_reducible apply Upd.ite | split | dsimp only | intro _ | with_reducible apply Upd.set

theorem routerForward_upd (die : Nat) (x : Nat) (y : Nat) (s : State) :
    Upd [.cores, .fab] [.ch] none s (routerForward die x y s) := by
  unfold routerForward
  repeat' first
    | with_reducible exact Upd.refl _ _ _ _ | exact rfl | exact .inl rfl | exact .inr rfl | with_reducible assumption
    | with_reducible apply Upd.ite | with_reducible apply Upd.step (serveOutput_upd ..) | with_reducible apply Upd.step (absorbAll_upd ..)
    | with_reducible apply Upd.step (replicate_upd ..) | with_reducible apply Upd.step' (stopServed_upd ..) | with_reducible apply Upd.foldl
    | split | dsimp only | intro _

theorem execRouterForward_upd (die : Nat) (x : Nat) (y : Nat) (s : State) {t : State} (h : execRouterForward die x y s = .next t) :
    Upd [.cores, .fab] [.ch] none s t := by
  refine guarded_upd (fun s => ?_) h
  repeat' first
    | with_reducible exact Upd.refl _ _ _ _ | exact rfl | exact .inl rfl | exact .inr rfl | with_reducible assumption
    | with_reducible apply Upd.ite | with_reducible apply Upd.step (routerForward_upd ..) | split | dsimp only | intro _

theorem externSend_upd (x : Nat × Nat × Nat × Nat × Nat) (s : State) {o_ : Option Nat} :
    Upd [.fab] [] o_ s (externSend x s) := by
  unfold externSend
  repeat' first
    | with_reducible exact Upd.refl _ _ _ _ | exact rfl | exact .inl rfl | exact .inr rfl | with_reducible assumption
    | with_reducible apply Upd.ite | with_reducible apply Upd.step' (ctlSend_upd ..) | with_reducible apply Upd.foldl
    | with_reducible apply Upd.foldl_snd | with_reducible apply Upd.foldl_fst | split | dsimp only | intro _

theorem externTransfer_upd (die : Nat) (region : Nat) (off : Nat) (rows : Nat) (dmod : Nat) (s : State) {o_ : Option Nat} :
    Upd [.host, .fab] [] o_ s (externTransfer die region off rows dmod s) := by
  unfold externTransfer
  repeat' first
    | with_reducible exact Upd.refl _ _ _ _ | exact rfl | exact .inl rfl | exact .inr rfl | with_reducible assumption
    | with_reducible apply Upd.ite | with_reducible apply Upd.step' (externSend_upd ..) | split | dsimp only | intro _
    | with_reducible apply Upd.set

theorem execExternTransfer_upd (die : Nat) (region : Nat) (off : Nat) (rows : Nat) (dmod : Nat) (s : State) {o_ : Option Nat} {t : State} (h : execExternTransfer die region off rows dmod s = .next t) :
    Upd [.host, .fab] [] o_ s t := by
  refine guarded_upd (fun s => ?_) h
  repeat' first
    | with_reducible exact Upd.refl _ _ _ _ | exact rfl | exact .inl rfl | exact .inr rfl | with_reducible assumption
    | with_reducible apply Upd.ite | with_reducible apply Upd.step' (externTransfer_upd ..) | split | dsimp only | intro _

theorem takeSvc_upd (die : Nat) (c : FCell) (s : State) {o_ : Option Nat} :
    Upd [.fab] [] o_ s (takeSvc die c s) := by
  unfold takeSvc
  repeat' first
    | with_reducible exact Upd.refl _ _ _ _ | exact rfl | exact .inl rfl | exact .inr rfl | with_reducible assumption
    | with_reducible apply Upd.ite | split | dsimp only | intro _ | with_reducible apply Upd.set

theorem externArrival_upd (die : Nat) (src : Nat) (c : FCell) (s : State) {o_ : Option Nat} :
    Upd [.cmt, .fab] [] o_ s (externArrival die src c s) := by
  unfold externArrival
  repeat' first
    | with_reducible exact Upd.refl _ _ _ _ | exact rfl | exact .inl rfl | exact .inr rfl | with_reducible assumption
    | with_reducible apply Upd.ite | with_reducible apply Upd.step' (takeSvc_upd ..) | split | dsimp only | intro _
    | with_reducible apply Upd.set

theorem execExternArrival_upd (die : Nat) (src : Nat) (c : FCell) (s : State) {o_ : Option Nat} {t : State} (h : execExternArrival die src c s = .next t) :
    Upd [.cmt, .fab] [] o_ s t := by
  refine guarded_upd (fun s => ?_) h
  repeat' first
    | with_reducible exact Upd.refl _ _ _ _ | exact rfl | exact .inl rfl | exact .inr rfl | with_reducible assumption
    | with_reducible apply Upd.ite | with_reducible apply Upd.step' (externArrival_upd ..) | split | dsimp only | intro _

theorem serviceArrival_upd (die : Nat) (s : State) :
    Upd [.regs, .cores, .dales, .clk, .host, .fab, .pwr, .out] [.q, .busy, .started, .came, .sigs, .job, .obj, .adds, .takes, .fe, .bsn, .mx, .pu, .vx, .ch] none s (serviceArrival die s) := by
  unfold serviceArrival
  repeat' first
    | with_reducible exact Upd.refl _ _ _ _ | exact rfl | exact .inl rfl | exact .inr rfl | with_reducible assumption
    | with_reducible apply Upd.ite | with_reducible apply Upd.step' (takeSvc_upd ..) | with_reducible apply Upd.step (trigger_upd ..) | split
    | dsimp only | intro _

theorem execServiceCellArrival_upd (die : Nat) (s : State) {t : State} (h : execServiceCellArrival die s = .next t) :
    Upd [.regs, .cores, .dales, .clk, .host, .fab, .pwr, .out] [.q, .busy, .started, .came, .sigs, .job, .obj, .adds, .takes, .fe, .bsn, .mx, .pu, .vx, .ch] none s t := by
  refine guarded_upd (fun s => ?_) h
  repeat' first
    | with_reducible exact Upd.refl _ _ _ _ | exact rfl | exact .inl rfl | exact .inr rfl | with_reducible assumption
    | with_reducible apply Upd.ite | with_reducible apply Upd.step (serviceArrival_upd ..) | split | dsimp only | intro _

theorem execSaddleSpareLane_upd (s : State) {o_ : Option Nat} {t : State} (h : execSaddleSpareLane s = .next t) :
    Upd [.regs, .host, .pwr] [] o_ s t := by
  cases h
  repeat' first
    | with_reducible exact Upd.refl _ _ _ _ | exact rfl | exact .inl rfl | exact .inr rfl | with_reducible assumption
    | with_reducible apply Upd.ite | with_reducible apply Upd.step' (irqRaise_upd ..) | split | dsimp only | intro _
    | with_reducible apply Upd.set

end Sys2Proof.Machine
end

