-- ==== Sys2Proof/Laws/Commit.lean ====
section
/-! SUPPORT. What each operation of Sys2Proof/Machine/Commit.lean can change: its footprint. -/
namespace Sys2Proof.Machine
set_option linter.all false

theorem watchSlot_upd (s : State) (k : Nat) {o_ : Option Nat} :
    Upd [.regs, .evts, .cmt, .host] [] o_ s (watchSlot s k) := by
  unfold watchSlot
  repeat' first
    | with_reducible exact Upd.refl _ _ _ _ | exact rfl | exact .inl rfl | exact .inr rfl | with_reducible assumption
    | with_reducible apply Upd.ite | with_reducible apply Upd.step' (progFault_upd ..) | with_reducible apply Upd.step' (note_upd ..) | split
    | dsimp only | intro _ | with_reducible apply Upd.set

theorem watchAll_upd (s : State) {o_ : Option Nat} :
    Upd [.regs, .evts, .cmt, .host] [] o_ s (watchAll s) := by
  unfold watchAll
  repeat' first
    | with_reducible exact Upd.refl _ _ _ _ | exact rfl | exact .inl rfl | exact .inr rfl | with_reducible assumption
    | with_reducible apply Upd.ite | with_reducible apply Upd.step' (watchSlot_upd ..) | with_reducible apply Upd.step' (markSrc_upd ..)
    | with_reducible apply Upd.foldl | split | dsimp only | intro _

theorem closeStreams_upd (p : Nat) (s : State) :
    Upd [.regs, .evts, .cores, .cmt, .host] [.takes, .fe] (some p) s (closeStreams p s) := by
  unfold closeStreams
  repeat' first
    | with_reducible exact Upd.refl _ _ _ _ | exact rfl | exact .inl rfl | exact .inr rfl | with_reducible assumption
    | with_reducible apply Upd.ite | with_reducible apply Upd.step' (progFault_upd ..) | with_reducible apply Upd.step' (feStat_upd ..)
    | with_reducible apply Upd.step (closeCtx_upd ..) | with_reducible apply Upd.foldN | split | dsimp only | intro _

theorem closeEps_upd (p : Nat) (s : State) :
    Upd [.cores] [.ch] (some p) s (closeEps p s) := by
  unfold closeEps
  repeat' first
    | with_reducible exact Upd.refl _ _ _ _ | exact rfl | exact .inl rfl | exact .inr rfl | with_reducible assumption
    | with_reducible apply Upd.ite | with_reducible apply Upd.updCore | with_reducible exact CUpd.refl _ _ | with_reducible apply CUpd.ite
    | with_reducible apply CUpd.set | split | dsimp only | intro _

theorem bandCheck_upd (p : Nat) (s : State) {o_ : Option Nat} :
    Upd [.regs, .evts, .cmt, .host] [] o_ s (bandCheck p s) := by
  unfold bandCheck
  repeat' first
    | with_reducible exact Upd.refl _ _ _ _ | exact rfl | exact .inl rfl | exact .inr rfl | with_reducible assumption
    | with_reducible apply Upd.ite | with_reducible apply Upd.step' (note_upd ..) | with_reducible apply Upd.step' (progFault_upd ..)
    | with_reducible apply Upd.step' (vxFlt_upd ..) | split | dsimp only | intro _

theorem scrubPairs_upd (p : Nat) (s : State) :
    Upd [.cores] [.bsn] (some p) s (scrubPairs p s) := by
  unfold scrubPairs
  repeat' first
    | with_reducible exact Upd.refl _ _ _ _ | exact rfl | exact .inl rfl | exact .inr rfl | with_reducible assumption
    | with_reducible apply Upd.ite | with_reducible apply Upd.updCore | with_reducible exact CUpd.refl _ _ | with_reducible apply CUpd.set
    | split | dsimp only | intro _

theorem coreZone_upd (p : Nat) (s : State) :
    Upd [.regs, .evts, .cores, .cmt, .host] [.takes, .fe, .bsn, .ch] (some p) s (coreZone p s) := by
  unfold coreZone
  repeat' first
    | with_reducible exact Upd.refl _ _ _ _ | exact rfl | exact .inl rfl | exact .inr rfl | with_reducible assumption
    | with_reducible apply Upd.ite | with_reducible apply Upd.step (closeEps_upd ..) | with_reducible apply Upd.step (scrubPairs_upd ..)
    | with_reducible apply Upd.step' (flagAudit_upd ..) | with_reducible apply Upd.step' (bandCheck_upd ..)
    | with_reducible apply Upd.step (closeStreams_upd ..) | split | dsimp only | intro _

theorem zoneWork_upd (s : State) :
    Upd [.regs, .evts, .cores, .clk, .cmt, .host] [.takes, .fe, .bsn, .ch] none s (zoneWork s) := by
  unfold zoneWork
  repeat' first
    | with_reducible exact Upd.refl _ _ _ _ | exact rfl | exact .inl rfl | exact .inr rfl | with_reducible assumption
    | with_reducible apply Upd.ite | with_reducible apply Upd.step' (watchAll_upd ..) | with_reducible apply eachCore_upd
    | with_reducible apply Upd.step (coreZone_upd ..) | with_reducible apply Upd.step' (markSrc_upd ..) | split | dsimp only | intro _
    | with_reducible apply Upd.set

theorem abandon_upd (s : State) :
    Upd [.cores, .dales, .cmt] [.q] none s (abandon s) := by
  unfold abandon
  repeat' first
    | with_reducible exact Upd.refl _ _ _ _ | exact rfl | exact .inl rfl | exact .inr rfl | with_reducible assumption
    | with_reducible apply Upd.ite | with_reducible apply Upd.step' (markSrc_upd ..) | with_reducible apply Upd.setMap
    | with_reducible exact CUpd.refl _ _ | with_reducible apply CUpd.ite | with_reducible apply CUpd.set | split | dsimp only | intro _
    | with_reducible apply Upd.set

theorem zoneErrors_upd (ev : List HwEvent) (s : State) :
    Upd [.cores, .cmt] [.bsn] none s (zoneErrors ev s) := by
  unfold zoneErrors
  repeat' first
    | with_reducible exact Upd.refl _ _ _ _ | exact rfl | exact .inl rfl | exact .inr rfl | with_reducible assumption
    | with_reducible apply Upd.ite | with_reducible apply Upd.step' (markSrc_upd ..) | with_reducible apply Upd.updCore
    | with_reducible exact CUpd.refl _ _ | with_reducible apply CUpd.foldN | with_reducible apply CUpd.set | with_reducible apply Upd.foldl
    | split | dsimp only | intro _

theorem zoneOpen_upd (ev : List HwEvent) (s : State) :
    Upd [.regs, .evts, .cores, .dales, .clk, .cmt, .host] [.q, .takes, .fe, .bsn, .ch] none s (zoneOpen ev s) := by
  unfold zoneOpen
  repeat' first
    | with_reducible exact Upd.refl _ _ _ _ | exact rfl | exact .inl rfl | exact .inr rfl | with_reducible assumption
    | with_reducible apply Upd.ite | with_reducible apply Upd.step (zoneWork_upd ..) | with_reducible apply Upd.step (zoneErrors_upd ..)
    | with_reducible apply Upd.step (abandon_upd ..) | with_reducible apply Upd.step' (markSrc_upd ..)
    | with_reducible apply Upd.step' (note_upd ..) | split | dsimp only | intro _ | with_reducible apply Upd.set

theorem execCommitZoneOpen_upd (ev : List HwEvent) (s : State) {t : State} (h : execCommitZoneOpen ev s = .next t) :
    Upd [.regs, .evts, .cores, .dales, .clk, .cmt, .host] [.q, .takes, .fe, .bsn, .ch] none s t := by
  cases h
  repeat' first
    | with_reducible exact Upd.refl _ _ _ _ | exact rfl | exact .inl rfl | exact .inr rfl | with_reducible assumption
    | with_reducible apply Upd.ite | with_reducible apply Upd.step (zoneOpen_upd ..) | split | dsimp only | intro _

theorem takeVote_upd (v : Vote) (verdict : Bool) (s : State) {o_ : Option Nat} :
    Upd [.fab] [] o_ s (takeVote v verdict s) := by
  unfold takeVote
  repeat' first
    | with_reducible exact Upd.refl _ _ _ _ | exact rfl | exact .inl rfl | exact .inr rfl | with_reducible assumption
    | with_reducible apply Upd.ite | with_reducible apply Upd.step' (takeSvc_upd ..) | split | dsimp only | intro _

theorem passUp_upd (s : State) {o_ : Option Nat} :
    Upd [.fab] [] o_ s (passUp s) := by
  unfold passUp
  repeat' first
    | with_reducible exact Upd.refl _ _ _ _ | exact rfl | exact .inl rfl | exact .inr rfl | with_reducible assumption
    | with_reducible apply Upd.ite | with_reducible apply Upd.step' (ctlSend_upd ..) | split | dsimp only | intro _

theorem voteSend_upd (s : State) {o_ : Option Nat} :
    Upd [.cmt, .fab] [] o_ s (voteSend s) := by
  unfold voteSend
  repeat' first
    | with_reducible exact Upd.refl _ _ _ _ | exact rfl | exact .inl rfl | exact .inr rfl | with_reducible assumption
    | with_reducible apply Upd.ite | with_reducible apply Upd.step' (passUp_upd ..) | split | dsimp only | intro _ | with_reducible apply Upd.set

theorem execVoteSend_upd (s : State) {o_ : Option Nat} {t : State} (h : execVoteSend s = .next t) :
    Upd [.cmt, .fab] [] o_ s t := by
  cases h
  repeat' first
    | with_reducible exact Upd.refl _ _ _ _ | exact rfl | exact .inl rfl | exact .inr rfl | with_reducible assumption
    | with_reducible apply Upd.ite | with_reducible apply Upd.step' (voteSend_upd ..) | split | dsimp only | intro _

theorem sendVerdict_upd (v : Vote) (to_ : List Nat) (s : State) {o_ : Option Nat} :
    Upd [.fab] [] o_ s (sendVerdict v to_ s) := by
  unfold sendVerdict
  repeat' first
    | with_reducible exact Upd.refl _ _ _ _ | exact rfl | exact .inl rfl | exact .inr rfl | with_reducible assumption
    | with_reducible apply Upd.ite | with_reducible apply Upd.step' (ctlSend_upd ..) | with_reducible apply Upd.foldl | split | dsimp only
    | intro _

theorem resendLast_upd (v : Vote) (s : State) {o_ : Option Nat} :
    Upd [.fab] [] o_ s (resendLast v s) := by
  unfold resendLast
  repeat' first
    | with_reducible exact Upd.refl _ _ _ _ | exact rfl | exact .inl rfl | exact .inr rfl | with_reducible assumption
    | with_reducible apply Upd.ite | with_reducible apply Upd.step' (sendVerdict_upd ..) | split | dsimp only | intro _

theorem voteArrival_upd (v : Vote) (s : State) {o_ : Option Nat} :
    Upd [.cmt, .fab] [] o_ s (voteArrival v s) := by
  unfold voteArrival
  repeat' first
    | with_reducible exact Upd.refl _ _ _ _ | exact rfl | exact .inl rfl | exact .inr rfl | with_reducible assumption
    | with_reducible apply Upd.ite | with_reducible apply Upd.step' (takeVote_upd ..) | with_reducible apply Upd.step' (passUp_upd ..)
    | with_reducible apply Upd.step' (resendLast_upd ..) | split | dsimp only | intro _ | with_reducible apply Upd.set

theorem execVoteArrival_upd (v : Vote) (s : State) {o_ : Option Nat} {t : State} (h : execVoteArrival v s = .next t) :
    Upd [.cmt, .fab] [] o_ s t := by
  cases h
  repeat' first
    | with_reducible exact Upd.refl _ _ _ _ | exact rfl | exact .inl rfl | exact .inr rfl | with_reducible assumption
    | with_reducible apply Upd.ite | with_reducible apply Upd.step' (voteArrival_upd ..) | split | dsimp only | intro _

theorem voteCutoff_upd (s : State) {o_ : Option Nat} :
    Upd [.regs, .cmt] [] o_ s (voteCutoff s) := by
  unfold voteCutoff
  repeat' first
    | with_reducible exact Upd.refl _ _ _ _ | exact rfl | exact .inl rfl | exact .inr rfl | with_reducible assumption
    | with_reducible apply Upd.ite | with_reducible apply Upd.step' (setReg_upd ..) | split | dsimp only | intro _ | with_reducible apply Upd.set

theorem execVoteCutoff_upd (s : State) {o_ : Option Nat} {t : State} (h : execVoteCutoff s = .next t) :
    Upd [.regs, .cmt] [] o_ s t := by
  cases h
  repeat' first
    | with_reducible exact Upd.refl _ _ _ _ | exact rfl | exact .inl rfl | exact .inr rfl | with_reducible assumption
    | with_reducible apply Upd.ite | with_reducible apply Upd.step' (voteCutoff_upd ..) | split | dsimp only | intro _

theorem takeVerdict_upd (v : Vote) (s : State) {o_ : Option Nat} :
    Upd [.regs, .cmt, .fab] [] o_ s (takeVerdict v s) := by
  unfold takeVerdict
  repeat' first
    | with_reducible exact Upd.refl _ _ _ _ | exact rfl | exact .inl rfl | exact .inr rfl | with_reducible assumption
    | with_reducible apply Upd.ite | with_reducible apply Upd.step' (sendVerdict_upd ..) | with_reducible apply Upd.step' (setReg_upd ..)
    | with_reducible apply Upd.step' (setField_upd ..) | split | dsimp only | intro _ | with_reducible apply Upd.set

theorem verdictDecide_upd (s : State) {o_ : Option Nat} :
    Upd [.regs, .cmt, .fab] [] o_ s (verdictDecide s) := by
  unfold verdictDecide
  repeat' first
    | with_reducible exact Upd.refl _ _ _ _ | exact rfl | exact .inl rfl | exact .inr rfl | with_reducible assumption
    | with_reducible apply Upd.ite | with_reducible apply Upd.step' (takeVerdict_upd ..) | split | dsimp only | intro _
    | with_reducible apply Upd.set

theorem execVerdictDecide_upd (s : State) {o_ : Option Nat} {t : State} (h : execVerdictDecide s = .next t) :
    Upd [.regs, .cmt, .fab] [] o_ s t := by
  cases h
  repeat' first
    | with_reducible exact Upd.refl _ _ _ _ | exact rfl | exact .inl rfl | exact .inr rfl | with_reducible assumption
    | with_reducible apply Upd.ite | with_reducible apply Upd.step' (verdictDecide_upd ..) | split | dsimp only | intro _

theorem verdictArrival_upd (v : Vote) (s : State) {o_ : Option Nat} :
    Upd [.regs, .cmt, .fab] [] o_ s (verdictArrival v s) := by
  unfold verdictArrival
  repeat' first
    | with_reducible exact Upd.refl _ _ _ _ | exact rfl | exact .inl rfl | exact .inr rfl | with_reducible assumption
    | with_reducible apply Upd.ite | with_reducible apply Upd.step' (takeVote_upd ..) | with_reducible apply Upd.step' (takeVerdict_upd ..)
    | with_reducible apply Upd.step' (sendVerdict_upd ..) | split | dsimp only | intro _ | with_reducible apply Upd.set

theorem execVerdictArrival_upd (v : Vote) (s : State) {o_ : Option Nat} {t : State} (h : execVerdictArrival v s = .next t) :
    Upd [.regs, .cmt, .fab] [] o_ s t := by
  cases h
  repeat' first
    | with_reducible exact Upd.refl _ _ _ _ | exact rfl | exact .inl rfl | exact .inr rfl | with_reducible assumption
    | with_reducible apply Upd.ite | with_reducible apply Upd.step' (verdictArrival_upd ..) | split | dsimp only | intro _

theorem fenceEntry_upd (kind : Nat) (id : Nat) (s : State) {o_ : Option Nat} :
    Upd [.cmt] [] o_ s (fenceEntry kind id s) := by
  unfold fenceEntry
  repeat' first
    | with_reducible exact Upd.refl _ _ _ _ | exact rfl | exact .inl rfl | exact .inr rfl | with_reducible assumption
    | with_reducible apply Upd.ite | split | dsimp only | intro _ | with_reducible apply Upd.set

theorem fencedCore_upd (c : Core) : CUpd [.modeNext, .fenced, .mx] c (fencedCore c) := by
  unfold fencedCore
  repeat' first
    | with_reducible exact CUpd.refl _ _ | exact rfl | exact .inl rfl | exact .inr rfl | with_reducible assumption | split | dsimp only | intro _
    | with_reducible apply CUpd.set

theorem fenceCore_upd (p : Nat) (s : State) :
    Upd [.cores, .cmt, .fab] [.modeNext, .fenced, .mx] (some p) s (fenceCore p s) := by
  unfold fenceCore
  repeat' first
    | with_reducible exact Upd.refl _ _ _ _ | exact rfl | exact .inl rfl | exact .inr rfl | with_reducible assumption
    | with_reducible apply Upd.ite | with_reducible apply Upd.step' (fenceEntry_upd ..) | with_reducible apply Upd.updCore
    | with_reducible exact CUpd.refl _ _ | with_reducible apply CUpd.step (fencedCore_upd ..) | with_reducible apply CUpd.ite
    | with_reducible apply CUpd.set | split | dsimp only | intro _ | with_reducible apply Upd.set

theorem fencePc_upd (s : State) (key : Nat) {o_ : Option Nat} :
    Upd [.regs, .hbm, .cmt, .host, .pwr] [] o_ s (fencePc s key) := by
  unfold fencePc
  repeat' first
    | with_reducible exact Upd.refl _ _ _ _ | exact rfl | exact .inl rfl | exact .inr rfl | with_reducible assumption
    | with_reducible apply Upd.ite | with_reducible apply Upd.step' (fenceEntry_upd ..) | with_reducible apply Upd.step' (irqRaise_upd ..)
    | split | dsimp only | intro _ | with_reducible apply Upd.set

theorem fencePersistent_upd (s : State) :
    Upd [.regs, .cores, .hbm, .cmt, .host, .fab, .pwr] [.modeNext, .fenced, .mx] none s (fencePersistent s) := by
  unfold fencePersistent
  repeat' first
    | with_reducible exact Upd.refl _ _ _ _ | exact rfl | exact .inl rfl | exact .inr rfl | with_reducible assumption
    | with_reducible apply Upd.ite | with_reducible apply Upd.step' (fencePc_upd ..) | with_reducible apply Upd.step (fenceCore_upd ..)
    | with_reducible apply Upd.foldl | split | dsimp only | intro _

theorem fenceEscalated_upd (own : Nat) (s : State) :
    Upd [.regs, .evts, .cores, .hbm, .cmt, .host, .fab, .pwr] [.modeNext, .fenced, .mx] none s (fenceEscalated own s) := by
  unfold fenceEscalated
  repeat' first
    | with_reducible exact Upd.refl _ _ _ _ | exact rfl | exact .inl rfl | exact .inr rfl | with_reducible assumption
    | with_reducible apply Upd.ite | with_reducible apply Upd.step' (fencePc_upd ..) | with_reducible apply Upd.step' (fencePort_upd ..)
    | with_reducible apply Upd.step (fenceCore_upd ..) | with_reducible apply Upd.foldl | split | dsimp only | intro _

theorem closeRecord_upd (slot : Nat) (outcome : Nat) (late : Bool) (v : Vote) (s : State) {o_ : Option Nat} :
    Upd [.cmt] [] o_ s (closeRecord slot outcome late v s) := by
  unfold closeRecord
  repeat' first
    | with_reducible exact Upd.refl _ _ _ _ | exact rfl | exact .inl rfl | exact .inr rfl | with_reducible assumption
    | with_reducible apply Upd.ite | with_reducible apply Upd.step' (updRecs_upd ..) | split | dsimp only | intro _

theorem flipPages_upd (s : State) {o_ : Option Nat} :
    Upd [.hbm] [] o_ s (flipPages s) := by
  unfold flipPages
  repeat' first
    | with_reducible exact Upd.refl _ _ _ _ | exact rfl | exact .inl rfl | exact .inr rfl | with_reducible assumption
    | with_reducible apply Upd.ite | with_reducible apply Upd.foldl | split | dsimp only | intro _ | with_reducible apply Upd.set

theorem sendExterns_upd (s : State) {o_ : Option Nat} :
    Upd [.hbm, .host, .fab] [] o_ s (sendExterns s) := by
  unfold sendExterns
  repeat' first
    | with_reducible exact Upd.refl _ _ _ _ | exact rfl | exact .inl rfl | exact .inr rfl | with_reducible assumption
    | with_reducible apply Upd.ite | with_reducible apply Upd.step' (flipPages_upd ..) | with_reducible apply Upd.step' (ctlSend_upd ..)
    | with_reducible apply Upd.foldl | with_reducible apply Upd.foldl_snd | with_reducible apply Upd.foldl_fst | split | dsimp only | intro _
    | with_reducible apply Upd.set

theorem sendAlerts_upd (slot : Nat) (s : State) {o_ : Option Nat} :
    Upd [.regs, .host] [] o_ s (sendAlerts slot s) := by
  unfold sendAlerts
  repeat' first
    | with_reducible exact Upd.refl _ _ _ _ | exact rfl | exact .inl rfl | exact .inr rfl | with_reducible assumption
    | with_reducible apply Upd.ite | with_reducible apply Upd.step' (pushRing_upd ..) | with_reducible apply Upd.step' (satField_upd ..)
    | with_reducible apply Upd.foldl | split | dsimp only | intro _

theorem ringsStill_upd (s : State) {o_ : Option Nat} :
    Upd [.host] [] o_ s (ringsStill s) := by
  unfold ringsStill
  repeat' first
    | with_reducible exact Upd.refl _ _ _ _ | exact rfl | exact .inl rfl | exact .inr rfl | with_reducible assumption
    | with_reducible apply Upd.ite | with_reducible apply Upd.step' (updHp_upd ..) | split | dsimp only | intro _

theorem startRelease_upd (slot : Nat) (s : State) {o_ : Option Nat} :
    Upd [.regs, .hbm, .host, .fab] [] o_ s (startRelease slot s) := by
  unfold startRelease
  repeat' first
    | with_reducible exact Upd.refl _ _ _ _ | exact rfl | exact .inl rfl | exact .inr rfl | with_reducible assumption
    | with_reducible apply Upd.ite | with_reducible apply Upd.step' (ringsStill_upd ..) | with_reducible apply Upd.step' (sendExterns_upd ..)
    | with_reducible apply Upd.step' (sendAlerts_upd ..) | with_reducible apply Upd.step' (releaseEgress_upd ..) | split | dsimp only | intro _
    | with_reducible apply Upd.set

theorem coreSnap_upd (s : State) (p : Nat) (c : Core) : CUpd [.pubObj, .pubEp, .pubEpoch, .pubFord, .pc, .vlog, .vold] c (coreSnap s p c) := by
  unfold coreSnap
  repeat' first
    | with_reducible exact CUpd.refl _ _ | exact rfl | exact .inl rfl | exact .inr rfl | with_reducible assumption | split | dsimp only | intro _
    | with_reducible apply CUpd.set

theorem activityCounts_upd (s : State) {o_ : Option Nat} :
    Upd [.trc, .fresh] [] o_ s (activityCounts s) := by
  unfold activityCounts
  repeat' first
    | with_reducible exact Upd.refl _ _ _ _ | exact rfl | exact .inl rfl | exact .inr rfl | with_reducible assumption
    | with_reducible apply Upd.ite | with_reducible apply Upd.step' (drawn_upd ..) | with_reducible apply Upd.step' (gcount_upd ..)
    | with_reducible apply Upd.foldl | with_reducible apply Upd.foldl_snd | with_reducible apply Upd.foldl_fst | split | dsimp only | intro _

theorem snapshots_upd (s : State) :
    Upd [.cores, .fab, .trc, .fresh] [.pubObj, .pubEp, .pubEpoch, .pubFord, .pc, .vlog, .vold] none s (snapshots s) := by
  unfold snapshots
  repeat' first
    | with_reducible exact Upd.refl _ _ _ _ | exact rfl | exact .inl rfl | exact .inr rfl | with_reducible assumption
    | with_reducible apply Upd.ite | with_reducible apply Upd.step' (activityCounts_upd ..) | with_reducible apply Upd.step' (gcount_upd ..)
    | with_reducible apply Upd.setMap | with_reducible exact CUpd.refl _ _ | with_reducible apply CUpd.step (coreSnap_upd ..)
    | with_reducible apply CUpd.set | split | dsimp only | intro _ | with_reducible apply Upd.set

theorem tickLink_upd (slot : Nat) (s : State) {o_ : Option Nat} :
    Upd [.sec] [] o_ s (tickLink slot s) := by
  unfold tickLink
  repeat' first
    | with_reducible exact Upd.refl _ _ _ _ | exact rfl | exact .inl rfl | exact .inr rfl | with_reducible assumption
    | with_reducible apply Upd.ite | with_reducible apply Upd.step' (addLink_upd ..) | split | dsimp only | intro _

theorem showTrace_upd (s : State) {o_ : Option Nat} :
    Upd [.trc] [] o_ s (showTrace s) := by
  unfold showTrace
  repeat' first
    | with_reducible exact Upd.refl _ _ _ _ | exact rfl | exact .inl rfl | exact .inr rfl | with_reducible assumption
    | with_reducible apply Upd.ite | split | dsimp only | intro _ | with_reducible apply Upd.set

theorem tickOver_upd (s : State) {o_ : Option Nat} :
    Upd [.clk, .cmt] [] o_ s (tickOver s) := by
  unfold tickOver
  repeat' first
    | with_reducible exact Upd.refl _ _ _ _ | exact rfl | exact .inl rfl | exact .inr rfl | with_reducible assumption
    | with_reducible apply Upd.ite | split | dsimp only | intro _ | with_reducible apply Upd.set

theorem commitTick_upd (slot : Nat) (late : Bool) (v : Vote) (s : State) :
    Upd [.regs, .evts, .cores, .clk, .task, .hbm, .cmt, .host, .fab, .sec, .trc, .fresh] [.pubObj, .pubEp, .pubEpoch, .pubFord, .bsn, .pc, .vlog, .vold] none s (commitTick slot late v s) := by
  unfold commitTick
  repeat' first
    | with_reducible exact Upd.refl _ _ _ _ | exact rfl | exact .inl rfl | exact .inr rfl | with_reducible assumption
    | with_reducible apply Upd.ite | with_reducible apply Upd.step' (closeRecord_upd ..) | with_reducible apply eachCore_upd
    | with_reducible apply Upd.step (applyRepairs_upd ..) | with_reducible apply Upd.step' (publishEvts_upd ..)
    | with_reducible apply Upd.step' (showTrace_upd ..) | with_reducible apply Upd.step (snapshots_upd ..)
    | with_reducible apply Upd.step' (tickLink_upd ..) | with_reducible apply Upd.step' (startRelease_upd ..)
    | with_reducible apply Upd.step' (freeEntries_upd ..) | with_reducible apply Upd.step' (tickOver_upd ..) | split | dsimp only | intro _
    | with_reducible apply Upd.set

theorem correctSlots_upd (m : BitVec 256) (s : State) {o_ : Option Nat} :
    Upd [.regs, .cmt, .host] [] o_ s (correctSlots m s) := by
  unfold correctSlots
  repeat' first
    | with_reducible exact Upd.refl _ _ _ _ | exact rfl | exact .inl rfl | exact .inr rfl | with_reducible assumption
    | with_reducible apply Upd.ite | with_reducible apply Upd.step' (setField_upd ..) | with_reducible apply Upd.step' (setBits_upd ..)
    | with_reducible apply Upd.step' (satField_upd ..) | with_reducible apply Upd.foldl | split | dsimp only | intro _
    | with_reducible apply Upd.set

theorem holdFences_upd (v : Vote) (s : State) :
    Upd [.regs, .evts, .cores, .hbm, .cmt, .host, .fab, .pwr] [.modeNext, .fenced, .mx] none s (holdFences v s) := by
  unfold holdFences
  repeat' first
    | with_reducible exact Upd.refl _ _ _ _ | exact rfl | exact .inl rfl | exact .inr rfl | with_reducible assumption
    | with_reducible apply Upd.ite | with_reducible apply Upd.step (fencePersistent_upd ..)
    | with_reducible apply Upd.step (fenceEscalated_upd ..) | split | dsimp only | intro _

theorem enterHold_upd (v : Vote) (n : Nat) (s : State) {o_ : Option Nat} :
    Upd [.regs, .cmt, .host, .out] [] o_ s (enterHold v n s) := by
  unfold enterHold
  repeat' first
    | with_reducible exact Upd.refl _ _ _ _ | exact rfl | exact .inl rfl | exact .inr rfl | with_reducible assumption
    | with_reducible apply Upd.ite | with_reducible apply Upd.step' (irqRaise_upd ..) | with_reducible apply Upd.step' (satField_upd ..)
    | with_reducible apply Upd.step' (emit_upd ..) | with_reducible apply Upd.step' (taskFault_upd ..)
    | with_reducible apply Upd.step' (setReg64_upd ..) | split | dsimp only | intro _ | with_reducible apply Upd.set

theorem closeEmpty_upd (slot : Nat) (v : Vote) (s : State) {o_ : Option Nat} :
    Upd [.cmt] [] o_ s (closeEmpty slot v s) := by
  unfold closeEmpty
  repeat' first
    | with_reducible exact Upd.refl _ _ _ _ | exact rfl | exact .inl rfl | exact .inr rfl | with_reducible assumption
    | with_reducible apply Upd.ite | with_reducible apply Upd.step' (updRecs_upd ..) | split | dsimp only | intro _

theorem dropRun_upd (v : Vote) (s : State) :
    Upd [.cores, .hbm, .cmt, .host] [.pc] none s (dropRun v s) := by
  unfold dropRun
  repeat' first
    | with_reducible exact Upd.refl _ _ _ _ | exact rfl | exact .inl rfl | exact .inr rfl | with_reducible assumption
    | with_reducible apply Upd.ite | with_reducible apply Upd.setMap | with_reducible exact CUpd.refl _ _ | with_reducible apply CUpd.ite
    | with_reducible apply CUpd.set | split | dsimp only | intro _ | with_reducible apply Upd.set

theorem discardTick_upd (slot : Nat) (late : Bool) (ran : Bool) (v : Vote) (s : State) :
    Upd [.regs, .evts, .cores, .clk, .hbm, .cmt, .host, .fab, .trc, .pwr, .out] [.modeNext, .fenced, .bsn, .mx, .pc] none s (discardTick slot late ran v s) := by
  unfold discardTick
  repeat' first
    | with_reducible exact Upd.refl _ _ _ _ | exact rfl | exact .inl rfl | exact .inr rfl | with_reducible assumption
    | with_reducible apply Upd.ite | with_reducible apply Upd.step (holdFences_upd ..) | with_reducible apply Upd.step' (showTrace_upd ..)
    | with_reducible apply eachCore_upd | with_reducible apply Upd.step (applyRepairs_upd ..)
    | with_reducible apply Upd.step' (publishEvts_upd ..) | with_reducible apply Upd.step' (gcount_upd ..)
    | with_reducible apply Upd.step (dropRun_upd ..) | with_reducible apply Upd.step' (closeRecord_upd ..)
    | with_reducible apply Upd.step' (closeEmpty_upd ..) | with_reducible apply Upd.step' (irqRaise_upd ..)
    | with_reducible apply Upd.step' (satField_upd ..) | with_reducible apply Upd.step' (correctSlots_upd ..)
    | with_reducible apply Upd.step' (enterHold_upd ..) | with_reducible apply Upd.step' (tickOver_upd ..) | split | dsimp only | intro _
    | with_reducible apply Upd.set

theorem overrunTick_upd (slot : Nat) (v : Vote) (s : State) {o_ : Option Nat} :
    Upd [.clk, .cmt] [] o_ s (overrunTick slot v s) := by
  unfold overrunTick
  repeat' first
    | with_reducible exact Upd.refl _ _ _ _ | exact rfl | exact .inl rfl | exact .inr rfl | with_reducible assumption
    | with_reducible apply Upd.ite | with_reducible apply Upd.step' (updRecs_upd ..) | split | dsimp only | intro _
    | with_reducible apply Upd.set

theorem settleDoubt_upd (s : State) :
    Upd [.regs, .evts, .cores, .clk, .task, .hbm, .cmt, .host, .fab, .sec, .trc, .pwr, .fresh, .out] [.modeNext, .fenced, .pubObj, .pubEp, .pubEpoch, .pubFord, .bsn, .mx, .pc, .vlog, .vold] none s (settleDoubt s) := by
  unfold settleDoubt
  repeat' first
    | with_reducible exact Upd.refl _ _ _ _ | exact rfl | exact .inl rfl | exact .inr rfl | with_reducible assumption
    | with_reducible apply Upd.ite | with_reducible apply Upd.step (commitTick_upd ..) | with_reducible apply Upd.step (discardTick_upd ..)
    | split | dsimp only | intro _ | with_reducible apply Upd.set

theorem verdictDone_upd (v : Vote) (s : State) {o_ : Option Nat} :
    Upd [.cmt] [] o_ s (verdictDone v s) := by
  unfold verdictDone
  repeat' first
    | with_reducible exact Upd.refl _ _ _ _ | exact rfl | exact .inl rfl | exact .inr rfl | with_reducible assumption
    | with_reducible apply Upd.ite | split | dsimp only | intro _ | with_reducible apply Upd.set

theorem applyVerdict_upd (v : Vote) (s : State) :
    Upd [.regs, .evts, .cores, .clk, .task, .hbm, .cmt, .host, .fab, .sec, .trc, .pwr, .fresh, .out] [.modeNext, .fenced, .pubObj, .pubEp, .pubEpoch, .pubFord, .bsn, .mx, .pc, .vlog, .vold] none s (applyVerdict v s) := by
  unfold applyVerdict
  repeat' first
    | with_reducible exact Upd.refl _ _ _ _ | exact rfl | exact .inl rfl | exact .inr rfl | with_reducible assumption
    | with_reducible apply Upd.ite | with_reducible apply Upd.step' (verdictDone_upd ..) | with_reducible apply Upd.step (commitTick_upd ..)
    | with_reducible apply Upd.step (settleDoubt_upd ..) | with_reducible apply Upd.step' (overrunTick_upd ..)
    | with_reducible apply Upd.step (discardTick_upd ..) | split | dsimp only | intro _

theorem watershedCommit_upd (s : State) :
    Upd [.regs, .evts, .cores, .clk, .task, .hbm, .cmt, .host, .fab, .sec, .trc, .pwr, .fresh, .out] [.modeNext, .fenced, .pubObj, .pubEp, .pubEpoch, .pubFord, .bsn, .mx, .pc, .vlog, .vold] none s (watershedCommit s) := by
  unfold watershedCommit
  repeat' first
    | with_reducible exact Upd.refl _ _ _ _ | exact rfl | exact .inl rfl | exact .inr rfl | with_reducible assumption
    | with_reducible apply Upd.ite | with_reducible apply Upd.step (applyVerdict_upd ..) | split | dsimp only | intro _

theorem execWatershedCommit_upd (s : State) {t : State} (h : execWatershedCommit s = .next t) :
    Upd [.regs, .evts, .cores, .clk, .task, .hbm, .cmt, .host, .fab, .sec, .trc, .pwr, .fresh, .out] [.modeNext, .fenced, .pubObj, .pubEp, .pubEpoch, .pubFord, .bsn, .mx, .pc, .vlog, .vold] none s t := by
  cases h
  repeat' first
    | with_reducible exact Upd.refl _ _ _ _ | exact rfl | exact .inl rfl | exact .inr rfl | with_reducible assumption
    | with_reducible apply Upd.ite | with_reducible apply Upd.step (watershedCommit_upd ..) | split | dsimp only | intro _

theorem watershedDiscard_upd (s : State) :
    Upd [.regs, .evts, .cores, .clk, .task, .hbm, .cmt, .host, .fab, .sec, .trc, .pwr, .fresh, .out] [.modeNext, .fenced, .pubObj, .pubEp, .pubEpoch, .pubFord, .bsn, .mx, .pc, .vlog, .vold] none s (watershedDiscard s) := by
  unfold watershedDiscard
  repeat' first
    | with_reducible exact Upd.refl _ _ _ _ | exact rfl | exact .inl rfl | exact .inr rfl | with_reducible assumption
    | with_reducible apply Upd.ite | with_reducible apply Upd.step (applyVerdict_upd ..) | split | dsimp only | intro _

theorem execWatershedDiscard_upd (s : State) {t : State} (h : execWatershedDiscard s = .next t) :
    Upd [.regs, .evts, .cores, .clk, .task, .hbm, .cmt, .host, .fab, .sec, .trc, .pwr, .fresh, .out] [.modeNext, .fenced, .pubObj, .pubEp, .pubEpoch, .pubFord, .bsn, .mx, .pc, .vlog, .vold] none s t := by
  cases h
  repeat' first
    | with_reducible exact Upd.refl _ _ _ _ | exact rfl | exact .inl rfl | exact .inr rfl | with_reducible assumption
    | with_reducible apply Upd.ite | with_reducible apply Upd.step (watershedDiscard_upd ..) | split | dsimp only | intro _

theorem doubtNow_upd (s : State) {o_ : Option Nat} :
    Upd [.regs, .clk, .cmt, .host] [] o_ s (doubtNow s) := by
  unfold doubtNow
  repeat' first
    | with_reducible exact Upd.refl _ _ _ _ | exact rfl | exact .inl rfl | exact .inr rfl | with_reducible assumption
    | with_reducible apply Upd.ite | with_reducible apply Upd.step' (irqRaise_upd ..) | split | dsimp only | intro _
    | with_reducible apply Upd.set

theorem enterDoubt_upd (s : State) {o_ : Option Nat} :
    Upd [.regs, .clk, .cmt, .host] [] o_ s (enterDoubt s) := by
  unfold enterDoubt
  repeat' first
    | with_reducible exact Upd.refl _ _ _ _ | exact rfl | exact .inl rfl | exact .inr rfl | with_reducible assumption
    | with_reducible apply Upd.ite | with_reducible apply Upd.step' (doubtNow_upd ..) | split | dsimp only | intro _

theorem execInDoubt_upd (s : State) {o_ : Option Nat} {t : State} (h : execInDoubt s = .next t) :
    Upd [.regs, .clk, .cmt, .host] [] o_ s t := by
  cases h
  repeat' first
    | with_reducible exact Upd.refl _ _ _ _ | exact rfl | exact .inl rfl | exact .inr rfl | with_reducible assumption
    | with_reducible apply Upd.ite | with_reducible apply Upd.step' (enterDoubt_upd ..) | split | dsimp only | intro _

theorem execDomainResume_upd (port : Port) (s : State) {o_ : Option Nat} {t : State} (h : execDomainResume port s = .next t) :
    Upd [.regs, .cmt, .host] [] o_ s t := by
  cases h
  repeat' first
    | with_reducible exact Upd.refl _ _ _ _ | exact rfl | exact .inl rfl | exact .inr rfl | with_reducible assumption
    | with_reducible apply Upd.ite | with_reducible apply woGate_upd | split | dsimp only | intro _ | with_reducible apply Upd.set

theorem zeroBasins_upd (s : State) :
    Upd [.cores] [.bsn] none s (zeroBasins s) := by
  unfold zeroBasins
  repeat' first
    | with_reducible exact Upd.refl _ _ _ _ | exact rfl | exact .inl rfl | exact .inr rfl | with_reducible assumption
    | with_reducible apply Upd.ite | with_reducible apply eachCore_upd | with_reducible apply Upd.updCore | with_reducible exact CUpd.refl _ _
    | with_reducible apply CUpd.ite | with_reducible apply CUpd.set | split | dsimp only | intro _

theorem reloadTask_upd (img : Image) (old : Loaded) (s : State) :
    Upd [.regs, .cores, .dales, .holds, .task, .phase, .cmt, .host, .fab, .sec, .pwr, .out] [.modeNext, .stale, .lidx, .k, .task, .modIdx, .obj, .adds, .takes, .bsn, .mx, .vx, .vlog, .vold] none s (reloadTask img old s) := by
  unfold reloadTask
  repeat' first
    | with_reducible exact Upd.refl _ _ _ _ | exact rfl | exact .inl rfl | exact .inr rfl | with_reducible assumption
    | with_reducible apply Upd.ite | with_reducible apply Upd.step (zeroBasins_upd ..) | with_reducible apply Upd.step (abortPhase_upd ..)
    | with_reducible apply Upd.step' (emit_upd ..) | with_reducible apply Upd.step (writeTask_upd ..)
    | with_reducible apply Upd.step' (addLink_upd ..) | split | dsimp only | intro _ | with_reducible apply Upd.set

theorem coreFenceReload_upd (p : Nat) (s : State) :
    Upd [.regs, .cores, .dales, .holds, .task, .phase, .cmt, .host, .fab, .sec, .pwr, .out] [.modeNext, .fenced, .stale, .lidx, .k, .task, .modIdx, .obj, .adds, .takes, .bsn, .mx, .vx, .vlog, .vold] none s (coreFenceReload p s) := by
  unfold coreFenceReload
  repeat' first
    | with_reducible exact Upd.refl _ _ _ _ | exact rfl | exact .inl rfl | exact .inr rfl | with_reducible assumption
    | with_reducible apply Upd.ite | with_reducible apply Upd.step (reloadTask_upd ..) | with_reducible apply Upd.step (fenceCore_upd ..) | split
    | dsimp only | intro _

theorem execCoreFenceReload_upd (p : Nat) (s : State) {t : State} (h : execCoreFenceReload p s = .next t) :
    Upd [.regs, .cores, .dales, .holds, .task, .phase, .cmt, .host, .fab, .sec, .pwr, .out] [.modeNext, .fenced, .stale, .lidx, .k, .task, .modIdx, .obj, .adds, .takes, .bsn, .mx, .vx, .vlog, .vold] none s t := by
  refine guarded_upd (fun s => ?_) h
  repeat' first
    | with_reducible exact Upd.refl _ _ _ _ | exact rfl | exact .inl rfl | exact .inr rfl | with_reducible assumption
    | with_reducible apply Upd.ite | with_reducible apply Upd.step (coreFenceReload_upd ..) | split | dsimp only | intro _

end Sys2Proof.Machine
end

