-- ==== Sys2Proof/Laws/Trace.lean ====
section
/-! SUPPORT. What each operation of Sys2Proof/Machine/Trace.lean can change: its footprint. -/
namespace Sys2Proof.Machine
set_option linter.all false

theorem traceFull_upd (s : State) {o_ : Option Nat} :
    Upd [.regs, .host] [] o_ s (traceFull s) := by
  unfold traceFull
  repeat' first
    | with_reducible exact Upd.refl _ _ _ _ | exact rfl | exact .inl rfl | exact .inr rfl | with_reducible assumption
    | with_reducible apply Upd.ite | with_reducible apply Upd.step' (irqRaise_upd ..) | with_reducible apply Upd.step' (setBits_upd ..) | split
    | dsimp only | intro _

theorem traceWrite_upd (die : Nat) (r : BitVec 256) (s : State) {o_ : Option Nat} :
    Upd [.regs, .host, .trc] [] o_ s (traceWrite die r s) := by
  unfold traceWrite
  repeat' first
    | with_reducible exact Upd.refl _ _ _ _ | exact rfl | exact .inl rfl | exact .inr rfl | with_reducible assumption
    | with_reducible apply Upd.ite | with_reducible apply Upd.step' (traceFull_upd ..) | with_reducible apply Upd.step' (satField_upd ..) | split
    | dsimp only | intro _ | with_reducible apply Upd.set

theorem pcSample_upd (d : Nat) (s : State) {o_ : Option Nat} :
    Upd [.regs, .dales, .host, .trc] [] o_ s (pcSample d s) := by
  unfold pcSample
  repeat' first
    | with_reducible exact Upd.refl _ _ _ _ | exact rfl | exact .inl rfl | exact .inr rfl | with_reducible assumption
    | with_reducible apply Upd.ite | with_reducible apply Upd.step' (traceWrite_upd ..) | with_reducible apply Upd.step' (updDale_upd ..) | split
    | dsimp only | intro _

theorem samplesLc_upd (s : State) {o_ : Option Nat} :
    Upd [.regs, .dales, .host, .trc] [] o_ s (samplesLc s) := by
  unfold samplesLc
  repeat' first
    | with_reducible exact Upd.refl _ _ _ _ | exact rfl | exact .inl rfl | exact .inr rfl | with_reducible assumption
    | with_reducible apply Upd.ite | with_reducible apply Upd.step' (pcSample_upd ..) | with_reducible apply Upd.foldN | split | dsimp only
    | intro _

theorem execPcSample_upd (d : Nat) (s : State) {o_ : Option Nat} {t : State} (h : execPcSample d s = .next t) :
    Upd [.regs, .dales, .host, .trc] [] o_ s t := by
  refine guarded_upd (fun s => ?_) h
  repeat' first
    | with_reducible exact Upd.refl _ _ _ _ | exact rfl | exact .inl rfl | exact .inr rfl | with_reducible assumption
    | with_reducible apply Upd.ite | with_reducible apply Upd.step' (pcSample_upd ..) | split | dsimp only | intro _

theorem traceCopy_upd (port : Port) (s : State) {o_ : Option Nat} :
    Upd [.regs, .host, .out] [] o_ s (traceCopy port s) := by
  unfold traceCopy
  repeat' first
    | with_reducible exact Upd.refl _ _ _ _ | exact rfl | exact .inl rfl | exact .inr rfl | with_reducible assumption
    | with_reducible apply Upd.ite | with_reducible apply Upd.step' (setBits_upd ..) | with_reducible apply Upd.step' (irqRaise_upd ..)
    | with_reducible apply Upd.step' (emit_upd ..) | split | dsimp only | intro _

theorem execTraceCopy_upd (port : Port) (s : State) {o_ : Option Nat} {t : State} (h : execTraceCopy port s = .next t) :
    Upd [.regs, .host, .out] [] o_ s t := by
  cases h
  repeat' first
    | with_reducible exact Upd.refl _ _ _ _ | exact rfl | exact .inl rfl | exact .inr rfl | with_reducible assumption
    | with_reducible apply Upd.ite | with_reducible apply woGate_upd | with_reducible apply Upd.step' (traceCopy_upd ..) | split | dsimp only
    | intro _

theorem cmdBoundary_upd (p : Nat) (s : State) :
    Upd [.cores] [.pc] (some p) s (cmdBoundary p s) := by
  unfold cmdBoundary
  repeat' first
    | with_reducible exact Upd.refl _ _ _ _ | exact rfl | exact .inl rfl | exact .inr rfl | with_reducible assumption
    | with_reducible apply Upd.ite | with_reducible apply Upd.updCore | with_reducible exact CUpd.refl _ _ | with_reducible apply CUpd.ite
    | with_reducible apply CUpd.set | split | dsimp only | intro _

theorem execPcntGo_upd (port : Port) (p : Nat) (s : State) {t : State} (h : execPcntGo port p s = .next t) :
    Upd [.regs, .cores, .host] [.pc] (some p) s t := by
  refine guarded_upd (fun s => ?_) h
  repeat' first
    | with_reducible exact Upd.refl _ _ _ _ | exact rfl | exact .inl rfl | exact .inr rfl | with_reducible assumption
    | with_reducible apply Upd.ite | with_reducible apply woGate_upd | with_reducible apply Upd.step (cmdBoundary_upd ..) | split | dsimp only
    | intro _

theorem gcntSelect_upd (port : Port) (n : Nat) (v : W32) (s : State) {o_ : Option Nat} :
    Upd [.regs, .host, .trc] [] o_ s (gcntSelect port n v s) := by
  unfold gcntSelect
  repeat' first
    | with_reducible exact Upd.refl _ _ _ _ | exact rfl | exact .inl rfl | exact .inr rfl | with_reducible assumption
    | with_reducible apply Upd.ite | with_reducible apply Upd.step' (refuseWrite_upd ..) | with_reducible apply Upd.step' (setReg_upd ..) | split
    | dsimp only | intro _ | with_reducible apply Upd.set

theorem execGcntSelect_upd (port : Port) (n : Nat) (v : W32) (s : State) {o_ : Option Nat} {t : State} (h : execGcntSelect port n v s = .next t) :
    Upd [.regs, .host, .trc] [] o_ s t := by
  refine guarded_upd (fun s => ?_) h
  repeat' first
    | with_reducible exact Upd.refl _ _ _ _ | exact rfl | exact .inl rfl | exact .inr rfl | with_reducible assumption
    | with_reducible apply Upd.ite | with_reducible apply hostGate_upd | with_reducible apply Upd.step' (gcntSelect_upd ..) | split | dsimp only
    | intro _

end Sys2Proof.Machine
end

