-- ==== Sys2Proof/Laws/Boundary.lean ====
section
/-! SUPPORT. What each operation of Sys2Proof/Machine/Boundary.lean can change: its footprint. -/
namespace Sys2Proof.Machine
set_option linter.all false

theorem settleSlot_upd (s : State) :
    Upd [.regs, .evts, .cores, .clk, .task, .hbm, .cmt, .host, .fab, .sec, .trc, .pwr, .fresh, .out] [.modeNext, .fenced, .pubObj, .pubEp, .pubEpoch, .pubFord, .bsn, .mx, .pc, .vlog, .vold] none s (settleSlot s) := by
  unfold settleSlot
  repeat' first
    | with_reducible exact Upd.refl _ _ _ _ | exact rfl | exact .inl rfl | exact .inr rfl | with_reducible assumption
    | with_reducible apply Upd.ite | with_reducible apply Upd.step (applyVerdict_upd ..) | with_reducible apply Upd.step' (doubtNow_upd ..)
    | with_reducible apply Upd.step (settleDoubt_upd ..) | split | dsimp only | intro _

theorem applyThreaded_upd (s : State) :
    Upd [.cores] [.mode, .modeNext, .stale, .th] none s (applyThreaded s) := by
  unfold applyThreaded
  repeat' first
    | with_reducible exact Upd.refl _ _ _ _ | exact rfl | exact .inl rfl | exact .inr rfl | with_reducible assumption
    | with_reducible apply Upd.ite | with_reducible apply Upd.setMap | with_reducible exact CUpd.refl _ _
    | with_reducible apply CUpd.step (intoThreaded_upd ..) | with_reducible apply CUpd.ite | with_reducible apply CUpd.set | split | dsimp only
    | intro _ | with_reducible apply Upd.set

theorem showLosses_upd (s : State) {o_ : Option Nat} :
    Upd [.clk] [] o_ s (showLosses s) := by
  unfold showLosses
  repeat' first
    | with_reducible exact Upd.refl _ _ _ _ | exact rfl | exact .inl rfl | exact .inr rfl | with_reducible assumption
    | with_reducible apply Upd.ite | with_reducible apply Upd.foldl | with_reducible apply Upd.foldl_snd | with_reducible apply Upd.foldl_fst
    | split | dsimp only | intro _ | with_reducible apply Upd.set

theorem showHolds_upd (s : State) {o_ : Option Nat} :
    Upd [.regs] [] o_ s (showHolds s) := by
  unfold showHolds
  repeat' first
    | with_reducible exact Upd.refl _ _ _ _ | exact rfl | exact .inl rfl | exact .inr rfl | with_reducible assumption
    | with_reducible apply Upd.ite | with_reducible apply Upd.step' (setField_upd ..) | with_reducible apply Upd.foldl
    | with_reducible apply Upd.foldl_snd | with_reducible apply Upd.foldl_fst | split | dsimp only | intro _

theorem stopTicks_upd (s : State) :
    Upd [.regs, .evts, .cores, .clk, .cmt, .host, .pwr] [.mode, .modeNext, .stale, .th] none s (stopTicks s) := by
  unfold stopTicks
  repeat' first
    | with_reducible exact Upd.refl _ _ _ _ | exact rfl | exact .inl rfl | exact .inr rfl | with_reducible assumption
    | with_reducible apply Upd.ite | with_reducible apply Upd.step (applyThreaded_upd ..) | with_reducible apply Upd.step' (showHolds_upd ..)
    | with_reducible apply Upd.step' (showLosses_upd ..) | with_reducible apply Upd.step' (publishEvts_upd ..)
    | with_reducible apply Upd.step' (drainBank_upd ..) | with_reducible apply Upd.step' (idleCheck_upd ..) | split | dsimp only | intro _
    | with_reducible apply Upd.set

theorem clkOpen_upd (goesOn : Bool) (s : State) {o_ : Option Nat} :
    Upd [.regs, .clk, .host] [] o_ s (clkOpen goesOn s) := by
  unfold clkOpen
  repeat' first
    | with_reducible exact Upd.refl _ _ _ _ | exact rfl | exact .inl rfl | exact .inr rfl | with_reducible assumption
    | with_reducible apply Upd.ite | with_reducible apply Upd.step' (rebase_upd ..) | with_reducible apply Upd.step' (irqRaise_upd ..) | split
    | dsimp only | intro _ | with_reducible apply Upd.set

theorem sendSymbol_upd (s : State) (n : Nat) {o_ : Option Nat} :
    Upd [.fresh, .out] [] o_ s (sendSymbol s n) := by
  unfold sendSymbol
  repeat' first
    | with_reducible exact Upd.refl _ _ _ _ | exact rfl | exact .inl rfl | exact .inr rfl | with_reducible assumption
    | with_reducible apply Upd.ite | with_reducible apply Upd.step' (drawn_upd ..) | with_reducible apply Upd.step' (emit_upd ..) | split
    | dsimp only | intro _

theorem forwardTick_upd (s : State) {o_ : Option Nat} :
    Upd [.fresh, .out] [] o_ s (forwardTick s) := by
  unfold forwardTick
  repeat' first
    | with_reducible exact Upd.refl _ _ _ _ | exact rfl | exact .inl rfl | exact .inr rfl | with_reducible assumption
    | with_reducible apply Upd.ite | with_reducible apply Upd.step' (sendSymbol_upd ..) | with_reducible apply Upd.step' (emit_upd ..)
    | with_reducible apply Upd.foldl | split | dsimp only | intro _

theorem portOpen_upd (port : Port) (ptm : Option W64) (s : State) {o_ : Option Nat} :
    Upd [.host] [] o_ s (portOpen port ptm s) := by
  unfold portOpen
  repeat' first
    | with_reducible exact Upd.refl _ _ _ _ | exact rfl | exact .inl rfl | exact .inr rfl | with_reducible assumption
    | with_reducible apply Upd.ite | with_reducible apply Upd.step' (updHp_upd ..) | with_reducible apply Upd.foldl
    | with_reducible apply Upd.foldl_snd | with_reducible apply Upd.foldl_fst | split | dsimp only | intro _

theorem swapBanks_upd (full : Bool) (port : Port) (s : State) {o_ : Option Nat} :
    Upd [.regs, .host] [] o_ s (swapBanks full port s) := by
  unfold swapBanks
  repeat' first
    | with_reducible exact Upd.refl _ _ _ _ | exact rfl | exact .inl rfl | exact .inr rfl | with_reducible assumption
    | with_reducible apply Upd.ite | with_reducible apply Upd.step' (updHp_upd ..) | with_reducible apply Upd.step' (intkStat_upd ..) | split
    | dsimp only | intro _

theorem fixLag_upd (started : Bool) (s : State) {o_ : Option Nat} :
    Upd [.cmt] [] o_ s (fixLag started s) := by
  unfold fixLag
  repeat' first
    | with_reducible exact Upd.refl _ _ _ _ | exact rfl | exact .inl rfl | exact .inr rfl | with_reducible assumption
    | with_reducible apply Upd.ite | split | dsimp only | intro _ | with_reducible apply Upd.set

theorem openRecord_upd (outcome : Nat) (s : State) {o_ : Option Nat} :
    Upd [.cmt] [] o_ s (openRecord outcome s) := by
  unfold openRecord
  repeat' first
    | with_reducible exact Upd.refl _ _ _ _ | exact rfl | exact .inl rfl | exact .inr rfl | with_reducible assumption
    | with_reducible apply Upd.ite | split | dsimp only | intro _ | with_reducible apply Upd.set

theorem voteOpen_upd (goesOn : Bool) (s : State) {o_ : Option Nat} :
    Upd [.cmt] [] o_ s (voteOpen goesOn s) := by
  unfold voteOpen
  repeat' first
    | with_reducible exact Upd.refl _ _ _ _ | exact rfl | exact .inl rfl | exact .inr rfl | with_reducible assumption
    | with_reducible apply Upd.ite | split | dsimp only | intro _ | with_reducible apply Upd.set

theorem slotOpen_upd (goesOn : Bool) (ptmA : Option W64) (ptmB : Option W64) (s : State) {o_ : Option Nat} :
    Upd [.regs, .clk, .cmt, .host, .fresh, .out] [] o_ s (slotOpen goesOn ptmA ptmB s) := by
  unfold slotOpen
  repeat' first
    | with_reducible exact Upd.refl _ _ _ _ | exact rfl | exact .inl rfl | exact .inr rfl | with_reducible assumption
    | with_reducible apply Upd.ite | with_reducible apply Upd.step' (forwardTick_upd ..) | with_reducible apply Upd.step' (clkOpen_upd ..)
    | with_reducible apply Upd.step' (drainBank_upd ..) | with_reducible apply Upd.step' (fixLag_upd ..)
    | with_reducible apply Upd.step' (voteOpen_upd ..) | with_reducible apply Upd.step' (portOpen_upd ..)
    | with_reducible apply Upd.step' (openRecord_upd ..) | with_reducible apply Upd.step' (swapBanks_upd ..) | split | dsimp only | intro _

theorem flipCore_upd (c : Core) : CUpd [.bsn] c (flipCore c) := by
  unfold flipCore
  repeat' first
    | with_reducible exact CUpd.refl _ _ | exact rfl | exact .inl rfl | exact .inr rfl | with_reducible assumption
    | with_reducible apply CUpd.foldN | split | dsimp only | intro _ | with_reducible apply CUpd.set

theorem flipPhases_upd (s : State) :
    Upd [.cores, .hbm] [.bsn] none s (flipPhases s) := by
  unfold flipPhases
  repeat' first
    | with_reducible exact Upd.refl _ _ _ _ | exact rfl | exact .inl rfl | exact .inr rfl | with_reducible assumption
    | with_reducible apply Upd.ite | with_reducible apply Upd.step' (flipPages_upd ..) | with_reducible apply Upd.setMap
    | with_reducible exact CUpd.refl _ _ | with_reducible apply CUpd.step (flipCore_upd ..) | with_reducible apply CUpd.ite
    | with_reducible apply CUpd.set | split | dsimp only | intro _ | with_reducible apply Upd.set

theorem switchTables_upd (started : Bool) (s : State) {o_ : Option Nat} :
    Upd [.fab] [] o_ s (switchTables started s) := by
  unfold switchTables
  repeat' first
    | with_reducible exact Upd.refl _ _ _ _ | exact rfl | exact .inl rfl | exact .inr rfl | with_reducible assumption
    | with_reducible apply Upd.ite | split | dsimp only | intro _ | with_reducible apply Upd.set

theorem switchFop_upd (starts : Bool) (s : State) {o_ : Option Nat} :
    Upd [.regs, .clk, .host, .pwr, .out] [] o_ s (switchFop starts s) := by
  unfold switchFop
  repeat' first
    | with_reducible exact Upd.refl _ _ _ _ | exact rfl | exact .inl rfl | exact .inr rfl | with_reducible assumption
    | with_reducible apply Upd.ite | with_reducible apply Upd.step' (fopSwitch_upd ..) | with_reducible apply Upd.step' (throttleTick_upd ..)
    | with_reducible apply Upd.step' (t1Done_upd ..) | split | dsimp only | intro _

theorem tickClear_upd (s : State) {o_ : Option Nat} :
    Upd [.dales, .clk, .cmt] [] o_ s (tickClear s) := by
  unfold tickClear
  repeat' first
    | with_reducible exact Upd.refl _ _ _ _ | exact rfl | exact .inl rfl | exact .inr rfl | with_reducible assumption
    | with_reducible apply Upd.ite | split | dsimp only | intro _ | with_reducible apply Upd.set

theorem phaseDue_upd (s : State) :
    Upd [.regs, .cores, .clk, .phase, .cmt, .host, .fab, .pwr] [.bsn] none s (phaseDue s) := by
  unfold phaseDue
  repeat' first
    | with_reducible exact Upd.refl _ _ _ _ | exact rfl | exact .inl rfl | exact .inr rfl | with_reducible assumption
    | with_reducible apply Upd.ite | with_reducible apply Upd.step (abortPhase_upd ..) | with_reducible apply Upd.step (bridgeBanks_upd ..)
    | split | dsimp only | intro _ | with_reducible apply Upd.set

theorem missCount_upd (s : State) {o_ : Option Nat} :
    Upd [.cmt] [] o_ s (missCount s) := by
  unfold missCount
  repeat' first
    | with_reducible exact Upd.refl _ _ _ _ | exact rfl | exact .inl rfl | exact .inr rfl | with_reducible assumption
    | with_reducible apply Upd.ite | split | dsimp only | intro _ | with_reducible apply Upd.set

theorem boundaryWork_upd (started : Bool) (s : State) :
    Upd [.regs, .cores, .dales, .clk, .phase, .hbm, .cmt, .host, .fab, .sec, .pwr] [.mode, .modeNext, .stale, .bsn, .th] none s (boundaryWork started s) := by
  unfold boundaryWork
  repeat' first
    | with_reducible exact Upd.refl _ _ _ _ | exact rfl | exact .inl rfl | exact .inr rfl | with_reducible assumption
    | with_reducible apply Upd.ite | with_reducible apply Upd.step (applyThreaded_upd ..) | with_reducible apply Upd.step (flipPhases_upd ..)
    | with_reducible apply Upd.step' (switchTables_upd ..) | with_reducible apply Upd.step' (refixK_upd ..)
    | with_reducible apply Upd.step' (tickClear_upd ..) | with_reducible apply Upd.step' (missCount_upd ..)
    | with_reducible apply Upd.step' (showHolds_upd ..) | with_reducible apply Upd.step' (showLosses_upd ..)
    | with_reducible apply Upd.step' (epochBoundary_upd ..) | with_reducible apply Upd.step (phaseDue_upd ..) | split | dsimp only | intro _
    | with_reducible apply Upd.set

theorem restUnits_upd (c : Core) : CUpd [.mx, .pu, .vx, .ch] c (restUnits c) := by
  unfold restUnits
  repeat' first
    | with_reducible exact CUpd.refl _ _ | exact rfl | exact .inl rfl | exact .inr rfl | with_reducible assumption | split | dsimp only | intro _
    | with_reducible apply CUpd.set

theorem restCore_upd (c : Core) : CUpd [.q, .busy, .started, .came, .sigs, .job, .obj, .adds, .takes, .fe, .bsn, .mx, .pu, .vx, .ch, .issue] c (restCore c) := by
  unfold restCore
  repeat' first
    | with_reducible exact CUpd.refl _ _ | exact rfl | exact .inl rfl | exact .inr rfl | with_reducible assumption
    | with_reducible apply CUpd.step (restUnits_upd ..) | split | dsimp only | intro _ | with_reducible apply CUpd.set

theorem suspectsOpen_upd (c : Core) : CUpd [.bsn] c (suspectsOpen c) := by
  unfold suspectsOpen
  repeat' first
    | with_reducible exact CUpd.refl _ _ | exact rfl | exact .inl rfl | exact .inr rfl | with_reducible assumption | split | dsimp only | intro _
    | with_reducible apply CUpd.set

theorem joinCore_upd (c : Core) : CUpd [.mode, .modeNext] c (joinCore c) := by
  unfold joinCore
  repeat' first
    | with_reducible exact CUpd.refl _ _ | exact rfl | exact .inl rfl | exact .inr rfl | with_reducible assumption | split | dsimp only | intro _
    | with_reducible apply CUpd.set

theorem enterCore_upd (c : Core) : CUpd [.mode, .modeNext, .q, .busy, .started, .came, .sigs, .job, .obj, .adds, .takes, .fe, .bsn, .mx, .pu, .vx, .ch, .issue] c (enterCore c) := by
  unfold enterCore
  repeat' first
    | with_reducible exact CUpd.refl _ _ | exact rfl | exact .inl rfl | exact .inr rfl | with_reducible assumption
    | with_reducible apply CUpd.step (joinCore_upd ..) | with_reducible apply CUpd.step (restCore_upd ..)
    | with_reducible apply CUpd.step (restUnits_upd ..) | split | dsimp only | intro _ | with_reducible apply CUpd.set

theorem rewindLog_upd (replay : Bool) (c : Core) : CUpd [.vlog, .vold] c (rewindLog replay c) := by
  unfold rewindLog
  repeat' first
    | with_reducible exact CUpd.refl _ _ | exact rfl | exact .inl rfl | exact .inr rfl | with_reducible assumption | split | dsimp only | intro _
    | with_reducible apply CUpd.set

theorem openCore_upd (replay : Bool) (c : Core) : CUpd [.mode, .modeNext, .q, .busy, .started, .came, .sigs, .job, .obj, .adds, .takes, .fe, .bsn, .mx, .pu, .vx, .ch, .vlog, .vold, .issue] c (openCore replay c) := by
  unfold openCore
  repeat' first
    | with_reducible exact CUpd.refl _ _ | exact rfl | exact .inl rfl | exact .inr rfl | with_reducible assumption
    | with_reducible apply CUpd.step (suspectsOpen_upd ..) | with_reducible apply CUpd.step (rewindLog_upd ..)
    | with_reducible apply CUpd.step (enterCore_upd ..) | split | dsimp only | intro _ | with_reducible apply CUpd.set

theorem startDales_upd (im : Loaded) (s : State) {o_ : Option Nat} :
    Upd [.dales] [] o_ s (startDales im s) := by
  unfold startDales
  repeat' first
    | with_reducible exact Upd.refl _ _ _ _ | exact rfl | exact .inl rfl | exact .inr rfl | with_reducible assumption
    | with_reducible apply Upd.ite | with_reducible apply Upd.step' (updDale_upd ..) | with_reducible apply Upd.foldN | split | dsimp only
    | intro _

theorem takeBatches_upd (im : Loaded) (s : State) {o_ : Option Nat} :
    Upd [.hbm, .cmt] [] o_ s (takeBatches im s) := by
  unfold takeBatches
  repeat' first
    | with_reducible exact Upd.refl _ _ _ _ | exact rfl | exact .inl rfl | exact .inr rfl | with_reducible assumption
    | with_reducible apply Upd.ite | split | dsimp only | intro _ | with_reducible apply Upd.set

theorem takeEntry_upd (h : JRec) (s : State) :
    Upd [.cores, .task, .hbm, .cmt] [.vlog, .vold] none s (takeEntry h s) := by
  unfold takeEntry
  repeat' first
    | with_reducible exact Upd.refl _ _ _ _ | exact rfl | exact .inl rfl | exact .inr rfl | with_reducible assumption
    | with_reducible apply Upd.ite | with_reducible apply Upd.setMap | with_reducible exact CUpd.refl _ _ | with_reducible apply CUpd.ite
    | with_reducible apply CUpd.set | split | dsimp only | intro _ | with_reducible apply Upd.set

theorem trustRow_upd (p : Nat) (h : Nat) (row : Nat) (bytes : List Byte) (s : State) :
    Upd [.cores] [.bsn] (some p) s (trustRow p h row bytes s) := by
  unfold trustRow
  repeat' first
    | with_reducible exact Upd.refl _ _ _ _ | exact rfl | exact .inl rfl | exact .inr rfl | with_reducible assumption
    | with_reducible apply Upd.ite | with_reducible apply Upd.updCore | with_reducible exact CUpd.refl _ _ | with_reducible apply CUpd.set
    | split | dsimp only | intro _

theorem writeCorr_upd (s : State) :
    Upd [.cores] [.bsn] none s (writeCorr s) := by
  unfold writeCorr
  repeat' first
    | with_reducible exact Upd.refl _ _ _ _ | exact rfl | exact .inl rfl | exact .inr rfl | with_reducible assumption
    | with_reducible apply Upd.ite | with_reducible apply eachCore_upd | with_reducible apply Upd.step (trustRow_upd ..) | split | dsimp only
    | intro _

theorem runRecord_upd (s : State) {o_ : Option Nat} :
    Upd [.cmt] [] o_ s (runRecord s) := by
  unfold runRecord
  repeat' first
    | with_reducible exact Upd.refl _ _ _ _ | exact rfl | exact .inl rfl | exact .inr rfl | with_reducible assumption
    | with_reducible apply Upd.ite | with_reducible apply Upd.step' (updRecs_upd ..) | split | dsimp only | intro _

theorem startTick_upd (im : Loaded) (s : State) :
    Upd [.cores, .dales, .holds, .clk, .task, .hbm, .cmt, .fab, .sec] [.mode, .modeNext, .q, .busy, .started, .came, .sigs, .job, .obj, .adds, .takes, .fe, .bsn, .mx, .pu, .vx, .ch, .pc, .vlog, .vold, .issue] none s (startTick im s) := by
  unfold startTick
  repeat' first
    | with_reducible exact Upd.refl _ _ _ _ | exact rfl | exact .inl rfl | exact .inr rfl | with_reducible assumption
    | with_reducible apply Upd.ite | with_reducible apply eachCore_upd | with_reducible apply Upd.step (cmdBoundary_upd ..)
    | with_reducible apply Upd.step' (startDales_upd ..) | with_reducible apply Upd.step (takeEntry_upd ..)
    | with_reducible apply Upd.step' (takeBatches_upd ..) | with_reducible apply Upd.step' (genesisLink_upd ..)
    | with_reducible apply Upd.step' (runRecord_upd ..) | with_reducible apply Upd.step (writeCorr_upd ..) | with_reducible apply Upd.setMap
    | with_reducible exact CUpd.refl _ _ | with_reducible apply CUpd.step (openCore_upd ..) | with_reducible apply CUpd.set | split | dsimp only
    | intro _ | with_reducible apply Upd.set

theorem openTick_upd (s : State) :
    Upd [.regs, .cores, .dales, .holds, .clk, .task, .hbm, .cmt, .host, .fab, .sec] [.mode, .modeNext, .q, .busy, .started, .came, .sigs, .job, .obj, .adds, .takes, .fe, .bsn, .mx, .pu, .vx, .ch, .pc, .vlog, .vold, .issue] none s (openTick s) := by
  unfold openTick
  repeat' first
    | with_reducible exact Upd.refl _ _ _ _ | exact rfl | exact .inl rfl | exact .inr rfl | with_reducible assumption
    | with_reducible apply Upd.ite | with_reducible apply Upd.step (startTick_upd ..) | with_reducible apply Upd.step' (setBits_upd ..) | split
    | dsimp only | intro _

theorem bridgeRecord_upd (s : State) {o_ : Option Nat} :
    Upd [.cmt] [] o_ s (bridgeRecord s) := by
  unfold bridgeRecord
  repeat' first
    | with_reducible exact Upd.refl _ _ _ _ | exact rfl | exact .inl rfl | exact .inr rfl | with_reducible assumption
    | with_reducible apply Upd.ite | with_reducible apply Upd.step' (updRecs_upd ..) | split | dsimp only | intro _

theorem overBoundary_upd (ptmA : Option W64) (ptmB : Option W64) (s : State) {o_ : Option Nat} :
    Upd [.regs, .clk, .cmt, .host, .fresh, .out] [] o_ s (overBoundary ptmA ptmB s) := by
  unfold overBoundary
  repeat' first
    | with_reducible exact Upd.refl _ _ _ _ | exact rfl | exact .inl rfl | exact .inr rfl | with_reducible assumption
    | with_reducible apply Upd.ite | with_reducible apply Upd.step' (slotOpen_upd ..) | with_reducible apply Upd.step' (runRecord_upd ..) | split
    | dsimp only | intro _ | with_reducible apply Upd.set

theorem tickBoundary_upd (ptmA : Option W64) (ptmB : Option W64) (s : State) :
    Upd [.regs, .evts, .cores, .dales, .holds, .clk, .task, .phase, .hbm, .cmt, .host, .fab, .sec, .pwr, .fresh, .out] [.mode, .modeNext, .stale, .lidx, .k, .task, .q, .busy, .started, .came, .sigs, .job, .obj, .adds, .takes, .rst, .fe, .bsn, .mx, .pu, .vx, .ch, .th, .pc, .vlog, .vold, .issue] none s (tickBoundary ptmA ptmB s) := by
  unfold tickBoundary
  repeat' first
    | with_reducible exact Upd.refl _ _ _ _ | exact rfl | exact .inl rfl | exact .inr rfl | with_reducible assumption
    | with_reducible apply Upd.ite | with_reducible apply Upd.step (boundaryWork_upd ..) | with_reducible apply Upd.step' (slotOpen_upd ..)
    | with_reducible apply Upd.step (doTaskReset_upd ..) | with_reducible apply Upd.step' (bridgeRecord_upd ..)
    | with_reducible apply Upd.step' (idleCheck_upd ..) | with_reducible apply Upd.step (openTick_upd ..)
    | with_reducible apply Upd.step' (switchFop_upd ..) | split | dsimp only | intro _

theorem boundary_upd (ptmA : Option W64) (ptmB : Option W64) (s : State) :
    Upd [.regs, .evts, .cores, .dales, .holds, .clk, .task, .phase, .hbm, .cmt, .host, .fab, .sec, .trc, .pwr, .fresh, .out] [.mode, .modeNext, .fenced, .stale, .lidx, .k, .task, .q, .busy, .started, .came, .sigs, .job, .obj, .adds, .takes, .pubObj, .pubEp, .pubEpoch, .pubFord, .rst, .fe, .bsn, .mx, .pu, .vx, .ch, .th, .pc, .vlog, .vold, .issue] none s (boundary ptmA ptmB s) := by
  unfold boundary
  repeat' first
    | with_reducible exact Upd.refl _ _ _ _ | exact rfl | exact .inl rfl | exact .inr rfl | with_reducible assumption
    | with_reducible apply Upd.ite | with_reducible apply Upd.step (settleSlot_upd ..) | with_reducible apply Upd.step (stopTicks_upd ..)
    | with_reducible apply Upd.step' (overBoundary_upd ..) | with_reducible apply Upd.step (tickBoundary_upd ..) | split | dsimp only | intro _

theorem execTickBoundary_upd (ptmA : Option W64) (ptmB : Option W64) (s : State) {t : State} (h : execTickBoundary ptmA ptmB s = .next t) :
    Upd [.regs, .evts, .cores, .dales, .holds, .clk, .task, .phase, .hbm, .cmt, .host, .fab, .sec, .trc, .pwr, .fresh, .out] [.mode, .modeNext, .fenced, .stale, .lidx, .k, .task, .q, .busy, .started, .came, .sigs, .job, .obj, .adds, .takes, .pubObj, .pubEp, .pubEpoch, .pubFord, .rst, .fe, .bsn, .mx, .pu, .vx, .ch, .th, .pc, .vlog, .vold, .issue] none s t := by
  cases h
  repeat' first
    | with_reducible exact Upd.refl _ _ _ _ | exact rfl | exact .inl rfl | exact .inr rfl | with_reducible assumption
    | with_reducible apply Upd.ite | with_reducible apply Upd.step (boundary_upd ..) | split | dsimp only | intro _

end Sys2Proof.Machine
end

