-- ==== Sys2Proof/Laws/View.lean ====
section
/-! SUPPORT. What each operation of Sys2Proof/Machine/View.lean can change: its footprint. -/
namespace Sys2Proof.Machine
set_option linter.all false

theorem clearRc_upd (a : Nat) (s : State) {o_ : Option Nat} :
    Upd [.regs] [] o_ s (clearRc a s) := by
  unfold clearRc
  repeat' first
    | with_reducible exact Upd.refl _ _ _ _ | exact rfl | exact .inl rfl | exact .inr rfl | with_reducible assumption
    | with_reducible apply Upd.ite | with_reducible apply Upd.step' (setReg_upd ..) | split | dsimp only | intro _

theorem giveRead_upd (port : Port) (off : Nat) (v : Nat) (s : State) {o_ : Option Nat} :
    Upd [.host] [] o_ s (giveRead port off v s) := by
  unfold giveRead
  repeat' first
    | with_reducible exact Upd.refl _ _ _ _ | exact rfl | exact .inl rfl | exact .inr rfl | with_reducible assumption
    | with_reducible apply Upd.ite | with_reducible apply Upd.step' (updHp_upd ..) | split | dsimp only | intro _

theorem noteRc_upd (port : Port) (a : Nat) (bits : Nat) (s : State) {o_ : Option Nat} :
    Upd [.host] [] o_ s (noteRc port a bits s) := by
  unfold noteRc
  repeat' first
    | with_reducible exact Upd.refl _ _ _ _ | exact rfl | exact .inl rfl | exact .inr rfl | with_reducible assumption
    | with_reducible apply Upd.ite | split | dsimp only | intro _ | with_reducible apply Upd.set

theorem takeRc_upd (a : Nat) (m : Nat) (s : State) {o_ : Option Nat} :
    Upd [.host] [] o_ s (takeRc a m s) := by
  unfold takeRc
  repeat' first
    | with_reducible exact Upd.refl _ _ _ _ | exact rfl | exact .inl rfl | exact .inr rfl | with_reducible assumption
    | with_reducible apply Upd.ite | with_reducible apply Upd.step' (updHp_upd ..) | split | dsimp only | intro _ | with_reducible apply Upd.set

theorem readRc_upd (port : Port) (off : Nat) (a : Nat) (m : Nat) (v : Nat) (s : State) {o_ : Option Nat} :
    Upd [.regs, .host] [] o_ s (readRc port off a m v s) := by
  unfold readRc
  repeat' first
    | with_reducible exact Upd.refl _ _ _ _ | exact rfl | exact .inl rfl | exact .inr rfl | with_reducible assumption
    | with_reducible apply Upd.ite | with_reducible apply Upd.step' (giveRead_upd ..) | with_reducible apply Upd.step' (takeRc_upd ..)
    | with_reducible apply Upd.step' (noteRc_upd ..) | with_reducible apply Upd.step' (clearRc_upd ..) | split | dsimp only | intro _

theorem latchHi_upd (a : Nat) (s : State) :
    Upd [.cores] [.pc] none s (latchHi a s) := by
  unfold latchHi
  repeat' first
    | with_reducible exact Upd.refl _ _ _ _ | exact rfl | exact .inl rfl | exact .inr rfl | with_reducible assumption
    | with_reducible apply Upd.ite | with_reducible apply Upd.updCore | with_reducible exact CUpd.refl _ _ | with_reducible apply CUpd.ite
    | with_reducible apply CUpd.set | split | dsimp only | intro _

theorem readReg_upd (port : Port) (bar : Nat) (off : Nat) (s : State) :
    Upd [.regs, .cores, .host] [.pc] none s (readReg port bar off s) := by
  unfold readReg
  repeat' first
    | with_reducible exact Upd.refl _ _ _ _ | exact rfl | exact .inl rfl | exact .inr rfl | with_reducible assumption
    | with_reducible apply Upd.ite | with_reducible apply Upd.step' (giveRead_upd ..) | with_reducible apply Upd.step (latchHi_upd ..)
    | with_reducible apply Upd.step' (readRc_upd ..) | split | dsimp only | intro _

theorem execReadClear_upd (port : Port) (bar : Nat) (off : Nat) (s : State) {t : State} (h : execReadClear port bar off s = .next t) :
    Upd [.regs, .cores, .host] [.pc] none s t := by
  refine guarded_upd (fun s => ?_) h
  repeat' first
    | with_reducible exact Upd.refl _ _ _ _ | exact rfl | exact .inl rfl | exact .inr rfl | with_reducible assumption
    | with_reducible apply Upd.ite | with_reducible apply Upd.step (readReg_upd ..) | split | dsimp only | intro _

end Sys2Proof.Machine
end

