-- ==== Sys2Proof/Laws/Register.lean ====
section
/-! SUPPORT. What each operation of Sys2Proof/Machine/Register.lean can change: its footprint. -/
namespace Sys2Proof.Machine
set_option linter.all false

theorem enableIrq_upd (pi : Nat) (v : Nat) (s : State) {o_ : Option Nat} :
    Upd [.regs, .host] [] o_ s (enableIrq pi v s) := by
  unfold enableIrq
  repeat' first
    | with_reducible exact Upd.refl _ _ _ _ | exact rfl | exact .inl rfl | exact .inr rfl | with_reducible assumption
    | with_reducible apply Upd.ite | with_reducible apply Upd.step' (setReg_upd ..) | with_reducible apply Upd.step' (irqOwe_upd ..) | split
    | dsimp only | intro _

theorem traceStart_upd (s : State) {o_ : Option Nat} :
    Upd [.dales, .trc] [] o_ s (traceStart s) := by
  unfold traceStart
  repeat' first
    | with_reducible exact Upd.refl _ _ _ _ | exact rfl | exact .inl rfl | exact .inr rfl | with_reducible assumption
    | with_reducible apply Upd.ite | split | dsimp only | intro _ | with_reducible apply Upd.set

theorem onBit_upd {F : List SFld} {D : List CFld} {k : Option Nat} {b s : State} {v n : Nat} {f : State → State}
    (he : ∀ t, Upd F D k t (f t)) (h : Upd F D k b s) : Upd F D k b (onBit v n f s) := by
  unfold onBit
  split
  · exact h.trans (he _)
  · exact h

theorem writeLnkCtl_upd (n : Nat) (v : Nat) (keep : Bool) (s : State) {o_ : Option Nat} :
    Upd [.regs, .evts, .host, .fab] [] o_ s (writeLnkCtl n v keep s) := by
  unfold writeLnkCtl
  repeat' first
    | with_reducible exact Upd.refl _ _ _ _ | exact rfl | exact .inl rfl | exact .inr rfl | with_reducible assumption
    | with_reducible apply Upd.ite | with_reducible apply Upd.step' (setField_upd ..) | with_reducible apply Upd.step' (linkEnable_upd ..)
    | with_reducible apply onBit_upd | with_reducible apply Upd.step' (linkRetrain_upd ..) | split | dsimp only | intro _

theorem writeOwn_upd (port : Port) (v : Nat) (s : State) {o_ : Option Nat} :
    Upd [.regs, .host] [] o_ s (writeOwn port v s) := by
  unfold writeOwn
  repeat' first
    | with_reducible exact Upd.refl _ _ _ _ | exact rfl | exact .inl rfl | exact .inr rfl | with_reducible assumption
    | with_reducible apply Upd.ite | with_reducible apply onBit_upd
    | with_reducible apply Upd.step' (execHostOwnTake_upd _ _ ‹execHostOwnTake _ _ = .next _›)
    | with_reducible apply Upd.step' (execHostOwnAccept_upd _ _ ‹execHostOwnAccept _ _ = .next _›)
    | with_reducible apply Upd.step' (execHostOwnOffer_upd _ _ ‹execHostOwnOffer _ _ = .next _›) | split | dsimp only | intro _

theorem writeWatch_upd (k : Nat) (v : Nat) (s : State) {o_ : Option Nat} :
    Upd [.task] [] o_ s (writeWatch k v s) := by
  unfold writeWatch
  repeat' first
    | with_reducible exact Upd.refl _ _ _ _ | exact rfl | exact .inl rfl | exact .inr rfl | with_reducible assumption
    | with_reducible apply Upd.ite | split | dsimp only | intro _ | with_reducible apply Upd.set

theorem regActs_upd (port : Port) (f : Fam) (inst : Nat) (o : Nat) (v : Nat) (keep : Bool) (was : Nat) (s : State) :
    Upd [.regs, .evts, .cores, .dales, .holds, .clk, .task, .phase, .hbm, .cmt, .host, .sec, .trc, .pwr, .fresh, .out] [.mode, .modeNext, .lidx, .k, .task, .q, .busy, .started, .came, .sigs, .job, .obj, .adds, .takes, .rst, .fe, .bsn, .mx, .pu, .vx, .ch, .th, .pc, .vlog, .vold] none s (regActs port f inst o v keep was s) := by
  unfold regActs
  repeat' first
    | with_reducible exact Upd.refl _ _ _ _ | exact rfl | exact .inl rfl | exact .inr rfl | with_reducible assumption
    | with_reducible apply Upd.ite | with_reducible apply onBit_upd | with_reducible apply Upd.step (taskReset_upd ..)
    | with_reducible apply Upd.step' (writeOwn_upd ..) | with_reducible apply Upd.step' (setAgreed_upd ..)
    | with_reducible apply Upd.step' (updHp_upd ..) | with_reducible apply Upd.step (ovResume_upd ..)
    | with_reducible apply Upd.step' (freeEntries_upd ..) | with_reducible apply Upd.step (trigger_upd ..)
    | with_reducible apply Upd.step' (svnCommit_upd ..) | with_reducible apply Upd.step' (cert_upd ..)
    | with_reducible apply Upd.step' (attest_upd ..) | with_reducible apply Upd.step' (refuseWrite_upd ..)
    | with_reducible apply Upd.step' (snapshot_upd ..) | with_reducible apply Upd.step' (journalCopy_upd ..)
    | with_reducible apply Upd.step' (traceStart_upd ..) | with_reducible apply Upd.step' (traceCopy_upd ..)
    | with_reducible apply Upd.step (cmdBoundary_upd ..) | split | dsimp only | intro _ | with_reducible apply Upd.set

theorem regTakes_upd (port : Port) (f : Fam) (inst : Nat) (a : Nat) (v : Nat) (keep : Bool) (s : State) :
    Upd [.regs, .evts, .cores, .dales, .holds, .clk, .task, .phase, .hbm, .cmt, .host, .fab, .sec, .trc, .pwr, .fresh, .out] [.mode, .modeNext, .lidx, .k, .task, .q, .busy, .started, .came, .sigs, .job, .obj, .adds, .takes, .rst, .fe, .bsn, .mx, .pu, .vx, .ch, .th, .pc, .vlog, .vold] none s (regTakes port f inst a v keep s) := by
  unfold regTakes
  repeat' first
    | with_reducible exact Upd.refl _ _ _ _ | exact rfl | exact .inl rfl | exact .inr rfl | with_reducible assumption
    | with_reducible apply Upd.ite | with_reducible apply Upd.step' (enableIrq_upd ..) | with_reducible apply Upd.step' (writeLnkCtl_upd ..)
    | with_reducible apply Upd.step (tickStart_upd ..) | with_reducible apply Upd.step' (setReg_upd ..)
    | with_reducible apply Upd.step' (fopRequested_upd ..) | with_reducible apply Upd.step' (intakeEnable_upd ..)
    | with_reducible apply Upd.step (phaseArm_upd ..) | with_reducible apply Upd.step (phaseCancel_upd ..)
    | with_reducible apply Upd.step' (writeWatch_upd ..) | with_reducible apply Upd.step (regActs_upd ..) | split | dsimp only | intro _
    | with_reducible apply Upd.set

theorem regWrite_upd (port : Port) (f : Fam) (inst : Nat) (a : Nat) (v : Nat) (s : State) :
    Upd [.regs, .evts, .cores, .dales, .holds, .clk, .task, .phase, .hbm, .cmt, .host, .fab, .sec, .trc, .pwr, .fresh, .out] [.mode, .modeNext, .lidx, .k, .task, .q, .busy, .started, .came, .sigs, .job, .obj, .adds, .takes, .rst, .fe, .bsn, .mx, .pu, .vx, .ch, .th, .pc, .vlog, .vold] none s (regWrite port f inst a v s) := by
  unfold regWrite
  repeat' first
    | with_reducible exact Upd.refl _ _ _ _ | exact rfl | exact .inl rfl | exact .inr rfl | with_reducible assumption
    | with_reducible apply Upd.ite | with_reducible apply Upd.step' (refuseWrite_upd ..) | with_reducible apply Upd.step (regTakes_upd ..)
    | split | dsimp only | intro _

theorem groupTakes_upd (port : Port) (f : Fam) (b : Nat) (o : Nat) (v0 : Nat) (v1 : Nat) (s : State) {o_ : Option Nat} :
    Upd [.regs, .clk, .host] [] o_ s (groupTakes port f b o v0 v1 s) := by
  unfold groupTakes
  repeat' first
    | with_reducible exact Upd.refl _ _ _ _ | exact rfl | exact .inl rfl | exact .inr rfl | with_reducible assumption
    | with_reducible apply Upd.ite | with_reducible apply Upd.step' (refuseWrite_upd ..) | with_reducible apply Upd.step' (xentWrite_upd ..)
    | with_reducible apply Upd.step' (setReg64_upd ..) | split | dsimp only | intro _ | with_reducible apply Upd.set

theorem setHalf_upd (port : Port) (k : Nat) (v : Nat) (s : State) {o_ : Option Nat} :
    Upd [.host] [] o_ s (setHalf port k v s) := by
  unfold setHalf
  repeat' first
    | with_reducible exact Upd.refl _ _ _ _ | exact rfl | exact .inl rfl | exact .inr rfl | with_reducible assumption
    | with_reducible apply Upd.ite | with_reducible apply Upd.step' (updHp_upd ..) | split | dsimp only | intro _

theorem dropHalves_upd (port : Port) (l : List Nat) (s : State) {o_ : Option Nat} :
    Upd [.host] [] o_ s (dropHalves port l s) := by
  unfold dropHalves
  repeat' first
    | with_reducible exact Upd.refl _ _ _ _ | exact rfl | exact .inl rfl | exact .inr rfl | with_reducible assumption
    | with_reducible apply Upd.ite | with_reducible apply Upd.step' (updHp_upd ..) | with_reducible apply Upd.foldl | split | dsimp only
    | intro _

theorem halfWrite_upd (port : Port) (f : Fam) (inst : Nat) (a : Nat) (twin : Bool) (v : Nat) (s : State) :
    Upd [.regs, .evts, .cores, .dales, .holds, .clk, .task, .phase, .hbm, .cmt, .host, .fab, .sec, .trc, .pwr, .fresh, .out] [.mode, .modeNext, .lidx, .k, .task, .q, .busy, .started, .came, .sigs, .job, .obj, .adds, .takes, .rst, .fe, .bsn, .mx, .pu, .vx, .ch, .th, .pc, .vlog, .vold] none s (halfWrite port f inst a twin v s) := by
  unfold halfWrite
  repeat' first
    | with_reducible exact Upd.refl _ _ _ _ | exact rfl | exact .inl rfl | exact .inr rfl | with_reducible assumption
    | with_reducible apply Upd.ite | with_reducible apply Upd.step' (setHalf_upd ..) | with_reducible apply Upd.step' (refuseWrite_upd ..)
    | with_reducible apply Upd.step' (dropHalves_upd ..) | with_reducible apply Upd.step (regWrite_upd ..)
    | with_reducible apply Upd.step' (groupTakes_upd ..) | split | dsimp only | intro _

theorem pageWrite_upd (port : Port) (a : Nat) (v : Nat) (s : State) :
    Upd [.regs, .evts, .cores, .dales, .holds, .clk, .task, .phase, .hbm, .cmt, .host, .fab, .sec, .trc, .pwr, .fresh, .out] [.mode, .modeNext, .lidx, .k, .task, .q, .busy, .started, .came, .sigs, .job, .obj, .adds, .takes, .rst, .fe, .bsn, .mx, .pu, .vx, .ch, .th, .pc, .vlog, .vold] none s (pageWrite port a v s) := by
  unfold pageWrite
  repeat' first
    | with_reducible exact Upd.refl _ _ _ _ | exact rfl | exact .inl rfl | exact .inr rfl | with_reducible assumption
    | with_reducible apply Upd.ite | with_reducible apply Upd.step (halfWrite_upd ..) | with_reducible apply Upd.step (regWrite_upd ..) | split
    | dsimp only | intro _

theorem countCollision_upd (a : Nat) (s : State) {o_ : Option Nat} :
    Upd [.regs, .host] [] o_ s (countCollision a s) := by
  unfold countCollision
  repeat' first
    | with_reducible exact Upd.refl _ _ _ _ | exact rfl | exact .inl rfl | exact .inr rfl | with_reducible assumption
    | with_reducible apply Upd.ite | with_reducible apply Upd.step' (satField_upd ..) | with_reducible apply Upd.step' (setBits_upd ..)
    | with_reducible apply Upd.step' (setReg_upd ..) | split | dsimp only | intro _

theorem noteWrite_upd (port : Port) (a : Nat) (s : State) {o_ : Option Nat} :
    Upd [.host] [] o_ s (noteWrite port a s) := by
  unfold noteWrite
  repeat' first
    | with_reducible exact Upd.refl _ _ _ _ | exact rfl | exact .inl rfl | exact .inr rfl | with_reducible assumption
    | with_reducible apply Upd.ite | split | dsimp only | intro _ | with_reducible apply Upd.set

theorem mbxWrite_upd (port : Port) (a : Nat) (v : Nat) (s : State) {o_ : Option Nat} :
    Upd [.regs, .ctl, .out] [] o_ s (mbxWrite port a v s) := by
  unfold mbxWrite
  repeat' first
    | with_reducible exact Upd.refl _ _ _ _ | exact rfl | exact .inl rfl | exact .inr rfl | with_reducible assumption
    | with_reducible apply Upd.ite | with_reducible apply Upd.step' (sendReplies_upd ..) | with_reducible apply Upd.step' (setMbxWord_upd ..)
    | split | dsimp only | intro _

theorem bar0Write_upd (port : Port) (a : Nat) (v : Nat) (s : State) :
    Upd [.regs, .evts, .cores, .dales, .holds, .clk, .task, .phase, .hbm, .cmt, .host, .fab, .sec, .trc, .pwr, .ctl, .fresh, .out] [.mode, .modeNext, .lidx, .k, .task, .q, .busy, .started, .came, .sigs, .job, .obj, .adds, .takes, .rst, .fe, .bsn, .mx, .pu, .vx, .ch, .th, .pc, .vlog, .vold] none s (bar0Write port a v s) := by
  unfold bar0Write
  repeat' first
    | with_reducible exact Upd.refl _ _ _ _ | exact rfl | exact .inl rfl | exact .inr rfl | with_reducible assumption
    | with_reducible apply Upd.ite | with_reducible apply Upd.step' (mbxWrite_upd ..) | with_reducible apply Upd.step' (refuseWrite_upd ..)
    | with_reducible apply Upd.step' (countCollision_upd ..) | with_reducible apply Upd.step (pageWrite_upd ..)
    | with_reducible apply Upd.step' (noteWrite_upd ..) | split | dsimp only | intro _

theorem ringRefuse_upd (port : Port) (o : Nat) (cause : Nat) (s : State) {o_ : Option Nat} :
    Upd [.regs, .host] [] o_ s (ringRefuse port o cause s) := by
  unfold ringRefuse
  repeat' first
    | with_reducible exact Upd.refl _ _ _ _ | exact rfl | exact .inl rfl | exact .inr rfl | with_reducible assumption
    | with_reducible apply Upd.ite | with_reducible apply Upd.step' (refuseWrite_upd ..) | split | dsimp only | intro _

theorem ringTakes_upd (port : Port) (r : Nat) (o : Nat) (v : Nat) (s : State) {o_ : Option Nat} :
    Upd [.regs, .host] [] o_ s (ringTakes port r o v s) := by
  unfold ringTakes
  repeat' first
    | with_reducible exact Upd.refl _ _ _ _ | exact rfl | exact .inl rfl | exact .inr rfl | with_reducible assumption
    | with_reducible apply Upd.ite | with_reducible apply Upd.step' (ringRefuse_upd ..) | with_reducible apply Upd.step' (updRing_upd ..)
    | with_reducible apply Upd.step' (ringEnable_upd ..) | split | dsimp only | intro _

theorem bar2Write_upd (port : Port) (a : Nat) (v : Nat) (s : State) {o_ : Option Nat} :
    Upd [.regs, .host] [] o_ s (bar2Write port a v s) := by
  unfold bar2Write
  repeat' first
    | with_reducible exact Upd.refl _ _ _ _ | exact rfl | exact .inl rfl | exact .inr rfl | with_reducible assumption
    | with_reducible apply Upd.ite | with_reducible apply Upd.step' (updHp_upd ..) | with_reducible apply Upd.step' (headWrite_upd ..)
    | with_reducible apply Upd.step' (ringTakes_upd ..) | with_reducible apply Upd.step' (setHalf_upd ..)
    | with_reducible apply Upd.step' (ringRefuse_upd ..) | with_reducible apply Upd.step' (dropHalves_upd ..) | split | dsimp only | intro _

theorem hostWrite32_upd (port : Port) (bar : Nat) (off : Nat) (v : W32) (s : State) :
    Upd [.regs, .evts, .cores, .dales, .holds, .clk, .task, .phase, .hbm, .cmt, .host, .fab, .sec, .trc, .pwr, .ctl, .fresh, .out] [.mode, .modeNext, .lidx, .k, .task, .q, .busy, .started, .came, .sigs, .job, .obj, .adds, .takes, .rst, .fe, .bsn, .mx, .pu, .vx, .ch, .th, .pc, .vlog, .vold] none s (hostWrite32 port bar off v s) := by
  unfold hostWrite32
  repeat' first
    | with_reducible exact Upd.refl _ _ _ _ | exact rfl | exact .inl rfl | exact .inr rfl | with_reducible assumption
    | with_reducible apply Upd.ite | with_reducible apply Upd.step (bar0Write_upd ..) | with_reducible apply Upd.step' (bar2Write_upd ..)
    | with_reducible apply Upd.step' (emit_upd ..) | split | dsimp only | intro _

theorem execRegisterWrite_upd (port : Port) (bar : Nat) (off : Nat) (v : W32) (s : State) {t : State} (h : execRegisterWrite port bar off v s = .next t) :
    Upd [.regs, .evts, .cores, .dales, .holds, .clk, .task, .phase, .hbm, .cmt, .host, .fab, .sec, .trc, .pwr, .ctl, .fresh, .out] [.mode, .modeNext, .lidx, .k, .task, .q, .busy, .started, .came, .sigs, .job, .obj, .adds, .takes, .rst, .fe, .bsn, .mx, .pu, .vx, .ch, .th, .pc, .vlog, .vold] none s t := by
  refine guarded_upd (fun s => ?_) h
  repeat' first
    | with_reducible exact Upd.refl _ _ _ _ | exact rfl | exact .inl rfl | exact .inr rfl | with_reducible assumption
    | with_reducible apply Upd.ite | with_reducible apply Upd.step (hostWrite32_upd ..) | split | dsimp only | intro _

theorem irqSend_upd (page : Nat) (s : State) {o_ : Option Nat} :
    Upd [.host, .out] [] o_ s (irqSend page s) := by
  unfold irqSend
  repeat' first
    | with_reducible exact Upd.refl _ _ _ _ | exact rfl | exact .inl rfl | exact .inr rfl | with_reducible assumption
    | with_reducible apply Upd.ite | with_reducible apply Upd.step' (emit_upd ..) | split | dsimp only | intro _ | with_reducible apply Upd.set

theorem execIrqMessage_upd (page : Nat) (s : State) {o_ : Option Nat} {t : State} (h : execIrqMessage page s = .next t) :
    Upd [.host, .out] [] o_ s t := by
  refine guarded_upd (fun s => ?_) h
  repeat' first
    | with_reducible exact Upd.refl _ _ _ _ | exact rfl | exact .inl rfl | exact .inr rfl | with_reducible assumption
    | with_reducible apply Upd.ite | with_reducible apply Upd.step' (irqSend_upd ..) | split | dsimp only | intro _

end Sys2Proof.Machine
end

