-- ==== Sys2Proof/Laws/Smb.lean ====
section
/-! SUPPORT. What each operation of Sys2Proof/Machine/Smb.lean can change: its footprint. -/
namespace Sys2Proof.Machine
set_option linter.all false

theorem smbAnswer_upd {f : State → List Byte} {s : State} {k : Option Nat} : Upd [.pwr] [] k s (smbAnswer f s) := by
  unfold smbAnswer
  split
  · apply Upd.set
    all_goals first | exact .inl rfl | exact .inr rfl | exact Upd.refl _ _ _ _
  · exact Upd.refl _ _ _ _

theorem execStatus_upd (s : State) {o_ : Option Nat} {t : State} (h : execStatus s = .next t) :
    Upd [.pwr] [] o_ s t := by
  cases h
  repeat' first
    | with_reducible exact Upd.refl _ _ _ _ | exact rfl | exact .inl rfl | exact .inr rfl | with_reducible assumption
    | with_reducible apply Upd.ite | with_reducible apply Upd.step' smbAnswer_upd | split | dsimp only | intro _

theorem execTempDie_upd (s : State) {o_ : Option Nat} {t : State} (h : execTempDie s = .next t) :
    Upd [.pwr] [] o_ s t := by
  cases h
  repeat' first
    | with_reducible exact Upd.refl _ _ _ _ | exact rfl | exact .inl rfl | exact .inr rfl | with_reducible assumption
    | with_reducible apply Upd.ite | with_reducible apply Upd.step' smbAnswer_upd | split | dsimp only | intro _

theorem execTempHbm_upd (s : State) {o_ : Option Nat} {t : State} (h : execTempHbm s = .next t) :
    Upd [.pwr] [] o_ s t := by
  cases h
  repeat' first
    | with_reducible exact Upd.refl _ _ _ _ | exact rfl | exact .inl rfl | exact .inr rfl | with_reducible assumption
    | with_reducible apply Upd.ite | with_reducible apply Upd.step' smbAnswer_upd | split | dsimp only | intro _

theorem execVin_upd (s : State) {o_ : Option Nat} {t : State} (h : execVin s = .next t) :
    Upd [.pwr] [] o_ s t := by
  cases h
  repeat' first
    | with_reducible exact Upd.refl _ _ _ _ | exact rfl | exact .inl rfl | exact .inr rfl | with_reducible assumption
    | with_reducible apply Upd.ite | with_reducible apply Upd.step' smbAnswer_upd | split | dsimp only | intro _

theorem execPin_upd (s : State) {o_ : Option Nat} {t : State} (h : execPin s = .next t) :
    Upd [.pwr, .fresh] [] o_ s t := by
  cases h
  repeat' first
    | with_reducible exact Upd.refl _ _ _ _ | exact rfl | exact .inl rfl | exact .inr rfl | with_reducible assumption
    | with_reducible apply Upd.ite | with_reducible apply Upd.step' (drawn_upd ..) | with_reducible apply Upd.step' smbAnswer_upd | split
    | dsimp only | intro _

theorem execSlot_upd (s : State) {o_ : Option Nat} {t : State} (h : execSlot s = .next t) :
    Upd [.pwr] [] o_ s t := by
  cases h
  repeat' first
    | with_reducible exact Upd.refl _ _ _ _ | exact rfl | exact .inl rfl | exact .inr rfl | with_reducible assumption
    | with_reducible apply Upd.ite | with_reducible apply Upd.step' smbAnswer_upd | split | dsimp only | intro _

theorem execModid_upd (s : State) {o_ : Option Nat} {t : State} (h : execModid s = .next t) :
    Upd [.pwr] [] o_ s t := by
  cases h
  repeat' first
    | with_reducible exact Upd.refl _ _ _ _ | exact rfl | exact .inl rfl | exact .inr rfl | with_reducible assumption
    | with_reducible apply Upd.ite | with_reducible apply Upd.step' smbAnswer_upd | split | dsimp only | intro _

theorem execTerrace_upd (s : State) {o_ : Option Nat} {t : State} (h : execTerrace s = .next t) :
    Upd [.pwr] [] o_ s t := by
  cases h
  repeat' first
    | with_reducible exact Upd.refl _ _ _ _ | exact rfl | exact .inl rfl | exact .inr rfl | with_reducible assumption
    | with_reducible apply Upd.ite | with_reducible apply Upd.step' smbAnswer_upd | split | dsimp only | intro _

theorem execClearAlert_upd (s : State) {o_ : Option Nat} {t : State} (h : execClearAlert s = .next t) :
    Upd [.pwr] [] o_ s t := by
  cases h
  repeat' first
    | with_reducible exact Upd.refl _ _ _ _ | exact rfl | exact .inl rfl | exact .inr rfl | with_reducible assumption
    | with_reducible apply Upd.ite | split | dsimp only | intro _ | with_reducible apply Upd.set

end Sys2Proof.Machine
end

