-- ==== Sys2Proof/Laws/Lc.lean ====
section
/-! SUPPORT. What each operation of Sys2Proof/Machine/Lc.lean can change: its footprint. -/
namespace Sys2Proof.Machine
set_option linter.all false

theorem ran_upd {F : List SFld} {D : List CFld} {k : Option Nat} {b s : State} {o : Host.Outcome State Fault Refusal}
    (ho : ∀ t, o = .next t → Upd F D k s t) (h : Upd F D k b s) : Upd F D k b (ran o s) := by
  unfold ran
  split
  · exact h.trans (ho _ rfl)
  · exact h

theorem stopsLc_upd (s : State) :
    Upd [.cores, .fab] [.ch] none s (stopsLc s) := by
  unfold stopsLc
  repeat' first
    | with_reducible exact Upd.refl _ _ _ _ | exact rfl | exact .inl rfl | exact .inr rfl | with_reducible assumption
    | with_reducible apply Upd.ite | with_reducible apply Upd.step (routerForward_upd ..) | with_reducible apply Upd.foldl
    | with_reducible apply Upd.foldl_snd | with_reducible apply Upd.foldl_fst | split | dsimp only | intro _

theorem cellLc_upd (p : Nat) (s : State) :
    Upd [.regs, .evts, .cores, .cmt, .host, .fab] [.adds, .fe, .bsn, .vx, .ch, .pc] (some p) s (cellLc p s) := by
  unfold cellLc
  repeat' first
    | with_reducible exact Upd.refl _ _ _ _ | exact rfl | exact .inl rfl | exact .inr rfl | with_reducible assumption
    | with_reducible apply Upd.ite | with_reducible apply ran_upd
    | with_reducible apply Upd.step (execFrespArrival_upd _ _ ‹execFrespArrival _ _ = .next _›)
    | with_reducible apply Upd.step (execOpenRequestArrival_upd _ _ ‹execOpenRequestArrival _ _ = .next _›)
    | with_reducible apply Upd.step (execOpenReplyArrival_upd _ _ ‹execOpenReplyArrival _ _ = .next _›)
    | with_reducible apply Upd.step (execFencedAckArrival_upd _ _ ‹execFencedAckArrival _ _ = .next _›)
    | with_reducible apply Upd.step (execSenderReplyArrival_upd _ _ ‹execSenderReplyArrival _ _ = .next _›)
    | with_reducible apply Upd.step' (dropRecv_upd ..) | with_reducible apply Upd.step (popCell_upd ..)
    | with_reducible apply Upd.step (execCreditArrival_upd _ _ ‹execCreditArrival _ _ = .next _›)
    | with_reducible apply Upd.step (execCloseCellArrival_upd _ _ ‹execCloseCellArrival _ _ = .next _›)
    | with_reducible apply Upd.step (execBarrierArrival_upd _ _ ‹execBarrierArrival _ _ = .next _›)
    | with_reducible apply Upd.step (execDomainBarrierArrival_upd _ _ ‹execDomainBarrierArrival _ _ = .next _›)
    | with_reducible apply Upd.step (execBarrierRelease_upd _ _ ‹execBarrierRelease _ _ = .next _›)
    | with_reducible apply Upd.step (execCellArrival_upd _ _ ‹execCellArrival _ _ = .next _›) | split | dsimp only | intro _

theorem cellsLc_upd (p : Nat) (s : State) :
    Upd [.regs, .evts, .cores, .cmt, .host, .fab] [.adds, .fe, .bsn, .vx, .ch, .pc] (some p) s (cellsLc p s) := by
  unfold cellsLc
  repeat' first
    | with_reducible exact Upd.refl _ _ _ _ | exact rfl | exact .inl rfl | exact .inr rfl | with_reducible assumption
    | with_reducible apply Upd.ite | with_reducible apply Upd.step (cellLc_upd ..) | with_reducible apply Upd.foldN | split | dsimp only
    | intro _

theorem holdsLc_upd (s : State) :
    Upd [.cores, .dales, .holds] [.mx, .ch] none s (holdsLc s) := by
  unfold holdsLc
  repeat' first
    | with_reducible exact Upd.refl _ _ _ _ | exact rfl | exact .inl rfl | exact .inr rfl | with_reducible assumption
    | with_reducible apply Upd.ite | with_reducible apply ran_upd
    | with_reducible apply Upd.step (execHoldRelease_upd _ _ ‹execHoldRelease _ _ = .next _›) | with_reducible apply Upd.foldl
    | with_reducible apply Upd.foldl_snd | with_reducible apply Upd.foldl_fst | split | dsimp only | intro _

theorem queuesLc_upd (s : State) :
    Upd [.regs, .evts, .cores, .dales, .cmt, .host] [.q, .came] none s (queuesLc s) := by
  unfold queuesLc
  repeat' first
    | with_reducible exact Upd.refl _ _ _ _ | exact rfl | exact .inl rfl | exact .inr rfl | with_reducible assumption
    | with_reducible apply Upd.ite | with_reducible apply ran_upd
    | with_reducible apply Upd.step (execQueueEntry_upd _ _ ‹execQueueEntry _ _ = .next _›) | with_reducible apply Upd.foldl
    | with_reducible apply Upd.foldl_snd | with_reducible apply Upd.foldl_fst | split | dsimp only | intro _

theorem issueNext_upd (d : Nat) (s : State) :
    Upd [.regs, .evts, .cores, .dales, .cmt, .host] [.mx] none s (issueNext d s) := by
  unfold issueNext
  repeat' first
    | with_reducible exact Upd.refl _ _ _ _ | exact rfl | exact .inl rfl | exact .inr rfl | with_reducible assumption
    | with_reducible apply Upd.ite | with_reducible apply Upd.step' (issueOne_upd ..) | with_reducible apply ran_upd
    | with_reducible apply Upd.step' (execSqnop_upd _ _ _ ‹execSqnop _ _ _ = .next _›)
    | with_reducible apply Upd.step' (execSqrep_upd _ _ _ ‹execSqrep _ _ _ = .next _›)
    | with_reducible apply Upd.step (execSqhold_upd _ _ _ ‹execSqhold _ _ _ = .next _›)
    | with_reducible apply Upd.step' (execSqend_upd _ _ _ ‹execSqend _ _ _ = .next _›) | with_reducible apply Upd.of_fst (by assumption) | split
    | dsimp only | intro _

theorem issueLc_upd (d : Nat) (s : State) :
    Upd [.regs, .evts, .cores, .dales, .cmt, .host] [.mx] none s (issueLc d s) := by
  unfold issueLc
  repeat' first
    | with_reducible exact Upd.refl _ _ _ _ | exact rfl | exact .inl rfl | exact .inr rfl | with_reducible assumption
    | with_reducible apply Upd.ite | with_reducible apply Upd.step (issueNext_upd ..) | with_reducible apply Upd.foldN | split | dsimp only
    | intro _

theorem startUnitLc_upd (p : Nat) (u : Nat) (s : State) :
    Upd [.regs, .evts, .cores, .task, .cmt, .host] [.q, .busy, .started, .sigs, .job, .obj, .takes, .fe, .mx, .pu, .ch, .issue] (some p) s (startUnitLc p u s) := by
  unfold startUnitLc
  repeat' first
    | with_reducible exact Upd.refl _ _ _ _ | exact rfl | exact .inl rfl | exact .inr rfl | with_reducible assumption
    | with_reducible apply Upd.ite | with_reducible apply ran_upd
    | with_reducible apply Upd.step (execFeload_upd _ _ _ ‹execFeload _ _ _ = .next _›)
    | with_reducible apply Upd.step (execFestore_upd _ _ _ ‹execFestore _ _ _ = .next _›)
    | with_reducible apply Upd.step (execFearm_upd _ _ ‹execFearm _ _ = .next _›)
    | with_reducible apply Upd.step (execFerearm_upd _ _ ‹execFerearm _ _ = .next _›)
    | with_reducible apply Upd.step (execFeclose_upd _ _ ‹execFeclose _ _ = .next _›)
    | with_reducible apply Upd.step (execFefabrd_upd _ _ ‹execFefabrd _ _ = .next _›)
    | with_reducible apply Upd.step (execFefabwr_upd _ _ _ ‹execFefabwr _ _ _ = .next _›)
    | with_reducible apply Upd.step (execFeovrd_upd _ _ _ ‹execFeovrd _ _ _ = .next _›)
    | with_reducible apply Upd.step (execFeovwr_upd _ _ _ ‹execFeovwr _ _ _ = .next _›)
    | with_reducible apply Upd.step (execFebatch_upd _ _ _ ‹execFebatch _ _ _ = .next _›)
    | with_reducible apply Upd.step (execFeegr_upd _ _ _ ‹execFeegr _ _ _ = .next _›)
    | with_reducible apply Upd.step (execMxldw_upd _ _ _ ‹execMxldw _ _ _ = .next _›)
    | with_reducible apply Upd.step (execMxrun_upd _ _ _ ‹execMxrun _ _ _ = .next _›)
    | with_reducible apply Upd.step (execMxlds_upd _ _ _ ‹execMxlds _ _ _ = .next _›)
    | with_reducible apply Upd.step (execPuacc_upd _ _ _ ‹execPuacc _ _ _ = .next _›)
    | with_reducible apply Upd.step (execPuflush_upd _ _ _ ‹execPuflush _ _ _ = .next _›)
    | with_reducible apply Upd.step (execPucensus_upd _ _ ‹execPucensus _ _ = .next _›)
    | with_reducible apply Upd.step (execPuclr_upd _ _ ‹execPuclr _ _ = .next _›)
    | with_reducible apply Upd.step (execPuvec_upd _ _ _ ‹execPuvec _ _ _ = .next _›)
    | with_reducible apply Upd.step (execVxld_upd _ _ _ ‹execVxld _ _ _ = .next _›)
    | with_reducible apply Upd.step (execVxst_upd _ _ _ ‹execVxst _ _ _ = .next _›)
    | with_reducible apply Upd.step (execVxepl_upd _ _ _ ‹execVxepl _ _ _ = .next _›)
    | with_reducible apply Upd.step (execVxep_upd _ _ ‹execVxep _ _ = .next _›)
    | with_reducible apply Upd.step (execVxcvt_upd _ _ ‹execVxcvt _ _ = .next _›)
    | with_reducible apply Upd.step (execVxcmp_upd _ _ ‹execVxcmp _ _ = .next _›)
    | with_reducible apply Upd.step (execVxexp_upd _ _ ‹execVxexp _ _ = .next _›)
    | with_reducible apply Upd.step (execVxband_upd _ _ ‹execVxband _ _ = .next _›)
    | with_reducible apply Upd.step (execVxperm_upd _ _ ‹execVxperm _ _ = .next _›)
    | with_reducible apply Upd.step (execVxshuf_upd _ _ ‹execVxshuf _ _ = .next _›)
    | with_reducible apply Upd.step (execVxpack_upd _ _ ‹execVxpack _ _ = .next _›)
    | with_reducible apply Upd.step (execVxunpk_upd _ _ ‹execVxunpk _ _ = .next _›)
    | with_reducible apply Upd.step (execVxtree_upd _ _ ‹execVxtree _ _ = .next _›)
    | with_reducible apply Upd.step (execVxopt_upd _ _ ‹execVxopt _ _ = .next _›)
    | with_reducible apply Upd.step (execVxsracc_upd _ _ ‹execVxsracc _ _ = .next _›)
    | with_reducible apply Upd.step (execVxrand_upd _ _ ‹execVxrand _ _ = .next _›)
    | with_reducible apply Upd.step (execVxmask_upd _ _ ‹execVxmask _ _ = .next _›)
    | with_reducible apply Upd.step (execChopen_upd _ _ ‹execChopen _ _ = .next _›)
    | with_reducible apply Upd.step (execChclose_upd _ _ ‹execChclose _ _ = .next _›)
    | with_reducible apply Upd.step (execChsend_upd _ _ _ ‹execChsend _ _ _ = .next _›)
    | with_reducible apply Upd.step (execChsig_upd _ _ ‹execChsig _ _ = .next _›)
    | with_reducible apply Upd.step (execChmcast_upd _ _ _ ‹execChmcast _ _ _ = .next _›)
    | with_reducible apply Upd.step (execChbar_upd _ _ ‹execChbar _ _ = .next _›)
    | with_reducible apply Upd.step (execChrole_upd _ _ ‹execChrole _ _ = .next _›)
    | with_reducible apply Upd.step (execTsread_upd _ _ _ ‹execTsread _ _ _ = .next _›)
    | with_reducible apply Upd.step (execEntropy_upd _ _ _ ‹execEntropy _ _ _ = .next _›)
    | with_reducible apply Upd.step (execCntread_upd _ _ ‹execCntread _ _ = .next _›)
    | with_reducible apply Upd.step (execHostpoll_upd _ _ _ ‹execHostpoll _ _ _ = .next _›) | split | dsimp only | intro _

theorem controlLc_upd (p : Nat) (s : State) :
    Upd [.regs, .evts, .cores, .cmt, .host] [.job, .bsn, .th] (some p) s (controlLc p s) := by
  unfold controlLc
  repeat' first
    | with_reducible exact Upd.refl _ _ _ _ | exact rfl | exact .inl rfl | exact .inr rfl | with_reducible assumption
    | with_reducible apply Upd.ite | with_reducible apply ran_upd | with_reducible apply Upd.step (execThli_upd _ _ ‹execThli _ _ = .next _›)
    | with_reducible apply Upd.step (execThadd_upd _ _ ‹execThadd _ _ = .next _›)
    | with_reducible apply Upd.step (execThsub_upd _ _ ‹execThsub _ _ = .next _›)
    | with_reducible apply Upd.step (execThand_upd _ _ ‹execThand _ _ = .next _›)
    | with_reducible apply Upd.step (execThor_upd _ _ ‹execThor _ _ = .next _›)
    | with_reducible apply Upd.step (execThxor_upd _ _ ‹execThxor _ _ = .next _›)
    | with_reducible apply Upd.step (execThshl_upd _ _ ‹execThshl _ _ = .next _›)
    | with_reducible apply Upd.step (execThshr_upd _ _ ‹execThshr _ _ = .next _›)
    | with_reducible apply Upd.step (execThmul_upd _ _ ‹execThmul _ _ = .next _›)
    | with_reducible apply Upd.step (execThcmp_upd _ _ ‹execThcmp _ _ = .next _›)
    | with_reducible apply Upd.step (execThbr_upd _ _ ‹execThbr _ _ = .next _›)
    | with_reducible apply Upd.step (execThjmp_upd _ _ ‹execThjmp _ _ = .next _›)
    | with_reducible apply Upd.step (execThlds_upd _ _ _ ‹execThlds _ _ _ = .next _›)
    | with_reducible apply Upd.step (execThsts_upd _ _ ‹execThsts _ _ = .next _›)
    | with_reducible apply Upd.step (execThbase_upd _ _ ‹execThbase _ _ = .next _›)
    | with_reducible apply Upd.step (execThexit_upd _ _ ‹execThexit _ _ = .next _›) | split | dsimp only | intro _

theorem threadLc_upd (p : Nat) (s : State) :
    Upd [.regs, .evts, .cores, .cmt, .host] [.q, .started, .came, .sigs, .job, .obj, .bsn, .th] (some p) s (threadLc p s) := by
  unfold threadLc
  repeat' first
    | with_reducible exact Upd.refl _ _ _ _ | exact rfl | exact .inl rfl | exact .inr rfl | with_reducible assumption
    | with_reducible apply Upd.ite | with_reducible apply Upd.step (controlLc_upd ..) | with_reducible apply Upd.step (threadIssue_upd ..)
    | split | dsimp only | intro _

theorem fordsLc_upd (p : Nat) (s : State) :
    Upd [.regs, .evts, .cores, .cmt, .host, .fab] [.fe, .bsn, .ch] (some p) s (fordsLc p s) := by
  unfold fordsLc
  repeat' first
    | with_reducible exact Upd.refl _ _ _ _ | exact rfl | exact .inl rfl | exact .inr rfl | with_reducible assumption
    | with_reducible apply Upd.ite | with_reducible apply Upd.step (remoteRead_upd ..) | with_reducible apply Upd.step (remoteWrite_upd ..)
    | with_reducible apply Upd.foldN | split | dsimp only | intro _

theorem slotsLc_upd (p : Nat) (s : State) :
    Upd [.regs, .evts, .cores, .cmt, .host, .fab] [.fe, .bsn, .ch] (some p) s (slotsLc p s) := by
  unfold slotsLc
  repeat' first
    | with_reducible exact Upd.refl _ _ _ _ | exact rfl | exact .inl rfl | exact .inr rfl | with_reducible assumption
    | with_reducible apply Upd.ite | with_reducible apply Upd.step (depositSlot_upd ..) | with_reducible apply Upd.foldN | split | dsimp only
    | intro _

theorem sinksLc_upd (p : Nat) (s : State) :
    Upd [.cores] [.takes, .bsn] (some p) s (sinksLc p s) := by
  unfold sinksLc
  repeat' first
    | with_reducible exact Upd.refl _ _ _ _ | exact rfl | exact .inl rfl | exact .inr rfl | with_reducible assumption
    | with_reducible apply Upd.ite | with_reducible apply Upd.step (sinkDrain_upd ..) | with_reducible apply Upd.foldl | split | dsimp only
    | intro _

theorem sendsLc_upd (p : Nat) (s : State) :
    Upd [.cores, .fab] [.ch, .pc] (some p) s (sendsLc p s) := by
  unfold sendsLc
  repeat' first
    | with_reducible exact Upd.refl _ _ _ _ | exact rfl | exact .inl rfl | exact .inr rfl | with_reducible assumption
    | with_reducible apply Upd.ite | with_reducible apply Upd.step (sendBufferDepart_upd ..) | with_reducible apply Upd.foldN | split
    | dsimp only | intro _

theorem rowsLc_upd (p : Nat) (s : State) :
    Upd [.regs, .evts, .cores, .cmt, .host] [.mx, .pu] (some p) s (rowsLc p s) := by
  unfold rowsLc
  repeat' first
    | with_reducible exact Upd.refl _ _ _ _ | exact rfl | exact .inl rfl | exact .inr rfl | with_reducible assumption
    | with_reducible apply Upd.ite | with_reducible apply Upd.step (postArrival_upd ..) | with_reducible apply Upd.foldN | split | dsimp only
    | intro _

theorem coreBegin_upd (p : Nat) (s : State) :
    Upd [.regs, .evts, .cores, .task, .cmt, .host, .fab] [.q, .busy, .started, .came, .sigs, .job, .obj, .takes, .fe, .bsn, .mx, .pu, .ch, .th, .pc, .issue] (some p) s (coreBegin p s) := by
  unfold coreBegin
  repeat' first
    | with_reducible exact Upd.refl _ _ _ _ | exact rfl | exact .inl rfl | exact .inr rfl | with_reducible assumption
    | with_reducible apply Upd.ite | with_reducible apply Upd.step (rampDown_upd ..) | with_reducible apply Upd.step (startUnitLc_upd ..)
    | with_reducible apply Upd.step (rowsLc_upd ..) | with_reducible apply Upd.step (sendsLc_upd ..)
    | with_reducible apply Upd.step (slotsLc_upd ..) | with_reducible apply Upd.step (fordsLc_upd ..)
    | with_reducible apply Upd.step (sinksLc_upd ..) | with_reducible apply Upd.step (threadLc_upd ..) | with_reducible apply Upd.foldN | split
    | dsimp only | intro _

theorem lcBegin_upd (s : State) :
    Upd [.regs, .evts, .cores, .dales, .holds, .task, .cmt, .host, .fab] [.q, .busy, .started, .came, .sigs, .job, .obj, .adds, .takes, .fe, .bsn, .mx, .pu, .vx, .ch, .th, .pc, .issue] none s (lcBegin s) := by
  unfold lcBegin
  repeat' first
    | with_reducible exact Upd.refl _ _ _ _ | exact rfl | exact .inl rfl | exact .inr rfl | with_reducible assumption
    | with_reducible apply Upd.ite | with_reducible apply Upd.step (stopsLc_upd ..) | with_reducible apply Upd.step (queuesLc_upd ..)
    | with_reducible apply Upd.step (holdsLc_upd ..) | with_reducible apply Upd.step (cellsLc_upd ..)
    | with_reducible apply Upd.step (coreBegin_upd ..) | with_reducible apply Upd.step (issueLc_upd ..) | with_reducible apply Upd.foldl
    | with_reducible apply Upd.foldl_snd | with_reducible apply Upd.foldl_fst | split | dsimp only | intro _

theorem hostLc_upd (s : State) {o_ : Option Nat} :
    Upd [.host] [] o_ s (hostLc s) := by
  unfold hostLc
  repeat' first
    | with_reducible exact Upd.refl _ _ _ _ | exact rfl | exact .inl rfl | exact .inr rfl | with_reducible assumption
    | with_reducible apply Upd.ite | split | dsimp only | intro _ | with_reducible apply Upd.set

theorem endLc_upd (s : State) :
    Upd [.regs, .evts, .cores, .dales, .holds, .clk, .task, .phase, .hbm, .cmt, .host, .fab, .trc, .fresh, .out] [.mode, .modeNext, .q, .busy, .started, .came, .sigs, .job, .obj, .adds, .takes, .rst, .fe, .bsn, .mx, .pu, .vx, .ch, .th, .pc, .vlog, .issue] none s (endLc s) := by
  unfold endLc
  repeat' first
    | with_reducible exact Upd.refl _ _ _ _ | exact rfl | exact .inl rfl | exact .inr rfl | with_reducible assumption
    | with_reducible apply Upd.ite | with_reducible apply Upd.step (lcBegin_upd ..) | with_reducible apply Upd.step' (holdLcs_upd ..)
    | with_reducible apply Upd.step (coreLc_upd ..) | with_reducible apply Upd.step' (noteBodyEnd_upd ..)
    | with_reducible apply Upd.step' (bridgeLc_upd ..) | with_reducible apply Upd.step' (samplesLc_upd ..)
    | with_reducible apply Upd.step' (regionLc_upd ..) | with_reducible apply Upd.step (colLc_upd ..)
    | with_reducible apply Upd.step' (hostLc_upd ..) | with_reducible apply Upd.step' (stretched_upd ..)
    | with_reducible apply Upd.step' (timePasses_upd ..) | with_reducible apply Upd.foldl | with_reducible apply Upd.foldl_snd
    | with_reducible apply Upd.foldl_fst | split | dsimp only | intro _

end Sys2Proof.Machine
end

