-- ==== Sys2Proof/Laws/Memory.lean ====
section
/-! SUPPORT. Byte stores: the canonical form is kept by every operation on them, and what a byte reads as after a write. -/
namespace Sys2Proof.Machine
set_option linter.all false

/-! ### Canonical form -/

theorem mrising_weaken {α : Type} {a b : Nat} (h : a ≤ b) : ∀ {m : SMap α}, mrising (some b) m = true → mrising (some a) m = true
  | [], _ => rfl
  | (k, v) :: t, g => by
    simp only [mrising, Bool.and_eq_true, decide_eq_true_eq] at g ⊢
    exact ⟨by omega, g.2⟩

theorem mrising_of_some {α : Type} {a : Nat} : ∀ {m : SMap α}, mrising (some a) m = true → mrising none m = true
  | [], _ => rfl
  | (k, v) :: t, g => by
    simp only [mrising, Bool.and_eq_true] at g ⊢
    exact g.2

theorem mrising_filter {α : Type} (f : Nat × α → Bool) : ∀ (m : SMap α) (a : Nat), mrising (some a) m = true → mrising (some a) (m.filter f) = true
  | [], _, _ => rfl
  | (k, v) :: t, a, g => by
    simp only [mrising, Bool.and_eq_true, decide_eq_true_eq] at g
    have ih := mrising_filter f t k g.2
    rw [List.filter_cons]
    split
    · simp only [mrising, Bool.and_eq_true, decide_eq_true_eq]; exact ⟨g.1, ih⟩
    · exact mrising_weaken (by omega) ih

theorem mrising_filter_none {α : Type} (f : Nat × α → Bool) : ∀ (m : SMap α), mrising none m = true → mrising none (m.filter f) = true
  | [], _ => rfl
  | (k, v) :: t, g => by
    have ih := mrising_filter f t k g
    rw [List.filter_cons]
    split
    · exact ih
    · exact mrising_of_some ih

theorem mdel_eq_filter {α : Type} (a : Nat) : ∀ m : SMap α, mdel a m = m.filter fun c => decide (c.1 ≠ a)
  | [] => rfl
  | (k, v) :: t => by
    rw [List.filter_cons]
    unfold mdel
    by_cases h : k = a <;> simp [h, mdel_eq_filter a t]

theorem mrising_mins {α : Type} (a : Nat) (x : α) : ∀ (m : SMap α) (b : Nat), b < a → (∀ c ∈ m, c.1 ≠ a) → mrising (some b) m = true →
    mrising (some b) (mins a x m) = true
  | [], b, h, _, _ => by simp [mins, mrising, h]
  | (k, v) :: t, b, h, ne, g => by
    simp only [mrising, Bool.and_eq_true, decide_eq_true_eq] at g
    unfold mins
    split
    · next lt => simp only [mrising, Bool.and_eq_true, decide_eq_true_eq]; exact ⟨h, lt, g.2⟩
    · next ge =>
      have hk : k ≠ a := ne (k, v) (by simp)
      simp only [mrising, Bool.and_eq_true, decide_eq_true_eq]
      exact ⟨g.1, mrising_mins a x t k (by omega) (fun c hc => ne c (by simp [hc])) g.2⟩

theorem mrising_mins_none {α : Type} (a : Nat) (x : α) : ∀ (m : SMap α), (∀ c ∈ m, c.1 ≠ a) → mrising none m = true →
    mrising none (mins a x m) = true
  | [], _, _ => rfl
  | (k, v) :: t, ne, g => by
    unfold mins
    split
    · next lt => simp only [mrising, Bool.and_eq_true, decide_eq_true_eq]; exact ⟨lt, g⟩
    · next ge =>
      have hk : k ≠ a := ne (k, v) (by simp)
      exact mrising_mins a x t k (by omega) (fun c hc => ne c (by simp [hc])) g

theorem mem_mins {α : Type} (a : Nat) (x : α) : ∀ (m : SMap α) (c : Nat × α), c ∈ mins a x m → c = (a, x) ∨ c ∈ m
  | [], c, h => by simpa [mins] using h
  | (k, v) :: t, c, h => by
    unfold mins at h
    split at h
    · simpa using h
    · rcases List.mem_cons.mp h with h | h
      · exact .inr (by simp [h])
      · rcases mem_mins a x t c h with h | h
        · exact .inl h
        · exact .inr (by simp [h])

section
variable {α : Type} [DecidableEq α] {d : α} {m : SMap α}

theorem mwf_filter (f : Nat × α → Bool) (h : mwf d m = true) : mwf d (m.filter f) = true := by
  simp only [mwf, Bool.and_eq_true, List.all_eq_true, decide_eq_true_eq] at h ⊢
  exact ⟨mrising_filter_none f m h.1, fun c hc => h.2 c ((List.mem_filter.mp hc).1)⟩

theorem mwf_mdel (a : Nat) (h : mwf d m = true) : mwf d (mdel a m) = true := mdel_eq_filter a m ▸ mwf_filter _ h

theorem mwf_mput {a : Nat} {x : α} (hx : x ≠ d) (h : mwf d m = true) : mwf d (mput a x m) = true := by
  have g := mwf_mdel a h
  have ne : ∀ c ∈ mdel a m, c.1 ≠ a := fun c hc => by
    rw [mdel_eq_filter] at hc
    simpa using (List.mem_filter.mp hc).2
  simp only [mput, mwf, Bool.and_eq_true, List.all_eq_true, decide_eq_true_eq] at g ⊢
  refine ⟨mrising_mins_none a x _ ne g.1, fun c hc => ?_⟩
  rcases mem_mins a x _ c hc with h | h
  · rw [h]; exact hx
  · exact g.2 c h

theorem mwf_mset (a : Nat) (x : α) (h : mwf d m = true) : mwf d (mset d a x m) = true := by
  unfold mset
  split
  · exact mwf_mdel a h
  · next hx => exact mwf_mput hx h
end

theorem wrMem_wf : ∀ (bytes : List Byte) (a : Nat) (m : List Host.Cell), Memory.wf m = true → Memory.wf (wrMem m a bytes) = true
  | [], _, _, h => h
  | b :: t, a, m, h => wrMem_wf t (a + 1) (mset 0 a b m) (mwf_mset a b h)

theorem zeroCells_wf (die at_ n : Nat) {m : List Host.Cell} (h : Memory.wf m = true) : Memory.wf (zeroCells die at_ n m) = true := mwf_filter _ h

theorem moveCells_wf (die src dst n : Nat) {m : List Host.Cell} (h : Memory.wf m = true) : Memory.wf (moveCells die src dst n m) = true := by
  have nz : ∀ c ∈ m, c.2 ≠ 0 := by
    simp only [Memory.wf, mwf, Bool.and_eq_true, List.all_eq_true, decide_eq_true_eq] at h
    exact h.2
  unfold moveCells
  dsimp only
  have key : ∀ (l : List Host.Cell) (f : Host.Cell → Nat) (m : List Host.Cell), (∀ c ∈ l, c.2 ≠ 0) → Memory.wf m = true →
      Memory.wf (l.foldl (fun m c => mput (f c) c.2 m) m) = true := by
    intro l f
    induction l with
    | nil => exact fun m _ h => h
    | cons c l ih =>
      exact fun m hc h => ih _ (fun e he => hc e (List.mem_cons_of_mem _ he)) (mwf_mput (hc c List.mem_cons_self) h)
  exact key _ (fun c => die * 2 ^ 40 + dst + (c.1 - (die * 2 ^ 40 + src))) _ (fun c hc => nz c (List.mem_filter.mp hc).1) (mwf_filter _ h)

/-- The contents that come with a load keep the form of HBM. -/
theorem fillRegions_wf (rs : List RegionD) (sel : Nat → Bool) (data : List (Nat × List Byte)) {s : State} (h : Memory.wf s.hbm.mem = true) :
    Memory.wf (fillRegions rs sel data s).hbm.mem = true := by
  unfold fillRegions
  dsimp only
  generalize s.hbm.mem = m at h
  induction data generalizing m with
  | nil => exact h
  | cons x t ih =>
    apply ih
    dsimp only
    split
    · split
      · exact wrMem_wf _ _ _ h
      · exact h
    · exact h

/-- So do the host's bytes of a region. -/
theorem writeCommitted_wf (i : Nat) (r : RegionD) (off : Nat) (b : List Byte) {s : State} (h : Memory.wf s.hbm.mem = true) :
    Memory.wf (writeCommitted i r off b s).hbm.mem = true := by
  unfold writeCommitted
  dsimp only
  generalize s.hbm.mem = m at h
  induction List.range b.length generalizing m with
  | nil => exact h
  | cons x t ih => exact ih _ (mwf_mset _ _ h)

/-- A row written to a region keeps the form of the program area. -/
theorem regionWrite_wf (p i : Nat) (r : RegionD) (a : Nat) (bytes : List Byte) {s : State} (h : Memory.wf s.hbm.mem = true) :
    Memory.wf (regionWrite p i r a bytes s).hbm.mem = true := by
  unfold regionWrite
  dsimp only
  split
  · rw [(progFault_upd (o_ := none) ..).hbm rfl]; exact h
  · apply wrMem_wf
    split
    · exact mwf_filter _ h
    · exact h

/-! ### Reads after writes -/

theorem wrMem_outside (x : Nat) : ∀ (bytes : List Byte) (a : Nat) (m : List Host.Cell), (x < a ∨ a + bytes.length ≤ x) →
    mget 0 (wrMem m a bytes) x = mget 0 m x
  | [], _, _, _ => rfl
  | b :: t, a, m, h => by
    unfold wrMem
    simp only [List.length_cons] at h
    rw [wrMem_outside x t (a + 1) _ (by omega), mget_mset_ne (0 : Byte) b m (by omega)]

theorem wrMem_inside : ∀ (bytes : List Byte) (a : Nat) (m : List Host.Cell) (i : Nat), i < bytes.length →
    mget 0 (wrMem m a bytes) (a + i) = bytes.getD i 0
  | [], _, _, _, h => absurd h (by simp)
  | b :: t, a, m, 0, _ => by
    unfold wrMem
    show mget 0 (wrMem (mset 0 a b m) (a + 1) t) a = b
    rw [wrMem_outside a t (a + 1) _ (by omega), mget_mset]
  | b :: t, a, m, i + 1, h => by
    unfold wrMem
    have g := wrMem_inside t (a + 1) (mset 0 a b m) i (by simpa using h)
    rw [show a + (i + 1) = a + 1 + i by omega, g]
    rfl

theorem rdMem_wrMem (m : List Host.Cell) (a : Nat) (bytes : List Byte) : rdMem (wrMem m a bytes) a bytes.length = bytes := by
  apply List.ext_getElem
  · simp [rdMem]
  · intro i h1 h2
    simp only [rdMem, List.getElem_map, List.getElem_range]
    rw [wrMem_inside bytes a m i h2, List.getD_eq_getElem?_getD, List.getElem?_eq_getElem h2]
    rfl

end Sys2Proof.Machine
end

