-- ==== Sys2Proof/Laws/Registers.lean ====
section
/-! SUPPORT. The register file: what a word reads as after each of the operations that write it, and what a gate of host writes does. -/
namespace Sys2Proof.Machine
set_option linter.all false

@[simp] theorem regAt_setReg (a v : Nat) (s : State) : regAt (setReg a v s) a = v % 2 ^ 32 := by
  simp [regAt, setReg]
theorem regAt_setReg_ne {a b : Nat} (v : Nat) (s : State) (h : b ≠ a) : regAt (setReg a v s) b = regAt s b := by
  unfold regAt setReg
  by_cases e : regReset a = regReset b
  · rw [← e, mget_mset_ne _ _ _ h]
  · have : ∀ d x : W32, mget d (mset (regReset a) a x s.regs) b = mget d s.regs b := by
      intro d x
      unfold mset
      split
      · exact mget_mdel_ne d h _
      · exact (mget_mins_ne d x h _).trans (mget_mdel_ne d h _)
    rw [this]

theorem bput_lt {n lo len v : Nat} : bput n lo len v = n % 2 ^ lo + (v % 2 ^ len) * 2 ^ lo + ((n >>> (lo + len)) <<< (lo + len)) := rfl

/-- A field reads as it was put. -/
theorem bfield_bput (n lo len v : Nat) : bfield (bput n lo len v) lo len = v % 2 ^ len := by
  unfold bfield bput
  rw [Nat.shiftRight_eq_div_pow, Nat.shiftLeft_eq, Nat.pow_add]
  have h1 : n % 2 ^ lo < 2 ^ lo := Nat.mod_lt _ (Nat.two_pow_pos _)
  have e : n % 2 ^ lo + v % 2 ^ len * 2 ^ lo + n >>> (lo + len) * (2 ^ lo * 2 ^ len)
      = n % 2 ^ lo + 2 ^ lo * (v % 2 ^ len + 2 ^ len * n >>> (lo + len)) := by
    rw [Nat.mul_add, Nat.mul_comm (v % 2 ^ len), Nat.mul_comm (n >>> (lo + len)), Nat.mul_assoc, Nat.add_assoc]
  rw [e, Nat.add_mul_div_left _ _ (Nat.two_pow_pos _), Nat.div_eq_of_lt h1, Nat.zero_add, Nat.add_mul_mod_self_left, Nat.mod_mod]

theorem regAt_lt (s : State) (a : Nat) : regAt s a < 2 ^ 32 := BitVec.isLt _

@[simp] theorem regAt_setBits (a mask : Nat) (s : State) : regAt (setBits a mask s) a = (regAt s a ||| mask) % 2 ^ 32 := regAt_setReg ..
theorem regAt_setBits_ne {a b : Nat} (mask : Nat) (s : State) (h : b ≠ a) : regAt (setBits a mask s) b = regAt s b := regAt_setReg_ne _ _ h
@[simp] theorem regAt_setField (a lo w v : Nat) (s : State) : regAt (setField a lo w v s) a = bput (regAt s a) lo w v % 2 ^ 32 := regAt_setReg ..
theorem regAt_setField_ne {a b : Nat} (lo w v : Nat) (s : State) (h : b ≠ a) : regAt (setField a lo w v s) b = regAt s b := regAt_setReg_ne _ _ h
theorem regAt_satField_ne {a b : Nat} (lo w n : Nat) (s : State) (h : b ≠ a) : regAt (satField a lo w n s) b = regAt s b := regAt_setReg_ne _ _ h

theorem reg64_setReg64 (a v : Nat) (s : State) (h : v < 2 ^ 64) : reg64 (setReg64 a v s) a = v := by
  unfold reg64 setReg64
  rw [regAt_setReg, regAt_setReg_ne _ _ (by omega), regAt_setReg, Nat.shiftRight_eq_div_pow]
  omega
theorem regAt_setReg64_ne {a b : Nat} (v : Nat) (s : State) (h : b ≠ a) (g : b ≠ a + 4) : regAt (setReg64 a v s) b = regAt s b := by
  unfold setReg64
  rw [regAt_setReg_ne _ _ g, regAt_setReg_ne _ _ h]

@[simp] theorem regAt_irqOwe (page b : Nat) (s : State) : regAt (irqOwe page s) b = regAt s b := by
  unfold irqOwe; split <;> rfl
/-- A raised interrupt sets bits of one page's IRQ_RAW and of no other register. -/
theorem regAt_irqRaise (page mask b : Nat) (s : State) :
    regAt (irqRaise page mask s) b = if b = page * 0x1000 + 0x10 then (regAt s b ||| mask) % 2 ^ 32 else regAt s b := by
  unfold irqRaise
  dsimp only
  have e : ∀ t, regAt t b = regAt (setBits (page * 0x1000 + 0x10) mask s) b →
      regAt t b = if b = page * 0x1000 + 0x10 then (regAt s b ||| mask) % 2 ^ 32 else regAt s b := by
    intro t h
    rw [h]
    split
    · next g => subst g; exact regAt_setBits ..
    · next g => exact regAt_setBits_ne _ _ g
  split
  · exact e _ rfl
  · exact e _ (regAt_irqOwe ..)

/-- Only the registers decide what a register reads as. -/
theorem regAt_congr {s t : State} (h : t.regs = s.regs) (a : Nat) : regAt t a = regAt s a := by unfold regAt; rw [h]

end Sys2Proof.Machine
end

