-- ==== Sys2Proof/Tests/Slice0.lean ====
section
/-! SUPPORT. The model's own tests: ill-formed commands are refused; each statement's hypotheses are met by a concrete state, with what the
command answers there; values the spec gives in tables. -/
namespace Sys2Proof.Tests
open Sys2Proof.Machine
set_option maxRecDepth 100000
set_option Elab.async false

/-- The outcome is a next state of which `P` holds. -/
def ok (o : Host.Outcome State Fault Refusal) (P : State → Bool) : Bool :=
  match o with
  | .next t => P t
  | _ => false

/-- The outcome is the next state `t`. -/
def gives (o : Host.Outcome State Fault Refusal) (t : State) : Bool := ok o fun u => decide (u = t)

/-- The outcome is a refusal under the name noSuch. -/
def refusedNoSuch (o : Host.Outcome State Fault Refusal) : Bool :=
  match o with
  | .refused (.noSuch _) => true
  | _ => false

/-- The reset state. -/
def r0 : State := State.reset

/-! ### Ill-formed commands: one for each check of WellFormed -/
theorem test_illformed : [Instr.tickSourceEdge 24, .tickSymbolArrival 24 0 0, .portFence 31, .journalDrain 2, .marginFall 64 0 0, .marginFall 0 0 8, .marginRecovery 0 16 0,
    .sentinelWarning 64, .colHold 133, .queueEntry 12, .hbmRefresh 8 0, .hbmRefresh 0 32, .routerForward 2 0 0, .routerForward 0 12 0,
    .routerForward 0 0 8, .ringRecordWrite .a 2048, .gcntSelect .a 32 0, .holdRelease 64, .elasticSinkDrain 192 0, .elasticSinkDrain 0 48,
    .depositSlotAccess 0 16 [], .linkCellReceive 0 ⟨0, 0, 0⟩ 8 false 0, .basinScrubWriteback 0 16 0 0, .basinScrubWriteback 0 0 1024 0, .basinScrubWriteback 0 0 0 4,
    .fieldRepair 0 0 1024, .threadedStreamHalt 0 16 .hbmUe 0, .registerWrite .a 1 0 0, .registerWrite .a 0 0x4000000 0,
    .readClear .b 2 0x1000000, .readClear .b 4 0x800000, .irqMessage 512, .fopRequest .controller 8, .thexit 192].all
      (fun c => !c.wf && refusedNoSuch (exec c r0)) = true := by decide +kernel
theorem test_wellformed_edges : [Instr.tickSourceEdge 23, .tickSourceEdge 0x1F, .portFence 23, .journalDrain 1, .marginFall 63 15 7, .colHold 132,
    .queueEntry 11, .hbmRefresh 7 31, .routerForward 1 11 7, .ringRecordWrite .a 2047, .gcntSelect .a 31 0, .holdRelease 63,
    .elasticSinkDrain 191 47, .depositSlotAccess 191 15 [], .linkCellReceive 23 ⟨0, 0, 0⟩ 7 true 9, .fieldRepair 191 15 1023, .threadedStreamHalt 191 15 .hbmUe 0,
    .registerWrite .a 0 0x3FFFFFC 0, .readClear .b 4 0x7FFFFC, .irqMessage 511, .fopRequest .controller 7, .thexit 191].all
      (fun c => c.wf && ok (exec c r0) fun _ => true) = true := by decide +kernel

/-! ### The block, its queue, ticks and operating points -/
theorem witness_QueueAndTime : r0.pending = [] ∧ gives (step r0) { r0 with clk := { r0.clk with now := 1, wall := 4 * fopQuarter 0 } } = true
    ∧ ok (step { r0 with pending := [.pllLock 1, .status] }) (fun t => decide (t.pending = [.status])) = true := by decide +kernel
theorem witness_WellFormedCommandsComplete : Instr.wf (.thexit 191) = true ∧ Instr.wf .status = true := by decide
theorem witness_MissingObjectsRefused : Instr.wf (.thexit 192) = false ∧ Instr.wf (.readClear .a 3 0) = false := by decide
/-- A module that a host on `port` owns, after boot. -/
def owned (port : Port) : State := { r0 with host := { r0.host with owner := some port }, pwr := { r0.pwr with stage := 9 } }
/-- The same with a tick period of 10 us, at FOP7: no operating point there. -/
def slowClk : State := setReg (tckPage + 0x20) 10 { owned .a with clk := { r0.clk with fop := 7 } }
theorem witness_TickZonesAndStart : r0.regs = [] ∧ Served (owned .b) .b (tckPage + 0x2C) ∧ Served (owned .b) .b (tckPage + 0x3C)
    ∧ Served slowClk .a (tckPage + 0x2C) ∧ (owned .b).clk.run = false ∧ (owned .b).clk.starting = false ∧ (owned .b).pwr.startPend = false
    ∧ usable (owned .b) 0 = true ∧ taskValidAt (owned .b) 0 = true ∧ (owned .b).pwr.busy = false ∧ (owned .b).pwr.terrace < 2
    ∧ slowClk.clk.run = false ∧ usable slowClk slowClk.clk.fop = false := by unfold Served; decide +kernel
theorem test_tickStart : ok (exec (.tickStart .b) (owned .b)) (fun t => t.clk.starting && !t.clk.run) = true
    ∧ gives (exec (.tickStart .a) slowClk) (refuseWrite .a (tckPage + 0x2C) 1 slowClk) = true := by decide +kernel
theorem test_tickNumStartWrite : ok (exec (.tickNumStartWrite .b 0x800000000005) (owned .b)) (fun t => decide (t.clk.numStart = 0x800000000005)) = true := by
  decide +kernel
/-- Ticks run, nothing named, the period due. -/
def edgeClk : Clk := { r0.clk with run := true, now := 1000000, npq := 4 * 375000 }
def edgeS : State := { r0 with clk := edgeClk }
theorem witness_EdgesNameBoundaries : edgeS.clk.slip = 0 ∧ edgeS.clk.run = true ∧ edgeS.clk.named = none
    ∧ (512 + sext 6 (fieldAt edgeS (tckPage + 0x24) 10 6) - ((0 : Nat) : Int)).toNat * fopMHz edgeS.clk.fop / 12000 = 64
    ∧ slotN edgeS 0 ≤ npNow edgeS + 64 + 64 ∧ okSource (srcPri edgeS) = true ∧ okPort 0 = true
    ∧ npNow { edgeS with clk := { edgeClk with npq := 4 * 375000 - 4 * 64 } } + 64 ≤ slotN edgeS 0 + 64
    ∧ slotN edgeS 0 + 64 < npNow { edgeS with clk := { edgeClk with npq := 4 * 376000 } } + leadLc edgeS 0 := by decide +kernel
/-- The same with fabric ports 3 and 5 as sources. -/
def edgeF : State := setReg (tckPage + 0x24) (3 + 5 * 32) edgeS
theorem witness_EdgesNameBoundaries_symbol : srcPri edgeF = 3 ∧ srcSecond edgeF = 5 ∧ edgeF.clk.named = none ∧ okPort 3 = true
    ∧ (lpAt edgeF 3).delay = 0 ∧ cdiv ((512 + sext 6 (fieldAt edgeF (tckPage + 0x24) 10 6) - (192 : Int)).toNat * fopMHz 0) 12000 = 40
    ∧ slotN edgeF 0 ≤ npNow edgeF + 40 + 64 ∧ npNow edgeF + 40 ≤ slotN edgeF 0 + 64 := by decide +kernel
theorem test_tickSourceEdge : ok (exec (.tickSourceEdge 31) edgeS) (fun t => decide (t.clk.named = some 1000064)) = true
    ∧ gives (exec (.tickSourceEdge 7) edgeS) edgeS = true := by decide +kernel
theorem test_tickSymbolArrival : ok (exec (.tickSymbolArrival 3 9 0) edgeF) (fun t => decide (t.clk.named = some 1000040)) = true
    ∧ ok (exec (.tickSymbolArrival 5 9 0) edgeF) (fun t => decide (t.clk.secEdge = some 1000040 ∧ t.clk.named = none)) = true := by decide +kernel
/-- In holdover for 8 boundaries, at the last tick number, the window past. -/
def lateS : State := { r0 with clk := { edgeClk with npq := 4 * 376000, num := 2 ^ 48 - 1, holdover := true, hoCnt := 8 } }
theorem witness_EdgesNameBoundaries_late : lateS.clk.run = true ∧ lateS.clk.named = none ∧ slotN lateS 0 + 64 < npNow lateS + leadLc lateS 0
    ∧ lateS.clk.slip = 0 ∧ lateS.clk.namedTimer = false ∧ lateS.clk.secEdge = none ∧ lateS.clk.holdover = true ∧ lateS.clk.stopNext = false ∧ 8 ≤ lateS.clk.hoCnt ∧ lateS.clk.num = 2 ^ 48 - 1
    ∧ srcSecond edgeF ≠ 0x1E ∧ srcSecond lateS = 0x1E := by decide +kernel
theorem test_late_sec : ok (exec .missedBoundary (setReg (tckPage + 0x24) (3 + 5 * 32) { lateS with clk := { lateS.clk with secEdge := some 1000030 } }))
    (fun t => t.clk.namedSec && decide (t.clk.named = some 1000030)) = true := by decide +kernel
theorem test_late : ok (exec .missedBoundary lateS) (fun t => t.clk.namedTimer) = true ∧ ok (exec .holdoverExpiry lateS) (fun t => t.clk.tickLost && t.clk.stopNext) = true
    ∧ ok (exec .tickNumberExhausted lateS) (fun t => t.clk.stopNext) = true := by decide +kernel
/-- The named boundary lc reached. -/
def atB : State := { r0 with clk := { edgeClk with named := some 1000000, num := 7 } }
def stopB : State := { r0 with clk := { edgeClk with named := some 1000000, num := 7, stopNext := true } }
theorem witness_BoundaryOpensSlot : atB.clk.named = some 1000000 ∧ 1000000 ≤ atB.clk.now ∧ atB.clk.run = true ∧ atB.cmt.verdict = none
    ∧ atB.cmt.inDoubt = false ∧ atB.clk.stopNext = false ∧ atB.phase.st ≠ 2 ∧ atB.cmt.resetPend = false ∧ stopB.clk.stopNext = true
    ∧ stopB.cmt.verdict = none := by decide +kernel
theorem test_tickBoundary : ok (exec (.tickBoundary none none) atB) (fun t => decide (t.clk.num = 8 ∧ t.clk.lc = 0)) = true
    ∧ ok (exec (.tickBoundary none none) stopB) (fun t => decide (t.clk.num = 7 ∧ t.clk.run = false)) = true := by decide +kernel
/-- A request for FOP2 at tick 100, and one too near. -/
def fopS : State := setReg (tckPage + 0x34) 100 { owned .a with clk := { r0.clk with num := 90 } }
def fopNear : State := setReg (tckPage + 0x34) 93 { owned .a with clk := { r0.clk with num := 90 } }
theorem witness_FopRequestTaken : Served fopS .a (tckPage + 0x30) ∧ reg64 fopS (tckPage + 0x34) % 2 ^ 48 = 100 ∧ usable fopS 2 = true
    ∧ fopValid fopS 2 = true ∧ fopS.clk.num + 4 ≤ 100 ∧ 400 * wallUs ≤ wallTo fopS 100
    ∧ Served fopNear .a (tckPage + 0x30) ∧ usable fopNear 2 = true ∧ fopValid fopNear 2 = true ∧ farEnough fopNear 93 = false
    ∧ Served slowClk .a (tckPage + 0x30) ∧ (usable slowClk 7 && fopValid slowClk 7) = false := by unfold Served; decide +kernel
theorem test_fopRequest : ok (exec (.fopRequest (.host .a) 2) fopS) (fun t => decide (t.clk.fopPend = some (2, 100) ∧ t.clk.rail = [850, 850])) = true
    ∧ ok (exec (.fopRequest (.host .a) 2) fopNear) (fun t => decide (t.clk.fopPend = none) && bbit (regAt t (tckPage + 0x44)) 6) = true := by
  decide +kernel
theorem test_pllLock : ok (exec (.pllLock 1) { r0 with clk := { r0.clk with fopPend := some (2, 100) } }) (fun t => decide (t.clk.pll = [false, true])) = true := by
  decide +kernel
/-- A warning is up: FOP1 is next; at FOP1 with a long quiet run, FOP0 is. -/
def warnS : State := { r0 with clk := { r0.clk with regions := [(3, { warned := true })], num := 50 } }
def quietS : State := { r0 with clk := { r0.clk with fop := 1, quiet := 65536, num := 50 } }
theorem witness_ServiceFopSteps : warnS.clk.regions.any (fun r => r.2.warned) = true ∧ serviceFop warnS + 1 < 8 ∧ usable warnS 1 = true
    ∧ fopValid warnS 1 = true ∧ warnS.clk.svcFop = none ∧ 1 ≤ fieldAt warnS (tckPage + 0x20) 0 17
    ∧ usable { warnS with clk := { warnS.clk with svcFop := some 1 } } 2 = true
    ∧ 8 ≤ serviceFop { warnS with clk := { warnS.clk with fop := 7 } } + 1
    ∧ serviceFop quietS = 0 + 1 ∧ 65536 ≤ quietS.clk.quiet ∧ quietS.task.img = none ∧ usable quietS 0 = true ∧ fopValid quietS 0 = true
    ∧ quietS.clk.svcFop = none ∧ 1 ≤ fieldAt quietS (tckPage + 0x20) 0 17 := by decide +kernel
theorem test_fopSteps : ok (exec .fopStepDown warnS) (fun t => decide (t.clk.fopPend = some (1, 54))) = true
    ∧ ok (exec .fopStepUp quietS) (fun t => decide (t.clk.fopPend = some (0, 54) ∧ t.clk.rail = [850, 850])) = true := by decide +kernel
/-- Regions 0 and 63 lie 48 quarter periods behind their neighbours; region 33 has reported 2 for the last 1 ms. -/
def lagS : State := { r0 with clk := { r0.clk with
  wall := 2 * wallMs, regions := [(0, { late := List.replicate 12 49 }), (33, { sent := [(4, 2)], hist := [(1000, 2)] }), (63, { late := List.replicate 12 52 })] } }
theorem witness_MarginsAndHolds : (4 : Nat) < mget 7 (regionOf lagS 63).sent 15 ∧ 7 ≤ mget 7 (regionOf lagS 63).sent 0 + 0 ∧ mget 7 (regionOf lagS 33).sent 4 < 3
    ∧ (regionOf lagS 33).avgLow lagS.clk.wall = true ∧ (regionOf lagS 33).low = false ∧ (regionOf lagS 0).avgLow lagS.clk.wall = false
    ∧ lagS.clk.regions ≠ [] ∧ colWait lagS 132 31 63 = 4 ∧ colSides 132 = (31, 63) ∧ colWait lagS 0 0 1 = 0 ∧ colWait lagS 0 1 0 = 37
    ∧ colSides 0 = (0, 1) ∧ colWait lagS 1 1 2 = 0 ∧ colWait lagS 1 2 1 = 0 ∧ colSides 1 = (1, 2) := by decide +kernel
theorem test_margins : ok (exec (.marginFall 63 15 4) lagS) (fun t => decide ((regionOf t 63).margin = 4 ∧ (regionOf t 62).margin = 7)) = true
    ∧ ok (exec (.marginRecovery 33 4 3) lagS) (fun t => decide ((regionOf t 33).margin = 3)) = true
    ∧ ok (exec (.marginFall 33 5 3) lagS) (fun t => decide ((regionOf t 33).margin = 2)) = true := by decide +kernel
theorem test_colHold : ok (exec (.colHold 132) lagS) (fun t => decide ((regionOf t 31).gate = 4 ∧ (mget {} t.clk.cols 132).holds = 1)) = true
    ∧ ok (exec (.colHold 0) lagS) (fun t => decide ((regionOf t 1).gate = 37)) = true ∧ gives (exec (.colHold 1) lagS) lagS = true := by decide +kernel
theorem test_sentinelWarning : ok (exec (.sentinelWarning 33) lagS) (fun t => (regionOf t 33).warned && (regionOf t 33).low
    && decide (fieldAt t (tckPage + 0x64) 1 1 = 1)) = true := by decide +kernel
theorem test_zones_R33 : (List.range 8).map (fun f => bodyZone (setReg (tckPage + 0x20) 250 r0) f) =
    [359750, 335500, 311250, 287000, 262750, 238500, 208187, 177875] := by decide +kernel

/-! ### Host ports: ownership, rings, intake -/
/-- Port B offered at wall time 0; port A has been down for long. -/
def offerS : State := { owned .b with host := { r0.host with owner := some .b, offer := some 0 } }
def takeS : State := { owned .b with host := { r0.host with owner := some .b, pb := { downAt := some 0 } }, clk := { r0.clk with wall := 100000 * wallUs } }
def takeEarly : State := { takeS with clk := { r0.clk with wall := 100000 * wallUs - 1 } }
def lapseS : State := { offerS with clk := { r0.clk with wall := 1000000 * wallUs } }
/-- A port may write the ownership and hello registers of its own host-port page. -/
theorem witness_OwnershipPasses : Served offerS .a (hpPage .a + 0x24) ∧ offerS.host.offer = some 0 ∧ offerS.host.owner = some (portOther .a)
    ∧ offerS.clk.wall ≤ 0 + 1000000 * wallUs ∧ Served (owned .a) .a (hpPage .a + 0x24) ∧ (owned .a).host.owner = some .a
    ∧ Served (owned .b) .a (hpPage .a + 0x24) ∧ (owned .b).host.owner ≠ some .a
    ∧ Served { r0 with pwr := { r0.pwr with stage := 9 } } .a (hpPage .a + 0x24) ∧ r0.host.owner = none
    ∧ Served takeS .a (hpPage .a + 0x24) ∧ takeS.host.owner = some (portOther .a) ∧ (hpAt takeS .b).downAt = some 0
    ∧ 0 + 100000 * wallUs ≤ takeS.clk.wall ∧ takeEarly.clk.wall < 0 + 100000 * wallUs
    ∧ lapseS.host.offer = some 0 ∧ 0 + 1000000 * wallUs ≤ lapseS.clk.wall ∧ offerS.clk.wall < 0 + 1000000 * wallUs := by
  unfold Served; decide +kernel
theorem test_hostOwn : ok (exec (.hostOwnOffer .a) (owned .a)) (fun t => decide (t.host.offer = some 0)) = true
    ∧ ok (exec (.hostOwnAccept .a) offerS) (fun t => decide (t.host.owner = some .a)) = true
    ∧ ok (exec (.hostOwnTake .a) takeS) (fun t => decide (t.host.owner = some .a)) = true
    ∧ ok (exec (.hostOwnTake .a) takeEarly) (fun t => decide (t.host.owner = some .b) && bbit (regAt t 0x8024) 5) = true
    ∧ ok (exec .offerLapse lapseS) (fun t => decide (t.host.offer = none)) = true := by decide +kernel
theorem witness_PortSettingsAnswer : Served (owned .a) .b (hpPage .b + 0x28) ∧ r0.pwr.terrace = 0 ∧ r0.pwr.busy = false := by
  unfold Served; decide +kernel
theorem test_hpHelloWrite : ok (exec (.hpHelloWrite .b 0x0205) (owned .a)) (fun t => decide (t.host.pb.agreed = 0x0100) && bbit (regAt t 0x9010) 1) = true
    ∧ ok (exec (.ltrToleranceWrite .b (some 900)) { r0 with host := { r0.host with pb := { up := true } } }) (fun t => decide (t.out = [.ltr .b 0])) = true := by
  decide +kernel
/-- A port up with ring 2,047 enabled in the state given. -/
def ringS (x : Ring) : State := { r0 with host := { r0.host with pa := { up := true, agreed := 0x0100, rings := [(2047, x)] } } }
/-- A record of n bytes that waits. -/
def waits (n tail head : Nat) : State := ringS { en := true, wait := [(0, List.replicate n 1)], tail := tail, head := head }
theorem witness_RingPagesAnswerWrites : (2047 : Nat) < 2048 ∧ (0x40 : W32).toNat < 2 ^ 24 ∧ (hpAt r0 .a).agreed = 0 ∧ (1 : W32).getLsbD 0 = true
    ∧ (hpAt (ringS {}) .a).agreed ≠ 0 ∧ (0 : W32).getLsbD 0 = false := by decide +kernel
theorem test_ringWrites : ok (exec (.ringHeadWrite .a 2047 0x40) (waits 0 64 16)) (fun t => decide ((ringAt t .a 2047).head = 0x40)) = true
    ∧ ok (exec (.ringHeadWrite .a 2047 0x50) (waits 0 64 16)) (fun t => (ringAt t .a 2047).badHead && decide ((ringAt t .a 2047).head = 16)) = true
    ∧ ok (exec (.ringEnable .a 2047 0xFFF) (ringS { tail := 48, badHead := true })) (fun t => decide (ringAt t .a 2047 = { en := true, vec := 0x7FF, badHead := true })) = true := by
  decide +kernel
/-- A ring of 4,096 bytes keeps 16 bytes free. -/
theorem witness_RingRecordPlaced :
    let f := fun (s : State) => (ringAt s .a 2047).size - 16 - (ringAt s .a 2047).used
    let u := fun (s : State) => (ringAt s .a 2047).size - (ringAt s .a 2047).tail
    (ringAt (waits 64 4032 2048) .a 2047).wait = [(0, List.replicate 64 1)] ∧ (ringAt (waits 64 4032 2048) .a 2047).size = 4096
    ∧ (hpAt (waits 64 4032 2048) .a).up = true ∧ (64 : Nat) ≤ u (waits 64 4032 2048) ∧ 64 ≤ f (waits 64 4032 2048)
    ∧ u (waits 80 4032 2048) < 80 ∧ u (waits 80 4032 2048) + 80 ≤ f (waits 80 4032 2048)
    ∧ 64 ≤ u (waits 64 2000 2064) ∧ f (waits 64 2000 2064) < 64
    ∧ u (waits 80 4032 80) < 80 ∧ f (waits 80 4032 80) < u (waits 80 4032 80) + 80 ∧ (4096 : Nat) < 2 * 2064 := by decide +kernel
theorem test_ringRecordWrite : ok (exec (.ringRecordWrite .a 2047) (waits 64 4032 2048)) (fun t => decide ((ringAt t .a 2047).tail = 0)) = true
    ∧ ok (exec (.ringRecordWrite .a 2047) (waits 80 4032 2048)) (fun t => decide ((ringAt t .a 2047).tail = 80 ∧ t.out.length = 3)) = true
    ∧ gives (exec (.ringRecordWrite .a 2047) (waits 80 4032 80)) (waits 80 4032 80) = true
    ∧ ok (exec (.ringRecordWrite .a 2047) (waits 2064 0 0)) (fun t => (ringAt t .a 2047).tooBig) = true := by decide +kernel
/-- Ticks run and port B's intake is in the state given. -/
def intk (h : HPort) : State := { owned .a with clk := edgeClk, host := { r0.host with owner := some .a, pb := { h with inEn := true, up := true } } }
theorem witness_IntakeStoresPacket : (hpAt (intk {}) .b).inEn = true ∧ (hpAt (intk {}) .b).up = true ∧ (intk {}).clk.run = true
    ∧ (hpAt (intk {}) .b).isOpen = false ∧ bfield (0 : W64).toNat 0 13 = 0 ∧ 4080 < bfield (4081 : W64).toNat 0 13 ∧ bfield (0x2001 : W64).toNat 13 3 ≠ 0
    ∧ bfield (4080 : W64).toNat 0 13 ≤ 4080 ∧ bfield (4080 : W64).toNat 13 3 = 0 ∧ (intk {}).host.pb.fillWords < 65536
    ∧ (hpAt (intk { isOpen := true, need := 3, open_ := [1], fillWords := 65535 }) .b).isOpen = true
    ∧ 65535 + (cdiv (8 * (1 + 1)) 64 - openWords (hpAt (intk { isOpen := true, need := 3, open_ := [1], fillWords := 65535 }) .b)) ≤ 65536
    ∧ 65536 < 65536 + (cdiv (8 * (8 + 1)) 64 - openWords { isOpen := true, need := 9, open_ := List.replicate 8 1 }) := by decide +kernel
theorem test_intakeWordWrite : ok (exec (.intakeWordWrite .b 20) (intk {})) (fun t => decide (t.host.pb.need = 3 ∧ t.host.pb.open_ = [20])) = true
    ∧ ok (exec (.intakeWordWrite .b 4081) (intk {})) (fun t => t.host.pb.bad) = true
    ∧ ok (exec (.intakeWordWrite .b 7) (intk { isOpen := true, need := 3, open_ := [20] })) (fun t => decide (t.host.pb.open_ = [20, 7] ∧ t.host.pb.seen = 1)) = true
    ∧ ok (exec (.intakeWordWrite .b 7) (intk { isOpen := true, need := 3, open_ := [20], refuse := true })) (fun t => t.host.pb.bad && t.host.pb.ovrSlot) = true := by
  decide +kernel
/-- An open packet of 4 bytes, all its words in. -/
def whole (bad : Bool) : HPort := { isOpen := true, bad := bad, need := 1, seen := 1, open_ := [4, 0xAABBCCDD], fillWords := 1 }
def goodTrailer : W64 := BitVec.ofNat 64 (crc32c (packetBytes (whole false)))
theorem witness_IntakeTrailerDecides : (intk (whole false)).host.pb.need ≤ (intk (whole false)).host.pb.seen
    ∧ bfield goodTrailer.toNat 0 32 = crc32c (packetBytes (hpAt (intk (whole false)) .b)) ∧ goodTrailer.getLsbD 32 = false
    ∧ bfield (0 : W64).toNat 0 32 ≠ crc32c (packetBytes (hpAt (intk (whole false)) .b)) ∧ (0x100000000 : W64).getLsbD 32 = true
    ∧ (hpAt (intk (whole true)) .b).bad = true := by decide +kernel
theorem test_intakeTrailer : ok (exec (.intakeTrailer .b goodTrailer) (intk (whole false))) (fun t => decide (t.host.pb.bank.length = 1 ∧ t.host.pb.isOpen = false)) = true
    ∧ ok (exec (.intakeTrailer .b 0) (intk (whole false))) (fun t => decide (t.host.pb.bank = [] ∧ t.host.pb.fillWords = 0) && bbit (regAt t (intkPage .b + 0x24)) 2) = true := by
  decide +kernel
theorem test_crc32c : crc32c ("123456789".toList.map fun c => BitVec.ofNat 8 c.toNat) = 0xE3069283 := by decide +kernel
theorem witness_IntakeStops : Served (intk {}) .a (intkPage .a + 0x20) ∧ (hpAt r0 .a).up = false
    ∧ (hpAt (intk {}) .b).isOpen = false ∧ (hpAt (intk (whole false)) .b).isOpen = true := by unfold Served; decide +kernel
theorem test_intakeStop : ok (exec (.intakeStop .b .linkDown) (intk (whole false))) (fun t => decide (t.host.pb.open_ = [] ∧ t.host.pb.fillWords = 0 ∧ t.host.pb.up = false)) = true := by
  decide +kernel
/-- A committed record waits for port B. -/
def relS : State := { r0 with host := { r0.host with rel := [⟨.b, 3, false, 1, [1, 2]⟩] } }
/-- Port A has agreed on a version. -/
def agreedS : State := { owned .a with host := { r0.host with owner := some .a, pa := { agreed := 0x0100 } } }
theorem witness_PortsEnableResetAndComeUp : Served agreedS .a (intkPage .a + 0x20) ∧ (hpAt agreedS .a).agreed ≠ 0
    ∧ Served (intk {}) .a (intkPage .a + 0x20) ∧ (hpAt (intk {}) .a).agreed = 0 ∧ r0.pwr.on = true ∧ r0.pwr.inReset = false ∧ r0.host.rel = []
    ∧ okLink 6 8 = true ∧ relS.pwr.on = true ∧ relS.pwr.inReset = false := by
  unfold Served; decide +kernel
theorem test_intakeEnable : ok (exec (.intakeEnable .a true) agreedS) (fun t => t.host.pa.inEn) = true
    ∧ gives (exec (.intakeEnable .a true) (owned .a)) (owned .a) = true
    ∧ ok (exec (.hostPortReset .a false) agreedS) (fun t => decide (t.host.pa.agreed = 0 ∧ t.host.owner = some .a)) = true := by decide +kernel
theorem test_hostPortLinkUp : ok (exec (.hostPortLinkUp .b 6 8) relS) (fun t => decide (t.host.rel = [] ∧ (ringAt t .b 3).wait = [(1, [1, 2])])) = true
    ∧ ok (exec (.hostPortLinkUp .a 1 1) relS) (fun t => decide (t.host.rel.length = 1 ∧ t.host.pa.up = true)) = true := by decide +kernel

/-! ### Power, resets, boot, terraces, thermal action and SMBus -/
def offS : State := { r0 with pwr := { r0.pwr with on := false } }
def heldReset : State := { r0 with pwr := { r0.pwr with inReset := true } }
theorem witness_PowerAndResetClear : offS.pwr.on = false ∧ (4800 : Nat) ≤ 4800 ∧ (5400 : Nat) ≤ 5400 ∧ (4799 : Nat) < 4800 ∧ (5400 : Nat) < 5401
    ∧ r0.pwr.on = true ∧ (5800 : Nat) < 5801 ∧ (5800 : Nat) ≤ 5800 ∧ heldReset.pwr.inReset = true ∧ (true && false) = false := by decide +kernel
theorem test_powerOn : ok (exec (.powerOn 5400 70 true) offS) (fun t => decide (t.pwr.slotId = 6 ∧ t.pwr.on = true ∧ t.pwr.recovery = true)) = true
    ∧ ok (exec (.powerOn 5401 70 true) offS) (fun t => decide (t.pwr.on = false ∧ t.pwr.vin = 5401)) = true := by decide +kernel
theorem witness_ResetCauseIsKept : r0.pwr.on = true ∧ ok (exec (.moduleReset true) r0) (fun t => decide (t.pwr.cause = 3)) = true
    ∧ ok (exec (.powerOn 4800 0 false) offS) (fun t => decide (t.pwr.cause = 1)) = true
    ∧ ok (exec (.moduleResetRelease false true 0 false) { heldReset with pwr := { heldReset.pwr with cause := 2 } }) (fun t => decide (t.pwr.cause = 2)) = true := by
  decide +kernel
/-- Flash slots with security version numbers 5 (slot 0) and 6 (slot 1), version 6 fused. -/
def flashS : State := { r0 with sec := { r0.sec with slot := [(0, [0, 0, 0, 0, 5, 0, 0, 0]), (1, [0, 0, 0, 0, 6, 0, 0, 0])], svnFused := 6 } }
theorem witness_BootRunsGoodFirmware : flashS.pwr.on = true ∧ flashS.pwr.inReset = false ∧ flashS.pwr.trip = false ∧ flashS.pwr.stage = 0
    ∧ flashS.pwr.recovery = false ∧ flashS.sec.active = 0 ∧ leAt 4 4 (fwSlot flashS 0) < 6 ∧ leAt 4 4 (fwSlot flashS 1) = 6
    ∧ ({} : BootFinds).slotOk.getD 1 false = true ∧ flashS.sec.lims.filterMap id = [0, 0] ∧ (owned .a).pwr.stage ≠ 0 := by decide +kernel
theorem test_boot : ok (exec (.boot { trained := 0x7F, bistFail := [191] }) flashS) (fun t =>
      decide (t.pwr.stage = 9 ∧ t.pwr.bootSlot = 1 ∧ t.pwr.degraded = true ∧ t.sec.svnRun = 6) && (coreAt t 191).fenced) = true
    ∧ ok (exec (.boot { slotOk := [true, false] }) flashS) (fun t => decide (t.pwr.stage = 0xE ∧ t.pwr.ready = false)) = true := by decide +kernel
/-- A ready module whose port A states a tolerance. -/
def tolS (t : Nat) (c : Clk) : State :=
  { r0 with clk := c, pwr := { r0.pwr with stage := 9 }, host := { r0.host with pa := { up := true, tol := some t } } }
def shutting (n : Nat) : State := { r0 with pwr := { r0.pwr with stage := 9, target := n, busy := true }, dales := [(0, { imem := [(0, 1)] })] }
theorem witness_TerraceEntered : deepest (tolS 650000 { run := true }) = 1 ∧ t1Fop (tolS 650000 { run := true }) = some 7
    ∧ deepest (tolS 1000000 { wall := 100000 * wallUs }) = 2 ∧ deepest (tolS 3000000 { wall := 100000 * wallUs }) = 3
    ∧ (tolS 650000 {}).pwr.terrace = 0 ∧ (tolS 650000 {}).pwr.busy = false ∧ deepest (tolS 0 { run := true }) ≤ 0
    ∧ (shutting 3).pwr.target = 3 ∧ (shutting 3).pwr.exiting = false ∧ (shutting 3).pwr.exitPend = false ∧ (shutting 1).clk.fopPend = none := by
  decide +kernel
theorem test_terraceEntry : ok (exec .terraceEntry (tolS 650000 { run := true })) (fun t => decide (t.pwr.target = 1 ∧ t.clk.fopPend = some (7, 0) ∧ t.pwr.lat = 650000)) = true
    ∧ ok (exec .terraceShutdownDone (shutting 3)) (fun t => decide (t.pwr.terrace = 3 ∧ (daleAt t 0).imem = [])) = true := by decide +kernel
/-- In terrace n. -/
def terS (n : Nat) (c : Clk) : State := { tolS 0 c with pwr := { r0.pwr with stage := 9, terrace := n } }
theorem witness_TerraceLeft : (terS 2 {}).pwr.exiting = false ∧ toleranceBroken (terS 2 {}) = true ∧ (terS 2 {}).pwr.busy = false
    ∧ (terS 2 {}).pwr.startPend = false ∧ (shutting 2).pwr.busy = true ∧ 2 ≤ (shutting 2).pwr.target ∧ (terS 1 { run := true }).clk.run = true
    ∧ toleranceBroken (terS 1 { run := true, fop := 7, svcFop := some 0 }) = true ∧ (terS 0 {}).pwr.terrace = 0
    ∧ bar0Open (owned .a) 0x3020 = true ∧ mayWrite (owned .a) .a 0x3020 = true := by decide +kernel
theorem test_terraceExit : ok (exec (.terraceExit .tolerance) (terS 2 {})) (fun t => decide (t.pwr.terrace = 0)) = true
    ∧ ok (exec (.pwrWake .a) (terS 1 { run := true, fop := 7, svcFop := some 2 })) (fun t => decide (t.pwr.exiting = false)) = true
    ∧ ok (exec (.terraceExit .wake) (terS 1 { run := true, fop := 7, svcFop := some 2 })) (fun t => decide (t.clk.fopPend = some (2, 0) ∧ t.pwr.busy = true)) = true := by
  decide +kernel
theorem witness_ThermalAction : r0.pwr.on = true ∧ ([100, 99].any fun t => decide (100 ≤ t)) = true ∧ r0.pwr.throttled = false
    ∧ ({ r0.pwr with throttled := true }).throttled = true ∧ ([99, 94].any fun t => decide (100 ≤ t)) = false
    ∧ ([109, 110].any fun t => decide (110 ≤ t)) = true := by decide +kernel
theorem test_thermal : ok (exec (.thermalThrottle 99 20 [94, 95]) r0) (fun t => decide (t.pwr.throttled = true ∧ t.clk.fopPend = some (1, 4))) = true
    ∧ ok (exec (.thermalTrip 110 20 []) r0) (fun t => decide (t.pwr.trip = true ∧ t.clk.rail = [0, 0])) = true
    ∧ ok (exec (.thermalAlert 99 20 [94]) { r0 with pwr := { r0.pwr with throttled := true, throttleAt := 9 } }) (fun t => decide (t.pwr.throttled = false ∧ t.pwr.warm = true)) = true
    ∧ ok (exec (.thermalAlert 94 20 [89]) r0) (fun t => decide (t.pwr.warm = false ∧ t.pwr.temps = [94, 20])) = true := by decide +kernel
theorem witness_SmbusAnswers : (owned .a).pwr.on = true ∧ (owned .a).pwr.inReset = false ∧ (owned .a).pwr.stage ≠ 0 ∧ (owned .a).pwr.warm = false := by
  decide +kernel
theorem test_status : ok (exec .status { owned .a with pwr := { (owned .a).pwr with ready := true, alert := true } }) (fun t => decide (t.pwr.smb = [1, 9])) = true
    ∧ ok (exec .clearAlert { owned .a with pwr := { (owned .a).pwr with alert := true } }) (fun t => decide (t.pwr.alert = false)) = true := by decide +kernel

/-! ### Identity, attestation, audit chain, journal copies, observation -/
/-- One attestation waits for its signature; limit copies as given. -/
def sigS (next : Nat) (l : List (Option Nat)) : State := { owned .a with sec := { r0.sec with queue := [(1, [7])], next := next, lims := l } }
theorem witness_SignatureSpendsOneIndex : (sigS 5 [some 8, some 8]).sec.queue = [(1, [7])] ∧ (sigS 5 [some 8, some 8]).sec.dead = false
    ∧ (sigS 5 [some 8, some 8]).ctl.up.getD (sigS 5 [some 8, some 8]).ctl.leader false = true ∧ (1 : Nat) ≠ 2
    ∧ nextIndex (sigS 5 [none, some 8]).sec.lims = some 8 ∧ (sigS 5 [none, some 8]).sec.next < 8
    ∧ 8 ≤ (sigS 8 [some 4, some 8]).sec.next ∧ 8 + 4096 ≤ 2 ^ 40 - 4096
    ∧ nextIndex (sigS 0 [none, none]).sec.lims = none ∧ 2 ^ 40 - 4096 ≤ (sigS (2 ^ 40 - 4096) [some (2 ^ 40 - 4096), none]).sec.next := by decide +kernel
theorem test_signatureComplete : ok (exec .signatureComplete (sigS 8 [some 4, some 8])) (fun t =>
      decide (t.sec.next = 9 ∧ t.sec.lims = [some 4104, some 8] ∧ t.sec.queue = [])) = true
    ∧ ok (exec .signatureComplete (sigS 0 [none, none])) (fun t => decide (t.sec.dead = true ∧ t.sec.queue.length = 1)) = true
    ∧ gives (exec .epochRecord (sigS 5 [some 8, some 8])) (sigS 5 [some 8, some 8]) = true := by decide +kernel
theorem witness_RequestsWaitInOneQueue : ((sigS 5 []).sec.queue.all fun x => decide (x.1 = 1 ∨ x.1 = 2)) = true ∧ bar0Open (owned .a) 0x1020 = true
    ∧ mayWrite (owned .a) .a 0x1020 = true ∧ (owned .a).sec.dead = false ∧ (owned .a).sec.queue = [] ∧ bar0Open (sigS 5 []) 0x1020 = true
    ∧ mayWrite (sigS 5 []) .a 0x1020 = true ∧ (1, [7]) ∈ (sigS 5 []).sec.queue := by decide +kernel
theorem test_attest : ok (exec (.attest .a) (owned .a)) (fun t => decide (t.sec.queue.length = 1)) = true
    ∧ ok (exec (.attest .a) (sigS 5 [])) (fun t => bbit (regAt t 0x1024) 1 && decide (t.sec.queue.length = 1)) = true := by decide +kernel
/-- An image loaded; the smallest record of it. -/
def anImage : Loaded := ⟨[], 1, 192, 0, 0, 5000, 10, none, [], [], [], [], [], [], [], [], [], [], 0, [], []⟩
def tasked : State := { owned .a with task := { r0.task with img := some anImage, k := 1 } }
theorem witness_SnapshotAndCertificate : bar0Open tasked 0x1060 = true ∧ mayWrite tasked .a 0x1060 = true ∧ bar0Open tasked 0x1020 = true
    ∧ mayWrite tasked .a 0x1020 = true ∧ tasked.clk.run = false ∧ tasked.task.img.isSome = true ∧ tasked.sec.genesis = false
    ∧ (owned .a).task.img = none ∧ (intk {}).clk.run = true ∧ bar0Open (intk {}) 0x1060 = true ∧ mayWrite (intk {}) .a 0x1060 = true := by decide +kernel
theorem test_auditSnapshot : ok (exec (.auditSnapshot .a) (intk {})) (fun t => decide (t.sec = r0.sec)) = true
    ∧ gives (exec (.auditSnapshot .a) (owned .a)) (owned .a) = true := by decide +kernel
theorem witness_FusedVersionNeverFalls : r0.pending = [] ∧ Served (owned .a) .a 0x1020 := by unfold Served; decide +kernel
/-- Tick 9 runs; the journal holds the open entry of die 1 for slot 8, and the drained bank of port B one packet. -/
def jnlS : State := { owned .a with
  clk := { edgeClk with num := 9 }
  cmt := { r0.cmt with jnl := [⟨1, 8, {}, [], 0, [], false, false, false⟩] }
  host := { r0.host with owner := some .a, pb := { drainB := [[1, 2]], drainOvr := true } } }
/-- The JCTL value names die 1 and, where `dir` is 1, the copy to the module; AUD_JSLOT names slot n. -/
def jcopyS (dir n : Nat) (repro : Bool) : State :=
  setReg 0x1080 (2 + 4 * dir) (setReg 0x1078 n { jnlS with task := { r0.task with repro := repro } })
theorem witness_JournalTakesTheBatch : jnlS.clk.run = true ∧ 0 < jnlS.clk.num ∧ jnlS.cmt.jnl.any (fun e => decide (e.die = 1 ∧ e.slot = 9 - 1) && !e.full) = true
    ∧ jnlS.cmt.jnl.any (fun e => decide (e.die = 0 ∧ e.slot = 9 - 1) && !e.full) = false
    ∧ bar0Open (jcopyS 0 8 false) 0x1080 = true ∧ mayWrite (jcopyS 0 8 false) .a 0x1080 = true ∧ fieldAt (jcopyS 0 8 false) 0x1080 2 1 = 0
    ∧ (partAt (jcopyS 0 8 false) (fieldAt (jcopyS 0 8 false) 0x1080 1 1) (reg64 (jcopyS 0 8 false) 0x1078)).isSome = true
    ∧ partAt (jcopyS 0 7 false) 1 (reg64 (jcopyS 0 7 false) 0x1078) = none ∧ fieldAt (jcopyS 1 8 false) 0x1080 2 1 = 1
    ∧ (jcopyS 1 8 true).task.repro = true ∧ bar0Open (jcopyS 1 8 true) 0x1080 = true ∧ mayWrite (jcopyS 1 8 true) .a 0x1080 = true := by decide +kernel
theorem test_journalDrain : ok (exec (.journalDrain 1) jnlS) (fun t =>
      decide (t.cmt.jnl = [⟨1, 8, {}, [([1, 2], false)], 0, [], true, false, true⟩] ∧ t.host.pb.drainB = [] ∧ t.host.pb.lastBatch = 8)) = true := by decide +kernel
theorem test_journalCopy : ok (exec (.journalCopy .a []) (jcopyS 0 8 false)) (fun t => decide (t.out.length = 1) && bbit (regAt t 0x1080) 3) = true
    ∧ ok (exec (.journalCopy .a []) (jcopyS 0 7 false)) (fun t => bbit (regAt t 0x1080) 4) = true := by decide +kernel
/-- Tracing of dale 11 every 2 lc. -/
def trcS (lc ix stopBit : Nat) : State :=
  setReg 0x5020 (1 + 2 + 64 * stopBit + 2 ^ 7 * 2 ^ 11) { r0 with clk := { edgeClk with lc := lc, num := 3 }, trc := { r0.trc with idx := [0, ix] } }
theorem witness_PcSampleRecorded : (trcS 4 5 0).clk.run = true ∧ fieldAt (trcS 4 5 0) 0x5020 0 1 = 1 ∧ bbit (fieldAt (trcS 4 5 0) 0x5020 7 12) 11 = true
    ∧ (trcS 4 5 0).clk.lc % 2 ^ fieldAt (trcS 4 5 0) 0x5020 1 5 = 0 ∧ (trcS 5 5 0).clk.lc % 2 ^ fieldAt (trcS 5 5 0) 0x5020 1 5 = 1
    ∧ fieldAt (trcS 4 5 0) 0x5020 6 1 = 0 ∧ (trcS 4 5 0).trc.idx.length = 2 ∧ fieldAt (trcS 4 (2 ^ 25) 1) 0x5020 6 1 = 1
    ∧ 2 ^ 25 ≤ (trcS 4 (2 ^ 25) 1).trc.idx.getD (11 / 6) 0 ∧ (2 ^ 25 - 1 < 2 ^ 25) := by decide +kernel
theorem test_pcSample : ok (exec (.pcSample 11) (trcS 4 5 0)) (fun t => decide (t.trc.idx = [0, 6] ∧ (daleAt t 11).samples = 1)) = true
    ∧ gives (exec (.pcSample 11) (trcS 5 5 0)) (trcS 5 5 0) = true
    ∧ ok (exec (.pcSample 11) (trcS 4 (2 ^ 25) 1)) (fun t => bbit (regAt t 0x5024) 0 && decide (t.trc.idx = [0, 2 ^ 25])) = true := by decide +kernel
/-- Two visible records of die 1; TRC_RCTL names that many from record 0. -/
def copyS (n : Nat) : State :=
  setReg 0x5050 (2 + (n - 1) * 2 ^ 16) { owned .a with trc := { r0.trc with recs := [(2 ^ 25, 1), (2 ^ 25 + 1, 2)], idx := [0, 3], vis := [0, 2] } }
theorem witness_TraceAndCountersAnswer : bar0Open (copyS 2) 0x5050 = true ∧ mayWrite (copyS 2) .a 0x5050 = true
    ∧ reg64 (copyS 2) 0x5048 % 2 ^ 40 + (fieldAt (copyS 2) 0x5050 16 16 + 1) ≤ (copyS 2).trc.vis.getD (fieldAt (copyS 2) 0x5050 1 1) 0
    ∧ (copyS 2).trc.idx.getD 1 0 ≤ 0 + 2 ^ 25 ∧ (copyS 3).trc.vis.getD 1 0 < 0 + (fieldAt (copyS 3) 0x5050 16 16 + 1)
    ∧ bar0Open (intk {}) (corePage 191 + 0xC0) = true ∧ mayWrite (intk {}) .a (corePage 191 + 0xC0) = true ∧ 0 < (intk {}).clk.now
    ∧ Served (owned .a) .a (0x5100 + 4 * 31) ∧ (0x7FF : W32).toNat < 2 ^ 11 ∧ 2 ^ 11 ≤ (0x800 : W32).toNat := by unfold Served; decide +kernel
theorem test_traceCopy : ok (exec (.traceCopy .a) (copyS 2)) (fun t => decide (t.out.length = 1) && bbit (regAt t 0x5050) 2) = true
    ∧ ok (exec (.traceCopy .a) (copyS 3)) (fun t => bbit (regAt t 0x5050) 3) = true := by decide +kernel
theorem test_counters : ok (exec (.pcntGo .a 191) { intk {} with cores := [(191, { pc := { val := [(0, 9)], cseq := 0xFFFF } })] }) (fun t =>
      decide ((coreAt t 191).pc.fin = [(0, 9)] ∧ (coreAt t 191).pc.cseq = 0 ∧ (coreAt t 191).pc.val = [])) = true
    ∧ ok (exec (.gcntSelect .a 31 0xFFF) (owned .a)) (fun t => decide (regAt t 0x517C = 0x7FF ∧ fieldAt t 0x501C 0 32 = 1)) = true := by decide +kernel

/-! ### Commit zone, votes, verdicts, watershed -/
/-- Nominal period np of tick 7 of a task; the commit state as given. -/
def tickS (np : Nat) (c : Cmt) : State :=
  { tasked with clk := { edgeClk with npq := 4 * np, num := 7 }, cmt := c }
/-- The body has ended on core 5, with its band ledger and flag 3 not 0. -/
def zoneS : State := { tickS 371000 { ran := true } with
  clk := { (tickS 371000 {}).clk with bodyEnd := some 900000 }
  cores := [(5, { mode := .broadcast, lidx := 0, k := 1, vx := { band := 1 }, obj := [(3, 1)], ch := { ep := [(0, { st := 3 })] } })] }
def overS (again : Bool) : State := { tickS 371000 { ran := true } with clk := { (tickS 371000 {}).clk with overrun := again }, dales := [(0, { st := 1 })] }
theorem witness_CommitZoneChecks : (overS false).task.img.isSome = true ∧ zoneS.clk.run = true ∧ zoneS.clk.zone = false ∧ slotN zoneS 0 - slotZ zoneS ≤ npNow zoneS ∧ zoneS.cmt.voted = false
    ∧ zoneS.cmt.ran = true ∧ zoneS.cmt.zoned = false ∧ zoneS.clk.bodyEnd.isSome = true ∧ holdsIndex (coreAt zoneS 5) = true
    ∧ (coreAt zoneS 5).mode = .broadcast ∧ (coreAt zoneS 5).vx.band ≠ 0
    ∧ ((List.range 16).all fun n => decide ((ctxAt (coreAt zoneS 5) n).state = 0)) = true ∧ objEnd (coreAt zoneS 5) 3 ≠ 0
    ∧ (tickS 371000 {}).cmt.ran = false ∧ slotN (tickS 371000 {}) 0 - slotZ (tickS 371000 {}) = 371000
    ∧ (overS false).clk.bodyEnd = none ∧ imemStopped (overS false) = false ∧ bbit (overS false).cmt.src 13 = false ∧ (overS false).clk.overrun = false
    ∧ (overS true).clk.overrun = true := by decide +kernel
theorem test_commitZoneOpen : ok (exec (.commitZoneOpen []) zoneS) (fun t => decide ((0x0E, 5) ∈ t.cmt.faults ∧ (0x1A, 5) ∈ t.cmt.faults) && bbit t.cmt.src 8 && bbit t.cmt.src 12
      && decide ((coreAt t 5).ch.ep.all (fun x => decide (x.2.st = 0)) = true)) = true
    ∧ ok (exec (.commitZoneOpen []) (overS false)) (fun t => bbit t.cmt.src 13 && t.clk.overrun && !t.clk.zone) = true
    ∧ ok (exec (.commitZoneOpen []) (overS true)) (fun t => bbit t.cmt.src 14 && decide ((daleAt t 0).st = 3)) = true := by decide +kernel
/-- The root of three modules; its own vote and one child's as given. -/
def rootS (np : Nat) (c : Cmt) : State := setReg 0x4024 (4 + 3 * 128) (tickS np c)
def v0 : Vote := ⟨0, 7, 0, false, 0, false, false, false, 1, 0⟩
def v1 : Vote := ⟨1, 7, 8, false, 0, false, false, false, 2, 0⟩
def v2 : Vote := ⟨2, 7, 0, false, 0, false, false, false, 1, 0⟩
def leafS (c : Cmt) : State := { rootS 374000 c with task := { tasked.task with modIdx := 2 } }
theorem witness_VotesAndVerdicts : combined (rootS 371600 { own := some v0, votes := [v1] }) = some { v0 with src := 8, run := 2 }
    ∧ votes (zoneS) = true ∧ slotN zoneS 0 - slotZ zoneS + 512 ≤ npNow (rootS 371512 {})
    ∧ ({ (rootS 371512 {}).clk with zone := true }).zone = true ∧ votes (rootS 371512 {}) = true ∧ (rootS 371512 {}).cmt.voted = false
    ∧ ({ voted := true } : Cmt).voted = true ∧ v1.child ∈ childrenOf (rootS 371512 {}) ∧ v1.slot = (rootS 371512 {}).clk.num
    ∧ (rootS 371512 {}).cmt.votes = [] ∧ (3 ∉ childrenOf (rootS 371512 {}))
    ∧ (rootS 371512 {}).task.modIdx = 0 ∧ decidedSlot (rootS 374000 {}) = false ∧ missingKids (rootS 374000 { votes := [v1] }) = [2]
    ∧ slotN (rootS 374000 {}) 0 - slotZ (rootS 374000 {}) + fieldAt (rootS 374000 {}) 0x4028 0 16 ≤ npNow (rootS 374000 {})
    ∧ missingKids (rootS 374000 { own := some v0, votes := [v1, v2] }) = [] ∧ combined (rootS 374000 { own := some v0, votes := [v1, v2] }) ≠ none
    ∧ voteOk v1 false (rootS 371512 {}) = true ∧ voteOk v0 true (leafS {}) = true ∧ (leafS {}).task.modIdx ≠ 0 ∧ v0.slot = (leafS {}).clk.num ∧ decidedSlot (leafS {}) = false ∧ npNow (leafS {}) + 32 < slotN (leafS {}) 0
    ∧ votes (leafS { inDoubt := true, doubtSlot := 6 }) = true ∧ ({ v0 with slot := 6 } : Vote).slot ≠ (leafS {}).clk.num
    ∧ decidedSlot (rootS 374000 { verdict := some v0 }) = true := by decide +kernel
/-- One vote for each row of R375's table. -/
theorem witness_VerdictRules :
    let at_ := fun (x : RuleCtx) (n run : Nat) => let d := ruleOf x { v0 with src := BitVec.ofNat 16 n, run := run }
      (d.kind, d.counted, d.correct, d.escal)
    let x : RuleCtx := ⟨false, false, false⟩
    at_ x 0 1 = (0, false, false, false) ∧ at_ x 0x2000 1 = (2, false, false, false) ∧ at_ x 0x6000 3 = (1, true, false, false)
    ∧ at_ x 0x1001 3 = (1, true, false, false) ∧ at_ x 0x1001 4 = (3, false, false, true) ∧ at_ x 0x200 1 = (1, false, true, false)
    ∧ at_ x 0x1000 1 = (3, false, false, false) ∧ at_ x 0x800 1 = (1, false, false, false)
    ∧ (at_ ⟨true, false, false⟩ 0 1).1 = 3 ∧ (at_ ⟨true, false, true⟩ 0 1).1 = 1 ∧ (at_ ⟨false, true, false⟩ 0 1).1 = 3 := by decide +kernel
theorem test_votes : ok (exec .voteSend { rootS 371512 {} with clk := { (rootS 371512 {}).clk with zone := true } }) (fun t => t.cmt.voted) = true
    ∧ ok (exec (.voteArrival v1) (rootS 371600 {})) (fun t => decide (t.cmt.votes = [v1])) = true
    ∧ ok (exec .voteCutoff (rootS 374000 { votes := [v1] })) (fun t => decide (t.cmt.missNow = [2] ∧ regAt t 0x4034 = 2 + 2 ^ 16)) = true
    ∧ ok (exec .verdictDecide (rootS 374000 { own := some v0, votes := [v1, v2] })) (fun t => decide (t.cmt.verdict = some { v0 with src := 8, run := 2, kind := 1, counted := true })) = true
    ∧ ok (exec (.verdictArrival v0) (leafS {})) (fun t => decide (t.cmt.verdict = some v0)) = true := by decide +kernel
/-- The last 32 nominal periods, a verdict of kind k held. -/
def shedS (k : Nat) (ran : Bool) : State := { tickS 374968 { ran := ran, verdict := some { v0 with kind := k, counted := decide (k = 1), src := if k = 3 then 0x1000 else 0 }, batch := 2 ^ 48 - 1, run := 1 } with
  host := { r0.host with egr := [⟨0, 0, [1]⟩] } }
theorem witness_CommitMakesTheTickFinal : (shedS 0 true).cmt.verdict = some v0 ∧ votes (shedS 0 true) = true
    ∧ slotN (shedS 0 true) 0 = npNow (shedS 0 true) + 32 ∧ (shedS 0 true).cmt.ran = true ∧ (shedS 0 true).host.pa.up = false
    ∧ npNow (tickS 374967 {}) + 32 < slotN (tickS 374967 {}) 0 := by decide +kernel
theorem test_watershedCommit : ok (exec .watershedCommit (shedS 0 true)) (fun t => decide (t.cmt.nextBatch = 0 ∧ t.cmt.committed = true ∧ t.host.egr = [] ∧ t.sec.elinks = 1)) = true
    ∧ gives (exec .watershedCommit (shedS 1 true)) (shedS 1 true) = true ∧ gives (exec .watershedDiscard (shedS 0 true)) (shedS 0 true) = true := by
  decide +kernel
theorem witness_DiscardDropsTheRun : (shedS 1 true).cmt.inDoubt = false ∧ (shedS 1 true).cmt.st ≠ 1 ∧ (shedS 3 true).cmt.st ≠ 2
    ∧ (shedS 3 true).cmt.verdict.any programHold = true ∧ votes (shedS 2 true) = true ∧ slotN (shedS 2 true) 0 ≤ npNow (shedS 2 true) + 32 := by
  decide +kernel
theorem test_watershedDiscard : ok (exec .watershedDiscard (shedS 1 true)) (fun t => decide (t.cmt.run = 2 ∧ t.host.egr = []) && bbit (regAt t 0x4010) 0) = true
    ∧ ok (exec .watershedDiscard (shedS 3 true)) (fun t => decide (t.cmt.st = 2 ∧ t.host.egr = [])) = true
    ∧ ok (exec .watershedDiscard (shedS 2 true)) (fun t => decide (t.cmt.persist = true ∧ t.host.egr ≠ [])) = true := by decide +kernel
/-- No verdict at N - 32; then the resent verdict of slot 6 beside this slot's own. -/
def doubtS : State := tickS 374968 { ran := true }
def settleS : State := tickS 374968 { verdict := some { v0 with kind := 1 }, inDoubt := true, doubtSlot := 6, doubtV := some { v0 with slot := 6 } }
def heldS (st : Nat) : State := { tickS 1000 { st := st } with task := { tasked.task with src := some { bytes := [] } } }
theorem witness_InDoubtModuleSettles : votes doubtS = true ∧ slotN doubtS 0 ≤ npNow doubtS + 32 ∧ decidedSlot doubtS = false ∧ doubtS.cmt.inDoubt = false
    ∧ doubtS.cmt.ran = true ∧ votes settleS = true ∧ settleS.cmt.ran = false ∧ settleS.cmt.inDoubt = true ∧ settleS.cmt.st = 0
    ∧ slotN settleS 0 ≤ npNow settleS + 32 ∧ bar0Open (heldS 1) 0x4020 = true ∧ mayWrite (heldS 1) .a 0x4020 = true
    ∧ (heldS 1).task.modIdx = 0 ∧ (heldS 3).cmt.st = 3 ∧ (heldS 0).cmt.st ≠ 1 ∧ (heldS 0).cmt.st ≠ 3 ∧ (heldS 1).task.src.isSome = true
    ∧ (heldS 1).task.img.isSome = true := by decide +kernel
theorem test_inDoubt : ok (exec .inDoubt doubtS) (fun t => decide (t.cmt.inDoubt = true ∧ t.cmt.doubtSlot = 7) && bbit (regAt t 0x4010) 3) = true
    ∧ ok (exec .watershedDiscard settleS) (fun t => decide (t.cmt.inDoubt = false ∧ t.cmt.committed = true ∧ t.sec.hslot = 6)) = true
    ∧ ok (exec (.domainResume .a) (heldS 1)) (fun t => t.cmt.resume) = true
    ∧ ok (exec (.coreFenceReload 9) (heldS 1)) (fun t => (coreAt t 9).fenced && t.pwr.lost) = true := by decide +kernel

/-! ### Dales, unit queues, holds -/
/-- An instruction with no waits and no signals: unit, opcode and other fields of word 0. -/
def insn (u op : Nat) (extra : Nat := 0) : Ins := ⟨BitVec.ofNat 256 (u + op * 16 + 63 * 2 ^ 16 + 63 * 2 ^ 30 + 63 * 2 ^ 44 + 63 * 2 ^ 62 + extra), 0, 0⟩
/-- A running tick at lc 1,000 of the tick with dale 1 issuing from its word 0; its core 16 is in broadcast mode with FE queue q. -/
def daleS (x : Dale) (q : List Ins) : State :=
  { tickS 1000 { ran := true } with
    clk := { (tickS 1000 {}).clk with lc := 1000 }
    dales := [(1, { x with st := 1, words := 8 })]
    cores := [(16, { mode := .broadcast, lidx := 0, k := 1, q := [(1, q)] })] }
/-- The dale's program is instruction i. -/
def prog (i : Ins) : Dale := { imem := [(0, i.w0)] }
/-- A group of one FE instruction, issued 20 lc ago. -/
def flown : Dale := { flight := [⟨1000000 - 20, [insn 1 0x05]⟩] }
theorem witness_IssueAndBroadcast : canIssue (daleS (prog (insn 1 0x05)) []) (daleAt (daleS (prog (insn 1 0x05)) []) 1) = true
    ∧ insAt (daleAt (daleS (prog (insn 1 0x05)) []) 1) 0 = insn 1 0x05 ∧ iUnit (insn 1 0x05) = 1 ∧ insWords (insn 1 0x05) = 1
    ∧ wordsNow (daleS { prog (insn 1 0x05) with cntLc := 1000000, cnt := 3 } []) { prog (insn 1 0x05) with cntLc := 1000000, cnt := 3 } + 1 ≤ 4
    ∧ unitTaken 1000000 1 (prog (insn 1 0x05)).flight = false ∧ wordsHere (prog (insn 1 0x05)) 1 = true
    ∧ wordsHere { prog (insn 1 0x05) with stream := true } 1 = false
    ∧ (daleAt (daleS flown []) 1).flight = [⟨1000000 - 20, [insn 1 0x05]⟩] ∧ (1000000 - 20) + 20 ≤ (daleS flown []).clk.now
    ∧ (daleS flown []).clk.now < (1000000 - 19) + 20 ∧ (coreAt (daleS flown []) 16).mode = .broadcast
    ∧ lenBefore (coreAt (daleS flown (List.replicate 31 (insn 1 5))) 16) 1000000 1 < 32 ∧ 32 ≤ lenBefore (coreAt (daleS flown (List.replicate 32 (insn 1 5))) 16) 1000000 1
    ∧ colsOpen (daleS flown []) = true ∧ (coreAt (daleS flown []) 16).rst = none
    ∧ (daleS flown []).task.img.isSome = true ∧ ({ stream := true, words := 8, filled := 7 } : Dale).filled < 8 := by decide +kernel
theorem test_instructionIssue : ok (exec (.instructionIssue 1 []) (daleS (prog (insn 1 0x05)) [])) (fun t =>
      decide ((daleAt t 1).flight = [⟨1000000, [insn 1 0x05]⟩] ∧ (daleAt t 1).pc = 1)) = true
    ∧ ok (exec (.instructionIssue 1 []) (daleS { prog (insn 1 0x05) with stream := true } [])) (fun t => decide ((daleAt t 1).stopped = 1 ∧ (0x01, 16) ∈ t.cmt.faults)) = true := by
  decide +kernel
theorem test_queueEntry : ok (exec (.queueEntry 1) (daleS flown [])) (fun t => decide (unitQ (coreAt t 16) 1 = [insn 1 0x05])) = true
    ∧ ok (exec (.queueEntry 1) (daleS flown (List.replicate 32 (insn 1 5)))) (fun t => decide ((unitQ (coreAt t 16) 1).length = 32 ∧ (0x02, 16) ∈ t.cmt.faults)) = true
    ∧ ok (exec (.instructionRefillBeat 1 []) { daleS { stream := true, filled := 2 } [] with task := { tasked.task with img := some { anImage with streams := [[], [5, 6, 7]] } } })
        (fun t => decide ((daleAt t 1).filled = 3 ∧ imemAt (daleAt t 1) 2 = 7)) = true := by decide +kernel
/-- The dale at SQ opcode op with COUNT0 5 and offset 3. -/
def sqS (op : Nat) : State := daleS (prog (insn 0 op (5 * 2 ^ 80 + 3 * 2 ^ 104))) []
theorem witness_SequencerInstructions : canIssue (sqS 0) (daleAt (sqS 0) 1) = true ∧ wordsHere (daleAt (sqS 0) 1) 1 = true ∧ insWords (insAt (daleAt (sqS 0) 1) 0) = 1
    ∧ ([0, 1, 2, 3].all fun op => decide (iUnit (insAt (daleAt (sqS op) 1) 0) = 0 ∧ iOp (insAt (daleAt (sqS op) 1) 0) = op)) = true
    ∧ (daleAt (sqS 0) 1).reps = [] ∧ wordsNow (sqS 0) (daleAt (sqS 0) 1) + insWords (insAt (daleAt (sqS 0) 1) 0) ≤ 4 ∧ (sqS 0).cmt.voted = false
    ∧ canIssue r0 (daleAt r0 1) = false ∧ iUnit (insAt (daleAt (daleS (prog (insn 1 0)) []) 1) 0) ≠ 0 := by decide +kernel
theorem test_sequencer : ok (exec (.sqnop 1 []) (sqS 0)) (fun t => decide ((daleAt t 1).next = 1000007)) = true
    ∧ ok (exec (.sqrep 1 []) (sqS 1)) (fun t => decide ((daleAt t 1).reps = [⟨1, 4, 5⟩])) = true
    ∧ ok (exec (.sqhold 1 []) (sqS 2)) (fun t => decide ((daleAt t 1).hold = some (3, 1000000) ∧ (daleAt t 1).st = 2)) = true
    ∧ ok (exec (.sqend 1 []) (sqS 3)) (fun t => decide ((daleAt t 1).st = 3)) = true := by decide +kernel
/-- Hold 0 of dale 1, condition c; the dale stands at it from lc 999,990 on; its release lc as given. -/
def holdS (c : Nat) (r : List HoldRt) : State :=
  { daleS {} [] with
    task := { tasked.task with img := some { anImage with holds := [⟨2, c, 3, 9999⟩] } }
    dales := [(1, { st := 2, hold := some (0, 999990) })], holds := r }
theorem witness_HoldsReleaseTogether : holdAt (holdS 0 []) 0 = some ⟨2, 0, 3, 9999⟩ ∧ (holdS 0 []).holds.find? (fun r => decide (r.id = 0)) = none
    ∧ holdMet (holdS 0 []) ⟨2, 0, 3, 9999⟩ = true ∧ bbit 2 1 = true ∧ (daleAt (holdS 0 []) 1).hold = some (0, 999990) ∧ 999990 ≤ (holdS 0 []).clk.now
    ∧ holdMet (holdS 3 []) ⟨2, 3, 3 + 64, 9999⟩ = false ∧ (daleAt (daleS {} []) 1).hold = none
    ∧ (holdS 0 [⟨0, 999999⟩]).holds.find? (fun r => decide (r.id = 0)) = some ⟨0, 999999⟩ ∧ 999999 < (holdS 0 []).clk.now
    ∧ (holdS 0 []).clk.now ≤ 1000000 := by decide +kernel
theorem test_holdRelease : ok (exec (.holdRelease 0) (holdS 0 [])) (fun t => decide (t.holds = [⟨0, 1000022⟩])) = true
    ∧ ok (exec (.holdRelease 0) (holdS 0 [⟨0, 999999⟩])) (fun t => decide ((daleAt t 1).st = 1 ∧ (daleAt t 1).next = 1000000 ∧ (daleAt t 1).seg = 1000 ∧ t.holds = [])) = true
    ∧ gives (exec (.holdRelease 0) (holdS 0 [⟨0, 1000000⟩])) (holdS 0 [⟨0, 1000000⟩]) = true := by decide +kernel

/-! ### Unit instructions: start, fetch engine -/
/-- Handle 1: 16 plain rows from row 4 of bank 0. -/
def hword : W64 := BitVec.ofNat 64 (4 + 4 * 2 ^ 10 + 15 * 2 ^ 20 + 2 ^ 45)
/-- An image with one stream (credit flag F5), an HBM region, a host-window region and one channel of every class. -/
def unitImage : Loaded := { anImage with
  slot := 2
  strms := [⟨0, 0, 0, 0, 5, 1⟩]
  regions := [⟨0, 0, 1, .a, 65536, 0, 0, 0⟩, ⟨3, 0, 0, .a, 65536, 0, 0, 0⟩]
  chans := [⟨0, 0, 15, 8, 0, 0, false, 0, 0, 0, 0, 2, 0⟩]
  beats := [[⟨0, 10001, 0, 0, 0, 16⟩], []] }
/-- A core in broadcast mode with handle 1, context 0 armed, endpoint 2 open, F5 at 3. -/
def unitCore : Core :=
  { mode := .broadcast, lidx := 0, k := 1, obj := [(5, 3)]
    fe := { ctx := [(0, { state := 1, decl := 0 })] }
    bsn := { hnd := [(1, hword)], hndC := [(1, ~~~hword)], mem := [(514, 7)] }
    ch := { ep := [(2, { st := 3, decl := 0, credits := 5 })] } }
/-- Lc 10,001 of a tick; core 16 is `c` with instruction i at the head of its queue. -/
def unitS (c : Core) (i : Ins) : State :=
  { tickS 10000 { ran := true } with
    clk := { (tickS 10000 {}).clk with lc := 10001 }
    task := { tasked.task with img := some unitImage }
    dales := [(1, { st := 1 })]
    cores := [(16, { c with q := [(iUnit i, [i])] })] }
/-- Operand j with kind, selector and offset. -/
def opnd (j kind sel off : Nat) : Nat := (kind + sel * 4 + off * 256) * 2 ^ (96 + 40 * j)
/-- Instruction i at work on its step in this lc; a planned one with beat b. -/
def wk (i : Ins) (b : List (Option Beat) := []) : Work := { ins := i, s0 := 1000000, due := 1000000, beats := b.map fun x => (1000000, x) }
/-- Core 16 works on w and nothing else. -/
def atWork (c : Core) (w : Work) : State := { unitS c w.ins with cores := [(16, { c with job := { work := [w] } })] }
theorem witness_UnitInstructionStarts :
    ([(1, 0x03), (1, 0x04), (1, 0x05), (1, 0x08), (1, 0x09), (1, 0x0A), (2, 0x01), (2, 0x03), (3, 0x02), (3, 0x03), (3, 0x04), (3, 0x05), (4, 0x01),
      (4, 0x02), (4, 0x03), (4, 0x06), (4, 0x07), (4, 0x08), (4, 0x09), (4, 0x0A), (4, 0x0B), (4, 0x0C), (4, 0x0D), (4, 0x0E), (4, 0x0F), (4, 0x10),
      (4, 0x11), (5, 0x01), (5, 0x02), (5, 0x03), (5, 0x04), (5, 0x05), (5, 0x06), (5, 0x07), (5, 0x10), (5, 0x11), (5, 0x12), (5, 0x13)].all
      fun x => decide (startable (unitS unitCore (insn x.1 x.2)) 16 x.1 x.2 = some (insn x.1 x.2))) = true
    ∧ startable (unitS { unitCore with busy := [(1, 1000002)] } (insn 1 3)) 16 1 3 = none
    ∧ participates (unitS unitCore (insn 4 6)) 16 (insn 4 6) = true ∧ participates (unitS unitCore (insn 4 6 (2 * 2 ^ 14))) 16 (insn 4 6 (2 * 2 ^ 14)) = false := by
  decide +kernel
theorem witness_UnitInstructionStarts_steps :
    let w := wk (insn 1 4)
    let s := atWork unitCore w
    let c := coreAt (unitStep 16 w (clearMarks 16 s)).2 16
    (coreAt s 16).job.work = [w] ∧ lateNow s 16 = [] ∧ 1 ≤ iUnit w.ins ∧ iUnit w.ins ≤ 5 ∧ w.due ≤ s.clk.now ∧ w.ended = false
    ∧ ctxHalted (coreAt s 16) w = false ∧ c.job.wait = false ∧ c.job.halt = none ∧ c.job.work = [w] ∧ c.job.late = []
    ∧ s.clk.now < ({ w with due := 1000001 }).due ∧ ({ w with k := 1 }).ended = true := by decide +kernel
theorem test_start : ok (exec (.ferearm 16) (unitS unitCore (insn 1 0x04 (3 * 2 ^ 104)))) (fun t =>
      decide ((coreAt t 16).job.work.map (fun w => (w.due, w.k)) = [(1000000, 0)] ∧ unitQ (coreAt t 16) 1 = [] ∧ (coreAt t 16).issue = 1)) = true
    ∧ gives (exec (.ferearm 16) (unitS { unitCore with busy := [(1, 1000002)] } (insn 1 4))) (unitS { unitCore with busy := [(1, 1000002)] } (insn 1 4)) = true
    ∧ (coreAt (coreWork 16 (atWork unitCore (wk (insn 1 0x04 (3 * 2 ^ 104))))) 16).job.work = [] := by
  decide +kernel
/-- FEFABRD on endpoint 2 of 2 rows; FEFABWR of handle 1's row 0 to it; FEOVRD of one row of the window to handle 1. -/
def rdI : Ins := insn 1 0x08 (opnd 0 3 0 2 + opnd 1 1 1 0 + 16 * 2 ^ 245)
def wrI : Ins := insn 1 0x09 (opnd 0 1 1 0 + opnd 1 3 0 2)
def ovI : Ins := insn 1 0x0A (opnd 0 2 1 0 + opnd 1 1 1 0)
/-- Fabric tags all held. -/
def noTags : Core := { unitCore with fe := { unitCore.fe with ftags := (List.range 384).map fun t => (t, ⟨1, 64, 0, 0, none⟩) } }
def mapped (i : Ins) : State := { unitS unitCore i with host := { r0.host with owner := some .a, pa := { xlat := [(0, BitVec.ofNat 64 (5 * 2 ^ 21 + 3))] } } }
theorem witness_ContextsAndElasticRequests : iSteps (insn 1 3) = 1 ∧ strmAt (unitS unitCore (insn 1 3)) 0 = some ⟨0, 0, 0, 0, 5, 1⟩
    ∧ startable (unitS unitCore (insn 1 3)) 16 1 3 = some (insn 1 3) ∧ startable (unitS unitCore (insn 1 5)) 16 1 5 = some (insn 1 5)
    ∧ immOf (unitS unitCore (insn 1 3)) 16 (insn 1 3) 2 0 = 0 ∧ (ctxAt unitCore 0).state ≠ 0
    ∧ tooEarlyAt (unitS unitCore rdI) 16 1000000 = false ∧ tooEarlyAt (unitS unitCore rdI) 16 998190 = true
    ∧ (offsetOf (unitS unitCore rdI) 16 rdI 0 0).toNat = 2 ∧ (basinOperand (unitS unitCore rdI) 16 rdI 0 false).1 = 1
    ∧ sendUse (unitS unitCore rdI) 16 2 1 false = .ok ⟨0, 0, 15, 8, 0, 0, false, 0, 0, 0, 0, 2, 0⟩ ∧ freeTag unitCore.fe.ftags 384 = some 0
    ∧ elasticDest 16 1 0 256 (unitS unitCore rdI) = none
    ∧ hasBuffered unitCore 2 = false ∧ freeTag noTags.fe.ftags 384 = none
    ∧ (offsetOf (unitS unitCore wrI) 16 wrI 1 0).toNat = 2 ∧ sendUse (unitS unitCore wrI) 16 2 0 false = .ok ⟨0, 0, 15, 8, 0, 0, false, 0, 0, 0, 0, 2, 0⟩
    ∧ 3 ≤ (epAt unitCore 2).credits ∧ iUmod wrI / 512 % 4 = 0
    ∧ basinOperand (mapped ovI) 16 ovI 0 false = (1, 0)
    ∧ (memOperand (mapped ovI) 16 ovI 0 false 128).map (fun x => (x.1, x.2.2)) = some (1, 0) ∧ elasticDest 16 1 0 128 (mapped ovI) = none
    ∧ freeTag unitCore.fe.mtags 256 = some 0 ∧ bbit (xlatUse [] (mapped ovI) .a 0).toNat 0 = true ∧ (mapped ovI).host.copy = [] ∧ dmaHeld (mapped ovI) .a = 0
    ∧ bbit (xlatUse [] (unitS unitCore ovI) .a 0).toNat 0 = false ∧ (unitS unitCore ovI).cmt.voted = false := by decide +kernel
theorem test_contexts : ok (exec (.fearm 16) (unitS { unitCore with fe := {} } (insn 1 3 (opnd 0 2 0 4 + opnd 1 1 0 9)))) (fun t =>
      decide (ctxAt (coreAt t 16) 0 = { state := 1, decl := 0, baseA := 4, baseB := 9, thr := 8 } ∧ (coreAt t 16).sigs.length = 1)) = true
    ∧ ok (exec (.feclose 16) (unitS unitCore (insn 1 5))) (fun t => decide ((ctxAt (coreAt t 16) 0).state = 0 ∧ (coreAt t 16).takes = [(5, 1)])) = true
    ∧ (ctxAt (coreAt (feStep 16 (wk (insn 1 0x04 (3 * 2 ^ 104))) (atWork unitCore (wk (insn 1 4)))) 16) 0).baseA = 3 := by
  decide +kernel
theorem test_fabricRequests :
    let t := feStep 16 (wk rdI) (atWork unitCore (wk rdI))
    let u := feStep 16 (wk wrI) (atWork unitCore (wk wrI))
    (mget ⟨0, 64, 0, 0, none⟩ (coreAt t 16).fe.ftags 0).rows = 2 ∧ (epAt (coreAt t 16) 2).credits = 5
    ∧ (epAt (coreAt u 16) 2).credits = 2 ∧ (epAt (coreAt u 16) 2).fseq = 3 ∧ (0x17, 16) ∈ (feStep 16 (wk rdI) (atWork noTags (wk rdI))).cmt.faults := by
  decide +kernel
theorem witness_ContextsAndElasticRequests_dma : dmaHeld (mapped ovI) .a + (hostReads .a [(5 * 2 ^ 21, 128)] 16 0).length ≤ 4096 := by
  have h := Nat.mod_lt (Config.readSize (portIdx .a)) (by decide : 0 < 6)
  unfold hostReads readMax
  generalize Config.readSize (portIdx .a) % 6 = n at h ⊢
  revert n
  decide +kernel
theorem test_feovrd : cutSpan 128 4000 200 = [(4000, 96), (4096, 104)]
    ∧ bbit (feStep 16 (wk ovI) (unitS unitCore ovI)).cmt.src 7 = true := by decide +kernel
/-- FELOAD, FESTORE, FEOVWR, FEBATCH and FEEGR of one row. -/
def plI (op region : Nat) : Ins := insn 1 op (opnd 0 2 region 0 + opnd 1 1 1 0)
def beat0 : Beat := ⟨0, 10001, 0, 0, 0, 16⟩
/-- No credit: F5 is 0; the egress record 0 is under way. -/
def broke : Core := { unitCore with obj := [] }
def egrS : State := { unitS unitCore (plI 0x0D 0) with host := { r0.host with egr := [⟨0, 0, [1]⟩] } }
theorem witness_PlannedRowsMove : ([(0x01, 0), (0x02, 0), (0x0B, 1), (0x0C, 0), (0x0D, 0)].all fun x =>
      let i := plI x.1 x.2
      decide (startable (unitS unitCore i) 16 1 x.1 = some i ∧ stepBeats (unitS unitCore i) 16 0 i = [some beat0]
        ∧ creditsOf unitCore 5 ≠ 0 ∧ creditsOf broke 5 = 0 ∧ (wk i [some beat0]).part = true)
      && laneFits (unitS unitCore i) 16 i 0 beat0) = true
    ∧ laneFits (unitS unitCore (plI 1 0)) 16 (plI 1 0) 0 ⟨0, 10001, 1, 1, 1, 16⟩ = false
    ∧ (planTiming 16 0 (plI 1 0) (unitS unitCore (plI 1 0))).b 0 = 1000000 ∧ ((wk (plI 1 0) [none]).beats.head?).bind (·.2) = none
    ∧ ((wk (plI 1 0) [some beat0]).beats.head?).bind (·.2) = some beat0
    ∧ (memOperand (unitS unitCore (plI 1 0)) 16 (plI 1 0) 0 true 128).map (fun x => (x.1, x.2.2)) = some (0, 0)
    ∧ basinOperand (unitS unitCore (plI 1 0)) 16 (plI 1 0) 0 true = (1, 0) ∧ r0.hbm.blank = []
    ∧ (hndUse [] 16 1 0 128 (unitS unitCore (plI 1 0)) = .ok (hndOf hword)) ∧ isDepositSlot (unitS unitCore (plI 2 0)) 10001 0 = false
    ∧ bbit (xlatUse [] (mapped (plI 0x0B 1)) .a 0).toNat 1 = true ∧ immOf egrS 16 (plI 0x0D 0) 2 0 % 65536 = 0 := by decide +kernel
theorem test_feload :
    let t := feStep 16 (wk (plI 1 0) [some beat0]) { atWork unitCore (wk (plI 1 0) [some beat0]) with hbm := { r0.hbm with mem := [(3, 9)] } }
    (coreAt t 16).takes = [(5, 1)] ∧ (coreAt t 16).job.late.length = 1
    ∧ rdMem (coreAt ((coreAt t 16).job.late.foldl (lateDep 16) t) 16).bsn.mem 515 1 = [9]
    ∧ (0x13, 16) ∈ (feStep 16 (wk (plI 1 0) [none]) (atWork unitCore (wk (plI 1 0) [none]))).cmt.faults := by decide +kernel
theorem test_festore :
    let w := wk (plI 2 0) [some beat0]
    (feStep 16 w (atWork unitCore w)).hbm.mem = [(2, 7)] ∧ (0x15, 16) ∈ (feStep 16 w (atWork broke w)).cmt.faults
    ∧ (feStep 16 w (atWork broke w)).hbm.mem = [] := by decide +kernel
theorem test_staging :
    let w := fun (op region : Nat) => wk (plI op region) [some beat0]
    (feStep 16 (w 0x0B 1) { mapped (plI 0x0B 1) with cores := (atWork unitCore (w 0x0B 1)).cores }).host.ovw.map (fun o => o.bus) = [5 * 2 ^ 21]
    ∧ (feStep 16 (w 0x0D 0) (atWork unitCore (w 0x0D 0))).host.egr.length = 1
    ∧ (coreAt (feStep 16 (w 0x0C 0) (atWork unitCore (w 0x0C 0))) 16).takes = [(5, 1)]
    ∧ ok (exec (.feegr 16 []) egrS) (fun t => decide ((0x05, 16) ∈ t.cmt.faults)) = true := by decide +kernel

/-! ### Matrix side, post unit, vector engine -/
/-- A core with a BF16 tile active (format 2), a warm array, a result row in flight and one in the FIFO. -/
def mxCore : Core :=
  { unitCore with
    mx := { act := { fmt := some 2 }, up := some 5, lastE := some 999936, fly := [⟨1000000, false, [(0, 0, [[0]])]⟩] }
    pu := { fifo := [⟨999990, false, [(3, 0, [[0x3F800000]])]⟩] } }
/-- MXLDW and MXLDS of handle 1's row 0; MXRUN with activation format 2 (BF16). -/
def ldI (op u : Nat) : Ins := insn 2 op (opnd 0 1 1 0 + u * 2 ^ 245)
def runI : Ins := insn 2 0x02 (opnd 0 1 1 0 + 4 * 2 ^ 245)
/-- A class that core 16 (logical index 0 of 1) does not take part in. -/
def runOut : Ins := insn 2 0x02 (opnd 0 1 1 0 + 4 * 2 ^ 245 + 2 * 2 ^ 14)
/-- MXRUN with activation format 7, whose row takes one lc; runI's takes two. -/
def thinI : Ins := insn 2 0x02 (opnd 0 1 1 0 + 14 * 2 ^ 245)
/-- Post-unit instructions with tile 2 (A) and tile 3 (B) at offset 0. -/
def puI (op : Nat) : Ins := insn 3 op (opnd 0 1 2 0 + opnd 1 1 3 0)
def cenI : Ins := insn 3 0x03 (opnd 0 1 1 0)
/-- What the last step of instruction i leaves of core 16: its tile and mask writes are made. -/
def after (u : State) : Core := coreAt (lateTiles 16 { u with clk := { u.clk with now := u.clk.now + 99 } }) 16
theorem witness_MatrixAndPostSteps : participates (unitS mxCore (ldI 1 2)) 16 (ldI 1 2) = true ∧ iKind (ldI 1 2) 0 = 1
    ∧ startable (unitS mxCore (ldI 1 2)) 16 2 0x01 = some (ldI 1 2) ∧ isMX (iUmod (ldI 1 2) % 32) = false ∧ iSteps (ldI 1 2) = 1
    ∧ startable (unitS mxCore (ldI 3 0)) 16 2 0x03 = some (ldI 3 0) ∧ startable (unitS mxCore runI) 16 2 0x02 = some runI
    ∧ startable (unitS { mxCore with busy := [(3, 1000002)] } runI) 16 2 0x02 = none ∧ startable (unitS unitCore runI) 16 3 1 = none
    ∧ participates (unitS mxCore runI) 16 runI = true ∧ (settleLoads 1000000 mxCore.mx).act.fmt = some 2 ∧ pairOk 2 (iUmod runI / 2 % 32) = true
    ∧ pairOk 2 7 = false ∧ pairOk 13 7 = true ∧ sideComplete { fmt := some 13 } = false
    ∧ isWide thinI = false ∧ iKind thinI 0 = 1 ∧ mxCore.mx.act.fmt = some 2 ∧ isWide runI = true ∧ (wk runI).k % 2 = 0 ∧ ({ wk runI with k := 1 }).k % 2 = 1
    ∧ iUmod thinI / 2 % 32 = 7 ∧ pairOk 7 7 = true ∧ ({ wk runI with part := false }).part = false
    ∧ (coreAt (unitS mxCore runI) 16).mx.lastE = some 999936 ∧ 999936 + 64 ≤ (unitS mxCore runI).clk.now ∧ mxCore.mx.down = none ∧ mxCore.mx.up ≠ none
    ∧ (1000000 : Nat) < 999937 + 64 ∧ startable (unitS mxCore (puI 1)) 16 3 0x01 = some (puI 1)
    ∧ mxCore.pu.fifo = [⟨999990, false, [(3, 0, [[0x3F800000]])]⟩] ∧ false = bbit (iUmod (puI 1)) 0 ∧ unitCore.pu.fifo = []
    ∧ (1000000 : Nat) ≤ (unitS mxCore runI).clk.now ∧ mxCore.pu.fifo.length < 64 ∧ mxCore.pu.run = none
    ∧ 64 ≤ (List.replicate 64 (⟨0, false, []⟩ : RRow)).length
    ∧ offsetOf (unitS mxCore (puI 2)) 16 (puI 2) 0 0 = 0 ∧ iUmod (puI 2) % 8 = 0 ∧ (wk (puI 2)).k < iSteps (puI 2)
    ∧ ({ mode := some false } : AccRow).mode ≠ some (!false) ∧ ({ mode := some true } : AccRow).mode = some (!false)
    ∧ 0 ≤ offsetOf (unitS mxCore (puI 5)) 16 (puI 5) 1 0 ∧ offsetOf (unitS mxCore (puI 5)) 16 (puI 5) 1 0 + 512 ≤ 65536 := by decide +kernel
theorem test_mxldw : (coreAt (mxStep 16 (wk (ldI 1 2)) (unitS mxCore (ldI 1 2))).2 16).mx.load = [(1000002, 0, 0, 7 * 2 ^ 16)]
    ∧ (coreAt (mxStep 16 (wk (ldI 3 0)) (unitS mxCore (ldI 3 0))).2 16).mx.load = [(1000002, 2, 0, 7 * 2 ^ 16)]
    ∧ ok (exec (.mxldw 16 []) (unitS mxCore (ldI 1 2))) (fun t => decide ((coreAt t 16).mx.shd.fmt = some 2)) = true := by decide +kernel
theorem test_ramp : ok (exec (.arrayRampDown 16) (unitS mxCore runI)) (fun t => decide ((coreAt t 16).mx.down = some 1000000)) = true
    ∧ rampW { fresh := false, lastE := some 10 } 73 = 0 ∧ rampW { fresh := false, lastE := some 10 } 74 = 64 ∧ rampW { fresh := false, lastE := some 10 } 105 = 33 ∧ rampW { fresh := false, lastE := some 10 } 106 = 32
    ∧ rampW {} 0 = 32 := by decide +kernel
theorem test_mxrun_out : rampW { fresh := false, lastE := some 10 } 105 = 33 ∧ (coreAt (mxStep 16 { wk thinI with part := false } (unitS mxCore thinI)).2 16).mx.fly.getLast? = some ⟨1000000 + 264, false, []⟩
    ∧ (coreAt (mxStep 16 (wk thinI) (unitS { mxCore with mx := { act := { fmt := some 7 } } } thinI)).2 16).mx.fly.map (·.due) = [1000264]
    ∧ (mxStep 16 (wk runI) (unitS mxCore runI)).1.bytes.length = 256 / 2 := by
  decide +kernel
/-- PUACC at work on its one row. -/
def accS : State := unitS { mxCore with pu := { mxCore.pu with run := some { ins := puI 1 } } } (puI 1)
theorem test_post : decide ((coreAt (accLc 16 accS) 16).pu.run = none ∧ (mget {} (coreAt (accLc 16 accS) 16).pu.acc 3).mode = some false) = true
    ∧ ok (exec (.postInputArrival 16) (unitS mxCore runI)) (fun t => decide ((coreAt t 16).pu.fifo.length = 2 ∧ (coreAt t 16).mx.fly = [])) = true
    ∧ (coreAt (puStep 16 (wk (puI 4)) (unitS { mxCore with pu := { cen := { zero := 3 } } } (puI 4))).2 16).pu.cen = {}
    ∧ (puStep 16 (wk cenI) (unitS { mxCore with pu := { cen := { zero := 3, elems := 128 } } } cenI)).2.cmt.cen = [(16, 0, [3, 0, 0, 0, 128])] := by
  decide +kernel
/-- Vector instructions: tiles 0 (A), 1 (B) and 2 (C) at offset 0, with UMOD u. -/
def vxI (op u : Nat) : Ins := insn 4 op (opnd 0 1 0 0 + opnd 1 1 1 0 + opnd 2 1 2 0 + u * 2 ^ 245)
/-- Element 0 of tile 0 is 1.0, element 2 is 2.0; mask row 0 names lanes 2 and 127. -/
def vxCore : Core :=
  { unitCore with vx := { tile := [(2, 0x80), (3, 0x3F), (11, 0x40)], mask := [(0, 4 + 2 ^ 127)], band := 5 } }
/-- Two writes of one lc that meet in tile 2, and one of masked lanes. -/
def meetS (l : List VWr) : State := unitS { vxCore with job := { late := l.map fun w => ⟨1000000, w, []⟩ } } (insn 4 0)
theorem witness_VectorMovesData :
    ([0x01, 0x02, 0x06, 0x07, 0x08, 0x09, 0x0A, 0x0B, 0x0C, 0x11].all fun op => decide (iUnit (wk (vxI op 0)).ins = 4 ∧ iOp (vxI op 0) = op)) = true
    ∧ ([0, 1, 2].all fun j => decide (offsetOf (unitS vxCore (vxI 1 0)) 16 (vxI 1 0) j 0 = 0)) = true
    ∧ (0 : Int) + (1024 : Nat) ≤ 65536 ∧ iSel (vxI 1 0) 1 = 1 ∧ iUmod (vxI 1 0) % 4 = 0
    ∧ ones (maskAt (unitS vxCore (vxI 7 2)) 16 0) ≤ vxCore.vx.band ∧ vxCore.vx.band + 128 < 2 ^ 32 ∧ iUmod (vxI 0x11 4) % 8 = 4
    ∧ lateNow (meetS []) 16 = [] ∧ lateNow (meetS [.tile 1 2 100 [1, 2], .tile 2 2 101 [3, 4]]) 16 = [⟨1000000, .tile 1 2 100 [1, 2], []⟩, ⟨1000000, .tile 2 2 101 [3, 4], []⟩]
    ∧ lateNow (meetS [.lanes 2 0 1 [1, 2, 3, 4]]) 16 = [⟨1000000, .lanes 2 0 1 [1, 2, 3, 4], []⟩] ∧ lateNow (meetS [.mask 127 5 2]) 16 = [⟨1000000, .mask 127 5 2, []⟩]
    ∧ hndUse [] 16 1 0 128 (meetS []) = .ok (hndOf hword) ∧ isDepositSlot (meetS []) (meetS []).clk.lc ((hndOf hword).bank 0) = false
    ∧ isDepositSlot { meetS [] with clk := { (meetS []).clk with lc := 10000 } } 10000 ((hndOf hword).bank 0) = true := by decide +kernel
theorem test_lateTiles :
    let c := coreAt (lateTiles 16 (meetS [.tile 1 2 100 [1, 2], .tile 2 2 101 [3, 4]])) 16
    rdMem c.vx.tile (2 * 65536 + 100) 3 = [1, 3, 4]
    ∧ (0x0C, 16) ∈ (lateTiles 16 (meetS [.tile 1 2 100 [1, 2], .tile 2 2 101 [3, 4]])).cmt.faults
    ∧ rdMem (coreAt (lateTiles 16 (meetS [.lanes 0 4 1 [9, 9, 9, 9, 9, 9, 9, 9]])) 16).vx.tile 4 8 = [9, 9, 9, 9, 0, 0, 0, 0x40] := by decide +kernel
/-- Vector load from and store to handle 1. -/
def vldI : Ins := insn 4 0x01 (opnd 0 1 1 0 + opnd 1 1 1 0)
theorem test_vxld : mget 0 (after (vxStep 16 (wk vldI) (unitS vxCore vldI)).2).vx.tile (65536 + 2) = 7 := by decide +kernel
theorem test_vxmask : mget 0 (after (vxStep 16 (wk (vxI 0x11 1)) (unitS vxCore (vxI 0x11 1))).2).vx.mcnt 0 = 2 := by decide +kernel
theorem test_vxcmp : rdMem (after (vxStep 16 (wk (vxI 6 0)) (unitS vxCore (vxI 6 0))).2).vx.tile (2 * 65536) 8 = [0, 0, 0, 0x40, 0, 0, 0, 0] := by
  decide +kernel
theorem test_vxexp : rdMem (after (vxStep 16 (wk (vxI 7 2)) (unitS vxCore (vxI 7 2))).2).vx.tile (2 * 65536 + 8) 4 = [0, 0, 0x80, 0x3F]
    ∧ (after (vxStep 16 (wk (vxI 7 2)) (unitS vxCore (vxI 7 2))).2).vx.band = 3 := by
  decide +kernel
theorem test_shufSrc : (List.range 6).map (fun k => shufSrc (k + 16 * 3) 5) = [122, 8, 66, 10, 13, 3] := by decide +kernel
/-- Program slot 0: OUT = IA + IB (opcode 0x01). -/
def addOp : W256 := BitVec.ofNat 256 (0x01 + 20 * 2 ^ 8 + 16 * 2 ^ 13 + 17 * 2 ^ 18)
def epCore : Core := { vxCore with vx := { vxCore.vx with slot := [(0, ⟨false, [addOp]⟩), (1, ⟨true, List.replicate 4 0⟩)] } }
/-- VXEP, VXOPT and VXEPL at work with the slot that they found at their start. -/
def slotW (i : Ins) (v : Option VSlot) : Work := { wk i with acc := { slot := v } }
theorem witness_VectorArithmetic :
    startable (unitS epCore (vxI 4 0)) 16 4 4 = some (vxI 4 0) ∧ startable (unitS epCore (vxI 5 0)) 16 4 5 = some (vxI 5 0) ∧ iSteps (vxI 4 0) = 1
    ∧ startable (unitS epCore (vxI 4 0)) 16 4 5 = none ∧ participates (unitS epCore (vxI 4 0)) 16 (vxI 4 0) = true
    ∧ ([0, 1, 2].all fun j => decide (iKind (vxI 4 0) j ≠ 0 ∧ iSel (vxI 4 0) j < 5 ∧ offsetOf (unitS epCore (vxI 4 0)) 16 (vxI 4 0) j 0 = 0 ∧ rawOff (vxI 4 0) j 0 = 0)) = true
    ∧ slotOf (unitS epCore (vxI 4 0)) 16 0 false = some ⟨false, [addOp]⟩ ∧ ((progOf [addOp]).all fun w => decide (mOpc w ≠ 0x30)) = true
    ∧ slotOf (unitS epCore (vxI 4 2)) 16 2 false = none ∧ (coreAt (unitS epCore (vxI 4 2)) 16).mode = .broadcast
    ∧ isMX (cvSrc (vxI 5 0)) = false ∧ cvSrc (vxI 5 0) = 0 ∧ cvDst (vxI 5 0) = 0 ∧ isMX (cvDst (vxI 5 (8 * 32))) = true ∧ cvDst (vxI 5 (8 * 32)) ≠ 13
    ∧ cvTwice (vxI 5 (8 * 32)) = false ∧ (slotW (vxI 0x0E 2) (some ⟨true, List.replicate 4 0⟩)).acc.slot = some ⟨true, List.replicate 4 0⟩
    ∧ (wk (vxI 3 0)).part = true ∧ (wk (vxI 3 0)).k + 1 = iSteps (vxI 3 0) ∧ (0 : Int) + (1024 : Nat) ≤ 65536 := by decide +kernel
theorem test_vxep : rdMem (after (vxStep 16 (slotW (vxI 4 0) (some ⟨false, [addOp]⟩)) (unitS epCore (vxI 4 0))).2).vx.tile (2 * 65536) 12
    = [0, 0, 0x80, 0x3F, 0, 0, 0, 0, 0, 0, 0, 0x40] := by
  decide +kernel
theorem test_vxep_invalid : ok (exec (.vxep 16) (unitS epCore (vxI 4 2))) (fun t => decide ((0x0D, 16) ∈ t.cmt.faults)) = true := by decide +kernel
theorem test_vxtree : rdMem (after (vxStep 16 (wk (vxI 0x0D 0)) (unitS epCore (vxI 0x0D 0))).2).vx.tile (2 * 65536) 4 = [0, 0, 0x80, 0x3F] := by
  decide +kernel

/-! ### Channels, cells, barriers -/
/-- Channels: 0 to core 0 of this module, 1 receiving, 2 to group 5, 3 to a module the task lacks; barrier 7 of dale 1. -/
def chanImage : Loaded := { unitImage with
  chans := [⟨0, 0, 15, 8, 0, 0, false, 0, 0, 0, 0, 2, 0⟩, ⟨1, 0, 15, 8, 0, 0, false, 0, 0, 0, 0, 2, 0⟩, ⟨2, 0, 15, 8, 0, 0, false, 0, 0, 0, 0, 2, 5⟩,
    ⟨0, 0, 15, 8, 0, 3, false, 0, 0, 0, 0, 2, 0⟩]
  bars := [⟨7, false, false, 2, 0, 0, 9, 0, 1⟩] }
/-- Endpoint 2 open to core 0, 4 to the group, 5 open with one class only, 6 with a reader that is gone; 8 closed. -/
def chCore : Core := { unitCore with
  ch := { ep := [(2, { st := 3, decl := 0, credits := 5 }), (4, { st := 3, decl := 2, credits := 5 }), (6, { st := 5 })] } }
def chS (c : Core) (i : Ins) : State :=
  { unitS c i with task := { tasked.task with img := some chanImage }, fab := { member := [(5 * 64 + 3, (0, 16, 2))] } }
def chI (op e : Nat) (b : Nat := 0) (c : Nat := 63) : Ins := insn 5 op (opnd 0 3 0 e + opnd 1 3 0 b + opnd 2 3 0 c)
/-- The step of instruction i on core 16 in this lc. -/
def chRun (c : Core) (i : Ins) : State := chStep 16 (wk i) (chS c i)
theorem witness_ChannelUnitSteps :
    ([0x07, 0x10, 0x11, 0x12, 0x13].all fun op =>
      decide (startable (chS chCore (chI op 8)) 16 5 op = some (chI op 8)) && participates (chS chCore (chI op 8)) 16 (chI op 8)) = true
    ∧ ([0x01, 0x02, 0x03, 0x04, 0x05, 0x06, 0x07, 0x10, 0x11, 0x12, 0x13].all fun op => decide (iUnit (wk (chI op 8)).ins = 5 ∧ iOp (chI op 8) = op)) = true
    ∧ tooEarlyAt (chS chCore (chI 1 8)) 16 1000000 = false ∧ tooEarlyAt (chS chCore (chI 1 8)) 16 998000 = true
    ∧ immOf (chS chCore (chI 1 8 3)) 16 (chI 1 8 3) 1 0 = 3 ∧ chanAt (chS chCore (chI 1 8)) 9 = none
    ∧ ([0, 1, 2, 3].map fun k => (chanAt (chS chCore (chI 1 8)) k).map (·.role)) = [some 0, some 1, some 2, some 0]
    ∧ (epAt chCore 8).parked = none ∧ taskMods (chS chCore (chI 1 8)) = 1
    ∧ physOf (chS chCore (chI 1 8)) 0 = some 16 ∧ membersOf (chS chCore (chI 1 8)) 5 = [3] ∧ membersOf (chS chCore (chI 1 8)) 6 = [] := by decide +kernel
theorem witness_ChannelUnitSteps_sends :
    (match sendUse (chS chCore (chI 3 8)) 16 2 0 false with | .ok d => decide (d.role = 0) | _ => false) = true
    ∧ sendUse (chS chCore (chI 3 8)) 16 6 0 false = .quiet ∧ sendUse (chS chCore (chI 3 8)) 16 8 0 false = .unopen
    ∧ sendUse (chS { chCore with ch := { ep := [(2, { st := 3, decl := 0 })] } } (chI 3 8)) 16 4 0 false = .unopen
    ∧ (match sendUse (chS chCore (chI 5 8)) 16 (groupEp (chS chCore (chI 5 8)) 16 5) 0 true with | .ok d => decide (d.group = 5) | _ => false) = true
    ∧ (barAt (chS chCore (chI 6 7)) 7).any (fun d => inBarrier (chS chCore (chI 6 7)) d 16 && !d.sense) = true ∧ physOf (chS chCore (chI 6 7)) 0 = some 16
    ∧ mget 0 chCore.ch.arrived 7 ≠ 1 ∧ barAt (chS chCore (chI 6 7)) 8 = none
    ∧ vOld chCore 0x10 0 = none ∧ vTotal (vAppend 0x11 0 (List.replicate 32 0) []) ≤ 4096
    ∧ 4096 < vTotal (vAppend 0x11 0 (List.replicate 32 0) (List.replicate 128 (⟨0x11, 0, List.replicate 32 0⟩ : VEnt))) := by
  decide +kernel
/-- Both cores of a tree of fan-in 1: core 16 is its root, core 17 a leaf under it. -/
def treeS (c : Core) : State :=
  let i := chI 6 7
  { chS c i with
    task := { tasked.task with img := some { chanImage with bars := [⟨7, true, false, 2, 0, 0, 9, 0, 1⟩] } }
    cores := [(16, { c with lidx := 0, k := 2 }), (17, { c with lidx := 1, k := 2 })] }
theorem witness_ChannelUnitSteps_tree : (barAt (treeS chCore) 7).any (fun d =>
      let l := barOrder (treeS chCore) d
      let n := l.idxOf 17
      d.sense && inBarrier (treeS chCore) d 17 && decide (n ≠ 0 ∧ treeKids d.fanin l.length n = [] ∧ mget (0, 0) chCore.ch.tree (2 * 7 + barBit chCore 7) = (0, 0))) = true := by
  decide +kernel
theorem test_chopen : (epAt (coreAt (chRun chCore (chI 1 8 1)) 16) 8).st = 1
    ∧ (epAt (coreAt (chRun chCore (chI 1 8 3 20)) 16) 8).reason = 3 ∧ (coreAt (chRun chCore (chI 1 8 3 20)) 16).adds = [(20, 1)] := by decide +kernel
/-- Cells that core 16 has handed to its stop. -/
def inStop (t : State) : List FCell := (mget [] (mget {} t.fab.stop (stopKey (stopOf 16).1 (stopOf 16).2.1 (stopOf 16).2.2)).ins 0).map (·.cell)
theorem test_sends :
    let a := chRun chCore (chI 3 0 2)
    let b := chRun chCore (chI 3 0 8)
    let d := chRun chCore (chI 4 2)
    (inStop a).length = 1 ∧ (epAt (coreAt a 16) 2).credits = 4 ∧ (inStop b).length = 0 ∧ (0x1D, 16) ∈ b.cmt.faults
    ∧ (inStop d).length = 1 ∧ (epAt (coreAt d 16) 2).credits = 5 ∧ (epAt (coreAt (chRun chCore (chI 5 0 5)) 16) 4).mcred = [(0, [3])] := by decide +kernel
theorem test_chclose_chrole : (epAt (coreAt (chRun chCore (chI 2 2)) 16) 2).st = 0 ∧ (inStop (chRun chCore (chI 2 2))).length = 1
    ∧ ok (exec (.chrole 16) (chS chCore (chI 7 0))) (fun t => decide ((coreAt t 16).ch.roleAt = [1000002])) = true
    ∧ mget 0 (coreAt (chRun chCore (chI 6 7)) 16).ch.arrived 7 = 1 ∧ (inStop (chRun chCore (chI 6 7))).length = 1
    ∧ (inStop (chStep 16 (wk (chI 6 7)) (treeS chCore))).length = 0 := by decide +kernel
/-- The step of a source's instruction that its answer was gathered for at the start. -/
def srcRun (i : Ins) (b : List Byte) : Core := coreAt (chStep 16 { wk i with acc := { bytes := b } } (chS chCore i)) 16
theorem test_sources : (srcRun (chI 0x10 0) (answer (some 9))).vlog = [⟨0x10, 0, leBytes 8 9 ++ leBytes 8 7⟩]
    ∧ (srcRun (chI 0x13 0) (answer none)).vlog = [⟨0x13, 0, leBytes 16 (2 ^ 127)⟩] ∧ (srcRun (chI 0x13 0) (answer none)).job.late.map (·.lc) = [1000039]
    ∧ ok (exec (.tsread 16 (some 9)) (chS chCore (chI 0x10 0))) (fun t => decide ((coreAt t 16).job.work.map (fun w => w.acc.bytes) = [answer (some 9)])) = true := by
  decide +kernel
/-- The send buffer: endpoint 4's cell waits for a credit, endpoint 2's may leave; a due signal to F9. -/
def bufS : State := chS { chCore with
  sigs := [⟨1000001, 8, 1⟩, ⟨1000000, 9, 2⟩]
  ch := { ep := [(2, { st := 3, credits := 1 }), (4, { st := 3, decl := 2 })], sbuf := [⟨4, true, ⟨0, 0, 0⟩⟩, ⟨2, true, ⟨1, 0, 0⟩⟩] } } (chI 7 0)
theorem witness_ChannelUnitSteps_buffer : (coreAt bufS 16).ch.sbuf[1]? = some ⟨2, true, ⟨1, 0, 0⟩⟩ ∧ 0 < (epAt (coreAt bufS 16) 2).credits
    ∧ (epAt (coreAt bufS 16) 4).credits = 0 ∧ (coreAt bufS 16).sigs = [⟨1000001, 8, 1⟩] ++ ⟨1000000, 9, 2⟩ :: [] ∧ bufS.clk.now < 1000001
    ∧ (1000000 : Nat) ≤ bufS.clk.now := by decide +kernel
theorem test_depart : ok (exec (.sendBufferDepart 16) bufS) (fun t => decide (inStop t = [⟨1, 0, 0⟩] ∧ (coreAt t 16).ch.sbuf.length = 1)) = true
    ∧ ok (exec (.signalStage 16) bufS) (fun t => decide ((coreAt t 16).sigs = [⟨1000001, 8, 1⟩] ∧ (coreAt t 16).adds = [(9, 2)])) = true := by decide +kernel

/-! ### Arriving cells, barriers, remote accesses -/
/-- Channels 0 to 3 of `chanImage`, 4 receiving at ford 1, 5 receiving for signals, 6 receiving class 0 only; barriers 7 and 8 of dale 1. -/
def arrImage : Loaded := { chanImage with
  chans := chanImage.chans ++ [⟨1, 3, 15, 8, 1, 0, false, 0, 0, 0, 0, 2, 0⟩, ⟨1, 4, 15, 8, 0, 0, false, 0, 0, 0, 0, 2, 0⟩, ⟨1, 0, 1, 8, 0, 0, false, 0, 0, 0, 0, 2, 0⟩]
  bars := [⟨7, false, false, 2, 0, 0, 9, 0, 1⟩, ⟨8, true, true, 2, 0, 0, 9, 0, 2⟩] }
/-- Ford 1: handle 1, read and write, units 0 to 63, endpoint 9. -/
def fordW : BitVec 128 := BitVec.ofNat 128 (1 + 64 + 128 + 63 * 2 ^ 24 + 9 * 2 ^ 40 + 9 * 2 ^ 49 + 2 ^ 112)
/-- Core 16 with endpoint 9 as given and cell x at its stop; core 17 holds index 1 too. -/
def arrCore (k : Ep) (x : FCell) : Core := { unitCore with ch := { ep := [(9, k)], inbox := [(9, x)] }, bsn := { unitCore.bsn with ford := [(1, fordW)] } }
def arrOf (c : Core) : State :=
  { unitS c (insn 5 0x07) with
    task := { tasked.task with img := some arrImage }, fab := { member := [(5 * 64 + 3, (0, 16, 2))] }
    cores := [(16, c), (17, { mode := .broadcast, lidx := 1, k := 1 })] }
def arr (k : Ep) (x : FCell) : State := arrOf (arrCore k x)
/-- A self-named cell and a channel cell from endpoint 2 of core 16. -/
def selfC (ty rest : Nat) : FCell := sealCell (srcId 0 16 2) (mkHdr 0 16 9 ty 3 0 0 0) (srcId 0 16 2 + rest * 2 ^ 48)
def chanC (ty pay : Nat) (cls : Nat := 0) (epoch : Nat := 0) (fseq : Nat := 0) : FCell := sealCell (srcId 0 16 2) (mkHdr 0 16 9 ty cls epoch 48 fseq) pay
/-- A row that waits for a deposit slot. -/
def aDep : Dep := { cls := 3, bank := 0, row := 0 }
/-- The endpoint bound to that sender by declaration d. -/
def bnd (d : Nat) : Ep := { st := 3, decl := d, bnd := true, peerCore := 16, peerEp := 2 }
theorem witness_CellsAreCheckedFirst : (coreAt (arr (bnd 1) (chanC 0 5)) 16).ch.inbox = [(9, chanC 0 5)]
    ∧ ([0, 1, 2, 3, 4, 5, 9].all fun ty => decide (cType (chanC ty 5) = ty)) = true
    ∧ ([6, 7, 8, 10].all fun ty => decide (cType (selfC ty 5) = ty)) = true
    ∧ ([0, 1, 2, 3, 4, 5].map fun k => cPay (selfC 7 k) 6 1) = [0, 1, 2, 3, 4, 5] ∧ ([0, 1, 2, 3].map fun k => cPay (selfC 10 (7 + k * 256)) 7 1) = [0, 1, 2, 3]
    ∧ inWindow (arr (bnd 1) (chanC 0 5)) 16 = false ∧ inWindow { arr (bnd 1) (chanC 0 5) with clk := { edgeClk with lc := 8191 } } 16 = true
    ∧ (bnd 1).bnd = true ∧ cFseq (chanC 0 5 0 0 3) ≠ (bnd 1).fseq
    ∧ chanAt (arr (bnd 0) (selfC 8 0)) (bnd 0).decl ≠ none
    ∧ depRows (arrCore (bnd 4) (chanC 2 5)) < 64 ∧ 64 ≤ depRows { arrCore (bnd 4) (chanC 2 5) with bsn := { dep := List.replicate 64 aDep } }
    ∧ cEcrc { selfC 8 0 with trl := 0 } ≠ ecrcOf (cPay (selfC 8 0) 0 6) (selfC 8 0).hdr (selfC 8 0).pay := by decide +kernel
theorem test_cellChecks : ok (exec (.cellArrival 16) (arr (bnd 1) (chanC 0 5 0 0 3))) (fun t => bbit t.cmt.src 4 && decide ((coreAt t 16).ch.inbox = [])) = true
    ∧ ok (exec (.boundaryCellDiscard 16) { arr (bnd 1) (chanC 0 5) with clk := { edgeClk with lc := 8191 } }) (fun t => decide ((coreAt t 16).ch.inbox = [])) = true
    ∧ ok (exec (.creditArrival 16) (arr { bnd 0 with peerEp := 7 } (selfC 8 0))) (fun t => bbit t.cmt.src 4) = true
    ∧ gives (exec (.creditArrival 16) (arr (bnd 1) (chanC 0 5))) (arr (bnd 1) (chanC 0 5)) = true := by decide +kernel
/-- An open request that agrees with declaration 1 of core 16: logical core 0, WINDOW 8, LAND 0, CLASSES 15, epoch 0. -/
def openC : FCell := selfC 6 (0 + 8 * 2 ^ 8 + 0 * 2 ^ 16 + 15 * 2 ^ 24)
def listen : Ep := { st := 1, decl := 1 }
theorem witness_OpenRepliesAndCredits : e2eOk (arr listen openC) 16 9 openC = true ∧ e2eOk (arr (bnd 0) (selfC 8 0)) 16 9 (selfC 8 0) = true
    ∧ e2eOk (arr (bnd 0) (selfC 7 2)) 16 9 (selfC 7 2) = true ∧ e2eOk (arr (bnd 0) (selfC 7 5)) 16 9 (selfC 7 5) = true ∧ (arr listen openC).clk.zone = false
    ∧ inWindow (arr listen openC) 16 = false ∧ ({} : Ep).parked = none
    ∧ (chanAt (arr listen openC) 1).map (fun d => (peerOf (arr listen openC) 16 d, d.land, d.classes, d.window))
        = some ((logOf (arr listen openC) (cPay openC 0 2), cPay openC 6 1, cPay openC 3 2 % 1024), cPay openC 8 1, cPay openC 9 1, cPay openC 7 1)
    ∧ cPay (selfC 6 (0 + 9 * 2 ^ 8 + 15 * 2 ^ 24)) 7 1 = 9
    ∧ memberIdx (arr { st := 2, decl := 2, await := [3] } (selfC 7 0)) 5 (0, 16, 2) = some 3 ∧ [3].filter (· ≠ 3) = [] ∧ [3, 4].filter (· ≠ 3) ≠ []
    ∧ (cPay (selfC 7 0) 0 2, cPay (selfC 7 0) 2 1, cPay (selfC 7 0) 3 2 % 1024) = ((bnd 0).peerMod, (bnd 0).peerCore, (bnd 0).peerEp)
    ∧ cPay (selfC 7 (5 + 6 * 2 ^ 40)) 11 1 = 6 ∧ cPay (selfC 7 (5 + 2 * 2 ^ 40)) 11 1 = 2 ∧ cPay (selfC 7 (5 + 3 * 2 ^ 40)) 11 1 = 3
    ∧ cPay (selfC 8 (7 * 2 ^ 16)) 8 2 = 7 ∧ ({ st := 0, bnd := true } : Ep).bnd = true
    ∧ ([⟨9, true, chanC 0 5⟩] : List SCell).any (fun y => decide (y.ep = 9)) = true := by decide +kernel
theorem test_open : ok (exec (.openRequestArrival 16) (arr listen openC)) (fun t => decide ((epAt (coreAt t 16) 9).st = 3 ∧ (epAt (coreAt t 16) 9).peerEp = 2 ∧ (inStop t).length = 1)) = true
    ∧ ok (exec (.openRequestArrival 16) (arr listen (selfC 6 (0 + 9 * 2 ^ 8 + 15 * 2 ^ 24)))) (fun t => decide ((epAt (coreAt t 16) 9).st = 1 ∧ (inStop t).length = 1)) = true
    ∧ ok (exec (.openRequestArrival 16) (arr {} openC)) (fun t => (epAt (coreAt t 16) 9).parked.isSome) = true := by decide +kernel
theorem test_replies : ok (exec (.openReplyArrival 16) (arr { st := 2, decl := 0, compl := 20 } (selfC 7 0))) (fun t =>
      decide ((epAt (coreAt t 16) 9).st = 3 ∧ (epAt (coreAt t 16) 9).credits = 8 ∧ (coreAt t 16).adds = [(20, 1)])) = true
    ∧ ok (exec (.openReplyArrival 16) (arr { st := 2, decl := 2, await := [3], compl := 20 } (selfC 7 0))) (fun t => decide ((epAt (coreAt t 16) 9).st = 3)) = true
    ∧ ok (exec (.senderReplyArrival 16) (arr (bnd 0) (selfC 7 3))) (fun t => decide ((epAt (coreAt t 16) 9).st = 6 ∧ (0x1C, 16) ∈ t.cmt.faults)) = true
    ∧ ok (exec (.fencedAckArrival 16) (arr { st := 2, decl := 0 } (selfC 7 (5 + 6 * 2 ^ 40)))) (fun t => decide ((epAt (coreAt t 16) 9).reason = 4)) = true := by decide +kernel
theorem test_closed_sender : ok (exec (.creditArrival 16) (arr { bnd 0 with st := 0, credits := 7 } (selfC 8 1))) (fun t => decide ((epAt (coreAt t 16) 9).credits = 8)) = true := by
  decide +kernel
theorem test_credit : ok (exec (.creditArrival 16) (arr { bnd 0 with credits := 7 } (selfC 8 1))) (fun t => decide ((epAt (coreAt t 16) 9).credits = 8)) = true
    ∧ ok (exec (.creditArrival 16) (arr { bnd 0 with credits := 8 } (selfC 8 1))) (fun t => decide ((epAt (coreAt t 16) 9).credits = 8)) = true := by decide +kernel
/-- The last cell of an answer's row 0 to tag 7; two cells of the row have come, and the tag waits for it at handle 1. -/
def lastC : FCell := sealCell (srcId 0 16 2) (mkHdr 0 16 9 4 0 0 32 0) (7 * 2 ^ 296)
def respS : State := arrOf { arrCore (bnd 0) lastC with
  fe := { groups := [⟨9, List.replicate 96 0, true⟩], ftags := [(7, ⟨1, 1, 0, 9, none⟩)] } }
theorem witness_CellsLand : e2eOk (arr (bnd 1) (chanC 0 5)) 16 9 (chanC 0 5) = true ∧ (arr (bnd 1) (chanC 0 5)).clk.zone = false
    ∧ ([1, 4, 5, 6].map fun k => (chanAt (arr (bnd 1) (chanC 0 5)) k).map fun d => (d.role, d.land, d.classes))
        = [some (1, 0, 15), some (1, 3, 15), some (1, 4, 15), some (1, 0, 1)]
    ∧ cEpoch (chanC 0 5 0 7) = 7 ∧ cClass (chanC 0 5 2) = 2 ∧ bbit 1 2 = false ∧ e2eOk (arr (bnd 0) (chanC 4 5)) 16 9 (chanC 4 5) = true
    ∧ cType (sealCell 0 (mkHdr 0 16 9 14 0 0 0 0) 0) = 14 ∧ ((cBytes (chanC 2 5)).take (cValid (chanC 2 5))).length = 48
    ∧ cValid lastC = 32 ∧ cPay lastC 37 2 = 7 ∧ cValid (chanC 4 5) ≠ 32 ∧ depRows (coreAt respS 16) = 1 ∧ (bnd 1).source ≠ none ∧ ({} : Ep).source = none
    ∧ e2eOk respS 16 9 lastC = true ∧ (chanAt respS 0).map (fun d => (d.role, d.classes)) = some (0, 15) ∧ (epAt (coreAt respS 16) 9).st = 3
    ∧ hndUse [] 16 1 (0 + 128 * cPay lastC 36 1 : Nat) 128 respS = .ok (hndOf hword) := by decide +kernel
theorem test_cellArrival : ok (exec (.cellArrival 16) (arr (bnd 1) (chanC 0 5))) (fun t => decide ((mget {} (coreAt t 16).vx.port 0).bytes.length = 48 ∧ (epAt (coreAt t 16) 9).fseq = 1)) = true
    ∧ ok (exec (.cellArrival 16) (arr (bnd 5) (chanC 1 (20 + 3 * 64)))) (fun t => decide ((coreAt t 16).adds = [(20, 3)])) = true
    ∧ ok (exec (.cellArrival 16) (arr (bnd 4) (chanC 3 0))) (fun t => decide ((coreAt t 16).fe.remote.length = 1)) = true
    ∧ ok (exec (.closeCellArrival 16) (arr (bnd 1) (chanC 9 0))) (fun t => decide ((epAt (coreAt t 16) 9).st = 0)) = true
    ∧ ok (exec (.cellArrival 16) (arr (bnd 6) (chanC 0 5 2))) (fun t => decide ((epAt (coreAt t 16) 9).st = 0 ∧ (inStop t).length = 1)) = true := by decide +kernel
theorem test_frespArrival : ok (exec (.frespArrival 16) respS) (fun t => decide ((coreAt t 16).bsn.dep.length = 1 ∧ (coreAt t 16).fe.groups = [] ∧ (epAt (coreAt t 16) 9).rseq = 1)) = true := by
  decide +kernel
/-- Barrier cells: barrier b, kind k, phase ph, one participant. -/
def barC (b k ph : Nat) : FCell := selfC 10 (b + k * 2 ^ 8 + ph * 2 ^ 16 + 2 ^ 24)
/-- The same arriving at core 16, which has arrived at the barriers in l itself, with n of its flag F9 and of the domain root's count. -/
def barS (x : FCell) (l : SMap Nat) (n : Nat) : State :=
  let c := arrCore {} x
  { arrOf { c with ch := { c.ch with arrived := l }, obj := [(9, n)] } with fab := { (arr {} x).fab with barDom := if n = 0 then [] else [(8, n)] } }
/-- A remote access of type ty at unit o, its deposit buffer with n rows. -/
def remS (ty o n : Nat) : State :=
  arrOf { arrCore (bnd 4) (chanC 0 0) with
    fe := { remote := [{ ep := 9, cell := chanC ty (o * 2 ^ 256), data := List.replicate 128 3, src := (0, 16, 2) }] }
    bsn := { (arrCore (bnd 4) (chanC 0 0)).bsn with dep := List.replicate n aDep } }
/-- The same through a handle that is not valid. -/
def remB : State := let s := remS 3 0 0
  setCore 16 { coreAt s 16 with bsn := { (coreAt s 16).bsn with hnd := [], hndC := [] } } s
/-- Barrier 7 is central with both cores; barrier 8 a tree of two cores and two modules. -/
def bar7 : BarD := ⟨7, false, false, 2, 0, 0, 9, 0, 1⟩
def bar8 : BarD := ⟨8, true, true, 2, 0, 0, 9, 0, 2⟩
theorem witness_BarriersAndRemoteAccess :
    let s := barS (barC 8 0 0) [(8, 1)] 0
    cEcrc (barC 7 0 0) = ecrcOf (cPay (barC 7 0 0) 0 6) (barC 7 0 0).hdr (barC 7 0 0).pay ∧ cType (barC 7 0 0) = 10
    ∧ ([0, 1, 2, 3].map fun k => cPay (barC 7 k 0) 7 1) = [0, 1, 2, 3]
    ∧ barAt s 7 = some bar7 ∧ barAt s 8 = some bar8 ∧ barCores s bar7 = [16, 17] ∧ barOrder s bar8 = [16, 17] ∧ kidCores s bar8 16 = [17]
    ∧ mget 0 (coreAt s 16).ch.arrived 8 = 1 ∧ barBit (coreAt s 16) 8 = 0 ∧ treeKids 0 2 0 = [1] ∧ mget 0 s.fab.barDom 8 = 0
    ∧ mget 0 (barS (barC 8 0 0) [(8, 1)] 1).fab.barDom 8 = (treeKids bar8.fanin bar8.nmod 0).length ∧ s.task.modIdx = 0
    ∧ mget 0 (coreAt (barS (barC 8 0 0) [] 0) 16).ch.arrived 8 ≠ 1
    ∧ physOf s bar7.root = some 16 ∧ objAt (coreAt (barS (barC 7 0 0) [] 2) 16) 9 = 2 ∧ mget 0 (barS (barC 7 0 0) [] 2).fab.barDom 7 = 0
    ∧ objAt (coreAt s 16) 9 < (barCores s bar7).length := by decide +kernel
theorem witness_BarriersAndRemoteAccess_remote : (coreAt (remS 2 0 0) 16).fe.remote.length = 1
    ∧ fordOpen (remS 2 0 0) 16 (epFord (remS 2 0 0) 16 9) = true ∧ (fordOf fordW).has 9 = true ∧ (fordOf fordW).wr = true ∧ (fordOf fordW).rd = true
    ∧ (fordOf fordW).span = 64 ∧ cPay (chanC 2 (60 * 2 ^ 256)) 32 4 + 4 ≤ 64 ∧ 64 < cPay (chanC 2 (61 * 2 ^ 256)) 32 4 + 4
    ∧ hndUse [] 16 1 (32 * 60 : Nat) 128 (remS 2 60 0) = .ok (hndOf hword) ∧ hndUse [] 16 1 0 128 (remS 3 0 0) = .ok (hndOf hword) ∧ hndUse [] 16 1 0 128 remB = .bounds
    ∧ 64 ≤ depRows (coreAt (remS 2 0 64) 16) ∧ depRows (coreAt (remS 2 0 0) 16) < 64 ∧ (epAt (coreAt remB 16) 9).rseq < 16384 := by decide +kernel
theorem test_barriers : ok (exec (.barrierArrival 16) (barS (barC 7 0 0) [] 0)) (fun t => decide (mget 0 t.fab.barArr 7 = 1 ∧ (coreAt t 16).adds = [(9, 1)])) = true
    ∧ (let t := barRoot 16 (barS (barC 7 0 0) [] 2) bar7
       mget 0 t.fab.barPhase 7 = 1 ∧ (inStop t).length = 2 ∧ objAt (coreAt t 16) 9 = 0)
    ∧ ok (exec (.barrierRelease 16) (barS (barC 7 1 0) [] 0)) (fun t => decide ((coreAt t 16).ch.flips = [7] ∧ mget 0 (coreAt (barLc 16 t) 16).ch.phase 7 = 1)) = true
    ∧ ok (exec (.barrierArrival 16) (barS (barC 8 0 0) [(8, 1)] 1)) (fun t => decide ((inStop t).length = 2 ∧ (coreAt t 16).ch.flips = [8])) = true
    ∧ ok (exec (.domainBarrierArrival 16) (barS (barC 8 2 0) [] 0)) (fun t => decide (mget 0 t.fab.barDom 8 = 1 ∧ (inStop t).length = 0)) = true := by decide +kernel
theorem test_remote : ok (exec (.remoteWrite 16) (remS 2 60 0)) (fun t => decide ((coreAt t 16).bsn.dep.map (fun q => (q.bank, q.row, q.off)) = [(0, 4 + 15, 0)])) = true
    ∧ ok (exec (.remoteWrite 16) (remS 2 61 0)) (fun t => decide ((inStop t).length = 3 ∧ (0x10, 16) ∈ t.cmt.faults)) = true
    ∧ gives (exec (.remoteWrite 16) (remS 2 0 64)) (remS 2 0 64) = true
    ∧ ok (exec (.remoteRead 16) (remS 3 0 0)) (fun t => decide ((coreAt t 16).bsn.dep.length = 1)) = true
    ∧ ok (exec (.remoteRead 16) remB) (fun t => decide ((coreAt t 16).bsn.dep = [] ∧ (inStop t).length = 3 ∧ (0x03, 16) ∈ t.cmt.faults)) = true := by decide +kernel

/-! ### Threaded cores, core modes, service controllers -/
/-- Threads 1 and 2 are live; the store's word 0 is i. -/
def thCore (i : Ins) : Core :=
  { unitCore with mode := .threaded, th := { thr := (List.range 8).map fun t => { live := decide (t = 1 ∨ t = 2), regs := (List.range 32).map fun r => BitVec.ofNat 64 (r * r), base := [5, 0, 0] }
                                             last := 0, store := [(0, i.w0)], loaded := true } }
def thS (c : Core) : State := { unitS c (insn 1 5) with cores := [(16, c)] }
/-- Operand A names registers rd 3, rs1 4, rs2 5; operand B is b. -/
def thI (op b u : Nat) : Ins := insn 6 op ((3 + 4 * 32 + 5 * 1024) * 2 ^ 104 + b * 2 ^ 144 + u * 2 ^ 245)
/-- Thread 1 has issued i. -/
def issuedS (i : Ins) : State := thS { thCore i with th := { (thCore i).th with issued := some (1, i) } }
theorem witness_ThreadsRun : (coreAt (thS (thCore (thI 2 0 0))) 16).mode = .threaded ∧ (thCore (thI 2 0 0)).th.issued = none
    ∧ mget 0 (thCore (thI 2 0 0)).started 6 ≠ 1000001 ∧ nextThread (thS (thCore (thI 2 0 0))) 16 = some 1
    ∧ iUnit (storeIns (thCore (thI 2 0 0)) 0) = 6 ∧ iUnit (storeIns (thCore (insn 1 5)) 0) = 1 ∧ nextThread (thS { thCore (thI 2 0 0) with th := {} }) 16 = none
    ∧ (coreAt (unitS unitCore (insn 1 5)) 16).mode ≠ .threaded ∧ (coreAt (issuedS (thI 2 0 0)) 16).th.issued = some (1, thI 2 0 0)
    ∧ (thAt (thCore (thI 2 0 0)) 1).regs.length = 32 ∧ (thAt (thCore (thI 2 0 0)) 1).ready.length = 32 ∧ (thAt (thCore (thI 2 0 0)) 1).base.length = 3
    ∧ iOp (thI 0x0F 0 2) = 0x0F ∧ iUmod (thI 0x0F 0 2) % 4 < 3
    ∧ hndUse [] 16 1 8 8 (issuedS (insn 6 0x0D (opnd 2 1 1 8))) = .ok (hndOf hword) ∧ offsetOf (issuedS (insn 6 0x0D (opnd 2 1 1 8))) 16 (insn 6 0x0D (opnd 2 1 1 8)) 2 0 = 8 := by
  decide +kernel
theorem test_threadIssue : ok (exec (.threadIssue 16) (thS (thCore (thI 2 0 0)))) (fun t => decide ((coreAt t 16).th.issued = some (1, thI 2 0 0) ∧ (thAt (coreAt t 16) 1).pc = 1)) = true
    ∧ ok (exec (.threadIssue 16) (thS (thCore (insn 1 5)))) (fun t => decide ((unitQ (coreAt t 16) 1).map (fun i => iOff i 0) = [5] ∧ (thAt (coreAt t 16) 1).base = [0, 0, 0])) = true := by
  decide +kernel
/-- Register 3 of thread 1 after the command. -/
def reg3 (o : Host.Outcome State Fault Refusal) : W64 := match o with | .next t => (thAt (coreAt t 16) 1).regs.getD 3 0 | _ => 0
theorem test_thAlu : reg3 (exec (.thli 16) (issuedS (thI 1 (2 ^ 32 - 2) 0))) = -2 ∧ reg3 (exec (.thadd 16) (issuedS (thI 2 0 0))) = 41
    ∧ reg3 (exec (.thsub 16) (issuedS (thI 3 0 0))) = -9 ∧ reg3 (exec (.thand 16) (issuedS (thI 4 0 0))) = 16 ∧ reg3 (exec (.thor 16) (issuedS (thI 5 0 0))) = 25
    ∧ reg3 (exec (.thxor 16) (issuedS (thI 6 0 0))) = 9 ∧ reg3 (exec (.thshl 16) (issuedS (thI 7 0 0))) = 0x20000000
    ∧ reg3 (exec (.thshr 16) (issuedS (thI 8 0 0))) = 0 ∧ reg3 (exec (.thmul 16) (issuedS (thI 9 0 0))) = 400 ∧ reg3 (exec (.thcmp 16) (issuedS (thI 10 0 1))) = 1 := by
  decide +kernel
theorem test_thMoves : ok (exec (.thbr 16) (issuedS (thI 0x0B 2047 0))) (fun t => decide ((thAt (coreAt t 16) 1).pc = 2047)) = true
    ∧ ok (exec (.thjmp 16) (issuedS (thI 0x0C 9 0))) (fun t => decide ((thAt (coreAt t 16) 1).pc = 9)) = true
    ∧ ok (exec (.thbase 16) (issuedS (thI 0x0F 0 0))) (fun t => decide ((thAt (coreAt t 16) 1).base = [21, 0, 0])) = true
    ∧ ok (exec (.thexit 16) (issuedS (thI 0x10 0 0))) (fun t => decide ((thAt (coreAt t 16) 1).live = false ∧ (thAt (coreAt t 16) 2).live = true)) = true := by decide +kernel
theorem test_thMemory : ok (exec (.thlds 16 []) (issuedS (insn 6 0x0D (3 * 2 ^ 104 + opnd 2 1 1 0)))) (fun t => decide ((thAt (coreAt t 16) 1).regs.getD 3 0 = 0x70000)) = true
    ∧ ok (exec (.thsts 16) (issuedS (insn 6 0x0E (4 * 32 * 2 ^ 104 + opnd 2 1 1 8)))) (fun t => decide (rdMem (coreAt t 16).bsn.mem (512 + 8) 2 = [16, 0])) = true := by decide +kernel
/-- A halted core with its work loaded, and the two other modes. -/
def modeS (m : CoreMode) (run : Bool) : State :=
  { tasked with clk := { r0.clk with run := run, wall := 10000 * wallUs }, cores := [(16, { mode := m, lidx := 0, k := 1, th := { loaded := true } })] }
theorem witness_ModesAndControllers : (coreAt (modeS .halt true) 16).th.loaded = true ∧ (coreAt (modeS .halt true) 16).lidx ≠ 0xFF
    ∧ (modeS .broadcast false).clk.run = false ∧ (coreAt (modeS .broadcast true) 16).fenced = false
    ∧ ((coreAt (modeS .threaded true) 16).th.thr.all fun t => !t.live) = true ∧ (coreAt (modeS .threaded true) 16).q = []
    ∧ ((List.range 56).all fun o => decide (objAt (coreAt (modeS .threaded true) 16) o = 0)) = true
    ∧ ([5] : List W256).length ≤ 2048 ∧ (coreAt (thS (thCore (thI 2 0 0))) 16).mode = .threaded
    ∧ (ctxAt (thCore (thI 2 0 0)) 0).state = 1 ∧ (thCore (thI 2 0 0)).th.last < (thCore (thI 2 0 0)).th.thr.length
    ∧ r0.ctl.up = [true, true] ∧ r0.ctl.kick.length = 2 ∧ r0.ctl.restart.length = 2 ∧ (0 : Nat) + 10000 * wallUs ≤ (modeS .halt true).clk.wall
    ∧ r0.clk.wall < 0 + 10000 * wallUs ∧ (modeS .halt true).clk.wall ≤ 0 + 1000000 * wallUs ∧ r0.pwr.recovery = false
    ∧ cType (sealCell 0 (mkHdr 0 0xFE 0 12 3 0 48 0) 0) = 12 ∧ cType (selfC 10 0) ≠ 12
    ∧ cEcrc (sealCell 0 (mkHdr 0 0xFE 0 12 3 0 48 0) 0) = ecrcOf 0 (mkHdr 0 0xFE 0 12 3 0 48 0) 0 := by decide +kernel
theorem test_modes : ok (exec (.coreModeChange 16 .threaded) (modeS .halt true)) (fun t => decide ((coreAt t 16).mode = .threaded) && (thAt (coreAt t 16) 7).live) = true
    ∧ ok (exec (.coreModeChange 16 .threaded) (modeS .broadcast true)) (fun t => decide ((coreAt t 16).mode = .broadcast ∧ Evt.set (corePage 16 + 0x2C) 2 ∈ t.evts)) = true
    ∧ ok (exec (.coreModeChange 16 .broadcast) (modeS .threaded true)) (fun t => decide ((coreAt t 16).modeNext = some .broadcast)) = true
    ∧ ok (exec (.coreReset 16) (thS (thCore (thI 2 0 0)))) (fun t => decide ((coreAt t 16).mode = .halt ∧ (coreAt t 16).bsn.mem = [(514, 7)])) = true := by decide +kernel
theorem test_controllers : ok (exec (.watchdogExpiry 0) (modeS .halt true)) (fun t => decide (t.ctl.leader = 1 ∧ t.ctl.up = [false, true] ∧ t.pwr.cause = 4)) = true
    ∧ ok (exec (.watchdogKick 1) (modeS .halt true)) (fun t => decide (t.ctl.kick = [0, 10000 * wallUs])) = true
    ∧ ok (exec (.watchdogExpiry 0) { modeS .halt true with ctl := { r0.ctl with restart := [some 0, none] } }) (fun t => t.pwr.lost && t.clk.stopNext) = true
    ∧ gives (exec (.controllerRestartDone 1) r0) r0 = true := by decide +kernel
/-- A request of 32 bytes waits at byte 16 of port A's ring. -/
def mbxS : State := setMbxWord .a reqTail 48 (setMbxWord .a reqHead 16 (setMbxWord .a (reqRing + 16) (2 + 2 * 2 ^ 16) r0))
theorem witness_ModesAndControllers_mailbox : mbxWord mbxS .a reqHead % 4096 = 16 ∧ mbxWord mbxS .a reqTail % 4096 ≠ 16
    ∧ bfield (mbxWord mbxS .a (reqRing + 16)) 16 4 ≠ 0 ∧ mbxWord mbxS .b reqHead % 4096 = mbxWord mbxS .b reqTail % 4096
    ∧ mbxS.ctl.replies = [] ∧ (16 : Nat) * (1 + cdiv 1 16) ≤ 4096 - mbxWord mbxS .a replyTail % 4096
    ∧ 16 * (1 + cdiv 1 16) ≤ 4080 - (mbxWord mbxS .a replyTail % 4096 + 4096 - mbxWord mbxS .a replyHead % 4096) % 4096
    ∧ mbxS.pwr.recovery = false ∧ ({ r0.pwr with recovery := true, stage := 0xF } : Pwr).recovery = true
    ∧ (4095 : Nat) < 4096 ∧ (63 : Nat) < 64 ∧ (65534 : Nat) < 65535 ∧ (319 : Nat) < 320
    ∧ regionAt (unitS unitCore (insn 1 5)) 0 = some ⟨0, 0, 1, .a, 65536, 0, 0, 0⟩ ∧ regionAt { unitS unitCore (insn 1 5) with task := { tasked.task with img := some { unitImage with
        regions := [⟨2, 0, 1, .a, 65536, 0, 0, 0⟩] } } } 0 = some ⟨2, 0, 1, .a, 65536, 0, 0, 0⟩
    ∧ Memory.wf r0.hbm.mem = true ∧ (-15 : Int).natAbs ≤ 15
    ∧ (ctxAt { thCore (thI 2 0 0) with fe := { ctx := [(0, { state := 3, prev := 1, fault := 2 })] } } 0).state = 3
    ∧ (List.replicate 112 (0 : Byte)).length ≤ 112 := by decide +kernel
theorem witness_ModesAndControllers_down : ({ r0.ctl with up := [false, true] } : Ctl).up.getD 0 true = false ∧ ({ r0.ctl with up := [false, true] } : Ctl).steps = []
    ∧ (coreAt { mbxS with cores := [(16, { fe := { mtags := [(0, 5)] } })] } 16).fe.mtags ≠ []
    ∧ ({ mode := .halt, rst := some 5 } : Core).rst = some 5 := by decide +kernel
theorem test_mailbox : ok (exec (.serviceMailboxRequest .a (.route 9 30)) r0) (fun t => decide (mget 31 t.fab.route (65536 + 9) = 30)) = true
    ∧ ok (exec (.serviceMailboxRequest .b (.unfence 191)) { r0 with cores := [(191, { fenced := true })] }) (fun t => decide ((coreAt t 191).fenced = false)) = true
    ∧ ok (exec (.threadedStreamHalt 16 0 .hbmUe 77) (thS (thCore (thI 2 0 0)))) (fun t => decide ((ctxAt (coreAt t 16) 0).state = 3 ∧ (ctxAt (coreAt t 16) 0).fault = 2 ∧ (ctxAt (coreAt t 16) 0).faddr = 77)) = true := by
  decide +kernel
theorem witness_ModesAndControllers_fence : (9 : Nat) ≠ r0.sec.modid ∧ ((255 : Nat) < 192 ∨ (255 : Nat) = 255) ∧ ((7 : Nat) < 192 ∨ (7 : Nat) = 255) := by decide +kernel
/-- A mark is no fence until the named switch (R300, R306). -/
theorem test_fenceMarks : (match exec (.serviceMailboxRequest .a (.fence 9 7 true)) r0 with
    | .next t => (match exec (.serviceMailboxRequest .a (.fence 8 255 true)) t with
      | .next u => let w := Sys2Proof.Machine.switchTables true { u with fab := { u.fab with switch := some 0 } }
                   isFenced w 9 7 && isFenced w 8 3 && isFenced w 8 254 && !isFenced w 9 8 && !isFenced (Sys2Proof.Machine.switchTables true u) 9 7 && w.fab.fmarks.isEmpty
      | _ => false)
    | _ => false) = true := by decide +kernel
theorem test_serviceCell : ok (exec (.serviceCellArrival 1) { terS 2 {} with fab := { svc := [(1, [sealCell 0 (mkHdr 0 0xFE 0 12 3 0 48 0) 0])] } })
    (fun t => decide (t.pwr.terrace = 0 ∧ mget [] t.fab.svc 1 = [])) = true := by decide +kernel

/-! ### Tasks and phases, basins, HBM, overflow window -/
/-- An image of 12 streams of one SQEND, two empty memory plans and one committed region of 64 KiB, with the given digest. -/
def rawImage (dig : List Byte) : List Byte :=
  [0, 0, 4, 0, 0, 0, 0, 0] ++ dig ++ [1, 192, 0, 2] ++ leBytes 4 100 ++ leBytes 4 10 ++ [0, 0, 15, 0] ++ List.replicate 8 0
    ++ (List.range 12).flatMap (fun d => leBytes 2 1 ++ leBytes 2 1 ++ leBytes 2 d ++ leBytes 2 0 ++ leBytes 4 (320 + 64 * d) ++ leBytes 4 32)
    ++ (List.range 2).flatMap (fun d => leBytes 2 2 ++ leBytes 2 1 ++ leBytes 2 d ++ leBytes 2 0 ++ leBytes 4 (1088 + 64 * d) ++ leBytes 4 32)
    ++ (leBytes 2 4 ++ leBytes 2 1 ++ leBytes 4 0 ++ leBytes 4 1216 ++ leBytes 4 16) ++ List.replicate 16 0
    ++ (List.range 12).flatMap (fun _ => leBytes 32 (insn 0 3).w0.toNat ++ List.replicate 32 0)
    ++ [0, 0, 1, 0, 0, 32, 32, 32, 32, 1] ++ List.replicate 54 0 ++ [0, 0, 1, 0, 1, 32, 32, 32, 32, 1] ++ List.replicate 54 0 ++ [10] ++ List.replicate 15 0
/-- Its digest, and the image that carries it. -/
def testDigest : List Byte := shake256 (rawImage (List.replicate 32 0))
def testImage : Image := { bytes := rawImage ((List.range 32).map fun k => testDigest.getD k 0) }
theorem testDigest_length : testDigest.length = 32 := by decide +kernel
theorem testImage_digest : imgDigest testImage.bytes = digestField testImage.bytes := by
  have h : ∀ l : List Byte, l.length = 32 → l = (List.range 32).map fun k => l.getD k 0 := by
    intro l hl
    apply List.ext_getElem (by simp [hl])
    intro n h1 h2
    simp [List.getD_eq_getElem?_getD, List.getElem?_eq_getElem h1]
  have h1 : imgDigest testImage.bytes = testDigest := rfl
  have h2 : digestField testImage.bytes = (List.range 32).map fun k => testDigest.getD k 0 := rfl
  rw [h1, h2, ← h _ testDigest_length]
/-- Core 0 alone is not fenced: K is 1. All stacks are trained. -/
def oneCore : State := { owned .a with cores := (List.range 191).map fun p => (p + 1, { fenced := true }), hbm := { r0.hbm with trained := 0xFF } }
/-- The test image passes every check of the loader. -/
theorem witness_image : (checkImage oneCore (leAt 0x2A 1 testImage.bytes) 0 testImage).1 = 0 := by
  have hv : (!versionOk testImage.bytes) = false := by decide +kernel
  have hs : (!structOk testImage.bytes) = false := by decide +kernel
  have hk : ¬ (leAt 0x28 1 testImage.bytes = 0 ∨ 192 < leAt 0x29 1 testImage.bytes ∨ kOf oneCore < leAt 0x28 1 testImage.bytes
      ∨ leAt 0x29 1 testImage.bytes < kOf oneCore) := by decide +kernel
  have hp : patched testImage.bytes (kOf oneCore) = some (rawStreams testImage.bytes, []) := by decide +kernel
  have hd : firstCode (deepCodes oneCore (leAt 0x2A 1 testImage.bytes) 0 testImage (rawStreams testImage.bytes) []) = 0 := by decide +kernel
  simp only [checkImage, hv, hs, testImage_digest, hp, hd, if_neg hk, ne_eq, not_true_eq_false, if_false, Bool.false_eq_true]
/-- The same with a task loaded. -/
def oneTask : State := { oneCore with task := { r0.task with img := some anImage, k := 1 } }
theorem witness_phaseImage : (checkImage oneTask oneTask.clk.fop oneTask.task.modIdx testImage).1 = 0 :=
  (by rfl : (checkImage oneTask oneTask.clk.fop oneTask.task.modIdx testImage).1 = (checkImage oneCore (leAt 0x2A 1 testImage.bytes) 0 testImage).1).trans witness_image
/-- Its region is committed and takes contents, at a load and in a phase that does not carry it. -/
theorem witness_TasksAndPhasesLoad_data : ((placeAll [] (regionsOf testImage.bytes))[0]?).any (fun r => decide (r.kind = 2 ∧ 2 ≤ r.size)) = true
    ∧ ((placePhase anImage.regions (regionsOf testImage.bytes) [])[0]?).any (fun r => decide (r.kind = 2 ∧ 2 ≤ r.size)) = true
    ∧ Memory.wf oneCore.hbm.mem = true := by decide +kernel
theorem witness_TasksAndPhasesLoad : oneCore.pwr.stage = 9 ∧ oneCore.task.img = none ∧ oneCore.pwr.terrace = 0 ∧ oneCore.pwr.busy = false
    ∧ r0.pwr.stage ≠ 9 ∧ tasked.task.img ≠ none ∧ versionOk [] = false ∧ versionOk testImage.bytes = true ∧ structOk testImage.bytes = true
    ∧ kOf { owned .a with cores := (List.range 192).map fun p => (p, { fenced := true }) } < leAt 0x28 1 testImage.bytes
    ∧ (checkImage oneCore 0 0 { bytes := [] }).1 ≠ 0 ∧ oneTask.task.img = some anImage
    ∧ firstCode (phaseCodes oneTask anImage testImage [] 0) = 0 ∧ firstCode (phaseCodes oneTask anImage testImage [] 3) ≠ 0
    ∧ hasArray oneCore 0 = true ∧ ((coreAt oneCore 0).mode = .halt) ∧ (coreAt oneCore 191).fenced = true := by decide +kernel
/-- A phase in state st with its carry list and registers; core 16 holds an index. -/
def phS (st at_ : Nat) (cold run : Bool) (carry : List W32 := []) : State :=
  setReg 0x4344 at_ { unitS unitCore (insn 1 5) with
    host := { r0.host with owner := some .a }, pwr := { r0.pwr with stage := 9 }
    clk := { (unitS unitCore (insn 1 5)).clk with run := run, zone := true }
    task := { tasked.task with img := some { unitImage with regions := [⟨1, 0, 1, .a, 131072, 0, 0, 131072⟩] }, k := 192 }
    phase := { st := st, img := some unitImage, carry := carry, cold := cold } }
/-- Carry region 0 to region 0 with CONV 1. -/
def convW : W32 := 1 <<< 12
theorem witness_TasksAndPhasesLoad_switch : Served (phS 1 100 false true) .a 0x4340 ∧ (phS 1 100 false true).phase.img.isSome = true ∧ (phS 0 100 false true).phase.st ≠ 1
    ∧ farEnough (phS 1 100 false true) 100 = true ∧ farEnough (phS 1 8 false true) 8 = false ∧ cyConv convW = 1
    ∧ holdsIndex (coreAt (phS 1 100 false true) 16) = true ∧ (phS 2 0 false true).phase.st = 2
    ∧ kOf (phS 2 0 false true) = (phS 2 0 false true).task.k ∧ kOf oneTask = oneTask.task.k
    ∧ kOf { phS 2 0 false true with task := { tasked.task with k := 3 } } ≠ 3
    ∧ (phS 3 0 false true).phase.left = 0 ∧ (phS 3 0 true false).clk.run = false ∧ (phS 3 0 true false).task.img.isSome = true
    ∧ ((phS 3 0 true false [convW]).task.img.bind fun im => im.regions[cyOut convW]?).isSome = true ∧ Memory.wf r0.hbm.mem = true
    ∧ 0 + (1 + 1) * 65536 ≤ (131072 : Nat) ∧ Served (phS 0 0 false true) .a 0x0068 ∧ Served (phS 0 0 false false) .a 0x0068 := by unfold Served; decide +kernel
theorem witness_TasksAndPhasesLoad_refused : versionOk [0, 0, 4, 0] = true ∧ structOk [0, 0, 4, 0] = false ∧ (phS 1 100 false true).phase.st = 1
    ∧ (phS 1 8 true true [convW]).phase.cold = true
    ∧ (phS 2 0 false true).fab.switch ≠ some (phS 2 0 false true).phase.tick ∧ (phS 3 0 false true).phase.cold = false ∧ (phS 3 0 true false).phase.cold = true := by decide +kernel
theorem witness_TasksAndPhasesLoad_plain : ∀ w ∈ (phS 3 0 true false).phase.carry, cyConv w ≠ 1 := nofun
theorem witness_TasksAndPhasesLoad_struct : structOk (rawImage (List.replicate 32 0)) = true := by decide +kernel
theorem witness_TasksAndPhasesLoad_digest : ∃ l : List Byte, imgDigest (rawImage l) ≠ digestField (rawImage l) := by
  have e : ∀ l : List Byte, l.length = 32 → imgDigest (rawImage l) = testDigest := by
    intro l h
    simp [imgDigest, testDigest, rawImage, List.append_assoc, List.take_append, h]
  have f : ∀ l : List Byte, l.length = 32 → digestField (rawImage l) = l := by
    intro l h
    simp [digestField, slice, rawImage, List.append_assoc, h]
  by_cases c : testDigest = List.replicate 32 0
  · exact ⟨List.replicate 32 1, by rw [e _ (by simp), f _ (by simp), c]; decide⟩
  · exact ⟨List.replicate 32 0, by rw [e _ (by simp), f _ (by simp)]; exact c⟩
theorem test_imageLoad_refused : ok (exec (.imageLoad { bytes := [] } 0 0 []) oneCore) (fun t => decide (t.out = [.loader 1])) = true
    ∧ gives (exec (.imageLoad testImage 0 0 []) r0) r0 = true := by decide +kernel
theorem test_phaseArm : ok (exec (.phaseArm .a false) (phS 1 100 false true)) (fun t => decide (t.phase.st = 2 ∧ t.phase.tick = 100 ∧ (coreAt t 16).bsn.hswitch = some 100)) = true
    ∧ ok (exec (.phaseArm .a false) (phS 1 8 false true)) (fun t => bbit (regAt t 0x434C) 4 && decide (t.phase.st = 1)) = true
    ∧ ok (exec (.phaseCancel .a) (phS 2 0 false true)) (fun t => decide (t.phase.st = 1)) = true
    ∧ ok (exec .phaseAbort { phS 2 0 false true with task := { tasked.task with k := 3 } }) (fun t => decide (t.phase = {})) = true := by decide +kernel
/-- Arming names the tick for the fabric's tables, a cancel takes it back, the bridge switches them (R360, R363, R365). -/
theorem test_phaseTables : ok (exec (.phaseArm .a false) (phS 1 100 false true)) (fun t => decide (t.fab.switch = some 100)) = true
    ∧ ok (exec (.phaseCancel .a) { phS 2 0 false true with fab := { switch := some 0 } }) (fun t => decide (t.fab.switch = none)) = true
    ∧ (bridgeBanks { phS 3 0 false true with fab := { switch := some 0 } }).fab = { sel := 1 }
    ∧ (bridgeBanks { phS 3 0 false true with fab := { switch := some 7 } }).fab = { switch := some 7 }
    ∧ (coreAt (bridgeBanks (phS 3 0 false true)) 16).bsn.hsel = 1 := by decide +kernel
/-- A committed region takes contents; one of another kind takes none (R239, R362). -/
def fillS : State := { tasked with task := { tasked.task with img := some { anImage with regions := [⟨2, 1, 0, .a, 4096, 64, 0, 0⟩, ⟨0, 0, 0, .a, 4096, 0, 0, 0⟩] } } }
theorem witness_ModesAndControllers_region : (regionAt fillS 0).any (fun r => decide (r.kind = 2 ∧ 3 + 2 ≤ r.size)) = true ∧ fillS.clk.run = false ∧ Memory.wf fillS.hbm.mem = true
    ∧ (match fillS.task.img with | some im => (im.regions[1]?).any (fun r => decide (r.kind ≠ 2)) | none => false) = true := by decide +kernel
theorem test_fillRegions : ok (exec (.serviceMailboxRequest .a (.region 0 3 [5, 6])) fillS) (fun t => t.hbm.mem.map (·.2) == [5, 6] && t.hbm.mem.map (fun c => c.1 % 2 ^ 40) == [3 + ((regionAt fillS 0).map (·.base)).getD 0, 4 + ((regionAt fillS 0).map (·.base)).getD 0]) = true
    ∧ ok (exec (.serviceMailboxRequest .a (.region 1 3 [5, 6])) fillS) (fun t => t.hbm.mem.isEmpty) = true
    ∧ (fillRegions [⟨2, 0, 0, .a, 4096, 0, 0, 0⟩] (fun i => decide (i ≠ 0)) [(0, [9])] r0).hbm.mem = [] := by decide +kernel
theorem test_phaseBridge : ok (exec .phaseBridge (phS 3 0 false true)) (fun t => decide (t.phase = { seq := 1 } ∧ t.task.img = some unitImage ∧ (coreAt t 16).bsn.hsel = 0)) = true := by
  decide +kernel
theorem test_coldBoundary : ok (exec .coldBoundary { phS 3 0 true false with hbm := { r0.hbm with mem := [(131073, 7)] } }) (fun t => decide (t.hbm.mem = [(131073, 7)] ∧ t.phase = { seq := 1, cold := true })) = true
    ∧ gives (exec .coldBoundary (phS 3 0 true true)) (phS 3 0 true true) = true := by decide +kernel
theorem test_taskReset : ok (exec (.taskReset .a) (phS 0 0 false true)) (fun t => t.cmt.resetPend) = true
    ∧ ok (exec (.taskReset .a) (phS 0 0 false false)) (fun t => decide (t.task.img = none ∧ (coreAt t 16).lidx = 0xFF ∧ (coreAt t 16).mode = .halt)) = true := by decide +kernel
/-- Lc 10,001 is a deposit slot of bank 1; core 16's deposit buffer as given. -/
def depS (l : List Dep) : State := unitS { unitCore with bsn := { unitCore.bsn with dep := l } } (insn 1 5)
def dep (cls bank : Nat) (hnd : Nat := 64) (resp : Option (Nat × Nat × Nat) := none) : Dep := { cls := cls, bank := bank, row := 7, bytes := [9, 9], hnd := hnd, lrow := 1, resp := resp }
/-- Rows (0, 5) marked, its error count as given; spares taken up to n; sink flag F9 of handle 1 holds 1. -/
def repS (n cnt : Nat) : State :=
  let s := unitS { unitCore with obj := [(9, 1)], bsn := { unitCore.bsn with marked := [(5, cnt = 0)], suspect := [(5, (cnt, false))], spare := (List.range n).map fun k => (k + 100, k) } } (insn 1 5)
  { s with clk := { s.clk with zone := true, bodyEnd := some 9 }, task := { s.task with img := some { unitImage with strms := [⟨7, 0, 1, 0, 9, 1⟩] } } }
/-- An overflow read of 2 rows with tag 3, sent or not, n rows waiting in the deposit buffer. -/
def ovQ (sent : Bool) : OvReq := { tag := 3, port := .a, spans := [(0, 256)], rows := 2, hnd := 1, off := 0, sent := sent }
def ovS (sent : Bool) (n : Nat) : State :=
  unitS { unitCore with fe := { unitCore.fe with mtags := [(3, 2)], ov := [ovQ sent] }, bsn := { unitCore.bsn with dep := List.replicate n (dep 3 0) } } (insn 1 5)
theorem witness_BasinAndOverflowUpkeep : isDepositSlot (depS []) (depS []).clk.lc 1 = true ∧ isDepositSlot (depS []) (depS []).clk.lc 0 = false
    ∧ (coreAt (depS []) 16).bsn.blog = [] ∧ (coreAt (depS [dep 3 1, dep 1 1]) 16).bsn.dep[1]? = some (dep 1 1) ∧ (dep 2 1 1 (some (2, 4, 0))).resp = some (2, 4, 0)
    ∧ (epAt (coreAt (depS []) 16) 2).rseq < 16384 ∧ (coreAt (repS 0 0) 16).bsn.marked.find? (fun x => decide (x.1 = 5)) = some (5, true) ∧ (repS 0 4).clk.zone = true ∧ (repS 0 4).clk.bodyEnd ≠ none
    ∧ (coreAt (repS 0 4) 16).bsn.marked.find? (fun x => decide (x.1 = 5)) = some (5, false) ∧ (unitS unitCore (insn 1 5)).clk.zone = false ∧ freeSpares (coreAt (repS 16 0) 16).bsn 0 = [] ∧ freeSpares (coreAt (repS 1 0) 16).bsn 0 ≠ []
    ∧ sinkOf (repS 0 0) 9 = some 1 ∧ objAt (coreAt (repS 0 0) 16) 9 - sumFor 9 (coreAt (repS 0 0) 16).takes = 1 ∧ sinkOf (repS 0 0) 8 = none
    ∧ (repS 0 0).clk.run = true ∧ (coreAt (ovS true 62) 16).fe.ov = [] ++ ovQ true :: [] ∧ (coreAt (ovS true 62) 16).bsn.dep.length + 2 ≤ 64
    ∧ 64 < (coreAt (ovS true 63) 16).bsn.dep.length + 2 ∧ (List.replicate 256 (0 : Byte)).length = 128 * 2
    ∧ bar0Open (owned .a) (hpPage .a + 0x110) = true ∧ mayWrite (owned .a) .a (hpPage .a + 0x110) = true := by decide +kernel
/-- A thread's stream halted on a miss of port A. -/
def haltedS : State := unitS { mode := .threaded, fe := { ctx := [(0, { state := 3, prev := 2, fault := 1 })], ov := [{ ovQ true with work := some (wk (insn 1 8)) }] } } (insn 1 5)
/-- A ford read that lies in two rows; a trusted access; a core that awaits its reset. -/
def twin (part : Nat) : Dep := { dep 2 1 1 (some (2, 4, 0)) with part := part, len := 64 }
theorem witness_BasinAndOverflowUpkeep_served : scheduledHere (depS []) 16 1 = false ∧ (coreAt (depS [twin 1, twin 2]) 16).bsn.dep.any (isTwin (twin 1)) = true
    ∧ (coreAt (depS [twin 1]) 16).bsn.up.any (isTwin (twin 1)) = false ∧ ({ unitCore.bsn with trust := [dep 1 1] } : Bsn).trust[0]? = some (dep 1 1)
    ∧ (hndAt (coreAt (depS []) 16) 1).kind ≠ 2 ∧ ({ unitCore with rst := some 5 } : Core).rst ≠ none ∧ r0.ctl.up.getD 0 true = true
    ∧ ({ r0.ctl with up := [false, true] } : Ctl).up.getD 0 true = false ∧ (unitS unitCore (insn 1 5)).clk.run = true
    ∧ (coreAt haltedS 16).mode = .threaded ∧ ((coreAt haltedS 16).fe.ctx.map (·.1)).Nodup ∧ (ctxAt (coreAt haltedS 16) 0).state = 3
    ∧ (coreAt haltedS 16).fe.ov.map (fun q => q.work.isSome) = [true] ∧ dmaHeld haltedS .a + (hostReads .a [] 16 3).length ≤ 4096
    ∧ ((List.replicate 256 (0 : Byte)).length / 128, (List.replicate 256 (0 : Byte)).length % 128) = (2, 0) := by decide +kernel
theorem test_twins : ok (exec (.depositSlotAccess 16 1 []) (depS [twin 1, twin 2])) (fun t => decide ((coreAt t 16).bsn.dep.map (·.bytes.length) = [64] ∧ (inStop t).length = 0)) = true
    ∧ ok (exec (.overflowResume .a) { haltedS with host := { r0.host with owner := some .a }, pwr := { r0.pwr with stage := 9 } }) (fun t => decide ((ctxAt (coreAt t 16) 0).state = 2)) = true := by decide +kernel
theorem test_depositSlotAccess : ok (exec (.depositSlotAccess 16 1 []) (depS [dep 3 1, dep 1 1])) (fun t => decide ((coreAt t 16).bsn.dep = [dep 3 1] ∧ rdMem (coreAt t 16).bsn.mem ((1040 + 7) * 128) 2 = [9, 9])) = true
    ∧ gives (exec (.depositSlotAccess 16 0 []) (depS [dep 3 0])) (depS [dep 3 0]) = true
    ∧ ok (exec (.depositSlotAccess 16 0 []) { depS [dep 2 0 1 (some (2, 4, 0))] with task := {} }) (fun t => decide ((inStop t).length = 3)) = true
    ∧ ok (exec (.basinScrubWriteback 16 1 5 0) (depS [])) (fun t => decide ((coreAt t 16).bsn.blog = [1])) = true := by decide +kernel
theorem test_fieldRepair : ok (exec (.fieldRepair 16 0 5) (repS 1 0)) (fun t => decide ((coreAt t 16).bsn.spareNext = [(5, 1)] ∧ (coreAt t 16).bsn.marked = [])) = true
    ∧ ok (exec (.fieldRepair 16 0 5) (repS 16 0)) (fun t => bbit t.cmt.src 15) = true
    ∧ ok (exec (.elasticSinkDrain 16 9) (repS 0 0)) (fun t => decide ((coreAt t 16).takes = [(9, 1)] ∧ mget 0 (coreAt t 16).bsn.sink 1 = 1)) = true := by decide +kernel
theorem test_overflow : ok (exec (.overflowCompletion 16 3 0 (List.replicate 256 0)) (ovS true 62)) (fun t => decide ((coreAt t 16).bsn.dep.length = 64 ∧ (coreAt t 16).fe.ov = [])) = true
    ∧ ok (exec (.overflowCompletion 16 3 0 (List.replicate 256 0)) (ovS true 63)) (fun t => decide ((coreAt t 16).bsn.dep.length = 64 ∧ (coreAt t 16).bsn.up.length = 1)) = true
    ∧ ok (exec (.overflowCompletion 16 3 1 (List.replicate 128 0)) (ovS true 62)) (fun t => decide ((coreAt t 16).bsn.dep.length = 62 ∧ (coreAt t 16).fe.ov.map (fun q => (q.done, q.came.length)) = [(0, 1)])) = true
    ∧ ok (exec (.pcieCompletionError 16 3) (ovS true 0)) (fun t => bbit t.cmt.src 4 && decide ((coreAt t 16).bsn.dep.map (·.mtag) = [none, some 3] ∧ (coreAt t 16).fe.ov = [])) = true := by decide +kernel
theorem test_hbm : ok (exec (.hbmRefresh 7 31) edgeS) (fun t => decide (t.hbm.refresh = [(255, 1000000)])) = true
    ∧ ok (exec (.hbmScrub 0 9 [.hbmCe 0 9]) { edgeS with task := tasked.task, hbm := { r0.hbm with scrub := [9] } }) (fun t => decide (t.hbm.scrub = [] ∧ t.evts.length = 1)) = true := by decide +kernel
/-- A miss pending for n slots; port A counts it, with MISS_TMO 5. -/
def missS (n : Nat) : State :=
  setReg (hpPage .a + 0x10C) (2 ^ 31) (setReg (hpPage .a + 0x110) (5 * 65536) { tasked with cmt := { r0.cmt with missSlots := some n, missPorts := [.a] } })
/-- A copy owes granule 0 of port A; its entry is mapped and writable; entry XIDX names granule 0. -/
def copyOwed (up : Bool) : State :=
  { owned .a with host := { r0.host with owner := some .a, pa := { up := up, xlat := [(0, 3)] }, copy := [⟨.a, 2 ^ 21, 0, [1, 2], true⟩] } }
theorem witness_BasinAndOverflowUpkeep_window : (missS 5).cmt.missSlots = some 5 ∧ missTmo (missS 5) ≤ 5 ∧ (missS 5).cmt.resumed = false ∧ 4 < missTmo (missS 4)
    ∧ Served (copyOwed true) .a (hpPage .a + 0x104) ∧ fieldAt (copyOwed true) (hpPage .a + 0x100) 0 23 = 0
    ∧ (copyOwed true).host.copy.any (fun o => decide (o.port = .a ∧ o.gran = 0 ∧ o.ok = true)) = true
    ∧ bbit (xlatAt (copyOwed true) .a 0).toNat 1 = true ∧ bbit (1 : W64).toNat 1 = false ∧ (hpAt (copyOwed false) .a).up = false
    ∧ ((List.range 192).all fun p => (coreAt (copyOwed true) p).fe.ov.isEmpty) = true := by unfold Served; decide +kernel
theorem test_window : ok (exec .overflowTimeout (missS 5)) (fun t => decide (t.cmt.st = 2 ∧ t.cmt.missSlots = none) && bbit (regAt t 0x4010) 2) = true
    ∧ ok (exec (.overflowResume .a) (missS 4)) (fun t => t.cmt.resumed) = true
    ∧ ok (exec (.ovfXentWrite .a 1) (copyOwed true)) (fun t => decide (t.host.pa.xlatNext = [])) = true
    ∧ ok (exec (.ovfXentWrite .a 3) (copyOwed true)) (fun t => decide (t.host.pa.xlatNext = [(0, 3)] ∧ t.host.pa.xlat = [(0, 3)])) = true
    ∧ ok (exec (.overflowStagingCopy .a) (copyOwed true)) (fun t => decide (t.host.copy = [] ∧ t.out = [.hostWrite .a (2 ^ 21) [1, 2]])) = true := by decide +kernel

/-! ### Fabric links and routers -/
/-- Fabric port 3 as given; enabled or not. -/
def lkS (en : Bool) (l : LPort) : State :=
  setReg (lnkPage 3 + 0x20) (b2n en) { owned .a with fab := { port := [(3, l)] }, clk := { edgeClk with wall := 5 * wallUs } }
/-- A port that is UP, with two cells to replay. -/
def upL : LPort := { st := 2, major := 3, cred := halfCells, rx := 4, tx := 9, replay := [(7, chanC 0 5), (8, chanC 1 6)] }
/-- A capability cell that lists majors as given, each at minor 0. -/
def capP (two three : Bool) : BitVec 384 :=
  BitVec.ofNat 384 ((if two then 0 else 255) * 2 ^ 16 + (if three then 0 else 255) * 2 ^ 24 + 2 ^ 376)
/-- A good cell for link sequence 4. -/
def goodC : FCell := linkTrailer 4 0 (chanC 0 5)
/-- A LINKCTL cell. -/
def ctlC : FCell := ⟨mkHdr 0 0 0 13 3 0 48 0, 0, 0⟩
theorem witness_LinksTrainAndRetry : fieldAt (lkS true {}) (lnkPage 3 + 0x20) 0 1 = 1 ∧ fieldAt (lkS false {}) (lnkPage 3 + 0x20) 0 1 = 0
    ∧ (lkS true {}).pwr.stage = 9 ∧ (lpAt (lkS true {}) 3).st = 0 ∧ (lpAt (lkS true upL) 3) = upL
    ∧ ([(true, true), (true, false), (false, true), (false, false)].map fun x => (bfield (capP x.1 x.2).toNat 16 8, bfield (capP x.1 x.2).toNat 24 8, bfield (capP x.1 x.2).toNat 376 8))
        = [(0, 0, 1), (0, 255, 1), (255, 0, 1), (255, 255, 1)]
    ∧ upL.replay = [] ++ (7 % 8192, chanC 0 5) :: [(8, chanC 1 6)] ∧ upL.replay = [(7, chanC 0 5)] ++ (8 % 8192, chanC 1 6) :: [] ∧ (7 : Nat) ≠ 8
    ∧ (∀ x ∈ upL.replay, x.1 ≠ 6 % 8192)
    ∧ bar0Open (lkS true {}) (lnkPage 3 + 0x20) = true ∧ mayWrite (lkS true {}) .a (lnkPage 3 + 0x20) = true ∧ Served (lkS true {}) .a (lnkPage 3 + 0x20)
    ∧ (lkS true {}).clk.wall ≤ 0 + 10000000 * wallUs
    ∧ bfield goodC.trl.toNat 0 16 = lcrcOf goodC ∧ bfield goodC.trl.toNat 19 13 = upL.rx ∧ cType goodC = 0 ∧ cType ctlC = 13
    ∧ bfield (linkTrailer 5 0 (chanC 0 5)).trl.toNat 19 13 ≠ upL.rx ∧ (lkS true {}).clk.run = true := by unfold Served; decide +kernel

theorem test_training : ok (exec (.linkTraining 3 false 77) (lkS true {})) (fun t => decide ((lpAt t 3).st = 1 ∧ (lpAt t 3).delay = 77 ∧ t.out.length = 1)) = true
    ∧ ok (exec (.linkTraining 3 false 77) (lkS true { st := 1, major := 3 })) (fun t => decide ((lpAt t 3).st = 2)) = true
    ∧ ok (exec (.linkTraining 3 true 77) (lkS true { st := 1, major := 3 })) (fun t => decide ((lpAt t 3).st = 1 ∧ (lpAt t 3).trained = false)) = true
    ∧ ok (exec (.capabilityCellArrival 3 (capP true false)) (lkS true { st := 1, trained := true, slow := true })) (fun t => decide ((lpAt t 3).st = 2 ∧ (lpAt t 3).major = 2)) = true
    ∧ ok (exec (.capabilityCellArrival 3 (capP false false)) (lkS true { st := 1 })) (fun t => decide ((lpAt t 3).st = 3)) = true
    ∧ ok (exec (.trainingTimeout 3) (lkS true { st := 1, lostUp := true })) (fun t => decide ((lpAt t 3).st = 0 ∧ (lpAt t 3).fails = [5 * wallUs])) = true
    ∧ ok (exec (.portFence 3) (lkS true { lostUp := true, fails := [0, 1, 2] })) (fun t => decide ((lpAt t 3).st = 4 ∧ t.fab.fportNext = [3])) = true
    ∧ ok (exec (.portDown 3 .silence) (lkS true upL)) (fun t => decide ((lpAt t 3).st = 0) && bbit t.cmt.src 5) = true
    ∧ gives (exec (.portDown 3 .resends) (lkS true { upL with tries := 15 })) (lkS true { upL with tries := 15 }) = true := by decide +kernel
theorem test_retry : ok (exec (.linkRetrain .a 3) (lkS true upL)) (fun t => decide ((lpAt t 3).st = 2 ∧ (lpAt t 3).leaving = true)) = true
    ∧ ok (exec (.linkEnable .a 3 false) (lkS true { upL with replay := [] })) (fun t => decide ((lpAt t 3).st = 0 ∧ fieldAt t (lnkPage 3 + 0x20) 0 1 = 0)) = true
    ∧ ok (exec (.linkctlAck 3 7 [2]) (lkS true upL)) (fun t => decide ((lpAt t 3).replay = [(8, chanC 1 6)] ∧ (lpAt t 3).cred.getD 0 0 = 1026)) = true
    ∧ ok (exec (.linkctlAck 3 8 []) (lkS true { upL with leaving := true, retrainAfter := true })) (fun t => decide ((lpAt t 3).st = 1)) = true
    ∧ ok (exec (.linkctlNak 3 8 []) (lkS true upL)) (fun t => decide (t.out = [.cell 3 (chanC 1 6)] ∧ (lpAt t 3).tries = 1)) = true
    ∧ ok (exec (.ackTimeout 3) (lkS true upL)) (fun t => decide (t.out.length = 2)) = true
    ∧ ok (exec (.ackSend 3) (lkS true { upL with owed := 9 })) (fun t => decide (t.out.length = 1 ∧ (lpAt t 3).owed = 0)) = true := by decide +kernel
theorem test_linkReceive : ok (exec (.linkCellReceive 3 goodC 1 false 0) (lkS true upL))
      (fun t => decide ((lpAt t 3).rx = 5 ∧ t.fab.col.map (fun w => (w.due, w.dst, w.cell.vc, w.cell.hi)) = [(1000008, .stop (stopKey 0 0 1) 1, 0, true)])) = true
    ∧ ok (exec (.linkCellReceive 3 (linkTrailer 5 0 (chanC 0 5)) 0 false 0) (lkS true upL)) (fun t => decide ((lpAt t 3).nak = true ∧ t.out.length = 1)) = true
    ∧ ok (exec (.linkCellReceive 3 goodC 0 true 2) (lkS true { upL with nak := true })) (fun t => decide (t.out = [] ∧ (lpAt t 3).rx = 4)) = true := by decide +kernel

/-- A cell to a core, endpoint 9, of a module; its entry in a stop, from core 16. -/
def toC (mod core : Nat) (ty : Nat := 0) : FCell := sealCell (srcId 0 16 2) (mkHdr mod core 9 ty 0 0 48 0) 5
def ent (c : FCell) : RCell := { cell := c, src := 16, sep := 2 }
/-- The cell is due in its col, 8 lc on. -/
def colRun (o : Host.Outcome State Fault Refusal) (P : State → Bool) : Bool :=
  ok o fun t => P (colLc { t with clk := { t.clk with now := 1000008 } })
/-- A stop that holds only that; module 5 is routed to port 3, 6 to the fenced port 4; port 3 as given. -/
def roS (die x y i : Nat) (r : RCell) (l : LPort := upL) : State :=
  { edgeS with clk := { edgeClk with npq := 4000 }, fab := { port := [(3, l)], fport := [4], fcore := [20], route := [(5, 3), (6, 4)], stop := [(stopKey die x y, { ins := [(i, [r])] })] } }
theorem witness_RoutersForwardCells : stopOf 16 = (0, 2, 0) ∧ ((portPlace 3).1, (portPlace 3).2.1, (portPlace 3).2.2.1) = (0, 0, 1)
    ∧ ([(toC 0 16), (toC 5 16), (toC 0 0xFE 12), (toC 5 16 12)].all fun c => !isMcast (ent c) && !isMcast { ent c with toCore := some 16 }) = true
    ∧ mget {} (roS 0 2 0 1 (ent (toC 0 16))).fab.stop (stopKey 0 2 0) = { ins := [(1, [ent (toC 0 16)])] }
    ∧ target (roS 0 2 0 1 (ent (toC 0 16))) (ent (toC 0 16)) = .core 16 9 ∧ target (roS 0 2 0 1 (ent (toC 0 0xFE 12))) (ent (toC 0 0xFE 12)) = .ctl 0
    ∧ target (roS 0 0 1 1 (ent (toC 5 16))) (ent (toC 5 16)) = .port 3 ∧ (ent (toC 5 16)).from_ = none
    ∧ (upL.st = 2 ∧ upL.leaving = false ∧ 0 < upL.cred.getD (halfIdx 0 false) 0 ∧ upL.replay.length < 4096 ∧ cType (toC 5 16 12) = 12)
    ∧ atTgt 0 5 0 (.core 16 9) = false ∧ atTgt 0 2 0 (.core 16 9) = true
    ∧ target (roS 0 2 0 0 (ent (toC 0 20))) (ent (toC 0 20)) = .absorb 0 20 ∧ target (roS 0 2 0 0 (ent (toC 6 20))) (ent (toC 6 20)) = .absorb 6 20
    ∧ cType (toC 6 20 14) ∉ [0, 1, 2, 3, 5, 6, 9, 10] ∧ (ent (toC 0 20)).src < 192
    ∧ r0.clk.run = false ∧ edgeS.clk.run = true ∧ r0.pwr.spares = 0 ∧ colsOpen (roS 0 2 0 1 (ent (toC 0 16))) = true ∧ colsOpen edgeS = false
    ∧ (roS 0 2 0 1 (ent (toC 0 16))).clk.now < ({ ent (toC 0 16) with rdy := 1000001 } : RCell).rdy ∧ (mget {} (roS 0 2 0 1 (ent (toC 0 16))).fab.stop (stopKey 0 2 0)).at_ ≠ 1000001
    ∧ target edgeS (ent (toC 0 250 6)) = .noIndex ∧ target edgeS (ent (toC 0 250)) = .discard ∧ hopLcs 0 2 0 4 = 0 ∧ hopLcs 0 5 0 3 = 6 ∧ hopLcs 0 11 0 3 = 30
    ∧ onWay edgeS (.stop 5 1) 0 = 0 ∧ toPort edgeS 3 0 = (0, 0) := by decide +kernel
theorem test_routerForward : ok (exec (.routerForward 0 2 0) (roS 0 2 0 1 (ent (toC 0 16)))) (fun t => decide ((coreAt t 16).ch.inbox = [(9, toC 0 16)])) = true
    ∧ colRun (exec (.routerForward 0 5 0) (roS 0 5 0 1 (ent (toC 0 0xFE 12)))) (fun t => decide ((mget [] t.fab.svc 0).length = 1)) = true
    ∧ colRun (exec (.routerForward 0 0 1) (roS 0 0 1 3 (ent (toC 5 16)))) (fun t => decide (t.out.length = 1 ∧ (lpAt t 3).tx = 10 ∧ (lpAt t 3).cred.getD 0 0 = 1023)) = true
    ∧ colRun (exec (.routerForward 0 0 1) (roS 0 0 1 3 (ent (toC 5 16)) {})) (fun t => decide (t.out = []) && bbit t.cmt.src 5) = true
    ∧ colRun (exec (.routerForward 0 0 1) (roS 0 0 1 3 (ent (toC 5 16)) { upL with major := 2 })) (fun t => decide (t.out = []) && (coreAt t 16).ch.inbox.all fun x => cPay x.2 6 1 == 5) = true
    ∧ colRun (exec (.routerForward 0 0 1) (roS 0 0 1 3 { ent (toC 5 16) with src := 256 + 3 } { upL with major := 2 })) (fun t => decide (t.out.length = 1)) = true
    ∧ ok (exec (.routerForward 0 2 1) (roS 0 2 1 4 (ent (toC 0 16)))) (fun t => decide ((mget [] (mget {} t.fab.stop (stopKey 0 2 0)).ins 4).map (fun r => (r.cell, r.rdy)) = [(toC 0 16, 1000002)])) = true
    ∧ ok (exec (.routerForward 0 2 0) (roS 0 2 0 0 (ent (toC 0 20)))) (fun t => (coreAt t 16).ch.inbox.map (·.1) == [2] && (coreAt t 16).ch.inbox.all fun x => cType x.2 == 7 && cPay x.2 6 1 == 5) = true
    ∧ ok (exec (.routerForward 0 2 0) (roS 0 2 0 0 (ent (toC 6 20 14)))) (fun t => decide (t.cores = [])) = true
    ∧ ok (exec (.routerForward 0 2 0) (roS 0 2 0 0 { ent (toC 0 16) with rdy := 1000001 })) (fun t => decide ((coreAt t 16).ch.inbox = [])) = true
    ∧ ok (exec (.routerForward 0 11 0) (roS 0 11 0 1 (ent (toC 0 190)))) (fun t => decide (t.fab.col.map (·.due) = [1000030])) = true := by decide +kernel
/-- A branch of a multicast cell of core 16 to members 1 and 2 of group 0, for the fenced port 4. -/
def mcEnt : RCell := { cell := sealCell (srcId 0 16 2) (mkHdr 0xFFFF 0 0 5 0 0 40 0) (6 * 2 ^ 320), src := 16, sep := 2, toPort := some 4 }
def mcS : State := let s := roS 0 2 0 0 mcEnt; { s with fab := { s.fab with member := [(1, (7, 3, 9)), (2, (8, 4, 9))] } }
theorem witness_RoutersForwardCells_multicast : isMcast mcEnt = false ∧ target mcS mcEnt = .absorb 0xFFFF 0 ∧ mcEnt.src < 192 ∧ cDmod mcEnt.cell = 0xFFFF
    ∧ cType mcEnt.cell = 5 ∧ cDmod (toC 6 20) ≠ 0xFFFF ∧ mget {} mcS.fab.stop (stopKey 0 2 0) = { ins := [(0, [mcEnt])] } := by decide +kernel
theorem test_multicastAbsorbed : ok (exec (.routerForward 0 2 0) mcS) (fun t => decide
    ((coreAt t 16).ch.inbox.map (fun x => (x.1, cType x.2, cPay x.2 6 1, cPay x.2 7 1, cPay x.2 8 2)) = [(2, 7, 5, 3, 7), (2, 7, 5, 4, 8)])) = true := by decide +kernel
/-- A committed region of 4 KiB at HBM byte 0 of die 0, and a journal batch of slot 7 on die 0. -/
def extS (run : Bool) : State :=
  { r0 with clk := { edgeClk with run := run, num := 7 }, task := { tasked.task with img := some { anImage with regions := [⟨2, 0, 0, .a, 4096, 0, 0, 0⟩] } }
            cmt := { jnl := [{ die := 0, slot := 7 }, { die := 1, slot := 7 }] } }
/-- An EXTERN cell of the controller of die 0 of module 7. -/
def extCell : FCell := sealCell (srcId 7 0xFE 0) (mkHdr 0 0xFE 0 14 0 0 48 0) 5
/-- A word for stop 0 is due, or not yet. -/
def colW (due : Nat) : State := { r0 with clk := { r0.clk with now := 8 }, fab := { col := [⟨due, .stop 0 1, ent (toC 0 16)⟩] } }
theorem witness_RoutersForwardCells_cols : colsOpen (colW 8) = true ∧ (colW 8).fab.col.map (·.due) = [8] ∧ (8 : Nat) ≤ (colW 8).clk.now ∧ (colW 9).clk.now < 9
    ∧ cType (toC 5 16) ∈ [0, 1, 2, 3, 5, 6, 9, 10] ∧ ({ upL with major := 2 } : LPort).major = 2 := by decide +kernel
theorem test_col : (colLc (colW 8)).fab.col = [] ∧ colLc (colW 9) = colW 9 := by decide +kernel
theorem witness_RoutersForwardCells_extern : (regionAt (extS false) 0).any (fun d => decide (d.kind = 2 ∧ 0 + 128 * 2 ≤ d.size)) = true
    ∧ cType extCell = 14 ∧ cValid extCell = 48 ∧ externOk 7 extCell = true ∧ (extS true).clk.run = true := by decide +kernel
theorem test_extern : ok (exec (.externTransfer 0 0 0 2 5) (extS false)) (fun t => decide ((t.fab.col.map fun w => cValid w.cell.cell) = [48, 48, 48, 48, 48, 16])) = true
    ∧ ok (exec (.externTransfer 0 0 0 2 5) (extS true)) (fun t => decide (t.host.ext = [(0, 0, 0, 2, 5)])) = true
    ∧ ok (exec (.externArrival 0 7 extCell) (extS true)) (fun t => decide (t.cmt.jnl.map (fun e => e.pkts.length) = [1, 0])) = true
    ∧ ok (exec .saddleSpareLane r0) (fun t => decide (t.pwr.spares = 1) && bbit (regAt t (sdlPage + 0x10)) 0) = true
    ∧ gives (exec .saddleSpareLane { r0 with pwr := { r0.pwr with spares := 8 } }) { r0 with pwr := { r0.pwr with spares := 8 } } = true := by decide +kernel

/-! ### Registers and interrupts -/
/-- A write to BAR0 of the owned module in state s. -/
def wr0 (a v : Nat) (s : State := owned .a) : Host.Outcome State Fault Refusal := exec (.registerWrite .a 0 a (BitVec.ofNat 32 v)) s
/-- Port B's write of an offset that port A has written in this lc. -/
def bothS : State := { owned .b with host := { r0.host with owner := some .b, wrote := [0x2014], wroteAt := (owned .b).clk.now } }
/-- The tick page is locked. -/
def lockS : State := setReg 0x2008 1 (owned .a)
/-- A half of PAGE_CTL of the tick page, the other half disagreeing. -/
def halfS (v : Nat) : State := { owned .a with host := { r0.host with owner := some .a, pa := { halves := [(0x2808, BitVec.ofNat 32 v)] } } }
theorem witness_RegistersAnswerHosts : pageFam 7 = none ∧ pageFam 2 = some (.tck, 0) ∧ pageFam 0x100 = some (.core, 0) ∧ (owned .a).pwr.stage = 9
    ∧ mayWrite (owned .a) .a 0x2014 = true ∧ mayWrite (owned .b) .a 0x2014 = false ∧ (0x2014 ∈ bothS.host.wrote ∧ bothS.host.wroteAt = bothS.clk.now)
    ∧ mayWrite bothS .b 0x2014 = true
    ∧ (famFlds .core 0xA0).any (fun x => decide (x.acc = .rw)) = true ∧ (famFlds .core 0xA0).all (fun x => decide (x.acc ≠ .pw)) = true
    ∧ 319 < bfield 320 0 9 ∧ ¬ 319 < bfield 319 0 9 ∧ 0x80000000 &&& resMask (famFlds .core 0xA0) ≠ 0 ∧ 319 &&& resMask (famFlds .core 0xA0) = 0
    ∧ locked (owned .a) 0x2020 = false ∧ locked lockS 0x2020 = true ∧ locked (setReg (corePage 0 + 8) 1 (owned .a)) (corePage 0 + 0xA0) = true
    ∧ (∃ x ∈ famFlds .tck 8, x.acc = .pw) ∧ halfAt (owned .a) .a 0x2808 = none ∧ halfAt (halfS 5) .a 0x2808 = some 5
    ∧ (1 ^^^ 5) &&& pairMask (famFlds .tck 8) ≠ pairMask (famFlds .tck 8) ∧ bbit 1 0 ≠ bbit (2 ^ 32 - 2) 0
    ∧ halfAt (halfS (2 ^ 32 - 2)) .a (0x2008 + 0x800) = some (2 ^ 32 - 2) ∧ edgeS.clk.run = true ∧ (owned .a).clk.run = false
    ∧ (1 &&& (2 ^ 32 - 1 - regAt (owned .a) 0x2014) &&& regAt (setReg 0x2010 1 (owned .a)) 0x2010) ≠ 0
    ∧ (0x2044 % 0x1000 < 0x800 ∧ ∃ x ∈ bar0Flds 0x2008, x.acc = .pw) ∧ corePage 191 + 0xC8 < 0x4000000
    ∧ (owned .a).host.irqWall = none ∧ ((owned .a).host.owner = some .a) := by decide +kernel
theorem test_registerWrite : gives (wr0 0x7000 1) (owned .a) = true
    ∧ gives (exec (.registerWrite .b 0 0x2014 1) (owned .a)) (refuseWrite .b 0x2014 2 (owned .a)) = true
    ∧ ok (exec (.registerWrite .b 0 0x2014 1) bothS) (fun t => decide (fieldAt t 0x70 0 16 = 1 ∧ regAt t 0x74 = 0x2014 ∧ regAt t 0x2014 = 0)) = true
    ∧ ok (wr0 (corePage 0 + 0xA0) 320) (fun t => decide (regAt t (corePage 0 + 0xA0) = regAt (owned .a) (corePage 0 + 0xA0) ∧ fieldAt t (corePage 0 + 0x1C) 0 32 = 1)) = true
    ∧ ok (wr0 (corePage 0 + 0xA0) 319) (fun t => decide (regAt t (corePage 0 + 0xA0) = 319)) = true
    ∧ ok (wr0 (corePage 0 + 0xA0) (7 + 2 ^ 31)) (fun t => decide (regAt t (corePage 0 + 0xA0) = 7 ∧ bfield (regAt t (corePage 0 + 0x18)) 12 4 = 4)) = true
    ∧ ok (wr0 (corePage 0 + 0xA0) 7 (setReg (corePage 0 + 8) 1 (owned .a))) (fun t => decide (regAt t (corePage 0 + 0xA0) = 0 ∧ bfield (regAt t (corePage 0 + 0x18)) 12 4 = 5)) = true
    ∧ ok (wr0 0x2010 2 (setReg 0x2010 3 (owned .a))) (fun t => decide (regAt t 0x2010 = 1)) = true
    ∧ ok (wr0 0x2014 1 (setReg 0x2010 1 (owned .a))) (fun t => decide (t.host.irqOwed = [2])) = true := by decide +kernel
theorem test_pairs : ok (wr0 0x2008 1) (fun t => decide (halfAt t .a 0x2008 = some 1 ∧ regAt t 0x2008 = 0)) = true
    ∧ ok (wr0 0x2008 1 (halfS 5)) (fun t => decide (halfAt t .a 0x2808 = none ∧ bfield (regAt t 0x2018) 12 4 = 3)) = true
    ∧ ok (wr0 0x2008 1 (halfS (2 ^ 32 - 2))) (fun t => locked t 0x2020) = true
    ∧ ok (wr0 0x2020 10) (fun t => decide (fieldAt t 0x2020 0 17 = 10)) = true ∧ ok (wr0 0x2020 9) (fun t => decide (fieldAt t 0x2020 0 17 = 250)) = true
    ∧ ok (wr0 0x2020 100000) (fun t => decide (fieldAt t 0x2020 0 17 = 100000)) = true ∧ ok (wr0 0x2020 100001) (fun t => decide (fieldAt t 0x2020 0 17 = 250)) = true
    ∧ ok (wr0 0x2020 10 { owned .a with clk := edgeClk }) (fun t => decide (fieldAt t 0x2020 0 17 = 250 ∧ bfield (regAt t 0x2018) 12 4 = 1)) = true
    ∧ ok (exec (.registerWrite .a 4 8 1) (owned .a)) (fun t => decide (t.out = [.aer .a])) = true
    ∧ ok (exec (.registerWrite .b 2 (0x800000 + 8 * 3) 9) (owned .a)) (fun t => decide (mget 0 t.host.pb.mbox 3 = 9)) = true := by decide +kernel
/-- A value that a read of BAR0 returned. -/
def rd0 (a : Nat) (s : State) (P : Nat → State → Bool) : Bool :=
  ok (exec (.readClear .a 0 a) s) fun t => match (hpAt t .a).rdata with | some x => P x.2.toNat t | none => false
/-- Counter 0 of core 0 published at 2^32 + 5. -/
def cntS : State := { owned .a with cores := [(0, { ({} : Core) with pc := { ({} : Core).pc with pub := [(0, 2 ^ 32 + 5)] } })] }
theorem test_reads : rd0 0x2020 (owned .a) (fun v _ => decide (v = 250)) = true
    ∧ rd0 0x2808 (owned .a) (fun v _ => decide (v = 2 ^ 32 - 1)) = true
    ∧ rd0 (corePage 0 + 0xC8) cntS (fun v t => decide (v = 5 ∧ bfield (coreAt t 0).pc.hi 0 16 = 1)) = true
    ∧ rd0 0x2020 r0 (fun v t => decide (v = 0 ∧ t.regs = [])) = true := by decide +kernel
/-- A page owes a message, the last one sent w ago. -/
def irqS (w : Nat) : State := { owned .a with host := { r0.host with owner := some .a, irqOwed := [2, 4], irqWall := some 0 }, clk := { r0.clk with wall := w } }
theorem test_irqMessage : ok (exec (.irqMessage 2) (irqS wallUs)) (fun t => decide (t.host.irqOwed = [] ∧ t.out = [.msix .a 0])) = true
    ∧ gives (exec (.irqMessage 2) (irqS (wallUs - 1))) (irqS (wallUs - 1)) = true ∧ gives (exec (.irqMessage 3) (irqS wallUs)) (irqS wallUs) = true := by decide +kernel
/-- Register 0x1C of the module page counts 5 rejected writes; port B has read 3 of an earlier count in this lc, or port A has read it. -/
def rcS (l : List (Port × Nat × Nat)) : State := setReg 0x1C 5 { owned .a with host := { r0.host with owner := some .a, rcRead := l, pb := { rdata := some (0x1C, 3) } } }
theorem witness_RegistersAnswerHosts_readClear : rcMask (bar0Flds 0x1C) ≠ 0 ∧ (rcS []).host.rcRead.find? (fun x => decide (x.1 = .b ∧ x.2.1 = 0x1C)) = none
    ∧ (rcS [(.b, 0x1C, 3)]).host.rcRead.find? (fun x => decide (x.1 = .b ∧ x.2.1 = 0x1C)) = some (.b, 0x1C, 3) ∧ (hpAt (rcS []) .b).rdata = some (0x1C, 3)
    ∧ (rcS [(.a, 0x1C, 3)]).host.rcRead.find? (fun x => decide (x.1 = .a ∧ x.2.1 = 0x1C)) ≠ none ∧ (rcS []).pwr.stage = 9 ∧ r0.pwr.stage ≠ 9
    ∧ (2 : Nat) * 4 % 4 = 0 ∧ (0x2008 : Nat) % 4 = 0 := by decide +kernel
theorem test_readClear : ok (exec (.readClear .a 0 0x1C) (rcS [])) (fun t => decide ((hpAt t .a).rdata = some (0x1C, 5) ∧ regAt t 0x1C = 0)) = true
    ∧ ok (exec (.readClear .a 0 0x1C) (rcS [(.b, 0x1C, 3)])) (fun t => decide ((hpAt t .a).rdata = some (0x1C, 3) ∧ (hpAt t .b).rdata = some (0x1C, 0))) = true
    ∧ ok (exec (.readClear .b 0 0x1C) (rcS [(.a, 0x1C, 3)])) (fun t => decide ((hpAt t .b).rdata = some (0x1C, 0) ∧ regAt t 0x1C = 5)) = true := by decide +kernel
/-- Hardware has set bit 0 of the tick page's interrupt register in the lc of the write that clears bits 0 and 1: bit 0 stays. -/
theorem test_writeOneClear : ok (wr0 0x2010 3 (setReg 0x2010 3 { owned .a with host := { r0.host with owner := some .a, hw := [(0x2010, 1)] } })) (fun t => decide (regAt t 0x2010 = 1)) = true := by decide +kernel

/-! ### Memory and reset -/
theorem witness_HbmMemoryCanonical : gives (Sys2Proof.Machine.step { r0 with pending := [.hbmRefresh 7 31] })
      (match exec (.hbmRefresh 7 31) r0 with | .next t => t | _ => r0) = true
    ∧ Memory.wf r0.hbm.mem = true := by decide +kernel
theorem test_mem : Memory.wf (wrMem [] 7 [1, 0, 3]) = true ∧ wrMem [] 7 [1, 0, 3] = [(7, 1), (9, 3)] ∧ wrMem (wrMem [] 7 [1, 0, 3]) 7 [0, 2] = [(8, 2), (9, 3)]
    ∧ Memory.wf [(9, 1), (7, 3)] = false ∧ Memory.wf [(7, 0)] = false ∧ rdMem (wrMem [] 7 [1, 0, 3]) 6 4 = [0, 1, 0, 3] := by decide +kernel

end Sys2Proof.Tests
end

section
namespace Sys2Proof.InstructionReference
open Sys2Proof.Machine

/-- `FEOVRD` of one row of region 0 (operand A) into handle 0 (operand B). -/
def overflowIns : Ins := ⟨BitVec.ofNat 256 (1 + 0x0A * 16 + 2 * 2 ^ 96 + 1 * 2 ^ 136), 0, 0⟩
/-- Its first step. -/
def overflowWork : Work := { ins := overflowIns, s0 := 0, due := 0 }
/-- Handle 0: 16 rows from row 0 of bank 0 on, valid, of the task with identifier 0. -/
def overflowHandle : W64 := BitVec.ofNat 64 (15 * 2 ^ 20 + 2 ^ 45)
/-- Core 0 in broadcast mode, with no overflow read on its way. -/
def overflowCore : Core := { mode := .broadcast, bsn := { hnd := [(0, overflowHandle)], hndC := [(0, ~~~overflowHandle)] } }
/-- An image whose region 0 lies in port A's host window. -/
def overflowImage : Loaded :=
  ⟨[], 1, 192, 0, 0, 5000, 10, none, [], [], [], [], [⟨3, 0, 0, .a, 65536, 0, 0, 0⟩], [], [], [], [], [], 0, [], []⟩
/-- Core 0 is listed twice: its second entry, which no read of core 0 sees, holds 5,000 host DMA tags of port A. Granule 0 is mapped. -/
def overflowTwice : State :=
  { State.reset with
    cores := [(0, overflowCore), (0, { fe := { ov := [{ tag := 0, port := .a, spans := [], rows := 0, hnd := 0, off := 0, dma := 5000 }] } })]
    task := { img := some overflowImage }
    host := { pa := { xlat := [(0, 1)] } } }
/-- The read that the step enters. -/
def overflowReq : OvReq := { tag := 0, port := .a, rows := 1, hnd := 0, off := 0, spans := [(0, 128)] }

/-- Core p with an overflow read entered under its tag, before anything of it is sent. -/
def enterOv (p : Nat) (q : OvReq) (s : State) : State :=
  updCore p (fun c => { c with fe := { c.fe with mtags := mput q.tag q.rows c.fe.mtags, ov := c.fe.ov ++ [q] } }) (countAt p s.clk.now 6 1 s)

theorem askOv_eq (p : Nat) (q : OvReq) (s : State) :
    askOv p q s = if (enterOv p q s).host.copy.any (fun o => decide (o.port = q.port)) then enterOv p q s
      else sendOvRead p q (coreAt s p).fe.ov.getLast? (enterOv p q s) := by
  have hhost : (enterOv p q s).host = s.host := (countAt_upd ..).host rfl
  rw [hhost]; rfl

/-- A read that no earlier one of the core precedes leaves for the host at once, where no staging copy is owed on its port and the port has
host DMA tags for it, counted once the read is entered (R248, R251). -/
theorem askOv_out {p : Nat} {q : OvReq} {s : State} (hov : (coreAt s p).fe.ov = []) (hcopy : (enterOv p q s).host.copy = [])
    (hdma : dmaHeld (enterOv p q s) q.port + (hostReads q.port q.spans p q.tag).length ≤ 4096) :
    (askOv p q s).out = s.out ++ hostReads q.port q.spans p q.tag := by
  have hout : (enterOv p q s).out = s.out := (countAt_upd ..).out rfl
  rw [askOv_eq, hov, hcopy, ← hout]
  simp [sendOvRead, Nat.not_lt.mpr hdma]

/-- A step of `FEOVRD` whose granules are all mapped enters its read (R248). -/
theorem tagOv_mapped {p : Nat} {w : Work} {r : RegionD} {win h : Nat} {off : Int} {tag : Nat} {gs : List (Nat × Nat × Nat)} {s : State}
    (hmap : gs.find? (fun g => !bbit (xlatUse w.ev s r.port g.1).toNat 0) = none) (hmode : (coreAt s p).mode = .broadcast) :
    tagOv p w r win h off tag gs s =
      askOv p { tag := tag, port := r.port, rows := iUmod w.ins / 16 % 32 + 1, hnd := h, off := off.toNat, lc := s.clk.now
                spans := gs.map fun g => ((xlatUse w.ev s r.port g.1).toNat / 2 ^ 21 * 2 ^ 21 + g.2.1, g.2.2) } s := by
  simp [tagOv, hmap, hmode]

/-- The read of 128 bytes from a 4 KB boundary on is one request, whatever the port's read size (R248). -/
theorem hostReads_row (p tag : Nat) : (hostReads .a [(0, 128)] p tag).length = 1 := by
  have hsize := Nat.mod_lt (Config.readSize (portIdx .a)) (by decide : 0 < 6)
  unfold hostReads readMax
  generalize Config.readSize (portIdx .a) % 6 = n at hsize ⊢
  have hcut : ∀ n < 6, cutSpan (128 * 2 ^ n) 0 128 = [(0, 128)] := by decide +kernel
  simp [hcut n hsize]

theorem overflowTwice_asks : feStep 0 overflowWork overflowTwice = askOv 0 overflowReq overflowTwice := by
  have hop : iOp overflowWork.ins = 0x0A := by decide +kernel
  have hb : basinOperand overflowTwice 0 overflowWork.ins overflowWork.k false = (0, 0) := by decide +kernel
  have hu : iUmod overflowWork.ins = 0 := by decide +kernel
  have hd : elasticDest 0 0 0 128 overflowTwice = none := by decide +kernel
  have hm : memOperand overflowTwice 0 overflowWork.ins overflowWork.k false 128 = some (0, ⟨3, 0, 0, .a, 65536, 0, 0, 0⟩, 0) := by decide +kernel
  have hf : freeTag (coreAt overflowTwice 0).fe.mtags 256 = some 0 := by decide +kernel
  simp only [feStep, ovReadStep, hop, hb, hu, hd, hm, hf]
  rw [tagOv_mapped (by decide +kernel) rfl]
  congr 1

theorem overflowTwice_sends : (feStep 0 overflowWork overflowTwice).out = hostReads .a [(0, 128)] 0 0 := by
  have hlen := hostReads_row 0 0
  have hdma : dmaHeld (enterOv 0 overflowReq overflowTwice) .a = 0 := by decide +kernel
  rw [overflowTwice_asks, askOv_out (by decide +kernel) (by decide +kernel)]
  · rfl
  · show dmaHeld (enterOv 0 overflowReq overflowTwice) .a + (hostReads .a [(0, 128)] 0 0).length ≤ 4096
    omega

/-- Refutes O42. `State` lists its cores in a sorted map, and no hypothesis keeps a core from being listed twice. An entry that no read of the
core sees still counts in `dmaHeld`, by which the statement decides that the port lacks host DMA tags; the step itself counts after it has
entered its read, which leaves core p listed once, and sends the read that the statement says waits. -/
theorem not_contextsAndElasticRequests : ¬ Obligations.ContextsAndElasticRequests := by
  unfold Obligations.ContextsAndElasticRequests
  intro ⟨_, steps⟩
  have hop : iOp overflowWork.ins = 0x0A := by decide +kernel
  obtain ⟨-, -, -, -, overflow⟩ := steps 0 overflowWork overflowTwice (by decide) (by decide +kernel)
  have asked := (overflow 0 ⟨3, 0, 0, .a, 65536, 0, 0, 0⟩ 0 hop (by decide +kernel) (by decide +kernel)).1 0 (by decide +kernel)
    (by decide +kernel) (by decide +kernel)
  have hheld : dmaHeld overflowTwice .a = 5000 := by decide +kernel
  obtain ⟨-, hout, -⟩ := asked.2 (.inr (by show 4096 < dmaHeld overflowTwice .a + _; omega))
  have hlen := hostReads_row 0 0
  rw [← overflowTwice_sends, hout] at hlen
  exact absurd hlen (by decide +kernel)

/-- `FEEGR` of egress record 0 with no waits and no signals. -/
def egressIns : Ins := ⟨BitVec.ofNat 256 (1 + 0x0D * 16), 0, 0⟩

/-- Core 0 in broadcast mode, an `FEEGR` of record 0 at the head of its queue. -/
def egressCore : Core := { mode := .broadcast, q := [(1, [egressIns])] }

/-- Core 0 is listed twice: its second entry, which no read of core 0 sees, still makes an `FEEGR` of record 0. -/
def egressTwice : State :=
  { State.reset with cores := [(0, egressCore), (0, { job := { work := [{ ins := egressIns, s0 := 0, due := 0 }] } })] }

theorem egressTwice_startable : startable egressTwice 0 1 0x0D = some egressIns := by decide +kernel
theorem egressTwice_runs : egressRuns egressTwice (immOf egressTwice 0 egressIns 2 0 % 65536) = true := by decide +kernel
theorem egressTwice_noFault : (match exec (.feegr 0 []) egressTwice with | .next t => decide ((0x05, 0) ∉ t.cmt.faults) | _ => false) = true := by
  decide +kernel

/-- Refutes O43. As for O42 a core is listed twice: the entry that no read of the core sees makes an `FEEGR` of the same record, so that the
statement asks for program fault 0x05; the start of the instruction leaves the core listed once, and no other `FEEGR` of the record runs. -/
theorem not_plannedRowsMove : ¬ Obligations.PlannedRowsMove := by
  unfold Obligations.PlannedRowsMove
  intro ⟨starts, _⟩
  obtain ⟨t, w, he, -, -, -, -, -, -, -, -, -, -, -, -, -, -, -, hfault⟩ :=
    (starts 0 egressTwice (by decide) (.feegr 0 [], 0x0D) (by simp)).2 egressIns egressTwice_startable
  have hin := hfault rfl (by decide +kernel) rfl (.inl egressTwice_runs)
  have hout := egressTwice_noFault
  dsimp only at he
  rw [he] at hout
  exact of_decide_eq_true hout hin

end Sys2Proof.InstructionReference
end

section
namespace Sys2Proof.InstructionReference
open Sys2Proof.Machine

/-! ### What an operation leaves alone, read from its footprint -/

theorem coreAt_of_upd {F : List SFld} {D : List CFld} {o : Option Nat} {s t : State} (h : Upd F D o s t)
    (hF : F.contains .cores = false := by rfl) (q : Nat) : coreAt t q = coreAt s q := by
  simp only [coreAt, h.cores hF]

theorem offsetOf_of_upd {F : List SFld} {D : List CFld} {o : Option Nat} {s t : State} (h : Upd F D o s t)
    (hD : ([.fenced, .lidx, .k, .modIdx] : List CFld).all (fun x => !D.contains x) = true := by rfl) (p : Nat) (i : Ins) (j k : Nat) :
    offsetOf t p i j k = offsetOf s p i j k := by
  simp only [List.all_cons, List.all_nil, Bool.and_true, Bool.and_eq_true, Bool.not_eq_true'] at hD
  obtain ⟨hfenced, hlidx, hk, hmod⟩ := hD
  have hconst : ∀ sel, constOf t p sel = constOf s p sel := fun sel => by
    simp only [constOf, (h.core p).fenced hfenced, (h.core p).lidx hlidx, (h.core p).k hk, (h.core p).modIdx hmod]
  simp only [offsetOf, hconst]

theorem immOf_of_upd {F : List SFld} {D : List CFld} {o : Option Nat} {s t : State} (h : Upd F D o s t)
    (hD : ([.fenced, .lidx, .k, .modIdx] : List CFld).all (fun x => !D.contains x) = true := by rfl) (p : Nat) (i : Ins) (j k : Nat) :
    immOf t p i j k = immOf s p i j k := by
  simp only [immOf, offsetOf_of_upd h hD]

/-- A broadcast core's program fault is on the list that the commit zone reads (R394). -/
theorem progFault_mem {code p : Nat} {s : State} (hmode : (coreAt s p).mode = .broadcast) : (code, p) ∈ (progFault code p s).cmt.faults := by
  unfold progFault
  rw [if_neg (by rw [hmode]; decide)]
  split
  · next h => exact List.contains_iff_mem.mp h
  · simp

/-! ### The start of an instruction -/

theorem guarded_ok {p : Nat} (hp : p < 192) (what : String) (f : State → State) (s : State) : guarded (okCore p) what f s = .next (f s) := by
  simp [guarded, okCore, hp]

theorem startable_some {s : State} {p u op : Nat} {i : Ins} (h : startable s p u op = some i) : iUnit i = u ∧ iOp i = op := by
  unfold startable at h
  dsimp only at h
  split at h
  · cases h
  · split at h
    · next g =>
      cases h
      obtain ⟨hunit, hop, -⟩ := g
      exact ⟨hunit, hop⟩
    · cases h

@[simp] theorem coreAt_startWith (p u : Nat) (i : Ins) (tm : Timing) (sigs : List Sig) (s : State) :
    coreAt (startWith p u i tm sigs s) p = { coreAt s p with
      q := mput u (unitQ (coreAt s p) u).tail (coreAt s p).q
      job := { (coreAt s p).job with qth := mset [] u (mget [] (coreAt s p).job.qth u).tail (coreAt s p).job.qth }
      obj := takeWaits i (coreAt s p).obj
      started := mput u (s.clk.now + 1) (coreAt s p).started
      busy := (resOf i).foldl (fun m r => mput r (tm.b (iSteps i - 1) + tm.t) m) (coreAt s p).busy
      sigs := (coreAt s p).sigs ++ sigs
      issue := (coreAt s p).issue + 1 } := coreAt_updCore ..

@[simp] theorem startWith_clk (p u : Nat) (i : Ins) (tm : Timing) (sigs : List Sig) (s : State) : (startWith p u i tm sigs s).clk = s.clk := rfl
@[simp] theorem startUnit_clk (p u : Nat) (i : Ins) (tm : Timing) (s : State) : (startUnit p u i tm s).clk = s.clk := rfl

@[simp] theorem coreAt_addWork (p : Nat) (w : Work) (s : State) :
    coreAt (addWork p w s) p = { coreAt s p with job := { (coreAt s p).job with work := (coreAt s p).job.work ++ [w] } } := coreAt_updCore ..
@[simp] theorem addWork_cmt (p : Nat) (w : Work) (s : State) : (addWork p w s).cmt = s.cmt := rfl

@[simp] theorem coreAt_addLate (p t : Nat) (ev : List HwEvent) (w : VWr) (s : State) :
    coreAt (addLate p t ev w s) p = { coreAt s p with job := { (coreAt s p).job with late := (coreAt s p).job.late ++ [⟨t, w, ev⟩] } } :=
  coreAt_updCore ..

theorem stepRun_none {p u op e : Nat} {ev : List HwEvent} {tim : Ins → State → Timing} {pre : Ins → State → State} {s : State}
    {acc : Ins → State → Gath} (h : startable s p u op = none) : stepRun p u op e ev tim pre s acc = s := by
  simp [stepRun, unitRun, h]

theorem stepRun_part {p u op e : Nat} {ev : List HwEvent} {tim : Ins → State → Timing} {pre : Ins → State → State} {s : State}
    {acc : Ins → State → Gath} {i : Ins} (h : startable s p u op = some i) (hpart : participates s p i = true) :
    stepRun p u op e ev tim pre s acc =
      addWork p { ins := i, ev := ev, thr := thrOf (coreAt s p) u, s0 := s.clk.now, due := (tim i s).b 0 + e, t := (tim i s).t
                  acc := acc i (startUnit p u i (tim i s) s) } (pre i (startUnit p u i (tim i s) s)) := by
  simp [stepRun, unitRun, h, hpart]

theorem stepRun_notPart {p u op e : Nat} {ev : List HwEvent} {tim : Ins → State → Timing} {pre : Ins → State → State} {s : State}
    {acc : Ins → State → Gath} {i : Ins} (h : startable s p u op = some i) (hpart : participates s p i = false) :
    stepRun p u op e ev tim pre s acc = startUnit p u i (tim i s) s := by
  simp [stepRun, unitRun, h, hpart]

/-! ### Execute-side reads -/

/-- What each step of a fold keeps, the fold keeps. -/
theorem foldl_keeps {σ α γ : Type} {f : σ → α → σ} {g : σ → γ} (hf : ∀ acc x, g (f acc x) = g acc) :
    ∀ (l : List α) (acc : σ), g (l.foldl f acc) = g acc
  | [], _ => rfl
  | x :: l, acc => (foldl_keeps hf l (f acc x)).trans (hf acc x)

theorem takeSlot_late (p bank : Nat) (s : State) : (coreAt (takeSlot p bank s).2 p).job.late = (coreAt s p).job.late := by
  unfold takeSlot
  dsimp only
  split
  · dsimp only
    split
    · simp
    · rw [coreAt_of_upd (slotConf_upd (o_ := none) ..)]
  · simp

/-- A read of the basin takes bank slots and leaves the writes to come as they are. -/
theorem exReadAt_late (placed : Bool) (ev : List HwEvent) (p h : Nat) (off : Int) (n : Nat) (s : State) :
    (coreAt (exReadAt placed ev p h off n s).2 p).job.late = (coreAt s p).job.late := by
  unfold exReadAt
  split
  · rw [coreAt_of_upd (hndMismatch_upd (o_ := none) ..)]
  · rw [coreAt_of_upd (progFault_upd (o_ := none) ..)]
  · next e _ =>
    refine foldl_keeps (g := fun r : List Byte × State => (coreAt r.2 p).job.late) (fun acc x => ?_) _ _
    dsimp only
    have hslot : (coreAt (if placed then (true, acc.2) else takeSlot p (e.bank x.1) acc.2).2 p).job.late = (coreAt acc.2 p).job.late := by
      split
      · rfl
      · exact takeSlot_late ..
    rw [← hslot]
    split
    · next hs => rw [hs]
    · next hs => rw [hs, ((readPart_upd ..).core p).job rfl, coreAt_of_upd (readChecks_upd (o_ := none) ..)]

theorem exRead_late (ev : List HwEvent) (p h : Nat) (off : Int) (n : Nat) (s : State) :
    (coreAt (exRead ev p h off n s).2 p).job.late = (coreAt s p).job.late := exReadAt_late ..

end Sys2Proof.InstructionReference
end

section
namespace Sys2Proof.InstructionReference
open Sys2Proof.Machine

/-! ### The instructions' arms -/

theorem exec_mxldw (p : Nat) (ev : List HwEvent) (s : State) : exec (.mxldw p ev) s = execMxldw p ev s := rfl
theorem exec_mxlds (p : Nat) (ev : List HwEvent) (s : State) : exec (.mxlds p ev) s = execMxlds p ev s := rfl
theorem exec_mxrun (p : Nat) (ev : List HwEvent) (s : State) : exec (.mxrun p ev) s = execMxrun p ev s := rfl
theorem exec_puacc (p : Nat) (ev : List HwEvent) (s : State) : exec (.puacc p ev) s = execPuacc p ev s := rfl
theorem exec_arrayRampDown (p : Nat) (s : State) : exec (.arrayRampDown p) s = execArrayRampDown p s := rfl
theorem exec_postInputArrival (p : Nat) (s : State) : exec (.postInputArrival p) s = execPostInputArrival p s := rfl

theorem cupd_mx (c : Core) (m : Mx) : CUpd [.mx] c { c with mx := m } := by apply CUpd.set <;> simp
theorem cupd_pu (c : Core) (u : Pu) : CUpd [.pu] c { c with pu := u } := by apply CUpd.set <;> simp

/-! ### Matrix side: starts -/

section
variable {p : Nat} {s : State} {i : Ins}

theorem mxldw_start (hp : p < 192) (hs : startable s p 2 0x01 = some i) (hpart : participates s p i = true) :
    ∃ t, exec (.mxldw p []) s = .next t ∧ (coreAt t p).mx.shd.fmt = some (iUmod i % 32)
      ∧ (coreAt t p).mx.shd.side = [] ∧ (coreAt t p).mx.act = (coreAt s p).mx.act
      ∧ (coreAt t p).mx.load = (settleLoads s.clk.now (coreAt s p).mx).load := by
  refine ⟨_, (exec_mxldw ..).trans (guarded_ok hp ..), ?_⟩
  have hmx : ∀ w tm, (coreAt (addWork p w (ldwStart p i (startUnit p 2 i tm s))) p).mx = { settleLoads s.clk.now (coreAt s p).mx with
      shd := { (settleLoads s.clk.now (coreAt s p).mx).shd with fmt := some (iUmod i % 32), side := [] } } := fun w tm => by
    simp [ldwStart, startUnit]
  rw [stepRun_part hs hpart, hmx]
  exact ⟨rfl, rfl, rfl, rfl⟩

theorem mxlds_start (hp : p < 192) (hs : startable s p 2 0x03 = some i) (hpart : participates s p i = true) :
    ∃ t, exec (.mxlds p []) s = .next t ∧ (coreAt t p).mx =
      { settleLoads s.clk.now (coreAt s p).mx with shd := { (settleLoads s.clk.now (coreAt s p).mx).shd with side := [] } } := by
  refine ⟨_, (exec_mxlds ..).trans (guarded_ok hp ..), ?_⟩
  rw [stepRun_part hs hpart]
  simp [ldsStart, startUnit]

theorem mxrun_waits (hp : p < 192) (hs : startable s p 2 0x02 = none) : exec (.mxrun p []) s = .next s := by
  rw [exec_mxrun, execMxrun, guarded_ok hp, mxRun, hs]

/-- The matrix side as a run finds it: loads settled, and the tiles exchanged where the run says so (R109). -/
def tilesAtRun (s : State) (p : Nat) (i : Ins) : Mx :=
  if participates s p i && bbit (iUmod i) 0 then swapTiles (settleLoads s.clk.now (coreAt s p).mx) else settleLoads s.clk.now (coreAt s p).mx

theorem tilesAtRun_load : (tilesAtRun s p i).load = (settleLoads s.clk.now (coreAt s p).mx).load := by
  unfold tilesAtRun
  split <;> rfl

/-- The timing of a run (R109, R110). -/
def runTiming (s : State) (p : Nat) (i : Ins) : Timing :=
  fixedAt s.clk.now (rampW (coreAt s p).mx s.clk.now) (if isWide i then 2 else 1) (some 1) (some 264)

/-- The state in which a run's checks look at the active tile. -/
def runBegun (s : State) (p : Nat) (i : Ins) : State :=
  runBegin p i (runTiming s p i) (rampW (coreAt s p).mx s.clk.now) (participates s p i) (startUnit p 2 i (runTiming s p i) s)

/-- The work that a run leaves for the lc to come. -/
def runWork (s : State) (p : Nat) (i : Ins) : Work :=
  { ins := i, part := participates s p i, thr := thrOf (coreAt s p) 2, s0 := s.clk.now, due := s.clk.now + rampW (coreAt s p).mx s.clk.now, t := 1 }

theorem runTiming_first : (runTiming s p i).b 0 = s.clk.now + rampW (coreAt s p).mx s.clk.now := by simp [runTiming, fixedAt]

theorem runTiming_last (hsteps : 1 ≤ iSteps i) : (runTiming s p i).b (iSteps i - 1) + (runTiming s p i).t =
    s.clk.now + rampW (coreAt s p).mx s.clk.now + iSteps i * (if isWide i then 2 else 1) := by
  obtain ⟨n, hn⟩ : ∃ n, iSteps i = n + 1 := ⟨iSteps i - 1, by omega⟩
  simp only [runTiming, fixedAt, hn, Nat.add_sub_cancel, Nat.succ_mul]
  omega

theorem mxRun_eq (hs : startable s p 2 0x02 = some i) : mxRun [] p s =
    addWork p (runWork s p i) (if participates s p i then runChecks p i (runBegun s p i) else runBegun s p i) := by
  rw [mxRun, hs, runWork, ← runTiming_first]
  rfl

theorem runBegun_mx : (coreAt (runBegun s p i) p).mx = { tilesAtRun s p i with
    lastE := some ((runTiming s p i).b (iSteps i - 1) + (runTiming s p i).t), down := none, fresh := false
    up := if participates s p i then (if rampW (coreAt s p).mx s.clk.now = 0 then (settleLoads s.clk.now (coreAt s p).mx).up
      else some ((runTiming s p i).b 0 - 32)) else none } := by
  simp [runBegun, runBegin, startUnit, tilesAtRun]

theorem runBegun_mode : (coreAt (runBegun s p i) p).mode = (coreAt s p).mode := by simp [runBegun, runBegin, startUnit]
theorem runBegun_work : (coreAt (runBegun s p i) p).job.work = (coreAt s p).job.work := by simp [runBegun, runBegin, startUnit]

/-- The active tile is one of the activation's pairs (R149). -/
def tilePairs (m : Mx) (i : Ins) : Bool := match m.act.fmt with | some f => pairOk f (iUmod i / 2 % 32) | none => false

theorem runChecks_eq (p : Nat) (i : Ins) (s : State) : runChecks p i s =
    let s1 := if tilePairs (coreAt s p).mx i then s else progFault 0x0B p (mxFlt p 6 s)
    if tilePairs (coreAt s p).mx i && decide ((coreAt s p).mx.act.fmt = some 13) && !sideComplete (coreAt s p).mx.act then
      progFault 0x06 p (mxFlt p 1 s1) else s1 := rfl

theorem runChecks_badPair (hmode : (coreAt s p).mode = .broadcast) (hbad : tilePairs (coreAt s p).mx i = false) :
    (0x0B, p) ∈ (runChecks p i s).cmt.faults := by
  rw [runChecks_eq]
  simp only [hbad, Bool.false_and, Bool.false_eq_true, if_false]
  exact progFault_mem (by rw [coreAt_of_upd (mxFlt_upd (o_ := none) ..)]; exact hmode)

theorem runChecks_noSide (hmode : (coreAt s p).mode = .broadcast) (hgood : tilePairs (coreAt s p).mx i = true)
    (hfmt : (coreAt s p).mx.act.fmt = some 13) (hside : sideComplete (coreAt s p).mx.act = false) :
    (0x06, p) ∈ (runChecks p i s).cmt.faults := by
  rw [runChecks_eq]
  simp only [hgood, hfmt, hside, Bool.true_and, decide_true, Bool.not_false, if_true]
  exact progFault_mem (by rw [coreAt_of_upd (mxFlt_upd (o_ := none) ..)]; exact hmode)

/-- The core after an `MXRUN` has started: its checks leave the core as it is, and its work is added. -/
theorem coreAt_mxRun (hs : startable s p 2 0x02 = some i) : coreAt (mxRun [] p s) p =
    { coreAt (runBegun s p i) p with job := { (coreAt (runBegun s p i) p).job with work := (coreAt (runBegun s p i) p).job.work ++ [runWork s p i] } } := by
  rw [mxRun_eq hs, coreAt_addWork]
  split
  · rw [coreAt_of_upd (runChecks_upd (o_ := none) ..)]
  · rfl

theorem mxRun_badPair (hs : startable s p 2 0x02 = some i) (hpart : participates s p i = true) (hmode : (coreAt s p).mode = .broadcast)
    (hbad : tilePairs (tilesAtRun s p i) i = false) : (0x0B, p) ∈ (mxRun [] p s).cmt.faults := by
  rw [mxRun_eq hs, if_pos hpart, addWork_cmt]
  exact runChecks_badPair (by rw [runBegun_mode, hmode]) (by rw [runBegun_mx]; exact hbad)

theorem mxRun_noSide (hs : startable s p 2 0x02 = some i) (hpart : participates s p i = true) (hmode : (coreAt s p).mode = .broadcast)
    (hgood : tilePairs (tilesAtRun s p i) i = true) (hfmt : (tilesAtRun s p i).act.fmt = some 13)
    (hside : sideComplete (tilesAtRun s p i).act = false) : (0x06, p) ∈ (mxRun [] p s).cmt.faults := by
  rw [mxRun_eq hs, if_pos hpart, addWork_cmt]
  exact runChecks_noSide (by rw [runBegun_mode, hmode]) (by rw [runBegun_mx]; exact hgood) (by rw [runBegun_mx]; exact hfmt)
    (by rw [runBegun_mx]; exact hside)

theorem mxrun_start (hp : p < 192) (hs : startable s p 2 0x02 = some i) (hsteps : 1 ≤ iSteps i) :
    ∃ t w, exec (.mxrun p []) s = .next t ∧ (coreAt t p).job.work = (coreAt s p).job.work ++ [w] ∧ w.ins = i ∧ w.part = participates s p i
      ∧ w.k = 0 ∧ w.t = 1 ∧ w.due = s.clk.now + rampW (coreAt s p).mx s.clk.now ∧ (coreAt t p).mx.act = (tilesAtRun s p i).act
      ∧ (coreAt t p).mx.shd = (tilesAtRun s p i).shd ∧ (coreAt t p).mx.load = (settleLoads s.clk.now (coreAt s p).mx).load
      ∧ (coreAt t p).mx.lastE = some (s.clk.now + rampW (coreAt s p).mx s.clk.now + iSteps i * (if isWide i then 2 else 1))
      ∧ (coreAt t p).mx.down = none
      ∧ (participates s p i = true → (coreAt s p).mode = .broadcast → tilePairs (tilesAtRun s p i) i = false → (0x0B, p) ∈ t.cmt.faults)
      ∧ (participates s p i = true → (coreAt s p).mode = .broadcast → tilePairs (tilesAtRun s p i) i = true →
          (tilesAtRun s p i).act.fmt = some 13 → sideComplete (tilesAtRun s p i).act = false → (0x06, p) ∈ t.cmt.faults) := by
  refine ⟨mxRun [] p s, runWork s p i, (exec_mxrun ..).trans (guarded_ok hp ..), ?_, rfl, rfl, rfl, rfl, rfl, ?_⟩
  · rw [coreAt_mxRun hs, runBegun_work]
  · rw [coreAt_mxRun hs, runBegun_mx, runTiming_last hsteps]
    exact ⟨rfl, rfl, tilesAtRun_load, rfl, rfl, mxRun_badPair hs, mxRun_noSide hs⟩

theorem puacc_waits (hp : p < 192) (hs : startable s p 3 0x01 = none) : exec (.puacc p []) s = .next s := by
  rw [exec_puacc, execPuacc, guarded_ok hp, puacc, hs]

theorem puacc_start (hp : p < 192) (hs : startable s p 3 0x01 = some i) :
    ∃ t, exec (.puacc p []) s = .next t ∧ (coreAt t p).pu = { (coreAt s p).pu with run := some { ins := i } } := by
  refine ⟨_, (exec_puacc ..).trans (guarded_ok hp ..), ?_⟩
  rw [puacc, hs]
  simp [dupHits, startUnit]

/-! ### The array's ramp down, and the input of the post unit -/

theorem arrayRampDown_due {e : Nat} (hp : p < 192) (hlast : (coreAt s p).mx.lastE = some e) (hdown : (coreAt s p).mx.down = none)
    (hup : (coreAt s p).mx.up ≠ none) (hdue : e + 64 ≤ s.clk.now) :
    ∃ t, exec (.arrayRampDown p) s = .next t ∧ coreAt t p = { coreAt s p with mx := { (coreAt s p).mx with down := some (e + 64) } }
      ∧ rampState (coreAt t p).mx (e + 64) = 3 ∧ rampState (coreAt t p).mx (e + 96) = 0 ∧ Upd [.cores] [.mx] (some p) s t := by
  have hcore : coreAt (rampDown p s) p = { coreAt s p with mx := { (coreAt s p).mx with down := some (e + 64) } } := by
    simp [rampDown, hlast, hdown, hup, hdue]
  refine ⟨_, (exec_arrayRampDown ..).trans (guarded_ok hp ..), hcore, ?_, ?_, rampDown_upd ..⟩
  · simp [hcore, rampState]
  · simp [hcore, rampState]

theorem arrayRampDown_early {e : Nat} (hp : p < 192) (hlast : (coreAt s p).mx.lastE = some e) (hdown : (coreAt s p).mx.down = none)
    (hearly : s.clk.now < e + 64) : exec (.arrayRampDown p) s = .next s := by
  rw [exec_arrayRampDown, execArrayRampDown, guarded_ok hp]
  simp only [rampDown, hlast, hdown]
  rw [if_neg (by omega)]

section
variable {r : RRow} {rest : List RRow} (hp : p < 192) (hfly : (coreAt s p).mx.fly = r :: rest)
include hp hfly

theorem postInputArrival_early (hearly : s.clk.now < r.due) : exec (.postInputArrival p) s = .next s := by
  rw [exec_postInputArrival, execPostInputArrival, guarded_ok hp]
  simp [postArrival, hfly, hearly]

theorem postInputArrival_enters (hdue : r.due ≤ s.clk.now) (hroom : (coreAt s p).pu.fifo.length < 64) :
    ∃ t, exec (.postInputArrival p) s = .next t ∧ (coreAt t p).mx.fly = rest
      ∧ (coreAt t p).pu = { (coreAt s p).pu with fifo := (coreAt s p).pu.fifo ++ [r] } ∧ Upd [.cores] [.mx, .pu] (some p) s t := by
  refine ⟨_, (exec_postInputArrival ..).trans (guarded_ok hp ..), ?_⟩
  simp only [postArrival, hfly, if_neg (Nat.not_lt.mpr hdue), if_neg (Nat.not_le.mpr hroom)]
  refine ⟨by simp, by simp, ?_⟩
  exact .updCore ((cupd_pu ..).mono rfl) rfl (.inr rfl) (.updCore ((cupd_mx ..).mono rfl) rfl (.inr rfl) (.refl ..))

theorem postInputArrival_full (hdue : r.due ≤ s.clk.now) (hfull : 64 ≤ (coreAt s p).pu.fifo.length) (houts : r.outs ≠ [])
    (hmode : (coreAt s p).mode = .broadcast) :
    ∃ t, exec (.postInputArrival p) s = .next t ∧ (coreAt t p).mx.fly = rest ∧ (coreAt t p).pu = (coreAt s p).pu ∧ (0x07, p) ∈ t.cmt.faults := by
  refine ⟨_, (exec_postInputArrival ..).trans (guarded_ok hp ..), ?_⟩
  simp only [postArrival, hfly, if_neg (Nat.not_lt.mpr hdue), if_pos hfull, List.isEmpty_iff, if_neg houts]
  refine ⟨?_, ?_, progFault_mem ?_⟩
  all_goals simp [coreAt_of_upd (progFault_upd (o_ := none) ..), coreAt_of_upd (mxFlt_upd (o_ := none) ..), hmode]

end
end

end Sys2Proof.InstructionReference
end

section
namespace Sys2Proof.InstructionReference
open Sys2Proof.Machine

/-! ### Post unit: pushes -/

section
variable (p : Nat) (s : State)

theorem countAt_pu (t code n : Nat) : (coreAt (countAt p t code n s) p).pu = (coreAt s p).pu := ((countAt_upd ..).core p).pu rfl
theorem countAt_job (t code n : Nat) : (coreAt (countAt p t code n s) p).job = (coreAt s p).job := ((countAt_upd ..).core p).job rfl

/-- Events that join the census change nothing else of the post unit (R167). -/
theorem cenAt_pu (t : Nat) (f : Census → Census) : ∃ d, (coreAt (cenAt p t f s) p).pu = { (coreAt s p).pu with cenDue := d } := by
  unfold cenAt
  dsimp only
  split
  · exact ⟨_, rfl⟩
  · exact ⟨_, by rw [countAt_pu, coreAt_updCore]⟩

theorem cenAt_job (t : Nat) (f : Census → Census) : (coreAt (cenAt p t f s) p).job = (coreAt s p).job := ((cenAt_upd ..).core p).job rfl

/-- A matrix fault leaves the core as it is. -/
theorem coreAt_mxFault (code bit q : Nat) : coreAt (progFault code p (mxFlt p bit s)) q = coreAt s q := by
  rw [coreAt_of_upd (progFault_upd (o_ := none) ..), coreAt_of_upd (mxFlt_upd (o_ := none) ..)]

theorem coreAt_ite_mxFault (x : Prop) [Decidable x] (code bit q : Nat) :
    coreAt (if x then progFault code p (mxFlt p bit s) else s) q = coreAt s q := by
  split
  · rw [coreAt_mxFault]
  · rfl

/-- The accumulator row that a row of pushes leaves (R161 to R163). -/
def pushedRow (x : PushRow) (acc : SMap AccRow) : AccRow :=
  { mode := some x.int
    elems := ((mget {} acc x.row).elems.zip x.vals).map fun ev => if x.int then (pushInt ev.2 ev.1).1 else (pushFloat ev.2.toNat x.c x.lvl ev.1).1 }

theorem pushedRow_int {x : PushRow} (hint : x.int = true) (acc : SMap AccRow) : pushedRow x acc =
    { mode := some x.int, elems := (((mget {} acc x.row).elems.zip x.vals).map fun ev => pushInt ev.2 ev.1).map (·.1) } := by
  rw [pushedRow, List.map_map]
  simp only [hint, if_true]
  rfl

theorem pushedRow_float {x : PushRow} (hint : ¬ x.int = true) (acc : SMap AccRow) : pushedRow x acc =
    { mode := some x.int, elems := (((mget {} acc x.row).elems.zip x.vals).map fun ev => pushFloat ev.2.toNat x.c x.lvl ev.1).map (·.1) } := by
  rw [pushedRow, List.map_map]
  simp only [hint]
  rfl

/-- An accumulator row is replaced. -/
def putRow (p n : Nat) (r : AccRow) (s : State) : State :=
  updCore p (fun c => { c with pu := { c.pu with acc := mput n r c.pu.acc } }) s

theorem putRow_pu (n : Nat) (r : AccRow) : (coreAt (putRow p n r s) p).pu = { (coreAt s p).pu with acc := mput n r (coreAt s p).pu.acc } := by
  rw [putRow, coreAt_updCore]

/-- A row of pushes changes its accumulator row alone, and the events of the census (R161 to R163, R167). -/
theorem landPush_pu (x : PushRow) : ∃ d, (coreAt (landPush p x s) p).pu =
    { (coreAt s p).pu with acc := mput x.row (pushedRow x (coreAt s p).pu.acc) (coreAt s p).pu.acc, cenDue := d } := by
  unfold landPush
  dsimp only
  split
  · next hint =>
    rw [pushedRow_int hint]
    obtain ⟨d, hd⟩ := cenAt_pu p (putRow p x.row _ s) s.clk.now _
    exact ⟨d, hd.trans (by rw [putRow_pu])⟩
  · next hint =>
    rw [pushedRow_float hint]
    refine ⟨(coreAt s p).pu.cenDue, Eq.trans ?_ (putRow_pu p s x.row _)⟩
    exact congrArg Core.pu ((coreAt_ite_mxFault ..).trans (coreAt_ite_mxFault ..))

theorem accLc_waits (h : (coreAt s p).pu.run = none ∨ (coreAt s p).pu.fifo = []) : accLc p s = s := by
  unfold accLc
  dsimp only
  split
  · next r row rest hrun hfifo => simp [hrun, hfifo] at h
  · rfl

/-- The row of pushes of step k of a `PUACC` for an entry of a row of its mode (R161). -/
def stepPush (s : State) (p : Nat) (i : Ins) (k : Nat) (int : Bool) (o : Nat × Nat × List (List Int)) : PushRow :=
  let n := (o.2.2.headD []).length
  { row := o.1 % 64, int := int, c := immOf s p i 1 k + o.2.1 * n, lvl := n.log2, vals := foldChunks int true o.2.2 }

/-- A step of `PUACC` on a row with one entry is one row of pushes (R161). -/
theorem accStep_pu {i : Ins} {k : Nat} {r : RRow} {o : Nat × Nat × List (List Int)} (houts : r.outs = [o]) (hint : r.int = bbit (iUmod i) 0) :
    ∃ d, (coreAt (accStep p i k r s) p).pu = { (coreAt s p).pu with
      acc := mput (o.1 % 64) (pushedRow (stepPush s p i k r.int o) (coreAt s p).pu.acc) (coreAt s p).pu.acc
      cenDue := d } := by
  have hstep : accStep p i k r s = landPush p (stepPush s p i k r.int o) (countAt p s.clk.now 3 1 s) := by
    simp [accStep, houts, ← hint, b2n, stepPush]
  obtain ⟨d, hd⟩ := landPush_pu p (countAt p s.clk.now 3 1 s) (stepPush s p i k r.int o)
  rw [countAt_pu] at hd
  exact ⟨d, hstep ▸ hd⟩

/-- The state in which the step of a `PUACC` pushes: its row is taken and the run goes on (R99, R111). -/
def accTaken (p : Nat) (r : PuRun) (rest : List RRow) (s : State) : State :=
  let fin := decide (r.done + 1 = iSteps r.ins)
  updCore p (fun c => { c with
    pu := { c.pu with fifo := rest, run := if fin then none else some { r with done := r.done + 1 } }
    busy := if fin then mput 4 (s.clk.now + 1) c.busy else c.busy
    sigs := c.sigs ++ pacedSigs r.ins r.done s.clk.now 1 6 }) s

theorem accTaken_pu (r : PuRun) (rest : List RRow) : (coreAt (accTaken p r rest s) p).pu = { (coreAt s p).pu with
    fifo := rest, run := if r.done + 1 = iSteps r.ins then none else some { r with done := r.done + 1 } } := by
  simp [accTaken]

theorem accTaken_upd (r : PuRun) (rest : List RRow) : Upd [.cores] [.pu, .busy, .sigs] (some p) s (accTaken p r rest s) := by
  unfold accTaken
  refine .updCore ?_ rfl (.inr rfl) (.refl ..)
  apply CUpd.set <;> simp

theorem accLc_eq {r : PuRun} {row : RRow} {rest : List RRow} (hrun : (coreAt s p).pu.run = some r) (hfifo : (coreAt s p).pu.fifo = row :: rest) :
    accLc p s = accStep p r.ins r.done row (accTaken p r rest s) := by
  unfold accLc
  simp only [hrun, hfifo]
  rfl

end

theorem accLc_pushes {p : Nat} {s : State} {r : PuRun} {row : RRow} {rest : List RRow} {o : Nat × Nat × List (List Int)}
    (hrun : (coreAt s p).pu.run = some r) (hfifo : (coreAt s p).pu.fifo = row :: rest) (hint : row.int = bbit (iUmod r.ins) 0)
    (houts : row.outs = [o]) :
    let n := (o.2.2.headD []).length
    (coreAt (accLc p s) p).pu.fifo = rest
      ∧ (coreAt (accLc p s) p).pu.run = (if r.done + 1 = iSteps r.ins then none else some { r with done := r.done + 1 })
      ∧ mget {} (coreAt (accLc p s) p).pu.acc (o.1 % 64) =
        { mode := some row.int
          elems := ((mget {} (coreAt s p).pu.acc (o.1 % 64)).elems.zip (foldChunks row.int true o.2.2)).map fun x =>
            if row.int then (pushInt x.2 x.1).1 else (pushFloat x.2.toNat (immOf s p r.ins 1 r.done + o.2.1 * n) n.log2 x.1).1 }
      ∧ ∀ q, q ≠ o.1 % 64 → mget {} (coreAt (accLc p s) p).pu.acc q = mget {} (coreAt s p).pu.acc q := by
  intro n
  obtain ⟨d, hd⟩ := accStep_pu p (accTaken p r rest s) (k := r.done) houts hint
  rw [accLc_eq p s hrun hfifo, hd, accTaken_pu, stepPush, immOf_of_upd (accTaken_upd ..)]
  exact ⟨rfl, rfl, mget_mput .., fun q hq => mget_mput_ne _ _ _ hq⟩

end Sys2Proof.InstructionReference
end

section
namespace Sys2Proof.InstructionReference
open Sys2Proof.Machine

/-! ### Matrix side: steps -/

section
variable {p : Nat} {w : Work} {s : State}

theorem mxStep_load (hop : iOp w.ins = 0x01) : mxStep p w s = (w.acc, ldwStep w.ev p w.ins w.k s) := by simp [mxStep, hop]
theorem mxStep_side (hop : iOp w.ins = 0x03) : mxStep p w s = (w.acc, ldsStep w.ev p w.ins w.k s) := by simp [mxStep, hop]
theorem mxStep_run (hop : iOp w.ins = 0x02) : mxStep p w s = ({ w.acc with bytes := (runStep p w s).1 }, (runStep p w s).2) := by
  simp [mxStep, hop]

theorem mxRead_basin {i : Ins} (hkind : iKind i 0 = 1) (ev : List HwEvent) (off : Int) (n : Nat) :
    mxRead ev p i off n s = exRead ev p (iSel i 0) off n s := by simp [mxRead, hkind]

theorem exRead_mx (ev : List HwEvent) (h : Nat) (off : Int) (n : Nat) : (coreAt (exRead ev p h off n s).2 p).mx = (coreAt s p).mx :=
  ((exRead_upd ..).core p).mx rfl
theorem actRead_mx (ev : List HwEvent) (i : Ins) (off : Int) : (coreAt (actRead ev p i off s).2 p).mx = (coreAt s p).mx :=
  ((actRead_upd ..).core p).mx rfl
theorem cenAt_mx (t : Nat) (f : Census → Census) : (coreAt (cenAt p t f s) p).mx = (coreAt s p).mx := ((cenAt_upd ..).core p).mx rfl

theorem scalesPerStep_plain {fmt : Nat} (h : isMX fmt = false) : scalesPerStep fmt = 0 := by
  have hlast : fmt ≠ 12 := by rintro rfl; exact absurd h (by decide)
  simp [scalesPerStep, hlast, h]

/-- A weight row of a format without scales (R150, R152). -/
theorem ldwStep_mx (ev : List HwEvent) (i : Ins) (j : Nat) (hkind : iKind i 0 = 1) (hplain : isMX (iUmod i % 32) = false) :
    (coreAt (ldwStep ev p i j s) p).mx = { (coreAt s p).mx with load := (coreAt s p).mx.load ++
      [(s.clk.now + 2, 0, j, leNat (exRead ev p (iSel i 0) (offsetOf s p i 0 j) 128 s).1)] } := by
  unfold ldwStep
  simp only [mxRead_basin hkind, scalesPerStep_plain hplain, if_true, List.length_nil, Nat.lt_irrefl, if_false, List.range_zero, List.map_nil,
    coreAt_updCore]
  split
  · rw [cenAt_mx, exRead_mx]
  · rw [exRead_mx]

theorem ldsStep_mx (ev : List HwEvent) (i : Ins) (j : Nat) (hkind : iKind i 0 = 1) :
    (coreAt (ldsStep ev p i j s) p).mx = { (coreAt s p).mx with load := (coreAt s p).mx.load ++
      (if j ≤ 40 then [(s.clk.now + 2, 2, j, leNat (exRead ev p (iSel i 0) (offsetOf s p i 0 j) 128 s).1)] else []) } := by
  unfold ldsStep
  simp only [mxRead_basin hkind]
  split
  · rw [coreAt_updCore, exRead_mx]
  · rw [exRead_mx, List.append_nil]

/-! #### Runs -/

section
variable {ev : List HwEvent} {i : Ins} {b k f : Nat} {r0 r1 : List Byte} (hfmt : (coreAt s p).mx.act.fmt = some f)
  (hpair : pairOk f (iUmod i / 2 % 32) = true)
include hfmt hpair

/-- The chunk results of a row of a narrow run (R109, R151, R155). -/
theorem runResult_narrow (hwide : isWide i = false) : (coreAt (runResult ev p i b k r0 r1 s) p).mx = { (coreAt s p).mx with
    fly := (coreAt s p).mx.fly ++ [⟨b + 264, decide (iUmod i / 2 % 32 = 15 ∨ iUmod i / 2 % 32 = 16 ∨ iUmod i / 2 % 32 = 17),
      [(k / partsOf f (iUmod i / 2 % 32), k % partsOf f (iUmod i / 2 % 32),
        rowChunks (coreAt s p).mx.act f (iUmod i / 2 % 32) (k % partsOf f (iUmod i / 2 % 32)) (leNat r0))]⟩] } := by
  have hnarrow : ¬ (iUmod i / 2 % 32 = 1 ∨ iUmod i / 2 % 32 = 2) := of_decide_eq_false hwide
  unfold runResult
  dsimp only
  rw [((countAt_upd ..).core p).mx rfl, coreAt_updCore]
  simp only [hfmt, hpair, hnarrow, Option.getD_some, Bool.not_true, Bool.false_eq_true, if_false, if_true, coreAt_of_upd (residues_upd (o_ := none) ..)]

/-- The chunk results of the two rows of a step of a wide run (R151). -/
theorem runResult_wide (hwide : isWide i = true) : (coreAt (runResult ev p i b k r0 r1 s) p).mx = { (coreAt s p).mx with
    fly := (coreAt s p).mx.fly ++ [⟨b + 264, decide (iUmod i / 2 % 32 = 15 ∨ iUmod i / 2 % 32 = 16 ∨ iUmod i / 2 % 32 = 17),
      [(2 * k, 0, rowChunks (coreAt s p).mx.act f (iUmod i / 2 % 32) 0 (leNat r0)),
        (2 * k + 1, 0, rowChunks (coreAt s p).mx.act f (iUmod i / 2 % 32) 0 (leNat r1))]⟩] } := by
  have hw : iUmod i / 2 % 32 = 1 ∨ iUmod i / 2 % 32 = 2 := of_decide_eq_true hwide
  unfold runResult
  dsimp only
  rw [((countAt_upd ..).core p).mx rfl, coreAt_updCore]
  simp only [hfmt, hpair, hw, Option.getD_some, Bool.not_true, Bool.false_eq_true, if_false, if_true, coreAt_of_upd (residues_upd (o_ := none) ..)]

end

section
variable {f : Nat}

theorem runStep_idle (hpart : w.part = false) (hwide : isWide w.ins = false) :
    coreAt (runStep p w s).2 p = { coreAt s p with mx := { (coreAt s p).mx with fly := (coreAt s p).mx.fly ++ [⟨s.clk.now + 264, false, []⟩] } } := by
  simp [runStep, hpart, hwide]

theorem runStep_narrow (hpart : w.part = true) (hwide : isWide w.ins = false) (hfmt : (coreAt s p).mx.act.fmt = some f)
    (hpair : pairOk f (iUmod w.ins / 2 % 32) = true) : (coreAt (runStep p w s).2 p).mx = { (coreAt s p).mx with
      fly := (coreAt s p).mx.fly ++ [⟨s.clk.now + 264, decide (iUmod w.ins / 2 % 32 = 15 ∨ iUmod w.ins / 2 % 32 = 16 ∨ iUmod w.ins / 2 % 32 = 17),
        [(w.k / partsOf f (iUmod w.ins / 2 % 32), w.k % partsOf f (iUmod w.ins / 2 % 32), rowChunks (coreAt s p).mx.act f (iUmod w.ins / 2 % 32)
          (w.k % partsOf f (iUmod w.ins / 2 % 32)) (leNat (actRead w.ev p w.ins (offsetOf s p w.ins 0 w.k) s).1))]⟩] } := by
  have hmx := actRead_mx (p := p) (s := s) w.ev w.ins (offsetOf s p w.ins 0 w.k)
  simp only [runStep, hpart, hwide, Bool.not_true, Bool.false_eq_true, if_false]
  rw [runResult_narrow (hmx ▸ hfmt) hpair hwide, hmx]

theorem runStep_wideFirst (hpart : w.part = true) (hwide : isWide w.ins = true) (hk : w.k % 2 = 0) :
    runStep p w s = actRead w.ev p w.ins (offsetOf s p w.ins 0 (w.k / 2)) s := by
  simp [runStep, hpart, hwide, hk]

theorem runStep_wideSecond (hpart : w.part = true) (hwide : isWide w.ins = true) (hk : w.k % 2 = 1) (hfmt : (coreAt s p).mx.act.fmt = some f)
    (hpair : pairOk f (iUmod w.ins / 2 % 32) = true) : (coreAt (runStep p w s).2 p).mx = { (coreAt s p).mx with
      fly := (coreAt s p).mx.fly ++ [⟨s.clk.now - 1 + 264, decide (iUmod w.ins / 2 % 32 = 15 ∨ iUmod w.ins / 2 % 32 = 16 ∨ iUmod w.ins / 2 % 32 = 17),
        [(2 * (w.k / 2), 0, rowChunks (coreAt s p).mx.act f (iUmod w.ins / 2 % 32) 0 (leNat w.acc.bytes)),
          (2 * (w.k / 2) + 1, 0, rowChunks (coreAt s p).mx.act f (iUmod w.ins / 2 % 32) 0
            (leNat (actRead w.ev p w.ins (offsetOf s p w.ins 0 (w.k / 2) + 128) s).1))]⟩] } := by
  have hmx := actRead_mx (p := p) (s := s) w.ev w.ins (offsetOf s p w.ins 0 (w.k / 2) + 128)
  simp only [runStep, hpart, hwide, hk, Bool.not_true, Bool.false_eq_true, if_false, if_true, Nat.one_ne_zero]
  rw [runResult_wide (hmx ▸ hfmt) hpair hwide, hmx]

end
end

end Sys2Proof.InstructionReference
end

section
namespace Sys2Proof.InstructionReference
open Sys2Proof.Machine

/-! ### Post unit: steps -/

section
variable {p : Nat} {w : Work} {s : State}

theorem puStep_flush (hop : iOp w.ins = 0x02) : puStep p w s = flushStep p w s := by simp [puStep, hop]
theorem puStep_vec (hop : iOp w.ins = 0x05) : puStep p w s = vecStep p w s := by simp [puStep, hop]
theorem puStep_census (hop : iOp w.ins = 0x03) : puStep p w s = (w.acc, censusStep p w.ins w.k s) := by simp [puStep, hop]
theorem puStep_clear (hop : iOp w.ins = 0x04) : puStep p w s = (w.acc, clearStep p s) := by simp [puStep, hop]

/-! #### What reading the block and writing a row leave alone -/

theorem readBlock_held (j v : Nat) : (readBlock p w j v s).1.held = w.acc.held := by
  unfold readBlock
  dsimp only
  split
  · rfl
  · refine foldl_keeps (g := fun x : Gath × State => x.1.held) (fun acc x => ?_) _ _
    rfl

theorem readBlock_late (j v : Nat) : (coreAt (readBlock p w j v s).2 p).job.late = (coreAt s p).job.late := by
  unfold readBlock
  dsimp only
  split
  · rfl
  · exact foldl_keeps (g := fun x : Gath × State => (coreAt x.2 p).job.late) (fun _ _ => exRead_late ..) _ _

theorem readBlock_pu (j v : Nat) : (coreAt (readBlock p w j v s).2 p).pu = (coreAt s p).pu := ((readBlock_upd ..).core p).pu rfl

theorem putOut_late (i : Ins) (int : Bool) (t k : Nat) (codes : List Nat) : (coreAt (putOut p i int t k codes s) p).job.late =
    (coreAt s p).job.late ++ [⟨t, .tile 0 (iSel i 0) (offsetOf s p i 0 k) (packRow 32 512 codes), []⟩] := by
  rw [putOut, coreAt_addLate, cenAt_job]

theorem cenAt_acc (t : Nat) (f : Census → Census) : (coreAt (cenAt p t f s) p).pu.acc = (coreAt s p).pu.acc := by
  obtain ⟨d, hd⟩ := cenAt_pu p s t f
  rw [hd]

theorem putOut_acc (i : Ins) (int : Bool) (t k : Nat) (codes : List Nat) :
    (coreAt (putOut p i int t k codes s) p).pu.acc = (coreAt s p).pu.acc := by
  rw [putOut, coreAt_addLate, cenAt_acc]

theorem putOut_cmt (i : Ins) (int : Bool) (t k : Nat) (codes : List Nat) : (putOut p i int t k codes s).cmt = s.cmt :=
  (putOut_upd ..).cmt rfl

/-! #### PUFLUSH -/

section
variable (i : Ins) (blk : List Byte) (t k : Nat) {row : AccRow}

theorem flushOut_acc : (coreAt (flushOut p i blk t k row s) p).pu.acc = (coreAt s p).pu.acc := by
  unfold flushOut
  dsimp only
  split
  · rw [putOut_acc, coreAt_mxFault]
  · split
    · rw [putOut_acc, cenAt_acc]
    · rw [putOut_acc]

theorem flushOut_float (hmode : row.mode ≠ some (!bbit (iUmod i) 2)) (hint : bbit (iUmod i) 2 = false) :
    flushOut p i blk t k row s = putOut p i false t k ((List.range 128).map fun e => scaled32 i blk e (foldEnts (row.elems.getD e {}))) s := by
  unfold flushOut
  dsimp only
  rw [if_neg hmode, hint]
  rfl

theorem flushOut_int (hmode : row.mode ≠ some (!bbit (iUmod i) 2)) (hint : bbit (iUmod i) 2 = true) (hplain : iUmod i % 4 = 0) :
    (coreAt (flushOut p i blk t k row s) p).job.late = (coreAt s p).job.late ++
      [⟨t, .tile 0 (iSel i 0) (offsetOf s p i 0 k) (packRow 32 512 (row.elems.map fun e => wrapN 32 (sat32 e.sum).1)), []⟩] := by
  unfold flushOut
  dsimp only
  rw [if_neg hmode, if_pos ⟨hint, hplain⟩, putOut_late, cenAt_job, offsetOf_of_upd (cenAt_upd ..), List.map_map]
  rfl

theorem flushOut_otherMode (hmode : row.mode = some (!bbit (iUmod i) 2)) (hcore : (coreAt s p).mode = .broadcast) :
    (0x0B, p) ∈ (flushOut p i blk t k row s).cmt.faults := by
  unfold flushOut
  dsimp only
  rw [if_pos hmode, putOut_cmt]
  exact progFault_mem (by rw [coreAt_of_upd (mxFlt_upd (o_ := none) ..), hcore])

end

/-- The state in which step v of `PUFLUSH` takes its row: the row before it has been worked out. -/
def flushWorked (p : Nat) (w : Work) (s : State) : State :=
  match w.acc.held with
  | some row => flushOut p w.ins (blockOf (readBlock p w 1 w.k s).1) (s.clk.now + 18) (w.k - 1) row (readBlock p w 1 w.k s).2
  | none => (readBlock p w 1 w.k s).2

theorem flushWorked_some {row : AccRow} (h : w.acc.held = some row) : flushWorked p w s =
    flushOut p w.ins (blockOf (readBlock p w 1 w.k s).1) (s.clk.now + 18) (w.k - 1) row (readBlock p w 1 w.k s).2 := by
  rw [flushWorked, h]

theorem flushWorked_acc : (coreAt (flushWorked p w s) p).pu.acc = (coreAt s p).pu.acc := by
  unfold flushWorked
  split
  · rw [flushOut_acc, readBlock_pu]
  · rw [readBlock_pu]

theorem flushStep_eq : flushStep p w s =
    if w.k < iSteps w.ins then
      ({ (readBlock p w 1 w.k s).1 with held := some (flushTake p w.k (flushWorked p w s)).1 }, (flushTake p w.k (flushWorked p w s)).2)
    else ({ (readBlock p w 1 w.k s).1 with held := none }, flushWorked p w s) := by
  unfold flushWorked
  rw [← readBlock_held (p := p) (s := s) 1 w.k]
  rfl

theorem flushStep_takes (hk : w.k < iSteps w.ins) : (flushStep p w s).1.held = some (mget {} (coreAt s p).pu.acc (w.k % 64))
    ∧ (coreAt (flushStep p w s).2 p).pu.acc = mdel (w.k % 64) (coreAt s p).pu.acc := by
  rw [flushStep_eq, if_pos hk, ← flushWorked_acc (w := w)]
  exact ⟨rfl, by rw [flushTake, coreAt_updCore]⟩

/-- Taking a row leaves the writes to come and the faults as working out the row before it left them. -/
theorem flushStep_worked : (coreAt (flushStep p w s).2 p).job = (coreAt (flushWorked p w s) p).job
    ∧ (flushStep p w s).2.cmt = (flushWorked p w s).cmt := by
  rw [flushStep_eq]
  split
  · exact ⟨((flushTake_upd ..).core p).job rfl, (flushTake_upd ..).cmt rfl⟩
  · exact ⟨rfl, rfl⟩

section
variable {row : AccRow} (hheld : w.acc.held = some row)
include hheld

theorem flushStep_float (hmode : row.mode ≠ some (!bbit (iUmod w.ins) 2)) (hint : bbit (iUmod w.ins) 2 = false) :
    (coreAt (flushStep p w s).2 p).job.late = (coreAt s p).job.late ++ [⟨s.clk.now + 18, .tile 0 (iSel w.ins 0) (offsetOf s p w.ins 0 (w.k - 1))
      (packRow 32 512 ((List.range 128).map fun e =>
        scaled32 w.ins (blockOf (readBlock p w 1 w.k s).1) e (foldEnts (row.elems.getD e {})))), []⟩] := by
  rw [flushStep_worked.1, flushWorked_some hheld, flushOut_float _ _ _ _ hmode hint, putOut_late, readBlock_late, offsetOf_of_upd (readBlock_upd ..)]

theorem flushStep_int (hmode : row.mode ≠ some (!bbit (iUmod w.ins) 2)) (hint : bbit (iUmod w.ins) 2 = true) (hplain : iUmod w.ins % 4 = 0) :
    (coreAt (flushStep p w s).2 p).job.late = (coreAt s p).job.late ++ [⟨s.clk.now + 18, .tile 0 (iSel w.ins 0) (offsetOf s p w.ins 0 (w.k - 1))
      (packRow 32 512 (row.elems.map fun e => wrapN 32 (sat32 e.sum).1)), []⟩] := by
  rw [flushStep_worked.1, flushWorked_some hheld, flushOut_int _ _ _ _ hmode hint hplain, readBlock_late, offsetOf_of_upd (readBlock_upd ..)]

theorem flushStep_otherMode (hmode : row.mode = some (!bbit (iUmod w.ins) 2)) (hcore : (coreAt s p).mode = .broadcast) :
    (0x0B, p) ∈ (flushStep p w s).2.cmt.faults := by
  rw [flushStep_worked.2, flushWorked_some hheld]
  exact flushOut_otherMode _ _ _ _ hmode ((((readBlock_upd ..).core p).mode rfl).trans hcore)

end

/-! #### PUVEC, PUCENSUS, PUCLR -/

theorem tileRead_inside {tile n : Nat} {off : Int} (hlo : 0 ≤ off) (hhi : off + n ≤ 65536) :
    tileRead p tile off n s = (rdMem (coreAt s p).vx.tile (tile * 65536 + off.toNat) n, s) := by
  rw [tileRead, if_neg (by omega)]

theorem vecStep_late (hk : 1 ≤ w.k) (hlo : 0 ≤ offsetOf s p w.ins 1 (w.k - 1)) (hhi : offsetOf s p w.ins 1 (w.k - 1) + 512 ≤ 65536) :
    (coreAt (vecStep p w s).2 p).job.late = (coreAt s p).job.late ++ [⟨s.clk.now + 10, .tile 0 (iSel w.ins 0) (offsetOf s p w.ins 0 (w.k - 1))
      (packRow 32 512 ((List.range 128).map fun e => scaled32 w.ins (blockOf (readBlock p w 2 w.k s).1) e
        (leAt (4 * e) 4 (rdMem (coreAt s p).vx.tile (iSel w.ins 1 * 65536 + (offsetOf s p w.ins 1 (w.k - 1)).toNat) 512)))), []⟩] := by
  have hoff : ∀ j, offsetOf (readBlock p w 2 w.k s).2 p w.ins j (w.k - 1) = offsetOf s p w.ins j (w.k - 1) := fun j => by
    rw [offsetOf_of_upd (readBlock_upd ..)]
  have hread : tileRead p (iSel w.ins 1) (offsetOf s p w.ins 1 (w.k - 1)) 512 (readBlock p w 2 w.k s).2 =
      (rdMem (coreAt s p).vx.tile (iSel w.ins 1 * 65536 + (offsetOf s p w.ins 1 (w.k - 1)).toNat) 512, (readBlock p w 2 w.k s).2) := by
    rw [tileRead_inside hlo hhi, ((readBlock_upd ..).core p).vx rfl]
  unfold vecStep
  dsimp only
  rw [if_neg (by omega)]
  simp only [hread, putOut_late, readBlock_late, hoff]

theorem censusStep_core (i : Ins) (k : Nat) : coreAt (censusStep p i k s) p = { coreAt s p with
    pu := { (coreAt s p).pu with cen := {}, seq := (coreAt s p).pu.seq + 1 }
    job := { (coreAt s p).job with late := (coreAt s p).job.late ++
      [⟨s.clk.now + 5, .basin 6 (iSel i 0) (offsetOf s p i 0 k) (cenBytes (coreAt s p).pu.cen (coreAt s p).pu.seq), []⟩] } } := by
  have hcore : coreAt (updCore p (fun c => { c with pu := { c.pu with cen := {}, seq := (coreAt s p).pu.seq + 1 } })
      (addLate p (s.clk.now + 5) [] (.basin 6 (iSel i 0) (offsetOf s p i 0 k) (cenBytes (coreAt s p).pu.cen (coreAt s p).pu.seq)) s)) p = _ :=
    coreAt_updCore ..
  rw [coreAt_addLate] at hcore
  unfold censusStep
  dsimp only
  split <;> exact hcore

theorem censusStep_counts (i : Ins) (k : Nat) (hmode : (coreAt s p).mode = .broadcast) : (censusStep p i k s).cmt.cen = s.cmt.cen ++
    [(p, (coreAt s p).pu.seq % 65536, [(coreAt s p).pu.cen.zero, (coreAt s p).pu.cen.sat, (coreAt s p).pu.cen.nan, (coreAt s p).pu.cen.inf,
      (coreAt s p).pu.cen.elems])] := by
  unfold censusStep
  dsimp only
  rw [if_neg (by rw [hmode]; decide)]
  rfl

theorem clearStep_core : coreAt (clearStep p s) p = { coreAt s p with pu := { (coreAt s p).pu with acc := [], cen := {} } } := coreAt_updCore ..

end

/-- Settles O44: each start and each step is the lemma of its instruction, the timing of a run among them, and an operation between them
leaves alone what its footprint does not name. -/
theorem matrixAndPostSteps : Obligations.MatrixAndPostSteps := by
  unfold Obligations.MatrixAndPostSteps
  refine ⟨fun p s hp => ⟨mxrun_waits hp, puacc_waits hp, fun i => mxldw_start hp, fun i => mxlds_start hp, fun i => mxrun_start hp,
      fun i => puacc_start hp, fun e hlast hdown hup => ⟨arrayRampDown_due hp hlast hdown hup, arrayRampDown_early hp hlast hdown⟩,
      fun r rest hfly => ⟨postInputArrival_early hp hfly, postInputArrival_enters hp hfly, postInputArrival_full hp hfly⟩,
      accLc_waits p s, fun r row rest o hrun hfifo hint houts => accLc_pushes hrun hfifo hint houts⟩,
    fun p w s _ => ⟨fun _ => ⟨fun hop hkind hplain => ?_, fun hop hkind => ?_, fun f hop hpart hwide _ hfmt hpair => ?_,
      fun hop hpart hwide _ => ⟨fun hk => ?_, fun f hk hfmt hpair => ?_⟩, fun hop hpart hwide => ?_⟩,
      fun _ => ⟨fun hop hk => ?_, fun row hop hheld => ?_, fun hop hk hlo hhi => ?_, fun hop hmode => ?_, fun hop => ?_⟩⟩⟩
  · rw [mxStep_load hop]
    exact ⟨ldwStep_mx _ _ _ hkind hplain, (ldwStep_upd ..).hbm rfl⟩
  · rw [mxStep_side hop]
    exact ⟨ldsStep_mx _ _ _ hkind, (ldsStep_upd ..).hbm rfl⟩
  · rw [mxStep_run hop]
    exact runStep_narrow hpart hwide hfmt hpair
  · rw [mxStep_run hop, runStep_wideFirst hpart hwide hk]
    exact ⟨rfl, actRead_mx ..⟩
  · rw [mxStep_run hop]
    exact runStep_wideSecond hpart hwide hk hfmt hpair
  · rw [mxStep_run hop, runStep_idle hpart hwide]
    exact ⟨rfl, rfl⟩
  · rw [puStep_flush hop]
    obtain ⟨hheld, hacc⟩ := flushStep_takes (p := p) (s := s) hk
    exact ⟨hheld, by rw [hacc]; exact mget_mdel .., fun q hq => by rw [hacc]; exact mget_mdel_ne _ hq _⟩
  · rw [puStep_flush hop]
    refine ⟨fun hmode hint => flushStep_float hheld hmode hint, fun hmode hint hplain => flushStep_int hheld hmode hint hplain,
      fun hmode hcore => flushStep_otherMode hheld hmode hcore⟩
  · rw [puStep_vec hop]
    exact vecStep_late hk hlo hhi
  · rw [puStep_census hop]
    exact ⟨by rw [censusStep_core], by rw [censusStep_core], censusStep_counts _ _ hmode⟩
  · rw [puStep_clear hop]
    exact ⟨by rw [clearStep_core], clearStep_upd ..⟩

end Sys2Proof.InstructionReference
end

section
namespace Sys2Proof.InstructionReference
open Sys2Proof.Machine

/-! ### Vector engine: starts -/

theorem exec_vxep (p : Nat) (s : State) : exec (.vxep p) s = execVxep p s := rfl
theorem exec_vxcvt (p : Nat) (s : State) : exec (.vxcvt p) s = execVxcvt p s := rfl

section
variable {p : Nat} {s : State} {i : Ins}

/-- An arithmetic instruction of the vector engine holds resource 8 alone (R100). -/
theorem resOf_vector (hunit : iUnit i = 4) (hload : iOp i ≠ 1) (hstore : iOp i ≠ 2) : resOf i = [8] := by simp [resOf, hunit, hload, hstore]

/-- An instruction that starts holds its resources until its last step is over (R99). -/
theorem startWith_busy (u : Nat) (tm : Timing) (sigs : List Sig) {r : Nat} (hres : resOf i = [r]) :
    mget 0 (coreAt (startWith p u i tm sigs s) p).busy r = tm.b (iSteps i - 1) + tm.t := by simp [hres]

theorem startWith_unitQ (u : Nat) (tm : Timing) (sigs : List Sig) :
    unitQ (coreAt (startWith p u i tm sigs s) p) u = (unitQ (coreAt s p) u).tail := by simp [unitQ]

/-- The end of the last step of a fixed timing without a wait. -/
theorem fixedAt_end {n now t : Nat} (hn : 1 ≤ n) (r d : Option Nat) : (fixedAt now 0 t r d).b (n - 1) + (fixedAt now 0 t r d).t = now + n * t := by
  obtain ⟨m, rfl⟩ : ∃ m, n = m + 1 := ⟨n - 1, by omega⟩
  simp only [fixedAt, Nat.add_sub_cancel, Nat.succ_mul]
  omega

/-! #### VXEP -/

/-- The timing of an element program (R113). -/
def epTimingOf (s : State) (p : Nat) (i : Ins) : Timing := fixedAt s.clk.now 0 (epTiming p i s).1 (some 2) (some (epTiming p i s).2)

/-- The work of an element program: it holds the program that its slot has at the start (R113). -/
def epWork (s : State) (p : Nat) (i : Ins) : Work :=
  { ins := i, thr := thrOf (coreAt s p) 4, s0 := s.clk.now, due := s.clk.now + 1, t := (epTiming p i s).1
    acc := { slot := slotOf s p (iUmod i % 4) false } }

/-- What a start on a slot finds: one that is invalid is a fault (R175). -/
def epFound (s : State) (p : Nat) (i : Ins) : State :=
  if (slotOf s p (iUmod i % 4) false).isNone then epInvalid p (startUnit p 4 i (epTimingOf s p i) s) else startUnit p 4 i (epTimingOf s p i) s

theorem slotOf_startUnit (u : Nat) (tm : Timing) (n : Nat) (param : Bool) : slotOf (startUnit p u i tm s) p n param = slotOf s p n param := by
  unfold slotOf
  rw [startUnit_clk, startUnit, coreAt_startWith]

theorem vxep_waits (hp : p < 192) (hs : startable s p 4 0x04 = none) : exec (.vxep p) s = .next s := by
  rw [exec_vxep, execVxep, guarded_ok hp, stepRun_none hs]

theorem vxep_part (hp : p < 192) (hs : startable s p 4 0x04 = some i) (hpart : participates s p i = true) :
    exec (.vxep p) s = .next (addWork p (epWork s p i) (epFound s p i)) := by
  rw [exec_vxep, execVxep, guarded_ok hp, stepRun_part hs hpart]
  simp only [slotOf_startUnit]
  simp only [epWork, epFound, epTimingOf, fixedAt, Nat.zero_mul, Nat.add_zero]

theorem vxep_notPart (hp : p < 192) (hs : startable s p 4 0x04 = some i) (hpart : participates s p i = false) :
    exec (.vxep p) s = .next (startUnit p 4 i (epTimingOf s p i) s) := by
  rw [exec_vxep, execVxep, guarded_ok hp, stepRun_notPart hs hpart]
  rfl

theorem epFound_core : coreAt (epFound s p i) p = coreAt (startUnit p 4 i (epTimingOf s p i) s) p := by
  unfold epFound
  split
  · rw [coreAt_of_upd (epInvalid_upd (o_ := none) ..)]
  · rfl

theorem epFound_invalid (hslot : slotOf s p (iUmod i % 4) false = none) (hmode : (coreAt s p).mode = .broadcast) :
    (0x0D, p) ∈ (epFound s p i).cmt.faults := by
  rw [epFound, if_pos (by simp [hslot])]
  exact progFault_mem (by rw [coreAt_of_upd (vxFlt_upd (o_ := none) ..), startUnit, coreAt_startWith]; exact hmode)

theorem epBusy (hs : startable s p 4 0x04 = some i) (hsteps : 1 ≤ iSteps i) :
    ∀ r ∈ resOf i, mget 0 (coreAt (startUnit p 4 i (epTimingOf s p i) s) p).busy r = s.clk.now + iSteps i * (epTiming p i s).1 := by
  obtain ⟨hunit, hop⟩ := startable_some hs
  have hres : resOf i = [8] := resOf_vector hunit (by omega) (by omega)
  intro r hr
  rw [hres, List.mem_singleton] at hr
  subst hr
  rw [startUnit, startWith_busy _ _ _ hres, epTimingOf, fixedAt_end hsteps]

theorem vxep_start (hp : p < 192) (hs : startable s p 4 0x04 = some i) (hsteps : 1 ≤ iSteps i) :
    ∃ t, exec (.vxep p) s = .next t ∧ unitQ (coreAt t p) 4 = (unitQ (coreAt s p) 4).tail
      ∧ (∀ r ∈ resOf i, mget 0 (coreAt t p).busy r = s.clk.now + iSteps i * (epTiming p i s).1)
      ∧ (participates s p i = true → ∃ w, (coreAt t p).job.work = (coreAt s p).job.work ++ [w] ∧ w.ins = i ∧ w.k = 0 ∧ w.due = s.clk.now + 1
        ∧ w.t = (epTiming p i s).1 ∧ w.acc.slot = slotOf s p (iUmod i % 4) false
        ∧ (slotOf s p (iUmod i % 4) false = none → (coreAt s p).mode = .broadcast → (0x0D, p) ∈ t.cmt.faults))
      ∧ (participates s p i = false → (coreAt t p).job.work = (coreAt s p).job.work) ∧ (coreAt t p).vx.tile = (coreAt s p).vx.tile := by
  cases hpart : participates s p i with
  | true =>
    refine ⟨_, vxep_part hp hs hpart, ?_⟩
    rw [coreAt_addWork, epFound_core]
    refine ⟨startWith_unitQ .., epBusy hs hsteps, fun _ => ⟨epWork s p i, ?_, rfl, rfl, rfl, rfl, rfl, epFound_invalid⟩, nofun, ?_⟩
    · simp [startUnit]
    · simp [startUnit]
  | false =>
    refine ⟨_, vxep_notPart hp hs hpart, startWith_unitQ .., epBusy hs hsteps, nofun, fun _ => ?_, ?_⟩
    · simp [startUnit]
    · simp [startUnit]

/-! #### VXCVT -/

/-- The timing of a conversion (R114). -/
def cvTiming (s : State) (i : Ins) : Timing := fixedAt s.clk.now 0 (if cvSlow i then 2 else 1) (some 2) (some (if cvSlow i then 16 else 8))
/-- The signals of a conversion (R182). -/
def cvSigs (s : State) (i : Ins) : List Sig := if cvTwice i then mxColSigs i s.clk.now (cvTiming s i) else insSigs i s.clk.now (cvTiming s i)
/-- The work of a conversion. -/
def cvWork (s : State) (p : Nat) (i : Ins) : Work :=
  { ins := i, thr := thrOf (coreAt s p) 4, s0 := s.clk.now, due := s.clk.now + 1, t := if cvSlow i then 2 else 1 }

theorem vxcvt_waits (hp : p < 192) (hs : startable s p 4 0x05 = none) : exec (.vxcvt p) s = .next s := by
  rw [exec_vxcvt, execVxcvt, guarded_ok hp, vcvt, hs]

theorem vcvt_eq (hs : startable s p 4 0x05 = some i) : vcvt p s =
    if participates s p i then addWork p (cvWork s p i) (startWith p 4 i (cvTiming s i) (cvSigs s i) s)
    else startWith p 4 i (cvTiming s i) (cvSigs s i) s := by
  rw [vcvt, hs]
  rfl

theorem vxcvt_start (hp : p < 192) (hs : startable s p 4 0x05 = some i) (hsteps : 1 ≤ iSteps i) :
    ∃ t, exec (.vxcvt p) s = .next t ∧ unitQ (coreAt t p) 4 = (unitQ (coreAt s p) 4).tail
      ∧ (coreAt t p).sigs = (coreAt s p).sigs ++ cvSigs s i
      ∧ (∀ r ∈ resOf i, mget 0 (coreAt t p).busy r = s.clk.now + iSteps i * (if cvSlow i then 2 else 1))
      ∧ (participates s p i = true → ∃ w, (coreAt t p).job.work = (coreAt s p).job.work ++ [w] ∧ w.ins = i ∧ w.k = 0 ∧ w.due = s.clk.now + 1
        ∧ w.t = (if cvSlow i then 2 else 1))
      ∧ (participates s p i = false → (coreAt t p).job.work = (coreAt s p).job.work) ∧ (coreAt t p).vx.tile = (coreAt s p).vx.tile := by
  obtain ⟨hunit, hop⟩ := startable_some hs
  have hres : resOf i = [8] := resOf_vector hunit (by omega) (by omega)
  have hbusy : ∀ r ∈ resOf i, mget 0 (coreAt (startWith p 4 i (cvTiming s i) (cvSigs s i) s) p).busy r =
      s.clk.now + iSteps i * (if cvSlow i then 2 else 1) := by
    intro r hr
    rw [hres, List.mem_singleton] at hr
    subst hr
    rw [startWith_busy _ _ _ hres, cvTiming, fixedAt_end hsteps]
  refine ⟨_, (exec_vxcvt ..).trans (guarded_ok hp ..), ?_⟩
  rw [vcvt_eq hs]
  cases hpart : participates s p i with
  | true =>
    rw [if_pos rfl, coreAt_addWork]
    exact ⟨startWith_unitQ .., by simp, hbusy, fun _ => ⟨cvWork s p i, by simp, rfl, rfl, rfl, rfl⟩, nofun, by simp⟩
  | false => exact ⟨startWith_unitQ .., by simp, hbusy, nofun, fun _ => by simp, by simp⟩

end

end Sys2Proof.InstructionReference
end

section
namespace Sys2Proof.InstructionReference
open Sys2Proof.Machine

/-! ### Vector engine: steps -/

section
variable {p : Nat} {w : Work} {s : State} {i : Ins}

/-- From `s` to `t` core p plans the writes `l`, and its tiles, its basin and HBM stay as they are. -/
def Plans (p : Nat) (s t : State) (l : List LateWr) : Prop :=
  (coreAt t p).job.late = (coreAt s p).job.late ++ l ∧ (coreAt t p).vx.tile = (coreAt s p).vx.tile ∧ t.hbm = s.hbm
    ∧ (coreAt t p).bsn.mem = (coreAt s p).bsn.mem

/-- A step of an ALU instruction answers the writes `ws`, and changes nothing of the state but the census and the counters. -/
def Yields (p : Nat) (s : State) (r : List VWr × State) (ws : List VWr) : Prop := r.1 = ws ∧ Upd [.cores] [.pu, .pc] (some p) s r.2

theorem yields_census (t : Nat) (f : Census → Census) (ws : List VWr) : Yields p s (ws, cenAt p t f s) ws := ⟨rfl, cenAt_upd ..⟩

theorem addLates_core (t : Nat) : ∀ (ws : List VWr) (s : State), coreAt (ws.foldl (fun s x => addLate p t [] x s) s) p =
    { coreAt s p with job := { (coreAt s p).job with late := (coreAt s p).job.late ++ ws.map fun x => ⟨t, x, []⟩ } }
  | [], s => by simp
  | x :: ws, s => by rw [List.foldl_cons, addLates_core t ws, coreAt_addLate]; simp

/-- The writes that an ALU step answers are planned for the lc that its table row gives (R99). -/
theorem vxStep_plans {n : Nat} {ws : List VWr} {g : Gath} {r : List VWr × State} (hop : iOp w.ins ∉ [1, 2, 3]) (hgap : aluGap w = n)
    (hact : aluAct p w (s.clk.now + n) s = (r.1, g, r.2)) (hr : Yields p s r ws) :
    Plans p s (vxStep p w s).2 (ws.map fun x => ⟨s.clk.now + n, x, []⟩) := by
  obtain ⟨rfl, hupd⟩ := hr
  have hstep : vxStep p w s = (g, countAt p s.clk.now 4 1 (r.1.foldl (fun u x => addLate p (s.clk.now + n) [] x u) r.2)) := by
    unfold vxStep
    subst hgap
    split
    · next h => simp [h] at hop
    · next h => simp [h] at hop
    · next h => simp [h] at hop
    · simp only [hact]
  have hcore := addLates_core (p := p) (s.clk.now + n) r.1 r.2
  rw [hstep]
  refine ⟨?_, ?_, ?_, ?_⟩
  · rw [countAt_job, hcore, (hupd.core p).job rfl]
  · rw [((countAt_upd ..).core p).vx rfl, hcore, (hupd.core p).vx rfl]
  · rw [(countAt_upd ..).hbm rfl, foldl_keeps (g := State.hbm) (fun u x => show (addLate p (s.clk.now + n) [] x u).hbm = u.hbm from rfl), hupd.hbm rfl]
  · rw [((countAt_upd ..).core p).bsn rfl, hcore, (hupd.core p).bsn rfl]

/-! #### The gap of each instruction (R99) -/

theorem aluGap_ep (hop : iOp w.ins = 0x04) : aluGap w = 4 * w.t + 4 := by simp [aluGap, hop]
theorem aluGap_cvt (hop : iOp w.ins = 0x05) : aluGap w = if cvSlow w.ins then 14 else 6 := by simp [aluGap, hop]
theorem aluGap_tree (hop : iOp w.ins = 0x0D) : aluGap w = 4 := by simp [aluGap, hop]
theorem aluGap_opt (hop : iOp w.ins = 0x0E) : aluGap w = 21 := by simp [aluGap, hop]
theorem aluGap_sracc (hop : iOp w.ins = 0x0F) : aluGap w = 8 := by simp [aluGap, hop]
theorem aluGap_rand (hop : iOp w.ins = 0x10) : aluGap w = 11 := by simp [aluGap, hop]

/-! #### What each instruction's step is -/

theorem aluAct_ep (hop : iOp w.ins = 0x04) (t : Nat) : aluAct p w t s =
    ((epAct p w.ins w.acc.slot t w.k s).1, w.acc, (epAct p w.ins w.acc.slot t w.k s).2) := by simp [aluAct, hop]
theorem aluAct_cvt (hop : iOp w.ins = 0x05) (t : Nat) : aluAct p w t s = cvtAct p w.ins t w.k w.acc s := by simp [aluAct, hop]
theorem aluAct_tree (hop : iOp w.ins = 0x0D) (t : Nat) : aluAct p w t s = ((treeStep p w.ins w.k s).1, w.acc, (treeStep p w.ins w.k s).2) := by
  simp [aluAct, hop]
theorem aluAct_opt (hop : iOp w.ins = 0x0E) (t : Nat) : aluAct p w t s =
    ((optStep p w.ins (w.acc.slot.map prmAt) t w.k s).1, w.acc, (optStep p w.ins (w.acc.slot.map prmAt) t w.k s).2) := by simp [aluAct, hop]
theorem aluAct_sracc (hop : iOp w.ins = 0x0F) (t : Nat) : aluAct p w t s = ((sraccStep p w.ins t w.k s).1, w.acc, (sraccStep p w.ins t w.k s).2) := by
  simp [aluAct, hop]
theorem aluAct_rand (hop : iOp w.ins = 0x10) (t : Nat) : aluAct p w t s = ((randStep p w.ins w.k s, s).1, w.acc, (randStep p w.ins w.k s, s).2) := by
  simp [aluAct, hop]

/-! #### Rows of tiles -/

/-- n bytes of tile operand j at its offset of step k. -/
def tileBytes (s : State) (p : Nat) (i : Ins) (j k n : Nat) : List Byte :=
  rdMem (coreAt s p).vx.tile (iSel i j * 65536 + (offsetOf s p i j k).toNat) n

/-- n bytes at an offset lie in a tile. -/
def InTile (off : Int) (n : Nat) : Prop := 0 ≤ off ∧ off + (n : Int) ≤ 65536

/-- Operand j of step k is a row of a tile. -/
def TileOperand (s : State) (p : Nat) (i : Ins) (j k : Nat) : Prop := iKind i j ≠ 0 ∧ iSel i j < 5 ∧ InTile (offsetOf s p i j k) 512

theorem tileRow_inside {j k n : Nat} (h : InTile (offsetOf s p i j k) n) : tileRow p i j k n s = (tileBytes s p i j k n, s) :=
  tileRead_inside h.1 h.2

theorem rowOf_tile {j k : Nat} (h : TileOperand s p i j k) : rowOf p i j k s = (words (tileBytes s p i j k 512), s) := by
  obtain ⟨hkind, hsel, hin⟩ := h
  unfold rowOf
  rw [if_neg hkind, if_neg (by omega), if_neg (by omega)]
  simp only [tileRow_inside hin]

theorem getD_map_range {α : Type} (f : Nat → α) {n l : Nat} (h : l < n) (d : α) : ((List.range n).map f).getD l d = f l := by simp [h]

/-! #### VXEPL -/

/-- The bytes that a step of `VXEPL` has gathered. -/
def eplBytes (p : Nat) (w : Work) (s : State) : List Byte := w.acc.bytes ++ (exRead w.ev p (iSel w.ins 0) (offsetOf s p w.ins 0 w.k) 128 s).1
/-- The words that they give. -/
def eplWords (p : Nat) (w : Work) (s : State) : List W256 :=
  (List.range (4 * iSteps w.ins)).map fun j => BitVec.ofNat 256 (leAt (32 * j) 32 (eplBytes p w s))
/-- They are a valid program or parameter block (R175). -/
def eplGood (p : Nat) (w : Work) (s : State) : Bool :=
  if bbit (iUmod w.ins) 0 then decide (iSteps w.ins = 1) else decide (iSteps w.ins ≤ 8) && progOk (eplWords p w s)

theorem vxStep_epl (hop : iOp w.ins = 0x03) : vxStep p w s = eplStep p w s := by simp [vxStep, hop]

theorem exRead_vx (ev : List HwEvent) (h : Nat) (off : Int) (n : Nat) : (coreAt (exRead ev p h off n s).2 p).vx = (coreAt s p).vx :=
  ((exRead_upd ..).core p).vx rfl

theorem eplStep_gathers (hpart : w.part = true) (hk : w.k + 1 < iSteps w.ins) :
    (eplStep p w s).1.bytes = eplBytes p w s ∧ (coreAt (eplStep p w s).2 p).vx = (coreAt s p).vx := by
  simp only [eplStep, hpart, if_true, if_pos hk]
  exact ⟨rfl, exRead_vx ..⟩

theorem eplStep_fills (hpart : w.part = true) (hk : iSteps w.ins ≤ w.k + 1) : (coreAt (eplStep p w s).2 p).vx.slotDue =
    (settleSlots s.clk.now (coreAt s p).vx).slotDue ++ [(s.clk.now + 10, immOf s p w.ins 1 0 % 4,
      if eplGood p w s then some ⟨bbit (iUmod w.ins) 0, eplWords p w s⟩ else none)] := by
  simp only [eplStep, hpart, if_true, if_neg (Nat.not_lt.mpr hk), coreAt_updCore, exRead_vx]
  rfl

/-! #### VXEP -/

theorem epStep_yields {prog : List W256} (t k : Nat) (h0 : TileOperand s p i 0 k) (h1 : TileOperand s p i 1 k) (hmask : ∀ x ∈ prog, mOpc x ≠ 0x30) :
    Yields p s (epStep p i prog t k s) [toC s p i k (wordBytes ((List.range 128).map fun l =>
      (prog.foldl (mStep ((words (tileBytes s p i 0 k 512)).getD l 0) ((words (tileBytes s p i 1 k 512)).getD l 0) l)
        { m := bbit (maskAt s p ((iUmod i / 4 % 128 + k) % 128)) l }).out))] := by
  have hset : (prog.any fun w => decide (mOpc w = 0x30)) = false := by simpa using hmask
  unfold epStep
  simp only [rowOf_tile h0, rowOf_tile h1, hset, Bool.false_eq_true, if_false, List.append_nil, List.map_map]
  exact yields_census ..

theorem epAct_none (t k : Nat) : Yields p s (epAct p i none t k s) [toC s p i k (wordBytes (List.replicate 128 nan32))] := ⟨rfl, .refl ..⟩

/-! #### VXCVT -/

/-- The values of the source elements of step k. -/
def cvValues (s : State) (p : Nat) (i : Ins) (k : Nat) : List Val := (List.range 128).map fun e =>
  elemVal (cvSrc i) (elemAt (fmtBits (cvSrc i)) (leNat (tileBytes s p i 0 k (16 * fmtBits (cvSrc i)))) e)

theorem srcVals_plain {k : Nat} (hsrc : isMX (cvSrc i) = false) (hin : InTile (offsetOf s p i 0 k) (16 * fmtBits (cvSrc i))) :
    srcVals p i k s = (cvValues s p i k, s) := by
  simp [srcVals, srcCodes, hsrc, tileRow_inside hin, cvValues]

theorem cvtPlain_yields (t : Nat) {k : Nat} (hsrc : isMX (cvSrc i) = false) (hin : InTile (offsetOf s p i 0 k) (16 * fmtBits (cvSrc i))) :
    Yields p s (cvtPlain p i t k s) [toC s p i k (dstRow (cvDst i) ((cvValues s p i k).map (cvtTo (cvDst i) (cvRtz s p i) (cvNonsat s p i))))] := by
  unfold cvtPlain
  simp only [srcVals_plain hsrc hin]
  exact ⟨rfl, cvtCens_upd ..⟩

/-- The scales of the four blocks of a row (R134). -/
def cvScales (s : State) (p : Nat) (i : Ins) (k : Nat) : List Nat :=
  (List.range 4).map fun b => mxScale (cvDst i) (slice (32 * b) 32 (cvValues s p i k))

theorem cvtMxRow_yields (t : Nat) {k : Nat} (hsrc : isMX (cvSrc i) = false) (hin : InTile (offsetOf s p i 0 k) (16 * fmtBits (cvSrc i))) :
    Yields p s (cvtMxRow p i t k s) (toC s p i k (dstRow (cvDst i) ((List.range 128).map fun e =>
        mxElem (cvDst i) ((cvScales s p i k).getD (e / 32) 0) (cvRtz s p i) ((cvValues s p i k).getD e .nan)))
      :: if cvEmit s p i then [.tile 2 (iSel i 2) (0xC000 + 4 * k : Nat) ((cvScales s p i k).map (BitVec.ofNat 8))] else []) := by
  unfold cvtMxRow
  simp only [srcVals_plain hsrc hin]
  exact ⟨rfl, cvtCens_upd ..⟩

/-- A conversion between plain formats (R181). -/
theorem cvtAct_plain (t k : Nat) (g : Gath) (hsrc : cvSrc i ≠ 13 ∧ cvSrc i ≠ 18) (hdst : isMX (cvDst i) = false ∧ cvDst i ≠ 13 ∧ cvDst i ≠ 18) :
    cvtAct p i t k g s = ((cvtPlain p i t k s).1, g, (cvtPlain p i t k s).2) := by
  obtain ⟨hmx, h13, h18⟩ := hdst
  simp [cvtAct, cvTwice, hsrc, hmx, h13, h18]

/-- A conversion to an MX format with blocks along the row (R182). -/
theorem cvtAct_mxRow (t k : Nat) (g : Gath) (hsrc : cvSrc i ≠ 13) (hmx : isMX (cvDst i) = true) (h13 : cvDst i ≠ 13) (honce : cvTwice i = false) :
    cvtAct p i t k g s = ((cvtMxRow p i t k s).1, g, (cvtMxRow p i t k s).2) := by
  simp [cvtAct, honce, hsrc, hmx, h13]

/-! #### Combination, accumulation, draws, optimiser -/

theorem treeStep_yields {k : Nat} (h0 : TileOperand s p i 0 k) (h1 : TileOperand s p i 1 k) : Yields p s (treeStep p i k s)
    [toC s p i k (wordBytes ((List.range 128).map fun l =>
      rneAdd ((words (tileBytes s p i 0 k 512)).getD l 0) ((words (tileBytes s p i 1 k 512)).getD l 0)))] := by
  unfold treeStep
  simp only [rowOf_tile h0, rowOf_tile h1]
  exact ⟨rfl, .refl ..⟩

/-- Row of operand j of `VXSRACC` (R146). -/
def rawWords (s : State) (p : Nat) (i : Ins) (j k : Nat) : List Nat :=
  words (rdMem (coreAt s p).vx.tile (iSel i j * 65536 + (rawOff i j k).toNat) 512)

/-- The sum of two words with a zero made positive (R194). -/
def sraccSum (x y : Nat) : Val := match addV (v32 x) (v32 y) with | .fin n m e => if m = 0 then Val.fin false 0 0 else .fin n m e | v => v

/-- Lane l of a row of `VXSRACC`: its sum rounded at random (R194). -/
def sraccLane (s : State) (p : Nat) (i : Ins) (k l : Nat) : Nat :=
  stoch32 (drawWords s p i 2 k l 0).1 (sraccSum ((rawWords s p i 0 k).getD l 0) ((rawWords s p i 1 k).getD l 0))

theorem sraccStep_yields (t : Nat) {k : Nat} (h0 : InTile (rawOff i 0 k) 512) (h1 : InTile (rawOff i 1 k) 512) : Yields p s (sraccStep p i t k s)
    [.tile 2 (iSel i 0) (rawOff i 0 k) (wordBytes ((List.range 128).map (sraccLane s p i k)))] := by
  unfold sraccStep
  simp only [tileRead_inside h0.1 h0.2, tileRead_inside h1.1 h1.2, List.map_map]
  exact yields_census ..

theorem optStep_none (t k : Nat) : Yields p s (optStep p i none t k s)
    [.tile 2 (iSel i 0) (offsetOf s p i 0 k) ((List.replicate 128 fW48.cnan).flatMap (leBytes 8)),
      toC s p i k (wordBytes (List.replicate 256 nan32))] := ⟨rfl, .refl ..⟩

/-- The optimiser step of lane l (R196). -/
def optLane (prm : Nat → Nat) (s : State) (p : Nat) (i : Ins) (k l : Nat) : Nat × Nat × Nat :=
  (optElem prm (bbit (iUmod i) 0) (leAt (8 * l) 6 (tileBytes s p i 0 k 1024)) (leAt (4 * l) 4 (tileBytes s p i 1 k 512))
    (leAt (4 * l) 4 (tileBytes s p i 2 k 1024)) (leAt (512 + 4 * l) 4 (tileBytes s p i 2 k 1024))).1

theorem optStep_yields (prm : Nat → Nat) (t : Nat) {k : Nat} (h0 : InTile (offsetOf s p i 0 k) 1024) (h1 : InTile (offsetOf s p i 1 k) 512)
    (h2 : InTile (offsetOf s p i 2 k) 1024) : Yields p s (optStep p i (some prm) t k s)
    [.tile 2 (iSel i 0) (offsetOf s p i 0 k) ((List.range 128).flatMap fun l => leBytes 8 (optLane prm s p i k l).1),
      toC s p i k (wordBytes ((List.range 128).map fun l => (optLane prm s p i k l).2.1)
        ++ wordBytes ((List.range 128).map fun l => (optLane prm s p i k l).2.2))] := by
  unfold optStep
  simp only [tileRow_inside h0, tileRow_inside h1, tileRow_inside h2, List.map_map, List.flatMap_map]
  exact yields_census ..

end

/-- Settles O46: the starts are those of `VXEP` and `VXCVT`; a step's result is what its instruction's step yields, planned for the lc that
the instruction's gap gives. -/
theorem vectorArithmetic : Obligations.VectorArithmetic := by
  unfold Obligations.VectorArithmetic
  refine ⟨fun p s hp => ⟨vxep_waits hp, vxcvt_waits hp, fun i => vxep_start hp, fun i => vxcvt_start hp⟩,
    fun p w s _ _ => ⟨fun hop hpart => ?_, fun v hop hslot h0 h1 hmask => ?_, fun hop hslot => ?_, fun hop hplain hin => ?_,
      fun hop hsrc hkf hT5 hmx hkfDst honce hin => ?_, fun hop h0 h1 => ?_, fun hop h0 h1 => ?_, fun hop => ?_,
      fun v hop hslot h0 h1 h2 => ?_, fun hop hslot => ?_⟩⟩
  · dsimp only
    rw [vxStep_epl hop]
    exact ⟨eplStep_gathers hpart, eplStep_fills hpart⟩
  · exact vxStep_plans (p := p) (s := s) (by simp [hop]) (aluGap_ep hop) (aluAct_ep hop _) (by rw [hslot]; exact epStep_yields _ _ h0 h1 hmask)
  · exact vxStep_plans (p := p) (s := s) (by simp [hop]) (aluGap_ep hop) (aluAct_ep hop _) (by rw [hslot]; exact epAct_none ..)
  · obtain ⟨hsrcMx, hsrc⟩ := hplain _ (.inl rfl)
    have hconv := vxStep_plans (p := p) (s := s) (by simp [hop]) (aluGap_cvt hop) ((aluAct_cvt hop _).trans (cvtAct_plain _ _ _ hsrc (hplain _ (.inr rfl))))
      (cvtPlain_yields _ hsrcMx hin)
    rwa [cvValues, List.map_map] at hconv
  · have hconv := vxStep_plans (p := p) (s := s) (by simp [hop]) (aluGap_cvt hop) ((aluAct_cvt hop _).trans (cvtAct_mxRow _ _ _ hkf hmx hkfDst honce))
      (cvtMxRow_yields _ hsrc hin)
    rw [List.map_cons, apply_ite (List.map _)] at hconv
    exact hconv
  · exact vxStep_plans (p := p) (s := s) (by simp [hop]) (aluGap_tree hop) (aluAct_tree hop _) (treeStep_yields h0 h1)
  · refine ⟨(List.range 128).map (sraccLane s p w.ins w.k), vxStep_plans (p := p) (s := s) (by simp [hop]) (aluGap_sracc hop) (aluAct_sracc hop _)
      (sraccStep_yields _ h0 h1), by simp, fun l hl => (getD_map_range _ hl _).trans ?_⟩
    rfl
  · exact vxStep_plans (p := p) (s := s) (by simp [hop]) (aluGap_rand hop) (aluAct_rand hop _) ⟨rfl, .refl ..⟩
  · exact vxStep_plans (p := p) (s := s) (by simp [hop]) (aluGap_opt hop) (aluAct_opt hop _) (by rw [hslot]; exact optStep_yields _ _ h0 h1 h2)
  · exact vxStep_plans (p := p) (s := s) (by simp [hop]) (aluGap_opt hop) (aluAct_opt hop _) (by rw [hslot]; exact optStep_none ..)

end Sys2Proof.InstructionReference
end
